-- ==== Sys2Proof/Word.lean ====
section
/-!
DEFINITION. The word types of the PH-SPH-1A (R7, R78, R173).
-/
namespace Sys2Proof

/-- One byte of memory. -/
abbrev Byte := BitVec 8
/-- One V, W or Q register (R64). -/
abbrev Word := BitVec 32
/-- A 64-bit value: a register pair, a generic address, an instruction word. -/
abbrev DWord := BitVec 64
/-- One bit per thread index of a wave (R190: lane masks are indexed by thread index). -/
abbrev Mask := BitVec 64

/-- Sparse data by key: keys rise strictly and no entry holds the default value
(the operations stand in Machine/Store.lean). -/
abbrev FMap (β : Type) := List (Nat × β)

end Sys2Proof
end

