-- ==== Sys2Proof/Syntax.lean ====
section
/-!
DEFINITION. The instructions and device steps of the PH-SPH-1A as syntax: one constructor for each
row of the opcode table. A full-form word carries the fields of R225 and R226, a pair-form word its
two halves (R237), and a device step the names of the units and entries it acts on.
-/
namespace Sys2Proof

/-- The element types of R78; the code 0xF names none. -/
inductive Ety where
  | s32 | n32 | s64 | n64 | f32 | f64 | bf16 | f16 | e4m3 | e5m2 | ts8 | s8 | s16 | c64 | bits
deriving DecidableEq, Repr

/-- The causes of R172 and R173, from bit 0 up. -/
inductive Cause where
  | illegal | empty | regbound | page | rights | bounds | align | fpx | format | tile | break
  | soft | watch | preempt | check | uncorr | engine | grow | xquota | steppe | kill
deriving DecidableEq, Repr

/-- The guard field of R225: predicate and negation (R229). -/
structure Guard where
  neg : Bool
  p   : BitVec 3
deriving DecidableEq, Repr

/-- The low 19 bits of a full-form word: source B and modifier (I = 0, R225), or immediate and
short modifier (I = 1, R226). -/
inductive Src where
  | reg (sb : BitVec 11) (md : BitVec 8)
  | imm (v : BitVec 16) (md3 : BitVec 3)
deriving DecidableEq, Repr

/-- The fields of a full-form word beside FORM and OPC (R225, R226). -/
structure Full where
  ety  : Ety
  grd  : Guard
  femD : Bool
  femA : Bool
  femB : Bool
  dst  : BitVec 11
  sa   : BitVec 11
  src  : Src
deriving DecidableEq, Repr

/-- ET2 of a pair-form half (R237). -/
inductive Et2 where
  | s32 | n32 | f32 | bits
deriving DecidableEq, Repr

/-- The half opcodes of R239. -/
inductive HalfOp where
  | iadd | isub | imul | imin | imax | and | or | xor | shl | shr | sar
  | fadd | fsub | fmul | fmin | fmax | fabs | fneg | mov | cvt
deriving DecidableEq, Repr

/-- The fields of a pair-form half beside OPH (R237). -/
structure Half where
  et2 : Et2
  gd2 : BitVec 2
  dst : BitVec 8
  src : BitVec 8
  md4 : BitVec 4
deriving DecidableEq, Repr

/-- A half with its opcode: half 1 of a pair-form word, which issues with half 0 (R237, R238). -/
structure HalfWord where
  op : HalfOp
  h  : Half
deriving DecidableEq, Repr

/-- How a pending lane job of a memory producer proceeds: its bytes are fetched from the slice ahead
of the register write (`stage`), or the register is written, with the core's L1 line standing
(`land true`) or evicted (`land false`) at that moment (R19, R145). -/
inductive Land where
  | stage
  | land (l1 : Bool)
deriving DecidableEq, Repr

/-- What a path 7 request asks for; an atomic names its type, its operation code (R234), its operand and the compare
value of a cas (R337). -/
inductive PeerAct where
  | read
  | write (v : DWord)
  | atomic (ty : Ety) (op : BitVec 3) (v cmp : DWord)
deriving DecidableEq, Repr

/-- A path 7 request that another device of the domain sends here (R460): an access of `size` bytes at the
virtual address `va`, in the requester's context number. -/
structure PeerReq where
  device : Nat
  ctx    : Nat
  va     : Nat
  size   : Nat
  act    : PeerAct
deriving DecidableEq, Repr

/-- How a path 7 request ended at its target (R460): served, with what the read or the atomic returns, refused, or a
read of lost bytes (R450). -/
inductive PeerEnd where
  | done (v : BitVec 128)
  | refused
  | poisoned
deriving DecidableEq, Repr

/-- What a flit carries (R461): a request, the reply of the device `target` to one, the acknowledgement of a store that
has left a core, or a lap-done token of a slice. -/
inductive Flit where
  | request (r : PeerReq)
  | reply (target : Nat) (r : PeerReq) (e : PeerEnd)
  | ack (core id : Nat)
  | token (comp idx slice src : Nat)
deriving DecidableEq, Repr

/-- Where an error lies (R448): in a row of HBM or a pool plot, in a slice-cache line, or in an L1 line. -/
inductive ErrPlace where
  | store | slice | l1 (core : Nat)
deriving DecidableEq, Repr

/-- Who owns a lost granule (rows of R449). -/
inductive ErrOwner where
  | team (uid : Nat)
  | buffer (comp idx : Nat)
  | deviceStructure
deriving DecidableEq, Repr

/-- An uncorrectable error (R448, R449): where it lies, the granule, its owner, how it was found, and whether a carry
check rather than ECC found it. -/
structure ErrSite where
  place     : ErrPlace
  granule   : Nat
  owner     : ErrOwner
  writeBack : Bool
  carry     : Bool
deriving DecidableEq, Repr

/-- A firmware image as the boot ROM sees it: its digest and whether its signature checks (R463). -/
structure Image where
  digest : BitVec 256
  sigOk  : Bool
deriving DecidableEq, Repr

/-- A write to the key mailbox: the host port that takes it, and whether it comes through an IDE stream (R455). -/
structure BoxWrite where
  port : Nat
  ide  : Bool
deriving DecidableEq, Repr

/-- A write of a nonce at a host port (R457). -/
structure NonceWrite where
  port  : Nat
  nonce : BitVec 256
deriving DecidableEq, Repr

/-- One constructor per row of the opcode table. -/
inductive Instr where
  /-- Integer add per element, wrapping or saturating under SAT. (R286) -/
  | iadd (f : Full)
  /-- Integer subtract per element, wrapping or saturating under SAT. (R286) -/
  | isub (f : Full)
  /-- Integer multiply per element, reduced to the element width. (R286) -/
  | imul (f : Full)
  /-- Upper half of the double-width integer product. (R286) -/
  | imulh (f : Full)
  /-- Integer multiply-add a × b + d, formed exactly and then reduced. (R286) -/
  | imad (f : Full)
  /-- Signed or natural minimum per element. (R286) -/
  | imin (f : Full)
  /-- Signed or natural maximum per element. (R286) -/
  | imax (f : Full)
  /-- Integer absolute value, with handling of the most negative value. (R287) -/
  | iabs (f : Full)
  /-- Integer negation, with handling of the most negative value. (R287) -/
  | ineg (f : Full)
  /-- Bitwise and. (R286) -/
  | and (f : Full)
  /-- Bitwise or. (R286) -/
  | or (f : Full)
  /-- Bitwise exclusive or. (R286) -/
  | xor (f : Full)
  /-- Bitwise a and not b. (R286) -/
  | andn (f : Full)
  /-- Bitwise complement. (R287) -/
  | not (f : Full)
  /-- Shift left, with zeros entering. (R288) -/
  | shl (f : Full)
  /-- Logical shift right. (R288) -/
  | shr (f : Full)
  /-- Arithmetic shift right. (R288) -/
  | sar (f : Full)
  /-- Rotate left. (R288) -/
  | rot (f : Full)
  /-- Funnel shift of the 64-bit concatenation of a and d. (R288) -/
  | fshf (f : Full)
  /-- Population count. (R287) -/
  | popc (f : Full)
  /-- Count of leading zero bits. (R287) -/
  | clz (f : Full)
  /-- Count of trailing zero bits. (R287) -/
  | ctz (f : Full)
  /-- Bit reversal. (R287) -/
  | brev (f : Full)
  /-- Bit-field extract with zero or sign extension. (R289) -/
  | bfx (f : Full)
  /-- Bit-field insert into d. (R289) -/
  | bfi (f : Full)
  /-- Address add of a 64-bit base and a scaled signed offset. (R290) -/
  | lea (f : Full)
  /-- Four-way S8 dot product accumulated into S32. (R290) -/
  | idot4 (f : Full)
  /-- Byte gather from an eight-byte pool under a selector. (R291) -/
  | bpick (f : Full)
  /-- Float add with one rounding. (R292) -/
  | fadd (f : Full)
  /-- Float subtract with one rounding. (R292) -/
  | fsub (f : Full)
  /-- Float multiply with one rounding. (R292) -/
  | fmul (f : Full)
  /-- Fused multiply-add a × b + d. (R292) -/
  | fma (f : Full)
  /-- Fused negated multiply-add −(a × b) + d. (R292) -/
  | fnma (f : Full)
  /-- Long-latency float division. (R292) -/
  | fdiv (f : Full)
  /-- Float minimum with NaN and signed-zero rules. (R293) -/
  | fmin (f : Full)
  /-- Float maximum with NaN and signed-zero rules. (R293) -/
  | fmax (f : Full)
  /-- Clear the sign bit of each element. (R294) -/
  | fabs (f : Full)
  /-- Invert the sign bit of each element. (R294) -/
  | fneg (f : Full)
  /-- Long-latency reciprocal. (R295) -/
  | frcp (f : Full)
  /-- Long-latency reciprocal square root. (R295) -/
  | frsq (f : Full)
  /-- Long-latency square root. (R295) -/
  | fsqrt (f : Full)
  /-- Long-latency base-2 exponential. (R295) -/
  | fexp2 (f : Full)
  /-- Long-latency base-2 logarithm. (R295) -/
  | flog2 (f : Full)
  /-- Long-latency sine of an argument in half-turns. (R295) -/
  | fsin (f : Full)
  /-- Long-latency cosine of an argument in half-turns. (R295) -/
  | fcos (f : Full)
  /-- Round to an integral value in the same format. (R296) -/
  | frnd (f : Full)
  /-- Scale by a power of two with one rounding. (R296) -/
  | fscl (f : Full)
  /-- Classify float elements into a one-hot class field. (R296) -/
  | fcls (f : Full)
  /-- Two-way F16 or BF16 dot product accumulated into F32. (R297) -/
  | fdot2 (f : Full)
  /-- Long-latency ordered float sum across the active lanes, resumable. (R298) -/
  | fsumv (f : Full)
  /-- Complex FP64 multiply in the fixed order. (R299) -/
  | cmul (f : Full)
  /-- Complex FP64 fused multiply-accumulate in the fixed order. (R299) -/
  | cfma (f : Full)
  /-- Complex conjugate by inverting the sign of the imaginary part. (R299) -/
  | cconj (f : Full)
  /-- Long-latency complex reciprocal. (R299) -/
  | crcp (f : Full)
  /-- Convert one element between types, with element placement. (R300) -/
  | cvt (f : Full)
  /-- Narrowing conversion with stochastic rounding from supplied bits. (R301) -/
  | srnd (f : Full)
  /-- Pack two sources into narrow elements of d. (R302) -/
  | pack (f : Full)
  /-- Unpack two narrow elements into a register pair. (R303) -/
  | unpk (f : Full)
  /-- Integer compare into a predicate. (R304) -/
  | icmp (f : Full)
  /-- Float compare into a predicate. (R304) -/
  | fcmp (f : Full)
  /-- Select a or b by a predicate. (R305) -/
  | sel (f : Full)
  /-- Predicate logic through a truth table. (R306) -/
  | plog (f : Full)
  /-- Move between a predicate and a V register. (R306) -/
  | pmov (f : Full)
  /-- Wave vote all, any, count or ballot. (R307) -/
  | vote (f : Full)
  /-- Butterfly lane exchange by xor distance. (R309) -/
  | lxb (f : Full)
  /-- Indexed or shifted lane exchange. (R310) -/
  | lxs (f : Full)
  /-- Broadcast from one thread of the wave. (R310) -/
  | lxbc (f : Full)
  /-- Long-latency segmented lane reduction, resumable. (R311) -/
  | lxrd (f : Full)
  /-- Register move, copying the tag for BITS. (R312) -/
  | mov (f : Full)
  /-- Move an immediate, optionally into the high half. (R312) -/
  | movi (f : Full)
  /-- Read through an indexed register name. (R313) -/
  | movx (f : Full)
  /-- Write through an indexed register name. (R313) -/
  | movxw (f : Full)
  /-- Set, add to or read an index register. (R314) -/
  | setx (f : Full)
  /-- Read a special register into V registers. (R242) -/
  | gets (f : Full)
  /-- Write a special register from a V register. (R242) -/
  | sets (f : Full)
  /-- Move between V, W and Q registers. (R315) -/
  | wmov (f : Full)
  /-- Load the wave's operand window from a register range. (R316) -/
  | win (f : Full)
  /-- Blocking request for extended registers. (R317) -/
  | xget (f : Full)
  /-- Predicate-form request for extended registers, granted at once or refused. (R317) -/
  | xgetP (f : Full)
  /-- Release the highest extended registers. (R317) -/
  | xrel (f : Full)
  /-- Set or read format tags without changing bits. (R318) -/
  | tag (f : Full)
  /-- OR flag bits from a W register into %fpstat. (R319) -/
  | setf (f : Full)
  /-- PC-relative branch. (R321) -/
  | bra (f : Full)
  /-- Branch on a W register being zero or not. (R321) -/
  | brw (f : Full)
  /-- Decrement a W register and branch while it is not zero. (R321) -/
  | loopw (f : Full)
  /-- Branch to a computed PC. (R321) -/
  | brx (f : Full)
  /-- Write the return PC and branch. (R321) -/
  | call (f : Full)
  /-- Return to a computed PC. (R321) -/
  | ret (f : Full)
  /-- Arm or extend a join slot with an expected set. (R53) -/
  | jpt (f : Full)
  /-- Arrive at a join slot and wait for the expected threads. (R54) -/
  | join (f : Full)
  /-- Move the wave to the tail of the pending set. (R60) -/
  | yield (f : Full)
  /-- End the executing threads. (R63) -/
  | exit (f : Full)
  /-- No operation. (R322) -/
  | nop (f : Full)
  /-- Raise BREAK as an after cause, with the TRAP bit set. (R323) -/
  | trap (f : Full)
  /-- Raise BREAK as an after cause. (R323) -/
  | brk (f : Full)
  /-- Open or nest a transaction, in lane or wave mode. (R362) -/
  | tryTx (f : Full)
  /-- Close a nesting level, or commit the Kettle as one store-queue entry. (R366) -/
  | commit (f : Full)
  /-- Abort the members with code 0x01 and a software code. (R370) -/
  | abort (f : Full)
  /-- Read the Kettle occupancy and the lane's depth. (R371) -/
  | tstat (f : Full)
  /-- Load from a generic address. (R328) -/
  | ld (f : Full)
  /-- Store to a generic address through the store queue. (R328) -/
  | st (f : Full)
  /-- Load from a scratchpad offset. (R331) -/
  | lds (f : Full)
  /-- Store to a scratchpad offset. (R331) -/
  | sts (f : Full)
  /-- Load from private memory. (R332) -/
  | ldp (f : Full)
  /-- Store to private memory. (R332) -/
  | stp (f : Full)
  /-- Load on the read-only path from a W-pair base. (R330) -/
  | ldro (f : Full)
  /-- Gather load of n indexed elements per lane, resumable. (R333) -/
  | ldg (f : Full)
  /-- Scatter store of n indexed elements per lane, resumable. (R333) -/
  | stg (f : Full)
  /-- Atomic read-modify-write at a generic address. (R335) -/
  | atom (f : Full)
  /-- Atomic or Steppe update by coordinates. (R335) -/
  | atomt (f : Full)
  /-- Register-form scratchpad atomic with its scope and ordering. (R335) -/
  | atomsReg (f : Full)
  /-- Immediate-form scratchpad atomic with displacement, team scope, relaxed, returning. (R335) -/
  | atomsImm (f : Full)
  /-- Remote scratchpad add at the owning pool. (R338) -/
  | rsadd (f : Full)
  /-- Load region elements by coordinates. (R340) -/
  | ldt (f : Full)
  /-- Store region elements by coordinates, or a Steppe store update. (R340) -/
  | stt (f : Full)
  /-- Lap-tagged read of a Steppe element. (R343) -/
  | lapr (f : Full)
  /-- Prefetch a line into the L1 or the slice cache. (R344) -/
  | pref (f : Full)
  /-- Define a tile-table entry and make the tile READY. (R346) -/
  | tdef (f : Full)
  /-- Read a tile-table entry at issue. (R347) -/
  | tstate (f : Full)
  /-- Wait until a tile is READY. (R347) -/
  | twait (f : Full)
  /-- Start a tile load from memory, setting FILLING. (R351) -/
  | tld (f : Full)
  /-- Start a tile store to memory, setting DRAINING. (R351) -/
  | tst (f : Full)
  /-- Long-latency read of tile bytes into registers. (R352) -/
  | trd (f : Full)
  /-- Write registers into tile bytes. (R352) -/
  | twr (f : Full)
  /-- Zero a tile's logical image. (R353) -/
  | tzero (f : Full)
  /-- Query a region descriptor word at its home slice. (R355) -/
  | regq (f : Full)
  /-- Pin a region's order. (R124) -/
  | regpinPin (f : Full)
  /-- Unpin a region's order. (R124) -/
  | regpinUnpin (f : Full)
  /-- Clear CONT, RCNT and the monitor window. (R124) -/
  | regpinClear (f : Full)
  /-- Advise an order code for a tiled region. (R357) -/
  | regadv (f : Full)
  /-- Wait for a Steppe lap counter given in a W register. (R376) -/
  | waitlReg (f : Full)
  /-- Wait for a Steppe lap counter given as an immediate. (R376) -/
  | waitlImm (f : Full)
  /-- Wait until a wave counter is at most a W value, with a scope. (R374) -/
  | waitcReg (f : Full)
  /-- Wait until a wave counter is at most an immediate, at device scope. (R374) -/
  | waitcImm (f : Full)
  /-- Wait for an engine sequence, with the engine in a W register. (R375) -/
  | waitqReg (f : Full)
  /-- Wait for an engine sequence, with the engine as an immediate. (R375) -/
  | waitqImm (f : Full)
  /-- Wait on a memory word's condition at its point of performance. (R377) -/
  | waitm (f : Full)
  /-- Reserve the quadrant's matrix unit for the team. (R396) -/
  | mxrsv (f : Full)
  /-- Release the matrix unit reservation once the team's operations drain. (R397) -/
  | mxrel (f : Full)
  /-- Issue a matrix operation from an immediate block offset. (R403) -/
  | mxgoImm (f : Full)
  /-- Issue a matrix operation from a block offset in a register. (R403) -/
  | mxgoReg (f : Full)
  /-- Promote tile elements to registers. (R410) -/
  | mxprom (f : Full)
  /-- Read the matrix unit's status. (R411) -/
  | mxstat (f : Full)
  /-- After STQ drains, send a new chain tail to an engine. (R383) -/
  | ctail (f : Full)
  /-- Read an engine's completion sequence. (R384) -/
  | cseq (f : Full)
  /-- Team barrier with the barrier and count as immediates. (R380) -/
  | barImm (f : Full)
  /-- Team barrier with the barrier and count in a W register. (R380) -/
  | barReg (f : Full)
  /-- Gang barrier at device scope. (R381) -/
  | barg (f : Full)
  /-- Request withdrawal of an unplaced team into a mailbox at an immediate offset. (R382) -/
  | fetchwImm (f : Full)
  /-- Request withdrawal of an unplaced team into a mailbox at a register offset. (R382) -/
  | fetchwReg (f : Full)
  /-- Set a predicate true in the lowest active lane only. (R378) -/
  | elect (f : Full)
  /-- Return from handler mode, ending, saving or redelivering threads. (R181) -/
  | rth (f : Full)
  /-- Read hidden state by selector. (R386) -/
  | hget (f : Full)
  /-- Write hidden state by selector. (R386) -/
  | hset (f : Full)
  /-- HSET of OLOGD drops the sub-wave's operand-log entries and fills their destinations with zero. (R187) -/
  | ologdDrop (f : Full)
  /-- Move threads of the running sub-wave to a new parked sub-wave. (R388) -/
  | park (f : Full)
  /-- Reissue the operand-log entries of the sub-wave. (R389) -/
  | replay (f : Full)
  /-- Invalidate the L1, or write back and invalidate a page's slice-cache lines. (R390) -/
  | cinv (f : Full)
  /-- Perform a translation shoot-down for a page. (R391) -/
  | xlinv (f : Full)
  /-- Declare a range of 2 MiB units dead. (R392) -/
  | deadm (f : Full)
  /-- Write one word of an aperture range register. (R393) -/
  | apset (f : Full)
  /-- Pair-form half D := D + S. (R239) -/
  | iaddHalf (h : Half) (mate : HalfWord)
  /-- Pair-form half D := D − S. (R239) -/
  | isubHalf (h : Half) (mate : HalfWord)
  /-- Pair-form half low product. (R239) -/
  | imulHalf (h : Half) (mate : HalfWord)
  /-- Pair-form half integer minimum. (R239) -/
  | iminHalf (h : Half) (mate : HalfWord)
  /-- Pair-form half integer maximum. (R239) -/
  | imaxHalf (h : Half) (mate : HalfWord)
  /-- Pair-form half bitwise and. (R239) -/
  | andHalf (h : Half) (mate : HalfWord)
  /-- Pair-form half bitwise or. (R239) -/
  | orHalf (h : Half) (mate : HalfWord)
  /-- Pair-form half bitwise xor. (R239) -/
  | xorHalf (h : Half) (mate : HalfWord)
  /-- Pair-form half shift left. (R239) -/
  | shlHalf (h : Half) (mate : HalfWord)
  /-- Pair-form half logical shift right. (R239) -/
  | shrHalf (h : Half) (mate : HalfWord)
  /-- Pair-form half arithmetic shift right. (R239) -/
  | sarHalf (h : Half) (mate : HalfWord)
  /-- Pair-form half float add. (R239) -/
  | faddHalf (h : Half) (mate : HalfWord)
  /-- Pair-form half float subtract. (R239) -/
  | fsubHalf (h : Half) (mate : HalfWord)
  /-- Pair-form half float multiply. (R239) -/
  | fmulHalf (h : Half) (mate : HalfWord)
  /-- Pair-form half float minimum. (R239) -/
  | fminHalf (h : Half) (mate : HalfWord)
  /-- Pair-form half float maximum. (R239) -/
  | fmaxHalf (h : Half) (mate : HalfWord)
  /-- Pair-form unary half absolute value. (R239) -/
  | fabsHalf (h : Half) (mate : HalfWord)
  /-- Pair-form unary half negation. (R239) -/
  | fnegHalf (h : Half) (mate : HalfWord)
  /-- Pair-form unary half move. (R239) -/
  | movHalf (h : Half) (mate : HalfWord)
  /-- Pair-form unary half conversion between S32, N32 and F32. (R240) -/
  | cvtHalf (h : Half) (mate : HalfWord)
  /-- A word that fails the whole-word checks raises ILLEGAL in every issuing lane. (R252) -/
  | illegalWord (w : DWord)
  /-- A thread whose PC lies at or beyond the end of the text raises ILLEGAL on issue. (R223) -/
  | textOverrun
  /-- A long-latency producer writes a lane's destinations, sets their full bits and releases the waiters. (R69) -/
  | registerWriteback (wave prod job : Nat) (how : Land)
  /-- A read returns a deferred CHECK or UNCORR, zeroing the destinations and parking the lanes. (R188) -/
  | readErrorReturn (wave prod job : Nat) (uncorr : Bool)
  /-- The driver resumes an operand-log entry, reissuing the word in the logged lanes. (R185) -/
  | oplogResume (quad idx : Nat)
  /-- The driver delivers an unresolved PAGE to %handler, parking the logged lanes. (R187) -/
  | pageDeliver (quad idx : Nat)
  /-- A driver that cannot map more private pages delivers BOUNDS in place of the GROW. (R134) -/
  | growDeny (quad idx : Nat)
  /-- The driver flips a path 6 page between host and device ownership and resumes. (R197) -/
  | ownershipFlip (ctx va : Nat) (toDevice : Bool)
  /-- A blocked active wave is exchanged with a ready pending wave. (R59) -/
  | waveSwap (quad : Nat)
  /-- A wave's quantum counter reaches 65,536 and the wave is moved to the pending set. (R61) -/
  | quantumExpire (quad wave : Nat)
  /-- A ready pending wave fills an empty active place. (R62) -/
  | pendingWaveEnter (quad : Nat)
  /-- A waiting blocking XGET is granted in order when registers become free. (R74) -/
  | xgetGrant (quad : Nat)
  /-- The condition of a waiting WAITC, WAITQ, WAITL or WAITM holds and its threads resume. (R373) -/
  | waitConditionMet (wave : Nat)
  /-- A team barrier's arrived waves reach its count and all waiters resume. (R380) -/
  | barrierComplete (team b : Nat)
  /-- Every team of the gang arrives and all are released at device scope. (R381) -/
  | gangBarrierComplete (team n : Nat)
  /-- A team retires once its waves, stores and matrix operations have completed. (R63) -/
  | teamRetire (team : Nat)
  /-- A store-queue entry leaves at the core's order point. (R142) -/
  | storeOrderPoint (wave : Nat)
  /-- An instruction's writes are performed at device scope and STQ falls. (R146) -/
  | storePerformed (core entry upto : Nat)
  /-- The host or peer acknowledges a path 6 or 7 store and SYQ falls. (R147) -/
  | storeAck (core entry : Nat)
  /-- A foreign write to a read-set line aborts the lanes in its mask. (R365) -/
  | transactionConflict (wave : Nat)
  /-- When every member waits at COMMIT and the queue ahead drains, the group is tested and drained as one unit. (R366) -/
  | commitStep (wave : Nat)
  /-- The home slice's monitor counts a signature and may start a re-tiling. (R118) -/
  | monitorSignature (k : Nat)
  /-- Every slice has staged a parcel's granules and the parcel becomes MOVING. (R120) -/
  | parcelStaged (comp idx : Nat)
  /-- The datapath writes out one element of the MOVING parcel under the new order. (R120) -/
  | parcelWriteout (comp idx elem : Nat)
  /-- All write-outs of the parcel land, it becomes NEW, and the move advances or ends. (R120) -/
  | parcelNew (comp idx : Nat)
  /-- The driver writes a region descriptor and its validity is decided. (R109) -/
  | descriptorWrite (comp idx : Nat) (d : BitVec 512)
  /-- A tile load writes its last byte, the tile becomes READY and TLQ falls. (R351) -/
  | tldComplete (core entry upto : Nat)
  /-- A tile store reads its last byte and the tile becomes READY. (R351) -/
  | tstComplete (core entry upto : Nat)
  /-- A matrix unit takes the operation at its queue head and computes it. (R404) -/
  | mxOpStart (quad : Nat)
  /-- A matrix operation writes its results, promotes, releases and lowers MXQ. (R405) -/
  | mxOpComplete (quad : Nat)
  /-- A restoring holder's RTH waits and reacquires its unit once it is released. (R398) -/
  | mxReservationReacquire (wave : Nat)
  /-- A Steppe request reaching a slice is admitted to the next lap. (R418) -/
  | steppeAdmit (k : Nat)
  /-- The cursor reaches a row, applies its updates and answers its lap reads. (R419) -/
  | steppeRowApply (comp idx slice : Nat)
  /-- A slice's cursor passes its last row, enters WAIT and sends its lap-done token. (R416) -/
  | lapEnd (comp idx slice : Nat)
  /-- A slice receives a lap-done token and may enter the next lap. (R416) -/
  | lapDoneToken (comp idx slice src : Nat)
  /-- An Infuser block is decoded and CRC-checked, delivering bytes or CHECK. (R440) -/
  | infuserDecode (wave prod job : Nat)
  /-- An engine records a new tail and ENQ falls. (R429) -/
  | engineTailRecord (e : Nat)
  /-- An engine performs a NOP chain entry. (R429) -/
  | engineNop (e : Nat)
  /-- An engine performs a COPY with permutation, padding and clip: up to `upto` positions of its chunk;
  `deny`: the driver does not resolve a PAGE that it meets. (R434) -/
  | engineCopy (e upto : Nat) (deny : Bool)
  /-- An engine performs a FILL with the padding pattern, as ENGINE_COPY. (R434) -/
  | engineFill (e upto : Nat) (deny : Bool)
  /-- A bad NEXT or an unreadable entry stops the engine and raises ENGINE. (R430) -/
  | chainFault (e : Nat)
  /-- Every write of a chunk is performed and the chunk count rises; the command completes after its last chunk. (R435) -/
  | engineChunkDone (e : Nat)
  /-- Three quarters of DEADL have passed and the command's class rises by one. (R436) -/
  | deadlinePromote (e : Nat)
  /-- DEADL cycles have passed, the class becomes 3 and LATE is set. (R436) -/
  | deadlineExpire (e : Nat)
  /-- A host write of an entry address to the engine tail area acts as a CTAIL. (R427) -/
  | engineTailDoorbell (e : Nat) (addr : DWord)
  /-- A host write of a new tail to a launch queue's doorbell, accepted or refused. (R202) -/
  | launchDoorbell (q : Nat) (tail : DWord)
  /-- The distributor reads the record at HEAD and validates or rejects it. (R205) -/
  | launchRecordRead (q : Nat)
  /-- Earlier records are placed and the dependences hold, so the launch becomes startable. (R207) -/
  | launchStartable (q k : Nat)
  /-- The distributor places one team or gang of the served launch, or holds back lower priorities. (R209) -/
  | teamPlace
  /-- The argument copy completes and the team's waves enter the active and pending sets. (R215) -/
  | argCopyDone (team : Nat)
  /-- An unresolved fault in the argument copy fails the team without running it. (R215) -/
  | argCopyFault (team : Nat) (cause : Cause)
  /-- The distributor withdraws the lowest unplaced team and writes the mailbox, or writes none left. (R217) -/
  | fetchwAnswer (team : Nat)
  /-- PREEMPT is taken by a wave, which drains and enters the default handler for its save. (R193) -/
  | preemptDeliver (wave : Nat)
  /-- A save not completed within the driver-set count may be ended by KILL. (R196) -/
  | saveTimeoutKill (team : Nat)
  /-- The driver kills a launch, raising KILL in its resident teams. (R220) -/
  | launchKill (q k : Nat)
  /-- KILL ends a team at once and writes its fault record. (R179) -/
  | killDeliver (team : Nat)
  /-- All teams are retired or withdrawn, so STATUS, SEQ and the interrupt are written. (R218) -/
  | launchComplete (q : Nat)
  /-- A launch's count reaches WDOG, setting ERR bit 0 and the error interrupt. (R222) -/
  | watchdogExpire (q k : Nat)
  /-- A receiver invalidates its translations, completes accesses and acknowledges. (R198) -/
  | shootdownReceive (id member : Nat)
  /-- An acknowledgement is counted, completing the shoot-down when every member has answered. (R198) -/
  | shootdownAck (id member : Nat)
  /-- A member silent for 2^24 fabric cycles is fenced. (R199) -/
  | fenceTimeout (id member : Nat)
  /-- A target device translates and serves a path 7 request. (R460) -/
  | peerRequest (r : PeerReq)
  /-- A flit is received, checked, replayed if bad, and delivered exactly once. (R461) -/
  | linkFlitReceive (port : Nat) (seq : Nat) (crcOk : Bool) (payload : Flit)
  /-- A bank refresh falls due and is issued or postponed. (R442) -/
  | refreshDue (slice bank : Nat) (postpone : Bool)
  /-- An idle bank repays one postponed refresh. (R442) -/
  | refreshRepay (slice bank : Nat)
  /-- A row's activation counter reaches 1,024 and a back-off window begins. (R443) -/
  | rowAlert (slice bank row rows : Nat)
  /-- The back-off window's refreshes complete and the window closes. (R443) -/
  | backoffEnd (slice bank : Nat)
  /-- A stack's critical-temperature signal rises and its slices enter self-refresh. (R446) -/
  | selfRefreshEnter (stack : Nat)
  /-- The signal falls, counters and debts are zero, and waiting requests are served. (R446) -/
  | selfRefreshExit (stack : Nat)
  /-- A lost granule or a carry-check mismatch is escalated by owner and finding. (R449) -/
  | uncorrectableError (e : ErrSite)
  /-- The board controller lowers a die's arithmetic clock under a limit. (R37) -/
  | clockLower (die mhz : Nat)
  /-- The key mailbox loads and binds a key slot. (R455) -/
  | keyLoad (box : BoxWrite) (cmd : DWord) (key : BitVec 512)
  /-- The key mailbox erases a key slot. (R455) -/
  | keyClear (box : BoxWrite) (cmd : DWord)
  /-- A nonce write produces a signed attestation quote over the log. (R457) -/
  | quoteRequest (nonce : NonceWrite)
  /-- The driver appends a driver-supplied measurement entry. (R457) -/
  | measurementAppend (entry : BitVec 512)
  /-- Writing 1 to the top bit of ALERTS or PAID clears that field. (R454) -/
  | sliceStatusClear (slice : Nat) (v : DWord)
  /-- A host write to a BAR0 register with no behaviour of its own. (R454) -/
  | registerWrite (off : Nat) (v : DWord)
  /-- A core reset fails its resident teams once and keeps stores past the order point. (R462) -/
  | coreReset (core : Nat)
  /-- A slice resets after writing back and serving every admitted Steppe entry. (R462) -/
  | sliceReset (slice : Nat)
  /-- An engine resets and resumes the entry at HEAD from its chunk count. (R462) -/
  | engineReset (e : Nat)
  /-- A link resets, with flits replayed and nothing lost or duplicated. (R462) -/
  | linkReset (port : Nat)
  /-- Cold reset checks and measures firmware, trains HBM with rows dead and brings up the host ports. (R463) -/
  | coldReset (image : Image)
  /-- An uncorrectable soft error strikes a register, window entry or Kettle log entry, so that its next read raises SOFT. (R173) -/
  | registerSoftError (wave thread reg : Nat)
  /-- The asynchronous ENGINE cause is taken at the wave's next instruction boundary, parking every thread that has not exited. (R174) -/
  | engineCauseTaken (wave : Nat)
  /-- The board controller raises a die's arithmetic clock back toward 850 MHz once a power or temperature limit eases. (R37) -/
  | clockRaise (die mhz : Nat)
  /-- In recovery boot state the host port accepts a new firmware image. (R463) -/
  | recoveryNewImage (image : Image)
deriving DecidableEq, Repr

end Sys2Proof
end

