-- ==== Sys2Proof/Machine/Encoding.lean ====
section
/-!
DEFINITION. The opcode map of R243 to R251 and the whole-word checks of R252 that depend on the word
alone: for each full-form instruction its OPC, admitted types and form, operand classes (R227) and
the legal values of its modifier bits (R233 to R236 and each instruction's description).
-/
namespace Sys2Proof

/-! ## Element types (R78) -/

def Ety.code : Ety → BitVec 4
  | .s32 => 0x0 | .n32 => 0x1 | .s64 => 0x2 | .n64 => 0x3 | .f32 => 0x4 | .f64 => 0x5
  | .bf16 => 0x6 | .f16 => 0x7 | .e4m3 => 0x8 | .e5m2 => 0x9 | .ts8 => 0xA | .s8 => 0xB
  | .s16 => 0xC | .c64 => 0xD | .bits => 0xE

/-- The type of a 4-bit code; 0xF names none (R78). -/
def Ety.ofCode (c : BitVec 4) : Option Ety :=
  match c.toNat with
  | 0x0 => some .s32 | 0x1 => some .n32 | 0x2 => some .s64 | 0x3 => some .n64
  | 0x4 => some .f32 | 0x5 => some .f64 | 0x6 => some .bf16 | 0x7 => some .f16
  | 0x8 => some .e4m3 | 0x9 => some .e5m2 | 0xA => some .ts8 | 0xB => some .s8
  | 0xC => some .s16 | 0xD => some .c64 | 0xE => some .bits | _ => none

/-- Registers that hold one value: a pair for 64-bit types, a quad for C64 (R78). -/
def Ety.regs : Ety → Nat
  | .s64 | .n64 | .f64 => 2
  | .c64 => 4
  | _ => 1

/-- Elements per register (R78). -/
def Ety.elems : Ety → Nat
  | .bf16 | .f16 | .s16 => 2
  | .e4m3 | .e5m2 | .ts8 | .s8 => 4
  | _ => 1

/-- Size in bytes of one element in memory (R112). -/
def Ety.esize : Ety → Nat
  | .s8 | .ts8 | .e4m3 | .e5m2 => 1
  | .f16 | .bf16 | .s16 => 2
  | .s64 | .n64 | .f64 => 8
  | .c64 => 16
  | _ => 4

/-- Bits of one element. -/
def Ety.width (t : Ety) : Nat := 8 * t.esize

def Ety.isFloat : Ety → Bool
  | .f32 | .f64 | .bf16 | .f16 | .e4m3 | .e5m2 => true
  | _ => false

def Ety.isInt : Ety → Bool
  | .s8 | .s16 | .s32 | .s64 | .n32 | .n64 => true
  | _ => false

/-- Two's-complement types (R82). -/
def Ety.signed : Ety → Bool
  | .s8 | .s16 | .s32 | .s64 => true
  | _ => false

/-! ## Sets of types (R244) -/
def setI4 : List Ety := [.s32, .n32, .s64, .n64]
def setI6 : List Ety := setI4 ++ [.s16, .s8]
def setL4 : List Ety := setI4 ++ [.bits]
def setF4 : List Ety := [.f32, .f64, .f16, .bf16]
def setF2 : List Ety := [.f32, .f64]
def setAV : List Ety :=
  [.s32, .n32, .s64, .n64, .f32, .f64, .bf16, .f16, .e4m3, .e5m2, .ts8, .s8, .s16, .c64]
def setAN : List Ety := setAV ++ [.bits]
def setZ : List Ety := [.s32]

/-- The forms that an instruction admits (R244, column I). -/
inductive Form where
  | opt | imm | reg
deriving DecidableEq, Repr

/-- The operand classes of R227; `vn` is a V name that is not read as a source, `wh` the handle and return flag of
ATOMT (R335), `any` a field that the instruction's description reads for itself. -/
inductive Cls where
  | none | v | v2 | v4 | vn | w | w2 | wh | p | x | q | q2 | tile | any
deriving DecidableEq, Repr

/-- A field value inside its class (R227, R324, R359). -/
def Cls.ok (c : Cls) (n : BitVec 11) : Bool :=
  match c with
  | .none => n == 0
  | .v | .vn | .wh | .any => true
  | .v2 => n.toNat % 2 == 0
  | .v4 => n.toNat % 4 == 0
  | .w => n.toNat < 64
  | .w2 => n.toNat < 64 && n.toNat % 2 == 0
  | .p => n.toNat < 8
  | .x => n.toNat < 4
  | .q => n.toNat < 16
  | .q2 => n.toNat < 16 && n.toNat % 2 == 0
  | .tile => n.toNat < 256

/-- Classes whose FEM bit may be set when the operand is read (R230). -/
def Cls.fem : Cls → Bool
  | .v | .v2 | .v4 | .w | .w2 | .wh => true
  | _ => false

/-- The V class of a type (R227). -/
def Cls.ofEty (t : Ety) : Cls :=
  match t.regs with
  | 1 => .v
  | 2 => .v2
  | _ => .v4

/-! ## Fields of the modifier -/
namespace Src

/-- MOD of the register form; MOD3 in bits 2:0 of the immediate form (R249). -/
def md : Src → BitVec 8
  | .reg _ m => m
  | .imm _ m => m.zeroExtend 8

def isImm : Src → Bool
  | .reg .. => false
  | .imm .. => true

/-- The source B field; 0 in the immediate form. -/
def sb : Src → BitVec 11
  | .reg b _ => b
  | .imm .. => 0

/-- IMM16; 0 in the register form. -/
def imm16 : Src → BitVec 16
  | .reg .. => 0
  | .imm v _ => v

end Src

namespace Full

def md (f : Full) : BitVec 8 := f.src.md
def lo3 (f : Full) : Nat := f.md.toNat % 8
/-- MOD<7:5>: rounding mode, atomic operation, MW or counter (R233). -/
def hi3 (f : Full) : Nat := f.md.toNat / 32
def sat (f : Full) : Bool := f.md.getLsbD 4
def ftz (f : Full) : Bool := f.md.getLsbD 3
/-- MOD<4:2> of the atomic and wait layouts (R233). -/
def scope (f : Full) : Nat := f.md.toNat / 4 % 8
def imm? (f : Full) : Bool := f.src.isImm
def imm16 (f : Full) : BitVec 16 := f.src.imm16
def sb (f : Full) : BitVec 11 := f.src.sb

end Full

/-- The arithmetic layout (R233): which of rounding, SAT and FTZ the instruction uses, and its legal
values of bits 2:0. In the immediate form only MOD3 is present (R226). -/
def arith (rm sat ftz : Bool) (lo : Nat → Bool) (f : Full) : Bool :=
  lo f.lo3 &&
    (f.imm? ||
      ((if rm then f.hi3 != 5 && f.hi3 != 7 else f.hi3 == 0) && (sat || !f.sat) && (ftz || !f.ftz)))

def lo0 (n : Nat) : Bool := n == 0
def loAny (_ : Nat) : Bool := true
/-- All modifier bits at or above bit `k` are zero. -/
def below (k : Nat) (f : Full) : Bool := f.md.toNat < 2 ^ k
def noMod (f : Full) : Bool := f.md == 0

/-- MW and SAT of the memory layout (R235, R329): a store may narrow with SAT. -/
def mwOk (store narrow : Bool) (f : Full) : Bool :=
  if f.imm? then true
  else
    match f.hi3 with
    | 0 => !f.sat
    | 1 | 2 => narrow && f.ety == .n32 && (store || !f.sat)
    | _ => false

/-- Atomic operation codes a type admits (R234). -/
def atomOp (t : Ety) (op : Nat) : Bool := t != .f32 || !(op == 3 || op == 4 || op == 5)

/-- Conversion pairs that R94 does not mark ILLEGAL. -/
def cvtPair (src dst : Ety) : Bool :=
  src != .c64 && src != .bits && dst != .c64 && dst != .ts8 && dst != .bits &&
    !(src == .ts8 && dst.isInt)

/-- Special registers: width 64, and whether SETS may write them (R241): 0 never, 1 always,
2 in handler mode only. -/
def specialReg (n : Nat) : Option (Bool × Nat) :=
  if n ≤ 0x0C then some (false, 0)
  else if n = 0x10 ∨ n = 0x11 then some (false, 0)
  else if n = 0x12 then some (true, 0)
  else if n = 0x13 ∨ n = 0x14 then some (false, 2)
  else if n = 0x15 then some (false, 0)
  else if n = 0x16 then some (true, 0)
  else if n = 0x17 ∨ n = 0x18 then some (false, 1)
  else if n = 0x19 then some (false, 0)
  else if n = 0x1A then some (true, 0)
  else if 0x20 ≤ n ∧ n ≤ 0x25 then some (false, 0)
  else if n = 0x30 then some (false, 2)
  else none

/-- The selectors of R190. -/
inductive Sel where
  | entry | repeat | subw | retm | save | restore | parkq | pend | lpc | lst | tags
  | jctl (j : Nat) | jpc (j : Nat) | jexp (j : Nat) | jarr (j : Nat)
  | wbase (w : Nat) | wlen (w : Nat) | tent | mxs | olog | ologd
deriving DecidableEq, Repr

def Sel.of (n : Nat) : Option Sel :=
  if 0x20 ≤ n ∧ n < 0x40 then
    match (n - 0x20) % 4 with
    | 0 => some (.jctl ((n - 0x20) / 4))
    | 1 => some (.jpc ((n - 0x20) / 4))
    | 2 => some (.jexp ((n - 0x20) / 4))
    | _ => some (.jarr ((n - 0x20) / 4))
  else if 0x40 ≤ n ∧ n < 0x48 then
    if (n - 0x40) % 2 = 0 then some (.wbase ((n - 0x40) / 2)) else some (.wlen ((n - 0x40) / 2))
  else
    match n with
    | 0x00 => some .entry | 0x01 => some .repeat | 0x02 => some .subw | 0x03 => some .retm
    | 0x04 => some .save | 0x05 => some .restore | 0x06 => some .parkq | 0x07 => some .pend
    | 0x10 => some .lpc | 0x11 => some .lst | 0x12 => some .tags
    | 0x50 => some .tent | 0x58 => some .mxs | 0x60 => some .olog | 0x61 => some .ologd
    | _ => none

/-- Selectors of 64 bits (R190). -/
def Sel.wide : Sel → Bool
  | .subw | .retm | .save | .jexp _ | .jarr _ | .wbase _ | .tent | .mxs => true
  | _ => false

/-- Selectors that R190 marks rd, so that HSET of them raises ILLEGAL (R183). -/
def Sel.rdOnly : Sel → Bool
  | .entry | .subw | .save | .restore | .parkq | .olog => true
  | _ => false

/-- Selectors writable only while RESTORE = 1 (R190). -/
def Sel.atRestore : Sel → Bool
  | .lst | .tags | .tent | .mxs => true
  | _ => false

/-- Selectors with an index operand (R386). -/
def Sel.indexed : Sel → Bool
  | .tags | .tent | .mxs => true
  | _ => false

/-- What the words of one full-form instruction must satisfy (R244 to R252). -/
structure Spec where
  opc   : BitVec 9
  etys  : List Ety
  form  : Form
  dst   : Cls
  readD : Bool
  sa    : Cls
  sb    : Cls
  md    : Bool

/-- The class of a source B field in the register form; nothing is there in the immediate form. -/
def regB (f : Full) (c : Cls) : Cls := if f.imm? then .none else c

/-- The class of the general V operand of `f`'s type. -/
def tc (f : Full) : Cls := Cls.ofEty f.ety

/-- Selector-dependent operand class of HGET and HSET (R359, R387). -/
def selCls (f : Full) (s : Sel) : Cls :=
  match s.wide, f.lo3 % 2 == 1 with
  | true, true => .q2
  | true, false => .v2
  | false, true => .q
  | false, false => .v

/-- The X and Q bits of LD and ST (R324, R387). -/
def ldMod (f : Full) : Bool :=
  if f.imm? then f.lo3 % 4 == 0
  else f.lo3 % 4 == 0 && (!(f.md.getLsbD 2) || f.md.toNat / 8 == 0)

def ldBase (f : Full) : Cls := if f.md.getLsbD 2 then .q2 else .v2
def xOff (f : Full) : Cls := if f.imm? then .none else if f.md.getLsbD 3 then .v else .none
/-- Bits 2:0 of the memory layout are zero, in either form. -/
def lowZero (f : Full) : Bool := f.lo3 == 0

/-! ## Modifier rules of single instructions -/

/-- CVT (R300). -/
def cvtMod (f : Full) : Bool :=
  arith true true true lo0 f && f.sb.toNat < 256 &&
    (match Ety.ofCode (f.sb.extractLsb' 0 4) with
     | some s =>
       cvtPair s f.ety && f.sb.toNat / 16 % 4 < s.elems && f.sb.toNat / 64 % 4 < f.ety.elems
     | none => false)

/-- SRND takes an aligned run of two or four sources (R301). -/
def srndA (f : Full) : Cls := if f.ety.elems == 2 then .v2 else .v4

/-- PACK (R302, R82). -/
def packMod (f : Full) : Bool :=
  (if f.ety.elems == 2 then f.lo3 == 0 else f.lo3 < 2) &&
    (match f.ety with
     | .ts8 => f.md.toNat < 2
     | .s8 | .s16 => f.hi3 == 0 && !f.ftz
     | _ => f.hi3 != 5 && f.hi3 != 7)

/-- UNPK (R303). -/
def unpkMod (f : Full) : Bool :=
  f.sb.toNat < 16 && f.hi3 == 0 && !f.sat && f.lo3 < 2 &&
    (match Ety.ofCode (f.sb.extractLsb' 0 4) with
     | some s =>
       (if f.ety == .f32 then
          s == .f16 || s == .bf16 || s == .e4m3 || s == .e5m2 || s == .ts8
        else (s == .s8 || s == .s16) && !f.ftz) &&
         (s.elems == 4 || f.lo3 == 0)
     | none => false)

/-- LXRD (R311). -/
def lxrdMod (f : Full) : Bool :=
  below 6 f && f.md.toNat / 8 < 7 &&
    (if f.ety.isFloat then f.lo3 < 3 else f.lo3 < 6)

/-- SETX (R314). -/
def setxMod (f : Full) : Bool :=
  f.lo3 % 4 != 3 && (if f.imm? then f.lo3 < 2 else below 3 f)

/-- GETS (R242). -/
def getsOk (f : Full) : Bool :=
  noMod f &&
    (match specialReg f.imm16.toNat with
     | some (wide, _) => (f.ety == .n64) == wide
     | none => false)

/-- SETS (R242); a register writable in handler mode only is checked at issue. -/
def setsOk (f : Full) : Bool :=
  noMod f &&
    (match specialReg f.imm16.toNat with
     | some (wide, w) => (f.ety == .n64) == wide && w != 0
     | none => false)

/-- XGET and XREL counts (R317). -/
def xn (f : Full) : Bool :=
  f.imm16.toNat % 64 == 0 && 64 ≤ f.imm16.toNat && f.imm16.toNat ≤ 2048

/-- The value operand of HGET and HSET. -/
def hsel (f : Full) : Cls :=
  match Sel.of f.imm16.toNat with
  | some s => selCls f s
  | none => .none

/-- The index operand of HGET and HSET (R386). -/
def hidx (f : Full) : Cls :=
  match Sel.of f.imm16.toNat with
  | some s => if s.indexed then .w else .none
  | none => .none

/-- HGET (R250, R359). -/
def hgetOk (f : Full) : Bool :=
  below 1 f &&
    (match Sel.of f.imm16.toNat with
     | some s => (f.ety == .n64) == s.wide
     | none => false)

/-- HSET (R183, R250, R359); OLOGD has a constructor of its own. -/
def hsetOk (f : Full) : Bool :=
  below 1 f &&
    (match Sel.of f.imm16.toNat with
     | some s => (f.ety == .n64) == s.wide && !s.rdOnly && s != .ologd
     | none => false)

/-- The whole-word requirements of each full-form instruction. -/
def Instr.spec : Instr → Option (Full × Spec)
  | .iadd f => some (f, ⟨0x000, setI6, .opt, (tc f), false, (tc f), (regB f (tc f)), (arith false true false lo0 f)⟩)
  | .isub f => some (f, ⟨0x001, setI6, .opt, (tc f), false, (tc f), (regB f (tc f)), (arith false true false lo0 f)⟩)
  | .imul f => some (f, ⟨0x002, setI4, .opt, (tc f), false, (tc f), (regB f (tc f)), (arith false true false lo0 f)⟩)
  | .imulh f => some (f, ⟨0x003, setI4, .opt, (tc f), false, (tc f), (regB f (tc f)), (arith false false false lo0 f)⟩)
  | .imad f => some (f, ⟨0x004, setI4, .opt, (tc f), true, (tc f), (regB f (tc f)), (arith false true false lo0 f)⟩)
  | .imin f => some (f, ⟨0x006, setI6, .opt, (tc f), false, (tc f), (regB f (tc f)), (arith false false false lo0 f)⟩)
  | .imax f => some (f, ⟨0x007, setI6, .opt, (tc f), false, (tc f), (regB f (tc f)), (arith false false false lo0 f)⟩)
  | .iabs f => some (f, ⟨0x008, [.s8,.s16,.s32,.s64], .reg, (tc f), false, (tc f), .none, (arith false true false lo0 f)⟩)
  | .ineg f => some (f, ⟨0x009, [.s8,.s16,.s32,.s64], .reg, (tc f), false, (tc f), .none, (arith false true false lo0 f)⟩)
  | .and f => some (f, ⟨0x00A, setL4, .opt, (tc f), false, (tc f), (regB f (tc f)), (arith false false false lo0 f)⟩)
  | .or f => some (f, ⟨0x00B, setL4, .opt, (tc f), false, (tc f), (regB f (tc f)), (arith false false false lo0 f)⟩)
  | .xor f => some (f, ⟨0x00C, setL4, .opt, (tc f), false, (tc f), (regB f (tc f)), (arith false false false lo0 f)⟩)
  | .andn f => some (f, ⟨0x00D, setL4, .opt, (tc f), false, (tc f), (regB f (tc f)), (arith false false false lo0 f)⟩)
  | .not f => some (f, ⟨0x00E, setL4, .reg, (tc f), false, (tc f), .none, (arith false false false lo0 f)⟩)
  | .shl f => some (f, ⟨0x00F, setL4, .opt, (tc f), false, (tc f), (regB f .v), (arith false false false lo0 f)⟩)
  | .shr f => some (f, ⟨0x010, [.n32,.n64,.bits], .opt, (tc f), false, (tc f), (regB f .v), (arith false false false lo0 f)⟩)
  | .sar f => some (f, ⟨0x011, [.s32,.s64], .opt, (tc f), false, (tc f), (regB f .v), (arith false false false lo0 f)⟩)
  | .rot f => some (f, ⟨0x012, [.n32,.bits], .opt, (tc f), false, (tc f), (regB f .v), (arith false false false lo0 f)⟩)
  | .fshf f => some (f, ⟨0x013, [.n32,.bits], .opt, (tc f), true, (tc f), (regB f .v), (arith false false false (· < 2) f)⟩)
  | .popc f => some (f, ⟨0x014, [.n32,.n64,.bits], .reg, (tc f), false, (tc f), .none, (arith false false false lo0 f)⟩)
  | .clz f => some (f, ⟨0x015, [.n32,.n64,.bits], .reg, (tc f), false, (tc f), .none, (arith false false false lo0 f)⟩)
  | .ctz f => some (f, ⟨0x016, [.n32,.n64,.bits], .reg, (tc f), false, (tc f), .none, (arith false false false lo0 f)⟩)
  | .brev f => some (f, ⟨0x017, [.n32,.n64,.bits], .reg, (tc f), false, (tc f), .none, (arith false false false lo0 f)⟩)
  | .bfx f => some (f, ⟨0x018, setI4, .opt, (tc f), false, (tc f), (regB f .v), (arith false false false lo0 f)⟩)
  | .bfi f => some (f, ⟨0x019, setI4, .opt, (tc f), true, (tc f), (regB f .v), (arith false false false lo0 f)⟩)
  | .lea f => some (f, ⟨0x01A, [.n64], .opt, .v2, false, .v2, (regB f .v), (arith false false false loAny f)⟩)
  | .idot4 f => some (f, ⟨0x01B, [.s32], .reg, .v, true, .v, .v, (arith false true false lo0 f)⟩)
  | .bpick f => some (f, ⟨0x01D, [.bits], .opt, .v, true, .v, (regB f .v), (arith false false false lo0 f)⟩)
  | .fadd f => some (f, ⟨0x040, setF4, .opt, (tc f), false, (tc f), (regB f (tc f)), (arith true true true lo0 f)⟩)
  | .fsub f => some (f, ⟨0x041, setF4, .opt, (tc f), false, (tc f), (regB f (tc f)), (arith true true true lo0 f)⟩)
  | .fmul f => some (f, ⟨0x042, setF4, .opt, (tc f), false, (tc f), (regB f (tc f)), (arith true true true lo0 f)⟩)
  | .fma f => some (f, ⟨0x043, setF4, .opt, (tc f), true, (tc f), (regB f (tc f)), (arith true true true lo0 f)⟩)
  | .fnma f => some (f, ⟨0x044, setF4, .opt, (tc f), true, (tc f), (regB f (tc f)), (arith true true true lo0 f)⟩)
  | .fdiv f => some (f, ⟨0x04C, setF2, .opt, (tc f), false, (tc f), (regB f (tc f)), (arith true true true lo0 f)⟩)
  | .fmin f => some (f, ⟨0x045, setF4, .opt, (tc f), false, (tc f), (regB f (tc f)), (arith false false true lo0 f)⟩)
  | .fmax f => some (f, ⟨0x046, setF4, .opt, (tc f), false, (tc f), (regB f (tc f)), (arith false false true lo0 f)⟩)
  | .fabs f => some (f, ⟨0x047, setF4, .reg, (tc f), false, (tc f), .none, (noMod f)⟩)
  | .fneg f => some (f, ⟨0x048, setF4, .reg, (tc f), false, (tc f), .none, (noMod f)⟩)
  | .frcp f => some (f, ⟨0x049, setF2, .reg, (tc f), false, (tc f), .none, (arith true true true lo0 f)⟩)
  | .frsq f => some (f, ⟨0x04A, setF2, .reg, (tc f), false, (tc f), .none, (arith true true true lo0 f)⟩)
  | .fsqrt f => some (f, ⟨0x04B, setF2, .reg, (tc f), false, (tc f), .none, (arith true true true lo0 f)⟩)
  | .fexp2 f => some (f, ⟨0x04D, [.f32], .reg, .v, false, .v, .none, (arith true true true lo0 f)⟩)
  | .flog2 f => some (f, ⟨0x04E, [.f32], .reg, .v, false, .v, .none, (arith true true true lo0 f)⟩)
  | .fsin f => some (f, ⟨0x04F, [.f32], .reg, .v, false, .v, .none, (arith true true true lo0 f)⟩)
  | .fcos f => some (f, ⟨0x050, [.f32], .reg, .v, false, .v, .none, (arith true true true lo0 f)⟩)
  | .frnd f => some (f, ⟨0x051, setF4, .reg, (tc f), false, (tc f), .none, (arith true false true lo0 f)⟩)
  | .fscl f => some (f, ⟨0x052, setF4, .opt, (tc f), false, (tc f), (regB f .v), (arith true true true lo0 f)⟩)
  | .fcls f => some (f, ⟨0x053, setF4, .reg, .v, false, (tc f), .none, (noMod f)⟩)
  | .fdot2 f => some (f, ⟨0x054, [.f32], .reg, .v, true, .v, .v, (arith true true true (· < 2) f)⟩)
  | .fsumv f => some (f, ⟨0x059, setF2, .reg, (tc f), false, (tc f), .none, (arith true true true lo0 f)⟩)
  | .cmul f => some (f, ⟨0x055, [.c64], .opt, .v4, false, .v4, (regB f .v4), (arith true true true (· < 4) f)⟩)
  | .cfma f => some (f, ⟨0x056, [.c64], .opt, .v4, true, .v4, (regB f .v4), (arith true true true (· < 4) f)⟩)
  | .cconj f => some (f, ⟨0x057, [.c64], .reg, .v4, false, .v4, .none, (noMod f)⟩)
  | .crcp f => some (f, ⟨0x058, [.c64], .reg, .v4, false, .v4, .none, (arith true true true lo0 f)⟩)
  | .cvt f => some (f, ⟨0x080, setAV, .reg, (tc f), (f.ety.elems != 1), (match Ety.ofCode (f.sb.extractLsb' 0 4) with | some s => Cls.ofEty s | none => .v), .any, (cvtMod f)⟩)
  | .srnd f => some (f, ⟨0x081, [.f16,.bf16,.e4m3,.e5m2], .reg, .v, false, srndA f, .v, (f.hi3 == 5 && f.lo3 == 0)⟩)
  | .pack f => some (f, ⟨0x082, [.f16,.bf16,.e4m3,.e5m2,.ts8,.s8,.s16], .reg, .v, (f.ety.elems == 4), .v, .v, (packMod f)⟩)
  | .unpk f => some (f, ⟨0x083, [.s32,.n32,.f32], .reg, .v2, false, .v, .any, (unpkMod f)⟩)
  | .icmp f => some (f, ⟨0x085, setI6, .opt, .p, false, (tc f), (regB f (tc f)), (arith false false false (· < 6) f)⟩)
  | .fcmp f => some (f, ⟨0x086, setF4, .opt, .p, false, (tc f), (regB f (tc f)), (arith false false true loAny f)⟩)
  | .sel f => some (f, ⟨0x087, setAN, .opt, (tc f), false, (tc f), (regB f (tc f)), (below 4 f)⟩)
  | .plog f => some (f, ⟨0x088, setZ, .reg, .p, false, .p, .p, (below 4 f)⟩)
  | .pmov f => some (f, ⟨0x089, setZ, .reg, (if f.lo3 == 0 then .v else .p), false, (if f.lo3 == 0 then .p else .v), .none, (below 1 f)⟩)
  | .vote f => some (f, ⟨0x08A, setZ, .reg, (match f.lo3 with | 0 | 1 => .p | 2 => .v | _ => .v2), false, .p, .none, (below 2 f)⟩)
  | .lxb f => some (f, ⟨0x08B, setAN, .reg, (tc f), false, (tc f), .none, (below 6 f)⟩)
  | .lxs f => some (f, ⟨0x08C, setAN, .reg, (tc f), false, (tc f), .v, (f.md.toNat < 3)⟩)
  | .lxbc f => some (f, ⟨0x08D, setAN, .reg, (tc f), false, (tc f), .none, (below 6 f)⟩)
  | .lxrd f => some (f, ⟨0x08E, (setI4 ++ setF4), .reg, (tc f), false, (tc f), .none, (lxrdMod f)⟩)
  | .mov f => some (f, ⟨0x08F, setAN, .reg, (tc f), false, (tc f), .none, (noMod f)⟩)
  | .movi f => some (f, ⟨0x090, setAN, .imm, (tc f), (f.lo3 == 1), .none, .none, (below 1 f && (f.lo3 == 0 || f.ety == .s32 || f.ety == .n32 || f.ety == .bits))⟩)
  | .movx f => some (f, ⟨0x091, setAN, .reg, (tc f), false, .v, .none, (below 2 f)⟩)
  | .movxw f => some (f, ⟨0x092, setAN, .reg, .v, false, (tc f), .none, (below 2 f)⟩)
  | .setx f => some (f, ⟨0x093, [.s32], .opt, (if f.lo3 % 4 == 2 then .v else .x), false, (if f.imm? then .none else if f.lo3 % 4 == 2 then .x else .v), .none, (setxMod f)⟩)
  | .gets f => some (f, ⟨0x094, [.n32,.n64], .imm, (if f.ety == .n64 then .v2 else .v), false, .none, .none, (getsOk f)⟩)
  | .sets f => some (f, ⟨0x095, [.n32,.n64], .imm, .none, false, (if f.ety == .n64 then .v2 else .v), .none, (setsOk f)⟩)
  | .wmov f => some (f, ⟨0x096, [.s32,.n32,.f32,.bits], .reg, (match f.lo3 with | 0 | 4 => .v | 1 | 2 => .w | _ => .q), false, (match f.lo3 with | 1 | 5 => .v | 0 | 2 => .w | _ => .q), .none, (below 3 f && f.lo3 % 4 != 3)⟩)
  | .win f => some (f, ⟨0x097, setZ, .imm, .none, false, .vn, .none, (noMod f && 1 ≤ f.imm16.toNat && f.imm16.toNat ≤ 32 && f.sa.toNat + f.imm16.toNat ≤ 2048)⟩)
  | .xget f => some (f, ⟨0x098, setZ, .imm, .none, false, .none, .none, (f.lo3 == 0 && xn f)⟩)
  | .xgetP f => some (f, ⟨0x098, setZ, .imm, .p, false, .none, .none, (f.lo3 == 1 && xn f)⟩)
  | .xrel f => some (f, ⟨0x099, setZ, .imm, .none, false, .none, .none, (f.lo3 == 0 && xn f)⟩)
  | .tag f => some (f, ⟨0x09A, setAN, .reg, (if f.lo3 == 0 then tc f else .v), false, (if f.lo3 == 0 then .none else .v), .none, (below 1 f && (f.lo3 == 0 || f.ety == .n32))⟩)
  | .setf f => some (f, ⟨0x09B, setZ, .reg, .none, false, .w, .none, (noMod f)⟩)
  | .bra f => some (f, ⟨0x0C0, setZ, .imm, .none, false, .none, .none, (noMod f)⟩)
  | .brw f => some (f, ⟨0x0CE, setZ, .imm, .none, false, .w, .none, (below 1 f)⟩)
  | .loopw f => some (f, ⟨0x0CD, setZ, .imm, .w, true, .none, .none, (noMod f)⟩)
  | .brx f => some (f, ⟨0x0C1, setZ, .reg, .none, false, .v, .none, (noMod f)⟩)
  | .call f => some (f, ⟨0x0C2, setZ, .imm, .v, false, .none, .none, (noMod f)⟩)
  | .ret f => some (f, ⟨0x0C3, setZ, .reg, .none, false, .v, .none, (noMod f)⟩)
  | .jpt f => some (f, ⟨0x0C5, setZ, .imm, .none, false, .none, .none, true⟩)
  | .join f => some (f, ⟨0x0C4, setZ, .imm, .none, false, .none, .none, (f.imm16 == 0)⟩)
  | .yield f => some (f, ⟨0x0C6, setZ, .reg, .none, false, .none, .none, (noMod f)⟩)
  | .exit f => some (f, ⟨0x0C7, setZ, .reg, .none, false, .none, .none, (noMod f)⟩)
  | .nop f => some (f, ⟨0x0C8, setZ, .reg, .none, false, .none, .none, (noMod f)⟩)
  | .trap f => some (f, ⟨0x0CF, setZ, .imm, .none, false, .none, .none, (noMod f)⟩)
  | .brk f => some (f, ⟨0x0D0, setZ, .imm, .none, false, .none, .none, (noMod f)⟩)
  | .tryTx f => some (f, ⟨0x0C9, setZ, .imm, .none, false, .none, .none, (below 1 f)⟩)
  | .commit f => some (f, ⟨0x0CA, setZ, .reg, .none, false, .none, .none, (noMod f)⟩)
  | .abort f => some (f, ⟨0x0CB, setZ, .imm, .none, false, .none, .none, (noMod f && f.imm16.toNat < 256)⟩)
  | .tstat f => some (f, ⟨0x0CC, setZ, .reg, .v, false, .none, .none, (noMod f)⟩)
  | .ld f => some (f, ⟨0x100, setAN, .opt, (tc f), false, (ldBase f), (xOff f), (mwOk false true f && ldMod f)⟩)
  | .st f => some (f, ⟨0x101, setAN, .opt, (tc f), true, (ldBase f), (xOff f), (mwOk true true f && ldMod f)⟩)
  | .lds f => some (f, ⟨0x108, setAN, .opt, (tc f), false, .v, (xOff f), (mwOk false true f && lowZero f)⟩)
  | .sts f => some (f, ⟨0x109, setAN, .opt, (tc f), true, .v, (xOff f), (mwOk true true f && lowZero f)⟩)
  | .ldp f => some (f, ⟨0x10C, setAN, .opt, (tc f), false, .v, (xOff f), (mwOk false true f && lowZero f)⟩)
  | .stp f => some (f, ⟨0x10D, setAN, .opt, (tc f), true, .v, (xOff f), (mwOk true true f && lowZero f)⟩)
  | .ldro f => some (f, ⟨0x10E, setAN, .opt, (tc f), false, .w2, (xOff f), (mwOk false true f && lowZero f)⟩)
  | .ldg f => some (f, ⟨0x106, setAN, .reg, (tc f), false, .v2, .v, (below 4 f)⟩)
  | .stg f => some (f, ⟨0x107, setAN, .reg, (tc f), true, .v2, .v, (below 4 f)⟩)
  | .atom f => some (f, ⟨0x102, (setI4 ++ [.f32]), .reg, (tc f), true, .v2, .any, (f.scope != 7 && atomOp f.ety f.hi3 && f.sb.toNat % 1024 == 0)⟩)
  | .atomt f => some (f, ⟨0x105, (setI4 ++ [.f32]), .reg, (tc f), true, .v, .wh, (f.scope != 7 && atomOp f.ety f.hi3 && f.sb.toNat % 1024 < 64)⟩)
  | .atomsReg f => some (f, ⟨0x10A, (setI4 ++ [.f32]), .reg, (tc f), true, .v, .any, (f.scope != 7 && atomOp f.ety f.hi3 && f.sb.toNat % 1024 == 0)⟩)
  | .atomsImm f => some (f, ⟨0x10A, (setI4 ++ [.f32]), .imm, (tc f), true, .v, .none, (atomOp f.ety f.lo3)⟩)
  | .rsadd f => some (f, ⟨0x10B, [.s32,.f32], .reg, .v, true, .v2, .none, (f.scope != 7 && f.hi3 == 0)⟩)
  | .ldt f => some (f, ⟨0x103, setAN, .reg, (tc f), false, .v, .w, (noMod f)⟩)
  | .stt f => some (f, ⟨0x104, setAN, .reg, (tc f), true, .v, .w, (noMod f)⟩)
  | .lapr f => some (f, ⟨0x14B, [.s32,.s64,.f32], .reg, (tc f), false, .v, .w, (noMod f)⟩)
  | .pref f => some (f, ⟨0x10F, setZ, .opt, .none, false, .v2, (regB f .v), (below 1 f)⟩)
  | .tdef f => some (f, ⟨0x142, setAN, .reg, .tile, false, .v2, .none, (noMod f)⟩)
  | .tstate f => some (f, ⟨0x143, setZ, .reg, .v2, false, .tile, .none, (noMod f)⟩)
  | .twait f => some (f, ⟨0x144, setZ, .reg, .tile, false, .none, .none, (noMod f)⟩)
  | .tld f => some (f, ⟨0x140, setZ, .reg, .tile, false, (if f.md.getLsbD 7 then .v2 else .v), (if f.md.getLsbD 7 then .v else .w), (f.lo3 != 7)⟩)
  | .tst f => some (f, ⟨0x141, setZ, .reg, .tile, false, (if f.md.getLsbD 7 then .v2 else .v), (if f.md.getLsbD 7 then .v else .w), (f.lo3 != 7)⟩)
  | .trd f => some (f, ⟨0x145, setAN, .reg, (tc f), false, .tile, .v, (noMod f)⟩)
  | .twr f => some (f, ⟨0x146, setAN, .reg, .tile, false, (tc f), .v, (noMod f)⟩)
  | .tzero f => some (f, ⟨0x147, setZ, .reg, .tile, false, .none, .none, (noMod f)⟩)
  | .regq f => some (f, ⟨0x148, setZ, .reg, .v2, false, .w, .none, (below 3 f && f.lo3 != 7)⟩)
  | .regpinPin f => some (f, ⟨0x149, setZ, .reg, .p, false, .w, .none, (f.md == 0)⟩)
  | .regpinUnpin f => some (f, ⟨0x149, setZ, .reg, .p, false, .w, .none, (f.md == 1)⟩)
  | .regpinClear f => some (f, ⟨0x149, setZ, .reg, .p, false, .w, .none, (f.md == 2)⟩)
  | .regadv f => some (f, ⟨0x14A, setZ, .reg, .p, false, .w, .v, (noMod f)⟩)
  | .waitlReg f => some (f, ⟨0x14C, setZ, .reg, .none, false, .w, .w, (noMod f)⟩)
  | .waitlImm f => some (f, ⟨0x14C, setZ, .imm, .none, false, .w, .none, (noMod f)⟩)
  | .waitcReg f => some (f, ⟨0x14D, setZ, .reg, .none, false, .w, .none, (f.hi3 < 6 && f.scope != 7 && f.lo3 % 4 == 0)⟩)
  | .waitcImm f => some (f, ⟨0x14D, setZ, .imm, .none, false, .none, .none, (f.lo3 < 6)⟩)
  | .waitqReg f => some (f, ⟨0x14E, setZ, .reg, .none, false, .w2, .w, (noMod f)⟩)
  | .waitqImm f => some (f, ⟨0x14E, setZ, .imm, .none, false, .w2, .none, (noMod f && f.imm16.toNat < 64)⟩)
  | .waitm f => some (f, ⟨0x14F, setZ, .reg, .none, false, .w2, .w, (below 5 f && f.scope != 7)⟩)
  | .mxrsv f => some (f, ⟨0x180, setZ, .reg, .p, false, .none, .none, (noMod f)⟩)
  | .mxrel f => some (f, ⟨0x181, setZ, .reg, .none, false, .none, .none, (noMod f)⟩)
  | .mxgoImm f => some (f, ⟨0x182, setZ, .imm, .none, false, .none, .none, (noMod f)⟩)
  | .mxgoReg f => some (f, ⟨0x182, setZ, .reg, .none, false, .v, .none, (noMod f)⟩)
  | .mxprom f => some (f, ⟨0x183, [.f32,.f64,.c64], .reg, (tc f), false, .tile, .v, (below 6 f)⟩)
  | .mxstat f => some (f, ⟨0x184, setZ, .reg, .v, false, .none, .none, (noMod f)⟩)
  | .ctail f => some (f, ⟨0x185, setZ, .reg, .none, false, .w2, .w, (noMod f)⟩)
  | .cseq f => some (f, ⟨0x186, setZ, .reg, .v2, false, .w, .none, (noMod f)⟩)
  | .barImm f => some (f, ⟨0x187, setZ, .imm, .none, false, .none, .none, (noMod f && f.imm16.toNat < 1024)⟩)
  | .barReg f => some (f, ⟨0x187, setZ, .reg, .none, false, .w, .none, (noMod f)⟩)
  | .barg f => some (f, ⟨0x188, setZ, .reg, .none, false, .none, .none, (below 2 f)⟩)
  | .fetchwImm f => some (f, ⟨0x189, setZ, .imm, .none, false, .none, .none, (noMod f)⟩)
  | .fetchwReg f => some (f, ⟨0x189, setZ, .reg, .none, false, .v, .none, (noMod f)⟩)
  | .elect f => some (f, ⟨0x18A, setZ, .reg, .p, false, .none, .none, (noMod f)⟩)
  | .rth f => some (f, ⟨0x1C0, setZ, .reg, .none, false, .none, .none, (noMod f)⟩)
  | .hget f => some (f, ⟨0x1C2, [.n32,.n64], .imm, (hsel f), false, (hidx f), .none, (hgetOk f)⟩)
  | .hset f => some (f, ⟨0x1C3, [.n32,.n64], .imm, (hidx f), true, (hsel f), .none, (hsetOk f)⟩)
  | .ologdDrop f => some (f, ⟨0x1C3, [.n32], .imm, .none, false, (hsel f), .none, (below 1 f && f.imm16 == 0x61)⟩)
  | .park f => some (f, ⟨0x1C4, setZ, .reg, .none, false, .w, .none, (noMod f)⟩)
  | .replay f => some (f, ⟨0x1C5, setZ, .reg, .none, false, .none, .none, (noMod f)⟩)
  | .cinv f => some (f, ⟨0x1C6, setZ, .reg, .none, false, (if f.lo3 == 0 then .none else .w2), .none, (below 1 f)⟩)
  | .xlinv f => some (f, ⟨0x1C7, setZ, .reg, .none, false, .w2, .w, (below 1 f)⟩)
  | .deadm f => some (f, ⟨0x1C8, setZ, .reg, .none, false, .w2, .w, (noMod f)⟩)
  | .apset f => some (f, ⟨0x1C9, setZ, .reg, .w, true, .v2, .none, (noMod f)⟩)
  | _ => none

/-- The half opcode of a pair-form constructor (R239), with its two halves. -/
def Instr.pair : Instr → Option (HalfWord × HalfWord)
  | .iaddHalf h mate => some (⟨.iadd, h⟩, mate)
  | .isubHalf h mate => some (⟨.isub, h⟩, mate)
  | .imulHalf h mate => some (⟨.imul, h⟩, mate)
  | .iminHalf h mate => some (⟨.imin, h⟩, mate)
  | .imaxHalf h mate => some (⟨.imax, h⟩, mate)
  | .andHalf h mate => some (⟨.and, h⟩, mate)
  | .orHalf h mate => some (⟨.or, h⟩, mate)
  | .xorHalf h mate => some (⟨.xor, h⟩, mate)
  | .shlHalf h mate => some (⟨.shl, h⟩, mate)
  | .shrHalf h mate => some (⟨.shr, h⟩, mate)
  | .sarHalf h mate => some (⟨.sar, h⟩, mate)
  | .faddHalf h mate => some (⟨.fadd, h⟩, mate)
  | .fsubHalf h mate => some (⟨.fsub, h⟩, mate)
  | .fmulHalf h mate => some (⟨.fmul, h⟩, mate)
  | .fminHalf h mate => some (⟨.fmin, h⟩, mate)
  | .fmaxHalf h mate => some (⟨.fmax, h⟩, mate)
  | .fabsHalf h mate => some (⟨.fabs, h⟩, mate)
  | .fnegHalf h mate => some (⟨.fneg, h⟩, mate)
  | .movHalf h mate => some (⟨.mov, h⟩, mate)
  | .cvtHalf h mate => some (⟨.cvt, h⟩, mate)
  | _ => none

/-- Steps that are no instruction word: device events and the two whole-word faults. -/
def Instr.isEvent (i : Instr) : Bool := i.spec.isNone && i.pair.isNone

/-- GRD = 0b1000 is reserved (R229). -/
def Guard.ok (g : Guard) : Bool := !(g.neg && g.p == 0)

/-- The conditions of R252 on a full-form word. -/
def Spec.ok (f : Full) (s : Spec) : Bool :=
  s.etys.contains f.ety && f.grd.ok &&
  (match s.form with
   | .opt => true
   | .imm => f.imm?
   | .reg => !f.imm?) &&
  s.dst.ok f.dst && s.sa.ok f.sa && s.sb.ok f.sb && s.md &&
  (!f.femD || (s.readD && s.dst.fem)) &&
  (!f.femA || s.sa.fem) &&
  (!f.femB || (!f.imm? && s.sb.fem))

/-! ## The pair form (R237 to R240) -/

/-- ET2 as an element type (R237). -/
def Et2.ety : Et2 → Ety
  | .s32 => .s32 | .n32 => .n32 | .f32 => .f32 | .bits => .bits

def Et2.code : Et2 → BitVec 2
  | .s32 => 0 | .n32 => 1 | .f32 => 2 | .bits => 3

def Et2.ofCode (c : BitVec 2) : Et2 :=
  match c.toNat with
  | 0 => .s32 | 1 => .n32 | 2 => .f32 | _ => .bits

/-- OPH (R239). -/
def HalfOp.code : HalfOp → BitVec 7
  | .iadd => 0x00 | .isub => 0x01 | .imul => 0x02 | .imin => 0x06 | .imax => 0x07
  | .and => 0x0A | .or => 0x0B | .xor => 0x0C | .shl => 0x0F | .shr => 0x10 | .sar => 0x11
  | .fadd => 0x20 | .fsub => 0x21 | .fmul => 0x22 | .fmin => 0x25 | .fmax => 0x26
  | .fabs => 0x27 | .fneg => 0x28 | .mov => 0x30 | .cvt => 0x31

def HalfOp.ofCode (c : BitVec 7) : Option HalfOp :=
  match c.toNat with
  | 0x00 => some .iadd | 0x01 => some .isub | 0x02 => some .imul | 0x06 => some .imin
  | 0x07 => some .imax | 0x0A => some .and | 0x0B => some .or | 0x0C => some .xor
  | 0x0F => some .shl | 0x10 => some .shr | 0x11 => some .sar | 0x20 => some .fadd
  | 0x21 => some .fsub | 0x22 => some .fmul | 0x25 => some .fmin | 0x26 => some .fmax
  | 0x27 => some .fabs | 0x28 => some .fneg | 0x30 => some .mov | 0x31 => some .cvt
  | _ => none

/-- The ET2 values a half opcode admits (R239). -/
def HalfOp.admits (o : HalfOp) (t : Et2) : Bool :=
  match o with
  | .iadd | .isub | .imul | .imin | .imax => t == .s32 || t == .n32
  | .and | .or | .xor | .shl => t != .f32
  | .shr => t == .n32 || t == .bits
  | .sar => t == .s32
  | .fadd | .fsub | .fmul | .fmin | .fmax | .fabs | .fneg => t == .f32
  | .mov => true
  | .cvt => t != .bits

/-- The half opcodes that take S as their only source (R239). -/
def HalfOp.unary : HalfOp → Bool
  | .fabs | .fneg | .mov | .cvt => true
  | _ => false

/-- SR8 holds an immediate (R240). -/
def Half.imm? (h : Half) : Bool := h.md4.getLsbD 3

/-- MD4<2:0>. -/
def Half.m3 (h : Half) : Nat := h.md4.toNat % 8

/-- The legal values of MD4 (R240). -/
def HalfWord.mdOk (w : HalfWord) : Bool :=
  match w.op with
  | .iadd | .isub | .imul => w.h.m3 < 2
  | .fadd | .fsub | .fmul => w.h.m3 < 5 || w.h.m3 == 6
  | .cvt => !w.h.imm? && (w.h.et2 == .f32 || w.h.m3 < 4)
  | _ => w.h.m3 == 0

/-- The conditions of R252 on one half. -/
def HalfWord.ok (w : HalfWord) : Bool := w.op.admits w.h.et2 && w.mdOk

end Sys2Proof
end

