-- ==== Sys2Proof/WellFormed.lean ====
section
/-!
DEFINITION. Which instruction terms stand for a word of the machine: the checks of R252 that one can
make on the word alone. Checks that depend on the wave (handler mode, privilege, descriptor flags)
are made at issue, by the common course of Machine/Operands.lean.
-/
namespace Sys2Proof

/-- A term is well formed when its fields pass every check of R252 that the word alone decides. A
device step has no word, and any arguments are well formed. -/
def Instr.wellFormed (i : Instr) : Bool :=
  match i.spec, i.pair with
  | some (f, s), _ => s.ok f
  | none, some (a, b) => a.ok && b.ok
  | none, none => true

end Sys2Proof
end

