-- ==== Sys2Proof/Decode.lean ====
section
/-!
DEFINITION. The decoder of R223 to R252 and, after it, the encoder from the same tables.
-/
namespace Sys2Proof

/-- Why bytes are no instruction (R252). -/
inductive Reject where
  /-- fewer than eight bytes -/
  | short
  /-- FORM 10 or 11 (R224) -/
  | form
  /-- an ETY that names no type (R78) -/
  | type
  /-- an OPC or OPH that no table lists (R244, R239) -/
  | opcode
  /-- a field outside its class or its legal values (R227 to R240) -/
  | field
deriving DecidableEq, Repr

/-- OPC class 000 (R243). -/
def opcInt (f : Full) : Nat → Option Instr
  | 0x000 => some (.iadd f)
  | 0x001 => some (.isub f)
  | 0x002 => some (.imul f)
  | 0x003 => some (.imulh f)
  | 0x004 => some (.imad f)
  | 0x006 => some (.imin f)
  | 0x007 => some (.imax f)
  | 0x008 => some (.iabs f)
  | 0x009 => some (.ineg f)
  | 0x00A => some (.and f)
  | 0x00B => some (.or f)
  | 0x00C => some (.xor f)
  | 0x00D => some (.andn f)
  | 0x00E => some (.not f)
  | 0x00F => some (.shl f)
  | 0x010 => some (.shr f)
  | 0x011 => some (.sar f)
  | 0x012 => some (.rot f)
  | 0x013 => some (.fshf f)
  | 0x014 => some (.popc f)
  | 0x015 => some (.clz f)
  | 0x016 => some (.ctz f)
  | 0x017 => some (.brev f)
  | 0x018 => some (.bfx f)
  | 0x019 => some (.bfi f)
  | 0x01A => some (.lea f)
  | 0x01B => some (.idot4 f)
  | 0x01D => some (.bpick f)
  | _ => none

/-- OPC class 001 (R243). -/
def opcFloat (f : Full) : Nat → Option Instr
  | 0x040 => some (.fadd f)
  | 0x041 => some (.fsub f)
  | 0x042 => some (.fmul f)
  | 0x043 => some (.fma f)
  | 0x044 => some (.fnma f)
  | 0x04C => some (.fdiv f)
  | 0x045 => some (.fmin f)
  | 0x046 => some (.fmax f)
  | 0x047 => some (.fabs f)
  | 0x048 => some (.fneg f)
  | 0x049 => some (.frcp f)
  | 0x04A => some (.frsq f)
  | 0x04B => some (.fsqrt f)
  | 0x04D => some (.fexp2 f)
  | 0x04E => some (.flog2 f)
  | 0x04F => some (.fsin f)
  | 0x050 => some (.fcos f)
  | 0x051 => some (.frnd f)
  | 0x052 => some (.fscl f)
  | 0x053 => some (.fcls f)
  | 0x054 => some (.fdot2 f)
  | 0x059 => some (.fsumv f)
  | 0x055 => some (.cmul f)
  | 0x056 => some (.cfma f)
  | 0x057 => some (.cconj f)
  | 0x058 => some (.crcp f)
  | _ => none

/-- OPC class 010 (R243). -/
def opcMove (f : Full) : Nat → Option Instr
  | 0x080 => some (.cvt f)
  | 0x081 => some (.srnd f)
  | 0x082 => some (.pack f)
  | 0x083 => some (.unpk f)
  | 0x085 => some (.icmp f)
  | 0x086 => some (.fcmp f)
  | 0x087 => some (.sel f)
  | 0x088 => some (.plog f)
  | 0x089 => some (.pmov f)
  | 0x08A => some (.vote f)
  | 0x08B => some (.lxb f)
  | 0x08C => some (.lxs f)
  | 0x08D => some (.lxbc f)
  | 0x08E => some (.lxrd f)
  | 0x08F => some (.mov f)
  | 0x090 => some (.movi f)
  | 0x091 => some (.movx f)
  | 0x092 => some (.movxw f)
  | 0x093 => some (.setx f)
  | 0x094 => some (.gets f)
  | 0x095 => some (.sets f)
  | 0x096 => some (.wmov f)
  | 0x097 => some (.win f)
  | 0x098 => some (if f.lo3 == 0 then .xget f else .xgetP f)
  | 0x099 => some (.xrel f)
  | 0x09A => some (.tag f)
  | 0x09B => some (.setf f)
  | _ => none

/-- OPC class 011 (R243). -/
def opcControl (f : Full) : Nat → Option Instr
  | 0x0C0 => some (.bra f)
  | 0x0CE => some (.brw f)
  | 0x0CD => some (.loopw f)
  | 0x0C1 => some (.brx f)
  | 0x0C2 => some (.call f)
  | 0x0C3 => some (.ret f)
  | 0x0C5 => some (.jpt f)
  | 0x0C4 => some (.join f)
  | 0x0C6 => some (.yield f)
  | 0x0C7 => some (.exit f)
  | 0x0C8 => some (.nop f)
  | 0x0CF => some (.trap f)
  | 0x0D0 => some (.brk f)
  | 0x0C9 => some (.tryTx f)
  | 0x0CA => some (.commit f)
  | 0x0CB => some (.abort f)
  | 0x0CC => some (.tstat f)
  | _ => none

/-- OPC class 100 (R243). -/
def opcMemory (f : Full) : Nat → Option Instr
  | 0x100 => some (.ld f)
  | 0x101 => some (.st f)
  | 0x108 => some (.lds f)
  | 0x109 => some (.sts f)
  | 0x10C => some (.ldp f)
  | 0x10D => some (.stp f)
  | 0x10E => some (.ldro f)
  | 0x106 => some (.ldg f)
  | 0x107 => some (.stg f)
  | 0x102 => some (.atom f)
  | 0x105 => some (.atomt f)
  | 0x10A => some (if f.imm? then .atomsImm f else .atomsReg f)
  | 0x10B => some (.rsadd f)
  | 0x103 => some (.ldt f)
  | 0x104 => some (.stt f)
  | 0x10F => some (.pref f)
  | _ => none

/-- OPC class 101 (R243). -/
def opcTile (f : Full) : Nat → Option Instr
  | 0x14B => some (.lapr f)
  | 0x142 => some (.tdef f)
  | 0x143 => some (.tstate f)
  | 0x144 => some (.twait f)
  | 0x140 => some (.tld f)
  | 0x141 => some (.tst f)
  | 0x145 => some (.trd f)
  | 0x146 => some (.twr f)
  | 0x147 => some (.tzero f)
  | 0x148 => some (.regq f)
  | 0x149 => some (if f.md == 0 then .regpinPin f else if f.md == 1 then .regpinUnpin f else .regpinClear f)
  | 0x14A => some (.regadv f)
  | 0x14C => some (if f.imm? then .waitlImm f else .waitlReg f)
  | 0x14D => some (if f.imm? then .waitcImm f else .waitcReg f)
  | 0x14E => some (if f.imm? then .waitqImm f else .waitqReg f)
  | 0x14F => some (.waitm f)
  | _ => none

/-- OPC class 110 (R243). -/
def opcMatrix (f : Full) : Nat → Option Instr
  | 0x180 => some (.mxrsv f)
  | 0x181 => some (.mxrel f)
  | 0x182 => some (if f.imm? then .mxgoImm f else .mxgoReg f)
  | 0x183 => some (.mxprom f)
  | 0x184 => some (.mxstat f)
  | 0x185 => some (.ctail f)
  | 0x186 => some (.cseq f)
  | 0x187 => some (if f.imm? then .barImm f else .barReg f)
  | 0x188 => some (.barg f)
  | 0x189 => some (if f.imm? then .fetchwImm f else .fetchwReg f)
  | 0x18A => some (.elect f)
  | _ => none

/-- OPC class 111 (R243). -/
def opcSystem (f : Full) : Nat → Option Instr
  | 0x1C0 => some (.rth f)
  | 0x1C2 => some (.hget f)
  | 0x1C3 => some (if f.imm16 == 0x61 then .ologdDrop f else .hset f)
  | 0x1C4 => some (.park f)
  | 0x1C5 => some (.replay f)
  | 0x1C6 => some (.cinv f)
  | 0x1C7 => some (.xlinv f)
  | 0x1C8 => some (.deadm f)
  | 0x1C9 => some (.apset f)
  | _ => none

/-- The instruction that an OPC names, where OPC, I and the modifier decide it (R243 to R250). -/
def opcInstr (opc : BitVec 9) (f : Full) : Option Instr :=
  match opc.toNat / 64 with
  | 0 => opcInt f opc.toNat
  | 1 => opcFloat f opc.toNat
  | 2 => opcMove f opc.toNat
  | 3 => opcControl f opc.toNat
  | 4 => opcMemory f opc.toNat
  | 5 => opcTile f opc.toNat
  | 6 => opcMatrix f opc.toNat
  | _ => opcSystem f opc.toNat

/-- The fields of a full-form word (R225, R226), for the type its ETY names. -/
def fullFields (w : DWord) (t : Ety) : Full :=
  { ety := t
    grd := ⟨w.getLsbD 48, w.extractLsb' 45 3⟩
    femD := w.getLsbD 44
    femA := w.getLsbD 43
    femB := w.getLsbD 42
    dst := w.extractLsb' 30 11
    sa := w.extractLsb' 19 11
    src := if w.getLsbD 41 then .imm (w.extractLsb' 3 16) (w.extractLsb' 0 3)
           else .reg (w.extractLsb' 8 11) (w.extractLsb' 0 8) }

/-- The fields of a pair-form half (R237). -/
def halfFields (b : BitVec 31) : Half :=
  { et2 := Et2.ofCode (b.extractLsb' 22 2)
    gd2 := b.extractLsb' 20 2
    dst := b.extractLsb' 12 8
    src := b.extractLsb' 4 8
    md4 := b.extractLsb' 0 4 }

/-- The instruction of a pair-form word: the constructor of half 0's mnemonic, with half 1. -/
def halfInstr (o : HalfOp) (h : Half) (m : HalfWord) : Instr :=
  match o with
  | .iadd => .iaddHalf h m | .isub => .isubHalf h m | .imul => .imulHalf h m
  | .imin => .iminHalf h m | .imax => .imaxHalf h m | .and => .andHalf h m
  | .or => .orHalf h m | .xor => .xorHalf h m | .shl => .shlHalf h m
  | .shr => .shrHalf h m | .sar => .sarHalf h m | .fadd => .faddHalf h m
  | .fsub => .fsubHalf h m | .fmul => .fmulHalf h m | .fmin => .fminHalf h m
  | .fmax => .fmaxHalf h m | .fabs => .fabsHalf h m | .fneg => .fnegHalf h m
  | .mov => .movHalf h m | .cvt => .cvtHalf h m

/-- Answer a term when it is well formed. -/
def checked (i : Instr) : Except Reject Instr :=
  if i.wellFormed then .ok i else .error .field

/-- A full-form word (R225). -/
def decodeFull (w : DWord) : Except Reject Instr :=
  match Ety.ofCode (w.extractLsb' 49 4) with
  | none => .error .type
  | some t =>
    match opcInstr (w.extractLsb' 53 9) (fullFields w t) with
    | none => .error .opcode
    | some i => checked i

/-- A pair-form word (R237). -/
def decodePair (w : DWord) : Except Reject Instr :=
  let h0 := w.extractLsb' 31 31
  let h1 := w.extractLsb' 0 31
  match HalfOp.ofCode (h0.extractLsb' 24 7), HalfOp.ofCode (h1.extractLsb' 24 7) with
  | some a, some b => checked (halfInstr a (halfFields h0) ⟨b, halfFields h1⟩)
  | _, _ => .error .opcode

/-- A 64-bit word as an instruction, or why it is none (R224, R252). -/
def decode (w : DWord) : Except Reject Instr :=
  match (w.extractLsb' 62 2).toNat with
  | 0 => decodeFull w
  | 1 => decodePair w
  | _ => .error .form

/-- What a fetched word does: an instruction, or ILLEGAL in every issuing lane (R252). -/
def decodeFetched (w : DWord) : Instr :=
  match decode w with
  | .ok i => i
  | .error _ => .illegalWord w

/-- The value of little-endian bytes, the first at the lowest address (R7). -/
def leNat : List Byte → Nat
  | [] => 0
  | b :: bs => b.toNat + 256 * leNat bs

/-- `n` little-endian bytes of a number. -/
def leBytes : Nat → Nat → List Byte
  | 0, _ => []
  | n + 1, v => BitVec.ofNat 8 v :: leBytes n (v / 256)

/-- The decoder on any bytes: an instruction and the bytes after it, or a named rejection. -/
def decodeBytes (bs : List Byte) : Except Reject (Instr × List Byte) :=
  if bs.length < 8 then .error .short
  else
    match decode (BitVec.ofNat 64 (leNat (bs.take 8))) with
    | .ok i => .ok (i, bs.drop 8)
    | .error e => .error e

/-- The decoder on an instruction word numbered from bit 0, laid out as the text stores it (R223). -/
def decodeTableWord (_nbits w : Nat) : Option Instr :=
  match decodeBytes (leBytes 8 w) with
  | .ok (i, _) => some i
  | .error _ => none

/-! ## The encoder -/

/-- Bits 18:0 of a full-form word. -/
def Src.bits : Src → BitVec 19
  | .reg sb m => sb ++ m
  | .imm v m => v ++ m

/-- A full-form word from its OPC and its fields (R225, R226). -/
def Full.encode (opc : BitVec 9) (f : Full) : DWord :=
  (0 : BitVec 2) ++ (opc ++ (f.ety.code ++ (BitVec.ofBool f.grd.neg ++ (f.grd.p ++
    (BitVec.ofBool f.femD ++ (BitVec.ofBool f.femA ++ (BitVec.ofBool f.femB ++
      (BitVec.ofBool f.imm? ++ (f.dst ++ (f.sa ++ f.src.bits))))))))))

/-- A pair-form half (R237). -/
def HalfWord.encode (x : HalfWord) : BitVec 31 :=
  x.op.code ++ (x.h.et2.code ++ (x.h.gd2 ++ (x.h.dst ++ (x.h.src ++ x.h.md4))))

/-- The word of an instruction; a device step, a word that is no instruction and a PC beyond the text have none. -/
def encode (i : Instr) : Option DWord :=
  match i.spec, i.pair with
  | some (f, s), _ => some (f.encode s.opc)
  | none, some (a, b) => some ((1 : BitVec 2) ++ (a.encode ++ b.encode))
  | none, none => none

end Sys2Proof
end

