-- ==== Sys2Proof/Machine/Float.lean ====
section
/-!
DEFINITION. Number formats and rounding (R83 to R94, R99 to R102): bit patterns as exact values,
Round, the conversions, and the exact forms of the float operations. Values are dyadic: an integer
times a power of two; a quotient, root or transcendental value carries one extra low bit that says
whether anything lies below it, which is all that Round needs.
-/
namespace Sys2Proof.Machine

/-- The parameters of a binary format (R83). -/
structure Fmt where
  bits : Nat
  p    : Nat
  bias : Nat
  e4m3 : Bool
deriving DecidableEq, Repr

def Fmt.f64 : Fmt := ⟨64, 53, 1023, false⟩
def Fmt.f32 : Fmt := ⟨32, 24, 127, false⟩
def Fmt.f16 : Fmt := ⟨16, 11, 15, false⟩
def Fmt.bf16 : Fmt := ⟨16, 8, 127, false⟩
def Fmt.e5m2 : Fmt := ⟨8, 3, 15, false⟩
def Fmt.e4m3f : Fmt := ⟨8, 4, 7, true⟩

/-- The format of a float type; F32 for the others, which no rule asks for. -/
def Fmt.of : Ety → Fmt
  | .f64 | .c64 => .f64
  | .f16 => .f16
  | .bf16 => .bf16
  | .e5m2 => .e5m2
  | .e4m3 => .e4m3f
  | _ => .f32

/-- All ones of the exponent field. -/
def Fmt.emax (f : Fmt) : Nat := 2 ^ (f.bits - f.p) - 1
def Fmt.emin (f : Fmt) : Int := 1 - (f.bias : Int)
/-- Weight of the lowest bit of the largest finite values, and their largest significand. -/
def Fmt.uMax (f : Fmt) : Int :=
  (if f.e4m3 then (f.emax : Int) else (f.emax : Int) - 1) - f.bias - f.p + 1
def Fmt.mMax (f : Fmt) : Nat := if f.e4m3 then 2 ^ f.p - 2 else 2 ^ f.p - 1

/-- Sign bit of a pattern. -/
def Fmt.signBit (f : Fmt) (neg : Bool) : Nat := if neg then 2 ^ (f.bits - 1) else 0

/-- The canonical NaN (R83), and the NaN output of a conversion with a sign (R93). -/
def Fmt.nan (f : Fmt) (neg : Bool) : Nat :=
  f.signBit neg + (if f.e4m3 then 0x7F else f.emax * 2 ^ (f.p - 1) + 2 ^ (f.p - 2))

/-- ∞, which E4M3 delivers as NaN (R92). -/
def Fmt.inf (f : Fmt) (neg : Bool) : Nat :=
  if f.e4m3 then f.nan neg else f.signBit neg + f.emax * 2 ^ (f.p - 1)

/-- The largest finite magnitude. -/
def Fmt.big (f : Fmt) (neg : Bool) : Nat :=
  f.signBit neg + (if f.e4m3 then 0x7E else (f.emax - 1) * 2 ^ (f.p - 1) + (2 ^ (f.p - 1) - 1))

/-- An exact value (R84): a NaN, an infinity, or ± m · 2^e, where m = 0 is a signed zero. -/
inductive FVal where
  | nan (sig neg : Bool)
  | inf (neg : Bool)
  | fin (neg : Bool) (m : Nat) (e : Int)
deriving DecidableEq, Repr

/-- The value of a bit pattern (R83, R84). -/
def Fmt.value (f : Fmt) (b : Nat) : FVal :=
  let neg := b / 2 ^ (f.bits - 1) % 2 == 1
  let ex := b / 2 ^ (f.p - 1) % (f.emax + 1)
  let fr := b % 2 ^ (f.p - 1)
  if f.e4m3 && ex == f.emax && fr == 7 then .nan false neg
  else if !f.e4m3 && ex == f.emax then
    if fr == 0 then .inf neg else .nan (fr < 2 ^ (f.p - 2)) neg
  else if ex == 0 then .fin neg fr (f.emin - f.p + 1)
  else .fin neg (2 ^ (f.p - 1) + fr) ((ex : Int) - f.bias - f.p + 1)

/-- A subnormal pattern. -/
def Fmt.subnormal (f : Fmt) (b : Nat) : Bool :=
  b / 2 ^ (f.p - 1) % (f.emax + 1) == 0 && b % 2 ^ (f.p - 1) != 0

/-- Read an input: with FTZ a subnormal reads as the zero of its sign (R91). -/
def Fmt.read (f : Fmt) (ftz : Bool) (b : Nat) : FVal :=
  if ftz && f.subnormal b then .fin (b / 2 ^ (f.bits - 1) % 2 == 1) 0 0 else f.value b

/-! ## Flags (R96) -/
abbrev FFlags := BitVec 5
def fNX : FFlags := 1
def fUF : FFlags := 2
def fOF : FFlags := 4
def fDZ : FFlags := 8
def fNV : FFlags := 16

/-! ## Rounding (R88 to R92) -/

/-- A rounding mode with its random bits (R88, R90). -/
inductive RMode where
  | rn | rz | ru | rd | ra
  | rs (r k : Nat)
deriving DecidableEq, Repr

/-- MOD<7:5> with DYN resolved; a code without a mode reads as RN and never gets here (R88). -/
def RMode.of (code : Nat) (dyn : Nat) : RMode :=
  match (if code = 6 then dyn else code) with
  | 1 => .rz | 2 => .ru | 3 => .rd | 4 => .ra | _ => .rn

/-- Strip trailing zero bits of a remainder below 2^d (R90: the smallest d). -/
def stripZeros : Nat → Nat → Nat × Nat
  | 0, r => (0, r)
  | d + 1, r => if r % 2 = 0 then stripZeros d (r / 2) else (d + 1, r)

/-- StochUp (R90) for a remainder `rem` of `d` discarded bits. -/
def stochUp (rem d r k : Nat) : Bool :=
  if rem = 0 then false
  else
    let (d', rem') := stripZeros d rem
    let j := min k d'
    rem' / 2 ^ (d' - j) + r / 2 ^ (k - j) ≥ 2 ^ j

/-- Whether the magnitude `n` plus `rem / 2^d` rounds up (R89). -/
def RMode.up (m : RMode) (neg : Bool) (n rem d : Nat) : Bool :=
  if rem = 0 then false
  else
    match m with
    | .rn => 2 * rem > 2 ^ d || (2 * rem == 2 ^ d && n % 2 == 1)
    | .rz => false
    | .ru => !neg
    | .rd => neg
    | .ra => 2 * rem ≥ 2 ^ d
    | .rs r k => stochUp rem d r k

/-- Split m · 2^e at weight 2^u: the integer part, the discarded bits and how many they are. A value
far below the weight stands as 1/8 of it, which rounds alike. -/
def splitAt2 (m : Nat) (e u : Int) : Nat × Nat × Nat :=
  if u ≤ e then (m * 2 ^ (e - u).toNat, 0, 0)
  else
    let d := (u - e).toNat
    if d > m.log2 + 4000 then (0, 1, 3) else (m / 2 ^ d, m % 2 ^ d, d)

/-- What overflow delivers (R92). -/
def overflow (f : Fmt) (md : RMode) (sat neg up : Bool) : Nat :=
  if sat then f.big neg
  else
    match md with
    | .rn | .ra => f.inf neg
    | .rz => f.big neg
    | .ru => if neg then f.big neg else f.inf neg
    | .rd => if neg then f.inf neg else f.big neg
    | .rs .. => if up then f.inf neg else f.big neg

/-- Round(± m · 2^e, f, mode, SAT) with FTZ (R89, R91, R92): the pattern and its flags. -/
def roundTo (f : Fmt) (md : RMode) (sat ftz neg : Bool) (m : Nat) (e : Int) : Nat × FFlags :=
  if m = 0 then (f.signBit neg, 0)
  else
    let ee := max ((m.log2 : Int) + e) f.emin
    let u := ee - f.p + 1
    let (n, rem, d) := splitAt2 m e u
    let up := md.up neg n rem d
    let n1 := if up then n + 1 else n
    let nx : FFlags := if rem = 0 then 0 else fNX
    let (n2, u2) := if n1 = 2 ^ f.p then (2 ^ (f.p - 1), u + 1) else (n1, u)
    if u2 > f.uMax || (u2 == f.uMax && n2 > f.mMax) then
      (overflow f md sat neg up, fOF ||| fNX)
    else if n2 < 2 ^ (f.p - 1) then
      if ftz then (f.signBit neg, fUF ||| fNX)
      else (f.signBit neg + n2, if rem = 0 then 0 else fUF ||| fNX)
    else
      (f.signBit neg + (u2 + f.p - 1 + f.bias).toNat * 2 ^ (f.p - 1) + (n2 - 2 ^ (f.p - 1)), nx)

/-- A value into a format as the result of arithmetic: canonical NaN, infinities as they are. -/
def FVal.toArith (v : FVal) (f : Fmt) (md : RMode) (sat ftz : Bool) : Nat × FFlags :=
  match v with
  | .nan .. => (f.nan false, 0)
  | .inf s => (f.inf s, 0)
  | .fin s m e => roundTo f md sat ftz s m e

/-! ## Exact arithmetic on values -/

def FVal.isNan : FVal → Bool
  | .nan .. => true
  | _ => false

def FVal.isSig : FVal → Bool
  | .nan s _ => s
  | _ => false

def FVal.neg : FVal → FVal
  | .nan s n => .nan s !n
  | .inf n => .inf !n
  | .fin n m e => .fin (!n) m e

/-- NV of signalling operands. -/
def nvOf (vs : List FVal) : FFlags := if vs.any FVal.isSig then fNV else 0

/-- An exact product; 0 × ∞ is a NaN that raises NV (R93). -/
def FVal.mul (a b : FVal) : FVal × FFlags :=
  match a, b with
  | .nan .., .inf .. | .nan .., .nan .. | .nan .., .fin .. => (.nan false false, 0)
  | .inf _, .nan .. | .fin .., .nan .. => (.nan false false, 0)
  | .inf s, .inf t => (.inf (s != t), 0)
  | .inf s, .fin t m _ => if m = 0 then (.nan false false, fNV) else (.inf (s != t), 0)
  | .fin s m _, .inf t => if m = 0 then (.nan false false, fNV) else (.inf (s != t), 0)
  | .fin s m e, .fin t n g => (.fin (s != t) (m * n) (e + g), 0)

/-- Exact sum of finite values as an integer at a common weight. -/
def sumInt (vs : List FVal) (u : Int) : Int :=
  vs.foldl (fun a v =>
    match v with
    | .fin s m e => a + (if s then -1 else 1) * ((m * 2 ^ (e - u).toNat : Nat) : Int)
    | _ => a) 0

/-- The least weight among non-zero finite values. -/
def minWeight (vs : List FVal) : Int :=
  (vs.foldl (fun (a : Option Int) v =>
    match v with
    | .fin _ m e => if m = 0 then a else some (match a with | none => e | some b => min b e)
    | _ => a) none).getD 0

/-- An exact sum; ∞ − ∞ is a NaN that raises NV; an exact zero sum of opposite signs is +0, and −0 in
RD (R93). Beside a quiet NaN among the addends ∞ − ∞ raises nothing, which the spec leaves open (DESIGN CHOICE, log
entry 75). -/
def FVal.sum (rd : Bool) (vs : List FVal) : FVal × FFlags :=
  if vs.any FVal.isNan then (.nan false false, 0)
  else
    let pos := vs.any (fun v => v == .inf false)
    let neg := vs.any (fun v => v == .inf true)
    if pos && neg then (.nan false false, fNV)
    else if pos then (.inf false, 0)
    else if neg then (.inf true, 0)
    else
      let u := minWeight vs
      let vs' := vs.map (fun v => match v with | .fin s 0 _ => .fin s 0 u | w => w)
      let t := sumInt vs' u
      if t = 0 then
        let ss := vs.map (fun v => match v with | .fin s _ _ => s | _ => false)
        (.fin (if ss.all id then true else if ss.all (!·) then false else rd) 0 0, 0)
      else (.fin (t < 0) t.natAbs u, 0)

/-- Σ aᵢ·bᵢ + d, formed exactly, with the NV of its operands (R101). -/
def FVal.dot (rd : Bool) (ps : List (FVal × FVal)) (d : List FVal) : FVal × FFlags :=
  let pr := ps.map (fun p => FVal.mul p.1 p.2)
  let fl := pr.foldl (fun a x => a ||| x.2) (nvOf (d ++ ps.map (·.1) ++ ps.map (·.2)))
  let (s, g) := FVal.sum rd (pr.map (·.1) ++ d)
  (s, fl ||| g)

/-- Integer square root by digits, from bit `i` down. -/
def isqrtLoop (x : Nat) : Nat → Nat → Nat
  | 0, r => if (r + 1) * (r + 1) ≤ x then r + 1 else r
  | i + 1, r =>
    let r' := r + 2 ^ (i + 1)
    isqrtLoop x i (if r' * r' ≤ x then r' else r)

/-- ⌊√x⌋. -/
def isqrt (x : Nat) : Nat := isqrtLoop x (x.log2 / 2 + 1) 0

/-- A quotient with its jammed low bit: ma · 2^ea / (mb · 2^eb), mb ≠ 0. -/
def divJam (p ma : Nat) (ea : Int) (mb : Nat) (eb : Int) : Nat × Int :=
  let s := p + 4 + mb.log2
  let n := ma * 2 ^ s
  (n / mb * 2 + (if n % mb = 0 then 0 else 1), ea - eb - s - 1)

/-- a / b (R93). -/
def FVal.div (p : Nat) (a b : FVal) : FVal × FFlags :=
  match a, b with
  | .nan .., .inf .. | .nan .., .nan .. | .nan .., .fin .. => (.nan false false, nvOf [a, b])
  | .inf _, .nan .. | .fin .., .nan .. => (.nan false false, nvOf [a, b])
  | .inf _, .inf _ => (.nan false false, fNV)
  | .inf s, .fin t _ _ => (.inf (s != t), 0)
  | .fin s _ _, .inf t => (.fin (s != t) 0 0, 0)
  | .fin s m e, .fin t n g =>
    if n = 0 then (if m = 0 then (.nan false false, fNV) else (.inf (s != t), fDZ))
    else if m = 0 then (.fin (s != t) 0 0, 0)
    else
      let (q, x) := divJam p m e n g
      (.fin (s != t) q x, 0)

/-- √a (R295). -/
def FVal.sqrt (p : Nat) : FVal → FVal × FFlags
  | .nan s _ => (.nan false false, if s then fNV else 0)
  | .inf false => (.inf false, 0)
  | .inf true => (.nan false false, fNV)
  | .fin s m e =>
    if m = 0 then (.fin s 0 0, 0)
    else if s then (.nan false false, fNV)
    else
      let e' := if e % 2 = 0 then e else e - 1
      let m' := if e % 2 = 0 then m else 2 * m
      let k := p + 4
      let x := m' * 2 ^ (2 * k)
      let r := isqrt x
      (.fin false (r * 2 + (if r * r = x then 0 else 1)) (e' / 2 - k - 1), 0)

/-- 1/√a (R295). -/
def FVal.rsqrt (p : Nat) : FVal → FVal × FFlags
  | .nan s _ => (.nan false false, if s then fNV else 0)
  | .inf false => (.fin false 0 0, 0)
  | .inf true => (.nan false false, fNV)
  | .fin s m e =>
    if m = 0 then (.inf s, fDZ)
    else if s then (.nan false false, fNV)
    else
      let e' := if e % 2 = 0 then e else e - 1
      let m' := if e % 2 = 0 then m else 2 * m
      let k := p + 4 + m'.log2
      let r := isqrt (2 ^ (2 * k) / m')
      (.fin false (r * 2 + (if r * r * m' = 2 ^ (2 * k) then 0 else 1)) (-(e' / 2) - k - 1), 0)

/-! ## Transcendental values (R295): fixed point with `tb` fraction bits (log entry 8) -/

/-- Fraction bits of the fixed-point evaluation. -/
def tb : Nat := 440

/-- Σ x^k / k!-like sums: term_{k+1} = term_k · y / (2^tb · c k). -/
def expLoop (y : Int) : Nat → Nat → Int → Int → Int
  | 0, _, _, acc => acc
  | n + 1, k, t, acc =>
    let t' := t * y / (2 ^ tb * (k : Int))
    expLoop y n (k + 1) t' (acc + t')

/-- e^y for a fixed-point y in [0, 1). -/
def fixExp (y : Int) : Int := expLoop y 110 1 (2 ^ tb) (2 ^ tb)

/-- Σ z^(2k+1)/(2k+1), with z² given; `alt` alternates the signs. -/
def atanLoop (z2 : Int) (alt : Bool) : Nat → Nat → Int → Int → Int
  | 0, _, _, acc => acc
  | n + 1, k, p, acc =>
    let p' := p * z2 / 2 ^ tb
    let t := p' / ((2 * k + 1 : Nat) : Int)
    atanLoop z2 alt n (k + 1) p' (if alt && k % 2 = 1 then acc - t else acc + t)

/-- atanh z for a fixed-point z. -/
def fixAtanh (z : Int) : Int := atanLoop (z * z / 2 ^ tb) false 150 1 z z

/-- atan (1/n). -/
def fixAtanInv (n : Nat) : Int :=
  let z : Int := 2 ^ tb / (n : Int)
  atanLoop (z * z / 2 ^ tb) true 110 1 z z

def fixLn2 : Int := 2 * fixAtanh (2 ^ tb / 3)
def fixPi : Int := 16 * fixAtanInv 5 - 4 * fixAtanInv 239

/-- Σ (−1)^k y^(2k+1)/(2k+1)!. -/
def sinLoop (y2 : Int) : Nat → Nat → Int → Int → Int
  | 0, _, _, acc => acc
  | n + 1, k, t, acc =>
    let t' := -(t * y2 / 2 ^ tb) / (((2 * k) * (2 * k + 1) : Nat) : Int)
    sinLoop y2 n (k + 1) t' (acc + t')

/-- sin y for a fixed-point y in [0, π/2]. -/
def fixSin (y : Int) : Int := sinLoop (y * y / 2 ^ tb) 70 1 y y

/-- A fixed-point value as a value with its jammed low bit: it stands for an irrational number. -/
def jamFix (neg : Bool) (x : Int) : FVal := .fin neg (x.toNat * 2 + 1) (-(tb : Int) - 1)

/-- m · 2^e as fixed point, exact when e ≥ −tb. -/
def fixOf (m : Nat) (e : Int) : Int :=
  if 0 ≤ e + tb then ((m * 2 ^ (e + tb).toNat : Nat) : Int) else ((m / 2 ^ (-(e + tb)).toNat : Nat) : Int)

/-- 2^x (R295). -/
def FVal.exp2 : FVal → FVal × FFlags
  | .nan s _ => (.nan false false, if s then fNV else 0)
  | .inf false => (.inf false, 0)
  | .inf true => (.fin false 0 0, 0)
  | .fin s m e =>
    if m = 0 then (.fin false 1 0, 0)
    else if (m.log2 : Int) + e ≥ 10 then (.fin false 1 (if s then -2000 else 2000), 0)
    else
      let x := (if s then -1 else 1) * fixOf m e
      let n := x / 2 ^ tb
      let fr := x % 2 ^ tb
      if fr = 0 then (.fin false 1 n, 0)
      else
        let r := fixExp (fr * fixLn2 / 2 ^ tb)
        (.fin false (r.toNat * 2 + 1) (n - tb - 1), 0)

/-- log₂ x (R295). -/
def FVal.log2 : FVal → FVal × FFlags
  | .nan s _ => (.nan false false, if s then fNV else 0)
  | .inf false => (.inf false, 0)
  | .inf true => (.nan false false, fNV)
  | .fin s m e =>
    if m = 0 then (.inf true, fDZ)
    else if s then (.nan false false, fNV)
    else
      let k := m.log2
      let n : Int := (k : Int) + e
      if m = 2 ^ k then (.fin (n < 0) n.natAbs 0, 0)
      else
        let y := fixOf m (-(k : Int))
        let z := (y - 2 ^ tb) * 2 ^ tb / (y + 2 ^ tb)
        let r := n * 2 ^ tb + 2 * fixAtanh z * 2 ^ tb / fixLn2
        (jamFix (r < 0) (if r < 0 then -r else r), 0)

/-- |x| modulo 2, exactly, as a numerator over 2^s; the value is an even integer when e ≥ 1. -/
def mod2 (m : Nat) (e : Int) : Nat × Nat :=
  if 0 ≤ e then (m * 2 ^ e.toNat % 2, 0) else (m % 2 ^ ((-e).toNat + 1), (-e).toNat)

/-- sin(π · r / 2^s) for 0 ≤ r / 2^s ≤ 1/2. -/
def sinPart (neg : Bool) (r s : Nat) : FVal :=
  if r = 0 then .fin neg 0 0
  else if 2 * r = 2 ^ s then .fin neg 1 0
  else jamFix neg (fixSin (fixPi * fixOf r (-(s : Int)) / 2 ^ tb))

/-- sin(πx) (R295). -/
def FVal.sinpi : FVal → FVal × FFlags
  | .nan s _ => (.nan false false, if s then fNV else 0)
  | .inf _ => (.nan false false, fNV)
  | .fin s m e =>
    let (r, k) := mod2 m e
    let one := 2 ^ k
    if r % one = 0 then (.fin s 0 0, 0)
    else
      let flip := r ≥ one
      let r1 := if flip then r - one else r
      let r2 := if 2 * r1 > one then one - r1 else r1
      (sinPart (s != flip) r2 k, 0)

/-- cos(πx) (R295). -/
def FVal.cospi : FVal → FVal × FFlags
  | .nan s _ => (.nan false false, if s then fNV else 0)
  | .inf _ => (.nan false false, fNV)
  | .fin _ m e =>
    let (r0, k0) := mod2 m e
    let r := 2 * r0
    let k := k0 + 1
    let one := 2 ^ k
    let r1 := if r > one then 2 * one - r else r
    let neg := 2 * r1 > one
    let r2 := if neg then one - r1 else r1
    if 2 * r2 = one then (.fin false 0 0, 0) else (sinPart neg (one / 2 - r2) k, 0)

/-! ## Integers -/

/-- Round a value to an integer (R89): the integer and whether it is inexact. -/
def roundInt (md : RMode) (neg : Bool) (m : Nat) (e : Int) : Int × Bool :=
  let (n, rem, d) := splitAt2 m e 0
  let n1 := if md.up neg n rem d then n + 1 else n
  ((if neg then -(n1 : Int) else n1), rem != 0)

/-- Bounds of an integer type (R82). -/
def intLo (t : Ety) : Int := if t.signed then -(2 ^ (t.width - 1) : Nat) else 0
def intHi (t : Ety) : Int := if t.signed then (2 ^ (t.width - 1) : Nat) - 1 else (2 ^ t.width : Nat) - 1

/-- Reduce an exact integer to a type (R82): the element as a natural number below 2^width. -/
def reduce (t : Ety) (sat : Bool) (x : Int) : Nat :=
  let y := if sat then max (intLo t) (min (intHi t) x) else x
  (y % (2 ^ t.width : Nat)).toNat

/-- An element as the integer of its type. -/
def intOf (t : Ety) (b : Nat) : Int :=
  if t.signed && b ≥ 2 ^ (t.width - 1) then (b : Int) - (2 ^ t.width : Nat) else b

/-- One term of a TS8 byte in units of 2^−6 (R85). -/
def ts8Term (neg : Bool) (c : Nat) : Int :=
  if c = 7 then 0 else (if neg then -1 else 1) * (2 ^ (6 - c) : Nat)

/-- A TS8 byte in units of 2^−6. -/
def ts8Int (b : Nat) : Int :=
  ts8Term (b / 128 % 2 == 1) (b / 16 % 8) + ts8Term (b / 8 % 2 == 1) (b % 8)

/-- An exact integer times 2^e as a value; zero is +0. -/
def valOfInt (x : Int) (e : Int) : FVal := .fin (x < 0) x.natAbs e

/-! ## Conversions (R93, R94) -/

/-- Convert one element of type `s` with bits `b` to type `t`; FTZ has no effect where `t` is an integer (R91). -/
def convert (s t : Ety) (md : RMode) (sat ftz : Bool) (b : Nat) : Nat × FFlags :=
  if s.isInt then
    if t.isInt then (reduce t sat (intOf s b), 0)
    else (valOfInt (intOf s b) 0).toArith (Fmt.of t) md sat ftz
  else
    let v : FVal := if s == .ts8 then valOfInt (ts8Int b) (-6) else (Fmt.of s).read (ftz && !t.isInt) b
    if t.isInt then
      match v with
      | .nan .. => (0, fNV)
      | .inf n => (reduce t true (if n then intLo t else intHi t), fNV)
      | .fin n m e =>
        let (x, nx) := roundInt md n m e
        if x < intLo t || x > intHi t then (reduce t true x, fNV) else (reduce t true x, if nx then fNX else 0)
    else
      let f := Fmt.of t
      match v with
      | .nan sg n => (f.nan n, if sg then fNV else 0)
      | .inf n => if f.e4m3 then (if sat then f.big n else f.nan n, fOF) else (f.inf n, 0)
      | .fin n m e =>
        if s == t then (if m = 0 then f.signBit n else b, 0)
        else roundTo f md sat ftz n m e

/-! ## Minimum, maximum, comparison, classes -/

/-- An order key of a non-NaN value at weight `u`, zeros with their sign (R293). -/
def keyLess (a b : FVal) : Bool :=
  match a, b with
  | .inf s, .inf t => s && !t
  | .inf s, _ => s
  | _, .inf t => !t
  | .fin s m e, .fin t n g =>
    let u := min e g
    let x := (if s then -1 else 1) * ((m * 2 ^ (e - u).toNat : Nat) : Int)
    let y := (if t then -1 else 1) * ((n * 2 ^ (g - u).toNat : Nat) : Int)
    if x = y then (m == 0 && s && !t) else x < y
  | _, _ => false

/-- Equality of values, −0 equal to +0 (R304). -/
def valEq (a b : FVal) : Bool :=
  match a, b with
  | .fin _ 0 _, .fin _ 0 _ => true
  | _, _ => !a.isNan && !b.isNan && !keyLess a b && !keyLess b a

/-- FMIN and FMAX of two patterns (R293). -/
def fMinMax (f : Fmt) (isMax ftz : Bool) (a b : Nat) : Nat × FFlags :=
  let a := if ftz && f.subnormal a then f.signBit (a / 2 ^ (f.bits - 1) % 2 == 1) else a
  let b := if ftz && f.subnormal b then f.signBit (b / 2 ^ (f.bits - 1) % 2 == 1) else b
  let x := f.value a
  let y := f.value b
  let fl := nvOf [x, y]
  match x.isNan, y.isNan with
  | true, true => (f.nan false, fl)
  | true, false => (b, fl)
  | false, true => (a, fl)
  | false, false =>
    (if isMax then (if keyLess x y then b else a) else (if keyLess y x then b else a), fl)

/-- FCMP of one pair (R304): whether the condition holds, and NV. -/
def fCompare (f : Fmt) (ftz : Bool) (cc a b : Nat) : Bool × FFlags :=
  let x := f.read ftz a
  let y := f.read ftz b
  let un := x.isNan || y.isNan
  let lt := !un && !valEq x y && keyLess x y
  let gt := !un && !valEq x y && keyLess y x
  let eq := !un && valEq x y
  let quiet := nvOf [x, y]
  let loud : FFlags := if un then fNV else 0
  match cc with
  | 0 => (eq, quiet)
  | 1 => (!eq, quiet)
  | 2 => (lt, loud)
  | 3 => (lt || eq, loud)
  | 4 => (gt, loud)
  | 5 => (gt || eq, loud)
  | 6 => (un, quiet)
  | _ => (!un, quiet)

/-- The class bit of a pattern (R296). -/
def fClass (f : Fmt) (b : Nat) : Nat :=
  match f.value b with
  | .nan true _ => 1
  | .nan false _ => 2
  | .inf true => 4
  | .inf false => 512
  | .fin n m _ =>
    if m = 0 then (if n then 32 else 64)
    else if f.subnormal b then (if n then 16 else 128)
    else (if n then 8 else 256)

/-- Round an element to an integral value (R296). -/
def fIntegral (f : Fmt) (md : RMode) (ftz : Bool) (b : Nat) : Nat × FFlags :=
  match f.read ftz b with
  | .nan s _ => (f.nan false, if s then fNV else 0)
  | .inf n => (f.inf n, 0)
  | .fin n m e =>
    let (x, nx) := roundInt md n m e
    let r := roundTo f .rz false false n x.natAbs 0
    (r.1, if nx then fNX else 0)

/-! ## A24 and the block sums (R87, R99, R100) -/

/-- An A24 value: NaN, or ± n · 2^u. -/
inductive A24 where
  | nan
  | num (neg : Bool) (m : Nat) (e : Int)
deriving DecidableEq, Repr

/-- RN to A24 (R87): the value and whether OF is raised. Just below 2^−126 the spec leaves open with which spacing a
value rounds: the model rounds to 16 significant bits with unbounded exponent (DESIGN CHOICE, log entry 74). -/
def roundA24 (neg : Bool) (m : Nat) (e : Int) : A24 × Bool :=
  if m = 0 then (.num neg 0 0, false)
  else
    let u := (m.log2 : Int) + e - 15
    let (n, rem, d) := splitAt2 m e u
    let n1 := if RMode.rn.up neg n rem d then n + 1 else n
    let (n2, u2) := if n1 = 2 ^ 16 then (2 ^ 15, u + 1) else (n1, u)
    if u2 + 15 < -126 then (.num neg 0 0, false)
    else if u2 + 15 > 127 then (.num neg (2 ^ 16 - 1) (127 - 15), true)
    else (.num neg n2 u2, false)

/-- RoundA24 of a sum (R100). -/
def A24.add : A24 → A24 → A24 × Bool
  | .nan, _ => (.nan, false)
  | _, .nan => (.nan, false)
  | .num s m e, .num t n g =>
    match FVal.sum false [.fin s m e, .fin t n g] with
    | (.fin z k x, _) => roundA24 z k x
    | _ => (.nan, false)

/-- An A24 value as a value. -/
def A24.toVal : A24 → FVal
  | .nan => .nan false false
  | .num s m e => .fin s m e

/-- A matrix element as an exact value (R85, R99). -/
def elemVal (t : Ety) (b : Nat) : FVal :=
  match t with
  | .s8 => valOfInt (intOf .s8 b) 0
  | .ts8 => valOfInt (ts8Int b) (-6)
  | _ => (Fmt.of t).value b

/-- The sum of a block, scaled and rounded once (R100): the value, NV and OF. -/
def blockSum (fa fb : Ety) (ab : List (Nat × Nat)) (sa sb : Int) : A24 × FFlags :=
  let ps := ab.map (fun p => (elemVal fa p.1, elemVal fb p.2))
  let bad := ps.any (fun p => (match p.1 with | .fin .. => false | _ => true) ||
    (match p.2 with | .fin .. => false | _ => true))
  let nv : FFlags := if ps.any (fun p => (match p.1 with | .inf _ => true | v => v.isSig) ||
    (match p.2 with | .inf _ => true | v => v.isSig)) then fNV else 0
  if bad || sa == -128 || sb == -128 then (.nan, nv)
  else
    match FVal.dot false ps [] with
    | (.fin n m e, _) =>
      let (a, o) := roundA24 (n && m != 0) m (e + sa + sb)
      (a, if o then fOF else 0)
    | _ => (.nan, nv)

end Sys2Proof.Machine
end

