-- ==== Sys2Proof/Machine/FloatOps.lean ====
section
/-!
DEFINITION. The float operations on bit patterns of one element (R292 to R299), and the placement of
elements in registers (R78, R98).
-/
namespace Sys2Proof.Machine

/-- Rounding of one word: mode, SAT and FTZ (R88). -/
structure Rnd where
  md  : RMode
  sat : Bool
  ftz : Bool
deriving DecidableEq, Repr

/-- RN with SAT and FTZ clear (R88, R101). -/
def Rnd.plain : Rnd := ⟨.rn, false, false⟩

/-- The exact zero sum takes −0 in RD (R93). -/
def Rnd.rd (r : Rnd) : Bool := r.md == .rd

/-- Σ of products and addends, rounded once. -/
def fDot (f : Fmt) (r : Rnd) (ps : List (FVal × FVal)) (ds : List FVal) : Nat × FFlags :=
  let (v, fl) := FVal.dot r.rd ps ds
  let (b, g) := v.toArith f r.md r.sat r.ftz
  (b, fl ||| g)

def fAdd (f : Fmt) (r : Rnd) (a b : Nat) : Nat × FFlags := fDot f r [] [f.read r.ftz a, f.read r.ftz b]
def fSub (f : Fmt) (r : Rnd) (a b : Nat) : Nat × FFlags :=
  fDot f r [] [f.read r.ftz a, (f.read r.ftz b).neg]
def fMul (f : Fmt) (r : Rnd) (a b : Nat) : Nat × FFlags :=
  fDot f r [(f.read r.ftz a, f.read r.ftz b)] []
/-- a × b + d, with the product negated when `n` (R292). -/
def fFma (f : Fmt) (r : Rnd) (n : Bool) (a b d : Nat) : Nat × FFlags :=
  let x := f.read r.ftz a
  fDot f r [(if n then x.neg else x, f.read r.ftz b)] [f.read r.ftz d]

/-- Finish a value with its own flags. -/
def fFinish (f : Fmt) (r : Rnd) (v : FVal × FFlags) : Nat × FFlags :=
  let (b, g) := v.1.toArith f r.md r.sat r.ftz
  (b, v.2 ||| g)

def fDiv (f : Fmt) (r : Rnd) (a b : Nat) : Nat × FFlags :=
  fFinish f r (FVal.div f.p (f.read r.ftz a) (f.read r.ftz b))
def fRcp (f : Fmt) (r : Rnd) (a : Nat) : Nat × FFlags :=
  fFinish f r (FVal.div f.p (.fin false 1 0) (f.read r.ftz a))
def fRsq (f : Fmt) (r : Rnd) (a : Nat) : Nat × FFlags := fFinish f r (FVal.rsqrt f.p (f.read r.ftz a))
def fSqrt (f : Fmt) (r : Rnd) (a : Nat) : Nat × FFlags := fFinish f r (FVal.sqrt f.p (f.read r.ftz a))
def fExp2 (f : Fmt) (r : Rnd) (a : Nat) : Nat × FFlags := fFinish f r (f.read r.ftz a).exp2
def fLog2 (f : Fmt) (r : Rnd) (a : Nat) : Nat × FFlags := fFinish f r (f.read r.ftz a).log2
def fSin (f : Fmt) (r : Rnd) (a : Nat) : Nat × FFlags := fFinish f r (f.read r.ftz a).sinpi
def fCos (f : Fmt) (r : Rnd) (a : Nat) : Nat × FFlags := fFinish f r (f.read r.ftz a).cospi

/-- a × 2^k (R296); a special input follows R93. -/
def fScale (f : Fmt) (r : Rnd) (a : Nat) (k : Int) : Nat × FFlags :=
  match f.read r.ftz a with
  | .fin s m e => roundTo f r.md r.sat r.ftz s m (e + k)
  | .nan s _ => (f.nan false, if s then fNV else 0)
  | .inf s => (f.inf s, 0)

/-- FABS and FNEG (R294). -/
def fSignClear (f : Fmt) (a : Nat) : Nat := a % 2 ^ (f.bits - 1)
def fSignFlip (f : Fmt) (a : Nat) : Nat :=
  if a / 2 ^ (f.bits - 1) % 2 = 1 then a - 2 ^ (f.bits - 1) else a + 2 ^ (f.bits - 1)

/-! ## Complex FP64 (R101, R299): a value is a pair of patterns -/

def conjIf (c : Bool) (a : Nat × Nat) : Nat × Nat := if c then (a.1, fSignFlip .f64 a.2) else a

/-- CMUL in the order of R101. -/
def cMul (r : Rnd) (a b : Nat × Nat) : (Nat × Nat) × FFlags :=
  let (re, f1) := fMul .f64 r a.1 b.1
  let (re, f2) := fFma .f64 r true a.2 b.2 re
  let (im, f3) := fMul .f64 r a.1 b.2
  let (im, f4) := fFma .f64 r false a.2 b.1 im
  ((re, im), f1 ||| f2 ||| f3 ||| f4)

/-- CFMA in the order of R101. -/
def cFma (r : Rnd) (a b d : Nat × Nat) : (Nat × Nat) × FFlags :=
  let (re, f1) := fFma .f64 r false a.1 b.1 d.1
  let (re, f2) := fFma .f64 r true a.2 b.2 re
  let (im, f3) := fFma .f64 r false a.1 b.2 d.2
  let (im, f4) := fFma .f64 r false a.2 b.1 im
  ((re, im), f1 ||| f2 ||| f3 ||| f4)

/-- One part of CRCP: x / n with n the exact |a|² (R299). -/
def cPart (r : Rnd) (x n : FVal) : Nat × FFlags := fFinish .f64 r (FVal.div 53 x n)

/-- CRCP (R299). -/
def cRcp (r : Rnd) (a : Nat × Nat) : (Nat × Nat) × FFlags :=
  let x := Fmt.f64.read r.ftz a.1
  let y := Fmt.f64.read r.ftz a.2
  if x.isNan || y.isNan then ((Fmt.f64.nan false, Fmt.f64.nan false), nvOf [x, y])
  else
    match x, y with
    | .fin s m e, .fin t n g =>
      if m = 0 ∧ n = 0 then ((Fmt.f64.inf false, Fmt.f64.nan false), fDZ)
      else
        let (d, _) := FVal.sum false [.fin false (m * m) (e + e), .fin false (n * n) (g + g)]
        let (re, f1) := cPart r (.fin s m e) d
        let (im, f2) := cPart r (.fin (!t) n g) d
        ((re, im), f1 ||| f2)
    | _, _ =>
      let neg (v : FVal) : Bool := match v with | .fin s _ _ => s | .inf s => s | .nan _ s => s
      ((Fmt.f64.signBit (neg x), Fmt.f64.signBit (!neg y)), 0)

/-- FDOT2 (R297). -/
def fDot2 (h : Fmt) (r : Rnd) (a b : List Nat) (d : Nat) : Nat × FFlags :=
  fDot .f32 r ((a.zip b).map (fun p => (h.read r.ftz p.1, h.read r.ftz p.2))) [Fmt.f32.read r.ftz d]

/-! ## Elements in registers (R78) -/

/-- A value of a type as one number: the words of its registers, the lowest first. -/
def wordsNat : List Word → Nat
  | [] => 0
  | w :: ws => w.toNat + 2 ^ 32 * wordsNat ws

/-- The low `n` words of a number. -/
def natWords : Nat → Nat → List Word
  | 0, _ => []
  | n + 1, v => BitVec.ofNat 32 v :: natWords n (v / 2 ^ 32)

/-- The elements of a register, pair or quad of a type: a 64-bit or complex value is one element. -/
def elemsOf (t : Ety) (v : Nat) : List Nat :=
  match t.elems with
  | 1 => [v]
  | 2 => [v % 2 ^ 16, v / 2 ^ 16 % 2 ^ 16]
  | _ => [v % 2 ^ 8, v / 2 ^ 8 % 2 ^ 8, v / 2 ^ 16 % 2 ^ 8, v / 2 ^ 24 % 2 ^ 8]

/-- The register value of a list of elements. -/
def elemsJoin (t : Ety) (es : List Nat) : Nat :=
  let w := if t.elems = 1 then 0 else 32 / t.elems
  es.foldr (fun x a => x + 2 ^ w * a) 0

/-- Element `i` replaced. -/
def elemSet (t : Ety) (v i x : Nat) : Nat := elemsJoin t ((elemsOf t v).set i x)

/-- The two parts of a complex value. -/
def c64Of (v : Nat) : Nat × Nat := (v % 2 ^ 64, v / 2 ^ 64)
def c64Join (p : Nat × Nat) : Nat := p.1 + 2 ^ 64 * p.2

/-- BF16 bits widened to F64 as a placement of bits (R98). -/
def bf16ToF64 (b : Nat) : Nat :=
  match Fmt.bf16.value b with
  | .nan _ n => Fmt.f64.signBit n + 0x7FF * 2 ^ 52 + b % 2 ^ 7 * 2 ^ 45
  | .inf n => Fmt.f64.inf n
  | .fin n m e => (roundTo .f64 .rn false false n m e).1

/-- IMM16 in a type (R98), as a register, pair or quad value. -/
def immValue (t : Ety) (i : BitVec 16) : Nat :=
  let n := i.toNat
  match t with
  | .s32 => (i.signExtend 32).toNat
  | .s64 => (i.signExtend 64).toNat
  | .n32 | .n64 | .bits => n
  | .f32 => n * 2 ^ 16
  | .f64 => bf16ToF64 n
  | .f16 | .bf16 | .s16 => n + n * 2 ^ 16
  | .e4m3 | .e5m2 | .ts8 | .s8 => n + n * 2 ^ 16
  | .c64 => bf16ToF64 n

/-- The 8-bit immediate of a pair-form half (R98). -/
def imm8Value (t : Et2) (i : BitVec 8) : Nat :=
  match t with
  | .s32 => (i.signExtend 32).toNat
  | .n32 | .bits => i.toNat
  | .f32 => (convert .e4m3 .f32 .rn false false i.toNat).1 % 2 ^ 31 +
      (if (Fmt.e4m3f.value i.toNat).isNan then 0 else i.toNat / 128 * 2 ^ 31)

end Sys2Proof.Machine
end

