-- ==== Sys2Proof/Config.lean ====
section
/-!
DEFINITION. What an implementation of the PH-SPH-1A fixes and the specification does not give, and
the free values. Every constant here has no body: nothing in Lean can evaluate it.
-/
namespace Sys2Proof.Config

/-- A value that the specification leaves undefined, one for each use (log entry 2). -/
opaque freeValue : Nat → BitVec 64

/-- SHA3-256 of a byte string (R457, R463); the specification names the function of FIPS 202 and gives
no computation (log entry 9). -/
opaque sha3 : List Byte → BitVec 256

/-- The ML-DSA-44 signature of a digest under the device's identity key, 2,420 bytes (R457): the key belongs to the
device (log entry 9). -/
opaque signQuote : BitVec 256 → BitVec 19360

/-- The digests of the slice firmware, the board controller firmware and the product identity that the device measures,
by KIND (R457, log entry 84). -/
opaque measured : Nat → BitVec 256

/-- The identity public key of the device and its certificate (R42, R454), which belong to each device (log entry
66). -/
opaque identityKey : List Byte
opaque identityCert : List Byte

/-- Device-physical address of the context save area the driver gives a wave (R190 SAVE, log entry 10):
a path 0 address chosen by the driver for a team and a wave number. -/
opaque saveArea : Nat → Nat → BitVec 64

/-- The bank of a DRAM row, and its number in the bank (log entry 64). -/
opaque bankOf : Nat → Nat
opaque rowIn : Nat → Nat

/-- A refresh of a bank at a time covers a row of it (R441, log entry 64). -/
opaque refreshed : Nat → Nat → Bool

end Sys2Proof.Config
end

