-- ==== Sys2Proof/Machine/Store.lean ====
section
/-!
DEFINITION. The two sparse containers of the state: maps by number with a default, and memory as
(address, byte) pairs, each in one canonical form (keys rise strictly, no entry holds the default).
-/
namespace Sys2Proof.Machine

/-! ## Maps with a default -/

/-- The value at key `k`, `d` where the map lists none. -/
def fget {β : Type} (d : β) : FMap β → Nat → β
  | [], _ => d
  | (j, v) :: m, k => if j = k then v else fget d m k

/-- Remove key `k`. -/
def fdel {β : Type} (m : FMap β) (k : Nat) : FMap β := m.filter (fun e => e.1 != k)

/-- Write key `k`; writing the default removes the entry. -/
def fset {β : Type} [BEq β] (d : β) : FMap β → Nat → β → FMap β
  | [], k, v => if v == d then [] else [(k, v)]
  | (j, u) :: m, k, v =>
    if j = k then fset d m k v
    else if k < j then (if v == d then (j, u) :: fdel m k else (k, v) :: (j, u) :: fdel m k)
    else (j, u) :: fset d m k v

/-- The value at a key, where listed. -/
def flook {β : Type} : FMap β → Nat → Option β
  | [], _ => none
  | (j, v) :: m, k => if j = k then some v else flook m k

/-- Change the value under key `k`. -/
def fmod {β : Type} (m : FMap β) (k : Nat) (f : β → β) : FMap β := m.map (fun e => (e.1, if e.1 = k then f e.2 else e.2))

/-- Write key `k` in a map without a default. -/
def fput {β : Type} : FMap β → Nat → β → FMap β
  | [], k, v => [(k, v)]
  | (j, u) :: m, k, v =>
    if j = k then fput m k v
    else if k < j then (k, v) :: (j, u) :: fdel m k
    else (j, u) :: fput m k v

/-- Keys rise strictly. -/
def keysRise {β : Type} : FMap β → Bool
  | [] => true
  | [_] => true
  | a :: b :: m => a.1 < b.1 && keysRise (b :: m)

/-- The canonical form of a map with a default. -/
def fwf {β : Type} [BEq β] (d : β) (m : FMap β) : Bool :=
  keysRise m && m.all (fun e => !(e.2 == d))

/-! ## Memory -/

/-- Memory: the bytes that differ from what an unlisted address reads as. -/
abbrev Memory := List Host.Cell

/-- What an address reads as that nothing has written: every DRAM row is dead after cold reset and a
dead row reads zero (R445); for the other memories DESIGN CHOICE (log entry 3). -/
def Memory.background : Byte := 0

/-- One byte. -/
def Memory.read (m : Memory) (a : Nat) : Byte := fget Memory.background m a

/-- Write one byte. -/
def Memory.write (m : Memory) (a : Nat) (b : Byte) : Memory := fset Memory.background m a b

/-- `n` bytes from address `a` up. -/
def Memory.readN (m : Memory) (a : Nat) : Nat → List Byte
  | 0 => []
  | n + 1 => m.read a :: Memory.readN m (a + 1) n

/-- Write bytes from address `a` up. -/
def Memory.writeN (m : Memory) (a : Nat) : List Byte → Memory
  | [] => m
  | b :: bs => Memory.writeN (m.write a b) (a + 1) bs

/-- Make `n` bytes from address `a` read as the background. -/
def Memory.clear (m : Memory) (a n : Nat) : Memory :=
  m.filter (fun c => c.1 < a || a + n ≤ c.1)

/-- The canonical form: addresses rise strictly and no byte equals the background. -/
def Memory.wf (m : Memory) : Bool := fwf Memory.background m

end Sys2Proof.Machine
end

