-- ==== Sys2Proof/Machine/State.lean ====
section
/-!
DEFINITION. The state of the PH-SPH-1A as plain data: threads, waves, quadrants, cores, slices,
engines, teams, launches, memory and the host function, and the machine right after cold reset.
Structures that the specification keeps in memory (page tables, buffer table, queue control blocks,
launch records, engine blocks, chain entries, views, context table, kernel descriptors, text) stand in
memory and nowhere else.
-/
namespace Sys2Proof.Machine

/-! ## Stops -/

/-- Why the machine stops. -/
inductive Fault where
  /-- Raised by every meaning that reaches a device-physical address at or beyond 576 GiB, which the
  specification says the device does not have (R28). Safe: the machine stops where no behaviour is
  given. -/
  | noSuchAddress (a : Nat)
deriving DecidableEq, Repr

/-- Why an instruction is not run. -/
inductive Refusal where
  /-- Raised by Dispatch for an instruction that has no meaning yet. Safe. -/
  | notModelled (mnemonic : String)
deriving DecidableEq, Repr

/-! ## Places and pending accesses -/

/-- A poison mark on a byte (R121, R450): of a carry-check mismatch, or of a lost granule. -/
inductive Mark where
  | clean | check | uncorr
deriving DecidableEq, Repr

/-- What an access asks for (R103, R107). -/
inductive Want where
  | read | write | atomic
deriving DecidableEq, Repr

/-- How the bytes of a view become the bytes of an access (R439, R440). -/
inductive Post where
  | plain
  /-- invert the bits of `mask`, byte by byte (conjugate) -/
  | flip (mask : List Byte)
  /-- convert each source element to F32 or S32, drop `skip` bytes and keep the access (widen) -/
  | widen (src dst : Ety) (skip : Nat)
deriving DecidableEq, Repr

/-- One Infuser block (R440): physical address of its header, slot bytes, raw bytes it must hold, and
the offset of the access in it. -/
structure Block where
  hdr  : Nat
  slot : Nat
  raw  : Nat
  off  : Nat
deriving DecidableEq, Repr

/-- Where an access takes place. -/
inductive Loc where
  /-- bytes of memory, one address each, passed through a transform -/
  | bytes (ad : List Nat) (post : Post)
  /-- an element run of a tiled or Steppe region, by coordinates (R112, R340): `m` elements of `es`
  bytes -/
  | elem (comp idx : Nat) (co : List Nat) (m es : Nat)
  /-- an Infuser block (R440) -/
  | infuse (b : Block)
  /-- a generic address that still waits in the operand log (R184) -/
  | virt (path addr : Nat)
  /-- a private offset that waits in the operand log for growth (R134) -/
  | grow (off : Nat)
deriving DecidableEq, Repr

/-- An operation on memory by one lane (R336, R338, R419). -/
inductive MemOp where
  | store
  | rmw (op : Nat) (cmp : Nat)
deriving DecidableEq, Repr

/-- One lane's part of a store-queue entry (R140): the value is a little-endian number of `size`
bytes. -/
structure StPart where
  lane : Nat
  path : Nat
  loc  : Loc
  size : Nat
  ety  : Ety
  op   : MemOp
  val  : Nat
  ret  : Option Nat
  want : Want
  va   : Nat
  /-- the leaf it was translated through is read-duplicated (R200) -/
  shared : Bool
  done : Bool
deriving DecidableEq, Repr

/-- What a store-queue entry is (R142, R146). -/
inductive StKind where
  | plain | atomic | rsadd | tst | commit
deriving DecidableEq, Repr

/-- A store-queue entry, and the same entry past the order point (R142). -/
structure StEntry where
  id    : Nat
  wave  : Nat
  pc    : Word
  /-- the word that placed it (R184) -/
  word  : DWord
  kind  : StKind
  parts : List StPart
  scope : Nat
  acq   : Bool
  rel   : Bool
  flight : Option Nat
  xfer  : Option Nat
  stq   : Bool
  syq   : Bool
deriving DecidableEq, Repr

/-- Where a pending register value comes from. -/
inductive JobSrc where
  /-- already computed (R283) -/
  | ready
  /-- read of a location -/
  | mem (l : Loc) (size : Nat)
  /-- delivered by another step: an atomic's old value, a lap reply, a matrix result -/
  | await
  /-- a descriptor word (R355) -/
  | regq (comp idx sel : Nat)
  /-- an engine's completion sequence (R384) -/
  | cseq (e : Nat)
deriving DecidableEq, Repr

/-- One pending write of registers by a long-latency producer in one lane (R69). -/
structure Job where
  lane : Nat
  dst  : Nat
  n    : Nat
  tag  : Ety
  src  : JobSrc
  val  : Option (List Word)
  flags : BitVec 5
  path : Nat
  va   : Nat
  err  : Option Cause
  /-- bytes that the thread's buffered stores supply, by place in the access (R363) -/
  fwd  : FMap Byte
  held : Bool
  landed : Bool
deriving DecidableEq, Repr

/-- A long-latency producer in flight (R69, R327). -/
structure Flight where
  id    : Nat
  pc    : Word
  ety   : Ety
  mem   : Bool
  ldq   : Bool
  /-- a vector float instruction: flags and FPX under R97 -/
  fpx   : Bool
  /-- issued by members of a transaction (R363, R372) -/
  lapTx : Bool
  /-- a tile whose reader count it holds: core and entry (R129) -/
  tile  : Option (Nat × Nat)
  jobs  : List Job
deriving DecidableEq, Repr

/-! ## Threads and waves -/

/-- What a thread waits for after it has given up its table entry. -/
inductive Wait where
  | none
  /-- empty registers whose producers are memory operations: thread and register (R58, R69) -/
  | regs (rs : List (Nat × Nat))
  /-- with the issue group, while another wave of it waits for these partners' registers (R308) -/
  | partner (wave : Nat) (rs : List (Nat × Nat))
  /-- arrived at a join slot; the thread resumes at PC + 8 (R54) -/
  | join (slot : Nat)
  | waitc (cnt v scope : Nat)
  | waitq (e n : Nat)
  | waitl (comp idx v : Nat)
  | waitm (path addr cond c scope : Nat)
  /-- a blocking XGET: the number of its request (R74) -/
  | xget (id : Nat)
  | bar (b c : Nat)
  | barg (n : Nat)
  /-- a tile that is not READY (R58) -/
  | tile (ent : Nat)
  /-- a member at COMMIT with depth 1 (R366); not a swap trigger -/
  | commit
  /-- at TRY while the wave has an open transaction (R362); not a swap trigger -/
  | openTx
  /-- at XLINV until the shoot-down ends (R391); not a swap trigger -/
  | shoot (id : Nat)
  /-- at RTH until the unit is reacquired (R398); not a swap trigger -/
  | reacquire
  /-- at CINV until the page is mapped (R184, R390); not a swap trigger -/
  | logged
deriving DecidableEq, Repr

/-- A stride signature record (R117). -/
structure Sig where
  comp : Nat
  idx  : Nat
  co   : List Nat
deriving DecidableEq, Repr

/-- One lane of a wave (R64, R173, R190). -/
structure Thread where
  v      : FMap Word
  /-- V registers that are empty, with the producer that will fill them (R69) -/
  pend   : FMap Nat
  /-- storage that holds an uncorrectable soft error (R173): register n as n, window entry n as
  2,048 + n, Kettle log entry n as 4,096 + n, P register n as 16,384 + n, X register n as 16,392 + n -/
  soft   : List Nat
  p      : BitVec 8
  x      : FMap (BitVec 16)
  /-- the thread's PC; for a parked thread or one in handler mode its LPC (R173, R190) -/
  pc     : Word
  /-- the PC at which the thread continues in handler mode (R178) -/
  hpc    : Word
  exited : Bool
  wait   : Wait
  tval   : DWord
  depth  : Nat
  sigs   : List Sig
  /-- the PC with which the thread was parked: RTH compares it with LPC (R55) -/
  parkPc : Word
  /-- LST as HSET has replaced it on a restore entry (R190) -/
  lst    : Option (BitVec 2)
deriving DecidableEq, Repr

/-- A join slot (R52). -/
structure Join where
  valid : Bool
  pc    : Word
  exp   : Mask
  arr   : Mask
deriving DecidableEq, Repr

/-- A parked sub-wave in the FIFO (R174, R175): its lanes, what %cause and %epc take at delivery, whether the cause
is a deferred or an asynchronous one (R187, R193), and whether PARK made it (R388). -/
structure Parked where
  lanes : Mask
  cause : Word
  epc   : Word
  deferred : Bool
  async : Bool
  byPark : Bool
deriving DecidableEq, Repr

/-- Lanes to park at their next instruction boundary (R97, R187, R188). -/
structure Defer where
  lanes : Mask
  cause : Cause
  epc   : Word
  tval  : List (Nat × DWord)
deriving DecidableEq, Repr

/-- A watch range (R190). -/
structure Watch where
  base : DWord
  len  : Word
deriving DecidableEq, Repr

/-- The six counters (R146). -/
structure Counters where
  ldq : Nat
  stq : Nat
  syq : Nat
  tlq : Nat
  mxq : Nat
  enq : Nat
deriving DecidableEq, Repr

/-- A register-log entry: the register, its tag, and in every lane its value and fullness (R361). -/
structure LogReg where
  reg  : Nat
  tag  : Ety
  vals : List Word
  /-- the full bit in every lane -/
  full : Mask
deriving DecidableEq, Repr

/-- A read-set line (R361): the line key, the lanes in its mask, those whose read has been performed, and
the virtual 64 KiB pages it was read through (R365). -/
structure Line where
  key  : Nat
  mask : Mask
  seen : Mask
  pages : List Nat
deriving DecidableEq, Repr

/-- The Kettle of a wave (R361, R372). -/
structure Kettle where
  isOpen  : Bool
  whole : Bool
  apc   : Word
  cw    : FMap Word
  /-- W registers whose checkpointed value holds an uncorrectable soft error (R173) -/
  cwsoft : List Nat
  cfpstat : Word
  cfpctl  : Word
  /-- P1 to P7 and X0 to X3 of the member lanes, with their uncorrectable soft errors (R173) -/
  cp    : FMap (BitVec 8)
  cx    : FMap (FMap (BitVec 16))
  csoft : FMap (List Nat)
  log   : List LogReg
  buf   : List StPart
  reads : List Line
  lap   : Option Nat
  /-- lanes with a conflict not yet taken (R365) -/
  hit   : Mask
  /-- the place of the commit group is fixed: entries of the wave with a lower number stand ahead -/
  commitAt : Option Nat
  /-- entries placed before the TRY have a lower number (R365) -/
  since : Nat
deriving DecidableEq, Repr

/-- A resident wave. -/
structure Wave where
  uid   : Nat
  team  : Nat
  num   : Nat
  core  : Nat
  quad  : Nat
  lane  : Nat
  width : Nat
  base  : Nat
  ext   : Nat
  code  : Nat
  threads : List Thread
  tags  : FMap Ety
  w     : FMap Word
  q     : FMap Word
  joins : FMap Join
  winFirst : Nat
  winLen : Nat
  winhit : DWord
  cnt   : Counters
  fpctl : Word
  fpstat : Word
  cause : Word
  epc   : Word
  entry : Word
  repeatB : Word
  restore : Bool
  /-- a sub-wave runs in handler mode (R175) -/
  handling : Bool
  subw  : Mask
  retm  : Mask
  save  : DWord
  parkq : List Parked
  defer : List Defer
  handler : Word
  prog  : Word
  abort : Word
  hwm   : Nat
  watch : FMap Watch
  mxs   : FMap DWord
  quantum : Nat
  sq    : List StEntry
  flights : List Flight
  kettle : Kettle
  kill  : Bool
  /-- the KILL comes from the escalation of a lost granule (R179) -/
  killEsc : Bool
  preempt : Bool
  /-- %tval of ENGINE causes not yet taken (R173, R174) -/
  engine : List DWord
  /-- time of the last acquire: L1 lines filled before it are not used (R150) -/
  acqAt : Nat
  /-- names the private region of the wave across saves (R133) -/
  priv  : Nat
  /-- the wave has retired (R63); its store queue and its writes in flight drain -/
  retired : Bool
  /-- the wave is freed by a completed save (R181) -/
  freed : Bool
  /-- W registers that hold an uncorrectable soft error, and Q registers as 64 + n (R64, R173) -/
  wsoft : List Nat
  /-- threads whose next word cannot issue for a reason that is no swap trigger (R57, R58) -/
  stuck : Mask
deriving DecidableEq, Repr

/-! ## Quadrants -/

/-- Issue mode (R49): normal, in the transaction of a wave, or in a wave's handler. -/
inductive Mode where
  | normal
  | tx (wave : Nat)
  | handler (wave : Nat)
deriving DecidableEq, Repr

/-- A PC table key (R48). -/
structure Key where
  code : Nat
  pc   : Word
  mode : Mode
deriving DecidableEq, Repr

/-- Threads of one wave in an issue group. -/
structure Part where
  wave : Nat
  mask : Mask
deriving DecidableEq, Repr

/-- A PC table entry (R48). -/
structure Entry where
  key   : Key
  parts : List Part
  age   : Nat
deriving DecidableEq, Repr

/-- A cause raised in one lane: its %tval, and for an address cause the position of the check that
raised it (R175). -/
structure Trap where
  lane  : Nat
  cause : Cause
  tval  : DWord
  pos   : Nat
deriving DecidableEq, Repr

/-- Causes and aborts of a cycle's first word that take effect after the second word of the same wave (R284):
the wave, the PC of the word, the causes, and lanes that abort with the code and ABORT's own code. -/
structure Late where
  wave  : Nat
  pc    : Word
  traps : List Trap
  abort : Option (Mask × Nat × Nat)
deriving DecidableEq, Repr

/-- An issue group with its word: `snap` holds the waves as the cycle began (R284) when an earlier
word of the cycle has already taken effect. -/
structure Issue where
  core  : Nat
  quad  : Nat
  num   : Nat
  key   : Key
  parts : List Part
  word  : DWord
  snap  : List Wave
  /-- flags that the first word of the cycle raised, by wave (R96) -/
  raised : List (Nat × BitVec 5)
  /-- effects of the first word of the cycle that follow this one (R284) -/
  late  : List Late
  /-- PREEMPT stops the word at a boundary that this number chooses (R192) -/
  cut   : Option Nat
deriving DecidableEq, Repr

/-- A register in quarantine (R73): the quadrant lane, and the producer still in flight to it. -/
structure Quar where
  lane : Nat
  prod : Nat
  reg  : Nat
deriving DecidableEq, Repr

/-- What an operand-log entry holds up (R184). -/
inductive Held where
  | job (flight idx : Nat)
  | part (entry idx : Nat)
  | xfer (id : Nat)
  | wait
deriving DecidableEq, Repr

/-- An operand-log entry (R184). -/
structure OpEntry where
  wave  : Nat
  pc    : Word
  word  : DWord
  grow  : Bool
  /-- thread, what it holds up, path and address of the access -/
  items : List (Nat × Held × Nat × Nat)
  /-- delivered to %handler under R187 -/
  delivered : Bool
  /-- the word's entry: the waves of one issue share it (R184) -/
  num   : Nat
deriving DecidableEq, Repr

/-- A matrix operation in a unit's queue (R404). -/
structure MxOp where
  id    : Nat
  wave  : Nat
  team  : Nat
  core  : Nat
  quad  : Nat
  off   : Nat
  kb0   : Nat
  /-- resumed after a save (R412) -/
  again : Bool
  /-- low 128 bits of the parameter block (R399) -/
  pb    : BitVec 128
  /-- the wave's B quarter, one list of words for each thread (R408) -/
  quarter : List (List Word)
  /-- promotion flight (R405) -/
  flight : Option Nat
  /-- the rendezvous has formed (R408) -/
  formed : Bool
  /-- being performed: accumulator elements as bit patterns, with flags -/
  result : Option (List (List Nat) × BitVec 5)
deriving DecidableEq, Repr

/-- A matrix unit (R396, R403). -/
structure MxUnit where
  holder : Option (Nat × Nat)
  ops    : List MxOp
deriving DecidableEq, Repr

/-- A quadrant (R15). -/
structure Quad where
  table   : FMap Entry
  queue   : List (Nat × Nat)
  active  : List Nat
  pending : List Nat
  recent  : List Nat
  /-- the second word of the cycle, chosen with the first (R51, R284) -/
  second  : Option Issue
  /-- blocked active waves, the one that blocked earliest first (R59) -/
  blocked : List Nat
  yieldDue : List Nat
  quantumDue : List Nat
  /-- the cycle's single swap has been performed (R59) -/
  swapped : Bool
  /-- waiting XGET requests in order: request, wave, registers (R74) -/
  xq      : List (Nat × Nat × Nat)
  quar    : List Quar
  oplog   : List OpEntry
  cyc     : DWord
  mx      : MxUnit
deriving DecidableEq, Repr

/-! ## Cores -/

/-- An L1 line (R18, R145): its bytes and the time of its fill. -/
structure L1Line where
  bytes  : List Byte
  fillAt : Nat
deriving DecidableEq, Repr

/-- A tile transfer in flight (R348 to R351). -/
structure Xfer where
  id   : Nat
  wave : Nat
  team : Nat
  load : Bool
  ent  : Nat
  pc   : Word
  word : DWord
  lanes : Mask
  lin  : Bool
  tr   : Bool
  cj   : Bool
  acq  : Bool
  rel  : Bool
  scope : Nat
  /-- LIN: address and pitch -/
  addr : Nat
  pitch : Nat
  /-- by coordinates: buffer and origin -/
  comp : Nat
  idx  : Nat
  co   : List Nat
  h    : Nat
  wt   : Nat
  es   : Nat
  /-- elements moved; bytes gathered for a store or for a compressed tile -/
  done : Nat
  got  : List (List Byte)
  held : Bool
  err  : Option (Cause × Nat)
  /-- the store-queue entry of a TST -/
  entry : Option Nat
  /-- the aperture registers at issue (R393) -/
  ap   : FMap DWord
deriving DecidableEq, Repr

/-- A core (R18). -/
structure Core where
  part  : Word
  comp  : Nat
  marks : FMap (Option Nat)
  l1    : FMap L1Line
  tiles : FMap DWord
  readers : FMap Nat
  /-- stores past the order point, oldest first (R142) -/
  outs  : List StEntry
  /-- path 6 and 7 stores accepted by the egress queue and not acknowledged (R147) -/
  egress : List StEntry
  xfers : List Xfer
deriving DecidableEq, Repr

/-! ## Regions, Steppe and slices -/

/-- State of one slice of a Steppe region (R416). -/
inductive Sweep where
  | sweep | wait
deriving DecidableEq, Repr

/-- One slice of a Steppe region: lap, state, cursor, lap-done tokens held for the lap, and CLOSE. In PAUSE the slice
is in self-refresh, and the state it left stands here (R416). -/
structure SliceLap where
  lap    : Nat
  st     : Sweep
  cursor : Nat
  tokens : List Nat
  closing : Bool
deriving DecidableEq, Repr

/-- A Steppe request (R418): an update or a lap read. -/
structure SReq where
  wave  : Nat
  comp  : Nat
  idx   : Nat
  co    : List Nat
  es    : Nat
  ety   : Ety
  /-- update: operation and value; lap read: none -/
  op    : Option MemOp
  val   : Nat
  core  : Nat
  /-- store-queue entry, or flight and job -/
  entry : Nat
  job   : Nat
  lap   : Nat
deriving DecidableEq, Repr

/-- The hidden state of a region (R109, R118 to R122, R416). -/
structure Region where
  /-- found invalid at its last write (R109) -/
  refused : Bool
  cnt   : FMap Nat
  n     : Nat
  /-- the MOVING parcel: staged bytes by element number in the parcel, poisoned elements, and
  elements written out -/
  moving : Bool
  staged : FMap (List Byte)
  poisoned : FMap Mark
  written : List Nat
  /-- the region was closed: the descriptor while its laps go on (R426) -/
  old   : Option (BitVec 512)
  laps  : FMap SliceLap
deriving DecidableEq, Repr

/-- A signature on its way to the home slice (R118). -/
structure SigMsg where
  comp : Nat
  idx  : Nat
  sig  : Option Nat
deriving DecidableEq, Repr

/-- What a granule in a channel is encrypted under (R453): a key pair, none where ENC = 0. The tweak is the
granule's place, which its reader and its writer share. -/
abbrev Seal := Option (BitVec 512)

/-- A line of a slice cache (R29): written since its fill, its key, the time of its fill, and whether a parcel that is
MOVING holds it there (R121). Its bytes are those of the memory. -/
structure SlcLine where
  dirty  : Bool
  key    : Seal
  fillAt : Nat
  staged : Bool
deriving DecidableEq, Repr

/-- A slice (R29, R441 to R446). -/
structure Slice where
  admitted : List SReq
  cache  : FMap SlcLine
  /-- row activation counters, by row (R441) -/
  acts   : FMap Nat
  selfRefresh : Bool
  alerts : Nat
  paid   : Nat
  debt   : FMap Nat
  /-- rows of open back-off windows, by bank: the alerting row and the rows of the bank -/
  windows : FMap (Nat × Nat)
deriving DecidableEq, Repr

/-! ## Work -/

/-- A kernel descriptor's fields (R275). -/
structure KDesc where
  pers : Bool
  umx  : Bool
  ust  : Bool
  utry : Bool
  privH : Nat
  privI : Nat
  tiles : Nat
  acc  : Nat
  scr  : Nat
  gang : Nat
  dx   : Nat
  dy   : Nat
  dz   : Nat
  part : Word
  maxe : Nat
  base : Nat
  width : Nat
  hoff : Word
  eoff : Word
deriving DecidableEq, Repr

/-- A code object instance loaded for a context (R223, R272): where its text lies, the offset of the
default handler, and the path 0 addresses of its kernel descriptors. -/
structure Code where
  id    : Nat
  ctx   : Nat
  base  : Nat
  size  : Nat
  dh    : Word
  kdescs : List Nat
deriving DecidableEq, Repr

/-- A fault record (R179, R204). -/
structure FaultRec where
  cause : Word
  epc   : Word
  tval  : DWord
  x : Nat
  y : Nat
  z : Nat
deriving DecidableEq, Repr

/-- A team barrier (R379): expected count and arrived waves; idle when no wave waits. -/
structure Bar where
  isOpen : Bool
  c    : Nat
  arr  : List Nat
deriving DecidableEq, Repr

/-- What becomes of a resident team. -/
inductive Phase where
  /-- shares granted; the argument copy has not completed (R215) -/
  | placing
  | running
  /-- PREEMPT raised; its waves save (R193) -/
  | saving
  /-- ended by failure or kill; its waves have retired -/
  | ended
deriving DecidableEq, Repr

/-- A resident team (R43, R213). -/
structure Team where
  uid   : Nat
  lq    : Nat
  lk    : Nat
  n     : Nat
  x : Nat
  y : Nat
  z : Nat
  gang  : Nat
  ctx   : Nat
  comp  : Nat
  prio  : Nat
  desc  : KDesc
  code  : Nat
  core  : Nat
  saddle : Bool
  /-- scratchpad and accumulator shares: base on each core and bytes held on each core -/
  spBase : List Nat
  spSize : Nat
  asBase : List Nat
  asSize : Nat
  tileBase : Nat
  bars  : FMap Bar
  bargArrived : List Nat
  phase : Phase
  /-- the team is placed again after a save (R194) -/
  restored : Bool
  /-- FETCHW requests: mailbox offset, issuing wave, and the name before which its earlier stores lie (R217) -/
  fetchw : List (Nat × Nat × Nat)
  failed : Option FaultRec
  /-- waves freed by a completed save, with their place, exited threads and private memory (R194) -/
  saved : List Wave
  /-- holders of matrix reservations at the save: wave numbers (R398) -/
  holders : List Nat
  /-- the operations suspended by the save (R412) -/
  mxops : List MxOp
  readers : FMap Nat
  placedAt : Nat
deriving DecidableEq, Repr

/-- A launch between the reading of its record and its completion (R204 to R220). -/
structure Launch where
  q     : Nat
  k     : Nat
  ctx   : Nat
  comp  : Nat
  prio  : Nat
  gx : Nat
  gy : Nat
  gz : Nat
  irq   : Bool
  args  : Nat
  arglen : Nat
  deps  : List DWord
  desc  : KDesc
  code  : Nat
  reject : Option Nat
  startable : Bool
  next  : Nat
  gone  : Nat
  nfail : Nat
  /-- stores of retired waves that the host or a peer has not acknowledged, by entry (R171) -/
  owed  : List Nat
  first : Option FaultRec
  killed : Bool
  /-- killed for a lost granule (R450) -/
  esc   : Bool
  saved : List Team
  wd    : Bool
deriving DecidableEq, Repr

/-! ## Engines -/

/-- The command an engine performs (R428): the entry's address and place, its words with the progress
word as it stands, the traffic class, lateness, and the positions of the current chunk that have been
written. -/
structure Cmd where
  addr  : Nat
  phys  : Nat
  word  : BitVec 512
  cls   : Nat
  late  : Bool
  pos   : Nat
deriving DecidableEq, Repr

/-- The hidden state of a copy engine (R429 to R436). -/
structure Engine where
  /-- tails sent and not yet recorded: address, wave (none: host), team -/
  tails : List (Nat × Option Nat × Option Nat)
  /-- teams that made entries available: address of the tail, team -/
  feeds : List (Nat × Option Nat)
  cmd   : Option Cmd
  stopped : Bool
deriving DecidableEq, Repr

/-! ## Device and host -/

/-- A shoot-down in progress (R198): page, context, members that have not yet received it, members
that have not yet been counted. -/
structure Shoot where
  id    : Nat
  ctx   : Nat
  va    : Nat
  toReceive : List Nat
  toCount : List Nat
deriving DecidableEq, Repr

/-- A link port (R461): the next link sequence number to accept, the flits delivered, and the sender's buffer, in which
a flit's place is its own sequence number. -/
structure Link where
  next  : Nat
  delivered : List Flit
  sent  : List Flit
deriving DecidableEq, Repr

/-- The bases that the driver sets through BAR0 (R454). -/
structure Bases where
  qcb : Nat
  eng : Nat
  ctx : Nat
  /-- buffer table base and length by compartment (R107) -/
  buf : FMap (Nat × Nat)
  /-- core mask by compartment (R208) -/
  mask : FMap (BitVec 192)
deriving DecidableEq, Repr

/-- The key mailbox (R455). -/
structure KeyBox where
  stat : BitVec 2
  opk  : BitVec 2
  comp : Nat
  slot : Nat
  key  : BitVec 512
deriving DecidableEq, Repr

/-- A loaded key slot (R452). -/
structure KeySlot where
  comp : Nat
  key  : BitVec 512
deriving DecidableEq, Repr

/-- Boot state of the identity block (R463). -/
inductive Boot where
  | normal | recovery
deriving DecidableEq, Repr

/-- What makes a device itself (R42, R454): its identity public key and the certificate of Phiedy's issuing key. The
ordering number of the identity block is PH-SPH-1A for every device. -/
structure Identity where
  key  : List Byte
  cert : List Byte
deriving DecidableEq, Repr

/-- The mailboxes of one host port, each port a PCI Express function of its own (R34, R455, R457). -/
structure HostPort where
  box   : KeyBox
  quote : List Byte
deriving DecidableEq, Repr

/-- What stands behind both host functions (R454 to R463). -/
structure HostFn where
  ident : Identity
  bases : Bases
  keys  : FMap KeySlot
  log   : List (BitVec 512)
  boot  : Boot
  /-- completion interrupts signalled: queue and record (R218) -/
  irqs  : List (Nat × Nat)
  errIrqs : Nat
  fatal : Bool
  /-- clear after a device-level escalation: no further placement (R450) -/
  noPlace : Bool
  regs  : FMap DWord
deriving DecidableEq, Repr

/-! ## The whole machine -/

structure State where
  mem    : Memory
  /-- bytes of granules that carry a poison mark (R121, R450) -/
  poison : FMap Mark
  /-- what the granules of live rows are encrypted under, by granule (R445, R453) -/
  seals  : FMap Seal
  waves  : List Wave
  quads  : FMap Quad
  cores  : FMap Core
  slices : FMap Slice
  engines : FMap Engine
  regions : FMap Region
  teams  : List Team
  launches : List Launch
  codes  : List Code
  apertures : FMap DWord
  sigs   : List SigMsg
  /-- Steppe requests on their way to a slice (R418) -/
  fabric : List SReq
  /-- the queue served last, by priority (R209) -/
  rr     : FMap Nat
  /-- the launch whose team or gang must be placed first, by priority (R211) -/
  stuck  : FMap (Nat × Nat)
  host   : HostFn
  /-- port 0 on the west die, port 1 on the east die (R34) -/
  ports  : FMap HostPort
  /-- own device id, the members of the load-store domain and the fenced ones (R35, R199) -/
  devId  : Nat
  domain : List Nat
  fenced : List Nat
  /-- port by device id (R460) -/
  routes : FMap Nat
  /-- pages that a peer refuses: device, context, 64 KiB page (R460) -/
  refused : List (Nat × Nat × Nat)
  shoots : List Shoot
  links  : FMap Link
  clocks : FMap Nat
  /-- the model's own: steps to take that the issue rule does not choose, oldest first (log entry 1) -/
  agenda : List Instr
  /-- the model's own: the issue group whose word is being executed -/
  cur    : Option Issue
  /-- the model's own: the quadrant whose cycle is next -/
  turn   : Nat
  /-- the model's own: time of the step, which orders fills and acquires -/
  now    : Nat
  /-- the model's own: next name of a wave, team, producer or entry -/
  nextId : Nat
  /-- the model's own: free values used (log entry 2) -/
  free   : Nat
  /-- the model's own: an access of this step reached an address that does not exist; never set in a
  next state -/
  bad    : Option Nat
deriving DecidableEq, Repr

/-! ## Defaults and reset -/

def Counters.zero : Counters := ⟨0, 0, 0, 0, 0, 0⟩
def Join.none : Join := ⟨false, 0, 0, 0⟩
def Watch.off : Watch := ⟨0, 0⟩
def Bar.idle : Bar := ⟨false, 0, []⟩

/-- A closed Kettle. -/
def Kettle.closed : Kettle :=
  { isOpen := false, whole := false, apc := 0, cw := [], cwsoft := [], cfpstat := 0, cfpctl := 0, cp := [], cx := [], csoft := [],
    log := [], buf := [], reads := [], lap := none, hit := 0, commitAt := none, since := 0 }

/-- A thread at wave start (R64, R95). -/
def Thread.start (pc : Word) (exited : Bool) : Thread :=
  { v := [], pend := [], soft := [], p := 1, x := [], pc := pc, hpc := 0, exited := exited, wait := .none,
    tval := 0, depth := 0, sigs := [], parkPc := 0, lst := none }

def MxUnit.idle : MxUnit := ⟨none, []⟩

/-- A quadrant at reset. -/
def Quad.reset : Quad :=
  { table := [], queue := [], active := [], pending := [], recent := [], second := none, blocked := [],
    yieldDue := [], quantumDue := [], swapped := false, xq := [], quar := [], oplog := [], cyc := 0, mx := MxUnit.idle }

/-- A core at reset: no partition word, every plot marked mixed (R22, R27), every tile EMPTY. -/
def Core.reset : Core :=
  { part := 0, comp := 0, marks := [], l1 := [], tiles := [], readers := [], outs := [], egress := [],
    xfers := [] }

def Slice.reset : Slice :=
  { admitted := [], cache := [], acts := [], selfRefresh := false, alerts := 0, paid := 0, debt := [], windows := [] }

def Engine.reset : Engine := ⟨[], [], none, false⟩

def Region.fresh : Region :=
  { refused := false, cnt := [], n := 0, moving := false, staged := [], poisoned := [], written := [],
    old := none, laps := [] }

def Link.reset : Link := ⟨0, [], []⟩

/-- A host port at reset: the mailbox is idle. -/
def HostPort.reset : HostPort := ⟨⟨0, 0, 0, 0, 0⟩, []⟩

/-- An entry of the measurement log (R457). -/
def measurement (index kind label : Nat) (digest : BitVec 256) : BitVec 512 :=
  BitVec.ofNat 512 (digest.toNat * 2 ^ 256 + label * 2 ^ 64 + kind * 2 ^ 40 + index)

/-- PH-SPH-1A in ASCII, the first character lowest (R42, R7). -/
def orderingNumber : List Nat := [0x50, 0x48, 0x2D, 0x53, 0x50, 0x48, 0x2D, 0x31, 0x41]

/-- The log as bring-up leaves it: the firmware image as entry 0 (R463), then what the device measures besides (R457,
log entry 84). -/
def bootLog (image : BitVec 256) : List (BitVec 512) :=
  [measurement 0 1 0 image, measurement 1 2 0 (Config.measured 2), measurement 2 3 0 (Config.measured 3),
   measurement 3 4 (orderingNumber.foldr (fun c n => c + 256 * n) 0) (Config.measured 4)]

/-- The host function at reset. The image's digest belongs to the image and is zero here (log entry 4). -/
def HostFn.reset : HostFn :=
  { ident := ⟨Config.identityKey, Config.identityCert⟩, bases := ⟨0, 0, 0, [], []⟩, keys := [],
    log := bootLog 0, boot := .normal, irqs := [], errIrqs := 0,
    fatal := false, noPlace := false, regs := [] }

/-- The machine right after cold reset (R463): every row dead, no work, ports up. -/
def State.reset : State :=
  { mem := [], poison := [], seals := [], waves := [], quads := [], cores := [], slices := [], engines := [],
    regions := [], teams := [], launches := [], codes := [], apertures := [], sigs := [], fabric := [],
    rr := [], stuck := [], host := HostFn.reset, ports := [], devId := 0, domain := [0], fenced := [], routes := [],
    refused := [], shoots := [], links := [], clocks := [],
    agenda := [], cur := none, turn := 0, now := 0, nextId := 1, free := 0, bad := none }

end Sys2Proof.Machine
end

