-- ==== Sys2Proof/Machine/Ops.lean ====
section
/-!
DEFINITION. The named operations over the state: access to its parts, registers of a thread, traps
(parking, delivery, return), transactions' abort, retirement and failure of teams.
-/
namespace Sys2Proof.Machine

/-! ## Masks and lists -/

def bitM (i : Nat) : Mask := BitVec.ofNat 64 (2 ^ i)

/-- Thread indices of a mask, in increasing order. -/
def lanesOf (m : Mask) : List Nat := (List.range 64).filter m.getLsbD

def maskOf (l : List Nat) : Mask := l.foldl (fun m i => m ||| bitM i) 0

/-- The lowest thread index of a mask. -/
def lowest (m : Mask) : Option Nat := (lanesOf m).head?

def sext16 (v : BitVec 16) : Int := v.toInt
def pcNext (pc : Word) : Word := pc + 8

/-- A PC-relative target (R232). -/
def relTarget (pc : Word) (i : BitVec 16) : Word := pc + 8 + 8 * i.signExtend 32

/-! ## Parts of the state -/
namespace State

def wave? (s : State) (u : Nat) : Option Wave := s.waves.find? (·.uid == u)
def mapWave (s : State) (u : Nat) (f : Wave → Wave) : State :=
  { s with waves := s.waves.map (fun w => if w.uid = u then f w else w) }
def team? (s : State) (u : Nat) : Option Team := s.teams.find? (·.uid == u)
def mapTeam (s : State) (u : Nat) (f : Team → Team) : State :=
  { s with teams := s.teams.map (fun t => if t.uid = u then f t else t) }
def launch? (s : State) (q k : Nat) : Option Launch := s.launches.find? (fun l => l.q == q && l.k == k)
def mapLaunch (s : State) (q k : Nat) (f : Launch → Launch) : State :=
  { s with launches := s.launches.map (fun l => if l.q = q ∧ l.k = k then f l else l) }
def quad (s : State) (n : Nat) : Quad := fget Quad.reset s.quads n
def setQuad (s : State) (n : Nat) (q : Quad) : State := { s with quads := fput s.quads n q }
def mapQuad (s : State) (n : Nat) (f : Quad → Quad) : State := s.setQuad n (f (s.quad n))
def core (s : State) (n : Nat) : Core := fget Core.reset s.cores n
def setCore (s : State) (n : Nat) (c : Core) : State := { s with cores := fput s.cores n c }
def mapCore (s : State) (n : Nat) (f : Core → Core) : State := s.setCore n (f (s.core n))
def slice (s : State) (n : Nat) : Slice := fget Slice.reset s.slices n
def mapSlice (s : State) (n : Nat) (f : Slice → Slice) : State :=
  { s with slices := fput s.slices n (f (s.slice n)) }
def engine (s : State) (n : Nat) : Engine := fget Engine.reset s.engines n
def mapEngine (s : State) (n : Nat) (f : Engine → Engine) : State :=
  { s with engines := fput s.engines n (f (s.engine n)) }
/-- Regions are numbered by compartment and buffer index. -/
def regKey (comp idx : Nat) : Nat := comp * 2 ^ 20 + idx
def region (s : State) (comp idx : Nat) : Region := fget Region.fresh s.regions (regKey comp idx)
def mapRegion (s : State) (comp idx : Nat) (f : Region → Region) : State :=
  { s with regions := fput s.regions (regKey comp idx) (f (s.region comp idx)) }
def code? (s : State) (c : Nat) : Option Code := s.codes.find? (·.id == c)
/-- A new name. -/
def newId (s : State) : Nat × State := (s.nextId, { s with nextId := s.nextId + 1 })
/-- Mark an access to an address that does not exist. -/
def touch (s : State) (ok : Bool) (a : Nat) : State :=
  if ok then s else { s with bad := some (s.bad.getD a) }

end State

/-- The end of a meaning: a fault where it reached an address that does not exist. -/
def finish (s : State) : Host.Outcome State Fault Refusal :=
  match s.bad with
  | some a => .fault (.noSuchAddress a)
  | none => .next s

/-- The quadrant number of a wave. -/
def Wave.qn (w : Wave) : Nat := w.core * 4 + w.quad

/-! ## Registers of a thread and of a wave -/

def Thread.reg (t : Thread) (n : Nat) : Word := fget 0 t.v n
/-- Registers n to n + k − 1 as one number (R78). -/
def Thread.regs (t : Thread) (n : Nat) : Nat → List Word
  | 0 => []
  | k + 1 => t.reg n :: Thread.regs t (n + 1) k
def Thread.val (t : Thread) (n k : Nat) : Nat := wordsNat (t.regs n k)
/-- A predicate; P0 holds in every lane (R227). -/
def Thread.pred (t : Thread) (p : Nat) : Bool := p == 0 || t.p.getLsbD p
def Thread.xreg (t : Thread) (x : Nat) : BitVec 16 := fget 0 t.x x
def Thread.empty (t : Thread) (n : Nat) : Bool := (flook t.pend n).isSome
/-- Soft-error marks that a write of register `n` clears: its own and its window entry's (R71). -/
def Thread.hardened (t : Thread) (n : Nat) : List Nat := t.soft.filter (fun m => m != n && m != 2048 + n)
/-- Write one register, full. -/
def Thread.setReg (t : Thread) (n : Nat) (w : Word) : Thread :=
  { t with v := fset 0 t.v n w, pend := fdel t.pend n, soft := t.hardened n }
def Thread.setRegs (t : Thread) (n : Nat) : List Word → Thread
  | [] => t
  | w :: ws => Thread.setRegs (t.setReg n w) (n + 1) ws
/-- Empty registers n to n + k − 1 for producer `f` (R69). -/
def Thread.setEmpty (t : Thread) (n f : Nat) : Nat → Thread
  | 0 => t
  | k + 1 => Thread.setEmpty { t with pend := fput t.pend n f, soft := t.hardened n } (n + 1) f k
/-- The soft-error marks of a P, an X and a Q register (R64, R173). -/
def pSoft (p : Nat) : Nat := 16384 + p
def xSoft (x : Nat) : Nat := 16392 + x
def qSoft (q : Nat) : Nat := 64 + q
/-- Write a predicate; a write to P0 is discarded (R227). A write clears the register's soft error. -/
def Thread.setPred (t : Thread) (p : Nat) (b : Bool) : Thread :=
  if p = 0 then t
  else { t with p := if b then t.p ||| BitVec.ofNat 8 (2 ^ p) else t.p &&& ~~~ BitVec.ofNat 8 (2 ^ p),
                soft := t.soft.filter (· != pSoft p) }
def Thread.setX (t : Thread) (x : Nat) (v : BitVec 16) : Thread :=
  { t with x := fset 0 t.x x v, soft := t.soft.filter (· != xSoft x) }

def Thread.gone : Thread := Thread.start 0 true

/-- The tag map with `k` registers from `n` up given a tag (R80). -/
def tagRun (m : FMap Ety) (n : Nat) (t : Ety) : Nat → FMap Ety
  | 0 => m
  | k + 1 => tagRun (fset .bits m n t) (n + 1) t k

namespace Wave

def thread (w : Wave) (i : Nat) : Thread := w.threads.getD i Thread.gone
def mapThread (w : Wave) (i : Nat) (f : Thread → Thread) : Wave :=
  { w with threads := w.threads.mapIdx (fun j t => if j = i then f t else t) }
/-- Apply `f` in the lanes of a mask. -/
def mapLanes (w : Wave) (m : Mask) (f : Nat → Thread → Thread) : Wave :=
  { w with threads := w.threads.mapIdx (fun j t => if m.getLsbD j then f j t else t) }
def tag (w : Wave) (n : Nat) : Ety := fget .bits w.tags n
/-- Tags of `k` registers from `n` up. -/
def setTags (w : Wave) (n : Nat) (t : Ety) (k : Nat) : Wave := { w with tags := tagRun w.tags n t k }
def wreg (w : Wave) (n : Nat) : Word := fget 0 w.w n
/-- Write a W register; a write clears its soft error (R173). -/
def setW (w : Wave) (n : Nat) (v : Word) : Wave :=
  { w with w := fset 0 w.w n v, wsoft := w.wsoft.filter (· != n) }
def wpair (w : Wave) (n : Nat) : DWord := w.wreg (n + 1) ++ w.wreg n
def qreg (w : Wave) (n : Nat) : Word := fget 0 w.q n
def setQ (w : Wave) (n : Nat) (v : Word) : Wave :=
  { w with q := fset 0 w.q n v, wsoft := w.wsoft.filter (· != qSoft n) }
def qpair (w : Wave) (n : Nat) : DWord := w.qreg (n + 1) ++ w.qreg n
def top (w : Wave) : Nat := w.base + w.ext
def join? (w : Wave) (j : Nat) : Join := fget Join.none w.joins j
def setJoin (w : Wave) (j : Nat) (x : Join) : Wave := { w with joins := fset Join.none w.joins j x }

/-- Threads of the wave that have not exited. -/
def alive (w : Wave) : Mask :=
  maskOf ((List.range w.width).filter (fun i => !(w.thread i).exited))
/-- Lanes of parked sub-waves (R174). -/
def parkedMask (w : Wave) : Mask := w.parkq.foldl (fun m p => m ||| p.lanes) 0
/-- Lanes in handler mode (R178). -/
def handlerMask (w : Wave) : Mask := if w.handling then w.subw else 0
/-- Member threads of the open transaction (R361). -/
def members (w : Wave) : Mask :=
  if w.kettle.isOpen then
    maskOf ((List.range w.width).filter (fun i => (w.thread i).depth != 0 && !(w.thread i).exited))
  else 0
/-- Transaction depth as %txdepth returns it (R361). -/
def txdepth (w : Wave) : Nat := w.threads.foldl (fun d t => max d t.depth) 0
def inHandler (w : Wave) (i : Nat) : Bool := w.handlerMask.getLsbD i
/-- The PC at which a thread issues. -/
def pcOf (w : Wave) (i : Nat) : Word := if w.inHandler i then (w.thread i).hpc else (w.thread i).pc
def setPc (w : Wave) (m : Mask) (f : Nat → Word) : Wave :=
  let h := w.handlerMask
  w.mapLanes m (fun i t => if h.getLsbD i then { t with hpc := f i } else { t with pc := f i })
/-- Threads that issued at `pc`, in handler mode or not, and still stand there go on (R284, R320). -/
def advance (w : Wave) (hm : Bool) (m : Mask) (pc : Word) (f : Nat → Word) : Wave :=
  w.mapLanes m (fun i t =>
    if hm then (if t.hpc = pc then { t with hpc := f i } else t)
    else if t.pc = pc then { t with pc := f i } else t)
/-- Issue mode of a thread (R49). -/
def modeOf (w : Wave) (i : Nat) : Mode :=
  if w.inHandler i then .handler w.uid
  else if w.members.getLsbD i then .tx w.uid
  else .normal
/-- Threads that run: not exited and not parked. -/
def running (w : Wave) : Mask := w.alive &&& ~~~ w.parkedMask
def setWait (w : Wave) (m : Mask) (x : Wait) : Wave := w.mapLanes m (fun _ t => { t with wait := x })

end Wave

/-! ## Counters (R146) -/

/-- Counter codes of R236. -/
def Counters.get (c : Counters) : Nat → Nat
  | 0 => c.ldq | 1 => c.stq | 2 => c.syq | 3 => c.tlq | 4 => c.mxq | _ => c.enq
def Counters.add (c : Counters) (k : Nat) : Counters :=
  match k with
  | 0 => { c with ldq := c.ldq + 1 } | 1 => { c with stq := c.stq + 1 }
  | 2 => { c with syq := c.syq + 1 } | 3 => { c with tlq := c.tlq + 1 }
  | 4 => { c with mxq := c.mxq + 1 } | _ => { c with enq := c.enq + 1 }
def Counters.sub (c : Counters) (k : Nat) : Counters :=
  match k with
  | 0 => { c with ldq := c.ldq - 1 } | 1 => { c with stq := c.stq - 1 }
  | 2 => { c with syq := c.syq - 1 } | 3 => { c with tlq := c.tlq - 1 }
  | 4 => { c with mxq := c.mxq - 1 } | _ => { c with enq := c.enq - 1 }
def Wave.raise (w : Wave) (k : Nat) : Wave := { w with cnt := w.cnt.add k }
def Wave.lower (w : Wave) (k : Nat) : Wave := { w with cnt := w.cnt.sub k }

/-! ## Causes (R172, R182) -/

end Sys2Proof.Machine

namespace Sys2Proof

def Cause.bit : Cause → Nat
  | .illegal => 0 | .empty => 1 | .regbound => 2 | .page => 3 | .rights => 4 | .bounds => 5
  | .align => 6 | .fpx => 7 | .format => 8 | .tile => 9 | .break => 10 | .soft => 11 | .watch => 12
  | .preempt => 13 | .check => 14 | .uncorr => 15 | .engine => 16 | .grow => 17 | .xquota => 18
  | .steppe => 19 | .kill => 20

def Cause.word (c : Cause) : Word := BitVec.ofNat 32 (2 ^ c.bit)

/-- Rank in the priority table (R182). -/
def Cause.rank : Cause → Nat
  | .illegal => 1 | .break => 2 | .regbound => 3 | .empty => 4 | .soft => 5 | .format => 6
  | .tile => 7 | .xquota => 8
  | .rights | .bounds | .align | .page | .grow => 9
  | .steppe => 10 | .check | .uncorr => 11 | .fpx => 12 | .watch => 13
  | .kill => 14 | .preempt => 15 | .engine => 16

end Sys2Proof

namespace Sys2Proof.Machine

/-- The order of R182 between two causes of one lane, with the check position of rank 9. -/
def Trap.before (a b : Trap) : Bool :=
  a.cause.rank < b.cause.rank || (a.cause.rank == b.cause.rank && a.pos < b.pos)

/-- One cause for each lane: the one that stands highest (R182). -/
def oneEach : List Trap → List Trap
  | [] => []
  | t :: ts =>
    let r := oneEach ts
    match r.find? (·.lane == t.lane) with
    | none => t :: r
    | some u => if u.before t then r else t :: r.filter (·.lane != t.lane)

/-! ## Join slots (R52 to R55) -/

/-- Complete a slot whose expected set has arrived (R54): its threads resume at the next word. -/
def Wave.joinTest (w : Wave) (j : Nat) : Wave :=
  let x := w.join? j
  if x.valid && (x.exp &&& ~~~ x.arr) == 0 then
    (w.mapLanes x.arr (fun _ t => if t.wait == .join j then { t with wait := .none, pc := pcNext t.pc } else t)).setJoin j
      Join.none
  else w

/-- Threads leave every join slot of their wave (R55), and the slots are tested. -/
def Wave.leaveJoins (w : Wave) (m : Mask) : Wave :=
  (List.range 8).foldl (fun w j =>
    let x := w.join? j
    if x.valid && (x.exp ||| x.arr) &&& m != 0 then
      (w.setJoin j { x with exp := x.exp &&& ~~~ m, arr := x.arr &&& ~~~ m }).joinTest j
    else w) w

/-! ## Teams: failure and retirement -/

/-- A wave retires (R63): its registers are freed, those with a write in flight into quarantine; its
slots and its place are free. Its store queue and its writes in flight drain. -/
def retireWave (s : State) (u : Nat) : State :=
  match s.wave? u with
  | none => s
  | some w =>
    if w.retired then s
    else
      let qs := (w.threads.mapIdx (fun i t => t.pend.map (fun e => (⟨w.lane + i, e.2, e.1⟩ : Quar)))).flatten
      let s := s.mapWave u (fun w =>
        { w with
          retired := true, ext := 0, joins := [], winFirst := 0, winLen := 0, parkq := [], defer := [],
          handling := false, subw := 0, retm := 0, kettle := Kettle.closed,
          threads := w.threads.map (fun t =>
            { t with exited := true, wait := .none, pend := [], v := [], depth := 0, sigs := [] }) })
      let s := s.mapQuad w.qn (fun q =>
        { q with
          quar := q.quar ++ qs, active := q.active.filter (· != u),
          pending := q.pending.filter (· != u), recent := q.recent.filter (· != u),
          blocked := q.blocked.filter (· != u), yieldDue := q.yieldDue.filter (· != u),
          quantumDue := q.quantumDue.filter (· != u), xq := q.xq.filter (·.2.1 != u) })
      s

/-- The state of a tile-table entry (R127): 0 EMPTY, 1 FILLING, 2 READY, 3 DRAINING. -/
def tileState (e : DWord) : Nat := (e.extractLsb' 62 2).toNat
def setTileState (e : DWord) (st : Nat) : DWord := BitVec.ofNat 2 st ++ e.extractLsb' 0 62

/-- A byte of a core's pool (R21), in the one memory (log entry 3). -/
def poolAddr (core off : Nat) : Nat := 2 ^ 50 + core * 2 ^ 22 + off

/-- Plots of a register file take a context's grant (R27): the mark of a plot of another context; one that is granted
whole is zero-filled. -/
def markRegPlots (s : State) (core ctx lo n : Nat) (whole : Bool) : State :=
  let other (i : Nat) : Bool := fget none (s.core core).marks (lo + i) != some ctx
  let inPlots (a : Nat) : Bool := (List.range n).any (fun i =>
    other i && poolAddr core ((lo + i) * 16384) ≤ a && a < poolAddr core ((lo + i + 1) * 16384))
  let s := if whole then
      { s with mem := s.mem.filter (fun c => !inPlots c.1), poison := s.poison.filter (fun c => !inPlots c.1) }
    else s
  s.mapCore core (fun k => { k with marks := (List.range n).foldl (fun m i =>
    if other i then fset none m (lo + i) (if whole then some ctx else none) else m) k.marks })

/-- The cores that hold a team's tile table copies (R126). -/
def Team.cores (t : Team) : List Nat := if t.saddle then [t.core, t.core + 1] else [t.core]

/-- A tile-table entry of a team, as the wave's core holds it. -/
def State.tileEnt (s : State) (t : Team) (core i : Nat) : DWord :=
  fget 0 (s.core core).tiles (t.tileBase + i)

/-- Write a tile entry on every core of the team. -/
def State.setTile (s : State) (t : Team) (i : Nat) (f : DWord → DWord) : State :=
  t.cores.foldl (fun s c =>
    s.mapCore c (fun k => { k with tiles := fset 0 k.tiles (t.tileBase + i) (f (fget 0 k.tiles (t.tileBase + i))) })) s

/-- Change the reader count of a tile of a team (R129), on every core of the team. -/
def State.tileReaders (s : State) (t : Team) (i : Nat) : Nat :=
  fget 0 (s.core t.core).readers (t.tileBase + i)
def State.addReaders (s : State) (t : Team) (i : Nat) (up : Bool) : State :=
  t.cores.foldl (fun s c =>
    s.mapCore c (fun k =>
      let n := fget 0 k.readers (t.tileBase + i)
      { k with readers := fset 0 k.readers (t.tileBase + i) (if up then n + 1 else n - 1) })) s

/-- Source tiles of a matrix operation by the fields of its block (R399). -/
def mxSources (pb : BitVec 128) : List Nat :=
  let bsh := pb.getLsbD 47
  let scl := pb.getLsbD 46
  [(pb.extractLsb' 64 8).toNat] ++ (if bsh then [] else [(pb.extractLsb' 72 8).toNat]) ++
    (if scl then [(pb.extractLsb' 80 8).toNat, (pb.extractLsb' 88 8).toNat] else [])
def mxAcc (pb : BitVec 128) : Nat := (pb.extractLsb' 96 8).toNat

/-- The tiles of an operation that will write nothing more: the accumulator is READY and the reader counts of its
sources fall (R409, R412). -/
def freeMxTiles (s : State) (o : MxOp) : State :=
  match s.team? o.team with
  | none => s
  | some t =>
    let s := (mxSources o.pb).foldl (fun s i => s.addReaders t i false) s
    s.setTile t (mxAcc o.pb) (fun e => setTileState e 2)

/-- A promotion that will not land: its producer goes, and registers in quarantine for it are free. -/
def dropPromotion (s : State) (o : MxOp) : State :=
  match o.flight with
  | none => s
  | some f =>
    let s := s.mapWave o.wave (fun w => { w with flights := w.flights.filter (·.id != f) })
    s.mapQuad (o.core * 4 + o.quad) (fun q => { q with quar := q.quar.filter (·.prod != f) })

/-- Remove matrix operations, freeing their tiles. -/
def dropMxOps (s : State) (qn : Nat) (p : MxOp → Bool) : State :=
  let q := s.quad qn
  let s := (q.mx.ops.filter p).foldl (fun s o => dropPromotion (freeMxTiles s o) o) s
  s.mapQuad qn (fun q => { q with mx := { q.mx with ops := q.mx.ops.filter (fun o => !p o) } })

/-- Retire a wave and cancel its unformed rendezvous members (R63, R409). -/
def retireAndCancel (s : State) (u : Nat) : State :=
  match s.wave? u with
  | none => s
  | some w =>
    let s := retireWave s u
    dropMxOps s w.qn (fun o => o.wave == u && o.pb.getLsbD 47 && !o.formed)

/-- A wave retires when all its threads have exited and no parked sub-wave remains (R63). -/
def retireIfDone (s : State) (u : Nat) : State :=
  match s.wave? u with
  | none => s
  | some w =>
    if !w.retired && w.alive == 0 && w.parkq.isEmpty && !w.handling then retireAndCancel s u else s

/-- A team fails once (R220): the fault record goes to the launch when it is the first, NFAIL rises. -/
def recordFail (s : State) (t : Team) (r : FaultRec) : State :=
  if t.failed.isSome then s
  else
    let s := s.mapTeam t.uid (fun t => { t with failed := some r })
    s.mapLaunch t.lq t.lk (fun l =>
      { l with nfail := l.nfail + 1, first := (match l.first with | some x => some x | none => some r) })

/-- A team ends with a fault record (R179): its waves retire and nothing is saved. A kill also ends its
matrix operations and its reservations (R398). -/
def endTeam (s : State) (tu : Nat) (r : FaultRec) (kill : Bool) : State :=
  match s.team? tu with
  | none => s
  | some t =>
    let s := recordFail s t r
    let us := (s.waves.filter (·.team == tu)).map (·.uid)
    let s := us.foldl retireAndCancel s
    let s := if kill then
        t.cores.foldl (fun s c => (List.range 4).foldl (fun s q =>
          let s := dropMxOps s (c * 4 + q) (·.team == tu)
          s.mapQuad (c * 4 + q) (fun k => match k.mx.holder with
            | some (h, _) => if h == tu then { k with mx := { k.mx with holder := none } } else k
            | none => k)) s) s
      else s
    s.mapTeam tu (fun t => { t with phase := .ended, bars := [], bargArrived := [] })

/-- The fault record of a team's kill (R179, R450): bit 20, with bit 15 for an escalation. -/
def killRecord (t : Team) (esc : Bool) : FaultRec :=
  ⟨Cause.kill.word ||| (if esc then Cause.uncorr.word else 0), 0, 0, t.x, t.y, t.z⟩

/-! ## Taking an exception (R174, R175, R178, R179) -/

/-- The offset of the default handler of a wave's code object (R177). -/
def defaultHandler (s : State) (w : Wave) : Word :=
  match s.code? w.code with
  | some c => c.dh
  | none => 0

/-- Lanes leave normal issue as one sub-wave at the tail of the wave's FIFO (R174, R175): they leave
their join slots and their waits, and each keeps its own PC. -/
def parkLanes (w : Wave) (p : Parked) (tval : List (Nat × DWord)) : Wave :=
  let w := w.mapLanes p.lanes (fun i t =>
    { t with wait := .none, parkPc := t.pc, tval := (match tval.find? (·.1 == i) with | some x => x.2 | none => 0) })
  let w := w.leaveJoins p.lanes
  { w with parkq := w.parkq ++ [p] }

/-- PREEMPT may be taken now: no sub-wave runs in handler mode, none with a deferred cause is parked or is to be
parked, and the driver has answered every operand-log entry of the wave (R196). -/
def preemptFree (s : State) (w : Wave) : Bool :=
  w.preempt && !w.handling && !w.parkq.any (·.deferred) && w.defer.isEmpty &&
    !(s.quad w.qn).oplog.any (fun e => e.wave == w.uid && !e.delivered)

/-- Deliver the next parked sub-wave when none runs (R175, R178): %cause, ENTRY and %epc are set, SUBW
and RETM take the lanes, and each thread goes on in handler mode at %handler. At the default handler's
entry a cause other than PREEMPT ends the team (R179). While PREEMPT is being taken nothing is
delivered (R193). -/
def deliver (s : State) (u : Nat) : State :=
  match s.wave? u with
  | none => s
  | some w =>
    if preemptFree s w then s
    else match w.handling, w.parkq with
    | false, p :: ps =>
      let dh := defaultHandler s w
      let async := p.cause.getLsbD 13
      let at' := if async then dh else w.handler
      if at' = dh ∧ !async then
        match s.team? w.team with
        | none => s
        | some t =>
          let tv := (match lowest p.lanes with | some i => (w.thread i).tval | none => 0)
          endTeam s w.team ⟨p.cause, p.epc, tv, t.x, t.y, t.z⟩ false
      else
        s.mapWave u (fun w =>
          let w := { w with
            parkq := ps, handling := true, cause := p.cause, entry := p.cause, epc := p.epc, subw := p.lanes,
            retm := p.lanes }
          w.mapLanes p.lanes (fun _ t => { t with hpc := at', wait := .none }))
    | _, _ => s

/-- Causes that wait for %handler, grouped in the order of R182, each group as one sub-wave. -/
def groupTraps (ts : List Trap) : List (Cause × List Trap) :=
  let ins (c : Cause) (gs : List (Cause × List Trap)) : List (Cause × List Trap) :=
    gs ++ [(c, ts.filter (·.cause == c))]
  let causes := ts.foldl (fun (cs : List Cause) t => if cs.contains t.cause then cs else cs ++ [t.cause]) []
  let key (c : Cause) : Nat :=
    c.rank * 64 + (ts.filter (·.cause == c)).foldl (fun m t => min m t.pos) 63
  let sorted := causes.foldl (fun (acc : List Cause) c =>
    (acc.filter (fun d => key d ≤ key c)) ++ [c] ++ (acc.filter (fun d => !(key d ≤ key c)))) []
  sorted.foldl (fun gs c => ins c gs) []

/-! ## Transactions (R361 to R370) -/

/-- The transaction closes and the Kettle empties; threads at a TRY retry (R362, R369). -/
def Wave.closeTx (w : Wave) : Wave :=
  { w with
    kettle := Kettle.closed
    threads := w.threads.mapIdx (fun _ t =>
      { t with depth := 0, soft := t.soft.filter (fun n => n < 4096 || 16384 ≤ n),
               wait := if t.wait == .openTx then .none else t.wait }) }

/-- Put back register log entry number `k` in the lanes of A: the logged value, full whatever the logged full
bit (R369). A soft error of the log entry stays with the register. -/
def Wave.restoreReg (w : Wave) (a : Mask) (k : Nat) (e : LogReg) : Wave :=
  let w := w.mapLanes a (fun i t =>
    let bad := t.soft.contains (4096 + k)
    let t := t.setReg e.reg (e.vals.getD i 0)
    if bad then { t with soft := e.reg :: t.soft } else t)
  { w with tags := fset .bits w.tags e.reg e.tag }

/-- Abort codes of causes raised in a transaction (R189). -/
def abortCode : Cause → Nat
  | .page | .grow | .rights | .bounds | .align | .check | .uncorr => 0x06
  | .preempt => 0x07
  | _ => 0x08

/-- A Defer without the lanes of a mask; none where no lane is left. -/
def Defer.minus (m : Mask) (d : Defer) : Option Defer :=
  if d.lanes &&& ~~~ m == 0 then none else some { d with lanes := d.lanes &&& ~~~ m }

/-- Members that a deferred cause is due in, with the lowest abort code of those causes (R189). -/
def Wave.dueMembers (w : Wave) : Mask × Nat :=
  w.defer.foldl (fun x d =>
    if d.lanes &&& w.members == 0 then x else (x.1 ||| (d.lanes &&& w.members), min x.2 (abortCode d.cause))) (0, 255)

/-- Abort(A, code) of R369; in wave mode every member aborts. Lanes with an untaken conflict or deferred cause abort
in the same Abort, and %abort takes the lowest of the codes (R189). -/
def abortTx (w : Wave) (lanes : Mask) (code own : Nat) : Wave :=
  if !w.kettle.isOpen then w
  else
    let k := w.kettle
    let mem := w.members
    let hit := k.hit &&& mem
    let due := w.dueMembers
    let all := (lanes ||| hit ||| due.1) &&& mem
    let a := if k.whole then (if all == 0 then 0 else mem) else all
    if a == 0 then w
    else
      let code' := min (if hit != 0 then min 2 code else code) due.2
      let w := k.log.zipIdx.foldl (fun w e => w.restoreReg a e.2 e.1) w
      let w := w.mapLanes a (fun i t =>
        { t with p := (fget 1 k.cp i ||| 0x80), x := fget [] k.cx i, depth := 0, pc := k.apc, wait := .none
                 soft := t.soft.filter (· < 16384) ++ (fget [] k.csoft i).filter (· != pSoft 7) })
      let w := if k.whole then { w with w := k.cw, wsoft := k.cwsoft, fpstat := k.cfpstat, fpctl := k.cfpctl } else w
      let rest := mem &&& ~~~ a
      let w := { w with
        abort := BitVec.ofNat 32 (code' + (if code' = 1 then own * 256 else 0))
        defer := w.defer.filterMap (Defer.minus due.1)
        kettle := { w.kettle with
          buf := k.buf.filter (fun p => !a.getLsbD p.lane)
          reads := (k.reads.map (fun l => { l with mask := l.mask &&& ~~~ a, seen := l.seen &&& ~~~ a })).filter
            (fun l => l.mask != 0)
          hit := k.hit &&& ~~~ a } }
      if rest == 0 then w.closeTx else w

/-! ## Raising causes -/

/-- The waits that are swap triggers (R58). -/
def Wait.swaps : Wait → Bool
  | .regs _ | .partner .. | .waitc .. | .waitq .. | .waitl .. | .waitm .. | .xget _ | .bar .. | .barg _ | .tile _ => true
  | .none | .join _ | .commit | .openTx | .shoot _ | .reacquire | .logged => false

/-- A cause raised in handler mode (R180): recorded in %cause, or in REPEAT when it stands in ENTRY. -/
def Wave.recordCause (w : Wave) (c : Cause) : Wave :=
  if w.entry.getLsbD c.bit then { w with repeatB := w.repeatB ||| c.word }
  else { w with cause := w.cause ||| c.word }

/-- The threads of one issue take their causes: in handler mode they are recorded (R180); members
abort (R189); otherwise each cause parks its lanes, in the order of R182, and the next sub-wave is
delivered (R174, R175, R178). `next` gives %epc of an after cause. Lanes of a precise cause in
handler mode go on at the next word. -/
def takeTraps (s : State) (u : Nat) (pc : Word) (ts : List Trap) : State :=
  match s.wave? u with
  | none => s
  | some w =>
    let ts := oneEach ts
    match ts with
    | [] => s
    | t0 :: _ =>
      let lanes := maskOf (ts.map (·.lane))
      let isAfter (c : Cause) : Bool := c == .break || c == .fpx || c == .watch
      if w.inHandler t0.lane then
        let precise := maskOf ((ts.filter (fun t => !isAfter t.cause)).map (·.lane))
        s.mapWave u (fun w => (ts.foldl (fun w t => w.recordCause t.cause) w).setPc precise (fun _ => pcNext pc))
      else if w.members &&& lanes != 0 then
        let code := ts.foldl (fun m t => min m (abortCode t.cause)) 255
        retireIfDone (s.mapWave u (fun w => abortTx w lanes code 0)) u
      else
        let s := (groupTraps ts).foldl (fun s g =>
          s.mapWave u (fun w =>
            parkLanes w
              { lanes := maskOf (g.2.map (·.lane)), cause := g.1.word,
                epc := if isAfter g.1 then pcNext pc else pc, deferred := false, async := false, byPark := false }
              (g.2.map (fun t => (t.lane, t.tval))))) s
        deliver s u

/-- A deferred cause can be taken in some lane now; lanes that are parked already take it once they have left
handler mode (R187). -/
def Wave.takeable (w : Wave) (d : Defer) : Bool := d.lanes &&& ~~~ w.parkedMask != 0 || d.lanes == 0

/-- %tval of the lanes that are parked: FPX of a long-latency producer reports the flags raised in any of them (R97). -/
def Defer.tvals (d : Defer) (n : Mask) : List (Nat × DWord) :=
  let xs := d.tval.filter (fun x => n.getLsbD x.1)
  if d.cause = .fpx then xs.map (fun x => (x.1, xs.foldl (fun v y => v ||| y.2) 0)) else xs

/-- A deferred cause (R187, R188) or FPX of a long-latency producer (R97) parks its lanes at their next
instruction boundary; in handler mode it is recorded (R180), in a transaction it aborts (R189). Its lanes that are
parked already keep it. -/
def takeDefer (s : State) (u : Nat) (d : Defer) : State :=
  match s.wave? u with
  | none => s
  | some w =>
    let l := d.lanes &&& w.alive &&& ~~~ w.parkedMask
    let h := l &&& w.handlerMask
    let m := l &&& w.members &&& ~~~ h
    let n := l &&& ~~~ h &&& ~~~ m
    let s := s.mapWave u (fun w =>
      { w with defer := w.defer.erase d ++ (d.minus (~~~ w.parkedMask)).toList })
    let s := if h != 0 then s.mapWave u (fun w => w.recordCause d.cause) else s
    let s := if m != 0 then s.mapWave u (fun w => abortTx w m (abortCode d.cause) 0) else s
    if n != 0 then
      deliver (s.mapWave u (fun w =>
        parkLanes w ⟨n, d.cause.word, d.epc, !(d.cause == .fpx || d.cause == .watch), false, false⟩ (d.tvals n))) u
    else s

/-- Threads end as by EXIT (R63): they leave every join slot. -/
def exitLanes (w : Wave) (m : Mask) : Wave :=
  (w.mapLanes m (fun _ t => { t with exited := true, wait := .none, depth := 0 })).leaveJoins m

/-! ## Return from handler mode (R181) -/

/-- What a wave keeps when its save completes (R193, R194): place, exited threads, private memory. -/
def saveWave (s : State) (u : Nat) : State :=
  match s.wave? u with
  | none => s
  | some w =>
    let s := retireWave s u
    let s := s.mapTeam w.team (fun t => { t with saved := t.saved ++ [{ w with
      flights := [], sq := [], parkq := [], defer := [], handling := false, kettle := Kettle.closed }] })
    s.mapWave u (fun w => { w with freed := true })

/-- Threads of the sub-wave whose LPC the handler has changed; a restore sets LPC and changes none (R55, R194). -/
def movedLanes (w : Wave) : Mask :=
  if w.restore then 0
  else w.subw &&& maskOf ((List.range w.width).filter (fun i => (w.thread i).pc != (w.thread i).parkPc))

/-- Threads that a restore leaves exited: their LST has been set to 01 (R194). -/
def restoredExited (w : Wave) : Mask :=
  maskOf ((List.range w.width).filter (fun i => (w.thread i).lst == some 1))

/-- RTH (R181): threads that RETM excludes end, and those a restore leaves exited (R194); a completed save frees the wave; causes recorded in
handler mode are delivered back to back; otherwise the threads leave handler mode at LPC, and the next
parked sub-wave is delivered. Operand-log entries still held are reissued by the caller (R185). -/
def returnHandler (s : State) (u : Nat) : State :=
  match s.wave? u with
  | none => s
  | some w =>
    let ends := w.subw &&& ~~~ (w.retm &&& ~~~ restoredExited w)
    let s := s.mapWave u (fun w =>
      let w := exitLanes w ends
      { w with subw := w.subw &&& ~~~ ends })
    match s.wave? u with
    | none => s
    | some w1 =>
      if w.entry.getLsbD 13 && !w.restore then saveWave s u
      else
        let c := (w.cause &&& ~~~ w.entry) ||| w.repeatB
        if c ≠ 0 ∧ w1.subw ≠ 0 then
          if w.handler = defaultHandler s w1 then
            match s.team? w.team with
            | none => s
            | some t =>
              let tv := (match lowest w1.subw with | some i => (w1.thread i).tval | none => 0)
              endTeam s w.team ⟨c, w.epc, tv, t.x, t.y, t.z⟩ false
          else
            s.mapWave u (fun w =>
              let w := { w with cause := c, repeatB := 0, restore := false, entry := c, retm := w.subw }
              w.mapLanes w.subw (fun _ t => { t with hpc := w.handler }))
        else
          let s := s.mapWave u (fun w =>
            let w := w.leaveJoins (movedLanes w)
            let w := w.mapLanes w.subw (fun _ t => { t with wait := .none, lst := none })
            { w with cause := 0, repeatB := 0, restore := false, entry := 0, epc := 0, handling := false,
                     subw := 0, retm := 0 })
          retireIfDone (deliver s u) u

end Sys2Proof.Machine
end

