-- ==== Sys2Proof/Machine/Rows.lean ====
section
/-!
DEFINITION. The device's memory below addresses: the windows of the one memory, DRAM rows and what their granules are
encrypted under (R445, R453), the slice caches (R29, R30), the row activation counters (R441) and shut banks (R444).
-/
namespace Sys2Proof.Machine

/-! ## Windows of the one memory (log entry 3) -/

/-- Bytes of device memory (R28). -/
def deviceBytes : Nat := 576 * 2 ^ 30
/-- A byte of host memory, by bus address (R459). -/
def hostAddr (a : Nat) : Nat := 2 ^ 60 + a
/-- A byte of another device's memory, as this device names it: context and remote address (R460). -/
def peerAddr (dev ctx va : Nat) : Nat := 2 ^ 80 + (dev * 2 ^ 16 + ctx) * 2 ^ 52 + va
/-- A byte of a thread's private area: 4-byte words at equal offsets of the threads of a wave are
consecutive (R133). -/
def privAddr (priv width i off : Nat) : Nat :=
  2 ^ 100 + priv * 2 ^ 40 + ((off / 4) * width + i) * 4 + off % 4

/-- The generic address of a pool byte of a team's shares by its offset: path 2, with bit 31 for the accumulator share
(R103, R193). -/
def shareVa (acc : Bool) (off : Nat) : Nat := 2 * 2 ^ 60 + (if acc then 2 ^ 31 else 0) + off

/-- Whether a byte exists: the device window ends at 576 GiB. -/
def addrOk (a : Nat) : Bool := a < deviceBytes || 2 ^ 50 ≤ a

def rangeFrom (a n : Nat) : List Nat := (List.range n).map (a + ·)

def lineOf (a : Nat) : Nat := a / 64
def linesOf (ad : List Nat) : List Nat := (ad.map lineOf).eraseDups

/-- Set poison marks on bytes. -/
def markBytes (s : State) (ad : List Nat) (m : Mark) : State :=
  { s with poison := ad.foldl (fun p a => fset .clean p a m) s.poison }

/-- What serves an access of device memory: the slice, where a rule names one, and the key of its granules. -/
structure Home where
  slice : Option Nat
  key   : Seal

/-! ## Rows -/

/-- The DRAM row of a line: 1 KiB of the channel (R415, log entry 64). -/
def rowOf (line : Nat) : Nat := line / 16

/-- The row is live (R445). -/
def rowLive (s : State) (row : Nat) : Bool := (flook s.seals (16 * row)).isSome

/-- An activation of a row (R441). -/
def activate (s : State) (n row : Nat) : State :=
  s.mapSlice n (fun z => { z with acts := fput z.acts row (fget 0 z.acts row + 1) })

/-- Every granule of a row holds what a key encrypts: the zeros of a row that comes to life (R445). -/
def sealRow (s : State) (row : Nat) (k : Seal) : State :=
  { s with seals := (rangeFrom (16 * row) 16).foldl (fun m g => fput m g k) s.seals }

/-- A granule read under another key than it was written with fails its carry check and is lost (R449 to R451, R453,
log entry 65). -/
def checkSeal (s : State) (line : Nat) (k : Seal) : State :=
  match flook s.seals line with
  | some x => if x = k then s else markBytes s (rangeFrom (64 * line) 64) .check
  | none => s

/-! ## The slice caches -/

/-- The entry that gives way in an L1 or a slice cache: the one filled longest ago (log entry 63). -/
def oldest {β : Type} (at_ : β → Nat) (m : FMap β) : Option Nat :=
  (m.foldl (fun (b : Option (Nat × Nat)) e =>
    match b with | none => some (e.1, at_ e.2) | some x => if at_ e.2 < x.2 then some (e.1, at_ e.2) else some x) none).map (·.1)

/-- Lines of a slice cache: 512 KiB (R29). -/
def slcLines : Nat := 8192

/-- The slice whose cache holds a line (R30). -/
def holderOf (s : State) (line : Nat) : Option Nat :=
  (s.slices.find? (fun e => (flook e.2.cache line).isSome)).map (·.1)

/-- A line leaves a slice cache; a dirty one is written back under its key. -/
def evict (s : State) (n line : Nat) : State :=
  match flook (s.slice n).cache line with
  | none => s
  | some ln =>
    let s := if ln.dirty then activate { s with seals := fput s.seals line ln.key } n (rowOf line) else s
    s.mapSlice n (fun z => { z with cache := fdel z.cache line })

/-- The line that a full slice cache loses: a staged one stays until its parcel is NEW (R121). -/
def victim (z : Slice) : Option Nat := oldest (·.fillAt) (z.cache.filter (!·.2.staged))

/-- A line is read from its row into the slice cache; a full cache loses its oldest line. -/
def fillLine (s : State) (n line : Nat) (k : Seal) (write : Bool) : State :=
  let s := if (s.slice n).cache.length < slcLines then s
    else match victim (s.slice n) with | some x => evict s n x | none => s
  let s := checkSeal (activate s n (rowOf line)) line k
  s.mapSlice n (fun z => { z with cache := fput z.cache line ⟨write, k, s.now, false⟩ })

/-- An access to a line of device memory: a dead row is not opened to read it, and comes to life at the first write
(R445); a line that no cache holds is filled, and one that no slice caches is reached in its row. -/
def useLine (write : Bool) (h : Home) (s : State) (line : Nat) : State :=
  if !rowLive s (rowOf line) && !write then s
  else
    let s := if rowLive s (rowOf line) then s else sealRow s (rowOf line) h.key
    match holderOf s line, h.slice with
    | some n, _ =>
      if write then s.mapSlice n (fun z => { z with cache := fmod z.cache line (fun ln => { ln with dirty := true, key := h.key }) })
      else s
    | none, some n => fillLine s n line h.key write
    | none, none =>
      let s := checkSeal s line h.key
      if write then { s with seals := fput s.seals line h.key } else s

/-- An access to the lines of these bytes. -/
def useLines (s : State) (write : Bool) (h : Home) (ad : List Nat) : State :=
  (linesOf (ad.filter (· < deviceBytes))).foldl (useLine write h) s

/-- A read of a line from its row would find it under another key. -/
def sealDiffers (s : State) (h : Home) (line : Nat) : Bool :=
  (holderOf s line).isNone && (match flook s.seals line with | some x => x != h.key | none => false)

/-- A Steppe row is opened, never cached, and written back under its key, which makes a dead one live (R415, R445). -/
def openRow (s : State) (n row : Nat) (k : Seal) : State :=
  sealRow ((rangeFrom (16 * row) 16).foldl (fun s g => checkSeal s g k) (activate s n row)) row k

/-- Activations that raise an alert (R441). -/
def threshold : Nat := 1024

/-- The bank of a row opens none: a back-off window is open, or an alert is due. -/
def bankShut (s : State) (n row : Nat) : Bool :=
  let z := s.slice n
  z.windows.any (fun w => w.1 == Config.bankOf row) ||
    z.acts.any (fun e => threshold ≤ e.2 && Config.bankOf e.1 == Config.bankOf row)

/-- A dirty line that a test chooses waits for its bank, or for the end of self-refresh, to be written back (R444,
R446). -/
def writeBackShut (s : State) (p : Nat → Nat → Bool) : Bool :=
  s.slices.any (fun e => e.2.cache.any (fun x =>
    p e.1 x.1 && x.2.dirty && (e.2.selfRefresh || bankShut s e.1 (rowOf x.1))))

/-- A line that the slice's cache lacks cannot be filled now: its bank opens no row, or that of the dirty line which
must give way. -/
def fillShut (s : State) (n line : Nat) : Bool :=
  let z := s.slice n
  (holderOf s line).isNone &&
    (bankShut s n (rowOf line) ||
      (slcLines ≤ z.cache.length &&
        (match victim z with
         | some v => (match flook z.cache v with | some ln => ln.dirty | none => false) && bankShut s n (rowOf v)
         | none => false)))

end Sys2Proof.Machine
end

