-- ==== Sys2Proof/Machine/Access.lean ====
section
/-!
DEFINITION. Addresses: translation (R105, R106), the buffer table and
region descriptors (R107 to R111), parcels and orders (R113, R114), apertures (R438, R439), the checks
of a generic address, a scratchpad or private offset and a coordinate access, and reading and writing
a location.
-/
namespace Sys2Proof.Machine

/-- Little-endian number at a device address. -/
def devNat (s : State) (a n : Nat) : Nat := leNat (s.mem.readN a n)
/-- Write a little-endian number at a device address: a dead row comes to life (R445), and the bytes lose their poison
marks. A structure of the device is not encrypted, and no rule gives the slice that serves it (log entry 24). -/
def devWrite (s : State) (a n v : Nat) : State :=
  let s := markBytes (useLines s true ⟨none, none⟩ (rangeFrom a n)) (rangeFrom a n) .clean
  { s with mem := s.mem.writeN a (leBytes n v) }.touch (a + n ≤ deviceBytes) a

/-! ## Contexts and translation (R105, R106, R456) -/

/-- A context table entry. -/
def ctxEntry (s : State) (ctx : Nat) : BitVec 128 :=
  BitVec.ofNat 128 (devNat s (s.host.bases.ctx + 16 * ctx) 16)
def ctxComp (s : State) (ctx : Nat) : Nat := ((ctxEntry s ctx).extractLsb' 64 3).toNat
def ctxPriv (s : State) (ctx : Nat) : Bool := (ctxEntry s ctx).getLsbD 62 && (ctxEntry s ctx).getLsbD 63
def ctxRoot (s : State) (ctx : Nat) : Nat := ((ctxEntry s ctx).extractLsb' 0 48).toNat

/-- The levels of a walk: level number, lowest address bit indexed, index bits. -/
def walkLevels : List (Nat × Nat × Nat) := [(4, 45, 12), (3, 33, 12), (2, 29, 4), (1, 21, 8), (0, 16, 5)]

/-- How a walk ends. -/
inductive Walk where
  | leaf (lvl : Nat) (e : BitVec 128) (at_ : Nat)
  | page
  | absent (a : Nat)
deriving DecidableEq, Repr

def pteNat (e : BitVec 128) (lo n : Nat) : Nat := (e.extractLsb' lo n).toNat

/-- Reserved fields of a table entry are zero (R106). A NEXT that is not 4 KiB aligned counts as one (log entry
62). -/
def pteClean (e : BitVec 128) : Bool :=
  pteNat e 112 16 == 0 && !e.getLsbD 40 && pteNat e 0 20 == 0 &&
    (if e.getLsbD 60 then pteNat e 96 16 == 0
     else pteNat e 61 2 == 0 && pteNat e 41 19 == 0 && pteNat e 20 20 == 0 && pteNat e 64 12 == 0)

/-- The walk of R105 from a table address. -/
def walkFrom (s : State) (va : Nat) : List (Nat × Nat × Nat) → Nat → Walk
  | [], _ => .page
  | (lvl, lo, n) :: ls, tbl =>
    let a := tbl + 16 * (va / 2 ^ lo % 2 ^ n)
    if a + 16 > deviceBytes then .absent a
    else
      let e := BitVec.ofNat 128 (devNat s a 16)
      if !e.getLsbD 63 || !pteClean e then .page
      else if e.getLsbD 60 then
        if lvl = 4 ∨ pteNat e 61 2 ≠ lvl then .page else .leaf lvl e a
      else if lvl = 0 then .page
      else walkFrom s va ls (pteNat e 64 48)

def walk (s : State) (ctx va : Nat) : Walk := walkFrom s va walkLevels (ctxRoot s ctx)

/-- Bytes of a leaf's page (R32). -/
def pageSize : Nat → Nat
  | 0 => 2 ^ 16 | 1 => 2 ^ 21 | 2 => 2 ^ 29 | _ => 2 ^ 33

/-- The level at which the walk for an address ends. -/
def walkDepth (s : State) (va : Nat) : List (Nat × Nat × Nat) → Nat → Nat
  | [], _ => 0
  | (lvl, lo, n) :: ls, tbl =>
    let e := BitVec.ofNat 128 (devNat s (tbl + 16 * (va / 2 ^ lo % 2 ^ n)) 16)
    if !e.getLsbD 63 || !pteClean e || e.getLsbD 60 || lvl = 0 then lvl else walkDepth s va ls (pteNat e 64 48)

/-- The page, or the hole, that holds a virtual address: base and bytes (R391). -/
def pageAround (s : State) (ctx va : Nat) : Nat × Nat :=
  let n := pageSize (walkDepth s va walkLevels (ctxRoot s ctx))
  (va / n * n, n)

/-- A swizzle that R116 gives. -/
def swzOk (n : Nat) : Bool := n ≤ 4 || (8 ≤ n && n ≤ 12)

/-! ## Region descriptors (R107 to R109, R414) -/

abbrev Desc := BitVec 512

def dn (d : Desc) (lo n : Nat) : Nat := (d.extractLsb' lo n).toNat
def dClass (d : Desc) : Nat := dn d 62 2
def dRank (d : Desc) : Nat := dn d 56 3
def dExt (d : Desc) (k : Nat) : Nat := dn d (192 + 24 * k) 24
def dOrder (d : Desc) : Nat := dn d 368 8
def dPrior (d : Desc) : Nat := dn d 360 8
def dPin (d : Desc) : Bool := d.getLsbD 359
def dCont (d : Desc) : Bool := d.getLsbD 358
def dRcnt (d : Desc) : Nat := dn d 356 2
def dMvb (d : Desc) : Bool := d.getLsbD 355
def dAdvv (d : Desc) : Bool := d.getLsbD 354
def dAdvc (d : Desc) : Nat := dn d 346 8
def dMvp (d : Desc) : Nat := dn d 322 24
def dPhl (d : Desc) : Nat := dn d 380 4
def dPwl (d : Desc) : Nat := dn d 376 4
def dPbase (d : Desc) : Nat := dn d 128 48
def dSize (d : Desc) : Nat := dn d 64 48
def dValid (d : Desc) : Bool := d.getLsbD 61
def dFixo (d : Desc) : Bool := d.getLsbD 60
def dEnc (d : Desc) : Bool := d.getLsbD 59
def dFmt (d : Desc) : Nat := dn d 52 4
def dRights (d : Desc) : Nat := dn d 49 3
def dIlv (d : Desc) : Nat := dn d 46 3
def dKey (d : Desc) : Nat := dn d 36 10
def dHome (d : Desc) : Nat := dn d 27 9
def dComp (d : Desc) : Nat := dn d 24 3
def dShr (d : Desc) : Bool := d.getLsbD 23
def dCtx (d : Desc) : Nat := dn d 0 16
def dApn (d : Desc) : Nat := dn d 448 4
def dLap (d : Desc) : Nat := dn d 384 32
def dEcnt (d : Desc) : Nat := dn d 432 16

/-- Replace bits lo to lo + n − 1. -/
def dSet (d : Desc) (lo n v : Nat) : Desc :=
  (d &&& ~~~ (BitVec.ofNat 512 ((2 ^ n - 1) * 2 ^ lo))) ||| BitVec.ofNat 512 (v % 2 ^ n * 2 ^ lo)

def dEty (d : Desc) : Ety := (Ety.ofCode (BitVec.ofNat 4 (dFmt d))).getD .bits
def dEs (d : Desc) : Nat := (dEty d).esize
def dPh (d : Desc) : Nat := 2 ^ dPhl d
def dPw (d : Desc) : Nat := 2 ^ dPwl d
/-- Bytes of a parcel (R113). -/
def dPb (d : Desc) : Nat := dPh d * dPw d * dEs d
def ceilDiv (a b : Nat) : Nat := (a + b - 1) / b

/-- Counts of parcels by dimension: outer extents, then rows and columns of parcels (R113). -/
def parcelDims (d : Desc) : List Nat :=
  (List.range (dRank d)).map (fun k =>
    if k + 1 = dRank d then ceilDiv (dExt d k) (dPw d)
    else if k + 2 = dRank d then ceilDiv (dExt d k) (dPh d)
    else dExt d k)
def parcelCount (d : Desc) : Nat := (parcelDims d).foldl (· * ·) 1

/-- A valid order code (R114). -/
def orderOk (d : Desc) (o : Nat) : Bool := o % 2 == 0 && o / 16 % 8 ≤ dPhl d && o / 2 % 8 ≤ dPwl d

/-- The conditions of R109 and R414 on the descriptor alone. R109's reserved fields and parcel sizes are taken to
reach APN outside class view, PHL or PWL above 12 and a PHL other than 0 at rank 1; a HOME above 383, a SIZE that is
no multiple of 64 KiB and a PBASE that is not aligned to it are not in its list and are accepted (log entry 61). -/
def descOk (d : Desc) : Bool :=
  let tiled := dClass d == 1 || dClass d == 2
  dn d 452 60 == 0 && dn d 416 16 == 0 && dn d 312 10 == 0 && dn d 176 16 == 0 && dn d 112 16 == 0 &&
    dn d 16 7 == 0 && (dClass d == 3 || dApn d == 0) &&
    (if tiled then 1 ≤ dRank d && dRank d ≤ 5 else dRank d == 0) && dFmt d != 15 &&
    (List.range 5).all (fun k => if k < dRank d then dExt d k != 0 else dExt d k == 0) &&
    dIlv d < 4 &&
    (!tiled || (dPhl d ≤ 12 && dPwl d ≤ 12 && (dRank d != 1 || dPhl d == 0) &&
      1024 ≤ dPb d && dPb d ≤ 2 ^ 18 && parcelCount d * dPb d ≤ dSize d)) &&
    orderOk d (dOrder d) && (dClass d != 2 || dFmt d == 0 || dFmt d == 2 || dFmt d == 4)

/-- Base and length of a compartment's buffer table (R107). -/
def bufTable (s : State) (comp : Nat) : Nat × Nat := fget (0, 0) s.host.bases.buf comp
def descAddr (s : State) (comp idx : Nat) : Nat := (bufTable s comp).1 + 64 * idx
def descOf (s : State) (comp idx : Nat) : Desc := BitVec.ofNat 512 (devNat s (descAddr s comp idx) 64)
/-- Write the fields that the device keeps in a descriptor (R108). -/
def putDesc (s : State) (comp idx : Nat) (d : Desc) : State := devWrite s (descAddr s comp idx) 64 d.toNat

/-- A valid descriptor (first row of R107). -/
def validDesc (s : State) (comp idx : Nat) : Option Desc :=
  let d := descOf s comp idx
  if idx < (bufTable s comp).2 && dValid d && !(s.region comp idx).refused && descOk d then some d else none

/-- The owning context or the sharing rule admits the requester (R107, R108). -/
def ctxAdmits (s : State) (ctx : Nat) (d : Desc) : Bool :=
  dCtx d == ctx || (dShr d && dComp d == ctxComp s ctx)

/-- The rows of R107 that locate a valid descriptor. -/
def locate (s : State) (ctx idx : Nat) : Option Desc :=
  match validDesc s (ctxComp s ctx) idx with
  | some d => if ctxAdmits s ctx d then some d else none
  | none => none

/-- The key row: a loaded slot bound to the descriptor's compartment (R452). -/
def keyOk (s : State) (d : Desc) : Bool :=
  !dEnc d || (match flook s.host.keys (dKey d) with | some k => k.comp == dComp d | none => false)

/-- The rights bit of an access: read 4, write 2, atomic 1. -/
def Want.bit : Want → Nat
  | .read => 4 | .write => 2 | .atomic => 1

def hasRight (r : Nat) (w : Want) : Bool := r / w.bit % 2 == 1

/-! ## Parcels and elements (R113, R114, R119) -/

/-- Row-major number over extents. -/
def rowMajor : List Nat → List Nat → Nat
  | _ :: es, c :: cs => c * es.foldl (· * ·) 1 + rowMajor es cs
  | _, _ => 0

/-- Parcel number, and row and column in the parcel, of coordinates (R113). -/
def parcelOf (d : Desc) (co : List Nat) : Nat × Nat × Nat :=
  let r := dRank d
  let x := co.getD (r - 1) 0
  let y := if r = 1 then 0 else co.getD (r - 2) 0
  let pc := (List.range r).map (fun k =>
    if k + 1 = r then x / dPw d else if k + 2 = r then y / dPh d else co.getD k 0)
  (rowMajor (parcelDims d) pc, y % dPh d, x % dPw d)

/-- Byte offset in a parcel of the element at row y, column x under an order code (R114). -/
def orderOff (d : Desc) (o y x : Nat) : Nat :=
  let mh := 2 ^ (o / 16 % 8)
  let mw := 2 ^ (o / 2 % 8)
  let ty := y / mh; let iy := y % mh; let tx := x / mw; let ix := x % mw
  let (t, i) :=
    if o / 128 % 2 = 0 then (ty * (dPw d / mw) + tx, iy * mw + ix)
    else (tx * (dPh d / mh) + ty, ix * mh + iy)
  (t * mh * mw + i) * dEs d

/-- The order a parcel's elements have now (R119). -/
def orderNow (d : Desc) (p : Nat) : Nat := if dMvb d && dMvp d ≤ p then dPrior d else dOrder d

/-- The byte address of an element. -/
def elemAddr (d : Desc) (co : List Nat) : Nat :=
  let (p, y, x) := parcelOf d co
  dPbase d + p * dPb d + orderOff d (orderNow d p) y x

/-- The element's number in its parcel. -/
def elemNum (d : Desc) (y x : Nat) : Nat := y * dPw d + x

/-- Is the element's parcel MOVING (R119). -/
def isMoving (s : State) (comp idx : Nat) (d : Desc) (p : Nat) : Bool :=
  dMvb d && dMvp d == p && (s.region comp idx).moving

/-- The descriptor that governs a region's elements: the table's, or the one kept while it closes. -/
def regionDesc (s : State) (comp idx : Nat) : Desc :=
  match (s.region comp idx).old with
  | some d => d
  | none => descOf s comp idx

/-- Coordinates with the innermost one raised by j. -/
def coPlus (co : List Nat) (j : Nat) : List Nat := co.set (co.length - 1) (co.getD (co.length - 1) 0 + j)

/-! ## Slices (R115) -/

/-- The slice set of an interleave (R115). -/
def sliceSet (d : Desc) : List Nat :=
  match dIlv d with
  | 0 => List.range 384
  | 1 => (List.range 192).map (· + dHome d / 192 * 192)
  | 2 => (List.range 32).map (· + dHome d / 32 * 32)
  | _ => [dHome d]
/-- The slice of granule g of a tiled or Steppe region. -/
def granuleSlice (d : Desc) (g : Nat) : Nat :=
  let ss := sliceSet d
  let h := ss.findIdx (· == dHome d)
  ss.getD ((h + g) % ss.length) 0
/-- Granule of an element of a region. -/
def elemGranule (d : Desc) (co : List Nat) : Nat := (elemAddr d co - dPbase d) / 1024
/-- Granules of a Steppe region's image (R414). -/
def granules (d : Desc) : Nat := parcelCount d * dPb d / 1024
/-- The granules of a region that a slice holds, in ascending order. -/
def sliceRows (d : Desc) (n : Nat) : List Nat := (List.range (granules d)).filter (fun g => granuleSlice d g == n)
/-- The slices that hold rows of a region. -/
def regionSlices (d : Desc) : List Nat := (sliceSet d).filter (fun n => (sliceRows d n).length != 0)

/-! ## Results of checks -/

/-- The result of the checks of an access. `pos` is the position of the failed check in the order of
R104, R105, R107, R134 (R182). -/
inductive Chk where
  | ok (l : Loc)
  | trap (c : Cause) (tval : Nat) (pos : Nat)
  /-- PAGE: goes to the operand log with this path and address (R184) -/
  | page (path addr : Nat)
  | grow (off : Nat)
  | absent (a : Nat)
deriving DecidableEq, Repr

/-! ## Scratchpad shares (R14, R24, R213) -/

def Team.rf (t : Team) : Nat := (t.desc.part.extractLsb' 0 8).toNat
def Team.sp (t : Team) : Nat := (t.desc.part.extractLsb' 8 8).toNat
def Team.spTotal (t : Team) : Nat := if t.saddle then 2 * t.spSize else t.spSize
def Team.asTotal (t : Team) : Nat := if t.saddle then 2 * t.asSize else t.asSize
/-- The pool byte of a scratchpad share offset. -/
def Team.spAddr (t : Team) (o : Nat) : Nat :=
  let h := if o < t.spSize then 0 else 1
  poolAddr (t.core + h) (t.rf * 16384 + t.spBase.getD h 0 + (o - h * t.spSize))
/-- The pool byte of an accumulator share offset. -/
def Team.asAddr (t : Team) (o : Nat) : Nat :=
  let h := if o < t.asSize then 0 else 1
  poolAddr (t.core + h) ((t.rf + t.sp) * 16384 + t.asBase.getD h 0 + (o - h * t.asSize))

/-- A path 2 access at a share offset; in handler mode bit 31 selects the accumulator share (R193). -/
def checkShare (t : Team) (hm : Bool) (o size tval : Nat) : Chk :=
  if hm && o ≥ 2 ^ 31 then
    let o' := o - 2 ^ 31
    if o' + size > t.asTotal then .trap .bounds tval 4
    else .ok (.bytes ((List.range size).map (fun k => t.asAddr (o' + k))) .plain)
  else if o + size > t.spTotal then .trap .bounds tval 4
  else .ok (.bytes ((List.range size).map (fun k => t.spAddr (o + k))) .plain)

/-! ## Apertures (R438, R439) -/

def apWord (s : State) (die n w : Nat) : DWord := fget 0 s.apertures (die * 64 + n * 4 + w)
def dwn (w : DWord) (lo n : Nat) : Nat := (w.extractLsb' lo n).toNat

/-- The exact pairs of the widening aperture (R438). -/
def widenPair (s d : Ety) : Bool :=
  if d == .f32 then s == .f16 || s == .bf16 || s == .e4m3 || s == .e5m2 || s == .ts8 || s == .f32
  else d == .s32 && (s == .s8 || s == .s16 || s == .s32)

/-- Bytes of the buffer that a view of LEN bytes reaches, counted from BOFF. -/
def viewSpan (xf len es slot rlog : Nat) : Nat :=
  match xf with
  | 3 => len / 4 * es
  | 4 => ceilDiv len (2 ^ rlog) * slot * 64
  | _ => len

/-- The descriptor of a set aperture (R438), with its words; none when it counts as not set. SFMT gives an element size
to a transposing view alone, which the reserved code 0xF has none of (log entry 79). -/
def apSet (s : State) (ctx die n : Nat) : Option Desc :=
  let w0 := apWord s die n 0; let w1 := apWord s die n 1
  let w2 := apWord s die n 2; let w3 := apWord s die n 3
  let xf := dwn w0 60 3
  let sc := BitVec.ofNat 4 (dwn w0 56 4)
  let sf := (Ety.ofCode sc).getD .bits
  let df := Ety.ofCode (BitVec.ofNat 4 (dwn w0 52 4))
  let slot := dwn w1 48 16; let boff := dwn w1 0 48
  let rlog := dwn w2 48 4; let len := dwn w2 0 48
  let rr := dwn w3 24 24; let cc := dwn w3 0 24
  let es := sf.esize
  let widens := match df with | some df => (Ety.ofCode sc).isSome && widenPair sf df | none => false
  let fieldsOk :=
    w0.getLsbD 63 && xf < 5 && (xf == 3 || dwn w0 52 4 == 0) &&
      (if xf == 4 then slot != 0 && 10 ≤ rlog && rlog ≤ 15 else slot == 0 && rlog == 0) &&
      (if xf == 1 then (Ety.ofCode sc).isSome && len == rr * cc * es else rr == 0 && cc == 0) &&
      (xf != 2 || sf == .c64) && (xf != 3 || (len % 4 == 0 && widens))
  match validDesc s (ctxComp s ctx) (dwn w0 32 20) with
  | some d =>
    if fieldsOk && (dClass d == 0 || (dClass d == 3 && dApn d == n)) &&
        boff + viewSpan xf len es slot rlog ≤ dSize d then some d else none
  | none => none

/-- Where a view access reaches (R439, R440). -/
def viewLoc (s : State) (die n o size : Nat) (d : Desc) : Loc :=
  let w0 := apWord s die n 0; let w1 := apWord s die n 1
  let w2 := apWord s die n 2; let w3 := apWord s die n 3
  let sf := (Ety.ofCode (BitVec.ofNat 4 (dwn w0 56 4))).getD .bits
  let df := (Ety.ofCode (BitVec.ofNat 4 (dwn w0 52 4))).getD .bits
  let es := sf.esize
  let base := dPbase d + dwn w1 0 48
  match dwn w0 60 3 with
  | 1 =>
    let rr := dwn w3 24 24; let cc := dwn w3 0 24
    .bytes ((List.range size).map (fun k =>
      let v := o + k
      base + (v / es % rr * cc + v / es / rr) * es + v % es)) .plain
  | 2 => .bytes (rangeFrom (base + o) size)
      (.flip ((List.range size).map (fun k => if (o + k) % 16 = 15 then 0x80 else 0)))
  | 3 =>
    let e0 := o / 4
    let e1 := (o + size - 1) / 4
    .bytes (rangeFrom (base + e0 * es) ((e1 - e0 + 1) * es)) (.widen sf df (o % 4))
  | 4 =>
    let rlog := dwn w2 48 4; let slot := dwn w1 48 16; let len := dwn w2 0 48
    let b := o / 2 ^ rlog
    .infuse ⟨base + b * slot * 64, slot * 64, min (2 ^ rlog) (len - b * 2 ^ rlog), o % 2 ^ rlog⟩
  | _ => .bytes (rangeFrom (base + o) size) .plain

/-- The aperture's transform admits the operation (R439). -/
def viewAdmits (s : State) (die n : Nat) (w : Want) : Bool :=
  w == .read || (w == .write && dwn (apWord s die n 0) 60 3 ≤ 2)

/-! ## The checks of a linear access after translation (R107) -/

/-- Rows of R107 from the validity row on, for a leaf: key, class, rights, ownership, size. Host memory is not encrypted
(R459): on path 6 a key fails the key row (log entry 80). -/
def checkLeaf (s : State) (ctx path addr va lvl size : Nat) (want : Want) (e : BitVec 128) : Chk :=
  let comp := ctxComp s ctx
  match validDesc s comp (pteNat e 20 20) with
  | none => .trap .rights addr 10
  | some d =>
    let off := pteNat e 64 32 * 65536 + va % pageSize lvl
    if !ctxAdmits s ctx d then .trap .rights addr 11
    else if pteNat e 41 10 != dKey d || !keyOk s d || (path == 6 && (dEnc d || dKey d != 0)) then .trap .rights addr 12
    else if dClass d != 0 then .trap .rights addr 13
    else if !(hasRight (pteNat e 55 3) want && hasRight (dRights d) want) then .trap .rights addr 14
    else if path == 6 && !e.getLsbD 59 then .page path va
    else if off + size > dSize d then .trap .bounds addr 16
    else
      let a := dPbase d + off
      if path == 6 then .ok (.bytes (rangeFrom (hostAddr a) size) .plain)
      else if a + size > deviceBytes then .absent a
      else .ok (.bytes (rangeFrom a size) .plain)

/-- Translation and the memory port's checks on paths 0, 4 and 6. `addr` is what %tval holds, `va` the
57-bit virtual address. -/
def checkVirtual (s : State) (ctx path addr va size : Nat) (want : Want) : Chk :=
  match walk s ctx va with
  | .absent a => .absent a
  | .page => .page path va
  | .leaf lvl e _ =>
    if path != 6 && !swzOk (pteNat e 51 4) then .page path va
    else checkLeaf s ctx path addr va lvl size want e

/-- What issues an access: the context, the die, the team of a wave, handler mode. -/
structure Who where
  ctx  : Nat
  die  : Nat
  team : Option Team
  hm   : Bool

/-- The address as which an access is served: path 7 with the own device id is path 0 (R104). -/
def servedAs (s : State) (addr : Nat) : Nat :=
  if addr / 2 ^ 60 = 7 ∧ addr / 2 ^ 52 % 64 = s.devId then addr % 2 ^ 52 else addr

/-- The checks of a generic address in the order of R104, then R105 and R107 (R103, R182). `rs` marks a
remote add. -/
def checkGeneric (s : State) (w : Who) (addr size : Nat) (want : Want) (rs : Bool) : Chk :=
  let path := addr / 2 ^ 60
  let bad :=
    match path with
    | 0 | 4 | 6 => addr / 2 ^ 57 % 8 != 0
    | 2 => addr / 2 ^ 32 % 2 ^ 28 != 0
    | 3 => addr / 2 ^ 36 % 2 ^ 24 != 0
    | 5 => addr / 2 ^ 52 % 2 ^ 8 != 0
    | 7 => addr / 2 ^ 58 % 4 != 0
    | _ => true
  let va := addr % 2 ^ 57
  if bad then .trap .bounds addr 1
  else if addr % size != 0 then .trap .align addr 2
  else if rs && path != 2 && path != 3 then .trap .rights addr 3
  else
    match path with
    | 2 =>
      match w.team with
      | some t => checkShare t w.hm (addr % 2 ^ 32) size addr
      | none => .trap .rights addr 3
    | 3 =>
      if want == .atomic && !rs then .trap .rights addr 3
      else
        match w.team with
        | none => .trap .rights addr 3
        | some t =>
          let o := addr % 2 ^ 32
          let g := addr / 2 ^ 32 % 16
          if o + size > t.spTotal then .trap .bounds addr 4
          else if g ≥ t.desc.gang then .trap .bounds addr 4
          else
            match s.teams.find? (fun p => p.lq == t.lq && p.lk == t.lk && p.n + t.gang == t.n + g && p.gang == g) with
            | some p =>
              if p.phase == .ended || (s.waves.filter (·.team == p.uid)).all (·.retired) then .trap .bounds addr 4
              else .ok (.bytes ((List.range size).map (fun k => p.spAddr (o + k))) .plain)
            | none => .trap .bounds addr 4
    | 4 => if want == .read then checkVirtual s w.ctx 4 addr va size want else .trap .rights addr 3
    | 5 =>
      if want == .atomic then .trap .rights addr 3
      else
        let n := addr / 2 ^ 48 % 16
        let o := addr % 2 ^ 48
        match apSet s w.ctx w.die n with
        | none => .trap .bounds addr 5
        | some d =>
          if !viewAdmits s w.die n want then .trap .rights addr 6
          else if o + size > dwn (apWord s w.die n 2) 0 48 then .trap .bounds addr 7
          else if !ctxAdmits s w.ctx d then .trap .rights addr 11
          else if !keyOk s d then .trap .rights addr 12
          else if !hasRight (dRights d) want then .trap .rights addr 14
          else
            let l := viewLoc s w.die n o size d
            let hi := (match l with | .bytes ad _ => ad.foldl max 0 | .infuse b => b.hdr + b.slot | _ => 0)
            if hi ≥ deviceBytes then .absent hi else .ok l
    | 7 =>
      let dev := addr / 2 ^ 52 % 64
      let rva := addr % 2 ^ 52
      if dev = s.devId then checkVirtual s w.ctx 0 addr rva size want
      else if !s.domain.contains dev || s.fenced.contains dev then .trap .bounds addr 8
      else if s.refused.contains (dev, w.ctx, rva / 65536) then .page 7 addr
      else .ok (.bytes (rangeFrom (peerAddr dev w.ctx rva) size) .plain)
    | _ => checkVirtual s w.ctx path addr va size want

/-- LDS, STS and ATOMS (R331). -/
def checkScratch (w : Who) (o : Int) (size : Nat) : Chk :=
  if o < 0 || o ≥ 2 ^ 32 then .trap .bounds (o % 2 ^ 64).toNat 1
  else
    match w.team with
    | none => .trap .rights 0 3
    | some t =>
      let n := o.toNat
      if n % size != 0 then .trap .align (2 * 2 ^ 60 + n) 2 else checkShare t w.hm n size (2 * 2 ^ 60 + n)

/-- LDP and STP (R133, R134, R332). -/
def checkPrivate (hwm limit priv width i : Nat) (o : Int) (size : Nat) : Chk :=
  if o < 0 then .trap .bounds (o % 2 ^ 64).toNat 1
  else
    let n := o.toNat
    if n % size != 0 then .trap .align n 2
    else if n + size > limit then .trap .bounds n 17
    else if n + size > hwm then .grow n
    else .ok (.bytes ((List.range size).map (fun k => privAddr priv width i (n + k))) .plain)

/-! ## Coordinate accesses (R111, R112, R340) -/

/-- The parts of a region handle (R111). -/
def hIdx (h : Word) : Nat := (h.extractLsb' 0 20).toNat
def hRights (h : Word) : Nat := (h.extractLsb' 29 3).toNat
def hZero (h : Word) : Bool := h.extractLsb' 20 9 == 0

/-- The descriptor that a handle locates (R112). -/
def handleDesc (s : State) (ctx : Nat) (h : Word) : Option Desc :=
  if hZero h then locate s ctx (hIdx h) else none

/-- %tval of a failed coordinate (R112). -/
def coTval (k : Nat) (c : Word) : Nat := k * 2 ^ 61 + c.toNat

/-- The first coordinate outside its extent, with its dimension; m elements run along the innermost. -/
def coBad (d : Desc) (m : Nat) (cs : List Word) : Nat → Option Nat
  | k =>
    match cs with
    | [] => none
    | c :: rest =>
      let last := rest.isEmpty
      if c.toInt < 0 || c.toNat ≥ dExt d k || (last && c.toNat + m - 1 ≥ dExt d k) then some (coTval k c)
      else coBad d m rest (k + 1)

/-- The checks of a coordinate access after its region's format (R107, R110, R112, R340 to R343).
`classOk` says which classes admit the access. -/
def checkCoord (s : State) (ctx : Nat) (h : Word) (d : Desc) (cs : List Word) (m : Nat) (want : Want)
    (classOk : Nat → Bool) : Chk :=
  if !keyOk s d then .trap .rights h.toNat 12
  else if !classOk (dClass d) then .trap .rights h.toNat 13
  else if !(hasRight (hRights h) want && hasRight (dRights d) want) then .trap .rights h.toNat 14
  else
    let x := cs.getD (cs.length - 1) 0
    if x.toNat % m != 0 then .trap .align (coTval (cs.length - 1) x) 16
    else
      match coBad d m cs 0 with
      | some tv => .trap .bounds tv 17
      | none => .ok (.elem (ctxComp s ctx) (hIdx h) (cs.map (·.toNat)) m (dEs d))

/-! ## Reading and writing a location -/

/-- The byte addresses a location names now: for an element of a MOVING parcel its granule under the
prior order. -/
def Loc.addrs (s : State) : Loc → List Nat
  | .bytes ad _ => ad
  | .elem comp idx co m es =>
    let d := regionDesc s comp idx
    ((List.range m).map (fun j => rangeFrom (elemAddr d (coPlus co j)) es)).flatten
  | .infuse b => rangeFrom b.hdr b.slot
  | _ => []

/-- Bytes of one element of a region (R120), and whether it is poisoned. -/
def readElem (s : State) (comp idx : Nat) (co : List Nat) (es : Nat) : List Byte × Bool :=
  let d := regionDesc s comp idx
  let (p, y, x) := parcelOf d co
  let r := s.region comp idx
  if isMoving s comp idx d p then
    (fget (List.replicate es 0) r.staged (elemNum d y x), fget .clean r.poisoned (elemNum d y x) != .clean)
  else
    let a := elemAddr d co
    (s.mem.readN a es, (rangeFrom a es).any (fun b => fget .clean s.poison b != .clean))

/-- Apply a view's transform to source bytes, for an access of `size` bytes (R439): widening between
equal types leaves the bits as they are. -/
def Post.apply (size : Nat) (bs : List Byte) : Post → List Byte
  | .plain => bs
  | .flip m => (bs.zip m).map (fun p => p.1 ^^^ p.2)
  | .widen s d skip =>
    let conv (i : Nat) : List Byte :=
      let e := (bs.drop (i * s.esize)).take s.esize
      if s == d then e else leBytes 4 (convert s d .rn false false (leNat e)).1
    ((((List.range (bs.length / s.esize)).map conv).flatten).drop skip).take size

/-- A byte of these bytes' granules carries a poison mark: a linear granule stays poisoned until all of
it is written (R450). -/
def anyPoison (s : State) (ad : List Nat) : Bool :=
  let gs := (ad.map (· / 64)).eraseDups
  s.poison.any (fun e => gs.contains (e.1 / 64))

/-- The cause that a poisoned location raises (R450). -/
def poisonCause (s : State) (ad : List Nat) : Cause :=
  let gs := (ad.map (· / 64)).eraseDups
  if s.poison.any (fun e => gs.contains (e.1 / 64) && e.2 == .uncorr) then .uncorr else .check

/-- The cause that a poisoned location raises; an element of a MOVING parcel carries its own mark (R121). -/
def lostCause (s : State) (l : Loc) : Cause :=
  match l with
  | .elem comp idx co m _ =>
    let d := regionDesc s comp idx
    let mark (j : Nat) : Mark :=
      let (p, y, x) := parcelOf d (coPlus co j)
      if isMoving s comp idx d p then fget .clean (s.region comp idx).poisoned (elemNum d y x) else .clean
    let staged := (List.range m).map mark
    let settled := (List.range m).filter (fun j => !isMoving s comp idx d (parcelOf d (coPlus co j)).1)
    let bytes := (settled.map (fun j => rangeFrom (elemAddr d (coPlus co j)) (dEs d))).flatten
    if staged.contains .uncorr || bytes.any (fun a => fget .clean s.poison a == .uncorr) then .uncorr else .check
  | _ => poisonCause s (l.addrs s)

/-- The value of a location at its point of performance, and whether it is poisoned (R120, R121,
R450). Infuser blocks are read by INFUSER_DECODE. -/
def readLoc (s : State) (l : Loc) (size : Nat) : List Byte × Bool :=
  match l with
  | .bytes ad post => (post.apply size (ad.map s.mem.read), anyPoison s ad)
  | .elem comp idx co m es =>
    let xs := (List.range m).map (fun j => readElem s comp idx (coPlus co j) es)
    ((xs.map (·.1)).flatten, xs.any (·.2))
  | _ => (List.replicate size 0, false)

/-- Write bytes at addresses; a written byte loses its poison mark, and a byte outside device memory
that the window lacks is marked. -/
def writeAddrs (s : State) : List Nat → List Byte → State
  | a :: as, b :: bs =>
    writeAddrs ({ s with mem := s.mem.write a b, poison := fset .clean s.poison a .clean }.touch (addrOk a) a) as bs
  | _, _ => s

/-- What a byte holds after software writes `b` to it (R8): in a queue control block with EN = 1, HEAD, TAIL and SEQ
keep their values and ERR loses the bits written as 1 (R201); in an engine's state block with EN = 1, SEQ, TAIL, HEAD
and DONE keep theirs and ERR loses the bits written as 1 (R427). -/
def softByte (s : State) (a : Nat) (b : Byte) : Byte :=
  let old := s.mem.read a
  let q := s.host.bases.qcb
  let e := s.host.bases.eng
  let oq := (a - q) % 64
  let oe := (a - e) % 64
  if q ≤ a && a < q + 4096 && (s.mem.read (a - oq + 39)).getLsbD 7 then
    if 8 ≤ oq && oq < 32 then old else if 40 ≤ oq && oq < 44 then old &&& ~~~ b else b
  else if e ≤ a && a < e + 4096 && (s.mem.read (a - oe + 37)).getLsbD 7 then
    if 40 ≤ oe then old
    else if oe = 37 then (b &&& 0xBF) ||| (old &&& 0x40)
    else if oe = 32 then (old &&& ~~~ b &&& 3) ||| (b &&& 0xFC)
    else b
  else b

/-- Software's write of bytes. -/
def softWrite (s : State) (ad : List Nat) (bs : List Byte) : State :=
  writeAddrs s ad ((ad.zip bs).map (fun p => softByte s p.1 p.2))

/-- Write one element of a region (R120): while its parcel moves, on the staged value, and where the
new location has been written out, there as well. -/
def writeElem (s : State) (comp idx : Nat) (co : List Nat) (bs : List Byte) : State :=
  let d := regionDesc s comp idx
  let (p, y, x) := parcelOf d co
  let n := elemNum d y x
  if isMoving s comp idx d p then
    let s := s.mapRegion comp idx (fun r =>
      { r with staged := fput r.staged n bs, poisoned := fset .clean r.poisoned n .clean })
    if (s.region comp idx).written.contains n then
      softWrite s (rangeFrom (dPbase d + p * dPb d + orderOff d (dOrder d) y x) bs.length) bs
    else s
  else softWrite s (rangeFrom (elemAddr d co) bs.length) bs

/-- Cut a list in pieces of n. -/
def chunks (n : Nat) : Nat → List Byte → List (List Byte)
  | 0, _ => []
  | k + 1, bs => bs.take n :: chunks n k (bs.drop n)

/-- Write a location (R120, R439). -/
def writeLoc (s : State) (l : Loc) (bs : List Byte) : State :=
  match l with
  | .bytes ad (.flip m) => softWrite s ad ((bs.zip m).map (fun p => p.1 ^^^ p.2))
  | .bytes ad _ => softWrite s ad bs
  | .elem comp idx co m es =>
    ((chunks es m bs).zipIdx).foldl (fun s p => writeElem s comp idx (coPlus co p.2) p.1) s
  | _ => s

end Sys2Proof.Machine
end

