-- ==== Sys2Proof/Machine/Channel.lean ====
section
/-!
DEFINITION. From an access to its DRAM rows: the slice and the key of each line it meets (R115, R116, R452, R453), the
waiting for a slice or bank that is shut (R444, R446), and requests that leave for another device (R460).
-/
namespace Sys2Proof.Machine

/-! ## The home of an access -/

/-- The slice of a byte of a linear buffer (R116): the leaf's SWZ and the offset in the buffer. The spreads over one
die and one stack begin at HOME's own place too, which the rule says of those over all slices alone (DEDUCED, log
entry 94). -/
def swzSlice (d : Desc) (swz off : Nat) : Nat :=
  let g := off / (if swz % 8 = 4 then 4096 else 1024)
  let g := if 8 ≤ swz then g ^^^ (off / 2 ^ 20 % 256) else g
  let ss := sliceSet (dSet d 46 3 (if swz % 8 = 4 then 0 else swz % 8))
  ss.getD ((ss.findIdx (· == dHome d) + g) % ss.length) 0

/-- What a descriptor's granules are encrypted under (R452). -/
def sealOf (s : State) (d : Desc) : Seal :=
  if dEnc d then (flook s.host.keys (dKey d)).map (·.key) else none

/-- The descriptor under which an access passed its checks: by coordinates, through a leaf, or through an aperture of
the die. -/
def descFor (s : State) (ctx die path va : Nat) (l : Loc) : Option Desc :=
  match l with
  | .elem comp idx _ _ _ => some (regionDesc s comp idx)
  | _ =>
    if path == 5 then apSet s ctx die (va / 2 ^ 48 % 16)
    else if path == 0 || path == 4 then
      (match walk s ctx (va % 2 ^ 57) with
       | .leaf _ e _ => some (descOf s (ctxComp s ctx) (pteNat e 20 20))
       | _ => none)
    else none

/-- The slice that an access reaches: by coordinates, or through the leaf of its virtual address; none where
no slice serves it. -/
def sliceOf (s : State) (ctx path va : Nat) (l : Loc) : Option Nat :=
  match l with
  | .elem comp idx co _ _ =>
    let d := regionDesc s comp idx
    some (granuleSlice d (elemGranule d co))
  | .bytes (a :: _) _ =>
    if a ≥ deviceBytes || !(path == 0 || path == 4) then none
    else
      let va := va % 2 ^ 57
      (match walk s ctx va with
       | .leaf lvl e _ =>
         some (swzSlice (descOf s (ctxComp s ctx) (pteNat e 20 20)) (pteNat e 51 4)
           (pteNat e 64 32 * 65536 + va % pageSize lvl))
       | _ => none)
  | _ => none

/-- What serves a line of a buffer that an aperture reaches: no leaf spreads it, and the model takes its descriptor's
ILV and HOME (log entry 24). -/
def viewHome (s : State) (d : Desc) (line : Nat) : Home :=
  ⟨some (granuleSlice d ((64 * line - dPbase d) / 1024)), sealOf s d⟩

/-- What serves a line of an access. -/
def homeOf (s : State) (ctx die path va : Nat) (l : Loc) : Nat → Home :=
  match descFor s ctx die path va l with
  | some d =>
    if path == 5 then viewHome s d
    else
      let h : Home := ⟨sliceOf s ctx path va l, sealOf s d⟩
      fun _ => h
  | none => fun _ => ⟨none, none⟩

/-- The lines of device memory that an access reaches. -/
def deviceLines (s : State) (l : Loc) : List Nat := linesOf ((l.addrs s).filter (· < deviceBytes))

/-- An access at its point of performance. -/
def useLoc (s : State) (write : Bool) (ctx die path va : Nat) (l : Loc) : State :=
  let home : Nat → Home := homeOf s ctx die path va l
  (deviceLines s l).foldl (fun s n => useLine write (home n) s n) s

/-- A flit leaves for a device: it enters the sender's buffer of the port that the route table names (R460, R461). -/
def sendFlit (s : State) (dev : Nat) (x : Flit) : State :=
  match flook s.routes dev with
  | some p => if p < 12 then { s with links := fput s.links p (let l := fget Link.reset s.links p; { l with sent := l.sent ++ [x] }) } else s
  | none => s

/-- A path 7 access of this device leaves as a request to its target (R460, log entry 85). -/
def askPeer (s : State) (ctx path va size : Nat) (a : PeerAct) : State :=
  if path = 7 then sendFlit s (va / 2 ^ 52 % 64) (.request ⟨s.devId, ctx, va % 2 ^ 52, size, a⟩) else s

/-- A read would find a granule under another key. -/
def wrongKey (s : State) (ctx die path va : Nat) (l : Loc) : Bool :=
  let home : Nat → Home := homeOf s ctx die path va l
  (deviceLines s l).any (fun n => sealDiffers s (home n) n)

/-! ## Waiting at a slice (R444, R446) -/

/-- A line waits at its slice: the stack is in self-refresh (R446), or a bank that it needs opens no row (R444). -/
def lineAsleep (s : State) (h : Home) (line : Nat) : Bool :=
  match h.slice with
  | some n =>
    (s.slice n).selfRefresh ||
      ((!(s.slice n).windows.isEmpty || (s.slice n).acts.any (fun e => threshold ≤ e.2)) && fillShut s n line)
  | none => false

/-- The request waits at its slice. -/
def sliceAsleep (s : State) (ctx die path va : Nat) (l : Loc) : Bool :=
  let home : Nat → Home := homeOf s ctx die path va l
  (deviceLines s l).any (fun n => lineAsleep s (home n) n)

end Sys2Proof.Machine
end

