-- ==== Sys2Proof/Machine/Flags.lean ====
section
/-!
DEFINITION. Float flags and FPX (R96, R97).
-/
namespace Sys2Proof.Machine

/-- The enable bits FXE of a wave (R95). -/
def Wave.fxe (w : Wave) : BitVec 5 := w.fpctl.extractLsb' 0 5

/-- The rounding mode of a code of R88, with DYN taken from %fpctl (R95). -/
def Wave.rmode (w : Wave) (code : Nat) : RMode := RMode.of code (w.fpctl.extractLsb' 5 3).toNat

/-- OR flags into %fpstat (R96). -/
def Wave.orFlags (w : Wave) (fl : BitVec 5) : Wave := { w with fpstat := w.fpstat ||| fl.zeroExtend 32 }

/-- The flags of all lanes together. -/
def allFlags (fs : List (Nat × BitVec 5)) : BitVec 5 := fs.foldl (fun a p => a ||| p.2) 0

/-- Raise flags in a wave (R96). The second word of the cycle, when it waits in `qn`, learns of them, so
that its clearing of a flag leaves it set. -/
def raiseFlags (s : State) (u qn : Nat) (fs : List (Nat × BitVec 5)) : State :=
  let fl := allFlags fs
  if fl = 0 then s
  else
    (s.mapWave u (·.orFlags fl)).mapQuad qn (fun q =>
      { q with second := q.second.map (fun i => { i with raised := i.raised ++ [(u, fl)] }) })

/-- A SETS of %fpstat (R96): the written ones clear, but a flag raised in the same cycle stays. -/
def clearFlags (st v : Word) (raised : BitVec 5) : Word :=
  ((st &&& ~~~ v) ||| raised.zeroExtend 32) &&& 0x1F

/-- The lanes that take FPX, with %tval (R97): the OR of the flags of the parked lanes, under FXE. -/
def fpxTraps (fxe : BitVec 5) (fs : List (Nat × BitVec 5)) : List Trap :=
  let hit := fs.filter (fun p => p.2 &&& fxe != 0)
  let tv := (allFlags hit &&& fxe).zeroExtend 64
  hit.map (fun p => ⟨p.1, .fpx, tv, 0⟩)

end Sys2Proof.Machine
end

