-- ==== Sys2Proof/Machine/Operands.lean ====
section
/-!
DEFINITION. Operand forms and the common course of an instruction: operands with their checks
(REGBOUND R68, EMPTY R69, SOFT R173, FORMAT R81), waiting for full registers (R69), the window count
(R71), the register log of a transaction (R363), and `issueFull`, which runs one word of an issue group
(R229 to R231, R282, R364).
-/
namespace Sys2Proof.Machine

/-! ## Operands -/

end Sys2Proof.Machine

namespace Sys2Proof

def Guard.always : Guard := ⟨false, 0⟩
/-- A lane's guard holds (R229). -/
def Guard.holds (g : Guard) (t : Machine.Thread) : Bool := t.pred g.p.toNat != g.neg

namespace Full
def dn (f : Full) : Nat := f.dst.toNat
def an (f : Full) : Nat := f.sa.toNat
def bn (f : Full) : Nat := f.sb.toNat
/-- Source B as a number: register or immediate (R98, R281). -/
def valB (f : Full) (t : Machine.Thread) (e : Ety) : Nat :=
  if f.imm? then Machine.immValue e f.imm16 else t.val f.bn e.regs
def valA (f : Full) (t : Machine.Thread) (e : Ety) : Nat := t.val f.an e.regs
def valD (f : Full) (t : Machine.Thread) : Nat := t.val f.dn f.ety.regs
end Full

end Sys2Proof

namespace Sys2Proof.Machine

/-- One V operand of a word in one lane. -/
structure Opnd where
  /-- operand code of R81: 0 D, 1 A, 2 B, 4 any further operand -/
  code : Nat
  /-- first register; negative where an indexed name is (R228) -/
  reg  : Int
  n    : Nat
  rd   : Bool
  wr   : Bool
  /-- FEM bit of a source (R69) -/
  fem  : Bool
  /-- expected type; none: no tag check -/
  exp  : Option Ety
  /-- the thread whose register it is; another than the lane in an exchange (R308) -/
  who  : Nat
  /-- a partner's register (R308) -/
  part : Bool
  /-- read once for the wave, in its lowest Active lane (R324) -/
  wave : Bool
  /-- a name computed in the lane: tag-checked in Active lanes only (R313) -/
  idx  : Bool
  /-- a name that its type does not admit (R313) -/
  odd  : Bool
  /-- guard of a pair-form half (R238) -/
  grd  : Guard
deriving DecidableEq, Repr

def Opnd.base (l code reg n : Nat) : Opnd :=
  { code := code, reg := reg, n := n, rd := false, wr := false, fem := false, exp := none, who := l,
    part := false, wave := false, idx := false, odd := false, grd := .always }
/-- A source. -/
def Opnd.src (l code reg n : Nat) (fem : Bool) (exp : Option Ety) : Opnd :=
  { Opnd.base l code reg n with rd := true, fem := fem, exp := exp }
/-- A destination that is not read. -/
def Opnd.dst (l reg n : Nat) : Opnd := { Opnd.base l 0 reg n with wr := true }
/-- A destination that is read. -/
def Opnd.acc (l reg n : Nat) (fem : Bool) (exp : Option Ety) : Opnd :=
  { Opnd.src l 0 reg n fem exp with wr := true }

/-- The destination, not read. -/
def opD (f : Full) (l : Nat) : Opnd := .dst l f.dn f.ety.regs
/-- The destination, read as the third source. -/
def opDacc (f : Full) (l : Nat) : Opnd := .acc l f.dn f.ety.regs f.femD (some f.ety)
/-- The value register of a store: DST is read and not written. -/
def opStored (f : Full) (l : Nat) (n : Nat) : Opnd := .src l 0 f.dn n f.femD (some f.ety)
/-- Source A of a type. -/
def opA (f : Full) (l : Nat) (t : Ety) : Opnd := .src l 1 f.an t.regs f.femA (some t)
/-- Source B of a type in the register form. -/
def opB (f : Full) (l : Nat) (t : Ety) : List Opnd :=
  if f.imm? then [] else [.src l 2 f.bn t.regs f.femB (some t)]

/-- A V operand of an instruction whose effect falls on the wave, read in lane `l` for all of it (R324). -/
def Opnd.ofWave (o : Nat → Opnd) (l : Nat) : Opnd := { o l with wave := true }

/-- The names of an operand lie in the allocation (R68). -/
def Opnd.inside (o : Opnd) (top : Nat) : Bool := 0 ≤ o.reg && o.reg + o.n ≤ top && !o.odd

/-- The number that REGBOUND reports (R68, R313). -/
def Opnd.outNo (o : Opnd) (top : Nat) : Int :=
  if o.odd || o.reg < 0 || o.reg ≥ top then o.reg else top

/-- Registers of an operand that are empty, lowest first. -/
def Opnd.empties (w : Wave) (o : Opnd) : List Nat :=
  if o.reg < 0 then []
  else ((List.range o.n).map (o.reg.toNat + ·)).filter (w.thread o.who).empty

/-- The producer of an empty register is a memory operation (R58). -/
def Wave.memProducer (w : Wave) (l r : Nat) : Bool :=
  match flook (w.thread l).pend r with
  | some id => (match w.flights.find? (·.id == id) with | some f => f.mem | none => true)
  | none => false

/-- Register `r` lies in the operand window (R71). -/
def Wave.inWindow (w : Wave) (r : Nat) : Bool := w.winFirst ≤ r && r < w.winFirst + w.winLen

/-- The storage that a source register is read from holds a soft error (R71, R173). -/
def Wave.softAt (w : Wave) (l r : Nat) : Bool :=
  (w.thread l).soft.contains (if w.inWindow r then 2048 + r else r)

/-! ## An instruction under the common course -/

/-- What a body learns of one wave's share of the issue. `rd` is the wave as the cycle began (R284). -/
structure Ctx where
  iss : Issue
  rd  : Wave
  u   : Nat
  /-- issuing lanes -/
  grp : Mask
  /-- Active lanes that raise no cause -/
  act : Mask
  team : Option Team

/-- What a body answers. Lanes of `stay` keep their PC, lanes of `go` take theirs, all others move to
the next word. `abort` names lanes that abort, the code and ABORT's own code (R369). -/
structure Res where
  st    : State
  traps : List Trap := []
  stay  : Mask := 0
  go    : List (Nat × Word) := []
  flags : List (Nat × BitVec 5) := []
  abort : Option (Mask × Nat × Nat) := none

/-- The parts of an instruction's description that the common course needs. -/
structure Sem where
  grd   : Guard
  /-- V operands in a lane, in the order D, A, B, then further ones -/
  ops   : State → Wave → Nat → List Opnd
  /-- the W, Q, P and X registers that the word reads, each by the number of its soft-error mark -/
  wsrc  : List Nat
  /-- the word is legal where it issues (R183, R216, R251) -/
  legal : State → Wave → Bool → Bool
  /-- the entry is held at issue (R20, R186) -/
  hold  : State → Wave → Mask → Bool
  /-- what the Active threads wait for beside empty registers (R129, R403) -/
  tile  : State → Wave → Mask → Option Wait
  /-- FORMAT of tile and region operands: %tval (R81, R112, R130) -/
  fmt   : State → Wave → Mask → Option DWord
  /-- R364 forbids the word to members -/
  forbid : Wave → Bool
  /-- a vector float instruction of the full form (R97) -/
  fpx   : Bool
  body  : State → Ctx → Res

/-- An instruction without operands or effect. -/
def Sem.plain (f : Full) : Sem :=
  { grd := f.grd, ops := fun _ _ _ => [], wsrc := [], legal := fun _ _ _ => true, hold := fun _ _ _ => false,
    tile := fun _ _ _ => none, fmt := fun _ _ _ => none, forbid := fun _ => false, fpx := true,
    body := fun s _ => { st := s } }

def Issue.hm (i : Issue) : Bool := match i.key.mode with | .handler _ => true | _ => false
def Issue.inTx (i : Issue) : Bool := match i.key.mode with | .tx _ => true | _ => false

namespace Ctx
def hm (c : Ctx) : Bool := c.iss.hm
/-- The issuing lanes are members of the open transaction (R361). -/
def tx (c : Ctx) : Bool := c.iss.inTx
def lanes (c : Ctx) : List Nat := lanesOf c.act
def pc (c : Ctx) : Word := c.iss.key.pc
def qn (c : Ctx) : Nat := c.iss.core * 4 + c.iss.quad
def ctxNo (c : Ctx) : Nat := match c.team with | some t => t.ctx | none => 0
def die (c : Ctx) : Nat := c.iss.core / 96
def who (c : Ctx) : Who := ⟨c.ctxNo, c.die, c.team, c.hm⟩
end Ctx

/-! ## Lane by lane -/

/-- The operands whose guard holds in a lane. -/
def Sem.live (m : Sem) (s : State) (w : Wave) (l : Nat) : List Opnd :=
  (m.ops s w l).filter (fun o => o.grd.holds (w.thread l))

/-- Lanes of a mask where the guard holds. -/
def Sem.active (m : Sem) (w : Wave) (g : Mask) : Mask :=
  maskOf ((lanesOf g).filter (fun l => m.grd.holds (w.thread l)))

/-- Empty registers that a lane waits for: a destination, or a source whose FEM bit is 0 (R69). -/
def waitsFor (w : Wave) (os : List Opnd) : List (Nat × Nat) :=
  (os.map (fun o =>
    if o.wr || (o.rd && !o.fem) then (o.empties w).map (fun r => (o.who, r)) else [])).flatten

/-- The cause that a lane's operands raise, in the order REGBOUND, EMPTY, SOFT (R182). -/
def operandTrap (w : Wave) (l : Nat) (os : List Opnd) : Option Trap :=
  match os.find? (fun o => !o.inside w.top) with
  | some o => some ⟨l, .regbound, BitVec.ofInt 64 (o.outNo w.top), 0⟩
  | none =>
    match os.find? (fun o => o.rd && o.fem && !(o.empties w).isEmpty) with
    | some o =>
      some ⟨l, .empty, BitVec.ofInt 64 (if o.part then o.reg else ((o.empties w).headD 0 : Int)), 0⟩
    | none =>
      let soft := (os.filter (·.rd)).map (fun o =>
        (rangeFrom o.reg.toNat o.n).filter (w.softAt o.who))
      match soft.flatten with
      | r :: _ => some ⟨l, .soft, BitVec.ofNat 64 r, 0⟩
      | [] => none

/-- A W or Q register of the wave, or a P or X register of the thread, holds a soft error (R64, R173). P0 is no
register that can: it holds in every lane (R227). -/
def Wave.softReg (w : Wave) (l r : Nat) : Bool :=
  if r < 16384 then w.wsoft.contains r else (w.thread l).soft.contains r

/-- The register's number in its own file. -/
def softNo (r : Nat) : Nat := if r < 64 then r else if r < 16384 then r - 64 else (r - 16384) % 8

/-- The cause of a lane's operands: of its V operands, else SOFT of a W, Q, P or X source (R173). A guard is no source
(log entry 87). -/
def laneTrap (wsrc : List Nat) (w : Wave) (l : Nat) (os : List Opnd) : Option Trap :=
  match operandTrap w l os with
  | some t => some t
  | none => (wsrc.find? (w.softReg l)).map (fun r => ⟨l, .soft, BitVec.ofNat 64 (softNo r), 0⟩)

/-- %tval of FORMAT (R81). -/
def formatTval (exp found : Ety) (code reg : Nat) : DWord :=
  BitVec.ofNat 64 (exp.code.toNat * 2 ^ 20 + found.code.toNat * 2 ^ 16 + code * 2 ^ 12 + reg % 2 ^ 12)

/-- A tag passes the check of an expected type (R81). -/
def tagOk (exp found : Ety) : Bool := exp == .bits || found == .bits || found == exp

/-- FORMAT of one operand: the lowest register that fails. -/
def Opnd.format (w : Wave) (o : Opnd) : Option DWord :=
  match o.exp with
  | none => none
  | some t =>
    if o.odd then none
    else
      ((List.range o.n).findSome? (fun (k : Nat) =>
        let r : Int := o.reg + k
        if 0 ≤ r && r < w.top && !tagOk t (w.tag r.toNat) then
          some (formatTval t (w.tag r.toNat) o.code r.toNat)
        else none))

/-- FORMAT of a wave's operands, each with its place in the order D, A, B, tile, further (R81); the halves
of a pair word follow one another. -/
def Sem.formats (m : Sem) (s : State) (w : Wave) (g act : Mask) : List (Nat × DWord) :=
  let here (p : Opnd × Nat) : List (Nat × DWord) :=
    match p.1.format w with
    | some v => [(if p.1.code < 3 then p.2 else 200 + p.2, v)]
    | none => []
  let fixed := ((m.ops s w ((lowest g).getD 0)).zipIdx.filter (fun p => !p.1.idx)).map here
  let moved := ((lanesOf act).map (fun l =>
    (((m.ops s w l).zipIdx.filter (fun p => p.1.idx)).map here).flatten)).flatten
  let tile := match m.fmt s w act with | some v => [(100, v)] | none => []
  fixed.flatten ++ moved ++ tile

/-- The first in the order of R81. Where several waves of the group fail at one place of that order, the word has
the %tval of the first of them (log entry 55). -/
def firstFormat (l : List (Nat × DWord)) : Option DWord :=
  match l.foldl (fun (b : Option (Nat × DWord)) p =>
    match b with | none => some p | some q => if p.1 < q.1 then some p else some q) none with
  | some p => some p.2
  | none => none

/-- The window registers that a lane's sources read, each with its operand's code and how many operands of that
code and thread have read it before; what one operand reads in several threads counts once (R308). -/
def windowReads (w : Wave) (os : List Opnd) : List (Nat × Nat × Nat) :=
  let one (o : Opnd) : List (Nat × Nat × Nat) :=
    ((rangeFrom o.reg.toNat o.n).filter w.inWindow).map (fun r => (o.code, r, o.who))
  let reads := ((os.filter (·.rd)).map one).flatten
  reads.zipIdx.map (fun x => (x.1.1, x.1.2.1, (reads.take x.2).countP (· == x.1)))

/-- Window reads of one issue (R71): for each source operand, each of its registers once, however many lanes
read it. -/
def windowHits (w : Wave) (oss : List (List Opnd)) : Nat :=
  ((oss.map (windowReads w)).flatten).eraseDups.length

/-! ## Writing V registers -/

/-- A write of registers in one lane. -/
structure VWrite where
  lane : Nat
  reg  : Nat
  ws   : List Word
  tag  : Ety
deriving DecidableEq, Repr

/-- Soft errors travel with the bits that a log entry takes (R173). -/
def logSoft (w : Wave) (rs : List Nat) : Wave :=
  { w with threads := w.threads.map (fun t =>
      { t with soft := t.soft ++ ((w.kettle.log.zipIdx.filter (fun e =>
          rs.contains e.1.reg && t.soft.contains e.1.reg && !t.soft.contains (4096 + e.2))).map
            (fun e => 4096 + e.2)) }) }

/-- Log registers before their first write by a member (R363): false when the log is full. The value of
a register that is empty in a lane is undefined there (log entry 2). -/
def logRegs (s : State) (u : Nat) (rs : List Nat) : State × Bool :=
  match s.wave? u with
  | none => (s, true)
  | some w =>
    let new := (rs.filter (fun r => !w.kettle.log.any (·.reg == r))).eraseDups
    if w.kettle.log.length + new.length > 512 then (s, false)
    else
      let entry (k r : Nat) : LogReg :=
        { reg := r, tag := w.tag r,
          full := maskOf ((List.range w.width).filter (fun i => !(w.thread i).empty r)),
          vals := w.threads.mapIdx (fun i t =>
            if t.empty r then (Config.freeValue (s.free + k * 64 + i)).extractLsb' 0 32 else t.reg r) }
      let es := new.zipIdx.map (fun p => entry p.2 p.1)
      let hollow := new.any (fun r => w.threads.any (fun t => t.empty r))
      let s := s.mapWave u (fun w => logSoft { w with kettle := { w.kettle with log := w.kettle.log ++ es } } new)
      ((if hollow then { s with free := s.free + 64 * new.length } else s), true)

/-- Write registers full, with their tags (R69, R80). -/
def putV (w : Wave) (ws : List VWrite) : Wave :=
  ws.foldl (fun w x =>
    (w.mapThread x.lane (fun t => t.setRegs x.reg x.ws)).setTags x.reg x.tag x.ws.length) w

/-- Write registers of Active lanes; inside a transaction they are logged first (R363). False: the log
is full and nothing is written. -/
def writeV (s : State) (c : Ctx) (ws : List VWrite) : State × Bool :=
  let (s, ok) :=
    if c.tx then logRegs s c.u (ws.map (fun x => rangeFrom x.reg x.ws.length)).flatten else (s, true)
  if ok then (s.mapWave c.u (fun w => putV w ws), true) else (s, false)

/-- The abort of Active members for a full structure (R363). -/
def fullAbort (c : Ctx) (code : Nat) : Option (Mask × Nat × Nat) := some (c.act, code, 0)

/-! ## Lanewise instructions -/

/-- What an instruction does in one lane. -/
structure LaneOut where
  vw    : List (Nat × List Word × Ety) := []
  pw    : List (Nat × Bool) := []
  xw    : List (Nat × BitVec 16) := []
  flags : BitVec 5 := 0
  go    : Option Word := none
  trap  : Option (Cause × DWord) := none

/-- The results of the Active lanes. -/
def laneOuts (c : Ctx) (g : Ctx → Nat → Thread → LaneOut) : List (Nat × LaneOut) :=
  c.lanes.map (fun l => (l, g c l (c.rd.thread l)))

/-- Predicate and index writes of a lane. -/
def LaneOut.put (o : LaneOut) (t : Thread) : Thread :=
  let t := o.pw.foldl (fun t p => t.setPred p.1 p.2) t
  o.xw.foldl (fun t p => t.setX p.1 p.2) t

/-- An instruction that works lane by lane (R282): lanes that raise a cause write nothing. -/
def lanewise (g : Ctx → Nat → Thread → LaneOut) (s : State) (c : Ctx) : Res :=
  let outs := laneOuts c g
  let traps := outs.filterMap (fun p => p.2.trap.map (fun t => ⟨p.1, t.1, t.2, 0⟩))
  let good := outs.filter (fun p => p.2.trap.isNone)
  let (s, ok) := writeV s c (good.map (fun p => p.2.vw.map (fun v => ⟨p.1, v.1, v.2.1, v.2.2⟩))).flatten
  if !ok then { st := s, traps := traps, abort := fullAbort c 4 }
  else
    let s := good.foldl (fun s p =>
      if p.2.pw.isEmpty && p.2.xw.isEmpty then s
      else s.mapWave c.u (fun w => w.mapThread p.1 p.2.put)) s
    { st := s, traps := traps,
      go := good.filterMap (fun p => p.2.go.map (fun x => (p.1, x))),
      flags := good.map (fun p => (p.1, p.2.flags)) }

/-- A value of a type into registers d up, with its tag. -/
def LaneOut.val (d : Nat) (t : Ety) (v : Nat) : LaneOut := { vw := [(d, natWords t.regs v, t)] }

/-! ## The common course of one word -/

/-- One wave's share of the issue group. -/
structure Share where
  u   : Nat
  rd  : Wave
  grp : Mask

/-- The threads of a wave in the issue group. -/
def curMask (s : State) (u : Nat) : Mask :=
  match s.cur with
  | none => 0
  | some i => (i.parts.filter (·.wave == u)).foldl (fun m p => m ||| p.mask) 0

/-- The lane in which an instruction of the wave reads its V operands: the lowest Active one of the issue group (R324). -/
def waveLane (g : Guard) (s : State) (w : Wave) (l : Nat) : Nat :=
  (lowest (maskOf ((lanesOf (curMask s w.uid)).filter (fun p => g.holds (w.thread p))))).getD l

/-- An operand that is read for the wave. -/
def opWave (f : Full) (o : Nat → Opnd) (s : State) (w : Wave) (l : Nat) : Opnd := Opnd.ofWave o (waveLane f.grd s w l)

/-- The shares of the issue group: members that are no longer in their transaction are left out; their
abort has discarded the word (R189, R369). -/
def shares (s : State) (i : Issue) : List Share :=
  i.parts.filterMap (fun p =>
    match s.wave? p.wave with
    | none => none
    | some w =>
      let rd := (i.snap.find? (·.uid == p.wave)).getD w
      let grp := if i.inTx then p.mask &&& w.members else p.mask
      if w.retired || grp == 0 then none else some ⟨p.wave, rd, grp⟩)

/-- The causes and aborts of one word in one wave (R174, R180, R189, R369). -/
def takeEffects (s : State) (e : Late) : State :=
  match e.abort with
  | none => takeTraps s e.wave e.pc e.traps
  | some (lanes, code, own) =>
    let code' := e.traps.foldl (fun n t => min n (abortCode t.cause)) code
    let all := lanes ||| maskOf (e.traps.map (·.lane))
    retireIfDone (s.mapWave e.wave (fun w => abortTx w all code' own)) e.wave

/-- A second word of the cycle, of this wave too, stands by (R284). -/
def standsBy (s : State) (qn u : Nat) : Bool :=
  match (s.quad qn).second with
  | some j => j.parts.any (·.wave == u)
  | none => false

/-- What a word's causes and aborts do to members: the lanes, the abort code, and ABORT's own code (R189). -/
def Late.ofMembers (w : Wave) (e : Late) : Mask × Nat × Nat :=
  let ts := (oneEach e.traps).filter (fun t => w.members.getLsbD t.lane)
  let a := e.abort.getD (0, 255, 0)
  (a.1 ||| maskOf (ts.map (·.lane)), ts.foldl (fun n t => min n (abortCode t.cause)) a.2.1, a.2.2)

/-- Both words of a cycle in one wave: what aborts members is one Abort with the lowest code (R189); the other causes
come in the order of the words. -/
def takeBoth (s : State) (u : Nat) (es : List Late) : State :=
  match s.wave? u with
  | none => s
  | some w =>
    let xs := (es.map (Late.ofMembers w)).filter (·.1 != 0)
    let s := if xs.isEmpty then s
      else
        let x := xs.foldl (fun (m : Mask × Nat × Nat) y => (m.1 ||| y.1, if y.2.1 < m.2.1 then y.2 else m.2)) (0, 255, 0)
        retireIfDone (s.mapWave u (fun w => abortTx w x.1 x.2.1 x.2.2)) u
    es.foldl (fun s e => takeTraps s u e.pc (e.traps.filter (fun t => !w.members.getLsbD t.lane))) s

/-- The causes and aborts of a word take effect; while a second word of the wave stands by they follow it, and
those of the first word come before those of the second (R284). -/
def takeInOrder (s : State) (qn : Nat) (late : List Late) (e : Late) : State :=
  if (!e.traps.isEmpty || e.abort.isSome) && standsBy s qn e.wave then
    s.mapQuad qn (fun q => { q with second := q.second.map (fun j => { j with late := j.late ++ [e] }) })
  else
    let mine := late.filter (·.wave == e.wave)
    if mine.isEmpty then takeEffects s e
    else
      takeBoth { s with cur := s.cur.map (fun i => { i with late := i.late.filter (·.wave != e.wave) }) } e.wave (mine ++ [e])

/-- The end of one wave's share: flags and FPX (R96, R97), PCs (R320), then aborts and causes. -/
def settleShare (i : Issue) (m : Sem) (u : Nat) (rd : Wave) (grp : Mask) (early : List Trap) (r : Res) : State :=
  let qn := i.core * 4 + i.quad
  let s := raiseFlags r.st u qn r.flags
  let ts := early ++ r.traps ++ (if m.fpx then fpxTraps rd.fxe r.flags else [])
  let back := maskOf (((oneEach ts).filter (fun t =>
    !(t.cause == .break || t.cause == .fpx || t.cause == .watch))).map (·.lane))
  let move := grp &&& ~~~ back &&& ~~~ r.stay
  let s := s.mapWave u (fun w => w.advance i.hm move i.key.pc (fun l =>
    match r.go.find? (·.1 == l) with | some p => p.2 | none => pcNext i.key.pc))
  takeInOrder s qn i.late ⟨u, i.key.pc, ts, r.abort⟩

/-- Raise ILLEGAL in every issuing lane (R183, R231). -/
def illegalAll (s : State) (i : Issue) (tval : DWord) : State :=
  (shares s i).foldl (fun s p =>
    takeInOrder s (i.core * 4 + i.quad) i.late
      ⟨p.u, i.key.pc, (lanesOf p.grp).map (fun l => ⟨l, .illegal, tval, 0⟩), none⟩) s

/-- Threads that wait give up their entry; the quantum counter restarts where the wait is a swap trigger
(R50, R58, R61). -/
def startWait (s : State) (u l : Nat) (x : Wait) : State :=
  s.mapWave u (fun w => { w.mapThread l (fun t => { t with wait := x }) with
    quantum := if x.swaps then 0 else w.quantum })

/-- How a share stands before issue. -/
structure Ready where
  /-- lanes that wait on memory producers, with the registers (R69) -/
  wait  : List (Nat × List (Nat × Nat))
  /-- some lane waits on another producer: the whole entry waits -/
  stall : Bool
  /-- what the Active lanes wait for -/
  tile  : Option Wait
  act   : Mask
  /-- partners' registers of memory operations, for which the issue group waits (R308) -/
  away  : List (Nat × Nat)

/-- The registers that a lane waits for together with its wave: a partner's (R308), or those of an operand that is
read for the wave (R324, log entry 78). -/
def partnersFor (w : Wave) (os : List Opnd) : List (Nat × Nat) := waitsFor w (os.filter (fun o => o.part || o.wave))

/-- How a share stands before issue (R69). A lane with an empty register of a memory operation and one of
another long-latency producer keeps its entry and holds all of it (log entry 56). Where a partner's register is
empty, the threads of the group wait together (R308). -/
def Sem.ready (m : Sem) (s : State) (p : Share) : Ready :=
  let act := m.active p.rd p.grp
  let need := (lanesOf act).map (fun l => (l, waitsFor p.rd (m.live s p.rd l)))
  let need := need.filter (fun x => !x.2.isEmpty)
  let onMem (x : Nat × List (Nat × Nat)) : Bool := x.2.all (fun y => p.rd.memProducer y.1 y.2)
  let away := ((lanesOf act).map (fun l => partnersFor p.rd (m.live s p.rd l))).flatten.eraseDups
  let wait := if away.isEmpty then need.filter onMem
    else if need.any (fun x => !onMem x) then []
    else (lanesOf p.grp).map (fun l => (l, away ++ ((need.filter (·.1 == l)).map (·.2)).flatten))
  let rest := act &&& ~~~ maskOf (need.map (·.1)) &&& ~~~ maskOf (wait.map (·.1))
  let far := ((lanesOf act).map (fun l => waitsFor p.rd ((m.live s p.rd l).filter (·.part)))).flatten.eraseDups
  { wait := wait, stall := need.any (fun x => !onMem x),
    tile := if rest == 0 then none else m.tile s p.rd rest, act := rest
    away := if need.any (fun x => !onMem x) then [] else far }

/-- How the shares of a group stand: while one waits for partners' registers, the others wait with it (R308). -/
def Sem.readyAll (m : Sem) (s : State) (ps : List Share) : List (Share × Ready) :=
  let rs := ps.map (fun p => (p, m.ready s p))
  match rs.find? (fun x => !x.2.away.isEmpty) with
  | none => rs
  | some x => rs.map (fun y =>
      if y.2.away.isEmpty then (y.1, { y.2 with wait := [], tile := some (.partner x.1.u x.2.away), act := y.1.grp }) else y)

/-- The second word of a cycle was judged as the cycle began, and nothing withdraws it (R284). -/
def Ready.judged (i : Issue) (r : Ready) : Ready := if i.snap.isEmpty then r else { r with tile := none }

/-- Issue lanes of a share without those that wait. -/
def Ready.left (r : Ready) (p : Share) : Mask :=
  p.grp &&& ~~~ maskOf (r.wait.map (·.1)) &&& ~~~ (if r.tile.isSome then r.act else 0)

/-- Take the waiting threads of a share out of the group. -/
def leaveWaiters (s : State) (p : Share) (r : Ready) : State :=
  let s := r.wait.foldl (fun s x => startWait s p.u x.1 (.regs x.2)) s
  match r.tile with
  | some x => (lanesOf r.act).foldl (fun s l => startWait s p.u l x) s
  | none => s

/-- The ILLEGAL that values of the operands raise: it ranks above FORMAT (R182). -/
def Sem.valueIllegal (m : Sem) (s : State) (c : Ctx) : List Trap :=
  if c.act == 0 then [] else (m.body s c).traps.filter (·.cause == .illegal)

/-- A value of W registers makes the word ILLEGAL in a wave whose Active lanes all meet a cause of a lower rank (R182). -/
def Sem.worseIllegal (m : Sem) (s : State) (c : Ctx) (early : List Trap) : List Trap :=
  if m.wsrc.isEmpty || m.wsrc.any (c.rd.softReg (c.lanes.headD 0)) || early.isEmpty then [] else m.valueIllegal s c

/-- Run one wave's share (R229 to R231, R282, R364). -/
def runShare (m : Sem) (i : Issue) (bad : Option DWord) (s : State) (p : Share) (r : Ready) : State :=
  let grp := r.left p
  if grp == 0 then s
  else
    let act0 := if r.tile.isSome then 0 else r.act
    let ops := (lanesOf act0).map (fun l => (l, m.live s p.rd l))
    let early := ops.filterMap (fun x => laneTrap m.wsrc p.rd x.1 x.2)
    let act := act0 &&& ~~~ maskOf (early.map (·.lane))
    match bad with
    | some tv =>
      let ill := m.valueIllegal s ⟨i, p.rd, p.u, grp, act, s.team? p.rd.team⟩
      let rest := grp &&& ~~~ maskOf ((early ++ ill).map (·.lane))
      settleShare i m p.u p.rd grp (early ++ ill ++ (lanesOf rest).map (fun l => ⟨l, .format, tv, 0⟩)) { st := s }
    | none =>
      let hits := windowHits p.rd ((ops.filter (fun x => act.getLsbD x.1)).map (·.2))
      let s := if hits = 0 then s
        else s.mapWave p.u (fun w => { w with winhit := w.winhit + BitVec.ofNat 64 hits })
      let c : Ctx := ⟨i, p.rd, p.u, grp, act, s.team? p.rd.team⟩
      if i.inTx && m.forbid p.rd && act != 0 then
        settleShare i m p.u p.rd grp early { st := s, abort := some (act, 9, 0) }
      else if act == 0 then
        settleShare i m p.u p.rd grp (early ++ m.worseIllegal s ⟨i, p.rd, p.u, grp, act0, s.team? p.rd.team⟩ early) { st := s }
      else settleShare i m p.u p.rd grp early (m.body s c)

/-- Run one word for its issue group: legality (R183), holds (R20, R186), waits (R69), FORMAT for the
whole word (R231), then each wave's share. -/
def issueFull (m : Sem) (s : State) : State :=
  match s.cur with
  | none => s
  | some i =>
    let ps := shares s i
    if ps.any (fun p => !m.legal s p.rd i.hm) then illegalAll s i i.word
    else if i.snap.isEmpty && ps.any (fun p => m.hold s p.rd (m.active p.rd p.grp)) then s
    else
      let rs := (m.readyAll s ps).map (fun x => (x.1, x.2.judged i))
      let s := rs.foldl (fun s x => leaveWaiters s x.1 x.2) s
      if rs.any (fun x => x.2.stall) then s
      else
        let bad := firstFormat ((rs.map (fun x =>
          if x.2.left x.1 == 0 then [] else m.formats s x.1.rd x.1.grp x.2.act)).flatten)
        rs.foldl (fun s x => runShare m i bad s x.1 x.2) s

/-! ## What the issue rule needs -/

/-- Banks of main-file sources that the window does not serve (R72). -/
def Sem.banks (m : Sem) (s : State) (p : Share) : BitVec 16 :=
  let os := m.ops s p.rd ((lowest p.grp).getD 0)
  os.foldl (fun b o =>
    if o.idx then 0xFFFF
    else if !o.rd && !o.part then b
    else (rangeFrom o.reg.toNat o.n).foldl (fun b r =>
      if p.rd.inWindow r then b else b ||| BitVec.ofNat 16 (2 ^ (r % 16))) b) 0

/-! ## Fetch and issue -/

/-- The word at a PC of a code object, and what it does. -/
def fetch (s : State) (k : Key) : DWord × Instr :=
  match s.code? k.code with
  | none => (0, .textOverrun)
  | some c =>
    if c.size ≤ k.pc.toNat then (0, .textOverrun)
    else
      let w := BitVec.ofNat 64 (devNat s (c.base + k.pc.toNat) 8)
      (w, decodeFetched w)

/-- The issue of an entry. -/
def issueOf (s : State) (qn n : Nat) (e : Entry) : Issue :=
  { core := qn / 4, quad := qn % 4, num := n, key := e.key, parts := e.parts, word := (fetch s e.key).1,
    snap := [], raised := [], late := [], cut := none }

end Sys2Proof.Machine
end

