-- ==== Sys2Proof/Machine/Integer.lean ====
section
/-!
DEFINITION. Integer and bit instructions (R286 to R291).
-/
namespace Sys2Proof.Machine

abbrev Out := Host.Outcome State Fault Refusal

/-- A meaning under the common course. -/
def execX (m : Sem) (s : State) : Out := finish (issueFull m s)

/-- A lanewise instruction with fixed operands. -/
def alu (f : Full) (ops : Nat → List Opnd) (g : Ctx → Nat → Thread → LaneOut) : Sem :=
  { Sem.plain f with ops := fun _ _ l => ops l, body := lanewise g }

/-! ## Element by element -/

/-- The binary shape on integer elements (R281, R282). -/
def intBin (f : Full) (op : Int → Int → Int) : Sem :=
  alu f (fun l => [opD f l, opA f l f.ety] ++ opB f l f.ety) (fun _ _ t =>
    let a := elemsOf f.ety (f.valA t f.ety)
    let b := elemsOf f.ety (f.valB t f.ety)
    .val f.dn f.ety (elemsJoin f.ety
      (List.zipWith (fun x y => reduce f.ety f.sat (op (intOf f.ety x) (intOf f.ety y))) a b)))

/-- The unary shape on the elements as natural numbers. -/
def natUn (f : Full) (op : Nat → Nat) : Sem :=
  alu f (fun l => [opD f l, opA f l f.ety]) (fun _ _ t =>
    .val f.dn f.ety (elemsJoin f.ety ((elemsOf f.ety (f.valA t f.ety)).map op)))

/-- The unary shape on integer elements. -/
def intUn (f : Full) (op : Int → Int) : Sem :=
  natUn f (fun x => reduce f.ety f.sat (op (intOf f.ety x)))

/-- Bitwise operations act on the whole value. -/
def bitBin (f : Full) (op : Nat → Nat → Nat) : Sem :=
  alu f (fun l => [opD f l, opA f l f.ety] ++ opB f l f.ety) (fun _ _ t =>
    .val f.dn f.ety (op (f.valA t f.ety) (f.valB t f.ety)))

/-- The shift shape: b is one register of expected type N32 (R288). -/
def shiftBin (f : Full) (op : Nat → Nat → Nat) : Sem :=
  alu f (fun l => [opD f l, opA f l f.ety] ++ opB f l .n32) (fun _ _ t =>
    .val f.dn f.ety (op (f.valA t f.ety) (f.valB t .n32 % f.ety.width)))

/-- The accumulating shift shape. -/
def shiftAcc (f : Full) (op : Nat → Nat → Nat → Nat) : Sem :=
  alu f (fun l => [opDacc f l, opA f l f.ety] ++ opB f l .n32) (fun _ _ t =>
    .val f.dn f.ety (op (f.valD t) (f.valA t f.ety) (f.valB t .n32)))

def semIadd (f : Full) : Sem := intBin f (· + ·)
def semIsub (f : Full) : Sem := intBin f (· - ·)
def semImul (f : Full) : Sem := intBin f (· * ·)
/-- Upper half of the double-width product. -/
def semImulh (f : Full) : Sem := intBin f (fun a b => a * b / (2 ^ f.ety.width : Nat))
def semImin (f : Full) : Sem := intBin f min
def semImax (f : Full) : Sem := intBin f max

def semImad (f : Full) : Sem :=
  alu f (fun l => [opDacc f l, opA f l f.ety] ++ opB f l f.ety) (fun _ _ t =>
    let x := intOf f.ety (f.valA t f.ety) * intOf f.ety (f.valB t f.ety) + intOf f.ety (f.valD t)
    .val f.dn f.ety (reduce f.ety f.sat x))

def semIabs (f : Full) : Sem := intUn f (fun x => x.natAbs)
def semIneg (f : Full) : Sem := intUn f (fun x => -x)

def semAnd (f : Full) : Sem := bitBin f (· &&& ·)
def semOr (f : Full) : Sem := bitBin f (· ||| ·)
def semXor (f : Full) : Sem := bitBin f (· ^^^ ·)
/-- a and not b. -/
def semAndn (f : Full) : Sem := bitBin f (fun a b => a ^^^ (a &&& b))
def semNot (f : Full) : Sem := natUn f (fun a => 2 ^ f.ety.width - 1 - a)

/-! ## Shifts (R288) -/

def semShl (f : Full) : Sem := shiftBin f (fun a s => a * 2 ^ s % 2 ^ f.ety.width)
def semShr (f : Full) : Sem := shiftBin f (fun a s => a / 2 ^ s)
def semSar (f : Full) : Sem := shiftBin f (fun a s => reduce f.ety false (intOf f.ety a / (2 ^ s : Nat)))
def semRot (f : Full) : Sem := shiftBin f (fun a s => (a * 2 ^ s + a / 2 ^ (32 - s)) % 2 ^ 32)
/-- Funnel shift of a · 2^32 + d. -/
def semFshf (f : Full) : Sem :=
  shiftAcc f (fun d a b =>
    let t := a * 2 ^ 32 + d
    let s := b % 32
    if f.lo3 = 0 then t / 2 ^ s % 2 ^ 32 else t * 2 ^ s / 2 ^ 32 % 2 ^ 32)

/-! ## Counts and reversal (R287) -/

def bitsUp (w a : Nat) : List Bool := (List.range w).map a.testBit
def popcount (w a : Nat) : Nat := (bitsUp w a).countP id
def trailing (w a : Nat) : Nat := ((bitsUp w a).takeWhile (!·)).length
def leading (w a : Nat) : Nat := ((bitsUp w a).reverse.takeWhile (!·)).length
def bitReverse (w a : Nat) : Nat := (bitsUp w a).foldl (fun n b => 2 * n + b.toNat) 0

def semPopc (f : Full) : Sem := natUn f (popcount f.ety.width)
def semClz (f : Full) : Sem := natUn f (leading f.ety.width)
def semCtz (f : Full) : Sem := natUn f (trailing f.ety.width)
def semBrev (f : Full) : Sem := natUn f (bitReverse f.ety.width)

/-! ## Bit fields (R289) -/

/-- Position and length of a field. -/
def fieldPos (b : Nat) : Nat := b % 256
def fieldLen (w b : Nat) : Nat := min (b / 256 % 256) w

/-- The field of an integer whose bits go on above its width, sign-extended for S types. -/
def bitField (t : Ety) (a pos len : Nat) : Nat :=
  if len = 0 then 0
  else
    let y := intOf t a / (2 ^ pos : Nat) % (2 ^ len : Nat)
    reduce t false (if t.signed && y ≥ (2 ^ (len - 1) : Nat) then y - (2 ^ len : Nat) else y)

/-- Replace a field. -/
def bitInsert (w d a pos len : Nat) : Nat :=
  let m := (2 ^ len - 1) * 2 ^ pos % 2 ^ w
  (d ^^^ (d &&& m)) ||| (a % 2 ^ len * 2 ^ pos % 2 ^ w)

def semBfx (f : Full) : Sem :=
  alu f (fun l => [opD f l, opA f l f.ety] ++ opB f l .n32) (fun _ _ t =>
    let b := f.valB t .n32
    .val f.dn f.ety (bitField f.ety (f.valA t f.ety) (fieldPos b) (fieldLen f.ety.width b)))

def semBfi (f : Full) : Sem :=
  shiftAcc f (fun d a b => bitInsert f.ety.width d a (fieldPos b) (fieldLen f.ety.width b))

/-! ## Address add, dot product, byte gather (R290, R291) -/

def semLea (f : Full) : Sem :=
  alu f (fun l => [.dst l f.dn 2, opA f l .n64] ++ opB f l .s32) (fun _ _ t =>
    let x := (f.valA t .n64 : Int) + intOf .s32 (f.valB t .s32) * (2 ^ f.lo3 : Nat)
    .val f.dn .n64 (x % (2 ^ 64 : Nat)).toNat)

def semIdot4 (f : Full) : Sem :=
  alu f (fun l => [opDacc f l, opA f l .s8] ++ opB f l .s8) (fun _ _ t =>
    let a := (elemsOf .s8 (f.valA t .s8)).map (intOf .s8)
    let b := (elemsOf .s8 (f.valB t .s8)).map (intOf .s8)
    let x := (List.zipWith (· * ·) a b).foldl (· + ·) (intOf .s32 (f.valD t))
    .val f.dn .s32 (reduce .s32 f.sat x))

/-- Bytes picked from the pool d, a by a selector (R291). -/
def bytePick (d a c : Nat) : Nat :=
  let pool := a * 2 ^ 32 + d
  (List.range 4).foldr (fun e n =>
    256 * n + (if c.testBit (12 + e) then 0 else pool / 2 ^ (8 * (c / 2 ^ (3 * e) % 8)) % 256)) 0

def semBpick (f : Full) : Sem :=
  alu f (fun l => [opDacc f l, opA f l .bits] ++ opB f l .n32) (fun _ _ t =>
    .val f.dn .bits (bytePick (f.valD t) (f.valA t .bits)
      (if f.imm? then f.imm16.toNat else f.valB t .n32 % 2 ^ 16)))

def execIadd (f : Full) (s : State) : Out := execX (semIadd f) s
def execIsub (f : Full) (s : State) : Out := execX (semIsub f) s
def execImul (f : Full) (s : State) : Out := execX (semImul f) s
def execImulh (f : Full) (s : State) : Out := execX (semImulh f) s
def execImad (f : Full) (s : State) : Out := execX (semImad f) s
def execImin (f : Full) (s : State) : Out := execX (semImin f) s
def execImax (f : Full) (s : State) : Out := execX (semImax f) s
def execIabs (f : Full) (s : State) : Out := execX (semIabs f) s
def execIneg (f : Full) (s : State) : Out := execX (semIneg f) s
def execAnd (f : Full) (s : State) : Out := execX (semAnd f) s
def execOr (f : Full) (s : State) : Out := execX (semOr f) s
def execXor (f : Full) (s : State) : Out := execX (semXor f) s
def execAndn (f : Full) (s : State) : Out := execX (semAndn f) s
def execNot (f : Full) (s : State) : Out := execX (semNot f) s
def execShl (f : Full) (s : State) : Out := execX (semShl f) s
def execShr (f : Full) (s : State) : Out := execX (semShr f) s
def execSar (f : Full) (s : State) : Out := execX (semSar f) s
def execRot (f : Full) (s : State) : Out := execX (semRot f) s
def execFshf (f : Full) (s : State) : Out := execX (semFshf f) s
def execPopc (f : Full) (s : State) : Out := execX (semPopc f) s
def execClz (f : Full) (s : State) : Out := execX (semClz f) s
def execCtz (f : Full) (s : State) : Out := execX (semCtz f) s
def execBrev (f : Full) (s : State) : Out := execX (semBrev f) s
def execBfx (f : Full) (s : State) : Out := execX (semBfx f) s
def execBfi (f : Full) (s : State) : Out := execX (semBfi f) s
def execLea (f : Full) (s : State) : Out := execX (semLea f) s
def execIdot4 (f : Full) (s : State) : Out := execX (semIdot4 f) s
def execBpick (f : Full) (s : State) : Out := execX (semBpick f) s

end Sys2Proof.Machine
end

