-- ==== Sys2Proof/Machine/Produce.lean ====
section
/-!
DEFINITION. Long-latency producers (R69, R283): issue empties the destinations and starts a flight; its
lanes are written by REGISTER_WRITEBACK. Landing, the fall of LDQ and the flags stand here too.
-/
namespace Sys2Proof.Machine

/-- A job whose value is already known (R283). -/
def Job.known (lane dst : Nat) (tag : Ety) (ws : List Word) (fl : BitVec 5) : Job :=
  { lane := lane, dst := dst, n := ws.length, tag := tag, src := .ready, val := some ws, flags := fl,
    path := 0, va := 0, err := none, fwd := [], held := false, landed := false }

/-- A job that reads a location. -/
def Job.read (lane dst n : Nat) (tag : Ety) (src : JobSrc) (path va : Nat) : Job :=
  { lane := lane, dst := dst, n := n, tag := tag, src := src, val := none, flags := 0, path := path,
    va := va, err := none, fwd := [], held := false, landed := false }

/-- A flight without jobs. -/
def Flight.start (id : Nat) (pc : Word) (ety : Ety) : Flight :=
  { id := id, pc := pc, ety := ety, mem := false, ldq := false, fpx := false, lapTx := false,
    tile := none, jobs := [] }

/-- Empty the destinations of a flight's jobs (R69), logging them first inside a transaction (R363), and
add the flight to the wave. False: the register log is full. -/
def startFlight (s : State) (c : Ctx) (fl : Flight) : State × Bool :=
  let (s, ok) :=
    if c.tx then logRegs s c.u (fl.jobs.map (fun j => rangeFrom j.dst j.n)).flatten else (s, true)
  if !ok then (s, false)
  else
    (s.mapWave c.u (fun w =>
      let w := fl.jobs.foldl (fun w j => w.mapThread j.lane (fun t => t.setEmpty j.dst fl.id j.n)) w
      let w := { w with flights := w.flights ++ [fl] }
      if fl.ldq then w.raise 0 else w), true)

/-- A long-latency instruction of this chapter: its value is formed at issue and lands later. `g` gives
the destination, the tag, the value and the flags of a lane. -/
def produce (g : Ctx → Nat → Thread → Nat × Ety × Nat × BitVec 5) (f : Full) (s : State) (c : Ctx) : Res :=
  if c.act == 0 then { st := s }
  else
    let (id, s) := s.newId
    let jobs := c.lanes.map (fun l =>
      let (d, t, v, fl) := g c l (c.rd.thread l)
      Job.known l d t (natWords t.regs v) fl)
    let (s, ok) := startFlight s c { Flight.start id c.pc f.ety with fpx := true, jobs := jobs }
    if ok then { st := s } else { st := s, abort := fullAbort c 4 }

/-! ## Landing (R69, R96, R97) -/

/-- Write a landed job's registers where the register still waits for this flight; a write to a freed,
restored or released register is discarded (R63, R73, R369). -/
def Thread.land (t : Thread) (fid dst : Nat) : List Word → Thread
  | [] => t
  | w :: ws =>
    let t := if flook t.pend dst = some fid then t.setReg dst w else t
    Thread.land t fid (dst + 1) ws

/-- The registers of a job that still wait for this flight. -/
def Thread.owed (t : Thread) (fid dst n : Nat) : List Nat :=
  (rangeFrom dst n).filter (fun r => flook t.pend r = some fid)

def Wave.setJob (w : Wave) (fid k : Nat) (f : Job → Job) : Wave :=
  { w with flights := w.flights.map (fun x =>
      if x.id = fid then { x with jobs := x.jobs.mapIdx (fun i j => if i = k then f j else j) } else x) }

/-- A quarantined register is free again once the write has landed (R73). -/
def releaseQuar (s : State) (qn lane fid : Nat) (regs : List Nat) : State :=
  s.mapQuad qn (fun q =>
    { q with quar := q.quar.filter (fun x => !(x.lane == lane && x.prod == fid && regs.contains x.reg)) })

/-- The end of a flight, once every job has landed: LDQ falls (R146), a tile's reader count falls
(R129), FPX is taken once the last lane is written (R97), and the flight leaves the wave. Which FXE applies the
spec leaves open: the model takes %fpctl as it stands at that moment (DESIGN CHOICE, log entry 71). -/
def endFlight (s : State) (u fid : Nat) : State :=
  match s.wave? u with
  | none => s
  | some w =>
    match w.flights.find? (·.id == fid) with
    | none => s
    | some fl =>
      if !fl.jobs.all (·.landed) then s
      else
        let s := s.mapWave u (fun w =>
          let w := { w with flights := w.flights.filter (·.id != fid) }
          if fl.ldq then w.lower 0 else w)
        let s := match fl.tile, s.team? w.team with
          | some (_, e), some t => s.addReaders t e false
          | _, _ => s
        let ts := if fl.fpx then fl.jobs.filter (fun j => j.flags &&& w.fxe != 0) else []
        if ts.isEmpty then s
        else
          s.mapWave u (fun w => { w with defer := w.defer ++
            [⟨maskOf (ts.map (·.lane)), .fpx, pcNext fl.pc,
              ts.map (fun j => (j.lane, (j.flags &&& w.fxe).zeroExtend 64))⟩] })

/-- Land job `k` of a flight with these words and tag: destinations full, tags set (R80), flags set
(R96). -/
def landJob (s : State) (u fid k : Nat) (ws : List Word) (tag : Ety) : State :=
  match s.wave? u with
  | none => s
  | some w =>
    match w.flights.find? (·.id == fid) with
    | none => s
    | some fl =>
      match fl.jobs[k]? with
      | none => s
      | some j =>
        if j.landed then s
        else
          let owed := (w.thread j.lane).owed fid j.dst j.n
          let s := s.mapWave u (fun w =>
            let w := owed.foldl (fun w r => { w with tags := fset .bits w.tags r tag }) w
            let w := w.mapThread j.lane (fun t => t.land fid j.dst ws)
            let w := w.setJob fid k (fun j =>
              { j with landed := true, flags := if owed.isEmpty then 0 else j.flags })
            if fl.fpx && !owed.isEmpty then w.orFlags j.flags else w)
          let s := releaseQuar s w.qn (w.lane + j.lane) fid (rangeFrom j.dst j.n)
          endFlight s u fid

end Sys2Proof.Machine
end

