-- ==== Sys2Proof/Machine/FloatArith.lean ====
section
/-!
DEFINITION. Float and complex instructions (R292 to R299).
-/
namespace Sys2Proof.Machine

/-- Rounding of a word: mode with DYN from %fpctl, SAT and FTZ (R88, R95). -/
def rndOf (f : Full) (c : Ctx) : Rnd := ⟨c.rd.rmode f.hi3, f.sat, f.ftz⟩

/-- Results of the elements of one lane: the register value and all flags. -/
def joinElems (t : Ety) (rs : List (Nat × FFlags)) : Nat × FFlags :=
  (elemsJoin t (rs.map (·.1)), rs.foldl (fun a r => a ||| r.2) 0)

/-- The value of a lane with its flags. -/
def LaneOut.fval (d : Nat) (t : Ety) (v : Nat × FFlags) : LaneOut :=
  { vw := [(d, natWords t.regs v.1, t)], flags := v.2 }

/-- Elements of a and b combined. -/
def fBinVal (f : Full) (op : Nat → Nat → Nat × FFlags) (t : Thread) : Nat × FFlags :=
  joinElems f.ety (List.zipWith op (elemsOf f.ety (f.valA t f.ety)) (elemsOf f.ety (f.valB t f.ety)))

def fUnVal (f : Full) (op : Nat → Nat × FFlags) (t : Thread) : Nat × FFlags :=
  joinElems f.ety ((elemsOf f.ety (f.valA t f.ety)).map op)

/-- The binary shape on float elements (R292). -/
def floatBin (f : Full) (op : Rnd → Nat → Nat → Nat × FFlags) : Sem :=
  alu f (fun l => [opD f l, opA f l f.ety] ++ opB f l f.ety) (fun c _ t =>
    .fval f.dn f.ety (fBinVal f (op (rndOf f c)) t))

/-- The unary shape on float elements. -/
def floatUn (f : Full) (op : Rnd → Nat → Nat × FFlags) : Sem :=
  alu f (fun l => [opD f l, opA f l f.ety]) (fun c _ t =>
    .fval f.dn f.ety (fUnVal f (op (rndOf f c)) t))

/-- The accumulating shape on float elements. -/
def floatAcc (f : Full) (op : Rnd → Nat → Nat → Nat → Nat × FFlags) : Sem :=
  alu f (fun l => [opDacc f l, opA f l f.ety] ++ opB f l f.ety) (fun c _ t =>
    let r := rndOf f c
    let ab := (elemsOf f.ety (f.valA t f.ety)).zip (elemsOf f.ety (f.valB t f.ety))
    .fval f.dn f.ety (joinElems f.ety
      (List.zipWith (fun p d => op r p.1 p.2 d) ab (elemsOf f.ety (f.valD t)))))

/-- The unary long-latency shape (R295). -/
def floatLong (f : Full) (op : Rnd → Nat → Nat × FFlags) : Sem :=
  { Sem.plain f with
    ops := fun _ _ l => [opD f l, opA f l f.ety]
    body := produce (fun c _ t =>
      let v := fUnVal f (op (rndOf f c)) t
      (f.dn, f.ety, v.1, v.2)) f }

def Full.fmt (f : Full) : Fmt := Fmt.of f.ety

def semFadd (f : Full) : Sem := floatBin f (fAdd (Full.fmt f))
def semFsub (f : Full) : Sem := floatBin f (fSub (Full.fmt f))
def semFmul (f : Full) : Sem := floatBin f (fMul (Full.fmt f))
def semFma (f : Full) : Sem := floatAcc f (fun r a b d => fFma (Full.fmt f) r false a b d)
def semFnma (f : Full) : Sem := floatAcc f (fun r a b d => fFma (Full.fmt f) r true a b d)
def semFdiv (f : Full) : Sem :=
  { Sem.plain f with
    ops := fun _ _ l => [opD f l, opA f l f.ety] ++ opB f l f.ety
    body := produce (fun c _ t =>
      let v := fBinVal f (fDiv (Full.fmt f) (rndOf f c)) t
      (f.dn, f.ety, v.1, v.2)) f }
def semFmin (f : Full) : Sem := floatBin f (fun r a b => fMinMax (Full.fmt f) false r.ftz a b)
def semFmax (f : Full) : Sem := floatBin f (fun r a b => fMinMax (Full.fmt f) true r.ftz a b)
def semFabs (f : Full) : Sem := floatUn f (fun _ a => (fSignClear (Full.fmt f) a, 0))
def semFneg (f : Full) : Sem := floatUn f (fun _ a => (fSignFlip (Full.fmt f) a, 0))
def semFrcp (f : Full) : Sem := floatLong f (fRcp (Full.fmt f))
def semFrsq (f : Full) : Sem := floatLong f (fRsq (Full.fmt f))
def semFsqrt (f : Full) : Sem := floatLong f (fSqrt (Full.fmt f))
def semFexp2 (f : Full) : Sem := floatLong f (fExp2 (Full.fmt f))
def semFlog2 (f : Full) : Sem := floatLong f (fLog2 (Full.fmt f))
def semFsin (f : Full) : Sem := floatLong f (fSin (Full.fmt f))
def semFcos (f : Full) : Sem := floatLong f (fCos (Full.fmt f))
def semFrnd (f : Full) : Sem := floatUn f (fun r a => fIntegral (Full.fmt f) r.md r.ftz a)

/-- a · 2^b, with b one register of expected type S32 (R296). -/
def semFscl (f : Full) : Sem :=
  alu f (fun l => [opD f l, opA f l f.ety] ++ opB f l .s32) (fun c _ t =>
    .fval f.dn f.ety (fUnVal f (fun a => fScale (Full.fmt f) (rndOf f c) a (intOf .s32 (f.valB t .s32))) t))

/-- One-hot classes, 16 bits apart, with tag N32 (R296). -/
def semFcls (f : Full) : Sem :=
  alu f (fun l => [.dst l f.dn 1, opA f l f.ety]) (fun _ _ t =>
    .val f.dn .n32 ((elemsOf f.ety (f.valA t f.ety)).foldr (fun a n => fClass (Full.fmt f) a + 2 ^ 16 * n) 0))

def semFdot2 (f : Full) : Sem :=
  let h : Ety := if f.lo3 = 0 then .f16 else .bf16
  alu f (fun l => [opDacc f l, opA f l h] ++ opB f l h) (fun c _ t =>
    .fval f.dn .f32 (fDot2 (Fmt.of h) (rndOf f c) (elemsOf h (f.valA t h)) (elemsOf h (f.valB t h)) (f.valD t)))

/-! ## FSUMV (R298) -/

/-- %prog of a wave (R191). -/
def Wave.progKind (w : Wave) : Nat := w.prog.toNat / 2 ^ 30
def Wave.progIndex (w : Wave) : Nat := w.prog.toNat % 2 ^ 24
/-- A vector long instruction resumes (R192). -/
def Wave.resumes (w : Wave) : Bool := w.progKind == 1
/-- Set %prog of the wave. -/
def setProg (s : State) (c : Ctx) (v : Nat) : State := s.mapWave c.u (fun w => { w with prog := BitVec.ofNat 32 v })

/-- A vector long instruction (R192). `run none` performs what is left of it, and %prog ends at 0: always, or where
it resumed. While PREEMPT stops it, one of its inner boundaries `pts` is chosen: `run (some k)` performs what lies
below k, %prog takes KIND 01 and INDEX k, and LPC stays at the word. With no boundary, or where a lane raises a
cause, it has not begun. Which boundary it is the spec leaves open (DESIGN CHOICE, log entry 73). -/
def longOp (always : Bool) (pts : List Nat) (run : Option Nat → Res) (s : State) (c : Ctx) : Res :=
  match c.iss.cut with
  | none =>
    let r := run none
    if always || c.rd.resumes then { r with st := setProg r.st c 0 } else r
  | some n =>
    match pts[n % (pts.length + 1)]? with
    | none => { st := s, stay := c.grp }
    | some k =>
      if !(run none).traps.isEmpty then { st := s, stay := c.grp }
      else
        let r := run (some k)
        { r with st := setProg r.st c (2 ^ 30 + k), stay := c.grp }

/-- Add the values of lanes in increasing order; each step's flags belong to its lane. -/
def sumLanes (op : Nat → Nat → Nat × FFlags) : Nat → List (Nat × Nat) → Nat × List (Nat × FFlags)
  | s, [] => (s, [])
  | s, (l, x) :: xs =>
    let (s1, fl) := op s x
    let (r, fs) := sumLanes op s1 xs
    (r, (l, fl) :: fs)

/-- The sum over the Active lanes (R298): from the first value, or resumed from d of the lowest Active
lane at INDEX; lanes below `upto` alone where it stops. -/
def fsumv (f : Full) (c : Ctx) (upto : Option Nat) : Nat × List (Nat × FFlags) :=
  let op := fAdd (Full.fmt f) (rndOf f c)
  let xs := (c.lanes.filter (fun l => match upto with | some k => l < k | none => true)).map
    (fun l => (l, f.valA (c.rd.thread l) f.ety))
  if c.rd.resumes then
    sumLanes op (f.valD (c.rd.thread (c.lanes.headD 0))) (xs.filter (fun p => c.rd.progIndex ≤ p.1))
  else
    match xs with
    | [] => (0, [])
    | (_, x) :: xs => sumLanes op x xs

/-- Results of lanes below a stop, written at once; FPX of a stopped instruction is not taken (log entry 73). -/
def writePart (f : Full) (ls : Nat → Bool) (v : Nat → Nat) (fl : Nat → FFlags) (s : State) (c : Ctx) : Res :=
  lanewise (fun _ l _ => { LaneOut.val f.dn f.ety (v l) with flags := fl l }) s { c with act := maskOf (c.lanes.filter ls) }

/-- The flags of a lane in a list. -/
def laneFlags (fs : List (Nat × FFlags)) (l : Nat) : FFlags := ((fs.find? (·.1 == l)).map (·.2)).getD 0

def semFsumv (f : Full) : Sem :=
  { Sem.plain f with
    ops := fun _ _ l => [opD f l, opA f l f.ety]
    fpx := false
    body := fun s c =>
      let from_ := if c.rd.resumes then c.rd.progIndex else c.lanes.headD 0
      longOp false (c.lanes.filter (from_ < ·)) (fun upto =>
        let v := fsumv f c upto
        if upto.isSome then writePart f (fun _ => true) (fun _ => v.1) (laneFlags v.2) s c
        else produce (fun _ l _ => (f.dn, f.ety, v.1, laneFlags v.2 l)) f s c) s c }

/-! ## Complex FP64 (R299) -/

/-- A complex operand with the conjugation of its flag bit. -/
def conjA (f : Full) (v : Nat) : Nat × Nat := conjIf (f.lo3 % 2 == 1) (c64Of v)
def conjB (f : Full) (v : Nat) : Nat × Nat := conjIf (f.lo3 / 2 % 2 == 1) (c64Of v)

/-- The conjugate flags of the immediate form stand in MOD3 as in MOD. -/
def semCmul (f : Full) : Sem :=
  alu f (fun l => [opD f l, opA f l .c64] ++ opB f l .c64) (fun c _ t =>
    let r := cMul (rndOf f c) (conjA f (f.valA t .c64)) (conjB f (f.valB t .c64))
    .fval f.dn .c64 (c64Join r.1, r.2))

def semCfma (f : Full) : Sem :=
  alu f (fun l => [opDacc f l, opA f l .c64] ++ opB f l .c64) (fun c _ t =>
    let r := cFma (rndOf f c) (conjA f (f.valA t .c64)) (conjB f (f.valB t .c64)) (c64Of (f.valD t))
    .fval f.dn .c64 (c64Join r.1, r.2))

def semCconj (f : Full) : Sem :=
  alu f (fun l => [opD f l, opA f l .c64]) (fun _ _ t =>
    .val f.dn .c64 (c64Join (conjIf true (c64Of (f.valA t .c64)))))

def semCrcp (f : Full) : Sem :=
  { Sem.plain f with
    ops := fun _ _ l => [opD f l, opA f l .c64]
    body := produce (fun c _ t =>
      let r := cRcp (rndOf f c) (c64Of (f.valA t .c64))
      (f.dn, .c64, c64Join r.1, r.2)) f }

def execFadd (f : Full) (s : State) : Out := execX (semFadd f) s
def execFsub (f : Full) (s : State) : Out := execX (semFsub f) s
def execFmul (f : Full) (s : State) : Out := execX (semFmul f) s
def execFma (f : Full) (s : State) : Out := execX (semFma f) s
def execFnma (f : Full) (s : State) : Out := execX (semFnma f) s
def execFdiv (f : Full) (s : State) : Out := execX (semFdiv f) s
def execFmin (f : Full) (s : State) : Out := execX (semFmin f) s
def execFmax (f : Full) (s : State) : Out := execX (semFmax f) s
def execFabs (f : Full) (s : State) : Out := execX (semFabs f) s
def execFneg (f : Full) (s : State) : Out := execX (semFneg f) s
def execFrcp (f : Full) (s : State) : Out := execX (semFrcp f) s
def execFrsq (f : Full) (s : State) : Out := execX (semFrsq f) s
def execFsqrt (f : Full) (s : State) : Out := execX (semFsqrt f) s
def execFexp2 (f : Full) (s : State) : Out := execX (semFexp2 f) s
def execFlog2 (f : Full) (s : State) : Out := execX (semFlog2 f) s
def execFsin (f : Full) (s : State) : Out := execX (semFsin f) s
def execFcos (f : Full) (s : State) : Out := execX (semFcos f) s
def execFrnd (f : Full) (s : State) : Out := execX (semFrnd f) s
def execFscl (f : Full) (s : State) : Out := execX (semFscl f) s
def execFcls (f : Full) (s : State) : Out := execX (semFcls f) s
def execFdot2 (f : Full) (s : State) : Out := execX (semFdot2 f) s
def execFsumv (f : Full) (s : State) : Out := execX (semFsumv f) s
def execCmul (f : Full) (s : State) : Out := execX (semCmul f) s
def execCfma (f : Full) (s : State) : Out := execX (semCfma f) s
def execCconj (f : Full) (s : State) : Out := execX (semCconj f) s
def execCrcp (f : Full) (s : State) : Out := execX (semCrcp f) s

end Sys2Proof.Machine
end

