-- ==== Sys2Proof/Machine/Convert.lean ====
section
/-!
DEFINITION. Conversion, packing, comparison, selection and predicates (R300 to R307).
-/
namespace Sys2Proof.Machine

/-! ## CVT, SRND, PACK, UNPK (R300 to R303) -/

/-- STY in SB<3:0>; a word that names none is not well formed. -/
def styOf (f : Full) : Ety := (Ety.ofCode (f.sb.extractLsb' 0 4)).getD .bits
def cvtSE (f : Full) : Nat := f.bn / 16 % 4
def cvtDE (f : Full) : Nat := f.bn / 64 % 4

def semCvt (f : Full) : Sem :=
  let sty := styOf f
  alu f (fun l => [if f.ety.elems = 1 then opD f l else opDacc f l, opA f l sty]) (fun c _ t =>
    let x := (elemsOf sty (f.valA t sty)).getD (cvtSE f) 0
    let r := rndOf f c
    let v := convert sty f.ety r.md r.sat r.ftz x
    .fval f.dn f.ety (if f.ety.elems = 1 then v.1 else elemSet f.ety (f.valD t) (cvtDE f) v.1, v.2))

/-- One element of SRND: the random bits stand in the element's own field of b (R301). -/
def srndElem (f : Full) (b : Nat) (e x : Nat) : Nat × FFlags :=
  let w := 32 / f.ety.elems
  convert .f32 f.ety (.rs (b / 2 ^ (w * e) % 2 ^ w) w) f.sat f.ftz x

def semSrnd (f : Full) : Sem :=
  alu f (fun l => [opD f l, .src l 1 f.an f.ety.elems f.femA (some .f32)] ++ opB f l .bits) (fun _ _ t =>
    let b := f.valB t .bits
    .fval f.dn f.ety (joinElems f.ety ((List.range f.ety.elems).map (fun e =>
      srndElem f b e (t.val (f.an + e) 1)))))

/-- The expected type of PACK's sources (R302). -/
def packSrc (f : Full) : Ety :=
  match f.ety with
  | .ts8 => .bits
  | .s8 | .s16 => .s32
  | _ => .f32

/-- One packed element. -/
def packElem (f : Full) (r : Rnd) (x : Nat) : Nat × FFlags :=
  match f.ety with
  | .ts8 => (x % 256, 0)
  | .s8 | .s16 => (reduce f.ety f.sat (intOf .s32 x), 0)
  | t => convert .f32 t r.md r.sat r.ftz x

def semPack (f : Full) : Sem :=
  alu f (fun l => [if f.ety.elems = 2 then opD f l else opDacc f l, opA f l (packSrc f)] ++ opB f l (packSrc f))
    (fun c _ t =>
      let r := rndOf f c
      let a := packElem f r (f.valA t (packSrc f))
      let b := packElem f r (f.valB t (packSrc f))
      let h := f.lo3 % 2
      let d := if f.ety.elems = 2 then 0 else f.valD t
      .fval f.dn f.ety (elemSet f.ety (elemSet f.ety d (2 * h) a.1) (2 * h + 1) b.1, a.2 ||| b.2))

/-- One unpacked element (R303). -/
def unpkElem (f : Full) (x : Nat) : Nat × FFlags :=
  match f.ety with
  | .f32 => convert (styOf f) .f32 .rn false f.ftz x
  | .s32 => (reduce .s32 false (intOf (styOf f) x), 0)
  | _ => (x, 0)

def semUnpk (f : Full) : Sem :=
  alu f (fun l => [.dst l f.dn 2, opA f l (styOf f)]) (fun _ _ t =>
    let es := elemsOf (styOf f) (f.valA t (styOf f))
    let h := f.lo3 % 2
    let a := unpkElem f (es.getD (2 * h) 0)
    let b := unpkElem f (es.getD (2 * h + 1) 0)
    { vw := [(f.dn, [BitVec.ofNat 32 a.1], f.ety), (f.dn + 1, [BitVec.ofNat 32 b.1], f.ety)],
      flags := a.2 ||| b.2 })

/-! ## Comparison (R304) -/

/-- An integer condition. -/
def intCond (cc : Nat) (a b : Int) : Bool :=
  match cc with
  | 0 => a == b
  | 1 => a != b
  | 2 => decide (a < b)
  | 3 => decide (a ≤ b)
  | 4 => decide (b < a)
  | _ => decide (b ≤ a)

def semIcmp (f : Full) : Sem :=
  alu f (fun l => [opA f l f.ety] ++ opB f l f.ety) (fun _ _ t =>
    let ab := (elemsOf f.ety (f.valA t f.ety)).zip (elemsOf f.ety (f.valB t f.ety))
    { pw := [(f.dn, ab.all (fun p => intCond f.lo3 (intOf f.ety p.1) (intOf f.ety p.2)))] })

def semFcmp (f : Full) : Sem :=
  alu f (fun l => [opA f l f.ety] ++ opB f l f.ety) (fun _ _ t =>
    let ab := (elemsOf f.ety (f.valA t f.ety)).zip (elemsOf f.ety (f.valB t f.ety))
    let rs := ab.map (fun p => fCompare (Full.fmt f) f.ftz f.lo3 p.1 p.2)
    { pw := [(f.dn, rs.all (·.1))], flags := rs.foldl (fun a r => a ||| r.2) 0 })

/-! ## Selection and predicates (R305, R306) -/

/-- The selecting predicate. -/
def selPred (f : Full) (t : Thread) : Bool := t.pred f.lo3 != f.md.getLsbD 3

/-- a where the predicate holds, else b; the tag is ETY (R80). -/
def semSel (f : Full) : Sem :=
  { alu f (fun l => [opD f l, opA f l f.ety] ++ opB f l f.ety) (fun _ _ t =>
      .val f.dn f.ety (if selPred f t then f.valA t f.ety else f.valB t f.ety)) with wsrc := [pSoft f.lo3] }

def semPlog (f : Full) : Sem :=
  { alu f (fun _ => []) (fun _ _ t =>
      { pw := [(f.dn, f.md.getLsbD (2 * (t.pred f.an).toNat + (t.pred f.bn).toNat))] }) with
    wsrc := [pSoft f.an, pSoft f.bn] }

def semPmov (f : Full) : Sem :=
  if f.lo3 = 0 then
    { alu f (fun l => [.dst l f.dn 1]) (fun _ _ t => .val f.dn .n32 (t.pred f.an).toNat) with wsrc := [pSoft f.an] }
  else
    alu f (fun l => [opA f l .bits]) (fun _ _ t => { pw := [(f.dn, t.reg f.an != 0)] })

/-! ## VOTE (R307) -/

/-- Active lanes in which Pa holds. -/
def ballot (f : Full) (c : Ctx) : Mask := maskOf (c.lanes.filter (fun l => (c.rd.thread l).pred f.an))

def semVote (f : Full) : Sem :=
  { alu f (fun l => match f.lo3 with | 2 => [.dst l f.dn 1] | 3 => [.dst l f.dn 2] | _ => []) (fun c _ _ =>
      let b := ballot f c
      match f.lo3 with
      | 0 => { pw := [(f.dn, b == c.act)] }
      | 1 => { pw := [(f.dn, b != 0)] }
      | 2 => .val f.dn .n32 (lanesOf b).length
      | _ => .val f.dn .n64 b.toNat) with wsrc := [pSoft f.an] }

def execCvt (f : Full) (s : State) : Out := execX (semCvt f) s
def execSrnd (f : Full) (s : State) : Out := execX (semSrnd f) s
def execPack (f : Full) (s : State) : Out := execX (semPack f) s
def execUnpk (f : Full) (s : State) : Out := execX (semUnpk f) s
def execIcmp (f : Full) (s : State) : Out := execX (semIcmp f) s
def execFcmp (f : Full) (s : State) : Out := execX (semFcmp f) s
def execSel (f : Full) (s : State) : Out := execX (semSel f) s
def execPlog (f : Full) (s : State) : Out := execX (semPlog f) s
def execPmov (f : Full) (s : State) : Out := execX (semPmov f) s
def execVote (f : Full) (s : State) : Out := execX (semVote f) s

end Sys2Proof.Machine
end

