-- ==== Sys2Proof/Machine/Exchange.lean ====
section
/-!
DEFINITION. Lane exchange and lane reductions (R308 to R311).
-/
namespace Sys2Proof.Machine

/-- Operand a read in thread `p` for lane `l` (R308). -/
def partner (f : Full) (p : Nat) : Opnd := { opA f p f.ety with part := true }

/-- An exchange: `from_` names the thread each lane takes a from. -/
def exchange (f : Full) (extra : Nat → List Opnd) (from_ : Wave → Nat → Nat) : Sem :=
  { Sem.plain f with
    ops := fun _ w l =>
      -- while the index is empty, the partner is not known: only the name and the tag of a are checked
      let known := !(extra l).any (fun o => !(o.empties w).isEmpty)
      [opD f l, if known then partner f (from_ w l) else { partner f l with rd := false }] ++ extra l
    body := lanewise (fun c l _ => .val f.dn f.ety (f.valA (c.rd.thread (from_ c.rd l)) f.ety)) }

/-- The butterfly partner (R309). -/
def lxbFrom (f : Full) (w : Wave) (l : Nat) : Nat := l ^^^ (f.md.toNat % 64 &&& (w.width - 1))
def semLxb (f : Full) : Sem := exchange f (fun _ => []) (lxbFrom f)

/-- The source thread of LXS (R310). -/
def lxsFrom (f : Full) (w : Wave) (l : Nat) : Nat :=
  let j := f.valB (w.thread l) .n32
  match f.md.toNat with
  | 0 => j % w.width
  | 1 => if j ≤ l then l - j else l
  | _ => if l + j < w.width then l + j else l
def semLxs (f : Full) : Sem := exchange f (fun l => opB f l .n32) (lxsFrom f)

def lxbcFrom (f : Full) (w : Wave) (_ : Nat) : Nat := f.md.toNat % 64 % w.width
def semLxbc (f : Full) : Sem := exchange f (fun _ => []) (lxbcFrom f)

/-! ## LXRD (R311) -/

/-- Threads of one segment. -/
def segSize (f : Full) (w : Wave) : Nat := min (2 ^ (f.md.toNat / 8)) w.width

/-- One step of the reduction on one element. -/
def lxrdStep (f : Full) (a b : Nat) : Nat × FFlags :=
  let i (op : Int → Int → Int) : Nat × FFlags := (reduce f.ety false (op (intOf f.ety a) (intOf f.ety b)), 0)
  if f.ety.isFloat then
    match f.lo3 with
    | 0 => fAdd (Full.fmt f) .plain a b
    | 1 => fMinMax (Full.fmt f) false false a b
    | _ => fMinMax (Full.fmt f) true false a b
  else
    match f.lo3 with
    | 0 => i (· + ·)
    | 1 => i min
    | 2 => i max
    | 3 => (a &&& b, 0)
    | 4 => (a ||| b, 0)
    | _ => (a ^^^ b, 0)

/-- One step on every element of a register value. -/
def lxrdVal (f : Full) (a b : Nat) : Nat × FFlags :=
  joinElems f.ety (List.zipWith (lxrdStep f) (elemsOf f.ety a) (elemsOf f.ety b))

/-- The reduction over the Active lanes of a segment, in increasing thread index; a step's flags belong
to the lane whose value it takes in. -/
def lxrdSeg (f : Full) (c : Ctx) (ls : List Nat) : Nat × List (Nat × FFlags) :=
  match ls.map (fun l => (l, f.valA (c.rd.thread l) f.ety)) with
  | [] => (0, [])
  | (_, x) :: xs => sumLanes (lxrdVal f) x xs

def semLxrd (f : Full) : Sem :=
  { Sem.plain f with
    ops := fun s w l =>
      let n := segSize f w
      let mates := (lanesOf (curMask s w.uid)).filter (fun p =>
        p / n == l / n && f.grd.holds (w.thread p))
      [opD f l, { partner f l with rd := false }] ++ mates.map (partner f)
    fpx := false
    body := fun s c =>
      let n := segSize f c.rd
      let first := if c.rd.resumes then c.rd.progIndex else 0
      let segs := (List.range (c.rd.width / n)).map (fun g =>
        lxrdSeg f c (c.lanes.filter (fun l => l / n == g)))
      let v (l : Nat) : Nat × List (Nat × FFlags) := segs.getD (l / n) (0, [])
      longOp false ((List.range (c.rd.width / n)).filter (first < ·)) (fun upto =>
        match upto with
        | some k => writePart f (fun l => first ≤ l / n && l / n < k) (fun l => (v l).1) (fun l => laneFlags (v l).2 l) s c
        | none =>
          produce (fun _ l _ => (f.dn, f.ety, (v l).1, laneFlags (v l).2 l)) f s
            { c with act := maskOf (c.lanes.filter (fun l => first ≤ l / n)) }) s c }

def execLxb (f : Full) (s : State) : Out := execX (semLxb f) s
def execLxs (f : Full) (s : State) : Out := execX (semLxs f) s
def execLxbc (f : Full) (s : State) : Out := execX (semLxbc f) s
def execLxrd (f : Full) (s : State) : Out := execX (semLxrd f) s

end Sys2Proof.Machine
end

