-- ==== Sys2Proof/Machine/Move.lean ====
section
/-!
DEFINITION. Register movement, index registers, special registers, the operand window and register
acquisition (R312 to R319, R242, R66 to R74).
-/
namespace Sys2Proof.Machine

/-! ## Moves (R312, R313) -/

/-- The tag that MOV and MOVXW with ETY BITS write. R80 lets MOV alone copy the source's tag and R313 gives MOVXW
a's tag as well; the model follows R313, which speaks of the one instruction (DEDUCED, log entry 92). -/
def moveTag (f : Full) (w : Wave) (r : Nat) : Ety := if f.ety == .bits then w.tag r else f.ety

def semMov (f : Full) : Sem :=
  alu f (fun l => [opD f l, opA f l f.ety]) (fun c _ t =>
    { vw := [(f.dn, natWords f.ety.regs (f.valA t f.ety), moveTag f c.rd f.an)] })

def semMovi (f : Full) : Sem :=
  alu f (fun l => [if f.lo3 = 1 then opDacc f l else opD f l]) (fun _ _ t =>
    .val f.dn f.ety (if f.lo3 = 1 then f.imm16.toNat * 2 ^ 16 + (t.reg f.dn).toNat % 2 ^ 16 else immValue f.ety f.imm16))

/-- The name of an indexed operand in a lane (R228). -/
def indexedReg (f : Full) (base : Nat) (t : Thread) : Int := base + sext16 (t.xreg (f.md.toNat % 4))

/-- The X register of an indexed name, by its soft-error mark. -/
def indexSrc (f : Full) : List Nat := [xSoft (f.md.toNat % 4)]

/-- A name that does not fit the type's alignment (R313). -/
def misaligned (f : Full) (n : Int) : Bool := n % f.ety.regs != 0

def semMovx (f : Full) : Sem :=
  { Sem.plain f with
    ops := fun _ w l =>
      let n := indexedReg f f.an (w.thread l)
      [opD f l, { Opnd.src l 1 0 f.ety.regs f.femA (some f.ety) with
        reg := n, idx := true, odd := misaligned f n }]
    wsrc := indexSrc f
    body := lanewise (fun _ _ t =>
      let n := (indexedReg f f.an t).toNat
      { vw := [(f.dn, t.regs n f.ety.regs, f.ety)] }) }

def semMovxw (f : Full) : Sem :=
  { Sem.plain f with
    ops := fun _ w l =>
      let n := indexedReg f f.dn (w.thread l)
      [{ Opnd.dst l 0 f.ety.regs with reg := n, idx := true, odd := misaligned f n }, opA f l f.ety]
    wsrc := indexSrc f
    body := lanewise (fun c _ t =>
      { vw := [((indexedReg f f.dn t).toNat, natWords f.ety.regs (f.valA t f.ety), moveTag f c.rd f.an)] }) }

/-! ## SETX (R314) -/

/-- Reduction to 16 bits. -/
def reduce16 (clamp : Bool) (v : Int) : BitVec 16 :=
  BitVec.ofInt 16 (if clamp then max (-32768) (min 32767 v) else v)

def semSetx (f : Full) : Sem :=
  if f.lo3 % 4 = 2 then
    { alu f (fun l => [.dst l f.dn 1]) (fun _ _ t =>
        .val f.dn .s32 (reduce .s32 false (sext16 (t.xreg f.an)))) with wsrc := [xSoft f.an] }
  else
    { alu f (fun l => if f.imm? then [] else [opA f l .s32]) (fun _ _ t =>
        let v := if f.imm? then sext16 f.imm16 else intOf .s32 (f.valA t .s32)
        let old := if f.lo3 % 4 = 1 then sext16 (t.xreg f.dn) else 0
        { xw := [(f.dn, reduce16 (f.md.getLsbD 2) (old + v))] }) with
      wsrc := if f.lo3 % 4 = 1 then [xSoft f.dn] else [] }

/-! ## Special registers (R241, R242) -/

/-- The value of a special register in a lane. -/
def readSpecial (s : State) (c : Ctx) (l n : Nat) : Nat :=
  let w := c.rd
  let tm (g : Team → Nat) : Nat := match c.team with | some t => g t | none => 0
  match n with
  | 0x00 => w.lane + l
  | 0x01 => w.num
  | 0x02 => tm (·.n) % 2 ^ 32
  | 0x03 => tm (·.x)
  | 0x04 => tm (·.y)
  | 0x05 => tm (·.z)
  | 0x06 => w.width
  | 0x07 => w.core
  | 0x08 => w.quad
  | 0x09 => tm (·.gang)
  | 0x0A => w.base
  | 0x0B => w.ext
  | 0x0C => tm (fun t => t.lq * 2 ^ 26 + t.lk % 2 ^ 26)
  | 0x10 => if c.hm then w.cause.toNat else 0
  | 0x11 => if c.hm then w.epc.toNat else 0
  | 0x12 => if c.hm then (w.thread l).tval.toNat else 0
  | 0x13 => w.prog.toNat
  | 0x14 => w.abort.toNat
  | 0x15 => w.hwm
  | 0x16 => (s.quad w.qn).cyc.toNat
  | 0x17 => w.fpstat.toNat
  | 0x18 => w.fpctl.toNat
  | 0x19 => w.txdepth
  | 0x1A => w.winhit.toNat
  | 0x30 => w.handler.toNat
  | n => w.cnt.get (n - 0x20)

def semGets (f : Full) : Sem :=
  { Sem.plain f with
    ops := fun _ _ l => [opD f l]
    body := fun s c => lanewise (fun c l _ => .val f.dn f.ety (readSpecial s c l f.imm16.toNat)) s c }

/-- Write a special register (R95, R96, R191, R242). %handler is a program counter: its three low bits stay zero (R173). -/
def writeSpecial (w : Wave) (n : Nat) (v : Word) (raised : BitVec 5) : Wave :=
  match n with
  | 0x13 => { w with prog := v &&& 0xC0FFFFFF }
  | 0x14 => { w with abort := v &&& 0xFFFF }
  | 0x17 => { w with fpstat := clearFlags w.fpstat v raised }
  | 0x18 => { w with fpctl := v &&& 0xFF }
  | _ => { w with handler := v &&& 0xFFFFFFF8 }

/-- A SETS of %fpctl that offers a reserved RM (R95). -/
def badMode (n : Nat) (v : Word) : Bool := n == 0x18 && v.extractLsb' 5 3 ≥ 5#3

/-- SETS (R95, R317). A reserved RM is ILLEGAL in every issuing lane of the wave that offers it; another wave of the
issue group that offers a legal one has its SETS done (DEDUCED, log entry 28). -/
def setsBody (f : Full) (s : State) (c : Ctx) : Res :=
  let n := f.imm16.toNat
  let v := (c.rd.thread (c.lanes.headD 0)).reg f.an
  if badMode n v then
    { st := s, traps := (lanesOf c.grp).map (fun l => ⟨l, .illegal, v.zeroExtend 64, 0⟩) }
  else
    let raised := allFlags (c.iss.raised.filter (·.1 == c.u))
    { st := s.mapWave c.u (fun w => writeSpecial w n v raised) }

def semSets (f : Full) : Sem :=
  { Sem.plain f with
    ops := fun s w l => [opWave f (opA f · f.ety) s w l]
    legal := fun _ _ hm => hm || (match specialReg f.imm16.toNat with | some (_, 2) => false | _ => true)
    body := setsBody f }

/-! ## WMOV (R315, R387) -/

/-- The `.q` form (R387). -/
def wmovQ (f : Full) : Bool := f.md.getLsbD 2
def readWQ (q : Bool) (w : Wave) (n : Nat) : Word := if q then w.qreg n else w.wreg n
def writeWQ (q : Bool) (w : Wave) (n : Nat) (v : Word) : Wave := if q then w.setQ n v else w.setW n v

def semWmov (f : Full) : Sem :=
  { Sem.plain f with
    ops := fun s w l => match f.lo3 % 4 with | 0 => [opD f l] | 1 => [opWave f (opA f · f.ety) s w l] | _ => []
    wsrc := if f.lo3 % 4 = 1 then [] else if wmovQ f then [qSoft f.an] else [f.an]
    legal := fun _ _ hm => !wmovQ f || hm
    body := fun s c =>
      if f.lo3 % 4 = 0 then
        lanewise (fun c _ _ => .val f.dn f.ety (readWQ (wmovQ f) c.rd f.an).toNat) s c
      else
        let v := if f.lo3 % 4 = 1 then (c.rd.thread (c.lanes.headD 0)).reg f.an
                 else readWQ (wmovQ f) c.rd f.an
        { st := s.mapWave c.u (fun w => writeWQ (wmovQ f) w f.dn v) } }

/-! ## The operand window (R71, R316) -/

/-- Copy registers into the window: an uncorrectable soft error is copied with its register. -/
def loadWindow (w : Wave) (a n : Nat) : Wave :=
  { w with winFirst := a, winLen := n, threads := w.threads.map (fun t =>
      { t with soft := t.soft.filter (fun m => !(2048 ≤ m && m < 4096)) ++
          ((rangeFrom a n).filter t.soft.contains).map (2048 + ·) }) }

def emptyWindow (w : Wave) : Wave := loadWindow w 0 0

/-- WIN. A range that begins beyond B + E reports B + E as well: R316 gives that number for this word, where R68
would give Va (log entry 58). -/
def semWin (f : Full) : Sem :=
  { Sem.plain f with
    body := fun s c =>
      let n := f.imm16.toNat
      if f.an + n > c.rd.top then
        { st := s, traps := c.lanes.map (fun l => ⟨l, .regbound, BitVec.ofNat 64 c.rd.top, 0⟩) }
      else { st := s.mapWave c.u (fun w => loadWindow w f.an n) } }

/-! ## Register acquisition (R66, R67, R73, R74, R317) -/

/-- Registers of one quadrant lane (R25). -/
def regsPerLane (s : State) (core : Nat) : Nat :=
  ((s.core core).part.extractLsb' 0 8).toNat / 4 * 64

def Wave.covers (w : Wave) (ql : Nat) : Bool := w.lane ≤ ql && ql < w.lane + w.width

/-- Registers in use or in quarantine in a quadrant lane (R73). -/
def regsUsed (s : State) (qn ql : Nat) : Nat :=
  (s.waves.filter (fun w => w.qn == qn && !w.retired && w.covers ql)).foldl (fun n w => n + w.top)
    ((s.quad qn).quar.countP (·.lane == ql))

/-- Registers of a quadrant lane that an XREL as the second word of the cycle releases: they count as free in this
cycle, but for those in quarantine (R73, R317). -/
def releasing (s : State) (qn ql : Nat) : Nat :=
  match (s.quad qn).second with
  | none => 0
  | some j =>
    match (fetch s j.key).2 with
    | .xrel f =>
      let n := f.imm16.toNat
      let by_ (p : Part) : Nat :=
        match s.wave? p.wave with
        | some v =>
          if v.covers ql && n ≤ v.ext && (lanesOf p.mask).any (fun l => f.grd.holds (v.thread l)) then
            n - ((v.thread (ql - v.lane)).pend.countP (v.top - n ≤ ·.1))
          else 0
        | none => 0
      if j.inTx then 0 else (j.parts.map by_).sum
    | _ => 0

/-- `n` registers are free in each of these quadrant lanes. -/
def regsFree (s : State) (qn lane width n : Nat) : Bool :=
  (rangeFrom lane width).all (fun ql => regsUsed s qn ql + n ≤ regsPerLane s (qn / 4) + releasing s qn ql)

/-- The lanes of two waves overlap. -/
def overlap (a b : Wave) : Bool := a.lane < b.lane + b.width && b.lane < a.lane + a.width

/-- An earlier waiting request whose lanes overlap the wave's (R74). -/
def heldBack (s : State) (w : Wave) (earlier : List (Nat × Nat × Nat)) : Bool :=
  earlier.any (fun r => match s.wave? r.2.1 with | some v => overlap v w | none => false)

/-- The quota of R66. -/
def overQuota (s : State) (w : Wave) (n : Nat) : Bool :=
  w.top + n > 2048 ||
    (match s.team? w.team with | some t => w.ext + n > t.desc.maxe | none => true)

/-- An extension is granted from the plots of the wave's quadrant (R27, log entry 23). -/
def markGrant (s : State) (w : Wave) : State :=
  match s.team? w.team with
  | none => s
  | some t => markRegPlots s w.core t.ctx (w.quad * (t.rf / 4)) (t.rf / 4) false

/-- Grant n registers: zero, full, tag BITS (R66). -/
def grantRegs (w : Wave) (n : Nat) : Wave :=
  let top := w.top
  { w with
    ext := w.ext + n
    tags := w.tags.filter (·.1 < top)
    threads := w.threads.map (fun t =>
      { t with v := t.v.filter (·.1 < top), pend := t.pend.filter (·.1 < top) }) }

def xgetBody (f : Full) (s : State) (c : Ctx) : Res :=
  let n := f.imm16.toNat
  match s.wave? c.u with
  | none => { st := s }
  | some w =>
    if overQuota s w n then
      { st := s, traps := c.lanes.map (fun l => ⟨l, .xquota, BitVec.ofNat 64 n, 0⟩) }
    else if regsFree s w.qn w.lane w.width n && !heldBack s w (s.quad w.qn).xq then
      { st := markGrant (s.mapWave c.u (fun w => grantRegs w n)) w }
    else
      let (id, s) := s.newId
      let s := s.mapQuad w.qn (fun q => { q with xq := q.xq ++ [(id, c.u, n)] })
      { st := c.lanes.foldl (fun s l => startWait s c.u l (.xget id)) s, stay := c.act }

def semXget (f : Full) : Sem :=
  { Sem.plain f with forbid := fun _ => true, body := xgetBody f }

def xgetPBody (f : Full) (s : State) (c : Ctx) : Res :=
  let n := f.imm16.toNat
  match s.wave? c.u with
  | none => { st := s }
  | some w =>
    if overQuota s w n then
      { st := s, traps := c.lanes.map (fun l => ⟨l, .xquota, BitVec.ofNat 64 n, 0⟩) }
    else
      let ok := regsFree s w.qn w.lane w.width n && !heldBack s w (s.quad w.qn).xq
      let s := if ok then markGrant (s.mapWave c.u (fun w => grantRegs w n)) w else s
      { st := s.mapWave c.u (fun w => w.mapLanes c.act (fun _ t => t.setPred f.dn ok)) }

def semXgetP (f : Full) : Sem :=
  { Sem.plain f with forbid := fun _ => true, body := xgetPBody f }

/-- Release the highest n registers: those with a write in flight go into quarantine (R67, R73). -/
def releaseRegs (s : State) (u n : Nat) : State :=
  match s.wave? u with
  | none => s
  | some w =>
    let top := w.top - n
    let qs := (w.threads.mapIdx (fun i t =>
      (t.pend.filter (top ≤ ·.1)).map (fun e => (⟨w.lane + i, e.2, e.1⟩ : Quar)))).flatten
    let s := s.mapQuad w.qn (fun q => { q with quar := q.quar ++ qs })
    s.mapWave u (fun w =>
      let w := { w with
        ext := w.ext - n
        tags := w.tags.filter (·.1 < top)
        threads := w.threads.map (fun t =>
          { t with v := t.v.filter (·.1 < top), pend := t.pend.filter (·.1 < top),
                   soft := t.soft.filter (fun m => !(top ≤ m && m < 2048)) }) }
      if w.winFirst + w.winLen > top then emptyWindow w else w)

def xrelBody (f : Full) (s : State) (c : Ctx) : Res :=
  let n := f.imm16.toNat
  match s.wave? c.u with
  | none => { st := s }
  | some w =>
    if n > w.ext then
      { st := s, traps := c.lanes.map (fun l => ⟨l, .xquota, BitVec.ofNat 64 n, 0⟩) }
    else { st := releaseRegs s c.u n }

def semXrel (f : Full) : Sem :=
  { Sem.plain f with forbid := fun _ => true, body := xrelBody f }

/-! ## TAG and SETF (R318, R319) -/

def tagBody (f : Full) (s : State) (c : Ctx) : Res :=
  let (s, ok) := if c.tx then logRegs s c.u (rangeFrom f.dn f.ety.regs) else (s, true)
  if ok then { st := s.mapWave c.u (fun w => w.setTags f.dn f.ety f.ety.regs) }
  else { st := s, abort := fullAbort c 4 }

def semTag (f : Full) : Sem :=
  if f.lo3 = 0 then { Sem.plain f with ops := fun _ _ l => [opD f l], body := tagBody f }
  else
    alu f (fun l => [.dst l f.dn 1, .src l 1 f.an 1 f.femA none]) (fun c _ _ =>
      .val f.dn .n32 (c.rd.tag f.an).code.toNat)

def semSetf (f : Full) : Sem :=
  { Sem.plain f with
    fpx := false
    wsrc := [f.an]
    body := fun s c =>
      { st := raiseFlags s c.u c.qn [(0, (c.rd.wreg f.an).extractLsb' 0 5)] } }

def execMov (f : Full) (s : State) : Out := execX (semMov f) s
def execMovi (f : Full) (s : State) : Out := execX (semMovi f) s
def execMovx (f : Full) (s : State) : Out := execX (semMovx f) s
def execMovxw (f : Full) (s : State) : Out := execX (semMovxw f) s
def execSetx (f : Full) (s : State) : Out := execX (semSetx f) s
def execGets (f : Full) (s : State) : Out := execX (semGets f) s
def execSets (f : Full) (s : State) : Out := execX (semSets f) s
def execWmov (f : Full) (s : State) : Out := execX (semWmov f) s
def execWin (f : Full) (s : State) : Out := execX (semWin f) s
def execXget (f : Full) (s : State) : Out := execX (semXget f) s
def execXgetP (f : Full) (s : State) : Out := execX (semXgetP f) s
def execXrel (f : Full) (s : State) : Out := execX (semXrel f) s
def execTag (f : Full) (s : State) : Out := execX (semTag f) s
def execSetf (f : Full) (s : State) : Out := execX (semSetf f) s

end Sys2Proof.Machine
end

