-- ==== Sys2Proof/Machine/Waves.lean ====
section
/-!
DEFINITION. The active and the pending set of a quadrant (R56 to R62, R464).
-/
namespace Sys2Proof.Machine

/-- Threads that hold or will hold a table entry. -/
def Wave.free (w : Wave) : List Nat :=
  (lanesOf w.running).filter (fun i => (w.thread i).wait == .none)

/-- Some thread waits on a swap trigger (R56). -/
def Wave.triggered (w : Wave) : Bool :=
  (lanesOf w.running).any (fun i => (w.thread i).wait.swaps)

/-- A pending wave is ready (R56). -/
def Wave.isReady (w : Wave) : Bool := !w.triggered

/-- An active wave is blocked (R57): no thread can issue, and one waits on a swap trigger. -/
def Wave.isBlocked (w : Wave) : Bool := w.triggered && w.free.all w.stuck.getLsbD

/-- The ready pending wave nearest the head (R59). -/
def nextReady (s : State) (qn : Nat) : Option Nat :=
  (s.quad qn).pending.find? (fun u => match s.wave? u with | some w => w.isReady | none => false)

/-- A wave leaves the active set for the tail of the pending set. -/
def toPending (s : State) (qn u : Nat) : State :=
  s.mapQuad qn (fun q =>
    { q with
      active := q.active.filter (· != u), pending := q.pending ++ [u],
      blocked := q.blocked.filter (· != u), yieldDue := q.yieldDue.filter (· != u),
      quantumDue := q.quantumDue.filter (· != u) })

/-- A pending wave enters the active set; its quantum counter restarts (R61). -/
def toActive (s : State) (qn u : Nat) : State :=
  (s.mapQuad qn (fun q =>
    { q with active := q.active ++ [u], pending := q.pending.filter (· != u) })).mapWave u
      (fun w => { w with quantum := 0 })

/-- Exchange a wave with the ready pending wave nearest the head; false when there is none. -/
def exchangeWave (s : State) (qn u : Nat) : State × Bool :=
  match nextReady s qn with
  | some p => (toActive (toPending s qn u) qn p, true)
  | none => (s, false)

/-- The active waves that are blocked, the one that blocked earliest first (R59); of those that block in one cycle the
one first in the active set, the model's choice (log entry 43). -/
def trackBlocked (s : State) (qn : Nat) : State :=
  let q := s.quad qn
  let isB (u : Nat) : Bool :=
    q.active.contains u && (match s.wave? u with | some w => w.isBlocked | none => false)
  let kept := q.blocked.filter isB
  let new := q.active.filter (fun u => isB u && !kept.contains u)
  s.mapQuad qn (fun q => { q with blocked := kept ++ new })

/-- The quadrant's single swap of a cycle (R464): a blocked active wave, then a YIELD, then an expired
quantum; a YIELD or quantum move that finds no ready pending wave lapses. Of several YIELDs, or of several quanta, the
one that became due first goes first, the model's choice (log entry 43). -/
def firstMove (s : State) (qn : Nat) : State :=
  let s := trackBlocked s qn
  let q := s.quad qn
  match q.blocked, nextReady s qn with
  | b :: _, some _ => (exchangeWave s qn b).1
  | _, _ =>
    match q.yieldDue with
    | y :: ys => (exchangeWave (s.mapQuad qn (fun q => { q with yieldDue := ys })) qn y).1
    | [] =>
      match q.quantumDue with
      | z :: zs =>
        let s := s.mapQuad qn (fun q => { q with quantumDue := zs })
        let (s, ok) := exchangeWave s qn z
        if ok then s else s.mapWave z (fun w => { w with quantum := 0 })
      | [] => s

/-- The first move takes the cycle's single swap (R59). -/
def swapMove (s : State) (qn : Nat) : State :=
  (firstMove s qn).mapQuad qn (fun q => { q with swapped := true })

/-- Some move is due and the cycle's swap has not been taken (R464). -/
def swapDue (s : State) (qn : Nat) : Bool :=
  let s := trackBlocked s qn
  let q := s.quad qn
  !q.swapped && ((!q.blocked.isEmpty && (nextReady s qn).isSome) || !q.yieldDue.isEmpty || !q.quantumDue.isEmpty)

/-- A move of this wave that is due stands first and may be the cycle's swap (R464): for a quantum, no YIELD is
due. -/
def standsFirst (s : State) (qn : Nat) (yield : Bool) (u : Nat) : Bool :=
  let s := trackBlocked s qn
  let q := s.quad qn
  !q.swapped && q.second.isNone && (q.blocked.isEmpty || (nextReady s qn).isNone) &&
    (if yield then q.yieldDue.head? == some u else q.yieldDue.isEmpty && q.quantumDue.head? == some u)

/-- A wave at YIELD (R60): its move is due, and it is performed at once when it stands first, the cycle's swap has
not been taken and no second word of the cycle stands by (R284, R464). YIELDs that become due in one step stand in the
order of the issuing group's waves (log entry 43). -/
def yieldWave (s : State) (i : Issue) (u : Nat) : State :=
  let qn := i.core * 4 + i.quad
  let s := s.mapQuad qn (fun q =>
    if q.yieldDue.contains u then q else { q with yieldDue := q.yieldDue ++ [u] })
  if standsFirst s qn true u then swapMove s qn else s

end Sys2Proof.Machine
end

