-- ==== Sys2Proof/Machine/Control.lean ====
section
/-!
DEFINITION. Control instructions (R320 to R323, R53 to R55, R60, R63).
-/
namespace Sys2Proof.Machine

def semBra (f : Full) : Sem := alu f (fun _ => []) (fun c _ _ => { go := some (relTarget c.pc f.imm16) })

def semBrw (f : Full) : Sem :=
  { alu f (fun _ => []) (fun c _ _ =>
    { go := if (c.rd.wreg f.an != 0) != (f.lo3 % 2 == 1) then some (relTarget c.pc f.imm16) else none }) with
    wsrc := [f.an] }

/-- Wd falls once for each issue (R321). -/
def semLoopw (f : Full) : Sem :=
  { Sem.plain f with
    wsrc := [f.dn]
    body := fun s c =>
      let v := c.rd.wreg f.dn - 1
      { st := s.mapWave c.u (fun w => w.setW f.dn v),
        go := if v = 0 then [] else c.lanes.map (fun l => (l, relTarget c.pc f.imm16)) } }

/-- A computed target (R320). -/
def jumpTo (a : Word) : LaneOut :=
  if a.toNat % 8 = 0 then { go := some a } else { trap := some (.illegal, a.zeroExtend 64) }

def semBrx (f : Full) : Sem := alu f (fun l => [opA f l .n32]) (fun _ _ t => jumpTo (t.reg f.an))
def semRet (f : Full) : Sem := alu f (fun l => [opA f l .n32]) (fun _ _ t => jumpTo (t.reg f.an))

def semCall (f : Full) : Sem :=
  alu f (fun l => [.dst l f.dn 1]) (fun c _ _ =>
    { vw := [(f.dn, [pcNext c.pc], .n32)], go := some (relTarget c.pc f.imm16) })

/-- JPT (R53). -/
def jptBody (f : Full) (s : State) (c : Ctx) : Res :=
  if c.hm then { st := s }
  else
    match s.wave? c.u with
    | none => { st := s }
    | some w =>
      let x := w.join? f.lo3
      let target := relTarget c.pc f.imm16
      if x.valid && x.pc != target then
        { st := s, traps := c.lanes.map (fun l => ⟨l, .illegal, c.iss.word, 0⟩) }
      else
        let x := if x.valid then { x with exp := x.exp ||| c.act } else ⟨true, target, c.act, 0⟩
        { st := s.mapWave c.u (fun w => w.setJoin f.lo3 x) }

def semJpt (f : Full) : Sem := { Sem.plain f with body := jptBody f }

/-- JOIN (R54): expected threads arrive and wait; the slot is tested. -/
def joinBody (f : Full) (s : State) (c : Ctx) : Res :=
  if c.hm then { st := s }
  else
    match s.wave? c.u with
    | none => { st := s }
    | some w =>
      let x := w.join? f.lo3
      let arrive := if x.valid then c.act &&& x.exp else 0
      if arrive == 0 then { st := s }
      else
        { st := s.mapWave c.u (fun w =>
            ((w.setWait arrive (.join f.lo3)).setJoin f.lo3 { x with arr := x.arr ||| arrive }).joinTest f.lo3),
          stay := arrive }

def semJoin (f : Full) : Sem := { Sem.plain f with body := joinBody f }

def semYield (f : Full) : Sem :=
  { Sem.plain f with
    body := fun s c => if c.hm then { st := s } else { st := yieldWave s c.iss c.u } }

/-- EXIT (R63); in handler mode it clears RETM (R181, R322). -/
def semExit (f : Full) : Sem :=
  { Sem.plain f with
    forbid := fun _ => true
    body := fun s c =>
      if c.hm then { st := s.mapWave c.u (fun w => { w with retm := w.retm &&& ~~~ c.act }) }
      else { st := retireIfDone (s.mapWave c.u (fun w => exitLanes w c.act)) c.u, stay := c.act } }

def semNop (f : Full) : Sem := Sem.plain f

/-- BREAK as an after cause (R323). -/
def breakBody (f : Full) (trap : Bool) (s : State) (c : Ctx) : Res :=
  { st := s,
    traps := c.lanes.map (fun l =>
      ⟨l, .break, BitVec.ofNat 64 (f.imm16.toNat + (if trap then 2 ^ 16 else 0)), 0⟩) }

def semTrap (f : Full) : Sem := { Sem.plain f with body := breakBody f true }
def semBrk (f : Full) : Sem := { Sem.plain f with body := breakBody f false }

def execBra (f : Full) (s : State) : Out := execX (semBra f) s
def execBrw (f : Full) (s : State) : Out := execX (semBrw f) s
def execLoopw (f : Full) (s : State) : Out := execX (semLoopw f) s
def execBrx (f : Full) (s : State) : Out := execX (semBrx f) s
def execCall (f : Full) (s : State) : Out := execX (semCall f) s
def execRet (f : Full) (s : State) : Out := execX (semRet f) s
def execJpt (f : Full) (s : State) : Out := execX (semJpt f) s
def execJoin (f : Full) (s : State) : Out := execX (semJoin f) s
def execYield (f : Full) (s : State) : Out := execX (semYield f) s
def execExit (f : Full) (s : State) : Out := execX (semExit f) s
def execNop (f : Full) (s : State) : Out := execX (semNop f) s
def execTrap (f : Full) (s : State) : Out := execX (semTrap f) s
def execBrk (f : Full) (s : State) : Out := execX (semBrk f) s

end Sys2Proof.Machine
end

