-- ==== Sys2Proof/Machine/Pair.lean ====
section
/-!
DEFINITION. Pair-form words (R237 to R240): both halves issue in the same lanes, each under its own
guard.
-/
namespace Sys2Proof.Machine

/-- A half with the registers that its fields name: half 0 names even registers, half 1 odd ones
(R238). -/
structure HalfOps where
  op  : HalfOp
  h   : Half
  d   : Nat
  src : Nat
deriving DecidableEq, Repr

def HalfOps.of (x : HalfWord) (odd : Nat) : HalfOps :=
  ⟨x.op, x.h, 2 * x.h.dst.toNat + odd, 2 * x.h.src.toNat + odd⟩

def HalfOps.grd (x : HalfOps) : Guard := ⟨false, x.h.gd2.zeroExtend 3⟩
def HalfOps.ety (x : HalfOps) : Ety := x.h.et2.ety
/-- The type of S (R240). -/
def HalfOps.sty (x : HalfOps) : Ety :=
  match x.op with
  | .cvt => if x.h.et2 == .f32 then (if x.h.m3 < 4 then .s32 else .n32) else .f32
  | .shl | .shr | .sar => .n32
  | _ => x.ety

/-- Source A is D and source B is S; a unary half reads S alone (R238). FORMAT reports the register that is
destination and first source with code 1, as source A (log entry 57). -/
def HalfOps.ops (x : HalfOps) (l : Nat) : List Opnd :=
  let g (o : Opnd) : Opnd := { o with grd := x.grd }
  if x.op.unary then
    [g (.dst l x.d 1)] ++ (if x.h.imm? then [] else [g (.src l 1 x.src 1 false (some x.sty))])
  else
    [g { Opnd.acc l x.d 1 false (some x.ety) with code := 1 }] ++
      (if x.h.imm? then [] else [g (.src l 2 x.src 1 false (some x.sty))])

/-- Rounding of a float half (R240). -/
def HalfOps.rnd (x : HalfOps) (w : Wave) : Rnd := ⟨w.rmode x.h.m3, false, false⟩

/-- The result of a half in a lane, from D and S. -/
def HalfOps.result (x : HalfOps) (w : Wave) (d b : Nat) : Nat × FFlags :=
  let t := x.ety
  let i (sat : Bool) (op : Int → Int → Int) : Nat × FFlags := (reduce t sat (op (intOf t d) (intOf t b)), 0)
  let sat := x.h.m3 == 1
  match x.op with
  | .iadd => i sat (· + ·)
  | .isub => i sat (· - ·)
  | .imul => i sat (· * ·)
  | .imin => i false min
  | .imax => i false max
  | .and => (d &&& b, 0)
  | .or => (d ||| b, 0)
  | .xor => (d ^^^ b, 0)
  | .shl => (d * 2 ^ (b % 32) % 2 ^ 32, 0)
  | .shr => (d / 2 ^ (b % 32), 0)
  | .sar => (reduce t false (intOf t d / (2 ^ (b % 32) : Nat)), 0)
  | .fadd => fAdd .f32 (x.rnd w) d b
  | .fsub => fSub .f32 (x.rnd w) d b
  | .fmul => fMul .f32 (x.rnd w) d b
  | .fmin => fMinMax .f32 false false d b
  | .fmax => fMinMax .f32 true false d b
  | .fabs => (fSignClear .f32 b, 0)
  | .fneg => (fSignFlip .f32 b, 0)
  | .mov => (b, 0)
  | .cvt => convert x.sty t (RMode.of (x.h.m3 % 4) 0) false false b

/-- A half in a lane: nothing where its guard does not hold. -/
def HalfOps.out (x : HalfOps) (w : Wave) (t : Thread) : LaneOut :=
  if !x.grd.holds t then {}
  else
    let b := if x.h.imm? then imm8Value x.h.et2 x.h.src else (t.reg x.src).toNat
    let r := x.result w (t.reg x.d).toNat b
    let tag := if x.op == .mov && x.h.et2 == .bits && !x.h.imm? then w.tag x.src else x.ety
    { vw := [(x.d, [BitVec.ofNat 32 r.1], tag)], flags := r.2 }

/-- A pair word: flags of both halves, no FPX (R240). -/
def semPair (a b : HalfWord) : Sem :=
  let x := HalfOps.of a 0
  let y := HalfOps.of b 1
  { grd := .always, ops := fun _ _ l => x.ops l ++ y.ops l, wsrc := [], legal := fun _ _ _ => true,
    hold := fun _ _ _ => false, tile := fun _ _ _ => none, fmt := fun _ _ _ => none,
    forbid := fun _ => false, fpx := false,
    body := lanewise (fun c _ t =>
      let p := x.out c.rd t
      let q := y.out c.rd t
      { vw := p.vw ++ q.vw, flags := p.flags ||| q.flags }) }

def execIaddHalf (h : Half) (m : HalfWord) (s : State) : Out := execX (semPair ⟨.iadd, h⟩ m) s
def execIsubHalf (h : Half) (m : HalfWord) (s : State) : Out := execX (semPair ⟨.isub, h⟩ m) s
def execImulHalf (h : Half) (m : HalfWord) (s : State) : Out := execX (semPair ⟨.imul, h⟩ m) s
def execIminHalf (h : Half) (m : HalfWord) (s : State) : Out := execX (semPair ⟨.imin, h⟩ m) s
def execImaxHalf (h : Half) (m : HalfWord) (s : State) : Out := execX (semPair ⟨.imax, h⟩ m) s
def execAndHalf (h : Half) (m : HalfWord) (s : State) : Out := execX (semPair ⟨.and, h⟩ m) s
def execOrHalf (h : Half) (m : HalfWord) (s : State) : Out := execX (semPair ⟨.or, h⟩ m) s
def execXorHalf (h : Half) (m : HalfWord) (s : State) : Out := execX (semPair ⟨.xor, h⟩ m) s
def execShlHalf (h : Half) (m : HalfWord) (s : State) : Out := execX (semPair ⟨.shl, h⟩ m) s
def execShrHalf (h : Half) (m : HalfWord) (s : State) : Out := execX (semPair ⟨.shr, h⟩ m) s
def execSarHalf (h : Half) (m : HalfWord) (s : State) : Out := execX (semPair ⟨.sar, h⟩ m) s
def execFaddHalf (h : Half) (m : HalfWord) (s : State) : Out := execX (semPair ⟨.fadd, h⟩ m) s
def execFsubHalf (h : Half) (m : HalfWord) (s : State) : Out := execX (semPair ⟨.fsub, h⟩ m) s
def execFmulHalf (h : Half) (m : HalfWord) (s : State) : Out := execX (semPair ⟨.fmul, h⟩ m) s
def execFminHalf (h : Half) (m : HalfWord) (s : State) : Out := execX (semPair ⟨.fmin, h⟩ m) s
def execFmaxHalf (h : Half) (m : HalfWord) (s : State) : Out := execX (semPair ⟨.fmax, h⟩ m) s
def execFabsHalf (h : Half) (m : HalfWord) (s : State) : Out := execX (semPair ⟨.fabs, h⟩ m) s
def execFnegHalf (h : Half) (m : HalfWord) (s : State) : Out := execX (semPair ⟨.fneg, h⟩ m) s
def execMovHalf (h : Half) (m : HalfWord) (s : State) : Out := execX (semPair ⟨.mov, h⟩ m) s
def execCvtHalf (h : Half) (m : HalfWord) (s : State) : Out := execX (semPair ⟨.cvt, h⟩ m) s

end Sys2Proof.Machine
end

