-- ==== Sys2Proof/Machine/Memory.lean ====
section
/-!
DEFINITION. Memory as a core sees it: store queue entries and what they cover (R142, R143), the L1
(R19, R145, R150), performing a load (R137, R138, R144, R151), conflicts with read sets (R365), stride
signatures (R117), the operand log (R184 to R186) and watch ranges (R190).
-/
namespace Sys2Proof.Machine

/-! ## Paths beside those of R103 -/
def pathPriv : Nat := 16
def pathTiled : Nat := 17
def pathSteppe : Nat := 18
def pathTile : Nat := 19

/-- Paths whose lines the L1 holds (R19). -/
def cachedPath (p : Nat) : Bool := p == 0 || p == 4 || p == 6
/-- Reads that enter the read set (R363). -/
def recordedPath (p : Nat) : Bool := p == 0 || p == 2 || p == 3 || p == 6 || p == 7 || p == pathTiled || p == pathTile

/-! ## What store-queue entries write -/

/-- The bytes a store part writes, by address. A Steppe update writes when its row is swept. -/
def StPart.cells (s : State) (p : StPart) : List (Nat × Byte) :=
  if p.path == pathSteppe then []
  else
    let bs := leBytes p.size p.val
    match p.loc with
    | .bytes ad (.flip m) => ad.zip ((bs.zip m).map (fun x => x.1 ^^^ x.2))
    | l => (l.addrs s).zip bs

/-- The addresses a part reaches. -/
def StPart.addrs (s : State) (p : StPart) : List Nat :=
  if p.path == pathSteppe then [] else p.loc.addrs s

def StPart.isStore (p : StPart) : Bool := p.op == .store

/-- Parts of an entry that are not performed. -/
def StEntry.open_ (e : StEntry) : List StPart := e.parts.filter (!·.done)

def StEntry.cells (s : State) (e : StEntry) : List (Nat × Byte) :=
  ((e.open_.filter (·.isStore)).map (·.cells s)).flatten

def StEntry.touches (s : State) (e : StEntry) (ad : List Nat) : Bool :=
  e.open_.any (fun p => (p.addrs s).any ad.contains)

/-- An atomic or remote add not yet performed at one of these bytes. -/
def StEntry.rmwAt (s : State) (e : StEntry) (ad : List Nat) : Bool :=
  e.open_.any (fun p => !p.isStore && (p.addrs s).any ad.contains)

/-- The last value written to an address. -/
def lastCell (cs : List (Nat × Byte)) (a : Nat) : Option Byte :=
  (cs.reverse.find? (·.1 == a)).map (·.2)

/-- Bytes with the cells of stores laid over them. -/
def layOver (cs : List (Nat × Byte)) (ad : List Nat) (bs : List Byte) : List Byte :=
  (ad.zip bs).map (fun p => (lastCell cs p.1).getD p.2)

/-! ## Bytes at the point of performance -/

/-- Bytes of a location before a view's transform, and whether they are poisoned (R120, R121). -/
def rawBytes (s : State) (l : Loc) : List Byte × Bool :=
  match l with
  | .bytes ad _ => (ad.map s.mem.read, anyPoison s ad)
  | .elem comp idx co m es =>
    let xs := (List.range m).map (fun j => readElem s comp idx (coPlus co j) es)
    ((xs.map (·.1)).flatten, xs.any (·.2))
  | _ => ([], false)

/-- Stores of a core past the order point and not yet performed (R142): every agent of the core
observes them. -/
def coreCells (s : State) (core : Nat) : List (Nat × Byte) :=
  ((s.core core).outs.map (·.cells s)).flatten

/-- A location as an agent of a core reads it. -/
def coreRead (s : State) (core : Nat) (l : Loc) : List Byte × Bool :=
  let ad := l.addrs s
  let (bs, bad) := rawBytes s l
  let cs := coreCells s core
  (layOver cs ad bs, bad && ad.any (fun a => (lastCell cs a).isNone))

/-- Bytes at addresses as an agent of a core reads them. -/
def coreBytes (s : State) (core : Nat) (ad : List Nat) : List Byte := (coreRead s core (.bytes ad .plain)).1

/-- An atomic of the core is still to be performed at one of these bytes. -/
def coreBusy (s : State) (core : Nat) (ad : List Nat) : Bool := (s.core core).outs.any (fun e => e.rmwAt s ad)

/-- The transform of a view, then the bytes of the access (R439). -/
def finishBytes (size : Nat) (l : Loc) (bs : List Byte) : List Byte :=
  match l with
  | .bytes _ post => post.apply size bs
  | _ => bs

/-! ## The L1 (R19, R145, R150) -/

/-- The line that holds an access, where the wave may use it. -/
def l1Line (s : State) (w : Wave) (path : Nat) (ad : List Nat) : Option L1Line :=
  match ad with
  | [] => none
  | a :: _ =>
    if !cachedPath path then none
    else
      match flook (s.core w.core).l1 (lineOf a) with
      | some ln => if ln.fillAt < w.acqAt then none else some ln
      | none => none

/-- Lines of an L1: 128 KiB (R18). -/
def l1Lines : Nat := 2048

/-- Fill a line of the core's L1; a full one loses its oldest line. -/
def l1Fill (s : State) (core line : Nat) : State :=
  let ad := rangeFrom (64 * line) 64
  s.mapCore core (fun k =>
    let l1 := if k.l1.length < l1Lines || (flook k.l1 line).isSome then k.l1
      else match oldest (·.fillAt) k.l1 with | some n => fdel k.l1 n | none => k.l1
    { k with l1 := fput l1 line ⟨coreBytes s core ad, s.now⟩ })

/-- A store of the core updates a line that its L1 holds (R145). -/
def l1Update (s : State) (core : Nat) (cs : List (Nat × Byte)) : State :=
  s.mapCore core (fun k =>
    { k with l1 := k.l1.map (fun e =>
        (e.1, { e.2 with bytes := layOver cs (rangeFrom (64 * e.1) 64) e.2.bytes })) })

/-! ## Conflicts with read sets (R365) -/

/-- A write performed at these bytes: the read-set lines of the waves of the chosen cores take it as a
conflict, but for entries that the wave itself placed before its TRY. -/
def noteWrite (s : State) (by_ : Option (Nat × Nat)) (cores : Nat → Bool) (ad : List Nat) : State :=
  let keys := linesOf ad
  { s with waves := s.waves.map (fun w =>
      if !w.kettle.isOpen || !cores w.core then w
      else
        let own := match by_ with | some (u, id) => u == w.uid && id < w.kettle.since | none => false
        if own then w
        else
          let hit := (w.kettle.reads.filter (fun l => keys.contains l.key)).foldl
            (fun m l => m ||| (l.mask &&& l.seen)) 0
          { w with kettle := { w.kettle with hit := w.kettle.hit ||| hit } }) }

/-- A member's read has been performed at these bytes. -/
def noteSeen (w : Wave) (lane fid : Nat) (ad : List Nat) : Wave :=
  if !w.kettle.isOpen || fid < w.kettle.since then w
  else
    let keys := linesOf ad
    { w with kettle := { w.kettle with reads := w.kettle.reads.map (fun l =>
        if keys.contains l.key && l.mask.getLsbD lane then { l with seen := l.seen ||| bitM lane } else l) } }

/-- The virtual page of a generic address that is translated (R103, R105). -/
def pageOf (addr : Nat) : List Nat :=
  let p := addr / 2 ^ 60
  if p = 0 ∨ p = 4 ∨ p = 6 then [addr % 2 ^ 57 / 65536] else if p = 7 then [addr % 2 ^ 52 / 65536] else []

/-- Enter lines in the read set with the reading lane (R363). -/
def addRead (rs : List Line) (lane key : Nat) (pages : List Nat) : List Line :=
  if rs.any (·.key == key) then
    rs.map (fun l => if l.key = key then
      { l with mask := l.mask ||| bitM lane, pages := l.pages ++ pages.filter (fun p => !l.pages.contains p) } else l)
  else rs ++ [⟨key, bitM lane, 0, pages⟩]

/-! ## Performing a load -/

/-- A logged access that the driver has delivered to %handler (R187). -/
def deliveredJob (s : State) (w : Wave) (fid k : Nat) : Bool :=
  (s.quad w.qn).oplog.any (fun e => e.delivered && e.wave == w.uid &&
    e.items.any (fun i => i.2.1 == .job fid k))

/-- A job has been performed: its value is fixed, or it failed. -/
def Job.performed (j : Job) : Bool := j.landed || j.val.isSome || j.err.isSome

/-- The job is a load: a read of memory or, of the jobs answered elsewhere, a lap read (R163). -/
def Job.isRead (j : Job) : Bool :=
  match j.src with | .mem .. | .regq .. | .cseq _ => true | .await => j.path == pathSteppe | .ready => false

/-- An earlier read of the thread is not yet performed (R138, R165). -/
def readAhead (s : State) (w : Wave) (fid k lane : Nat) : Bool :=
  w.flights.any (fun f => f.id ≤ fid &&
    f.jobs.zipIdx.any (fun p => p.1.lane == lane && p.1.isRead && !p.1.performed &&
      (f.id < fid || p.2 < k) && !(p.1.held && deliveredJob s w f.id p.2)))

/-- A load of the wave named before `id` that reaches some of these bytes is not performed (R138, R161). -/
def readPending (s : State) (w : Wave) (id : Nat) (ad : List Nat) : Bool :=
  w.flights.any (fun f => f.id < id && f.jobs.zipIdx.any (fun p =>
    p.1.isRead && !p.1.performed && !(p.1.held && deliveredJob s w f.id p.2) &&
      (match p.1.src with | .mem l _ => (l.addrs s).any ad.contains | _ => false)))

/-- An entry that keeps the wave's later loads behind it: an atomic (R144), and an RSADD that acquires or
releases (R151, R165). -/
def StEntry.fences (e : StEntry) : Bool :=
  (e.kind == .atomic || (e.kind == .rsadd && (e.acq || e.rel))) && !e.open_.isEmpty

/-- The wave's own entries before a producer or entry, queued or past the order point. -/
def ownBefore (s : State) (w : Wave) (id : Nat) : List StEntry :=
  (w.sq ++ (s.core w.core).outs).filter (fun e => e.wave == w.uid && e.id < id)

/-- The part waits in the operand log and will reach bytes of a load at `path` and `va` with these addresses:
the load waits until it is resumed (R185). -/
def StPart.holdsUp (w : Wave) (p : StPart) (path va size : Nat) (ad : List Nat) : Bool :=
  match p.loc with
  | .virt q a =>
    if q == 0 || q == 6 then q == path && a % 2 ^ 57 < va % 2 ^ 57 + size && va % 2 ^ 57 < a % 2 ^ 57 + p.size
    else q == path && a < va + size && va < a + p.size
  | .grow o => (List.range p.size).any (fun k => ad.contains (privAddr w.priv w.width p.lane (o + k)))
  | _ => false

/-- What the wave's own store queue answers (R143): none: nothing there; some none: wait; some cells. -/
def forward (s : State) (w : Wave) (fid path va : Nat) (ad : List Nat) : Option (Option (List (Nat × Byte))) :=
  match (w.sq.filter (fun e => e.id < fid &&
      (e.touches s ad || e.open_.any (fun p => p.holdsUp w path va ad.length ad)))).reverse with
  | [] => none
  | e :: _ =>
    let cs := e.cells s
    if !e.rmwAt s ad && ad.all (fun a => cs.any (·.1 == a)) then some (some cs) else some none

/-- The context in which a wave's accesses are translated. -/
def waveCtx (s : State) (w : Wave) : Nat := match s.team? w.team with | some t => t.ctx | none => 0

/-- A read that neither the own store queue nor the L1 answers waits for a slice in self-refresh. -/
def jobAsleep (s : State) (w : Wave) (fid : Nat) (j : Job) (hit : Bool) : Bool :=
  match j.src with
  | .mem l _ =>
    let ad := l.addrs s
    (forward s w fid j.path j.va ad).isNone && !(hit && (l1Line s w j.path ad).isSome) &&
      sliceAsleep s (waveCtx s w) (w.core / 96) j.path j.va l
  | _ => false

/-- An earlier element of the job's lane waits for the driver (R334). -/
def Flight.heldBefore (fl : Flight) (k lane : Nat) : Bool := (fl.jobs.take k).any (fun j => j.lane == lane && j.held)

/-- A read may be performed now. -/
def readReady (s : State) (w : Wave) (fl : Flight) (k : Nat) (j : Job) : Bool :=
  !j.held && !j.performed && !fl.heldBefore k j.lane && !readAhead s w fl.id k j.lane && !(ownBefore s w fl.id).any (·.fences) &&
    (match j.src with
     | .mem (.infuse _) _ => false
     | .mem l _ =>
       let ad := l.addrs s
       (match forward s w fl.id j.path j.va ad with
        | some none => false
        | some (some _) => true
        | none => !coreBusy s w.core ad)
     | .regq .. | .cseq _ => true
     | _ => false)

/-- Bytes of a read with the thread's own buffered stores (R363), or free bytes of an access whose
elements do not fill its registers (log entry 2), laid over them. -/
def layFwd (fwd : FMap Byte) (bs : List Byte) : List Byte :=
  bs.zipIdx.map (fun p => (flook fwd p.2).getD p.1) ++ (fwd.filter (fun p => bs.length ≤ p.1)).map (·.2)

/-- A member's read is performed at these bytes. A coordinate read has its line where it finds its element, which a
re-tiling may have moved since its issue (R119, R363). -/
def seeRead (w : Wave) (lane fid : Nat) (l : Loc) (ad : List Nat) : Wave :=
  let w := match l with
    | .elem .. =>
      if w.kettle.isOpen && w.kettle.since ≤ fid && w.members.getLsbD lane then
        { w with kettle := { w.kettle with reads := (linesOf ad).foldl (fun rs k => addRead rs lane k []) w.kettle.reads } }
      else w
    | _ => w
  noteSeen w lane fid ad

/-- Fix a job's value, or its error where the bytes are poisoned (R121, R450). -/
def setValue (s : State) (u : Nat) (fid k : Nat) (j : Job) (l : Loc) (size : Nat) (bs : List Byte) (bad : Bool) :
    State :=
  let v := leNat (finishBytes size l (layFwd j.fwd bs))
  s.mapWave u (fun w => seeRead (w.setJob fid k (fun j =>
    if bad then { j with err := some (lostCause s l) } else { j with val := some (natWords j.n v) })) j.lane fid l (l.addrs s))

/-- Perform a read of memory: from the own store queue, from an L1 line when `hit`, or from the slice,
which fills the line (R143, R145). -/
def performMem (s : State) (u fid k : Nat) (j : Job) (l : Loc) (size : Nat) (hit : Bool) : State :=
  match s.wave? u with
  | none => s
  | some w =>
    let ad := l.addrs s
    match forward s w fid j.path j.va ad with
    | some (some cs) => setValue s u fid k j l size (ad.map (fun a => (lastCell cs a).getD 0)) false
    | _ =>
      match (if hit then l1Line s w j.path ad else none) with
      | some ln => setValue s u fid k j l size (ad.map (fun a => ln.bytes.getD (a % 64) 0)) false
      | none =>
        let s := askPeer (useLoc s false (waveCtx s w) (w.core / 96) j.path j.va l) (waveCtx s w) j.path j.va size .read
        let (bs, bad) := coreRead s w.core l
        let s := match ad with
          | a :: _ => if cachedPath j.path && !bad then l1Fill s w.core (lineOf a) else s
          | [] => s
        setValue s u fid k j l size bs bad

/-! ## Stride signatures (R117, R118) -/

/-- The signature of an access against the record of its region. -/
def signature (co old : List Nat) : Option Nat :=
  ((List.range co.length).filter (fun k => co.getD k 0 != old.getD k 0)).getLast?

/-- A coordinate access sends its signature to the home slice, and its record becomes the most recent
of the thread's four. -/
def sendSig (s : State) (u lane comp idx : Nat) (co : List Nat) : State :=
  match s.wave? u with
  | none => s
  | some w =>
    let t := w.thread lane
    let old := t.sigs.find? (fun r => r.comp == comp && r.idx == idx)
    let sig := match old with | some r => signature co r.co | none => none
    let rest := t.sigs.filter (fun r => !(r.comp == comp && r.idx == idx))
    let s := s.mapWave u (fun w => w.mapThread lane (fun t => { t with sigs := (⟨comp, idx, co⟩ :: rest).take 4 }))
    { s with sigs := s.sigs ++ [⟨comp, idx, sig⟩] }

/-! ## The operand log (R184 to R186) -/

/-- The operand log of the quadrant holds its 32 entries (R15); the waves of one word share one. -/
def Quad.logFull (q : Quad) : Bool := 32 ≤ ((q.oplog.map (·.num)).eraseDups).length

/-- A memory instruction is held while the quadrant's operand log is full (R186). -/
def logFull (s : State) (w : Wave) : Bool := (s.quad w.qn).logFull

/-- A counter would pass 65,535 (R146). -/
def counterFull (w : Wave) (ks : List Nat) : Bool := ks.any (fun k => w.cnt.get k ≥ 65535)

/-- Place one entry for the lanes of an instruction that met PAGE or GROW (R184). -/
def logEntry (s : State) (c : Ctx) (grow : Bool) (items : List (Nat × Held × Nat × Nat)) : State :=
  if items.isEmpty then s
  else
    s.mapQuad c.qn (fun q =>
      { q with oplog := q.oplog ++
        [{ wave := c.u, pc := c.pc, word := c.iss.word, grow := grow, items := items, delivered := false,
           num := s.now }] })

/-! ## Watch ranges (R190) -/

/-- An access of `size` bytes at a generic address overlaps a watch range of the kind. -/
def watchHit (w : Wave) (a size : Nat) (wants : List Want) : Bool :=
  (List.range 4).any (fun k =>
    let r := fget Watch.off w.watch k
    let kind := r.len.toNat / 2 ^ 30
    let n := r.len.toNat % 2 ^ 30
    ((kind % 2 == 1 && wants.any (fun x => x == .read || x == .atomic)) ||
      (kind / 2 == 1 && wants.any (fun x => x == .write || x == .atomic))) &&
    n != 0 && a < r.base.toNat + n && r.base.toNat < a + size)

/-! ## One lane's access -/

/-- An access of one lane as issue sees it: the checked location, its generic address where it has one, the address
that a deferred error of it reports (log entry 81), its path, and the registers of the value. -/
structure Acc where
  lane : Nat
  chk  : Chk
  gen  : Option Nat
  adr  : Nat
  path : Nat
  size : Nat
  dst  : Nat
  n    : Nat

/-- The precise cause of an access; PAGE and GROW are causes to a member (R189). -/
def Acc.trap (tx : Bool) (a : Acc) : Option Trap :=
  match a.chk with
  | .trap c tv pos => some ⟨a.lane, c, BitVec.ofNat 64 tv, pos⟩
  | .page _ va => if tx then some ⟨a.lane, .page, BitVec.ofNat 64 va, 9⟩ else none
  | .grow o => if tx then some ⟨a.lane, .grow, BitVec.ofNat 64 o, 18⟩ else none
  | _ => none

/-- The location of an access that may go ahead. -/
def Acc.loc (a : Acc) : Loc :=
  match a.chk with
  | .ok l => l
  | .page p va => .virt p va
  | .grow o => .grow o
  | _ => .bytes [] .plain

/-- An access that waits in the operand log: path and address. -/
def Acc.held (a : Acc) : Option (Nat × Nat) :=
  match a.chk with
  | .page p va => some (p, va)
  | .grow o => some (pathPriv, o)
  | _ => none

def Acc.isGrow (a : Acc) : Bool := match a.chk with | .grow _ => true | _ => false

/-- Accesses with what the operand log holds of them: from a lane's first access that waits there, its
later ones wait too (R334). -/
def heldAccs (as : List Acc) : List (Acc × Option (Nat × Nat)) :=
  (as.foldl (fun (r : List (Acc × Option (Nat × Nat)) × Mask) a =>
    if r.2.getLsbD a.lane then (r.1 ++ [(a, some (a.path, a.gen.getD 0))], r.2)
    else match a.held with
      | some h => (r.1 ++ [(a, some h)], r.2 ||| bitM a.lane)
      | none => (r.1 ++ [(a, none)], r.2)) ([], 0)).1

/-- A 16-byte access on path 5, 6 or 7 is two halves, in their order (R139). -/
def splitHalves (s : State) (c : Ctx) (want : Want) (as : List Acc) : List Acc :=
  (as.map (fun a =>
    match a.gen with
    | some g =>
      if a.size = 16 ∧ 5 ≤ a.path ∧ a.path ≤ 7 then
        [{ a with chk := checkGeneric s c.who g 8 want false, size := 8, n := 2 },
         { a with chk := checkGeneric s c.who (g + 8) 8 want false, gen := some (g + 8), adr := g + 8, size := 8,
                  dst := a.dst + 2, n := 2 }]
      else [a]
    | none => [a])).flatten

/-- Elements that do not fill their register exactly: the value is not stated (log entry 2). -/
def Acc.ragged (a : Acc) : Bool :=
  match a.loc with | .elem _ _ _ m es => m * es != 4 * a.n | _ => false

/-- Sixteen free bytes for a lane. -/
def freeBytes (s : State) (lane : Nat) : FMap Byte :=
  let v := (Config.freeValue (s.free + 2 * lane)).toNat + 2 ^ 64 * (Config.freeValue (s.free + 2 * lane + 1)).toNat
  (leBytes 16 v).zipIdx.map (fun p => (p.2, p.1))

/-- Free values have been drawn for the lanes of an instruction. -/
def drawFree (s : State) (as : List Acc) : State :=
  if as.any (·.ragged) then { s with free := s.free + 256 } else s

/-- Mark an address that does not exist (R28). -/
def touchAccs (s : State) (as : List Acc) : State :=
  as.foldl (fun s a => match a.chk with | .absent x => s.touch false x | _ => s) s

/-- WATCH of accesses that complete at issue (R190): one that waits in the operand log, and what waits behind it, raise
it when they are resumed. Of a 16-byte access whose halves part there, the first half completes. -/
def watchTraps (s : State) (c : Ctx) (wants : List Want) (as : List Acc) : List Trap :=
  let want := wants.headD .read
  let hits (as : List Acc) : List Trap := ((heldAccs as).filter (·.2.isNone)).filterMap (fun p =>
    match p.1.gen, p.1.chk with
    | some g, .ok _ =>
      if watchHit c.rd g p.1.size wants then some ⟨p.1.lane, .watch, BitVec.ofNat 64 g, 0⟩ else none
    | _, _ => none)
  let whole := hits as
  if as.all (·.held.isNone) then whole
  else whole ++ (hits (splitHalves s c want as)).filter (fun t => !whole.any (·.lane == t.lane))

/-- What the thread's buffered stores write (R363). -/
def bufferCells (s : State) (w : Wave) (lane : Nat) : List (Nat × Byte) :=
  ((w.kettle.buf.filter (fun p => p.lane == lane && p.isStore)).map (·.cells s)).flatten

/-- Bytes of an access that the thread's buffered stores supply (R363). -/
def bufferBytes (s : State) (w : Wave) (lane : Nat) (l : Loc) : FMap Byte :=
  let cs := bufferCells s w lane
  (l.addrs s).zipIdx.filterMap (fun p => (lastCell cs p.1).map (fun b => (p.2, b)))

/-- Record the reads of members; false when the read set is full (R363). -/
def recordReads (s : State) (c : Ctx) (as : List Acc) : State × Bool :=
  if !c.tx then (s, true)
  else
    match s.wave? c.u with
    | none => (s, true)
    | some w =>
      let keys := (as.filter (fun a => recordedPath a.path)).map (fun a =>
        (linesOf (a.loc.addrs s)).map (fun k => (a.lane, k, (a.gen.map pageOf).getD [])))
      let rs := keys.flatten.foldl (fun rs p => addRead rs p.1 p.2.1 p.2.2) w.kettle.reads
      if rs.length > 512 then (s, false)
      else (s.mapWave c.u (fun w => { w with kettle := { w.kettle with reads := rs } }), true)

/-- The coordinate accesses of a list send their signatures (R117). -/
def sendSigs (s : State) (c : Ctx) (as : List Acc) : State :=
  as.foldl (fun s a =>
    match a.loc with
    | .elem comp idx co _ _ => sendSig s c.u a.lane comp idx co
    | _ => s) s

/-- Lanes that raise a precise cause leave all their accesses (R333). -/
def splitAccs (tx : Bool) (as : List Acc) : List Trap × List Acc :=
  let ts := as.filterMap (Acc.trap tx)
  (ts, as.filter (fun a => !ts.any (·.lane == a.lane)))

/-- The common end of a load's issue (R327): checks, read set, flight, operand log, signatures, watch. -/
def loadAccs (f : Full) (counted : Bool) (as : List Acc) (s : State) (c : Ctx) : Res :=
  let s := touchAccs s as
  let (ts, ok) := splitAccs c.tx as
  if ok.isEmpty then { st := s, traps := ts }
  else
    let (s, room) := recordReads s c ok
    if !room then { st := s, traps := ts, abort := fullAbort c 5 }
    else
      let (id, s) := s.newId
      let fwd (a : Acc) : FMap Byte :=
        if a.ragged then freeBytes s a.lane
        else if c.tx then (match s.wave? c.u with | some w => bufferBytes s w a.lane a.loc | none => []) else []
      let hs := heldAccs (splitHalves s c .read ok)
      let jobs := hs.map (fun p =>
        { Job.read p.1.lane p.1.dst p.1.n f.ety (.mem p.1.loc p.1.size) p.1.path p.1.adr with
          held := p.2.isSome, fwd := fwd p.1 })
      let s := drawFree s ok
      let (s, room) := startFlight s c { Flight.start id c.pc f.ety with mem := true, ldq := counted, jobs := jobs }
      if !room then { st := s, traps := ts, abort := fullAbort c 4 }
      else
        let items := hs.zipIdx.filterMap (fun p =>
          p.1.2.map (fun h => (p.1.1.lane, Held.job id p.2, h.1, h.2)))
        let s := logEntry s c (ok.any (·.isGrow)) items
        let s := sendSigs s c ok
        { st := s, traps := ts ++ watchTraps s c [.read] ok }

end Sys2Proof.Machine
end

