-- ==== Sys2Proof/Machine/Stores.lean ====
section
/-!
DEFINITION. Stores, atomics and remote adds: their issue into the wave's store queue or the Kettle, the
order point (R142), performing them (R140, R141, R146) and their acknowledgement (R147).
-/
namespace Sys2Proof.Machine

/-! ## Atomic operations (R234, R336) -/

/-- The new value of a location. -/
def atomicNew (t : Ety) (op old v cmp : Nat) : Nat :=
  let i (g : Int → Int → Int) : Nat := reduce t false (g (intOf t old) (intOf t v))
  match op with
  | 0 => if t == .f32 then (fAdd .f32 .plain old v).1 else i (· + ·)
  | 1 => if t == .f32 then (fMinMax .f32 false false old v).1 else i min
  | 2 => if t == .f32 then (fMinMax .f32 true false old v).1 else i max
  | 3 => old &&& v
  | 4 => old ||| v
  | 5 => old ^^^ v
  | 6 => v
  | _ => if old = cmp then v else old

/-! ## Issue -/

/-- A number of an access of a lane whose elements do not fill its register. -/
def freeNat (s : State) (lane : Nat) : Nat := leNat ((freeBytes s lane).map (·.2))

/-- A part of a store for an access. -/
def Acc.part (a : Acc) (t : Ety) (op : MemOp) (v : Nat) (ret : Option Nat) (w : Want) : StPart :=
  { lane := a.lane, path := a.path, loc := a.loc, size := a.size, ety := t, op := op, val := v, ret := ret,
    want := w, va := a.adr, shared := false, done := false }

/-- An entry of a kind. -/
def StEntry.make (id : Nat) (c : Ctx) (kind : StKind) (ps : List StPart) : StEntry :=
  { id := id, wave := c.u, pc := c.pc, word := c.iss.word, kind := kind, parts := ps, scope := 0, acq := false, rel := false,
    flight := none, xfer := none, stq := true, syq := true }

/-- The leaf of a page that a path 0 or 6 access reaches is read-duplicated (R106). -/
def dupLeaf (s : State) (ctx path va : Nat) : Bool :=
  (path == 0 || path == 6) &&
    (match walk s ctx (va % 2 ^ 57) with | .leaf _ e _ => e.getLsbD 58 | _ => false)

/-- Parts with what their translation found (R200). -/
def markShared (s : State) (ctx : Nat) (ps : List StPart) : List StPart :=
  ps.map (fun p => { p with shared := dupLeaf s ctx p.path p.va })

/-- Put an entry into the wave's store queue: STQ and SYQ rise (R142, R146). -/
def enqueue (s : State) (u : Nat) (e : StEntry) : State :=
  s.mapWave u (fun w => ({ w with sq := w.sq ++ [e] }.raise 1).raise 2)

/-- Hold stores of members in the Kettle (R363); false when the store buffer is full. -/
def bufferParts (s : State) (u : Nat) (ps : List StPart) : State × Bool :=
  match s.wave? u with
  | none => (s, true)
  | some w =>
    if w.kettle.buf.length + ps.length > 256 then (s, false)
    else (s.mapWave u (fun w => { w with kettle := { w.kettle with buf := w.kettle.buf ++ ps } }), true)

/-- The common end of the issue of a store (R327): the store queue or the Kettle, the operand log,
signatures, watch ranges. `mk` gives the part of an access. -/
def storeAccs (kind : StKind) (scope : Nat) (acq rel : Bool) (wants : List Want) (as : List Acc)
    (mk : Acc → StPart) (s : State) (c : Ctx) : Res :=
  let s := touchAccs s as
  let (ts, ok) := splitAccs c.tx as
  if ok.isEmpty then { st := s, traps := ts }
  else
    let parts (as : List Acc) : List StPart := as.map (fun a =>
      let p := mk a
      if a.ragged then { p with val := freeNat s a.lane } else p)
    let halves := splitHalves s c .write ok
    let ps := markShared s c.ctxNo (if c.tx then parts ok else parts halves)
    let s := drawFree s ok
    if c.tx then
      let (s, room) := bufferParts s c.u ps
      if !room then { st := s, traps := ts, abort := fullAbort c 3 }
      else { st := sendSigs s c ok, traps := ts ++ watchTraps s c wants ok }
    else
      let (id, s) := s.newId
      let s := enqueue s c.u { StEntry.make id c kind ps with scope := scope, acq := acq, rel := rel }
      let items := (heldAccs halves).zipIdx.filterMap (fun p =>
        p.1.2.map (fun h => (p.1.1.lane, Held.part id p.2, h.1, h.2)))
      let s := logEntry s c (ok.any (·.isGrow)) items
      let s := sendSigs s c ok
      { st := s, traps := ts ++ watchTraps s c wants ok }

/-- The value operands of an atomic in a lane: the value and the compare value (R335). -/
structure AtomArgs where
  val : Nat
  cmp : Nat

/-- An atomic by a member (R363): it reads as a load, and the new value is buffered as a store. A read of
poisoned bytes raises CHECK (R121), and its signature has been sent (R117). -/
def memberAtomic (f : Full) (op : Nat) (ret : Bool) (arg : Nat → AtomArgs) (as : List Acc) (ts : List Trap)
    (s : State) (c : Ctx) : Res :=
  let (s, room) := recordReads s c as
  if !room then { st := s, traps := ts, abort := fullAbort c 5 }
  else
    let s := as.foldl (fun s a => useLoc s false c.ctxNo (c.rd.core / 96) a.path a.adr a.loc) s
    let bad := as.filter (fun a => (coreRead s c.rd.core a.loc).2)
    let ts := ts ++ bad.map (fun a => ⟨a.lane, lostCause s a.loc, BitVec.ofNat 64 a.adr, 0⟩)
    let ok := as.filter (fun a => !bad.any (·.lane == a.lane))
    match s.wave? c.u with
    | none => { st := s }
    | some w =>
      let old (a : Acc) : Nat :=
        if a.ragged then freeNat s a.lane
        else leNat (finishBytes a.size a.loc (layFwd (bufferBytes s w a.lane a.loc) (coreRead s w.core a.loc).1))
      let olds := ok.map (fun a => (a, old a))
      let s := drawFree s ok
      let ps := olds.map (fun p =>
        let x := arg p.1.lane
        p.1.part f.ety .store (atomicNew f.ety op p.2 x.val x.cmp) none .write)
      let ps := markShared s c.ctxNo ps
      let (s, room) := bufferParts s c.u ps
      if !room then { st := s, traps := ts, abort := fullAbort c 3 }
      else
        let s := s.mapWave c.u (fun w => olds.foldl (fun w p =>
          seeRead w p.1.lane s.nextId p.1.loc (p.1.loc.addrs s)) w)
        let s := sendSigs s c as
        let traps := ts ++ watchTraps s c [.atomic] ok
        if !ret || ok.isEmpty then { st := s, traps := traps }
        else
          let (id, s) := s.newId
          let jobs := olds.map (fun p =>
            Job.known p.1.lane f.dn f.ety (natWords f.ety.regs p.2) 0)
          let (s, room) := startFlight s c { Flight.start id c.pc f.ety with mem := true, ldq := true, jobs := jobs }
          if room then { st := s, traps := traps } else { st := s, traps := traps, abort := fullAbort c 4 }

/-- Atomics of one instruction (R335, R336). -/
def atomicAccs (f : Full) (op scope : Nat) (acq rel ret : Bool) (arg : Nat → AtomArgs) (as : List Acc)
    (s : State) (c : Ctx) : Res :=
  let s := touchAccs s as
  let (ts, ok) := splitAccs c.tx as
  if ok.isEmpty then { st := s, traps := ts }
  else if c.tx then memberAtomic f op ret arg ok ts s c
  else
    let (id, s) := s.newId
    let (fid, s) := s.newId
    let jobs := ok.map (fun a => { Job.read a.lane f.dn f.ety.regs f.ety .await a.path a.adr with
      held := a.held.isSome, fwd := if a.ragged then freeBytes s (a.lane + 64) else [] })
    let (s, _) :=
      if ret then startFlight s c { Flight.start fid c.pc f.ety with mem := true, ldq := true, jobs := jobs }
      else (s, true)
    let ps := ok.zipIdx.map (fun p =>
      let x := arg p.1.lane
      p.1.part f.ety (.rmw (if p.1.ragged then 6 else op) x.cmp) (if p.1.ragged then freeNat s p.1.lane else x.val)
        (if ret then some p.2 else none) .atomic)
    let ps := markShared s c.ctxNo ps
    let s := drawFree s ok
    let s := enqueue s c.u { StEntry.make id c .atomic ps with
      scope := scope, acq := acq, rel := rel, flight := if ret then some fid else none }
    let items := ok.zipIdx.filterMap (fun p =>
      p.1.held.map (fun h => (p.1.lane, Held.part id p.2, h.1, h.2)))
    let s := logEntry s c (ok.any (·.isGrow)) items
    let s := sendSigs s c ok
    { st := s, traps := ts ++ watchTraps s c [.atomic] ok }

/-! ## The order point (R142) -/

/-- A part still waits in the operand log. -/
def StPart.waits (p : StPart) : Bool := match p.loc with | .virt .. | .grow _ => true | _ => false

/-- A page is in a shoot-down that is still being counted (R198, R200). -/
def shooting (s : State) (ctx va : Nat) : Bool :=
  s.shoots.any (fun x => x.ctx == ctx && !x.toCount.isEmpty &&
    (let (lo, n) := pageAround s ctx x.va; lo ≤ va && va < lo + n))

/-- The wave's team lies on a saddle. -/
def onSaddle (s : State) (w : Wave) : Bool := match s.team? w.team with | some t => t.saddle | none => false

/-- Scopes at which an earlier store must be performed for the whole device (R136, R151). -/
def wideScope (s : State) (w : Wave) (scope : Nat) : Bool := 3 ≤ scope || (scope == 1 && onSaddle s w)

/-- Earlier reads of these lanes are performed (R138). -/
def readsDone (s : State) (w : Wave) (id : Nat) (lanes : Nat → Bool) : Bool :=
  !w.flights.any (fun f => f.id < id && f.jobs.zipIdx.any (fun p =>
    lanes p.1.lane && p.1.isRead && !p.1.performed && !(p.1.held && deliveredJob s w f.id p.2)))

/-- What a release waits for: the wave's loads before the name `id` are performed, and its stores past the order
point are at the scope (R151). -/
def releaseReady (s : State) (w : Wave) (id scope : Nat) : Bool :=
  let past := ((s.core w.core).outs ++ (s.core w.core).egress).filter (fun x => x.wave == w.uid && x.id < id)
  readsDone s w id (fun _ => true) &&
    (if scope = 6 then !past.any (·.syq) else !wideScope s w scope || !past.any (·.stq))

/-- The release of an operation of a unit that a wave has started, after the last write (R154, R156). -/
def unitReleased (s : State) (u id scope : Nat) : Bool :=
  match s.wave? u with
  | none => true
  | some w => !w.sq.any (·.id < id) && releaseReady s w id scope

/-- The head entry may leave the queue. -/
def orderReady (s : State) (w : Wave) (e : StEntry) : Bool :=
  let ctx := waveCtx s w
  !(s.core w.core).outs.any (·.id == e.id) &&
  readsDone s w e.id (fun l => e.parts.any (·.lane == l)) &&
  !readPending s w e.id ((e.parts.map (·.addrs s)).flatten) &&
  !((s.core w.core).outs.any (fun x => x.wave == w.uid && x.id < e.id && x.acq && x.fences)) &&
  (!e.rel || releaseReady s w e.id e.scope) &&
  (match e.xfer with
   | some x => !((s.core w.core).xfers.any (·.id == x))
   | none => true) &&
  !e.parts.any (fun p => p.shared && shooting s ctx (p.va % 2 ^ 57)) &&
  (match w.kettle.commitAt with | some k => e.id < k | none => true)

/-- Translate a store to a read-duplicated page again: it proceeds under the leaf it finds (R200). -/
def relocate (s : State) (w : Wave) (p : StPart) : Chk :=
  if p.shared then checkVirtual s (waveCtx s w) p.path p.va (p.va % 2 ^ 57) p.size p.want else .ok p.loc

/-- A part under the leaf it has found; one that fails a precise check is not performed (log entry 12). -/
def StPart.placed (p : StPart) : Chk → StPart
  | .ok l => { p with loc := l }
  | .page path va => { p with loc := .virt path va }
  | _ => { p with loc := .bytes [] .plain, done := true }

/-- The precise causes that parts have met under the leaves they found. -/
def lateCauses (pc : Word) (ps : List (StPart × Chk)) : List Defer :=
  ps.filterMap (fun p => match p.2 with
    | .trap c tv _ => some ⟨bitM p.1.lane, c, pc, [(p.1.lane, BitVec.ofNat 64 tv)]⟩
    | _ => none)

/-- The Steppe requests of an entry go into the fabric (R342, R418). -/
def steppeRequests (w : Wave) (e : StEntry) : List SReq :=
  e.parts.zipIdx.filterMap (fun p =>
    match p.1.loc with
    | .elem comp idx co _ es =>
      if p.1.path == pathSteppe && !p.1.done then
        some { wave := w.uid, comp := comp, idx := idx, co := co, es := es, ety := p.1.ety, op := some p.1.op,
               val := p.1.val, core := w.core, entry := e.id, job := p.2, lap := 0 }
      else none
    | _ => none)

/-- An entry passes the core's order point: the L1 is updated, the core observes its stores, its Steppe
updates are on their way (R142, R145). -/
def passOrder (s : State) (w : Wave) (e : StEntry) : State :=
  let cs := e.cells s
  let s := l1Update s w.core (((e.open_.filter (fun p => p.isStore && cachedPath p.path)).map (·.cells s)).flatten)
  let s := noteWrite s (some (w.uid, e.id)) (· == w.core) (cs.map (·.1))
  let s := s.mapCore w.core (fun k => { k with outs := k.outs ++ [e] })
  { s with fabric := s.fabric ++ steppeRequests w e }

/-- Part number `i` of an entry may go on: it does not wait, and no earlier element of its lane waits (R184, R334). -/
def StEntry.goes (e : StEntry) (i : Nat) (p : StPart) : Bool :=
  !p.done && !p.waits && !(e.parts.take i).any (fun q => q.lane == p.lane && q.waits)

/-- Mark the parts of an entry that a test chooses as done. -/
def StEntry.without (e : StEntry) (which : Nat → Bool) : StEntry :=
  { e with parts := e.parts.zipIdx.map (fun p => if which p.2 then { p.1 with done := true } else p.1) }

/-- A store that meets PAGE at the order point is logged there (R200). -/
def logLate (s : State) (w : Wave) (e : StEntry) (which : Nat → Bool) : State :=
  let items := e.parts.zipIdx.filterMap (fun p =>
    match p.1.loc with
    | .virt path va => if which p.2 then some (p.1.lane, Held.part e.id p.2, path, va) else none
    | _ => none)
  s.mapQuad w.qn (fun q => { q with oplog := q.oplog ++
    [{ wave := w.uid, pc := e.pc, word := e.word, grow := false, items := items, delivered := false, num := s.now }] })

/-- The head of a wave's store queue leaves at the order point (R142). While parts of it wait for the driver, the
entry keeps its place, and the lanes and elements that did not fault leave ahead of it (R184, R185, R334). A PAGE met
here waits for room in the operand log (R15). -/
def orderPoint (s : State) (u : Nat) : State :=
  match s.wave? u with
  | none => s
  | some w =>
    match w.sq with
    | [] => s
    | e :: rest =>
      if !orderReady s w e then s
      else
        let go (i : Nat) : Bool := match e.parts[i]? with | some p => e.goes i p | none => false
        let ps := e.parts.zipIdx.map (fun p => (p.1, if go p.2 then relocate s w p.1 else .ok p.1.loc))
        let e' : StEntry := { e with parts := ps.map (fun p => if p.1.done then p.1 else p.1.placed p.2) }
        let late := (e'.parts.zipIdx.any (fun p => go p.2 && p.1.waits))
        if late && logFull s w then s
        else
          let s := s.mapWave u (fun w => { w with defer := w.defer ++ lateCauses e.pc ps })
          if late then logLate (s.mapWave u (fun w => { w with sq := e' :: rest })) w e' go
          else if e'.parts.any (fun p => !p.done && p.waits) then
            if !(List.range e'.parts.length).any go then s
            else
              passOrder (s.mapWave u (fun w => { w with sq := e'.without go :: rest })) w (e'.without (fun i => !go i))
          else passOrder (s.mapWave u (fun w => { w with sq := rest })) w e'

/-! ## Performing (R140, R141, R146, R147) -/

def StEntry.onPath (e : StEntry) (p : Nat) : Bool := e.parts.any (·.path == p)
/-- The peer of a path 7 part. -/
def StPart.peer (p : StPart) : Nat := p.va / 2 ^ 52 % 64

/-- Entries of a core that are performed in order: common bytes (R138), or one of the kept orders of
R166 to R169: a release before an acquire, and the stores of one wave that the tables' notes name. -/
def keptOrder (s : State) (saddle : Bool) (a b : StEntry) : Bool :=
  let ad := (b.parts.map (·.addrs s)).flatten
  a.touches s ad ||
    (a.wave == b.wave &&
      ((a.rel && b.acq) || (a.onPath 3 && b.onPath 3) || (a.onPath 6 && b.onPath 6) || (saddle && a.onPath 2 && b.onPath 2) ||
       (a.parts.any (fun p => p.path == 7 && b.parts.any (fun q => q.path == 7 && q.peer == p.peer)))))

/-- The entry may be performed now. -/
def performReady (s : State) (core : Nat) (e : StEntry) : Bool :=
  let before := (s.core core).outs.takeWhile (·.id != e.id)
  let saddle := match s.wave? e.wave with | some w => onSaddle s w | none => false
  !before.any (fun a => keptOrder s saddle a e)

/-- The old value of an atomic goes to its register (R336). Without a register, a read in error raises the deferred
cause alone, with the part's address, which is 0 for an atomic by coordinates (model's choice, log entry 81). -/
def giveOld (s : State) (e : StEntry) (p : StPart) (old : Nat) (bad : Bool) : State :=
  match e.flight, p.ret with
  | some fid, some k =>
    s.mapWave e.wave (fun w => w.setJob fid k (fun j =>
      if bad then { j with err := some (lostCause s p.loc) }
      else { j with val := some (natWords j.n (leNat (layFwd j.fwd (leBytes p.size old)))) }))
  | _, _ =>
    if bad then
      s.mapWave e.wave (fun w => { w with defer := w.defer ++
        [⟨bitM p.lane, lostCause s p.loc, e.pc, [(p.lane, BitVec.ofNat 64 p.va)]⟩] })
    else s

/-- What a part asks of a peer (R460). -/
def StPart.asks (p : StPart) : PeerAct :=
  match p.op with
  | .store => .write (BitVec.ofNat 64 p.val)
  | .rmw op cmp => .atomic p.ety (BitVec.ofNat 3 op) (BitVec.ofNat 64 p.val) (BitVec.ofNat 64 cmp)

/-- Perform one part (R137, R141). -/
def performPart (s : State) (core : Nat) (e : StEntry) (p : StPart) : State :=
  let ctx := match s.wave? e.wave with | some w => waveCtx s w | none => 0
  let s := askPeer (useLoc s true ctx (core / 96) p.path p.va p.loc) ctx p.path p.va p.size p.asks
  match p.op with
  | .store =>
    let s := writeLoc s p.loc (leBytes p.size p.val)
    noteWrite s (some (e.wave, e.id)) (· != core) (p.addrs s)
  | .rmw op cmp =>
    let (bs, bad) := rawBytes s p.loc
    if bad then giveOld s e p 0 true
    else
      let old := leNat bs
      let new := leBytes p.size (atomicNew p.ety op old p.val cmp)
      let s := writeLoc s p.loc new
      let younger := ((((s.core core).outs.dropWhile (·.id != e.id)).drop 1).map (·.cells s)).flatten
      let s := l1Update s core (((p.addrs s).zip new).filter (fun x => !younger.any (·.1 == x.1)))
      let s := noteWrite s (some (e.wave, e.id)) (fun _ => true) (p.addrs s)
      giveOld s e p old false

/-- Mark parts of an entry past the order point as done. -/
def markDone (s : State) (core id : Nat) (which : Nat → Bool) : State :=
  s.mapCore core (fun k => { k with outs := k.outs.map (fun e =>
    if e.id = id then { e with parts := e.parts.zipIdx.map (fun p => if which p.2 then { p.1 with done := true } else p.1) }
    else e) })

/-- An acquire acts on the L1: lines filled before now are not used (R150). -/
def acquireNow (s : State) (u : Nat) : State := s.mapWave u (fun w => { w with acqAt := s.now })

/-- An acquire of a wave at a scope (R136, R150, R151). -/
def acquireAt (s : State) (u scope : Nat) : State :=
  match s.wave? u with
  | some w => if wideScope s w scope then acquireNow s u else s
  | none => s

/-- The part of an entry that waited for the driver stands in its wave's store queue (R184). -/
def StEntry.queued (s : State) (e : StEntry) : Bool :=
  match s.wave? e.wave with | some w => w.sq.any (·.id == e.id) | none => false

/-- An entry whose every write is performed at device scope: STQ falls, and SYQ with it but for writes
that the host or a peer still has to acknowledge (R147). Lanes that left ahead of the entry lower nothing. -/
def finishEntry (s : State) (core id : Nat) : State :=
  match (s.core core).outs.find? (·.id == id) with
  | none => s
  | some e =>
    if !e.open_.isEmpty then s
    else
      let s := s.mapCore core (fun k => { k with outs := k.outs.filter (·.id != id) })
      let egress := e.parts.any (fun p => p.path == 6 || p.path == 7)
      let toEgress (s : State) : State := s.mapCore core (fun k => { k with egress := k.egress ++ [{ e with stq := false }] })
      if e.queued s then (if egress then toEgress s else s)
      else
        let s := if e.acq then acquireAt s e.wave e.scope else s
        let s := s.mapWave e.wave (fun w => w.lower 1)
        if egress then toEgress s else s.mapWave e.wave (fun w => w.lower 2)

/-- A part waits at its slice (R446). -/
def partAsleep (s : State) (e : StEntry) (p : StPart) : Bool :=
  match s.wave? e.wave with
  | some w => sliceAsleep s (waveCtx s w) (w.core / 96) p.path p.va p.loc
  | none => false

/-- Perform the first `upto` parts of an entry, in increasing lane number: none before one that waits at its slice
(R140). -/
def performEntry (s : State) (core id upto : Nat) : State :=
  match (s.core core).outs.find? (·.id == id) with
  | none => s
  | some e =>
    if !performReady s core e then s
    else
      let ps := (e.parts.zipIdx.filter (fun p => p.2 < upto && !p.1.done && p.1.path != pathSteppe)).takeWhile
        (fun p => !partAsleep s e p.1)
      let s := ps.foldl (fun s p => markDone (performPart s core e p.1) core id (· == p.2)) s
      finishEntry s core id

/-- The host or the peer acknowledges an entry (R147): SYQ falls with the last of its instruction. -/
def ackEntry (s : State) (core id : Nat) : State :=
  match (s.core core).egress.find? (·.id == id) with
  | none => s
  | some e =>
    let s := s.mapCore core (fun k => { k with egress := k.egress.erase e })
    if e.queued s || ((s.core core).outs ++ (s.core core).egress).any (·.id == id) then s
    else s.mapWave e.wave (fun w => w.lower 2)

end Sys2Proof.Machine
end

