-- ==== Sys2Proof/Machine/LoadStore.lean ====
section
/-!
DEFINITION. Loads, stores, atomics and remote adds by address, by offset and by coordinates, and PREF
(R324 to R344).
-/
namespace Sys2Proof.Machine

/-! ## Holding at issue (R144, R146, R186) -/

/-- A memory instruction waits at issue while the quadrant's operand log is full or a counter of `ks`
stands at its limit; members of a transaction raise only LDQ (R159). -/
def memHold (ks : List Nat) (s : State) (w : Wave) (a : Mask) : Bool :=
  a != 0 && (logFull s w || counterFull w (if w.members &&& a != 0 then ks.filter (· == 0) else ks))

/-- An atomic by a member is performed at issue: it waits until the wave's earlier stores and the lanes'
earlier reads are performed (R144, R363). -/
def memberHold (s : State) (w : Wave) (a : Mask) : Bool :=
  w.members &&& a != 0 &&
    (!w.sq.isEmpty || (s.core w.core).outs.any (fun e => e.open_.any (!·.isStore)) ||
      !readsDone s w s.nextId a.getLsbD)

/-- It waits too while a slice that it reaches opens no row (R444, R446). -/
def memberAsleep (as : State → Ctx → List Acc) (s : State) (w : Wave) (a : Mask) : Bool :=
  w.members &&& a != 0 &&
    (match s.cur with
     | none => false
     | some i =>
       let c : Ctx := ⟨i, w, w.uid, a, a, s.team? w.team⟩
       (as s c).any (fun x =>
         match x.chk with | .ok l => sliceAsleep s c.ctxNo c.die x.path x.adr l | _ => false))

/-- A memory instruction: its operands, the counters it raises, its body. -/
def memSem (f : Full) (ks : List Nat) (ops : State → Wave → Nat → List Opnd) (body : State → Ctx → Res) : Sem :=
  { Sem.plain f with ops := ops, hold := memHold ks, body := body }

/-- A flag that the kernel descriptor declares (R216). -/
def declares (p : KDesc → Bool) (s : State) (w : Wave) (_ : Bool) : Bool :=
  match s.team? w.team with | some t => p t.desc | none => true

/-! ## Sizes, offsets, values (R324, R325) -/

def Full.mw (f : Full) : Nat := if f.imm? then 0 else f.hi3

/-- Bytes of an access. -/
def accSize (f : Full) : Nat :=
  match Full.mw f with | 1 => 1 | 2 => 2 | _ => 4 * f.ety.regs

def hasX (f : Full) : Bool := !f.imm? && f.md.getLsbD 3

/-- The byte offset in a lane. -/
def byteOff (f : Full) (t : Thread) : Int :=
  if f.imm? then sext16 f.imm16 else if hasX f then (t.reg f.bn).toInt else 0

def opOff (f : Full) (l : Nat) : List Opnd :=
  if hasX f then [.src l 2 f.bn 1 f.femB (some .s32)] else []

/-- The value that a store narrows (R79, R325). -/
def storeValue (f : Full) (v : Nat) : Nat :=
  let top := 2 ^ (8 * accSize f)
  if f.sat && Full.mw f != 0 && !f.imm? then min v (top - 1) else v % top

/-- An operand or the loaded destination of the value. -/
def opVal (f : Full) (load : Bool) (l : Nat) : Opnd := if load then opD f l else opStored f l f.ety.regs

/-! ## LD and ST (R328, R387) -/

def isQ (f : Full) : Bool := f.md.getLsbD 2

/-- The generic address of LD and ST in a lane. -/
def ldAddr (f : Full) (w : Wave) (l : Nat) : Nat :=
  let t := w.thread l
  if isQ f then (Int.emod ((w.qpair f.an).toNat + byteOff f t + accSize f * l) (2 ^ 64)).toNat
  else (Int.emod (t.val f.an 2 + byteOff f t) (2 ^ 64)).toNat

def genAcc (s : State) (c : Ctx) (f : Full) (want : Want) (addr : Nat) (l : Nat) : Acc :=
  { lane := l, chk := checkGeneric s c.who addr (accSize f) want false, gen := some (servedAs s addr),
    adr := servedAs s addr, path := servedAs s addr / 2 ^ 60, size := accSize f, dst := f.dn, n := f.ety.regs }

def ldOps (f : Full) (load : Bool) (l : Nat) : List Opnd :=
  [opVal f load l] ++ (if isQ f then [] else [opA f l .n64]) ++ opOff f l

def semLd (f : Full) : Sem :=
  { memSem f [0] (fun _ _ l => ldOps f true l) (fun s c =>
      loadAccs f true (c.lanes.map (fun l => genAcc s c f .read (ldAddr f c.rd l) l)) s c) with
    legal := fun _ _ hm => !isQ f || hm }

/-- Stores of a lane's value register. -/
def storeReg (f : Full) (wants : List Want) (as : List Acc) (s : State) (c : Ctx) : Res :=
  storeAccs .plain 0 false false wants as (fun a =>
    a.part f.ety .store (storeValue f ((c.rd.thread a.lane).val a.dst a.n)) none .write) s c

def semSt (f : Full) : Sem :=
  { memSem f [1, 2] (fun _ _ l => ldOps f false l) (fun s c =>
      storeReg f [.write] (c.lanes.map (fun l => genAcc s c f .write (ldAddr f c.rd l) l)) s c) with
    legal := fun _ _ hm => !isQ f || hm }

/-! ## Scratchpad and private memory (R331, R332) -/

def offAddr (f : Full) (t : Thread) : Int := (t.reg f.an).toNat + byteOff f t

def scratchAcc (c : Ctx) (f : Full) (o : Int) (l : Nat) : Acc :=
  { lane := l, chk := checkScratch c.who o (accSize f),
    gen := if 0 ≤ o ∧ o < 2 ^ 32 then some (2 * 2 ^ 60 + o.toNat) else none, adr := 2 * 2 ^ 60 + o.toNat, path := 2,
    size := accSize f, dst := f.dn, n := f.ety.regs }

def privAcc (c : Ctx) (f : Full) (o : Int) (l : Nat) : Acc :=
  let limit := match c.team with | some t => t.desc.privH | none => 0
  { lane := l, chk := checkPrivate c.rd.hwm limit c.rd.priv c.rd.width l o (accSize f), gen := none,
    adr := o.toNat, path := pathPriv, size := accSize f, dst := f.dn, n := f.ety.regs }

def offOps (f : Full) (load : Bool) (l : Nat) : List Opnd := [opVal f load l, opA f l .n32] ++ opOff f l

def semLds (f : Full) : Sem :=
  memSem f [0] (fun _ _ l => offOps f true l) (fun s c =>
    loadAccs f true (c.lanes.map (fun l => scratchAcc c f (offAddr f (c.rd.thread l)) l)) s c)
def semSts (f : Full) : Sem :=
  memSem f [1, 2] (fun _ _ l => offOps f false l) (fun s c =>
    storeReg f [.write] (c.lanes.map (fun l => scratchAcc c f (offAddr f (c.rd.thread l)) l)) s c)
def semLdp (f : Full) : Sem :=
  memSem f [0] (fun _ _ l => offOps f true l) (fun s c =>
    loadAccs f true (c.lanes.map (fun l => privAcc c f (offAddr f (c.rd.thread l)) l)) s c)
def semStp (f : Full) : Sem :=
  memSem f [1, 2] (fun _ _ l => offOps f false l) (fun s c =>
    storeReg f [.write] (c.lanes.map (fun l => privAcc c f (offAddr f (c.rd.thread l)) l)) s c)

/-! ## LDRO (R330) -/

def roAcc (s : State) (c : Ctx) (f : Full) (l : Nat) : Acc :=
  let a := (Int.emod ((c.rd.wpair f.an).toNat + byteOff f (c.rd.thread l)) (2 ^ 64)).toNat
  let path := a / 2 ^ 60
  let chk : Chk :=
    if path = 0 ∨ path = 4 then checkGeneric s c.who (4 * 2 ^ 60 + a % 2 ^ 60) (accSize f) .read false
    else .trap .rights a 0
  { lane := l, chk := chk, gen := some (4 * 2 ^ 60 + a % 2 ^ 60),
    adr := 4 * 2 ^ 60 + a % 2 ^ 60, path := 4, size := accSize f, dst := f.dn,
    n := f.ety.regs }

def semLdro (f : Full) : Sem :=
  { memSem f [0] (fun _ _ l => [opD f l] ++ opOff f l) (fun s c =>
      loadAccs f true (c.lanes.map (roAcc s c f)) s c) with wsrc := [f.an % 64, f.an % 64 + 1] }

/-! ## Gather and scatter (R333, R334) -/

/-- The element count. -/
def elemCount (f : Full) : Nat := f.md.toNat % 16 + 1

def gatherOps (f : Full) (load : Bool) (l : Nat) : List Opnd :=
  let k := f.ety.regs
  let n := elemCount f
  [if load then .dst l f.dn (n * k) else opStored f l (n * k),
   opA f l .n64, .src l 2 f.bn n f.femB (some .s32)]

/-- The first element of the loop. -/
def elemStart (c : Ctx) : Nat := if c.rd.resumes then c.rd.progIndex else 0

/-- The accesses in the order of the loop, below element `upto` where it stops. -/
def gatherAccs (s : State) (c : Ctx) (f : Full) (want : Want) (upto : Option Nat) : List Acc :=
  (((List.range (upto.getD (elemCount f))).filter (elemStart c ≤ ·)).map (fun j => c.lanes.map (fun l =>
    let t := c.rd.thread l
    let a := (Int.emod (t.val f.an 2 + (t.reg (f.bn + j)).toInt * accSize f) (2 ^ 64)).toNat
    { genAcc s c f want a l with dst := f.dn + j * f.ety.regs }))).flatten

/-- The element boundaries inside the loop. -/
def elemPoints (f : Full) (c : Ctx) : List Nat := (List.range (elemCount f)).filter (elemStart c < ·)

def semLdg (f : Full) : Sem :=
  memSem f [0] (fun _ _ l => gatherOps f true l) (fun s c =>
    longOp true (elemPoints f c) (fun upto => loadAccs f true (gatherAccs s c f .read upto) s c) s c)

def semStg (f : Full) : Sem :=
  memSem f [1, 2] (fun _ _ l => gatherOps f false l) (fun s c =>
    longOp true (elemPoints f c) (fun upto =>
      storeAccs .plain 0 false false [.write] (gatherAccs s c f .write upto) (fun a =>
        a.part f.ety .store ((c.rd.thread a.lane).val a.dst a.n) none .write) s c) s c)

/-! ## Atomics by address and offset (R335 to R337) -/

def atomRet (f : Full) : Bool := f.imm? || f.sb.getLsbD 10
def atomCode (f : Full) : Nat := if f.imm? then f.lo3 else f.hi3
/-- Team scope in the immediate form of ATOMS. -/
def atomScope (f : Full) : Nat := if f.imm? then 1 else f.scope
def atomAcq (f : Full) : Bool := !f.imm? && f.md.getLsbD 0
def atomRel (f : Full) : Bool := !f.imm? && f.md.getLsbD 1

/-- The value operand. For cas it is the compare value, and the new value in the register or pair after it is a source
alone (R335). Its place in the order of R81 is the model's: operand code 0, directly after D, whose next register it is
(DEDUCED, log entry 93). -/
def opAtom (f : Full) (l : Nat) : List Opnd :=
  let n := f.ety.regs
  (if atomRet f then [.acc l f.dn n f.femD (some f.ety)] else [opStored f l n]) ++
    (if atomCode f = 7 then [.src l 0 (f.dn + n) n f.femD (some f.ety)] else [])

def atomArg (f : Full) (c : Ctx) (l : Nat) : AtomArgs :=
  let t := c.rd.thread l
  if atomCode f = 7 then ⟨t.val (f.dn + f.ety.regs) f.ety.regs, t.val f.dn f.ety.regs⟩
  else ⟨t.val f.dn f.ety.regs, 0⟩

/-- What an atomic shares: members may use relaxed ordering only (R364). -/
def atomSem (f : Full) (ops : State → Wave → Nat → List Opnd) (as : State → Ctx → List Acc) : Sem :=
  { memSem f (if atomRet f then [0, 1, 2] else [1, 2]) ops (fun s c =>
      atomicAccs f (atomCode f) (atomScope f) (atomAcq f) (atomRel f) (atomRet f) (atomArg f c) (as s c) s c) with
    hold := fun s w a => memHold (if atomRet f then [0, 1, 2] else [1, 2]) s w a || memberHold s w a || memberAsleep as s w a
    forbid := fun _ => atomAcq f || atomRel f }

/-- PCI Express carries integer add, xchg and cas (R337). -/
def hostAtomic (f : Full) : Bool :=
  (atomCode f == 0 && f.ety != .f32) || atomCode f == 6 || atomCode f == 7

def atomAcc (s : State) (c : Ctx) (f : Full) (l : Nat) : Acc :=
  let a := (c.rd.thread l).val f.an 2
  let g := { genAcc s c f .atomic a l with size := 4 * f.ety.regs, chk := checkGeneric s c.who a (4 * f.ety.regs) .atomic false }
  if a / 2 ^ 60 = 6 ∧ !hostAtomic f then
    { g with chk := match g.chk with
        | .trap k tv pos => if pos ≤ 2 then .trap k tv pos else .trap .rights a 3
        | _ => .trap .rights a 3 }
  else g

def semAtom (f : Full) : Sem :=
  atomSem f (fun _ _ l => opAtom f l ++ [opA f l .n64]) (fun s c => c.lanes.map (atomAcc s c f))

def atomsAcc (c : Ctx) (f : Full) (l : Nat) : Acc :=
  let t := c.rd.thread l
  let o : Int := (t.reg f.an).toNat + (if f.imm? then sext16 f.imm16 else 0)
  { scratchAcc c f o l with size := 4 * f.ety.regs, chk := checkScratch c.who o (4 * f.ety.regs) }

def semAtoms (f : Full) : Sem :=
  atomSem f (fun _ _ l => opAtom f l ++ [opA f l .n32]) (fun _ c => c.lanes.map (atomsAcc c f))

/-! ## RSADD (R338) -/

def rsAcc (s : State) (c : Ctx) (f : Full) (l : Nat) : Acc :=
  let a := (c.rd.thread l).val f.an 2
  { lane := l, chk := checkGeneric s c.who a 4 .atomic true, gen := some a, adr := a, path := a / 2 ^ 60, size := 4,
    dst := f.dn, n := 1 }

def semRsadd (f : Full) : Sem :=
  memSem f [1, 2] (fun _ _ l => [opStored f l 1, opA f l .n64]) (fun s c =>
    storeAccs .rsadd f.scope (f.md.getLsbD 0) (f.md.getLsbD 1) [.atomic] (c.lanes.map (rsAcc s c f)) (fun a =>
      a.part f.ety (.rmw 0 0) ((c.rd.thread a.lane).val f.dn 1) none .atomic) s c)

/-! ## Coordinate access (R340 to R343) -/

/-- The descriptor that the handle of SB locates. -/
def handleOf (s : State) (w : Wave) (n : Nat) : Option Desc := handleDesc s (waveCtx s w) (w.wreg (n % 64))

/-- The coordinate run; without a located region only its first register is known. -/
def opCoords (s : State) (w : Wave) (f : Full) (l : Nat) : Opnd :=
  let n := match handleOf s w f.bn with | some d => max 1 (dRank d) | none => 1
  .src l 1 f.an n f.femA (some .s32)

/-- FORMAT of a region (R112). -/
def regionFormat (s : State) (w : Wave) (h : Word) (t : Ety) : Option DWord :=
  match handleDesc s (waveCtx s w) h with
  | some d => if tagOk t (dEty d) then none else some (formatTval t (dEty d) 4 (hIdx h))
  | none => none

/-- Elements that a register of the type holds. -/
def coordCount (f : Full) : Nat := f.ety.elems

/-- A lane's coordinate access. STEPPE is `sw`'s cause on a Steppe region, after every other check. -/
def coordAcc (s : State) (c : Ctx) (f : Full) (want : Want) (classOk : Nat → Bool) (sw : Bool) (l : Nat) : Acc :=
  let h := c.rd.wreg (f.bn % 64)
  let t := c.rd.thread l
  match handleDesc s c.ctxNo h with
  | none =>
    { lane := l, chk := .trap .rights h.toNat 10, gen := none, adr := 0, path := pathTiled, size := 0, dst := f.dn, n := f.ety.regs }
  | some d =>
    let m := coordCount f
    let chk := checkCoord s c.ctxNo h d (t.regs f.an (dRank d)) m want classOk
    let chk := match chk with
      | .ok x => if sw && dClass d == 2 then .trap .steppe h.toNat 0 else .ok x
      | x => x
    let adr := match chk with | .ok x => (x.addrs s).headD 0 | _ => 0
    { lane := l, chk := chk, gen := none, adr := adr, path := if dClass d == 2 then pathSteppe else pathTiled,
      size := m * dEs d, dst := f.dn, n := f.ety.regs }

/-- The Active lanes' region is of class Steppe. -/
def onSteppe (s : State) (c : Ctx) (f : Full) : Bool :=
  match handleDesc s c.ctxNo (c.rd.wreg (f.bn % 64)) with | some d => dClass d == 2 | none => false

/-- FORMAT of the handle's region, decided for the word whether or not a lane is Active (R231). -/
def coordFmt (f : Full) (s : State) (w : Wave) (_ : Mask) : Option DWord :=
  regionFormat s w (w.wreg (f.bn % 64)) f.ety

def semLdt (f : Full) : Sem :=
  { memSem f [0] (fun s w l => [opD f l, opCoords s w f l]) (fun s c =>
      loadAccs f true (c.lanes.map (coordAcc s c f .read (· == 1) false)) s c) with
    wsrc := [f.bn % 64], fmt := coordFmt f }

def semStt (f : Full) : Sem :=
  { memSem f [1, 2] (fun s w l => [opStored f l f.ety.regs, opCoords s w f l]) (fun s c =>
      storeReg f [.write]
        (c.lanes.map (coordAcc s c f .write (fun k => k == 1 || k == 2) (f.ety == .bits))) s c) with
    wsrc := [f.bn % 64], fmt := coordFmt f }

def semAtomt (f : Full) : Sem :=
  let op := atomCode f
  let accs (s : State) (c : Ctx) : List Acc :=
    c.lanes.map (coordAcc s c f .atomic (fun k => k == 1 || (k == 2 && !atomRet f)) (op == 6 || op == 7))
  { atomSem f (fun s w l => opAtom f l ++ [opCoords s w f l]) accs with
    wsrc := [f.bn % 64], fmt := coordFmt f
    body := fun s c =>
      if onSteppe s c f then
        storeAccs .rsadd f.scope (atomAcq f) (atomRel f) [.atomic] (accs s c) (fun a =>
          a.part f.ety (.rmw op 0) (f.valD (c.rd.thread a.lane)) none .atomic) s c
      else atomicAccs f op f.scope (atomAcq f) (atomRel f) (atomRet f) (atomArg f c) (accs s c) s c }

/-- LAPR's requests go into the fabric at issue (R343, R418); they are admitted in their order (R163). -/
def laprRequests (c : Ctx) (f : Full) (fid : Nat) (as : List Acc) : List SReq :=
  as.zipIdx.filterMap (fun p =>
    match p.1.loc with
    | .elem comp idx co _ es =>
      some { wave := c.u, comp := comp, idx := idx, co := co, es := es, ety := f.ety, op := none, val := 0,
             core := c.rd.core, entry := fid, job := p.2, lap := 0 }
    | _ => none)

def laprBody (f : Full) (s : State) (c : Ctx) : Res :=
  let as := c.lanes.map (coordAcc s c f .read (· == 2) false)
  let (ts, ok) := splitAccs c.tx as
  if ok.isEmpty then { st := s, traps := ts }
  else
    let (id, s) := s.newId
    let jobs := ok.map (fun a => Job.read a.lane a.dst (a.n + 1) f.ety .await pathSteppe a.adr)
    let (s, room) := startFlight s c
      { Flight.start id c.pc f.ety with mem := true, ldq := true, lapTx := c.tx, jobs := jobs }
    if !room then { st := s, traps := ts, abort := fullAbort c 4 }
    else
      let s := { s with fabric := s.fabric ++ laprRequests c f id ok }
      { st := sendSigs s c ok, traps := ts }

def semLapr (f : Full) : Sem :=
  { memSem f [0] (fun s w l => [.dst l f.dn (f.ety.regs + 1), opCoords s w f l]) (laprBody f) with
    wsrc := [f.bn % 64], fmt := coordFmt f, legal := declares (·.ust) }

/-! ## PREF (R344) -/

/-- Fill a line into the slice cache, and without .slc into the core's L1. An address that would raise a cause
does nothing, and one that waits at its slice fills nothing (log entry 24). -/
def prefLane (f : Full) (s : State) (c : Ctx) (l : Nat) : State :=
  let t := c.rd.thread l
  let off : Int := if f.imm? then sext16 f.imm16 else (t.reg f.bn).toInt
  let a := (Int.emod (t.val f.an 2 + off) (2 ^ 64)).toNat
  let path := a / 2 ^ 60
  if !cachedPath path then s
  else
    match checkGeneric s c.who a 1 .read false with
    | .ok (.bytes (x :: _) _) =>
      let at_ : Loc := .bytes [x] .plain
      if sliceAsleep s c.ctxNo c.die path a at_ then s
      else
        let s := useLoc s false c.ctxNo c.die path a at_
        if f.lo3 % 2 = 1 ∨ anyPoison s [x] then s else l1Fill s c.rd.core (lineOf x)
    | _ => s

def semPref (f : Full) : Sem :=
  memSem f [] (fun _ _ l => [opA f l .n64] ++ (if f.imm? then [] else [.src l 2 f.bn 1 f.femB (some .s32)]))
    (fun s c => { st := c.lanes.foldl (fun s l => prefLane f s c l) s })

def execLd (f : Full) (s : State) : Out := execX (semLd f) s
def execSt (f : Full) (s : State) : Out := execX (semSt f) s
def execLds (f : Full) (s : State) : Out := execX (semLds f) s
def execSts (f : Full) (s : State) : Out := execX (semSts f) s
def execLdp (f : Full) (s : State) : Out := execX (semLdp f) s
def execStp (f : Full) (s : State) : Out := execX (semStp f) s
def execLdro (f : Full) (s : State) : Out := execX (semLdro f) s
def execLdg (f : Full) (s : State) : Out := execX (semLdg f) s
def execStg (f : Full) (s : State) : Out := execX (semStg f) s
def execAtom (f : Full) (s : State) : Out := execX (semAtom f) s
def execAtomt (f : Full) (s : State) : Out := execX (semAtomt f) s
def execAtomsReg (f : Full) (s : State) : Out := execX (semAtoms f) s
def execAtomsImm (f : Full) (s : State) : Out := execX (semAtoms f) s
def execRsadd (f : Full) (s : State) : Out := execX (semRsadd f) s
def execLdt (f : Full) (s : State) : Out := execX (semLdt f) s
def execStt (f : Full) (s : State) : Out := execX (semStt f) s
def execLapr (f : Full) (s : State) : Out := execX (semLapr f) s
def execPref (f : Full) (s : State) : Out := execX (semPref f) s

end Sys2Proof.Machine
end

