-- ==== Sys2Proof/Machine/Infuser.lean ====
section
/-!
DEFINITION. The Infuser's coded blocks (R440): Rice codes and CRC-32C.
-/
namespace Sys2Proof.Machine

/-- One step of CRC-32C over a byte (reflected polynomial 0x82F63B78; log entry 11). -/
def crcByte (c : Word) (b : Byte) : Word :=
  (List.range 8).foldl (fun c _ => if c.getLsbD 0 then (c >>> 1) ^^^ 0x82F63B78 else c >>> 1)
    (c ^^^ b.zeroExtend 32)

def crc32c (bs : List Byte) : Word := ~~~ (bs.foldl crcByte 0xFFFFFFFF)

/-- Bits of bytes, bit 7 of each first. -/
def payloadBits (bs : List Byte) : List Bool :=
  (bs.map (fun b => (List.range 8).map (fun i => b.getLsbD (7 - i)))).flatten

/-- One bits up to a zero bit. -/
def unaryRun : List Bool → Nat → Option (Nat × List Bool)
  | [], _ => none
  | false :: r, q => some (q, r)
  | true :: r, q => unaryRun r (q + 1)

def bitsValue (l : List Bool) : Nat := l.foldl (fun n b => 2 * n + b.toNat) 0

/-- `n` Rice codes with parameter k. -/
def riceBytes (k : Nat) : Nat → List Bool → Option (List Byte)
  | 0, _ => some []
  | n + 1, bits =>
    match unaryRun bits 0 with
    | none => none
    | some (q, r) =>
      if r.length < k then none
      else
        let z := q * 2 ^ k + bitsValue (r.take k)
        if z ≥ 256 then none
        else
          let v : Byte := if z % 2 = 0 then BitVec.ofNat 8 (z / 2) else ~~~ BitVec.ofNat 8 (z / 2)
          (riceBytes k n (r.drop k)).map (v :: ·)

/-- The bytes of a coded block that its decoding reads: the header, and the payload that its CLEN names (R440). -/
def codedBytes (s : State) (b : Block) : List Nat :=
  let clen := devNat s b.hdr 16 / 2 ^ 48 % 2 ^ 16
  rangeFrom b.hdr (16 + (if 16 + clen ≤ b.slot then clen else 0))

/-- The raw bytes of a coded block; none where it is corrupt. -/
def decodeBlock (img : List Byte) (b : Block) : Option (List Byte) :=
  let h := leNat (img.take 16)
  let magic := h % 2 ^ 32
  let rlen := h / 2 ^ 32 % 2 ^ 16
  let clen := h / 2 ^ 48 % 2 ^ 16
  let k := h / 2 ^ 64 % 16
  let rsv := h / 2 ^ 68 % 2 ^ 28
  let crc := h / 2 ^ 96 % 2 ^ 32
  if magic ≠ 0x31464E49 ∨ rlen ≠ b.raw ∨ 16 + clen > b.slot ∨ k > 8 ∨ rsv ≠ 0 then none
  else
    match riceBytes k rlen (payloadBits ((img.drop 16).take clen)) with
    | none => none
    | some raw => if (crc32c raw).toNat = crc then some raw else none

end Sys2Proof.Machine
end

