-- ==== Sys2Proof/Machine/Tiles.lean ====
section
/-!
DEFINITION. Tiles: the table (R126 to R130), compressed images (R131), TDEF, TSTATE, TWAIT, TLD, TST, TRD,
TWR, TZERO (R345 to R354), and the transfers that TLD and TST start.
-/
namespace Sys2Proof.Machine

/-! ## The tile table (R126 to R129) -/

def tCmp (e : DWord) : Bool := e.getLsbD 61
def tAcc (e : DWord) : Bool := e.getLsbD 60
def tFmt (e : DWord) : Ety := (Ety.ofCode (e.extractLsb' 56 4)).getD .bits
def tH (e : DWord) : Nat := dwn e 46 10 + 1
def tW (e : DWord) : Nat := dwn e 36 10 + 1
def tSize (e : DWord) : Nat := dwn e 16 11 * 64
def tBase (e : DWord) : Nat := dwn e 0 16 * 256
/-- Bytes of the logical image (R127). -/
def tLen (e : DWord) : Nat := tH e * tW e * (tFmt e).esize
def setFmt (e : DWord) (t : Ety) : DWord := (e &&& ~~~ (0xF#64 <<< 56)) ||| (t.code.zeroExtend 64 <<< 56)

/-- The pool byte at an offset from a tile's base. -/
def tAddr (t : Team) (e : DWord) (o : Nat) : Nat :=
  if tAcc e then t.asAddr (tBase e + o) else t.spAddr (tBase e + o)
def tAddrs (t : Team) (e : DWord) (o n : Nat) : List Nat := (List.range n).map (fun k => tAddr t e (o + k))

/-- The entry that an instruction of a wave names: none where it raises TILE (R126, R345). -/
def namedTile (s : State) (w : Wave) (i : Nat) (orEmpty : Bool) : Option DWord :=
  match s.team? w.team with
  | none => none
  | some t =>
    let e := s.tileEnt t w.core i
    if i ≥ t.desc.tiles then none else if tileState e = 0 && !orEmpty then none else some e

/-- The tile that the Active threads wait for: not READY, or with readers where `count` says so (R129,
R131). A wait for the reader count is numbered from 256 up. -/
def tileWait (i : Nat) (orEmpty count : Bool) (s : State) (w : Wave) (_ : Mask) : Option Wait :=
  match namedTile s w i orEmpty, s.team? w.team with
  | some e, some t =>
    if tileState e = 1 ∨ tileState e = 3 ∨ (count ∧ s.tileReaders t i ≠ 0) then some (.tile (if count then 256 + i else i))
    else none
  | _, _ => none

/-- Stores and atomics past the order point of the cores that hold a team's shares. -/
def teamOuts (s : State) (t : Team) : List StEntry :=
  (s.core t.core).outs ++ (if t.saddle then (s.core (t.core + 1)).outs else [])

/-- A waiting thread's tile may be taken again. -/
def tileFree (s : State) (w : Wave) (k : Nat) : Bool :=
  match s.team? w.team with
  | none => true
  | some t =>
    let e := s.tileEnt t w.core (k % 256)
    tileState e != 1 && tileState e != 3 && (k < 256 || s.tileReaders t (k % 256) == 0)

def tileTraps (c : Ctx) (i : Nat) : List Trap := c.lanes.map (fun l => ⟨l, .tile, BitVec.ofNat 64 i, 0⟩)

/-- FORMAT of a tile operand (R81, R130), decided for the word whether or not a lane is Active (R231). -/
def tileFormat (i : Nat) (t : Ety) (s : State) (w : Wave) (_ : Mask) : Option DWord :=
  match namedTile s w i false with
  | some e => if tagOk t (tFmt e) then none else some (formatTval t (tFmt e) 3 i)
  | none => none

/-- Entries of the wave's store queue, or of the core past its order point, that reach a tile's
allocation: an instruction that names the tile comes after them (R161). -/
def tileBusy (i : Nat) (s : State) (w : Wave) (a : Mask) : Bool :=
  match namedTile s w i false, s.team? w.team with
  | some e, some t =>
    let ad := tAddrs t e 0 (tSize e)
    a != 0 && (w.sq ++ teamOuts s t).any (fun x => x.touches s ad)
  | _, _ => false

/-- A load of the wave at a tile's bytes is still to be performed: what writes the tile comes after it (R161). -/
def tileRead (i : Nat) (s : State) (w : Wave) (a : Mask) : Bool :=
  match namedTile s w i false, s.team? w.team with
  | some e, some t => a != 0 && readPending s w s.nextId (tAddrs t e 0 (tSize e))
  | _, _ => false

/-- A read at issue comes after the lanes' earlier loads and the wave's atomics and acquires (R144, R151, R164). -/
def loadsAhead (s : State) (w : Wave) (a : Mask) : Bool :=
  a != 0 && (!readsDone s w s.nextId a.getLsbD || (ownBefore s w s.nextId).any (·.fences))

/-! ## Compressed images (R131) -/

def sectorCount (len b : Nat) : Nat := min 32 ((len - 1024 * b) / 32)

/-- Expand the sectors of a block: the map, the sector number, the sector before, the raw bytes. -/
def expandSectors (map : Nat) : Nat → Nat → List Byte → List Byte → Option (List Byte)
  | 0, _, _, _ => some []
  | k + 1, i, prev, raw =>
    let go (x : List Byte) (raw : List Byte) : Option (List Byte) :=
      (expandSectors map k (i + 1) x raw).map (x ++ ·)
    match map / 4 ^ i % 4 with
    | 0 => go (List.replicate 32 0) raw
    | 1 => if raw.length < 32 then none else go (raw.take 32) (raw.drop 32)
    | 2 => if i = 0 then none else go prev raw
    | _ => none

/-- The logical image of a compressed one; none: the read port refuses it, a code 11 in any sector of a map or a code 10
in sector 0. A map or raw bytes beyond the allocation are taken to be refused as well (log entry 69). -/
def expandTile (img : List Byte) (len : Nat) : Option (List Byte) :=
  let n := ceilDiv len 1024
  let bs := (List.range n).map (fun b =>
    let o := leNat ((img.drop (2 * b)).take 2)
    let m := (img.drop o).take 8
    if m.length < 8 || (List.range 32).any (fun i => leNat m / 4 ^ i % 4 == 3) || leNat m % 4 == 2 then none
    else expandSectors (leNat m) (sectorCount len b) 0 [] (img.drop (o + 8)))
  if bs.all (·.isSome) then some (bs.map (·.getD [])).flatten else none

/-- Code the sectors of a block: map and raw bytes. -/
def codeSectors : Nat → Nat → List Byte → List Byte → Nat × List Byte
  | 0, _, _, _ => (0, [])
  | k + 1, i, prev, img =>
    let x := img.take 32
    let r := codeSectors k (i + 1) x (img.drop 32)
    if x.all (· == 0) then r
    else if i ≠ 0 ∧ x = prev then (r.1 + 2 * 4 ^ i, r.2)
    else (r.1 + 4 ^ i, x ++ r.2)

/-- The compressed image of a logical one: offsets, then blocks. -/
def codeTile (img : List Byte) : List Byte :=
  let n := ceilDiv img.length 1024
  let bs := (List.range n).map (fun b =>
    let r := codeSectors (sectorCount img.length b) 0 [] (img.drop (1024 * b))
    leBytes 8 r.1 ++ r.2)
  let start := ceilDiv (2 * n) 8 * 8
  let offs := (List.range n).map (fun b => start + ((bs.take b).map List.length).foldl (· + ·) 0)
  let table := (offs.map (leBytes 2)).flatten
  table ++ List.replicate (start - table.length) 0 ++ bs.flatten

/-- Bytes of a tile's allocation as the core reads them, with some cells laid over them. -/
def tileBytes (s : State) (core : Nat) (t : Team) (e : DWord) (cs : List (Nat × Byte)) (n : Nat) : List Byte :=
  let ad := tAddrs t e 0 n
  layOver cs ad (coreBytes s core ad)

/-- The logical image as a thread reads it whose buffered stores write some cells (R363). -/
def tileImageWith (s : State) (core : Nat) (t : Team) (e : DWord) (cs : List (Nat × Byte)) : Option (List Byte) :=
  if tCmp e then expandTile (tileBytes s core t e cs (tSize e)) (tLen e) else some (tileBytes s core t e cs (tLen e))

/-- The logical image as the core reads it. -/
def tileImage (s : State) (core : Nat) (t : Team) (e : DWord) : Option (List Byte) := tileImageWith s core t e []

/-- The places in a compressed image that reading block b takes: its offset, its map and its raw sectors (R131). -/
def codedPlaces (img : List Byte) (len b : Nat) : List Nat :=
  let o := leNat ((img.drop (2 * b)).take 2)
  let m := leNat ((img.drop o).take 8)
  rangeFrom (2 * b) 2 ++ rangeFrom o (8 + 32 * ((List.range (sectorCount len b)).filter (fun i => m / 4 ^ i % 4 == 1)).length)

/-- The pool bytes that a read of n bytes at offset o of a tile's logical image takes. -/
def tileReads (s : State) (core : Nat) (t : Team) (e : DWord) (cs : List (Nat × Byte)) (o n : Nat) : List Nat :=
  if tCmp e then (codedPlaces (tileBytes s core t e cs (tSize e)) (tLen e) (o / 1024)).map (tAddr t e) else tAddrs t e o n

/-- The cause of a read of lost bytes of a tile (R326, R450): bytes that stores of the core or the given cells write are
not lost. -/
def tileLost (s : State) (core : Nat) (t : Team) (e : DWord) (cs : List (Nat × Byte)) (o n : Nat) : Option Cause :=
  if s.poison.isEmpty then none
  else
    let cells := coreCells s core ++ cs
    let left := (tileReads s core t e cs o n).filter (fun a => (lastCell cells a).isNone)
    if anyPoison s left then some (poisonCause s left) else none

/-- The generic address of an offset of a tile (log entry 81). -/
def tileVa (e : DWord) (o : Nat) : Nat := shareVa (tAcc e) (tBase e + o)

/-- Write bytes of a team's pool; read sets take them as a conflict but for those of the writer's own
members (R365). -/
def poolWrite (s : State) (by_ : Option (Nat × Nat)) (ad : List Nat) (bs : List Byte) : State :=
  noteWrite (writeAddrs s ad bs) by_ (fun _ => true) ad

/-- Who writes a tile in an instruction: its members are not in conflict with themselves. -/
def tileWriter (s : State) (c : Ctx) : Option (Nat × Nat) := some (c.u, if c.tx then 0 else s.nextId)

/-! ## TDEF (R128, R132, R346) -/

/-- The entry of an image is one that TDEF takes (R128). The bytes of an accumulator tile, which must not span both
parts of a saddle team's share, are taken to be its whole allocation (DEDUCED, log entry 95). -/
def tdefOk (t : Team) (x : DWord) (ty : Ety) : Bool :=
  let e := setFmt x ty
  let n := ceilDiv (tLen e) 1024
  let share := if tAcc e then t.asTotal else t.spTotal
  dwn x 62 2 == 0 && dwn x 56 4 == 0 && dwn x 27 9 == 0 && tSize e != 0 && tSize e ≤ 65536 &&
    tBase e + tSize e ≤ share && (tCmp e || tLen e ≤ tSize e) && tLen e % 32 == 0 &&
    (!tCmp e || (ceilDiv (2 * n + 1032 * n) 64 * 64 ≤ tSize e && ty != .c64)) &&
    (!(t.saddle && tAcc e) || tBase e / t.asSize == (tBase e + tSize e - 1) / t.asSize)

def tdefBody (f : Full) (s : State) (c : Ctx) : Res :=
  let i := f.dst.toNat % 256
  let x := BitVec.ofNat 64 ((c.rd.thread (c.lanes.headD 0)).val f.an 2)
  match namedTile s c.rd i true, c.team with
  | some _, some t =>
    if tdefOk t x f.ety then { st := s.setTile t i (fun _ => setTileState (setFmt x f.ety) 2) }
    else { st := s, traps := tileTraps c i }
  | _, _ => { st := s, traps := tileTraps c i }

def semTdef (f : Full) : Sem :=
  { Sem.plain f with
    ops := fun s w l => [opWave f (opA f · .n64) s w l], tile := tileWait (f.dst.toNat % 256) true true, body := tdefBody f }

/-! ## TSTATE, TWAIT, TZERO (R347, R353) -/

def semTstate (f : Full) : Sem :=
  { Sem.plain f with
    ops := fun _ _ l => [.dst l f.dn 2]
    body := fun s c =>
      let i := f.an % 256
      match namedTile s c.rd i true with
      | some e => lanewise (fun _ _ _ => .val f.dn .n64 e.toNat) s c
      | none => { st := s, traps := tileTraps c i } }

def semTwait (f : Full) : Sem :=
  let i := f.dst.toNat % 256
  { Sem.plain f with
    tile := tileWait i false false
    body := fun s c => if (namedTile s c.rd i false).isSome then { st := s } else { st := s, traps := tileTraps c i } }

def tzeroBody (i : Nat) (s : State) (c : Ctx) : Res :=
  match namedTile s c.rd i false, c.team with
  | some e, some t =>
    let z := List.replicate (tLen e) (0 : Byte)
    let bs := if tCmp e then codeTile z else z
    { st := poolWrite s (tileWriter s c) (tAddrs t e 0 bs.length) bs }
  | _, _ => { st := s, traps := tileTraps c i }

def semTzero (f : Full) : Sem :=
  let i := f.dst.toNat % 256
  { Sem.plain f with tile := tileWait i false true, hold := fun s w a => tileBusy i s w a || tileRead i s w a, body := tzeroBody i }

/-! ## TRD and TWR (R352) -/

/-- Bytes of a register, pair or quad. -/
def regBytes (f : Full) : Nat := 4 * f.ety.regs

/-- The byte offset of a lane's index, where it lies in the image. -/
def tileOff (f : Full) (e : DWord) (t : Thread) : Option Nat :=
  let o := (t.reg f.bn).toNat * regBytes f
  if o + regBytes f > tLen e then none else some o

def opIdx (f : Full) (l : Nat) : Opnd := .src l 2 f.bn 1 f.femB (some .n32)

/-- The flights that an instruction has just started count as readers of a tile (R129). -/
def countReader (s0 s : State) (c : Ctx) (t : Team) (i : Nat) : State :=
  let new := match s.wave? c.u with | some w => w.flights.any (s0.nextId ≤ ·.id) | none => false
  if !new then s
  else
    (s.mapWave c.u (fun w => { w with flights := w.flights.map (fun fl =>
      if s0.nextId ≤ fl.id then { fl with tile := some (w.core, i) } else fl) })).addReaders t i true

/-- TRD (R352). Which lanes read a bad block of a compressed image the spec leaves open: TILE is raised in every Active
lane (R131; DESIGN CHOICE, log entry 76). A member finds its own buffered stores in the image (R363). -/
def trdBody (f : Full) (s : State) (c : Ctx) : Res :=
  let i := f.an % 256
  match namedTile s c.rd i false, c.team with
  | some e, some t =>
    let offs := c.lanes.map (fun l => (l, tileOff f e (c.rd.thread l)))
    let ts := (offs.filter (·.2.isNone)).map (fun p => ⟨p.1, .tile, BitVec.ofNat 64 i, 0⟩)
    let acc (p : Nat × Option Nat) : Option Acc := p.2.map (fun o =>
      { lane := p.1, chk := .ok (.bytes (tAddrs t e o (regBytes f)) .plain), gen := none, adr := tileVa e o, path := pathTile,
        size := regBytes f, dst := f.dn, n := f.ety.regs })
    if !tCmp e then
      let r := loadAccs f true (offs.filterMap acc) s c
      { r with st := countReader s r.st c t i, traps := ts ++ r.traps }
    else
      let own (l : Nat) : List (Nat × Byte) :=
        if c.tx then (match s.wave? c.u with | some w => bufferCells s w l | none => []) else []
      let reads := offs.map (fun p => (p.1, p.2, tileImageWith s c.rd.core t e (own p.1)))
      let ts := (reads.filter (fun p => p.2.1.isNone || p.2.2.isNone)).map (fun p => ⟨p.1, .tile, BitVec.ofNat 64 i, 0⟩)
      let good := reads.filterMap (fun p => match p.2 with | (some o, some img) => some (p.1, o, img) | _ => none)
      let all := tAddrs t e 0 (tSize e)
      let whole : Acc := { lane := 0, chk := .ok (.bytes all .plain), gen := none, adr := 0, path := pathTile,
                           size := 0, dst := 0, n := 0 }
      let (s1, room) := recordReads s c (good.map (fun p => { whole with lane := p.1 }))
      if !room then { st := s1, traps := ts, abort := fullAbort c 5 }
      else if good.isEmpty then { st := s, traps := ts }
      else
        let (id, s1) := s1.newId
        let jobs := good.map (fun p =>
          let j := Job.known p.1 f.dn f.ety (natWords f.ety.regs (leNat ((p.2.2.drop p.2.1).take (regBytes f)))) 0
          { j with va := tileVa e p.2.1, err := tileLost s c.rd.core t e (own p.1) p.2.1 (regBytes f) })
        let (s1, room) := startFlight s1 c { Flight.start id c.pc f.ety with mem := true, ldq := true, jobs := jobs }
        let s1 := s1.mapWave c.u (fun w => good.foldl (fun w p => noteSeen w p.1 id all) w)
        if !room then { st := s1, traps := ts, abort := fullAbort c 4 }
        else { st := countReader s s1 c t i, traps := ts }
  | _, _ => { st := s, traps := tileTraps c i }

def semTrd (f : Full) : Sem :=
  let i := f.an % 256
  let hold (s : State) (w : Wave) (a : Mask) : Bool :=
    memHold [0] s w a ||
      (match namedTile s w i false with | some e => tCmp e && (tileBusy i s w a || loadsAhead s w a) | none => false)
  { memSem f [0] (fun _ _ l => [opD f l, opIdx f l]) (trdBody f) with
    tile := tileWait i false false, fmt := tileFormat i f.ety, hold := hold }

def twrBody (f : Full) (s : State) (c : Ctx) : Res :=
  let i := f.dst.toNat % 256
  match namedTile s c.rd i false, c.team with
  | some e, some t =>
    if tCmp e then { st := s, traps := tileTraps c i }
    else
      let offs := c.lanes.map (fun l => (l, tileOff f e (c.rd.thread l)))
      let ts := (offs.filter (·.2.isNone)).map (fun p => ⟨p.1, .tile, BitVec.ofNat 64 i, 0⟩)
      let good := offs.filterMap (fun p => p.2.map (fun o => (p.1, o)))
      if good.isEmpty then { st := s, traps := ts }
      else
        let s := good.foldl (fun st p =>
          poolWrite st (tileWriter s c) (tAddrs t e p.2 (regBytes f))
            (leBytes (regBytes f) ((c.rd.thread p.1).val f.an f.ety.regs))) s
        { st := if f.ety == .bits then s else s.setTile t i (fun e => setFmt e f.ety), traps := ts }
  | _, _ => { st := s, traps := tileTraps c i }

def semTwr (f : Full) : Sem :=
  let i := f.dst.toNat % 256
  { Sem.plain f with
    ops := fun _ _ l => [opA f l f.ety, opIdx f l], tile := tileWait i false true
    hold := fun s w a => tileBusy i s w a || tileRead i s w a
    body := twrBody f }

/-! ## TLD and TST (R348 to R351) -/

def isLin (f : Full) : Bool := f.md.getLsbD 7
def isTr (f : Full) : Bool := f.md.getLsbD 6
def isCj (f : Full) : Bool := f.md.getLsbD 5

/-- Row and column moved for tile position n. -/
def Xfer.pq (x : Xfer) (n : Nat) : Nat × Nat :=
  let i := n / x.wt; let j := n % x.wt
  if x.tr then (j, i) else (i, j)

/-- The generic address of a position. -/
def Xfer.addrAt (x : Xfer) (n : Nat) : Nat :=
  let (p, q) := x.pq n
  (x.addr + p * x.pitch + q * x.es) % 2 ^ 64

/-- The coordinates of a position; none beyond an extent. -/
def Xfer.coAt (d : Desc) (x : Xfer) (n : Nat) : Option (List Nat) :=
  let (p, q) := x.pq n
  let r := x.co.length
  let cx := x.co.getD (r - 1) 0 + q
  if r = 1 then (if cx < dExt d 0 then some [cx] else none)
  else
    let cy := x.co.getD (r - 2) 0 + p
    if cy < dExt d (r - 2) ∧ cx < dExt d (r - 1) then some (x.co.take (r - 2) ++ [cy, cx]) else none

def Xfer.total (x : Xfer) : Nat := x.h * x.wt

/-- The path admits the transfer (R350). -/
def xferPath (load : Bool) (p : Nat) : Bool := p == 0 || (load && p == 4) || p == 5 || p == 6 || p == 7

/-- Checks of a transfer by address: the cause of the first check that fails for some byte, in the order of R182. -/
def linTrap (s : State) (w : Who) (x : Xfer) : Option (Cause × Nat) :=
  let want : Want := if x.load then .read else .write
  let at_ (n : Nat) : Option (Cause × Nat × Nat) :=
    match checkGeneric s w (x.addrAt n) x.es want false with | .trap c tv pos => some (c, tv, pos) | _ => none
  let bad := (List.range x.total).filterMap at_
  let first (b : Option (Cause × Nat × Nat)) (p : Cause × Nat × Nat) : Option (Cause × Nat × Nat) :=
    match b with | none => some p | some q => if p.2.2 < q.2.2 then some p else some q
  match bad.find? (·.2.2 == 1) with
  | some p => some (p.1, p.2.1)
  | none =>
    if x.addr % x.es ≠ 0 ∨ x.pitch % x.es ≠ 0 then some (.align, x.addr)
    else if !xferPath x.load (x.addr / 2 ^ 60) then some (.rights, x.addr)
    else (bad.foldl first none).map (fun p => (p.1, p.2.1))

/-- Checks of a transfer by coordinates after the handle has located its region (R350). -/
def coordTrap (s : State) (ctx : Nat) (h : Word) (d : Desc) (x : Xfer) (i : Nat) (fmt : Ety) (cs : List Word) :
    Option (Cause × Nat) :=
  if (dRank d == 1 && (x.tr || x.h > 1)) || dEs d != fmt.esize then some (.tile, i)
  else
    match checkCoord s ctx h d cs 1 (if x.load then .read else .write) (· == 1) with
    | .trap c tv _ => some (c, tv)
    | _ => none

/-- The transfer that the word asks for. -/
def xferOf (f : Full) (load : Bool) (id : Nat) (s : State) (c : Ctx) (e : DWord) : Xfer :=
  let t := c.rd.thread (c.lanes.headD 0)
  let h := c.rd.wreg (f.bn % 64)
  let rank := match handleDesc s c.ctxNo h with | some d => dRank d | none => 0
  { id := id, wave := c.u, team := c.rd.team, load := load, ent := f.dst.toNat % 256, pc := c.pc, word := c.iss.word, lanes := c.act,
    lin := isLin f, tr := isTr f, cj := isCj f, acq := f.md.getLsbD 4, rel := f.md.getLsbD 3, scope := f.lo3,
    addr := t.val f.an 2, pitch := (t.reg f.bn).toNat, comp := ctxComp s c.ctxNo, idx := hIdx h,
    co := if isLin f then [] else (t.regs f.an rank).map (·.toNat), h := tH e, wt := tW e,
    es := (tFmt e).esize, done := 0, got := [], held := false, err := none, entry := none, ap := s.apertures }

/-- The first cause of a TLD or TST (R350). -/
def xferTrap (f : Full) (s : State) (c : Ctx) (e : DWord) (x : Xfer) : Option (Cause × Nat) :=
  if (x.cj && tFmt e != .c64) || (!x.lin && tFmt e == .bits) then some (.tile, x.ent)
  else if x.lin then linTrap s c.who x
  else
    let h := c.rd.wreg (f.bn % 64)
    match handleDesc s c.ctxNo h with
    | none => some (.rights, h.toNat)
    | some d => coordTrap s c.ctxNo h d x x.ent (tFmt e) ((c.rd.thread (c.lanes.headD 0)).regs f.an (dRank d))

/-- The signature of a transfer by coordinates (R117): one for the instruction, and no thread's record is read or
changed, since it is no thread's access (DEDUCED, log entry 91). -/
def xferSig (s : State) (x : Xfer) : State :=
  if x.lin then s
  else { s with sigs := s.sigs ++ [⟨x.comp, x.idx, some (if x.tr then x.co.length - 2 else x.co.length - 1)⟩] }

/-- WATCH of a transfer by address: the first watched element, in the Active lanes (R190, R326). -/
def xferWatch (c : Ctx) (x : Xfer) : List Trap :=
  if !x.lin || c.rd.watch.isEmpty then []
  else
    match (List.range x.total).find? (fun n => watchHit c.rd (x.addrAt n) x.es [if x.load then .read else .write]) with
    | some n => c.lanes.map (fun l => ⟨l, .watch, BitVec.ofNat 64 (x.addrAt n), 0⟩)
    | none => []

def xferBody (f : Full) (load : Bool) (s : State) (c : Ctx) : Res :=
  let i := f.dst.toNat % 256
  match namedTile s c.rd i false, c.team with
  | some e, some t =>
    let bad := if !load && (tileImage s c.rd.core t e).isNone then some (.tile, i)
               else xferTrap f s c e (xferOf f load 0 s c e)
    match bad with
    | some (k, tv) => { st := s, traps := c.lanes.map (fun l => ⟨l, k, BitVec.ofNat 64 tv, 0⟩) }
    | none =>
      let (id, s) := s.newId
      let x := xferOf f load id s c e
      let s := s.setTile t i (fun e => setTileState e (if load then 1 else 3))
      let s := xferSig s x
      if load then
        let s := s.mapCore c.rd.core (fun k => { k with xfers := k.xfers ++ [x] })
        { st := s.mapWave c.u (·.raise 3), traps := xferWatch c x }
      else
        let (eid, s) := s.newId
        let s := s.mapCore c.rd.core (fun k => { k with xfers := k.xfers ++ [{ x with entry := some eid }] })
        { st := enqueue s c.u { StEntry.make eid c .tst [] with xfer := some id, rel := x.rel, scope := x.scope }, traps := xferWatch c x }
  | _, _ => { st := s, traps := tileTraps c i }

/-- Operands: origin or address, and pitch, of the lowest Active lane. -/
def xferOps (f : Full) (s : State) (w : Wave) (l : Nat) : List Opnd :=
  if isLin f then [opWave f (opA f · .n64) s w l, opWave f (.src · 2 f.bn 1 f.femB (some .n32)) s w l]
  else [opWave f (opCoords s w f) s w l]

/-- 128 tile loads of the core are in flight (R20). -/
def fetchFull (s : State) (w : Wave) : Bool := ((s.core w.core).xfers.filter (·.load)).length ≥ 128

def semTld (f : Full) : Sem :=
  let i := f.dst.toNat % 256
  { memSem f [3] (xferOps f) (xferBody f true) with
    wsrc := if isLin f then [] else [f.bn % 64], tile := tileWait i false true, forbid := fun _ => true
    hold := fun s w a => memHold [3] s w a || (a != 0 && fetchFull s w && (tileWait i false true s w a).isNone) }

/-- FORMAT of a TST by coordinates: the tile's tag against the region's format (R350). -/
def tstFormat (f : Full) (s : State) (w : Wave) (a : Mask) : Option DWord :=
  if isLin f then none
  else
    match handleDesc s (waveCtx s w) (w.wreg (f.bn % 64)) with
    | some d => tileFormat (f.dst.toNat % 256) (dEty d) s w a
    | none => none

def semTst (f : Full) : Sem :=
  { memSem f [1, 2] (xferOps f) (xferBody f false) with
    wsrc := if isLin f then [] else [f.bn % 64], tile := tileWait (f.dst.toNat % 256) false false, forbid := fun _ => true
    fmt := tstFormat f
    hold := fun s w a => memHold [1, 2] s w a || tileBusy (f.dst.toNat % 256) s w a }

/-! ## The transfers -/

/-- The fetch unit may begin: earlier scratchpad stores of the wave have left the order point (R156), those past it that
reach the tile's bytes are performed (R138, R162), and the wave's earlier loads at the bytes that a load fills are
performed (R161). -/
def xferReady (s : State) (x : Xfer) : Bool :=
  !x.held &&
    (match s.wave? x.wave, s.team? x.team with
     | some w, some t =>
       let e := s.tileEnt t w.core x.ent
       !w.sq.any (fun e => e.id < x.id && e.parts.any (fun p => p.path == 2 || p.path == 3)) &&
         (x.done != 0 || !(teamOuts s t).any (fun y => y.touches s (tAddrs t e 0 (tSize e)))) &&
         !(x.load && readPending s w x.id (tAddrs t e 0 (tSize e)))
     | _, _ => true)

def mapXfer (s : State) (core id : Nat) (f : Xfer → Xfer) : State :=
  s.mapCore core (fun k => { k with xfers := k.xfers.map (fun x => if x.id = id then f x else x) })

/-- Invert the sign of the imaginary part of a C64 element. -/
def conjBytes (on : Bool) (bs : List Byte) : List Byte :=
  if on then bs.mapIdx (fun i b => if i = 15 then b ^^^ 0x80 else b) else bs

/-- Where position n of a transfer reaches memory now. -/
def xferChk (s : State) (x : Xfer) (n : Nat) : Option Chk :=
  if x.lin then
    let t := s.team? x.team
    let who : Who := ⟨(match t with | some t => t.ctx | none => 0), (match t with | some t => t.core / 96 | none => 0), t, false⟩
    some (checkGeneric { s with apertures := x.ap } who (x.addrAt n) x.es (if x.load then .read else .write) false)
  else
    let d := regionDesc s x.comp x.idx
    (x.coAt d n).map (fun co => .ok (.elem x.comp x.idx co 1 x.es))

/-- The transfer pauses in the operand log (R350); it waits where the log is full (R15). -/
def pauseXfer (s : State) (core : Nat) (x : Xfer) (path addr : Nat) : State :=
  match s.wave? x.wave with
  | none => s
  | some w =>
    if logFull s w then s
    else
    let s := mapXfer s core x.id (fun x => { x with held := true })
    s.mapQuad w.qn (fun q => { q with oplog := q.oplog ++
      [{ wave := x.wave, pc := x.pc, word := x.word, grow := false,
         items := (lanesOf x.lanes).map (fun l => (l, Held.xfer x.id, path, addr)), delivered := false, num := s.now }] })

/-- An element of a load is written, or gathered for a compressed tile. -/
def putElem (s : State) (core : Nat) (x : Xfer) (t : Team) (e : DWord) (bs : List Byte) : State :=
  let s := if tCmp e then s else poolWrite s none (tAddrs t e (x.done * x.es) x.es) bs
  mapXfer s core x.id (fun x => { x with done := x.done + 1, got := if tCmp e then x.got ++ [bs] else x.got })

/-- An element that memory holds, conjugated under CJ. -/
def fillElem (s : State) (core : Nat) (x : Xfer) (t : Team) (e : DWord) (bs : List Byte) : State :=
  putElem s core x t e (conjBytes x.cj bs)

/-- An element that could not be read is zero, CJ or not (R188, R350). -/
def lostElem (s : State) (core : Nat) (x : Xfer) (t : Team) (e : DWord) : State :=
  putElem s core x t e (List.replicate x.es 0)

def noteErr (s : State) (core : Nat) (x : Xfer) (c : Cause) (tv : Nat) : State :=
  mapXfer s core x.id (fun y => { y with err := some (y.err.getD (c, tv)) })

/-- What serves the lines of a transfer's next element: the apertures are those of its issue (R393). -/
def xferHome (s : State) (x : Xfer) (core : Nat) (l : Loc) : Nat → Home :=
  let a := servedAs s (x.addrAt x.done)
  homeOf { s with apertures := x.ap } (match s.team? x.team with | some t => t.ctx | none => 0) (core / 96)
    (if x.lin then a / 2 ^ 60 else pathTiled) a l

/-- An access of a transfer at its point of performance. -/
def xferUse (s : State) (x : Xfer) (core : Nat) (l : Loc) : State :=
  let home : Nat → Home := xferHome s x core l
  (deviceLines s l).foldl (fun s n => useLine (!x.load) (home n) s n) s

/-- A cause that an element meets: of a device that has been fenced since the issue, UNCORR (R199). -/
def fencedCause (s : State) (x : Xfer) (c : Cause) : Cause :=
  let a := x.addrAt x.done
  if x.lin && a / 2 ^ 60 == 7 && s.fenced.contains (a / 2 ^ 52 % 64) then .uncorr else c

/-- Move one element of a load. -/
def loadElem (s : State) (core : Nat) (x : Xfer) (t : Team) (e : DWord) : State :=
  let zero := List.replicate x.es (0 : Byte)
  let va (l : Loc) : Nat := if x.lin then x.addrAt x.done else (l.addrs s).headD 0
  match xferChk s x x.done with
  | none => fillElem s core x t e zero
  | some (.ok (.infuse b)) =>
    let s := xferUse s x core (.infuse b)
    let ad := codedBytes s b
    if (coreRead s core (.bytes ad .plain)).2 then
      let c := poisonCause s ad
      lostElem (noteErr s core x c (if c == .uncorr then va (.infuse b) else b.hdr)) core x t e
    else
      (match decodeBlock (coreBytes s core (rangeFrom b.hdr b.slot)) b with
       | some raw => fillElem s core x t e ((raw.drop b.off).take x.es)
       | none => lostElem (noteErr s core x .check b.hdr) core x t e)
  | some (.ok l) =>
    let a := servedAs s (x.addrAt x.done)
    let s := xferUse s x core l
    let s := if x.lin then askPeer s t.ctx (a / 2 ^ 60) a x.es .read else s
    let (bs, bad) := coreRead s core l
    if bad then lostElem (noteErr s core x (lostCause s l) (va l)) core x t e
    else fillElem s core x t e (finishBytes x.es l bs)
  | some (.page path a) => pauseXfer s core x path a
  | some (.trap c tv _) => lostElem (noteErr s core x (fencedCause s x c) tv) core x t e
  | some (.grow _) => s
  | some (.absent a) => s.touch false a

/-- What one element of a store reads in the tile: a lost byte, or an image that the read port refuses, gives zero and
the cause (R350). -/
def storedElem (s : State) (core : Nat) (x : Xfer) (t : Team) (e : DWord) : List Byte × Option (Cause × Nat) :=
  let zero := List.replicate x.es (0 : Byte)
  let o := x.done * x.es
  match tileImage s core t e with
  | none => (zero, some (.tile, x.ent))
  | some img =>
    match tileLost s core t e [] o x.es with
    | some c => (zero, some (c, tileVa e o))
    | none => (conjBytes x.cj ((img.drop o).take x.es), none)

/-- Read one element of a store and place its part in the store-queue entry. -/
def storeElem (s : State) (core : Nat) (x : Xfer) (t : Team) (e : DWord) : State :=
  let skip (s : State) : State := mapXfer s core x.id (fun x => { x with done := x.done + 1 })
  let (bs, err) := storedElem s core x t e
  let s := match err with | some p => noteErr s core x p.1 p.2 | none => s
  match xferChk s x x.done with
  | none => skip s
  | some (.ok l) =>
    let p : StPart := { lane := (lowest x.lanes).getD 0, path := if x.lin then servedAs s (x.addrAt x.done) / 2 ^ 60 else pathTiled, loc := l,
                        size := x.es, ety := tFmt e, op := .store, val := leNat bs, ret := none, want := .write,
                        va := if x.lin then servedAs s (x.addrAt x.done) else 0, shared := false, done := false }
    let p := { p with shared := dupLeaf s (match s.team? x.team with | some t => t.ctx | none => 0) p.path p.va }
    skip (s.mapWave x.wave (fun w => { w with sq := w.sq.map (fun y =>
      if some y.id = x.entry then { y with parts := y.parts ++ [p] } else y) }))
  | some (.page path a) => pauseXfer s core x path a
  | some (.trap c tv _) => skip (noteErr s core x (fencedCause s x c) tv)
  | some (.grow _) => s
  | some (.absent a) => s.touch false a

/-- The next element of a load waits: at its slice (R444, R446), or for an atomic of the core at its bytes (R142). -/
def xferAsleep (s : State) (core : Nat) (x : Xfer) : Bool :=
  match x.load, xferChk s x x.done with
  | true, some (.ok l) =>
    let home : Nat → Home := xferHome s x core l
    (deviceLines s l).any (fun n => lineAsleep s (home n) n) || coreBusy s core (l.addrs s)
  | _, _ => false

/-- Move elements until `n` are done or the transfer pauses. -/
def moveElems (core id n : Nat) : Nat → State → State
  | 0, s => s
  | k + 1, s =>
    match (s.core core).xfers.find? (·.id == id) with
    | none => s
    | some x =>
      match s.team? x.team with
      | none => s
      | some t =>
        if x.held || x.done ≥ min n x.total || xferAsleep s core x then s
        else
          let e := s.tileEnt t core x.ent
          moveElems core id n k (if x.load then loadElem s core x t e else storeElem s core x t e)

/-- The end of a transfer: the tile is READY (R129, R351), its tag set (R130), a deferred cause raised
(R188). -/
def endXfer (s : State) (core id : Nat) : State :=
  match (s.core core).xfers.find? (·.id == id) with
  | none => s
  | some x =>
    match s.team? x.team with
    | none => s
    | some t =>
      if x.done < x.total then s
      else
        let e := s.tileEnt t core x.ent
        let s := if x.load && tCmp e then
            let img := codeTile x.got.flatten
            poolWrite s none (tAddrs t e 0 img.length) img
          else s
        let fmt := dEty (regionDesc s x.comp x.idx)
        let s := s.setTile t x.ent (fun e => setTileState (if x.load && !x.lin then setFmt e fmt else e) 2)
        let s := s.mapCore core (fun k => { k with xfers := k.xfers.filter (·.id != id) })
        let s := if x.load then s.mapWave x.wave (·.lower 3) else s
        match x.err with
        | none => s
        | some (c, tv) =>
          s.mapWave x.wave (fun w => { w with defer := w.defer ++
            [⟨x.lanes, c, x.pc, (lanesOf x.lanes).map (fun l => (l, BitVec.ofNat 64 tv))⟩] })

/-- TLD_COMPLETE and TST_COMPLETE: the transfer moves on to element `upto` and ends with its last. An acquire comes
before its first element, the release of a load after its last; that of a store stands with its queue entry (R351). -/
def runXfer (load : Bool) (core id upto : Nat) (s : State) : State :=
  match (s.core core).xfers.find? (·.id == id) with
  | none => s
  | some x =>
    if x.load != load || !xferReady s x then s
    else
      let s := if x.acq && x.done == 0 && 0 < upto then acquireAt s x.wave x.scope else s
      let s := moveElems core id upto x.total s
      if x.load && x.rel && !unitReleased s x.wave x.id x.scope then s else endXfer s core id

def execTdef (f : Full) (s : State) : Out := execX (semTdef f) s
def execTstate (f : Full) (s : State) : Out := execX (semTstate f) s
def execTwait (f : Full) (s : State) : Out := execX (semTwait f) s
def execTld (f : Full) (s : State) : Out := execX (semTld f) s
def execTst (f : Full) (s : State) : Out := execX (semTst f) s
def execTrd (f : Full) (s : State) : Out := execX (semTrd f) s
def execTwr (f : Full) (s : State) : Out := execX (semTwr f) s
def execTzero (f : Full) (s : State) : Out := execX (semTzero f) s
def execTldComplete (core entry upto : Nat) (s : State) : Out := finish (runXfer true core entry upto s)
def execTstComplete (core entry upto : Nat) (s : State) : Out := finish (runXfer false core entry upto s)

end Sys2Proof.Machine
end

