-- ==== Sys2Proof/Machine/Regions.lean ====
section
/-!
DEFINITION. Regions: REGQ, REGPIN, REGADV (R355 to R358), the stride monitor (R118, R123 to R125),
re-tiling (R119 to R122) and descriptor writes (R109, R414).
-/
namespace Sys2Proof.Machine

/-! ## REGQ (R355) -/

/-- The word that a selector of REGQ returns. -/
def regWord (d : Desc) (sel : Nat) : Nat :=
  match sel with
  | 0 =>
    dLap d * 2 ^ 32 + dOrder d * 2 ^ 24 + dPrior d * 2 ^ 16 + (dPin d).toNat * 2 ^ 15 + (dCont d).toNat * 2 ^ 14 +
      dRcnt d * 2 ^ 12 + (dMvb d).toNat * 2 ^ 11 + (dAdvv d).toNat * 2 ^ 10 + dClass d * 2 ^ 8 +
      (dFixo d).toNat * 2 ^ 7 + dRank d * 2 ^ 4 + dFmt d
  | 1 => dEcnt d * 2 ^ 48 + dAdvc d * 2 ^ 40 + dPhl d * 2 ^ 36 + dPwl d * 2 ^ 32 + dMvp d
  | n => dExt d (n - 2)

def handleTraps (c : Ctx) (h : Word) : List Trap := c.lanes.map (fun l => ⟨l, .rights, h.zeroExtend 64, 0⟩)

/-- A flight of one job per Active lane, answered elsewhere in the device and not counted. -/
def askFlight (n : Nat) (dst : Nat) (tag : Ety) (src : JobSrc) (s : State) (c : Ctx) : Res :=
  if c.act == 0 then { st := s }
  else
    let (id, s) := s.newId
    let jobs := c.lanes.map (fun l => Job.read l dst n tag src pathTiled 0)
    let (s, room) := startFlight s c { Flight.start id c.pc tag with mem := true, jobs := jobs }
    if room then { st := s } else { st := s, abort := fullAbort c 4 }

/-- The descriptor that a handle of REGQ finds: while a slice of a closed Steppe region is still in CLOSE, the one under
which it closes (R426). -/
def regqDesc (s : State) (ctx : Nat) (h : Word) : Option Desc :=
  match (s.region (ctxComp s ctx) (hIdx h)).old with
  | some d => if hZero h && ctxAdmits s ctx d then some d else none
  | none => handleDesc s ctx h

def semRegq (f : Full) : Sem :=
  { memSem f [] (fun _ _ l => [.dst l f.dn 2]) (fun s c =>
      let h := c.rd.wreg (f.an % 64)
      match regqDesc s c.ctxNo h with
      | none => { st := s, traps := handleTraps c h }
      | some _ => askFlight 2 f.dn .n64 (.regq (ctxComp s c.ctxNo) (hIdx h) f.lo3) s c) with wsrc := [f.an % 64] }

/-! ## REGPIN and REGADV (R124, R125, R356, R357) -/

/-- The region's window is cleared. -/
def Region.clearWindow (r : Region) : Region := { r with cnt := [], n := 0 }

/-- Start a re-tiling (R119). -/
def retile (d : Desc) (new : Nat) : Desc :=
  dSet (dSet (dSet (dSet d 360 8 (dOrder d)) 368 8 new) 355 1 1) 322 24 0

/-- Region advice, and whether it is accepted (R125). -/
def adopt (d : Desc) (a : Nat) : Desc × Bool :=
  if dPin d || !orderOk d a then (d, false)
  else if a = dOrder d ∧ !dMvb d then (dSet d 358 1 0, true)
  else if dMvb d then (dSet (dSet d 354 1 1) 346 8 a, true)
  else (dSet (retile d a) 358 1 0, true)

/-- A request at the home slice, once for the wave: Pd of the Active lanes tells whether it is accepted.
`g` gives the new descriptor, the new hidden state and the answer. -/
def regionAsk (f : Full) (g : Ctx → Desc → Region → Desc × Region × Bool) (s : State) (c : Ctx) : Res :=
  let h := c.rd.wreg (f.an % 64)
  let comp := ctxComp s c.ctxNo
  match handleDesc s c.ctxNo h with
  | none => { st := s, traps := handleTraps c h }
  | some d =>
    if !hasRight (hRights h) .write || !hasRight (dRights d) .write then { st := s, traps := handleTraps c h }
    else
      let (d', r, ok) := g c d (s.region comp (hIdx h))
      let s := if ok then (putDesc s comp (hIdx h) d').mapRegion comp (hIdx h) (fun _ => r) else s
      { st := s.mapWave c.u (fun w => w.mapLanes c.act (fun _ t => t.setPred f.dn ok)) }

def isTiled (d : Desc) : Bool := dClass d == 1
def isSteppe (d : Desc) : Bool := dClass d == 2

/-- A request of the wave to a region: it reads the handle, and V operands in the lowest Active lane. -/
def regionSem (f : Full) (ops : State → Wave → Nat → List Opnd)
    (g : Ctx → Desc → Region → Desc × Region × Bool) : Sem :=
  { memSem f [] ops (regionAsk f g) with wsrc := [f.an % 64] }

/-- A pin also discards a waiting advice (R125). -/
def semRegpinPin (f : Full) : Sem :=
  regionSem f (fun _ _ _ => []) (fun _ d r => (dSet (dSet d 359 1 1) 354 1 0, r, isTiled d || isSteppe d))
def semRegpinUnpin (f : Full) : Sem :=
  regionSem f (fun _ _ _ => []) (fun _ d r => (dSet d 359 1 0, r, isTiled d))
def semRegpinClear (f : Full) : Sem :=
  regionSem f (fun _ _ _ => []) (fun _ d r =>
    (dSet (dSet d 358 1 0) 356 2 0, r.clearWindow, isTiled d || isSteppe d))

def semRegadv (f : Full) : Sem :=
  regionSem f (fun s w l => [opWave f (.src · 2 f.bn 1 f.femB (some .n32)) s w l]) (fun c d r =>
    let v := ((c.rd.thread (c.lanes.headD 0)).reg f.bn).toNat
    let a := adopt d v
    (a.1, r, v < 256 && isTiled d && a.2))

/-! ## The monitor (R118) -/

/-- A proposal of the full window (R118). -/
def propose (d : Desc) (cnt : FMap Nat) : Desc :=
  let r := dRank d
  let fast := r - 1 - dOrder d / 128
  match (List.range r).find? (fun k => r ≥ 2 && fget 0 cnt k ≥ 48 && k != fast && r ≤ k + 2) with
  | none => d
  | some k =>
    let new := (if k + 2 = r then 128 else 0) + dOrder d % 128
    if dPin d || dFixo d || dCont d || dRcnt d == 2 then d
    else if new = dPrior d then dSet d 358 1 1
    else dSet (retile d new) 356 2 (dRcnt d + 1)

/-- One signature at the home slice. -/
def monitorStep (d : Desc) (r : Region) (sig : Option Nat) : Desc × Region :=
  let e := (dEcnt d + 1) % 65536
  let d := dSet d 432 16 e
  let (d, r) := if e = 0 then (dSet (dSet d 356 2 0) 358 1 0, r.clearWindow) else (d, r)
  match sig with
  | none => (d, r)
  | some k =>
    if dMvb d then (d, r)
    else
      let r := { r with cnt := fset 0 r.cnt k (fget 0 r.cnt k + 1), n := r.n + 1 }
      if r.n < 64 then (d, r)
      else (if isSteppe d then d else propose d r.cnt, r.clearWindow)

/-- MONITOR_SIGNATURE: message k arrives at its home slice. -/
def monitorSignature (k : Nat) (s : State) : State :=
  match s.sigs[k]? with
  | none => s
  | some m =>
    let s := { s with sigs := s.sigs.eraseIdx k }
    match validDesc s m.comp m.idx with
    | none => s
    | some d =>
      let (d', r) := monitorStep d (s.region m.comp m.idx) m.sig
      (putDesc s m.comp m.idx d').mapRegion m.comp m.idx (fun _ => r)

/-! ## Re-tiling (R119 to R122) -/

/-- Element n of parcel p lies within the extents (R113). -/
def elemIn (d : Desc) (p n : Nat) : Bool :=
  let r := dRank d
  let ds := parcelDims d
  let nx := ds.getD (r - 1) 1
  let ny := if r = 1 then 1 else ds.getD (r - 2) 1
  let x := p % nx * dPw d + n % dPw d
  let y := p / nx % ny * dPh d + n / dPw d
  x < dExt d (r - 1) && (r == 1 || y < dExt d (r - 2))

def parcelElems (d : Desc) (p : Nat) : List Nat := (List.range (dPh d * dPw d)).filter (elemIn d p)

/-- The byte address of element n of parcel p under an order. -/
def parcelAddr (d : Desc) (o p n : Nat) : Nat := dPbase d + p * dPb d + orderOff d o (n / dPw d) (n % dPw d)

/-- The bytes of granule k of a parcel. -/
def parcelGranule (d : Desc) (p k : Nat) : List Nat := rangeFrom (dPbase d + p * dPb d + 1024 * k) 1024

def readMark (s : State) (ad : List Nat) : Mark :=
  ad.foldl (fun m a => if m == .clean then fget .clean s.poison a else m) .clean

/-- The slices that hold granules of a parcel. -/
def parcelSlices (d : Desc) (p : Nat) : List Nat :=
  ((List.range (ceilDiv (dPb d) 1024)).map (fun g => granuleSlice d ((p * dPb d) / 1024 + g))).eraseDups

/-- Slices that stage a parcel now. -/
def stagingSlices (s : State) : List Nat :=
  (s.regions.map (fun r =>
    if r.2.moving then
      let d := descOf s (r.1 / 2 ^ 20) (r.1 % 2 ^ 20)
      parcelSlices d (dMvp d)
    else [])).flatten

/-- A re-tiling pauses: a slice that holds granules of the region is in self-refresh (R121, R446). -/
def asleep (s : State) (d : Desc) : Bool :=
  if (sliceSet d).length ≤ granules d then (sliceSet d).any (fun n => (s.slice n).selfRefresh)
  else (List.range (granules d)).any (fun g => (s.slice (granuleSlice d g)).selfRefresh)

/-- What serves granule k of a parcel. -/
def parcelHome (s : State) (d : Desc) (p k : Nat) : Home := ⟨some (granuleSlice d (p * dPb d / 1024 + k)), sealOf s d⟩

def granulesOf (d : Desc) : List Nat := List.range (ceilDiv (dPb d) 1024)

/-- Staged lines stay in the caches, or may leave them again, as their parcel begins to move and becomes NEW (R121). -/
def pinLines (s : State) (d : Desc) (p : Nat) (on : Bool) : State :=
  (granulesOf d).foldl (fun s k =>
    s.mapSlice (granuleSlice d (p * dPb d / 1024 + k)) (fun z =>
      { z with cache := (linesOf (parcelGranule d p k)).foldl (fun m n => fmod m n (fun ln => { ln with staged := on })) z.cache })) s

/-- The lines of a parcel are read into the caches of their slices (R120). -/
def stageLines (s : State) (d : Desc) (p : Nat) : State :=
  pinLines ((granulesOf d).foldl (fun s k => useLines s false (parcelHome s d p k) (parcelGranule d p k)) s) d p true

/-- A granule of a parcel cannot be staged now: its bank opens no row (R444). -/
def parcelShut (s : State) (d : Desc) (p : Nat) : Bool :=
  (granulesOf d).any (fun k => (linesOf (parcelGranule d p k)).any (fun n => lineAsleep s (parcelHome s d p k) n))

/-- PARCEL_STAGED (R120): the parcel's elements are staged, with their poison marks, and it is MOVING. -/
def parcelStaged (comp idx : Nat) (s : State) : State :=
  match validDesc s comp idx with
  | none => s
  | some d =>
    let r := s.region comp idx
    let p := dMvp d
    if !dMvb d || r.moving || asleep s d || parcelShut s d p || (parcelSlices d p).any (stagingSlices s).contains then s
    else
      let s := stageLines s d p
      let at_ (n : Nat) : List Nat := rangeFrom (parcelAddr d (dPrior d) p n) (dEs d)
      let es := parcelElems d p
      let staged := es.foldl (fun m n => fput m n (s.mem.readN (parcelAddr d (dPrior d) p n) (dEs d))) []
      let marks := es.foldl (fun m n => fset .clean m n (readMark s (at_ n))) []
      let s := noteWrite s none (fun _ => true) (es.map at_).flatten
      s.mapRegion comp idx (fun r => { r with moving := true, staged := staged, poisoned := marks, written := [] })

/-- PARCEL_WRITEOUT (R120): one element is written under the new order; a mark travels with it (R121). -/
def parcelWriteout (comp idx n : Nat) (s : State) : State :=
  match validDesc s comp idx with
  | none => s
  | some d =>
    let r := s.region comp idx
    if !r.moving || !elemIn d (dMvp d) n || n ≥ dPh d * dPw d || r.written.contains n || asleep s d then s
    else
      let ad := rangeFrom (parcelAddr d (dOrder d) (dMvp d) n) (dEs d)
      let home : Home := ⟨some (granuleSlice d ((parcelAddr d (dOrder d) (dMvp d) n - dPbase d) / 1024)), sealOf s d⟩
      if (linesOf ad).any (lineAsleep s home) then s
      else
      let s := useLines s true home ad
      let s := writeAddrs s ad (fget (List.replicate (dEs d) 0) r.staged n)
      let s := markBytes s ad (fget .clean r.poisoned n)
      s.mapRegion comp idx (fun r => { r with written := r.written ++ [n] })

/-- PARCEL_NEW (R119, R120, R125): the parcel is NEW; after the last one the move ends and a waiting
advice is adopted. -/
def parcelNew (comp idx : Nat) (s : State) : State :=
  match validDesc s comp idx with
  | none => s
  | some d =>
    let r := s.region comp idx
    if !r.moving || !(parcelElems d (dMvp d)).all r.written.contains || asleep s d then s
    else
      let s := pinLines s d (dMvp d) false
      let s := s.mapRegion comp idx (fun r => { r with moving := false, staged := [], poisoned := [], written := [] })
      if dMvp d + 1 < parcelCount d then putDesc s comp idx (dSet d 322 24 (dMvp d + 1))
      else
        let d := dSet (dSet d 355 1 0) 322 24 (dMvp d + 1)
        let d := if dAdvv d then (adopt (dSet d 354 1 0) (dAdvc d)).1 else d
        (putDesc s comp idx d).mapRegion comp idx Region.clearWindow

/-! ## Descriptor writes (R109, R414, R416, R426) -/

/-- Rows of a region in a slice, and of all other valid Steppe regions. -/
def rowsIn (d : Desc) (n : Nat) : Nat := (sliceRows d n).length
def rowsHeld (s : State) (comp idx n : Nat) : Nat :=
  s.regions.foldl (fun k r =>
    if r.1 = State.regKey comp idx ∨ r.2.laps.isEmpty then k
    else k + rowsIn (regionDesc s (r.1 / 2 ^ 20) (r.1 % 2 ^ 20)) n) 0

/-- Slices with room for a Steppe region's rows (R414). -/
def rowsFit (s : State) (comp idx : Nat) (d : Desc) : Bool :=
  (sliceSet d).all (fun n => rowsHeld s comp idx n + rowsIn d n ≤ 2048)

def SliceLap.at_ (lap : Nat) : SliceLap := ⟨lap, .sweep, 0, [], false⟩

/-- The state of a region in a slice. -/
def lapOf (s : State) (comp idx n : Nat) : Option SliceLap := flook (s.region comp idx).laps n

def setLap (s : State) (comp idx n : Nat) (f : SliceLap → SliceLap) : State :=
  s.mapRegion comp idx (fun r => match flook r.laps n with
    | some x => { r with laps := fput r.laps n (f x) }
    | none => r)

/-- The home slice keeps L in the descriptor, and in the one under which the region closes (R417). -/
def keepLap (s : State) (comp idx lap : Nat) : State :=
  (putDesc s comp idx (dSet (descOf s comp idx) 384 32 lap)).mapRegion comp idx (fun r =>
    { r with old := r.old.map (fun d => dSet d 384 32 lap) })

/-- Enter the next lap when every token is held; a slice in self-refresh enters none (R416, R425). -/
def enterLap (s : State) (comp idx n : Nat) : State :=
  match lapOf s comp idx n with
  | none => s
  | some x =>
    let others := ((s.region comp idx).laps.map (·.1)).filter (· != n)
    if x.st != .wait || (s.slice n).selfRefresh || !others.all x.tokens.contains then s
    else
      let s := setLap s comp idx n (fun x => { x with lap := x.lap + 1, st := .sweep, cursor := 0, tokens := [] })
      if n == dHome (regionDesc s comp idx) then keepLap s comp idx (x.lap + 1) else s

/-- The slice of a coordinate of a region. -/
def coSlice (s : State) (comp idx : Nat) (co : List Nat) : Nat :=
  let d := regionDesc s comp idx
  granuleSlice d (elemGranule d co)

/-- A Steppe update of the region that goes to slice n. -/
def goesTo (s : State) (comp idx n : Nat) (p : StPart) : Bool :=
  match p.loc with
  | .elem c i co _ _ => p.path == pathSteppe && c == comp && i == idx && coSlice s comp idx co == n
  | _ => false

/-- Requests of a region that have passed their check and are admitted at a slice or on their way to it (R426). -/
def requestsAt (s : State) (comp idx n : Nat) : Bool :=
  (s.slice n).admitted.any (fun q => q.comp == comp && q.idx == idx) ||
    s.fabric.any (fun q => q.comp == comp && q.idx == idx && coSlice s comp idx q.co == n) ||
    s.waves.any (fun w => w.sq.any (fun e => e.parts.any (goesTo s comp idx n)) || w.kettle.buf.any (goesTo s comp idx n))

/-- A slice in CLOSE with no request left releases its rows (R426); the region is released with the last of them. The
others go on without its tokens (log entry 82). -/
def releaseRows (s : State) (comp idx : Nat) : State :=
  let r := s.region comp idx
  if r.old.isNone then s
  else
    let left := r.laps.filter (fun e => requestsAt s comp idx e.1)
    if left.length = r.laps.length && !left.isEmpty then s
    else
      let s := s.mapRegion comp idx (fun r => { r with laps := left, old := if left.isEmpty then none else r.old })
      (left.map (·.1)).foldl (fun s n => enterLap s comp idx n) s

/-- The contents of a region's buffer become undefined (R122): free values in all SIZE bytes. -/
def scramble (s : State) (d : Desc) : State :=
  let n := dSize d
  let bs := (List.range n).map (fun k => (Config.freeValue (s.free + k)).extractLsb' 0 8)
  { (writeAddrs s (rangeFrom (dPbase d) n) bs) with free := s.free + n }

/-- The fields that the device keeps: ECNT, LAP, and ORDER down to MVP (R108). -/
def dHeld : Desc := BitVec.ofNat 512 ((2 ^ 16 - 1) * 2 ^ 432 + (2 ^ 32 - 1) * 2 ^ 384 + (2 ^ 54 - 1) * 2 ^ 322)

/-- A descriptor as the driver's write leaves it: a write to the device's fields of a valid entry is ignored (R8, R108),
and a Steppe region holds ORDER 0x00 and PIN 1 (R114, log entry 68); its laps begin at 0 (R417). -/
def dWritten (s : State) (comp idx : Nat) (d : Desc) : Desc :=
  let old := validDesc s comp idx
  let d := if old.isSome then (d &&& ~~~ dHeld) ||| (descOf s comp idx &&& dHeld) else d
  if dValid d && isSteppe d then
    let d := dSet (dSet d 368 8 0) 359 1 1
    if old.map isSteppe == some true then d else dSet d 384 32 0
  else d

/-- The slices of a Steppe region in a lap. -/
def lapsAt (d : Desc) (lap : Nat) : FMap SliceLap :=
  if isSteppe d then (regionSlices d).foldl (fun m n => fput m n (SliceLap.at_ lap)) [] else []

/-- A region as its descriptor becomes valid; each slice of a Steppe one begins lap 0 (R416). -/
def Region.opened (d : Desc) : Region := { Region.fresh with laps := lapsAt d 0 }

/-- The fields that place the rows of a Steppe region. -/
def sameRows (a b : Desc) : Bool :=
  dHome a == dHome b && dIlv a == dIlv b && dRank a == dRank b && dFmt a == dFmt b && dn a 376 8 == dn b 376 8 &&
    dn a 192 120 == dn b 192 120

/-- A valid Steppe region whose rows the driver has placed anew: every slice that holds rows now is in the lap of the
home slice, and admitted requests go to the slices of their rows (log entry 82). -/
def relayRows (s : State) (comp idx : Nat) (d : Desc) : State :=
  let lap := ((s.region comp idx).laps.map (·.2.lap)).foldl max 0
  let mine (q : SReq) : Bool := q.comp == comp && q.idx == idx
  let qs := (s.slices.map (fun z => z.2.admitted.filter mine)).flatten
  let s : State := { s with slices := s.slices.map (fun z => (z.1, { z.2 with admitted := z.2.admitted.filter (!mine ·) })) }
  let s := s.mapRegion comp idx (fun r => { r with laps := lapsAt d lap, refused := false })
  qs.foldl (fun s q => s.mapSlice (coSlice s comp idx q.co) (fun z => { z with admitted := z.admitted ++ [q] })) s

/-- A region whose descriptor counts as VALID = 0 from now on: the slices of a Steppe one go to CLOSE (R426), and a move
stops with the buffer undefined (R122). -/
def closeRegion (s : State) (comp idx : Nat) (old : Option Desc) (refused : Bool) : State :=
  match old with
  | none => s.mapRegion comp idx (fun _ => { Region.fresh with refused := refused })
  | some o =>
    if isSteppe o then
      releaseRows (s.mapRegion comp idx (fun r =>
        { r with old := some o, refused := refused, laps := r.laps.map (fun e => (e.1, { e.2 with closing := true })) }))
        comp idx
    else
      let s := s.mapRegion comp idx (fun _ => { Region.fresh with refused := refused })
      if dMvb o then scramble s o else s

/-- DESCRIPTOR_WRITE: the driver writes entry idx of a compartment's buffer table. While the region still
closes the driver may not write it (R426). -/
def descriptorWrite (comp idx : Nat) (d : Desc) (s : State) : State :=
  let old := validDesc s comp idx
  let d := dWritten s comp idx d
  if (s.region comp idx).old.isSome || idx ≥ (bufTable s comp).2 then s
  else
    let s' := putDesc s comp idx d
    if dValid d && descOk d && (!isSteppe d || rowsFit s comp idx d) then
      match old with
      | some o =>
        if isSteppe d && isSteppe o && !sameRows o d then relayRows s' comp idx d
        else s'.mapRegion comp idx (fun r => if isSteppe o == isSteppe d then { r with refused := false } else Region.opened d)
      | none => s'.mapRegion comp idx (fun _ => Region.opened d)
    else closeRegion s' comp idx old (dValid d)

def execRegq (f : Full) (s : State) : Out := execX (semRegq f) s
def execRegpinPin (f : Full) (s : State) : Out := execX (semRegpinPin f) s
def execRegpinUnpin (f : Full) (s : State) : Out := execX (semRegpinUnpin f) s
def execRegpinClear (f : Full) (s : State) : Out := execX (semRegpinClear f) s
def execRegadv (f : Full) (s : State) : Out := execX (semRegadv f) s
def execMonitorSignature (k : Nat) (s : State) : Out := finish (monitorSignature k s)
def execParcelStaged (comp idx : Nat) (s : State) : Out := finish (parcelStaged comp idx s)
def execParcelWriteout (comp idx elem : Nat) (s : State) : Out := finish (parcelWriteout comp idx elem s)
def execParcelNew (comp idx : Nat) (s : State) : Out := finish (parcelNew comp idx s)
def execDescriptorWrite (comp idx : Nat) (d : BitVec 512) (s : State) : Out := finish (descriptorWrite comp idx d s)

end Sys2Proof.Machine
end

