-- ==== Sys2Proof/Machine/Steppe.lean ====
section
/-!
DEFINITION. The sweeps of Steppe regions: admission (R418), applying a row (R419 to R421), laps and tokens
(R416, R417), self-refresh (R425) and closing (R426).
-/
namespace Sys2Proof.Machine

/-- The slice that a request reaches. -/
def reqSlice (s : State) (q : SReq) : Nat := coSlice s q.comp q.idx q.co

/-! ## Admission (R418) -/

/-- A lap read goes to its slice once the thread's earlier loads and the wave's earlier atomics and acquires are
performed (R138, R144, R151, R163). -/
def laprOrdered (s : State) (q : SReq) : Bool :=
  match s.wave? q.wave with
  | none => true
  | some w =>
    !(ownBefore s w q.entry).any (·.fences) &&
      (match w.flights.find? (·.id == q.entry) with
       | some f => (match f.jobs[q.job]? with | some j => !readAhead s w f.id q.job j.lane | none => true)
       | none => true)

/-- Request k of the fabric may be admitted: its slice runs, has room, no earlier request of the wave to the
same slice waits, and no lower lane's update of its instruction (R140). -/
def admitReady (s : State) (k : Nat) (q : SReq) : Bool :=
  let n := reqSlice s q
  (lapOf s q.comp q.idx n).isSome &&
    (s.slice n).admitted.length < 4096 && !(s.slice n).selfRefresh &&
    !(s.fabric.take k).any (fun p => p.wave == q.wave && (reqSlice s p == n || (q.op.isSome && p.entry == q.entry))) &&
    (q.op.isSome || laprOrdered s q)

/-- STEPPE_ADMIT: an update is performed when it is admitted (R147). -/
def steppeAdmit (k : Nat) (s : State) : State :=
  match s.fabric[k]? with
  | none => s
  | some q =>
    if !admitReady s k q then s
    else
      let n := reqSlice s q
      match lapOf s q.comp q.idx n with
      | none => s
      | some x =>
        let s := { s with fabric := s.fabric.eraseIdx k }
        let s := s.mapSlice n (fun z => { z with admitted := z.admitted ++ [{ q with lap := x.lap + 1 }] })
        if q.op.isSome then finishEntry (markDone s q.core q.entry (· == q.job)) q.core q.entry else s

/-! ## Applying a row (R419 to R421) -/

/-- Apply an update to its element; every operation but a store leaves a poison mark in place. -/
def applyUpdate (s : State) (q : SReq) : State :=
  let (bs, _) := readElem s q.comp q.idx q.co q.es
  let d := regionDesc s q.comp q.idx
  let ad := rangeFrom (elemAddr d q.co) q.es
  let mark := readMark s ad
  match q.op with
  | some .store => writeElem s q.comp q.idx q.co (leBytes q.es q.val)
  | some (.rmw op cmp) =>
    markBytes (writeElem s q.comp q.idx q.co (leBytes q.es (atomicNew q.ety op (leNat bs) q.val cmp))) ad mark
  | none => s

/-- Answer a lap read with the element and the lap number. -/
def answerLap (s : State) (q : SReq) : State :=
  let (bs, bad) := readElem s q.comp q.idx q.co q.es
  let lap := BitVec.ofNat 32 q.lap
  s.mapWave q.wave (fun w => w.setJob q.entry q.job (fun j =>
    { j with
      val := some (natWords (j.n - 1) (if bad then 0 else leNat bs) ++ [lap])
      err := if bad then some .check else none }))

/-- STEPPE_ROW_APPLY: the cursor of a slice reaches its next row. -/
def steppeRowApply (comp idx n : Nat) (s : State) : State :=
  match lapOf s comp idx n with
  | none => s
  | some x =>
    let d := regionDesc s comp idx
    match (sliceRows d n)[x.cursor]? with
    | none => s
    | some g =>
      let row := rowOf (lineOf (dPbase d + 1024 * g))
      if x.st != .sweep || (s.slice n).selfRefresh || bankShut s n row then s
      else
        let here (q : SReq) : Bool := q.comp == comp && q.idx == idx && q.lap == x.lap && elemGranule d q.co == g
        let qs := (s.slice n).admitted.filter here
        let s := openRow s n row (sealOf s d)
        let s := (qs.filter (·.op.isSome)).foldl applyUpdate s
        let s := (qs.filter (·.op.isNone)).foldl answerLap s
        let s := s.mapSlice n (fun z => { z with admitted := z.admitted.filter (fun q => !here q) })
        releaseRows (setLap s comp idx n (fun x => { x with cursor := x.cursor + 1 })) comp idx

/-! ## Laps (R416, R417) -/

/-- The token of slice `src` for lap n has been sent. -/
def tokenSent (s : State) (comp idx src lap : Nat) : Bool :=
  match lapOf s comp idx src with
  | none => false
  | some y => lap < y.lap || (src != dHome (regionDesc s comp idx) && y.lap == lap && y.st == .wait)

/-- LAP_END: the cursor passes the slice's last row; not in self-refresh, where the slice is in PAUSE (R416, R425). -/
def lapEnd (comp idx n : Nat) (s : State) : State :=
  match lapOf s comp idx n with
  | none => s
  | some x =>
    if x.st != .sweep || (s.slice n).selfRefresh || x.cursor < (sliceRows (regionDesc s comp idx) n).length then s
    else releaseRows (enterLap (setLap s comp idx n (fun x => { x with st := .wait })) comp idx n) comp idx

/-- LAP_DONE_TOKEN: slice n receives the token of slice `src`; one in PAUSE takes it up when it goes on. -/
def lapDoneToken (comp idx n src : Nat) (s : State) : State :=
  match lapOf s comp idx n with
  | none => s
  | some x =>
    if (s.slice n).selfRefresh || src == n || x.tokens.contains src || !tokenSent s comp idx src x.lap then s
    else enterLap (setLap s comp idx n (fun x => { x with tokens := x.tokens ++ [src] })) comp idx n

def execSteppeAdmit (k : Nat) (s : State) : Out := finish (steppeAdmit k s)
def execSteppeRowApply (comp idx slice : Nat) (s : State) : Out := finish (steppeRowApply comp idx slice s)
def execLapEnd (comp idx slice : Nat) (s : State) : Out := finish (lapEnd comp idx slice s)
def execLapDoneToken (comp idx slice src : Nat) (s : State) : Out := finish (lapDoneToken comp idx slice src s)

end Sys2Proof.Machine
end

