-- ==== Sys2Proof/Machine/MemEvents.lean ====
section
/-!
DEFINITION. What memory does after issue: register write-back (R69), deferred errors (R188), the order
point and performance (R142, R146, R147), the operand log (R184 to R187, R134), page ownership (R197), the
Infuser (R440) and soft errors (R173).
-/
namespace Sys2Proof.Machine

/-! ## Engine state blocks (R427) -/

def engAddr (s : State) (e : Nat) : Nat := s.host.bases.eng + 64 * e
def engBlock (s : State) (e : Nat) : BitVec 512 := BitVec.ofNat 512 (devNat s (engAddr s e) 64)
def engSeq (s : State) (e : Nat) : Nat := dn (engBlock s e) 448 64
/-- The engine is open to a context. -/
def engOpen (s : State) (e ctx : Nat) : Bool := (engBlock s e).getLsbD 303 && dn (engBlock s e) 304 16 == ctx

/-! ## Deferred causes -/

/-- Park lanes at their next boundary; lanes of one word and one cause go together (R174). -/
def addDefer (w : Wave) (d : Defer) : Wave :=
  if w.defer.any (fun x => x.cause == d.cause && x.epc == d.epc) then
    { w with defer := w.defer.map (fun x =>
        if x.cause = d.cause ∧ x.epc = d.epc then { x with lanes := x.lanes ||| d.lanes, tval := x.tval ++ d.tval } else x) }
  else { w with defer := w.defer ++ [d] }

def deferLane (s : State) (u l : Nat) (c : Cause) (epc : Word) (tv : DWord) : State :=
  s.mapWave u (fun w => addDefer w ⟨bitM l, c, epc, [(l, tv)]⟩)

/-! ## Write-back -/

def jobOf (s : State) (u fid k : Nat) : Option (Wave × Flight × Job) :=
  match s.wave? u with
  | none => none
  | some w =>
    match w.flights.find? (·.id == fid) with
    | none => none
    | some fl => (fl.jobs[k]?).map (fun j => (w, fl, j))

/-- Perform a read. REGQ reads its word at one moment for all its lanes (R355). -/
def performJob (s : State) (u fid k : Nat) (j : Job) (hit : Bool) : State :=
  match j.src with
  | .mem l size => performMem s u fid k j l size hit
  | .regq comp idx sel =>
    let v := natWords 2 (regWord (regionDesc s comp idx) sel)
    s.mapWave u (fun w => { w with flights := w.flights.map (fun f =>
      if f.id = fid then { f with jobs := f.jobs.map (fun j => if j.src == .regq comp idx sel then { j with val := some v } else j) }
      else f) })
  | .cseq e => s.mapWave u (fun w => w.setJob fid k (fun j => { j with val := some (natWords 2 (engSeq s e)) }))
  | _ => s

/-- A lap reply that a member receives: the first fixes the transaction's lap, another lap aborts (R372). -/
def lapRule (s : State) (u : Nat) (fl : Flight) (j : Job) (ws : List Word) : State :=
  match s.wave? u with
  | none => s
  | some w =>
    let lap := (ws.getLast?.getD 0).toNat
    if !fl.lapTx || fl.id < w.kettle.since || !(w.members.getLsbD j.lane) then s
    else
      match w.kettle.lap with
      | none => s.mapWave u (fun w => { w with kettle := { w.kettle with lap := some lap } })
      | some t => if t = lap then s else s.mapWave u (fun w => abortTx w (bitM j.lane) 0x0A 0)

/-- Land a value; the lap register of a lap read takes tag N32 (R343). -/
def landValue (s : State) (u fid k : Nat) (fl : Flight) (j : Job) (ws : List Word) : State :=
  if j.path = pathSteppe ∧ j.src = .await ∧ j.n = fl.ety.regs + 1 then
    let s := lapRule s u fl j ws
    let lapReg := j.dst + j.n - 1
    let owed := match s.wave? u with | some w => flook (w.thread j.lane).pend lapReg == some fid | none => false
    let s := landJob s u fid k ws j.tag
    if owed then s.mapWave u (fun w => { w with tags := fset .bits w.tags lapReg .n32 }) else s
  else landJob s u fid k ws j.tag

/-- The address that a deferred error reports: of CHECK, an Infuser block's header (R173, R440); of any other read the
address of the element, as the job holds it. Which address that is for an access that names none, by coordinates say,
is the model's choice (log entry 81). -/
def Job.errTval (j : Job) (c : Cause) : DWord :=
  match j.src with
  | .mem (.infuse b) _ => BitVec.ofNat 64 (if c == .uncorr then j.va else b.hdr)
  | _ => BitVec.ofNat 64 j.va

/-- A deferred cause of a lane in handler mode writes no destination (R180): the registers are full again with
the words and tags that they held (DESIGN CHOICE, log entry 72). -/
def returnUnwritten (s : State) (u fid k : Nat) (w : Wave) (j : Job) : State :=
  (landJob s u fid k ((rangeFrom j.dst j.n).map (w.thread j.lane).reg) j.tag).mapWave u (fun v => { v with tags := w.tags })

/-- The other half of an element that moves in two (R139): a deferred error in one writes zero into both (R334). -/
def Flight.mate (fl : Flight) (j : Job) : Option Job :=
  match j.src with
  | .mem _ 8 =>
    if j.tag == .c64 then
      let d0 := match fl.jobs.find? (·.lane == j.lane) with | some x => x.dst | none => j.dst
      let d := if (j.dst - d0) % 4 = 0 then j.dst + 2 else j.dst - 2
      fl.jobs.find? (fun x => x.lane == j.lane && x.dst == d)
    else none
  | _ => none

/-- A half waits for the other one, whose error is its own. -/
def Flight.whole (fl : Flight) (j : Job) : Bool := match fl.mate j with | some x => x.performed | none => true
def Flight.halfLost (fl : Flight) (j : Job) : Bool := match fl.mate j with | some x => x.err.isSome | none => false

/-- Zeros, or in handler mode nothing, for a read in error (R180, R188). -/
def landLost (s : State) (u fid k : Nat) (w : Wave) (fl : Flight) (j : Job) : State :=
  let ws := if j.path = pathSteppe then j.val.getD (List.replicate j.n 0) else List.replicate j.n 0
  if w.inHandler j.lane then returnUnwritten s u fid k w j else landValue s u fid k fl j ws

/-- REGISTER_WRITEBACK. -/
def registerWriteback (u fid k : Nat) (how : Land) (s : State) : State :=
  match jobOf s u fid k with
  | none => s
  | some (w, fl, j) =>
    if j.landed then s
    else
      match how with
      | .stage => if readReady s w fl k j && !jobAsleep s w fid j false then performJob s u fid k j false else s
      | .land hit =>
        let s := if readReady s w fl k j && !jobAsleep s w fid j hit then performJob s u fid k j hit else s
        match jobOf s u fid k with
        | none => s
        | some (w, fl, j) =>
          match j.val, j.err with
          | some ws, none =>
            if !fl.whole j then s else if fl.halfLost j then landLost s u fid k w fl j else landValue s u fid k fl j ws
          | _, _ => s

/-- READ_ERROR_RETURN: zeros land and the lane is parked (R188); a poisoned lap read keeps its reply
(R421). -/
def readErrorReturn (u fid k : Nat) (uncorr : Bool) (s : State) : State :=
  match jobOf s u fid k with
  | none => s
  | some (w, fl, j) =>
    if j.landed || !(j.err.isSome || (readReady s w fl k j && !jobAsleep s w fid j false && (match j.src with | .mem .. => true | _ => false))) then s
    else
      let c := j.err.getD (if uncorr then .uncorr else .check)
      let s := s.mapWave u (fun w => w.setJob fid k (fun j => { j with err := some c }))
      deferLane (landLost s u fid k w fl j) u j.lane c fl.pc (j.errTval c)

/-- A coded block may be read now. -/
def blockReady (s : State) (w : Wave) (fl : Flight) (k : Nat) (j : Job) (b : Block) : Bool :=
  !(j.held || j.performed || fl.heldBefore k j.lane || readAhead s w fl.id k j.lane || (ownBefore s w fl.id).any (·.fences)) &&
    !coreBusy s w.core (rangeFrom b.hdr b.slot) &&
    !sliceAsleep s (waveCtx s w) (w.core / 96) j.path j.va (.infuse b)

/-- INFUSER_DECODE: a block is decoded and checked; a corrupt one gives CHECK (R440), and one that has lost a granule
gives that granule's cause (R450). -/
def infuserDecode (u fid k : Nat) (s : State) : State :=
  match jobOf s u fid k with
  | none => s
  | some (w, fl, j) =>
    match j.src with
    | .mem (.infuse b) size =>
      if !blockReady s w fl k j b then s
      else
        let s := useLoc s false (waveCtx s w) (w.core / 96) j.path j.va (.infuse b)
        let ad := codedBytes s b
        let fail (c : Cause) : State := s.mapWave u (fun w => w.setJob fid k (fun j => { j with err := some c }))
        if (coreRead s w.core (.bytes ad .plain)).2 then fail (poisonCause s ad)
        else
          match decodeBlock (coreBytes s w.core (rangeFrom b.hdr b.slot)) b with
          | some raw =>
            let bs := layFwd j.fwd ((raw.drop b.off).take size)
            s.mapWave u (fun w => w.setJob fid k (fun j => { j with val := some (natWords j.n (leNat bs)) }))
          | none => fail .check
    | _ => s

/-! ## The operand log (R184 to R187) -/

/-- The size and the right of what an item holds up. -/
def itemAccess (s : State) (w : Wave) (h : Held) : Nat × Want :=
  match h with
  | .job fid k =>
    match w.flights.find? (·.id == fid) with
    | some fl => match fl.jobs[k]? with
      | some j => match j.src with | .mem _ size => (size, .read) | _ => (4 * j.n, .read)
      | none => (4, .read)
    | none => (4, .read)
  | .part e k =>
    match (w.sq ++ (s.core w.core).outs).find? (·.id == e) with
    | some x => match x.parts[k]? with
      | some p => (p.size, p.want)
      | none => (4, .write)
    | none => (4, .write)
  | .xfer id =>
    match (s.core w.core).xfers.find? (·.id == id) with
    | some x => (x.es, if x.load then .read else .write)
    | none => (4, .read)
  | .wait => (4, .read)

/-- The generic address that a path and a logged address name: PAGE of paths 0, 4 and 6 logs a virtual address. -/
def onPathAddr (path addr : Nat) : Nat := if cachedPath path then path * 2 ^ 60 + addr % 2 ^ 57 else addr

/-- The checks of an item made anew. -/
def recheck (s : State) (w : Wave) (lane path addr : Nat) (size : Nat) (want : Want) : Chk :=
  let t := s.team? w.team
  if path = pathPriv then
    checkPrivate w.hwm (match t with | some t => t.desc.privH | none => 0) w.priv w.width lane addr size
  else checkGeneric s ⟨waveCtx s w, w.core / 96, t, false⟩ (onPathAddr path addr) size want false

/-- Zeros land in a job of the operand log that is dropped. -/
def zeroJob (s : State) (u fid k : Nat) (tag : Option Ety) : State :=
  match jobOf s u fid k with
  | none => s
  | some (_, _, j) => landJob s u fid k (List.replicate j.n 0) (tag.getD j.tag)

/-- Change a part of a store-queue entry of a wave. -/
def setPart (s : State) (u e k : Nat) (f : StPart → StPart) : State :=
  s.mapWave u (fun w => { w with sq := w.sq.map (fun x =>
    if x.id = e then { x with parts := x.parts.mapIdx (fun i p => if i = k then f p else p) } else x) })

/-- The job that a part of an atomic returns to. -/
def partJob (s : State) (u e k : Nat) : Option (Nat × Nat) :=
  match s.wave? u with
  | none => none
  | some w =>
    match w.sq.find? (·.id == e) with
    | none => none
    | some x =>
      match x.flight, x.parts[k]? with
      | some f, some p => p.ret.map (fun i => (f, i))
      | _, _ => none

/-- An error on resume: zeros land, but for a lane in handler mode, where nothing is written (R180). -/
def errorJob (s : State) (u fid k : Nat) : State :=
  match jobOf s u fid k with
  | none => s
  | some (w, fl, j) => landLost s u fid k w fl j

/-- A part that will never be performed stands as done; `job` says what becomes of the job that it returns to. -/
def endPart (s : State) (u e k : Nat) (job : State → Nat → Nat → State) : State :=
  let j := partJob s u e k
  let s := setPart s u e k (fun p => { p with loc := .bytes [] .plain, done := true })
  match j with
  | some (f, i) => job s f i
  | none => s

def dropPart (s : State) (u e k : Nat) (tag : Option Ety) : State :=
  endPart s u e k (fun s f i => zeroJob s u f i tag)

/-- An item goes on at a location; a store stands under the leaf that it finds there (R200). -/
def releaseItem (s : State) (u : Nat) (h : Held) (core : Nat) (l : Loc) : State :=
  match h with
  | .job fid k => s.mapWave u (fun w => w.setJob fid k (fun j =>
      { j with held := false, src := match j.src with | .mem _ size => .mem l size | x => x }))
  | .part e k =>
    let s := match partJob s u e k with
      | some (f, i) => s.mapWave u (fun w => w.setJob f i (fun j => { j with held := false }))
      | none => s
    let ctx := match s.wave? u with | some w => waveCtx s w | none => 0
    setPart s u e k (fun p => { p with loc := l, shared := dupLeaf s ctx p.path p.va })
  | .xfer id => mapXfer s core id (fun x => { x with held := false })
  | .wait => s

/-- An item that fails a precise check on resume: nothing is performed, zeros land, the lane is parked
(log entry 12); a lane in handler mode has nothing written (R180). -/
def failItem (s : State) (u lane : Nat) (h : Held) (epc : Word) (c : Cause) (tv : Nat) (core : Nat) : State :=
  let s := match h with
    | .job fid k => errorJob s u fid k
    | .part e k => endPart s u e k (fun s f i => errorJob s u f i)
    | .xfer id => mapXfer s core id (fun x => { x with held := false })
    | .wait => s
  match h with
  | .xfer _ => s
  | _ => deferLane s u lane c epc (BitVec.ofNat 64 tv)

/-- WATCH of an access by address that the driver has resumed, after it (R190, R326). A transfer raised it at issue. -/
def watchLate (s : State) (u lane : Nat) (h : Held) (epc : Word) (path addr size : Nat) (want : Want) : State :=
  let g := onPathAddr path addr
  match h, s.wave? u with
  | .job .., some w | .part .., some w =>
    if path < 8 && watchHit w g size [want] then deferLane s u lane .watch (pcNext epc) (BitVec.ofNat 64 g) else s
  | _, _ => s

/-- Reissue an operand-log entry: items that fault again stay, with the new address (R185, R389). -/
def resumeEntry (s : State) (e : OpEntry) : State × Option OpEntry :=
  match s.wave? e.wave with
  | none => (s, none)
  | some w =>
    let (s, left) := e.items.foldl (fun (r : State × List (Nat × Held × Nat × Nat)) it =>
      let (lane, h, path, addr) := it
      let (size, want) := itemAccess r.1 w h
      match recheck r.1 w lane path addr size want with
      | .ok l => (watchLate (releaseItem r.1 w.uid h w.core l) w.uid lane h e.pc path addr size want, r.2)
      | .page p a => (r.1, r.2 ++ [(lane, h, p, a)])
      | .grow o => (r.1, r.2 ++ [(lane, h, pathPriv, o)])
      | .trap c tv _ => (failItem r.1 w.uid lane h e.pc c tv w.core, r.2)
      | .absent a => (r.1.touch false a, r.2)) (s, [])
    (s, if left.isEmpty then none else some { e with items := left })

/-- The driver maps private pages for a GROW: %hwm covers the access (R134). -/
def growFor (s : State) (e : OpEntry) : State :=
  if !e.grow then s
  else
    match s.wave? e.wave with
    | none => s
    | some w =>
      let need := e.items.foldl (fun n it => max n (it.2.2.2 + (itemAccess s w it.2.1).1)) w.hwm
      s.mapWave e.wave (fun w => { w with hwm := ceilDiv need 65536 * 65536 })

/-- The driver has resolved a refusal with the target's driver (R460): its peer is asked again. -/
def askAgain (s : State) (e : OpEntry) : State :=
  let page (p : Nat × Held × Nat × Nat) : Option (Nat × Nat × Nat) :=
    if p.2.2.1 = 7 then
      (s.wave? e.wave).map (fun w => (p.2.2.2 / 2 ^ 52 % 64, waveCtx s w, p.2.2.2 % 2 ^ 52 / 65536))
    else none
  { s with refused := s.refused.filter (fun x => !(e.items.filterMap page).contains x) }

/-- Reissue the entries of a quadrant's log that a test chooses, in their order. -/
def resumeEntries (s : State) (qn : Nat) (which : OpEntry → Bool) : State :=
  let q := s.quad qn
  let (s, kept) := q.oplog.foldl (fun (r : State × List OpEntry) e =>
    if which e then
      let (s, x) := resumeEntry r.1 e
      (s, r.2 ++ x.toList)
    else (r.1, r.2 ++ [e])) (s, [])
  s.mapQuad qn (fun q => { q with oplog := kept })

/-- OPLOG_RESUME: the driver has mapped the page and resumes entry idx (R185). -/
def oplogResume (qn idx : Nat) (s : State) : State :=
  match (s.quad qn).oplog[idx]? with
  | none => s
  | some e =>
    if e.delivered then s
    else
      let s := growFor (askAgain s e) e
      let (s, x) := resumeEntry s e
      s.mapQuad qn (fun q => { q with oplog := (q.oplog.take idx) ++ x.toList ++ (q.oplog.drop (idx + 1)) })

/-- An entry goes to %handler with a cause: its lanes park at their next boundary (R187). -/
def deliverEntry (s : State) (qn idx : Nat) (e : OpEntry) (c : Cause) : State :=
  let lanes := maskOf (e.items.map (·.1))
  let s := s.mapQuad qn (fun q => { q with oplog := q.oplog.mapIdx (fun i x => if i = idx then { x with delivered := true } else x) })
  s.mapWave e.wave (fun w => addDefer w
    ⟨lanes, c, e.pc, e.items.map (fun it => (it.1, BitVec.ofNat 64 it.2.2.2))⟩)

/-- PAGE_DELIVER. -/
def pageDeliver (qn idx : Nat) (s : State) : State :=
  match (s.quad qn).oplog[idx]? with
  | none => s
  | some e => if e.delivered || e.grow then s else deliverEntry s qn idx e .page

/-- GROW_DENY. -/
def growDeny (qn idx : Nat) (s : State) : State :=
  match (s.quad qn).oplog[idx]? with
  | none => s
  | some e => if e.delivered || !e.grow then s else deliverEntry s qn idx e .bounds

/-- A dropped transfer ends: a load leaves zeros in the elements it has not moved, a store does not write
them. -/
def dropXfer (s : State) (core id : Nat) : State :=
  let s := mapXfer s core id (fun x => { x with held := false })
  match (s.core core).xfers.find? (·.id == id) with
  | none => s
  | some x =>
    match s.team? x.team with
    | none => s
    | some t =>
      let s := if x.load then
          (List.range (x.total - x.done)).foldl (fun s _ =>
            match (s.core core).xfers.find? (·.id == id) with
            | some x => fillElem s core { x with cj := false } t (s.tileEnt t core x.ent) (List.replicate x.es 0)
            | none => s) s
        else mapXfer s core id (fun x => { x with done := x.total })
      endXfer s core id

/-- Drop an entry (R187): destinations are zero, full, with tag BITS; the counters fall. -/
def dropEntry (s : State) (e : OpEntry) : State :=
  e.items.foldl (fun s it =>
    match it.2.1 with
    | .job fid k => zeroJob s e.wave fid k (some .bits)
    | .part x k => dropPart s e.wave x k (some .bits)
    | .xfer id =>
      (match s.wave? e.wave with | some w => dropXfer s w.core id | none => s)
    | .wait => s) s

/-! ## Ownership of path 6 pages (R197) -/

/-- Some access to the page is under way: a read not performed, a store not at system scope, or one that a
transaction still holds. -/
def pageBusy (s : State) (ctx lo n : Nat) : Bool :=
  let inPage (va : Nat) : Bool := lo ≤ va % 2 ^ 57 && va % 2 ^ 57 < lo + n
  s.waves.any (fun w => waveCtx s w == ctx &&
    (w.flights.any (fun f => f.jobs.any (fun j => j.path == 6 && !j.held && !j.performed && inPage j.va)) ||
     w.sq.any (fun e => e.parts.any (fun p => p.path == 6 && !p.done && !p.waits && inPage p.va)) ||
     w.kettle.buf.any (fun p => p.path == 6 && inPage p.va))) ||
  s.cores.any (fun c => (c.2.outs ++ c.2.egress).any (fun e => e.parts.any (fun p => p.path == 6 && inPage p.va)))

/-- A page of n bytes at virtual address `lo` of a context leaves the translations of some cores: read-set
lines in it are in conflict (R365). -/
def conflictPage (s : State) (ctx lo n : Nat) (cores : Nat → Bool) : State :=
  { s with waves := s.waves.map (fun w =>
      if !w.kettle.isOpen || !cores w.core || waveCtx s w != ctx then w
      else
        let hit := (w.kettle.reads.filter (fun l => l.pages.any (fun p => lo ≤ p * 65536 && p * 65536 < lo + n))).foldl
          (fun m l => m ||| (l.mask &&& l.seen)) 0
        { w with kettle := { w.kettle with hit := w.kettle.hit ||| hit } }) }

/-- OWNERSHIP_FLIP: the driver moves a page between host and device. Toward the device the entries that
wait for it resume; toward the host its device translations go first. -/
def ownershipFlip (ctx va : Nat) (toDevice : Bool) (s : State) : State :=
  match walk s ctx va with
  | .leaf lvl e at_ =>
    let n := pageSize lvl
    let lo := va % 2 ^ 57 / n * n
    if e.getLsbD 59 == toDevice then s
    else if toDevice then
      let s := devWrite s at_ 16 (e ||| (1#128 <<< 59)).toNat
      let waits (x : OpEntry) : Bool := !x.delivered && !x.grow &&
        (match s.wave? x.wave with | some w => waveCtx s w == ctx | none => false) &&
        x.items.any (fun it => it.2.2.1 == 6 && lo ≤ it.2.2.2 % 2 ^ 57 && it.2.2.2 % 2 ^ 57 < lo + n)
      (s.quads.map (·.1)).foldl (fun s q => resumeEntries s q waits) s
    else if pageBusy s ctx lo n then s
    else conflictPage (devWrite s at_ 16 (e &&& ~~~ (1#128 <<< 59)).toNat) ctx lo n (fun _ => true)
  | _ => s

/-! ## Soft errors (R173) -/

/-- REGISTER_SOFT_ERROR: storage number n of a thread (a register, 2,048 + n for its window entry, 4,096 + n
for log entry n, 16,384 + n for P register n, 16,392 + n for X register n) or of its wave (8,192 + n for W register n,
8,256 + n for Q register n) takes an uncorrectable error. -/
def registerSoftError (u thread n : Nat) (s : State) : State :=
  match s.wave? u with
  | none => s
  | some w =>
    let there := if n < 2048 then n < w.top else if n < 4096 then w.inWindow (n - 2048)
      else if n < 8192 then n - 4096 < w.kettle.log.length
      else n < 8192 + 80 || (16384 < n && n < 16392 + 4)
    if !there || thread ≥ w.width || w.retired then s
    else if 8192 ≤ n ∧ n < 16384 then s.mapWave u (fun w => { w with wsoft := (n - 8192) :: w.wsoft.filter (· != n - 8192) })
    else s.mapWave u (fun w => w.mapThread thread (fun t => if t.soft.contains n then t else { t with soft := t.soft ++ [n] }))

def execRegisterWriteback (wave prod job : Nat) (how : Land) (s : State) : Out := finish (registerWriteback wave prod job how s)
def execReadErrorReturn (wave prod job : Nat) (uncorr : Bool) (s : State) : Out := finish (readErrorReturn wave prod job uncorr s)
def execInfuserDecode (wave prod job : Nat) (s : State) : Out := finish (infuserDecode wave prod job s)
def execStoreOrderPoint (wave : Nat) (s : State) : Out := finish (orderPoint s wave)
def execStorePerformed (core entry upto : Nat) (s : State) : Out := finish (performEntry s core entry upto)
def execStoreAck (core entry : Nat) (s : State) : Out := finish (ackEntry s core entry)
def execOplogResume (quad idx : Nat) (s : State) : Out := finish (oplogResume quad idx s)
def execPageDeliver (quad idx : Nat) (s : State) : Out := finish (pageDeliver quad idx s)
def execGrowDeny (quad idx : Nat) (s : State) : Out := finish (growDeny quad idx s)
def execOwnershipFlip (ctx va : Nat) (toDevice : Bool) (s : State) : Out := finish (ownershipFlip ctx va toDevice s)
def execRegisterSoftError (wave thread reg : Nat) (s : State) : Out := finish (registerSoftError wave thread reg s)

end Sys2Proof.Machine
end

