-- ==== Sys2Proof/Machine/Kettle.lean ====
section
/-!
DEFINITION. Transactions: TRY, COMMIT, ABORT, TSTAT, conflicts and the commit step (R361 to R371).
-/
namespace Sys2Proof.Machine

/-! ## TRY (R362) -/

/-- Open a transaction of the threads of S. -/
def openTx (w : Wave) (S : Mask) (whole : Bool) (apc : Word) (since : Nat) : Wave :=
  let ls := lanesOf S
  let w := w.mapLanes S (fun _ t => { t with depth := 1 })
  { w with kettle := { Kettle.closed with
      isOpen := true, whole := whole, apc := apc, cw := w.w, cwsoft := w.wsoft, cfpstat := w.fpstat, cfpctl := w.fpctl,
      cp := ls.map (fun l => (l, (w.thread l).p)), cx := ls.map (fun l => (l, (w.thread l).x)),
      csoft := ls.map (fun l => (l, (w.thread l).soft.filter (16384 ≤ ·))), since := since } }

def tryBody (f : Full) (s : State) (c : Ctx) : Res :=
  if c.hm then { st := s }
  else
    match s.wave? c.u with
    | none => { st := s }
    | some w =>
      if !w.kettle.isOpen then
        { st := s.mapWave c.u (fun w => openTx w c.act (f.lo3 % 2 == 1) (relTarget c.pc f.imm16) s.nextId) }
      else if c.tx then
        let deep := maskOf (c.lanes.filter (fun l => (w.thread l).depth == 7))
        let s := s.mapWave c.u (fun w => w.mapLanes (c.act &&& ~~~ deep) (fun _ t => { t with depth := t.depth + 1 }))
        if deep == 0 then { st := s } else { st := s, abort := some (deep, 0x0B, 0) }
      else { st := s.mapWave c.u (fun w => w.setWait c.act .openTx), stay := c.act }

def semTry (f : Full) : Sem :=
  { Sem.plain f with body := tryBody f, legal := declares (·.utry) }

/-! ## COMMIT (R366) -/

def commitBody (s : State) (c : Ctx) : Res :=
  if c.hm then { st := s }
  else
    let deep := maskOf (c.lanes.filter (fun l => (c.rd.thread l).depth > 1))
    let at_ := c.act &&& ~~~ deep
    let s := s.mapWave c.u (fun w =>
      (w.mapLanes deep (fun _ t => { t with depth := t.depth - 1 })).setWait at_ .commit)
    { st := s, stay := at_ }

/-- Outside handler mode only members may commit. -/
def memberIssue (s : State) (_ : Wave) (hm : Bool) : Bool :=
  hm || (match s.cur with | some i => i.inTx | none => true)

def semCommit (f : Full) : Sem := { Sem.plain f with body := commitBody, legal := memberIssue }

/-! ## ABORT and TSTAT (R370, R371) -/

def semAbort (f : Full) : Sem :=
  { Sem.plain f with
    body := fun s c =>
      if c.tx then { st := s, abort := some (c.act, 1, f.imm16.toNat % 256) } else { st := s } }

def semTstat (f : Full) : Sem :=
  alu f (fun l => [.dst l f.dn 1]) (fun c _ t =>
    let k := c.rd.kettle
    .val f.dn .n32 (k.log.length * 2 ^ 22 + k.buf.length * 2 ^ 13 + k.reads.length * 2 ^ 3 + t.depth))

/-! ## Conflicts (R365) -/

/-- TRANSACTION_CONFLICT: the lanes of a conflict abort at their next boundary. -/
def transactionConflict (u : Nat) (s : State) : State :=
  match s.wave? u with
  | none => s
  | some w =>
    let hit := w.kettle.hit &&& w.members
    if hit == 0 then s else retireIfDone (s.mapWave u (fun w => abortTx w hit 2 0)) u

/-! ## The commit step (R366 to R368) -/

/-- Every member waits at a COMMIT with depth 1. -/
def allCommit (w : Wave) : Bool :=
  w.kettle.isOpen && w.members != 0 && (lanesOf w.members).all (fun i => (w.thread i).wait == .commit)

/-- The group's place in the store queue is fixed. -/
def fixPlace (s : State) (u : Nat) : State :=
  match s.wave? u with
  | none => s
  | some w =>
    if allCommit w && w.kettle.commitAt.isNone then
      let (id, s) := s.newId
      s.mapWave u (fun w => { w with kettle := { w.kettle with commitAt := some id } })
    else s

/-- The members that a lower member's stores reach (R367). -/
def aliasLanes (s : State) (w : Wave) (remain : Mask) : Mask :=
  let writes (l : Nat) : List Nat :=
    linesOf ((w.kettle.buf.filter (fun p => remain.getLsbD p.lane && p.lane < l)).map (·.addrs s)).flatten
  maskOf ((lanesOf remain).filter (fun r =>
    w.kettle.reads.any (fun ln => ln.mask.getLsbD r && (writes r).contains ln.key)))

/-- The queue has come to the group's place, and the order point may take it. -/
def commitReady (s : State) (w : Wave) (k : Nat) : Bool :=
  allCommit w && !w.sq.any (fun e => e.id < k) && readsDone s w k (fun l => w.members.getLsbD l) &&
    !readPending s w k ((w.kettle.buf.map (·.addrs s)).flatten) &&
    !((s.core w.core).outs.any (fun x => x.wave == w.uid && x.id < k && x.acq && x.fences)) &&
    !counterFull w [1, 2] &&
    !w.kettle.buf.any (fun p => p.shared && shooting s (waveCtx s w) (p.va % 2 ^ 57))

/-- A buffered 16-byte store on path 5, 6 or 7 is performed as two halves, the lower first (R139). -/
def StPart.halves (p : StPart) : List StPart :=
  let post (g : List Byte → List Byte) (x : Post) : Post := match x with | .flip m => .flip (g m) | y => y
  match p.loc with
  | .bytes ad x =>
    if p.size = 16 ∧ 5 ≤ p.path ∧ p.path ≤ 7 then
      [{ p with loc := .bytes (ad.take 8) (post (·.take 8) x), size := 8, val := p.val % 2 ^ 64 },
       { p with loc := .bytes (ad.drop 8) (post (·.drop 8) x), size := 8, val := p.val / 2 ^ 64 % 2 ^ 64, va := p.va + 8 }]
    else [p]
  | _ => [p]

/-- The remaining members leave the transaction with their stores as one entry of the queue. -/
def drainGroup (s : State) (u k : Nat) : State :=
  match s.wave? u with
  | none => s
  | some w =>
    if !w.kettle.isOpen then s
    else
      let mem := w.members
      let g := (w.kettle.buf.map StPart.halves).flatten
      let pc := match lowest mem with | some l => (w.thread l).pc | none => 0
      let s := s.mapWave u (fun w =>
        (w.closeTx).mapLanes mem (fun _ t => { t with wait := .none, pc := pcNext t.pc }))
      if g.isEmpty then s
      else
        let e : StEntry := { id := k, wave := u, pc := pc, word := (fetch s ⟨w.code, pc, w.modeOf ((lowest mem).getD 0)⟩).1, kind := .commit, parts := g, scope := 0, acq := false,
                             rel := false, flight := none, xfer := none, stq := true, syq := true }
        orderPoint (s.mapWave u (fun w => ({ w with sq := e :: w.sq }.raise 1).raise 2)) u

/-- COMMIT_STEP. -/
def commitStep (u : Nat) (s : State) : State :=
  match s.wave? u with
  | none => s
  | some w =>
    match w.kettle.commitAt with
    | none => s
    | some k =>
      if !commitReady s w k then s
      else
        let s := transactionConflict u s
        let s := match s.wave? u with
          | none => s
          | some w =>
            let r := if w.kettle.whole then 0 else aliasLanes s w w.members
            if r == 0 then s else s.mapWave u (fun w => abortTx w r 2 0)
        drainGroup s u k

def execTryTx (f : Full) (s : State) : Out := execX (semTry f) s
def execCommit (f : Full) (s : State) : Out := execX (semCommit f) s
def execAbort (f : Full) (s : State) : Out := execX (semAbort f) s
def execTstat (f : Full) (s : State) : Out := execX (semTstat f) s
def execTransactionConflict (wave : Nat) (s : State) : Out := finish (transactionConflict wave s)
def execCommitStep (wave : Nat) (s : State) : Out := finish (commitStep wave s)

end Sys2Proof.Machine
end

