-- ==== Sys2Proof/Machine/Coop.lean ====
section
/-!
DEFINITION. Waits and cooperation: WAITC, WAITQ, WAITL, WAITM (R373 to R377), ELECT (R378), barriers (R379
to R381), FETCHW (R382), CTAIL and CSEQ (R383, R384).
-/
namespace Sys2Proof.Machine

/-- ILLEGAL in every issuing lane, with a register's value (R231). -/
def illegalW (c : Ctx) (v : Word) : List Trap := (lanesOf c.grp).map (fun l => ⟨l, .illegal, v.zeroExtend 64, 0⟩)

def allLanes (c : Ctx) (k : Cause) (tv : Nat) : List Trap := c.lanes.map (fun l => ⟨l, k, BitVec.ofNat 64 tv, 0⟩)

/-- A wait: the Active lanes go on where the condition holds, else they wait (R373). -/
def waitOr (s : State) (c : Ctx) (ok : Bool) (effect : State → State) (x : Wait) : Res :=
  if ok then { st := effect s }
  else { st := c.lanes.foldl (fun s l => startWait s c.u l x) s, stay := c.act }

/-! ## WAITC (R374) -/

def counterOk (w : Wave) (k v : Nat) : Bool := w.cnt.get k ≤ v

/-- The end of a WAITC (R150). -/
def endWaitc (u k v scope : Nat) (s : State) : State :=
  if k = 0 ∧ v = 0 then acquireAt s u scope else s

def waitcBody (k v scope : Nat) (s : State) (c : Ctx) : Res :=
  match s.wave? c.u with
  | none => { st := s }
  | some w => waitOr s c (counterOk w k v) (endWaitc c.u k v scope) (.waitc k v scope)

def semWaitcReg (f : Full) : Sem :=
  { Sem.plain f with wsrc := [f.an % 64], body := fun s c => waitcBody f.hi3 (c.rd.wreg (f.an % 64)).toNat f.scope s c }
/-- The immediate form has device scope. -/
def semWaitcImm (f : Full) : Sem :=
  { Sem.plain f with body := waitcBody f.lo3 f.imm16.toNat 5 }

/-! ## WAITQ, CTAIL and CSEQ (R375, R383, R384) -/

/-- An engine number of a W register; none where bits above it are set. -/
def engNumber (v : Word) : Option Nat := if v.toNat < 64 then some v.toNat else none

def waitqBody (n e : Nat) (s : State) (c : Ctx) : Res :=
  if !engOpen s e c.ctxNo then { st := s, traps := allLanes c .rights e }
  else waitOr s c (n ≤ engSeq s e) (acquireNow · c.u) (.waitq e n)

def semWaitqReg (f : Full) : Sem :=
  { Sem.plain f with
    wsrc := [f.an % 64, f.an % 64 + 1, f.bn % 64]
    forbid := fun _ => true
    body := fun s c =>
      let v := c.rd.wreg (f.bn % 64)
      match engNumber v with
      | none => { st := s, traps := illegalW c v }
      | some e => waitqBody (c.rd.wpair (f.an % 64)).toNat e s c }
def semWaitqImm (f : Full) : Sem :=
  { Sem.plain f with
    wsrc := [f.an % 64, f.an % 64 + 1]
    forbid := fun _ => true
    body := fun s c => waitqBody (c.rd.wpair (f.an % 64)).toNat (f.imm16.toNat % 64) s c }

/-- The causes of CTAIL. -/
def ctailTraps (f : Full) (s : State) (c : Ctx) : List Trap :=
  let a := (c.rd.wpair (f.an % 64)).toNat
  let v := c.rd.wreg (f.bn % 64)
  match engNumber v with
  | none => illegalW c v
  | some e =>
    if a % 64 ≠ 0 then allLanes c .align a
    else if a / 2 ^ 60 ≠ 0 then allLanes c .rights a
    else if !engOpen s e c.ctxNo then allLanes c .rights e
    else []

def ctailBody (f : Full) (s : State) (c : Ctx) : Res :=
  let ts := ctailTraps f s c
  if !ts.isEmpty then { st := s, traps := ts }
  else
    let a := (c.rd.wpair (f.an % 64)).toNat
    let e := (c.rd.wreg (f.bn % 64)).toNat % 64
    let s := s.mapWave c.u (·.raise 5)
    { st := s.mapEngine e (fun x => { x with tails := x.tails ++ [(a, some c.u, some c.rd.team)] }) }

/-- The thread waits until STQ is 0 and, as CTAIL is a release, until the wave's loads are performed (R154, R163). -/
def semCtail (f : Full) : Sem :=
  { Sem.plain f with
    wsrc := [f.an % 64, f.an % 64 + 1, f.bn % 64]
    forbid := fun _ => true, body := ctailBody f
    hold := fun s w a => a != 0 && w.members &&& a == 0 && (w.cnt.stq != 0 || counterFull w [5] || !readsDone s w s.nextId (fun _ => true)) }

def semCseq (f : Full) : Sem :=
  { Sem.plain f with
    ops := fun _ _ l => [.dst l f.dn 2]
    wsrc := [f.an % 64]
    body := fun s c =>
      let v := c.rd.wreg (f.an % 64)
      match engNumber v with
      | none => { st := s, traps := illegalW c v }
      | some e =>
        if !engOpen s e c.ctxNo then { st := s, traps := allLanes c .rights e }
        else askFlight 2 f.dn .n64 (.cseq e) s c }

/-! ## WAITL (R376) -/

def lapReached (s : State) (comp idx v : Nat) : Bool :=
  (dLap (regionDesc s comp idx) + 2 ^ 32 - v) % 2 ^ 32 < 2 ^ 31

def waitlBody (h : Word) (v : Nat) (s : State) (c : Ctx) : Res :=
  match handleDesc s c.ctxNo h with
  | none => { st := s, traps := handleTraps c h }
  | some d =>
    if !hasRight (hRights h) .read || dClass d != 2 then { st := s, traps := handleTraps c h }
    else waitOr s c (lapReached s (ctxComp s c.ctxNo) (hIdx h) v) id (.waitl (ctxComp s c.ctxNo) (hIdx h) v)

def semWaitlReg (f : Full) : Sem :=
  { Sem.plain f with
    wsrc := [f.an % 64, f.bn % 64], legal := declares (·.ust)
    body := fun s c => waitlBody (c.rd.wreg (f.an % 64)) (c.rd.wreg (f.bn % 64)).toNat s c }
def semWaitlImm (f : Full) : Sem :=
  { Sem.plain f with
    wsrc := [f.an % 64], legal := declares (·.ust), body := fun s c => waitlBody (c.rd.wreg (f.an % 64)) f.imm16.toNat s c }

/-! ## WAITM (R377) -/

def condHolds (cond : Nat) (x c : Nat) : Bool :=
  match cond with | 0 => x == c | 1 => x != c | 2 => c ≤ x | _ => x < c

/-- The checks of WAITM's address: paths 0, 2 and 6. -/
def waitmChk (s : State) (w : Who) (a : Nat) : Chk :=
  match checkGeneric s w a 4 .read false with
  | .trap k tv pos => if pos ≤ 2 || a / 2 ^ 60 == 0 || a / 2 ^ 60 == 2 || a / 2 ^ 60 == 6 then .trap k tv pos else .trap .rights a 3
  | x => if a / 2 ^ 60 == 0 || a / 2 ^ 60 == 2 || a / 2 ^ 60 == 6 then x else .trap .rights a 3

/-- WAITM's read reaches its slice (R377, R441). -/
def waitmUse (s : State) (w : Wave) (a : Nat) (l : Loc) : State :=
  useLoc s false (waveCtx s w) (w.core / 96) (a / 2 ^ 60) a l

/-- The word at its point of performance, as the core observes it: none while an earlier access of the wave
to it, or an acquire, is not performed, or while its slice or bank answers none (R444, R446). WAITM raises neither CHECK nor UNCORR (R360): what a word in error reads as the
spec leaves open, and it is a free value (log entry 77). -/
def waitmRead (s : State) (w : Wave) (a : Nat) (l : Loc) : Option Nat :=
  let ad := l.addrs s
  if (ownBefore s w s.nextId).any (fun e => e.fences || e.touches s ad) || coreBusy s w.core ad ||
      sliceAsleep s (waveCtx s w) (w.core / 96) (a / 2 ^ 60) a l then none
  else
    let (bs, bad) := coreRead s w.core l
    let wrong := bad || wrongKey s (waveCtx s w) (w.core / 96) (a / 2 ^ 60) a l
    some (if wrong then (Config.freeValue s.free).toNat % 2 ^ 32 else leNat bs)

/-- The read that ends the wait: an acquire at the scope, and in the read set of members. False: the read
set is full. -/
def endWaitm (s : State) (u : Nat) (members : Mask) (scope addr : Nat) (l : Loc) : State × Bool :=
  let s := acquireAt s u scope
  match s.wave? u with
  | none => (s, true)
  | some w =>
    let ls := lanesOf (w.members &&& members)
    let keys := linesOf (l.addrs s)
    let rs := ls.foldl (fun rs i => keys.foldl (fun rs k => addRead rs i k (pageOf addr)) rs) w.kettle.reads
    if ls.isEmpty then (s, true)
    else if rs.length > 512 then (s, false)
    else
      (s.mapWave u (fun w =>
        let w := { w with kettle := { w.kettle with reads := rs } }
        ls.foldl (fun w i => noteSeen w i s.nextId (l.addrs s)) w), true)

def waitmBody (f : Full) (s : State) (c : Ctx) : Res :=
  let a := (c.rd.wpair (f.an % 64)).toNat
  let v := (c.rd.wreg (f.bn % 64)).toNat
  let x : Wait := .waitm (a / 2 ^ 60) a (f.lo3 % 4) v f.scope
  match waitmChk s c.who a with
  | .trap k tv _ => { st := s, traps := allLanes c k tv }
  | .absent a => { st := s.touch false a }
  | .page path va =>
    if c.tx then { st := s, traps := allLanes c .page va }
    else
      let s := logEntry s c false (c.lanes.map (fun l => (l, Held.wait, path, va)))
      waitOr s c false id x
  | .grow _ => { st := s }
  | .ok l =>
    match s.wave? c.u with
    | none => { st := s }
    | some w =>
      match waitmRead s w a l with
      | none => waitOr s c false id x
      | some n =>
        if condHolds (f.lo3 % 4) n v then
          let (s, room) := endWaitm (waitmUse s w a l) c.u (if c.tx then c.act else 0) f.scope a l
          if room then { st := s } else { st := s, abort := fullAbort c 5 }
        else waitOr (waitmUse s w a l) c false id x

def semWaitm (f : Full) : Sem :=
  { memSem f [] (fun _ _ _ => []) (waitmBody f) with wsrc := [f.an % 64, f.an % 64 + 1, f.bn % 64] }

/-! ## WAIT_CONDITION_MET (R373) -/

/-- What becomes of a thread's wait now. -/
inductive WaitEnd where
  | still
  | done
  /-- the leaf of a WAITM's word is gone: the threads keep waiting (R377) -/
  | page (path va : Nat)
  | fail (c : Cause) (tv : Nat)
deriving DecidableEq, Repr

def waitEnd (s : State) (w : Wave) (x : Wait) : WaitEnd :=
  match x with
  | .waitc k v _ => if counterOk w k v then .done else .still
  | .waitq e n => if n ≤ engSeq s e then .done else .still
  | .waitl comp idx v => if lapReached s comp idx v then .done else .still
  | .waitm _ a cond c _ =>
    let t := s.team? w.team
    (match waitmChk s ⟨waveCtx s w, w.core / 96, t, w.handling⟩ a with
     | .trap k tv _ => .fail k tv
     | .ok l =>
       match waitmRead s w a l with
       | none => .still
       | some n => if condHolds cond n c then .done else .still
     | .page path va => .page path va
     | _ => .still)
  | _ => .still

/-- The effect of a wait's end on the wave. -/
def waitEffect (s : State) (u l : Nat) (w : Wave) (x : Wait) : State :=
  match x with
  | .waitc k v scope => endWaitc u k v scope s
  | .waitq .. => acquireNow s u
  | .waitm _ a _ _ scope =>
    (match waitmChk s ⟨waveCtx s w, w.core / 96, s.team? w.team, w.handling⟩ a with
     | .ok loc =>
       let (s, room) := endWaitm (waitmUse s w a loc) u (bitM l) scope a loc
       if room then s else s.mapWave u (fun w => abortTx w (bitM l) 5 0)
     | _ => s)
  | _ => s

/-- A waiting thread resumes at the next word. -/
def resumeNext (s : State) (u l : Nat) : State :=
  s.mapWave u (fun w =>
    let pc := w.pcOf l
    (w.mapThread l (fun t => { t with wait := .none })).setPc (bitM l) (fun _ => pcNext pc))

/-- A wait ends: the thread goes on at the next word, unless the end aborted its transaction (R365, R369). -/
def endWait (s : State) (u l : Nat) (w : Wave) (x : Wait) : State :=
  let s := waitEffect s u l w x
  if (s.wave? u).any (fun v => (v.thread l).wait == x) then resumeNext s u l else s

/-- A later read of a WAITM's word met PAGE (R184, R377): the threads that wait at one word share an entry of the
operand log, one entry a step, and none is placed while one of theirs stands there or the log is full. -/
def logWaits (s : State) (w : Wave) (ps : List (Nat × Nat × Nat)) : State :=
  let stands (pc : Word) : Bool := (s.quad w.qn).oplog.any (fun e => e.wave == w.uid && e.pc == pc && !e.grow)
  match (ps.map (fun p => w.pcOf p.1)).find? (!stands ·) with
  | none => s
  | some pc =>
    if logFull s w then s
    else
      let here := ps.filter (fun p => w.pcOf p.1 == pc)
      s.mapQuad w.qn (fun q => { q with oplog := q.oplog ++
        [{ wave := w.uid, pc := pc, word := (fetch s ⟨w.code, pc, w.modeOf ((here.map (·.1)).headD 0)⟩).1, grow := false,
           items := here.map (fun p => (p.1, Held.wait, p.2)), delivered := false, num := s.now }] })

/-- All threads of a wave whose wait has ended resume. A member whose re-read meets PAGE takes it (R189). -/
def waitConditionMet (u : Nat) (s : State) : State :=
  match s.wave? u with
  | none => s
  | some w =>
    let ends := (lanesOf w.running).map (fun l => (l, (w.thread l).wait, waitEnd s w (w.thread l).wait))
    let s := ends.foldl (fun s p =>
      let member := w.members.getLsbD p.1
      match p.2.2 with
      | .still => s
      | .done => endWait s u p.1 w p.2.1
      | .page _ va => if member then deferLane s u p.1 .page (w.pcOf p.1) (BitVec.ofNat 64 va) else s
      | .fail c tv => deferLane s u p.1 c (w.pcOf p.1) (BitVec.ofNat 64 tv)) s
    logWaits s w (ends.filterMap (fun p =>
      match p.2.2 with | .page path va => if w.members.getLsbD p.1 then none else some (p.1, path, va) | _ => none))

/-! ## ELECT (R378) -/

def semElect (f : Full) : Sem :=
  { Sem.plain f with
    body := fun s c =>
      let low := c.lanes.headD 0
      { st := s.mapWave c.u (fun w => w.mapLanes c.act (fun i t => t.setPred f.dn (i == low))) } }

/-! ## Barriers (R379 to R381) -/

/-- Waves of a team (R44). -/
def teamNW (t : Team) : Nat := ceilDiv (t.desc.dx * t.desc.dy * t.desc.dz) t.desc.width

/-- Threads wait at barrier b of their team; the first one of a round fixes c, and a
thread that names another raises ILLEGAL (R380, log entry 13). -/
def barBody (b k : Nat) (s : State) (c : Ctx) : Res :=
  if c.hm then { st := s }
  else
    match s.team? c.rd.team with
    | none => { st := s }
    | some t =>
      let x := fget Bar.idle t.bars b
      if k > teamNW t || (x.isOpen && x.c != k) then
        { st := s, traps := c.lanes.map (fun l => ⟨l, .illegal, c.iss.word, 0⟩) }
      else
        let s := s.mapTeam t.uid (fun t => { t with bars := fset Bar.idle t.bars b { x with isOpen := true, c := k } })
        waitOr s c false id (.bar b k)

def semBarImm (f : Full) : Sem :=
  { Sem.plain f with
    forbid := fun _ => true
    body := fun s c => barBody (f.imm16.toNat % 16) (f.imm16.toNat / 16 % 64) s c }
def semBarReg (f : Full) : Sem :=
  { Sem.plain f with
    wsrc := [f.an % 64]
    forbid := fun _ => true
    body := fun s c =>
      let v := c.rd.wreg (f.an % 64)
      if v.toNat ≥ 1024 && !c.hm then { st := s, traps := illegalW c v } else barBody (v.toNat % 16) (v.toNat / 16) s c }

def semBarg (f : Full) : Sem :=
  { Sem.plain f with
    forbid := fun _ => true
    body := fun s c => if c.hm then { st := s } else waitOr s c false id (.barg (f.lo3 % 4)) }

/-- Every running thread of the wave waits so, and there is one. A parked thread runs not while its sub-wave runs in
handler mode either, until RTH returns it (R380). -/
def allWait (w : Wave) (p : Wait → Bool) : Bool :=
  let r := lanesOf (w.running &&& ~~~ w.handlerMask)
  !w.retired && !r.isEmpty && r.all (fun l => p (w.thread l).wait)

def Wait.atBar (b : Nat) : Wait → Bool | .bar k _ => k == b | _ => false
def Wait.atBarg (n : Nat) : Wait → Bool | .barg k => k == n | _ => false

/-- A wave that has arrived stays arrived: the arrivals of a team (R380, R381). -/
def noteArrivals (s : State) (w : Wave) : State :=
  s.mapTeam w.team (fun t =>
    let bars := t.bars.map (fun e =>
      if allWait w (Wait.atBar e.1) && !e.2.arr.contains w.num then (e.1, { e.2 with arr := e.2.arr ++ [w.num] }) else e)
    let g := (List.range 4).filter (fun n => allWait w (Wait.atBarg n) && !t.bargArrived.contains (n * 4096 + w.num))
    { t with bars := bars, bargArrived := t.bargArrived ++ g.map (· * 4096 + w.num) })

/-- Waves of a team that have not retired. -/
def liveWaves (s : State) (t : Team) : List Wave := s.waves.filter (fun w => w.team == t.uid && !w.retired)

/-- The arrivals complete a barrier. -/
def barFull (s : State) (t : Team) (b : Nat) : Bool :=
  let x := fget Bar.idle t.bars b
  x.isOpen && (if x.c = 0 then (liveWaves s t).all (fun w => x.arr.contains w.num) else x.c ≤ x.arr.length)

/-- A release at a scope is done: earlier reads are performed, and earlier stores have left the queue, or
are performed for the device (R151, R153). -/
def releasedAt (s : State) (w : Wave) (wide : Bool) : Bool :=
  w.sq.isEmpty && readsDone s w s.nextId (fun _ => true) &&
    (!wide || !(s.core w.core).outs.any (fun e => e.wave == w.uid && !e.open_.isEmpty))

/-- All waiting threads of some waves resume. -/
def releaseWaits (s : State) (us : List Nat) (p : Wait → Bool) : State :=
  us.foldl (fun s u =>
    match s.wave? u with
    | none => s
    | some w => ((lanesOf w.running).filter (fun l => p (w.thread l).wait)).foldl (fun s l => resumeNext s u l) s) s

/-- BARRIER_COMPLETE: a release and an acquire at team scope; every waiting thread resumes. -/
def barrierComplete (team b : Nat) (s : State) : State :=
  match s.team? team with
  | none => s
  | some t =>
    let x := fget Bar.idle t.bars b
    let ws := liveWaves s t
    let arrived := ws.filter (fun w => x.arr.contains w.num)
    if !barFull s t b || !arrived.all (fun w => releasedAt s w t.saddle) then s
    else
      let s := if t.saddle then arrived.foldl (fun s w => acquireNow s w.uid) s else s
      let s := releaseWaits s (ws.map (·.uid)) (Wait.atBar b)
      s.mapTeam team (fun t => { t with bars := fset Bar.idle t.bars b Bar.idle })

/-- The resident teams of a gang (R75). -/
def gangOf (s : State) (t : Team) : List Team :=
  s.teams.filter (fun p => p.lq == t.lq && p.lk == t.lk && p.n + t.gang == t.n + p.gang)

def bargArrived (s : State) (t : Team) (n : Nat) : Bool :=
  (liveWaves s t).all (fun w => t.bargArrived.contains (n * 4096 + w.num))

/-- GANG_BARRIER_COMPLETE: at device scope, for every team of the gang. -/
def gangBarrierComplete (team n : Nat) (s : State) : State :=
  match s.team? team with
  | none => s
  | some t =>
    let ts := gangOf s t
    let ws := (ts.map (liveWaves s)).flatten
    if n ≥ 4 || ws.isEmpty || !ts.all (bargArrived s · n) || !ws.all (releasedAt s · true) then s
    else
      let s := ws.foldl (fun s w => acquireNow s w.uid) s
      let s := releaseWaits s (ws.map (·.uid)) (Wait.atBarg n)
      ts.foldl (fun s t => s.mapTeam t.uid (fun t => { t with bargArrived := t.bargArrived.filter (fun k => k / 4096 != n) })) s

/-! ## FETCHW (R382) -/

def fetchwBody (o : Nat) (s : State) (c : Ctx) : Res :=
  match s.team? c.rd.team with
  | none => { st := s }
  | some t =>
    if o % 16 ≠ 0 then { st := s, traps := allLanes c .align o }
    else if o + 16 > t.spTotal then { st := s, traps := allLanes c .bounds o }
    else { st := s.mapTeam t.uid (fun t => { t with fetchw := t.fetchw ++ [(o, c.u, s.nextId)] }) }

def semFetchwImm (f : Full) : Sem :=
  { Sem.plain f with
    forbid := fun _ => true, legal := declares (·.pers), body := fetchwBody f.imm16.toNat }
def semFetchwReg (f : Full) : Sem :=
  { Sem.plain f with
    ops := fun s w l => [opWave f (opA f · .n32) s w l], forbid := fun _ => true, legal := declares (·.pers)
    body := fun s c => fetchwBody ((c.rd.thread (c.lanes.headD 0)).reg f.an).toNat s c }

def execWaitcReg (f : Full) (s : State) : Out := execX (semWaitcReg f) s
def execWaitcImm (f : Full) (s : State) : Out := execX (semWaitcImm f) s
def execWaitqReg (f : Full) (s : State) : Out := execX (semWaitqReg f) s
def execWaitqImm (f : Full) (s : State) : Out := execX (semWaitqImm f) s
def execWaitlReg (f : Full) (s : State) : Out := execX (semWaitlReg f) s
def execWaitlImm (f : Full) (s : State) : Out := execX (semWaitlImm f) s
def execWaitm (f : Full) (s : State) : Out := execX (semWaitm f) s
def execElect (f : Full) (s : State) : Out := execX (semElect f) s
def execBarImm (f : Full) (s : State) : Out := execX (semBarImm f) s
def execBarReg (f : Full) (s : State) : Out := execX (semBarReg f) s
def execBarg (f : Full) (s : State) : Out := execX (semBarg f) s
def execFetchwImm (f : Full) (s : State) : Out := execX (semFetchwImm f) s
def execFetchwReg (f : Full) (s : State) : Out := execX (semFetchwReg f) s
def execCtail (f : Full) (s : State) : Out := execX (semCtail f) s
def execCseq (f : Full) (s : State) : Out := execX (semCseq f) s
def execWaitConditionMet (wave : Nat) (s : State) : Out := finish (waitConditionMet wave s)
def execBarrierComplete (team b : Nat) (s : State) : Out := finish (barrierComplete team b s)
def execGangBarrierComplete (team n : Nat) (s : State) : Out := finish (gangBarrierComplete team n s)

end Sys2Proof.Machine
end

