-- ==== Sys2Proof/Machine/Matrix.lean ====
section
/-!
DEFINITION. The matrix units: reservation (R396 to R398), the parameter block and its checks (R399 to
R402), MXGO (R403), an operation's computation and completion (R404, R405), B-shares (R407 to R409),
MXPROM, MXSTAT, suspension and resumption (R410 to R412).
-/
namespace Sys2Proof.Machine

/-! ## The parameter block (R399) -/

abbrev MxBlock := BitVec 1024

def mbn (b : BitVec 128) (lo n : Nat) : Nat := (b.extractLsb' lo n).toNat
def mbM (b : BitVec 128) : Nat := mbn b 0 6 + 1
def mbN (b : BitVec 128) : Nat := mbn b 6 6 + 1
def mbK (b : BitVec 128) : Nat := mbn b 12 10 + 1
/-- The number of k-blocks. -/
def mbNb (b : BitVec 128) : Nat := ceilDiv (mbK b) 16
def mbFA (b : BitVec 128) : Option Ety := Ety.ofCode (b.extractLsb' 24 4)
def mbFB (b : BitVec 128) : Option Ety := Ety.ofCode (b.extractLsb' 28 4)
def mbA (b : BitVec 128) : Ety := (mbFA b).getD .bits
def mbB (b : BitVec 128) : Ety := (mbFB b).getD .bits
def mbP (b : BitVec 128) : Nat := mbn b 32 6 + 1
def mbTra (b : BitVec 128) : Bool := b.getLsbD 40
def mbTrb (b : BitVec 128) : Bool := b.getLsbD 41
def mbCja (b : BitVec 128) : Bool := b.getLsbD 42
def mbCjb (b : BitVec 128) : Bool := b.getLsbD 43
def mbZi (b : BitVec 128) : Bool := b.getLsbD 44
def mbPr (b : BitVec 128) : Bool := b.getLsbD 45
def mbScl (b : BitVec 128) : Bool := b.getLsbD 46
def mbBsh (b : BitVec 128) : Bool := b.getLsbD 47
def mbAcq (b : BitVec 128) : Bool := b.getLsbD 48
def mbRel (b : BitVec 128) : Bool := b.getLsbD 49
def mbScope (b : BitVec 128) : Nat := mbn b 50 3
def mbBsid (b : BitVec 128) : Nat := mbn b 56 4
def mbTA (b : BitVec 128) : Nat := mbn b 64 8
def mbTB (b : BitVec 128) : Nat := mbn b 72 8
def mbTSA (b : BitVec 128) : Nat := mbn b 80 8
def mbTSB (b : BitVec 128) : Nat := mbn b 88 8
def mbBrb (b : BitVec 128) : BitVec 11 := b.extractLsb' 104 11
def mbPrb (b : BitVec 128) : BitVec 11 := b.extractLsb' 115 11

/-- The accumulator format of a pair of R400. -/
def mxPair : Ety → Ety → Option Ety
  | .e4m3, .e4m3 | .e4m3, .e5m2 | .e5m2, .e4m3 | .e5m2, .e5m2 | .ts8, .s8 | .s8, .s8 => some .f32
  | .bf16, .bf16 | .f16, .f16 | .f32, .f32 => some .f32
  | .f64, .f64 => some .f64
  | .c64, .c64 => some .c64
  | _, _ => none

/-- Formats whose accumulation is narrow (R400). -/
def mxNarrow (t : Ety) : Bool := t == .e4m3 || t == .e5m2 || t == .ts8 || t == .s8

def mbAcc (b : BitVec 128) : Option Ety :=
  match mbFA b, mbFB b with
  | some x, some y => mxPair x y
  | _, _ => none

/-- Registers of a thread's quarter (R407). -/
def mbQuarter (b : BitVec 128) : Nat := mbK b / 4 / (mbB b).elems * (mbB b).regs
/-- Registers of a thread's promotion (R405). -/
def mbProm (b : BitVec 128) (acc : Ety) : Nat := mbN b * acc.regs

/-- What lost pool bytes read as: a matrix instruction raises no deferred cause (R395), and the value that the spec
leaves open is free (log entry 86). -/
def lostAt (s : State) (core : Nat) (ad : List Nat) (role : Nat) : List (Nat × Byte) :=
  if s.poison.isEmpty then []
  else
    let cells := coreCells s core
    (ad.zipIdx.filter (fun p => anyPoison s [p.1] && (lastCell cells p.1).isNone)).map
      (fun p => (p.1, (Config.freeValue (s.free + role * 2 ^ 17 + p.2)).extractLsb' 0 8))
def lostCells (s : State) (core : Nat) (t : Team) (e : DWord) (role : Nat) : List (Nat × Byte) :=
  lostAt s core (tAddrs t e 0 (tSize e)) role

/-- The free values of a read of lost bytes have been drawn. -/
def drawLost (s : State) (core : Nat) (ad : List Nat) : State :=
  if (lostAt s core ad 0).isEmpty then s else { s with free := s.free + 2 ^ 17 }

/-- The bytes of the block at an offset of the team's scratchpad share. -/
def mxBlockBytes (t : Team) (o : Nat) : List Nat := (List.range 128).map (fun k => t.spAddr (o + k))

/-- The block there, as the core reads it. -/
def mxBlockAt (s : State) (core : Nat) (t : Team) (o : Nat) : MxBlock :=
  let ad := mxBlockBytes t o
  BitVec.ofNat 1024 (leNat (layOver (lostAt s core ad 0) ad (coreBytes s core ad)))

/-- The block lies in the part of the share on this core. -/
def mxInPart (t : Team) (core o : Nat) : Bool :=
  let lo := if t.saddle then (core - t.core) * t.spSize else 0
  lo ≤ o && o + 128 ≤ lo + t.spSize

/-! ## The checks of R401 and R402 -/

/-- The members of the rendezvous that a key has open on a core (R407). -/
def mxOpenMembers (s : State) (core team bsid : Nat) : List MxOp :=
  ((List.range 4).map (fun q => (s.quad (core * 4 + q)).mx.ops.filter (fun o =>
    o.team == team && mbBsh o.pb && !o.formed && mbBsid o.pb == bsid))).flatten

/-- Check 7 of R402. -/
def mxClash (b : BitVec 128) (quad : Nat) (o : MxOp) : Bool :=
  mbK o.pb != mbK b || mbN o.pb != mbN b || mbB o.pb != mbB b || mbCjb o.pb != mbCjb b || o.quad == quad

/-- The number of the first block check that fails (R402). -/
def mxBlockFail (s : State) (w : Wave) (x : MxBlock) : Option Nat :=
  let b := x.extractLsb' 0 128
  let bsh := mbBsh b
  if x.extractLsb' 128 896 != 0 || mbn b 126 2 != 0 || mbn b 60 4 != 0 || mbn b 53 3 != 0 || mbn b 38 2 != 0 ||
      mbn b 22 2 != 0 || (!mbPr b && mbPrb b != 0) || (!bsh && (mbBrb b != 0 || mbBsid b != 0)) ||
      (bsh && mbTB b != 0) || (!mbScl b && (mbTSA b != 0 || mbTSB b != 0)) then some 1
  else
    match mbAcc b with
    | none => some 2
    | some acc =>
      if (!mxNarrow (mbA b) && (mbP b != 1 || mbScl b)) || (mbA b != .c64 && (mbCja b || mbCjb b)) then some 3
      else if mbScope b = 7 then some 4
      else if bsh && (mbTrb b || mbN b > w.width || mbK b % (4 * (mbB b).elems) != 0 ||
          !(Cls.ofEty (mbB b)).ok (mbBrb b)) then some 5
      else if mbPr b && (mbM b > w.width || !(Cls.ofEty acc).ok (mbPrb b)) then some 6
      else if bsh && (mxOpenMembers s w.core w.team (mbBsid b)).any (mxClash b w.quad) then some 7
      else none

/-- A tile that a block names: number, format, least rows and columns, and whether its tag is checked. -/
structure MxTile where
  no   : Nat
  fmt  : Ety
  rows : Nat
  cols : Nat
  acc  : Bool
  tag  : Bool
deriving DecidableEq, Repr

/-- The tiles of a block in the order A, B, scale A, scale B, accumulator (R401, R402). -/
def mxTiles (b : BitVec 128) (acc : Ety) : List MxTile :=
  let m := mbM b; let n := mbN b; let k := mbK b
  [⟨mbTA b, mbA b, if mbTra b then k else m, if mbTra b then m else k, false, true⟩] ++
  (if mbBsh b then [] else [⟨mbTB b, mbB b, if mbTrb b then n else k, if mbTrb b then k else n, false, true⟩]) ++
  (if mbScl b then [⟨mbTSA b, .s8, m, mbNb b, false, true⟩, ⟨mbTSB b, .s8, mbNb b, n, false, true⟩] else []) ++
  [⟨mxAcc b, acc, m, n, true, !mbZi b⟩]

/-- Every byte of the tile lies on the core (R401). -/
def tileOnCore (t : Team) (core : Nat) (e : DWord) : Bool :=
  let part := if tAcc e then t.asSize else t.spSize
  !t.saddle || (tBase e / part == core - t.core && (tBase e + tSize e - 1) / part == core - t.core)

/-- Two tiles share a byte. -/
def tilesMeet (a b : DWord) : Bool :=
  tAcc a == tAcc b && tBase a < tBase b + tSize b && tBase b < tBase a + tSize a

/-- The requirements of R126 and R401 on one tile; the elements read in a tile of tag BITS lie in it (log entry 20). -/
def mxTileOk (s : State) (w : Wave) (t : Team) (ts : List MxTile) (x : MxTile) : Bool :=
  match namedTile s w x.no false with
  | none => false
  | some e =>
    tileOnCore t w.core e && x.rows ≤ tH e && x.cols ≤ tW e &&
    (tFmt e != .bits || ((x.rows - 1) * tW e + x.cols) * x.fmt.esize ≤ (if tCmp e then tLen e else tSize e)) &&
    (!x.acc || (tAcc e && !tCmp e && ts.all (fun y => y.acc ||
      (y.no != x.no && !tilesMeet (s.tileEnt t w.core y.no) e))))

/-- A failed check of R402. -/
inductive MxFail where
  | block (n : Nat)
  | tile (i : Nat)
  | bound (r : Nat)
  | soft (r : Nat)
  | format (tv : DWord)
deriving DecidableEq, Repr

/-- The registers from r up that lie outside the allocation: the lowest. -/
def mxOutside (w : Wave) (r n : Nat) : Option Nat := if r + n > w.top then some (max r w.top) else none

/-- The registers of the quarter and of the promotion, with the threads whose they are. -/
def mxQuarterRegs (b : BitVec 128) : List (Nat × Nat) :=
  if mbBsh b then ((List.range (mbN b)).map (fun j => (rangeFrom (mbBrb b).toNat (mbQuarter b)).map (fun r => (j, r)))).flatten else []
def mxPromRegs (b : BitVec 128) (acc : Ety) : List (Nat × Nat) :=
  if mbPr b then ((List.range (mbM b)).map (fun i => (rangeFrom (mbPrb b).toNat (mbProm b acc)).map (fun r => (i, r)))).flatten else []

/-- FORMAT of the quarter's registers, then of the tiles (R402). -/
def mxFormat (s : State) (w : Wave) (t : Team) (b : BitVec 128) (acc : Ety) : Option DWord :=
  let quarter := if mbBsh b then
      (rangeFrom (mbBrb b).toNat (mbQuarter b)).findSome? (fun r =>
        if tagOk (mbB b) (w.tag r) then none else some (formatTval (mbB b) (w.tag r) 4 r))
    else none
  match quarter with
  | some v => some v
  | none => (mxTiles b acc).findSome? (fun x =>
      let e := s.tileEnt t w.core x.no
      if !x.tag || tagOk x.fmt (tFmt e) then none else some (formatTval x.fmt (tFmt e) 3 x.no))

/-- What the checks of R402 find, in their order; `regs` is the wave whose registers are read. -/
def mxCheck (s : State) (w : Wave) (t : Team) (x : MxBlock) : Option MxFail :=
  let b := x.extractLsb' 0 128
  match mxBlockFail s w x, mbAcc b with
  | some n, _ => some (.block n)
  | none, none => some (.block 2)
  | none, some acc =>
    let ts := mxTiles b acc
    match ts.find? (fun x => !mxTileOk s w t ts x) with
    | some x => some (.tile x.no)
    | none =>
      match (if mbBsh b then mxOutside w (mbBrb b).toNat (mbQuarter b) else none),
            (if mbPr b then mxOutside w (mbPrb b).toNat (mbProm b acc) else none) with
      | some r, some q => some (.bound (min r q))
      | some r, none | none, some r => some (.bound r)
      | none, none =>
        match ((mxQuarterRegs b).filter (fun p => w.softAt p.1 p.2)).map (·.2) with
        | r :: rs => some (.soft (rs.foldl min r))
        | [] => (mxFormat s w t b acc).map .format

/-! ## Placing an operation (R403 step 6, R412) -/

/-- Is the unit reserved by a team. -/
def MxUnit.heldBy (u : MxUnit) (team : Nat) : Bool := match u.holder with | some h => h.1 == team | none => false

/-- The operation at the unit's head: a resumed one waits aside until its team holds the unit (R398). -/
def MxUnit.head (u : MxUnit) : Option MxOp := u.ops.find? (fun o => !o.again || u.heldBy o.team)

/-- The queue with an operation: a resumed one stands ahead of new ones (R412). -/
def mxInsert (ops : List MxOp) (o : MxOp) : List MxOp :=
  if o.again then
    let old (x : MxOp) : Bool := x.again || x.result.isSome
    ops.filter old ++ [o] ++ ops.filter (fun x => !old x)
  else ops ++ [o]

/-- The rendezvous forms with its fourth member (R408). -/
def mxForm (s : State) (core team bsid : Nat) : State :=
  let ms := mxOpenMembers s core team bsid
  if ms.length < 4 then s
  else
    (List.range 4).foldl (fun s q => s.mapQuad (core * 4 + q) (fun k =>
      { k with mx := { k.mx with ops := k.mx.ops.map (fun o =>
          if ms.any (·.id == o.id) then { o with formed := true } else o) } })) s

/-- Place an operation in its unit's queue: MXQ rises, the quarter is read, the promotion destinations
are emptied; a new operation sets the accumulator FILLING and raises the reader counts. -/
def mxPlace (s : State) (w : Wave) (t : Team) (pc : Word) (off kb0 : Nat) (again : Bool) (b : BitVec 128) (acc : Ety) :
    State :=
  let (id, s) := s.newId
  let (fid, s) := s.newId
  let n := mbProm b acc
  let lanes := if mbPr b then List.range (mbM b) else []
  let s := if lanes.isEmpty then s
    else s.mapWave w.uid (fun w =>
      let w := lanes.foldl (fun w l => w.mapThread l (fun t => t.setEmpty (mbPrb b).toNat fid n)) w
      { w with flights := w.flights ++ [{ Flight.start fid pc acc with
          jobs := lanes.map (fun l => Job.read l (mbPrb b).toNat n acc .await 0 0) }] })
  let quarter := if mbBsh b then
      (List.range (mbN b)).map (fun j => (w.thread j).regs (mbBrb b).toNat (mbQuarter b)) else []
  let o : MxOp := { id := id, wave := w.uid, team := w.team, core := w.core, quad := w.quad, off := off, kb0 := kb0,
                    again := again, pb := b, quarter := quarter,
                    flight := if lanes.isEmpty then none else some fid, formed := false, result := none }
  let s := s.mapWave w.uid (·.raise 4)
  let s := s.mapQuad w.qn (fun q => { q with mx := { q.mx with ops := mxInsert q.mx.ops o } })
  let s := if again then s
    else ((mxSources b).foldl (fun s i => s.addReaders t i true) s).setTile t (mxAcc b) (fun e => setTileState e 1)
  if mbBsh b then mxForm s w.core w.team (mbBsid b) else s

/-! ## MXGO (R403) -/

/-- What MXGO does next. -/
inductive MxPlan where
  | trap (all : Bool) (c : Cause) (tv : Nat)
  /-- ILLEGAL with the word -/
  | unheld
  | fmt (tv : DWord)
  /-- waits without a swap trigger -/
  | hold
  | wait (x : Wait)
  | go (off : Nat) (b : BitVec 128) (acc : Ety)
  | idle
deriving DecidableEq, Repr

/-- Registers among these that are empty. -/
def emptyOf (w : Wave) (rs : List (Nat × Nat)) : List (Nat × Nat) := rs.filter (fun p => (w.thread p.1).empty p.2)

/-- The wait for registers (R58, R69): memory producers make it a swap trigger. -/
def mxRegWait (w : Wave) (rs : List (Nat × Nat)) : Option MxPlan :=
  let e := emptyOf w rs
  if e.isEmpty then none
  else if e.all (fun p => w.memProducer p.1 p.2) then some (.wait (.regs e)) else some .hold

/-- Step 4: a tile that is not READY, or readers of the accumulator. -/
def mxTileWait (s : State) (w : Wave) (t : Team) (b : BitVec 128) (acc : Ety) : Option Wait :=
  match (mxTiles b acc).find? (fun x => tileState (s.tileEnt t w.core x.no) != 2) with
  | some x => some (.tile x.no)
  | none => if s.tileReaders t (mxAcc b) != 0 then some (.tile (256 + mxAcc b)) else none

/-- Scratchpad stores, atomics and remote adds of the wave have left the order point (R156). -/
def mxStoresOut (s : State) (w : Wave) (t : Team) (o : Nat) : Bool :=
  let cur := (s.wave? w.uid).getD w
  cur.sq.any (fun e => e.parts.any (fun p => p.path == 2 || p.path == 3)) ||
    coreBusy s w.core (mxBlockBytes t o)

/-- The steps of R403 for a wave whose Active threads are `a`. A compressed source that its read port refuses raises
TILE in the issuing threads (R131, R401, log entry 70). -/
def mxPlan (f : Full) (s : State) (w : Wave) (a : Mask) : MxPlan :=
  if a == 0 || w.members &&& a != 0 then .idle
  else
    match s.team? w.team with
    | none => .idle
    | some t =>
      let o := if f.imm? then f.imm16.toNat * 128 else ((w.thread ((lowest a).getD 0)).reg f.an).toNat
      if o % 128 ≠ 0 then .trap false .align o
      else if !mxInPart t w.core o then .trap false .bounds o
      else if !(s.quad w.qn).mx.heldBy w.team then .unheld
      else if mxStoresOut s w t o then .hold
      else
        let x := mxBlockAt s w.core t o
        let b := x.extractLsb' 0 128
        let acc := (mbAcc b).getD .f32
        let late (p : MxPlan) : MxPlan :=
          match mxRegWait w (mxQuarterRegs b ++ mxPromRegs b acc) with
          | some y => y
          | none => p
        match mxCheck s w t x with
        | some (.block n) => .trap true .illegal (n * 2 ^ 32 + o)
        | some (.tile i) => .trap false .tile i
        | some (.bound r) => .trap false .regbound r
        | some (.soft r) => late (.trap false .soft r)
        | some (.format v) => late (.fmt v)
        | none =>
          late (match mxTileWait s w t b acc with
            | some y => .wait y
            | none =>
              match (mxTiles b acc).find? (fun x => (tileImage s w.core t (s.tileEnt t w.core x.no)).isNone) with
              | some x => .trap false .tile x.no
              | none => if (s.quad w.qn).mx.ops.length ≥ 16 then .hold else .go o b acc)

/-- Va raises nothing and waits for nothing in these lanes. -/
def vaClean (os : Wave → Nat → List Opnd) (w : Wave) (a : Mask) : Bool :=
  (lanesOf a).all (fun l => (operandTrap w l (os w l)).isNone && (waitsFor w (os w l)).isEmpty &&
    (os w l).all (fun o => (o.format w).isNone))

/-- What MXGO does next, once Va is clean (R403). -/
def mxStage (f : Full) (ops : State → Wave → Nat → List Opnd) (s : State) (w : Wave) (a : Mask) : MxPlan :=
  if vaClean (ops s) w a then mxPlan f s w a else .idle

def mxgoBody (f : Full) (ops : State → Wave → Nat → List Opnd) (s : State) (c : Ctx) : Res :=
  match mxStage f ops s c.rd c.act, c.team with
  | .trap all k tv, _ =>
    { st := s, traps := (lanesOf (if all then c.grp else c.act)).map (fun l => ⟨l, k, BitVec.ofNat 64 tv, 0⟩) }
  | .unheld, _ => { st := s, traps := (lanesOf c.grp).map (fun l => ⟨l, .illegal, c.iss.word, 0⟩) }
  | .fmt v, _ => { st := s, traps := (lanesOf c.grp).map (fun l => ⟨l, .format, v, 0⟩) }
  | .hold, _ => { st := s, stay := c.act }
  | .wait x, _ => { st := c.lanes.foldl (fun s l => startWait s c.u l x) s, stay := c.act }
  | .go o b acc, some t => { st := mxPlace (drawLost s c.rd.core (mxBlockBytes t o)) c.rd t c.pc o 0 false b acc }
  | _, _ => { st := s }

/-- No thread of the issue group can go on: all of them are Active in MXGOs that steps 3 and 5 hold. The other threads of
a wave are not held at any step (R403). -/
def mxAllHeld (f : Full) (ops : State → Wave → Nat → List Opnd) (s : State) : Bool :=
  match s.cur with
  | none => true
  | some i => (shares s i).all (fun p =>
      (lanesOf p.grp).all (fun l => f.grd.holds (p.rd.thread l)) && mxStage f ops s p.rd p.grp == .hold)

/-- MXGO with these operands. -/
def semMxgo (f : Full) (ops : State → Wave → Nat → List Opnd) : Sem :=
  { Sem.plain f with
    ops := ops
    legal := declares (·.umx), forbid := fun _ => true
    hold := fun s w a => mxStage f ops s w a == .hold && mxAllHeld f ops s
    tile := fun s w a => match mxStage f ops s w a with | .wait x => some x | _ => none
    fmt := fun s w a => match mxStage f ops s w a with | .fmt v => some v | _ => none
    body := mxgoBody f ops }

def semMxgoImm (f : Full) : Sem := semMxgo f (fun _ _ _ => [])
def semMxgoReg (f : Full) : Sem := semMxgo f (fun s w l => [opWave f (opA f · .n32) s w l])

/-! ## MXRSV, MXREL, MXSTAT (R396, R397, R411) -/

def mxrsvBody (f : Full) (s : State) (c : Ctx) : Res :=
  let u := (s.quad c.qn).mx
  let s := if u.holder.isSome then s
    else s.mapQuad c.qn (fun q => { q with mx := { q.mx with holder := some (c.rd.team, c.rd.num) } })
  let own := (s.quad c.qn).mx.heldBy c.rd.team
  { st := s.mapWave c.u (fun w => w.mapLanes c.act (fun _ t => t.setPred f.dn own)) }

def semMxrsv (f : Full) : Sem := { Sem.plain f with body := mxrsvBody f }

/-- The wait of R397. -/
def mxrelWaits (s : State) (w : Wave) (a : Mask) : Bool :=
  let u := (s.quad w.qn).mx
  a != 0 && u.heldBy w.team && u.ops.any (·.team == w.team)

def mxrelBody (s : State) (c : Ctx) : Res :=
  if (s.quad c.qn).mx.heldBy c.rd.team then
    { st := s.mapQuad c.qn (fun q => { q with mx := { q.mx with holder := none } }) }
  else { st := s }

def semMxrel (f : Full) : Sem := { Sem.plain f with hold := mxrelWaits, body := mxrelBody }

/-- The status word (R411). -/
def mxStatus (s : State) (w : Wave) : Nat :=
  let u := (s.quad w.qn).mx
  let rdv := match u.head with | some o => mbBsh o.pb && o.result.isNone | none => false
  let bit (b : Bool) (k : Nat) : Nat := if b then 2 ^ k else 0
  (u.ops.filter (·.wave == w.uid)).length * 2 ^ 16 + u.ops.length * 2 ^ 8 + bit rdv 3 +
    bit (u.holder.isSome && !u.heldBy w.team) 2 + bit (u.heldBy w.team) 1 + bit (u.ops.any (·.result.isSome)) 0

def semMxstat (f : Full) : Sem :=
  { Sem.plain f with
    ops := fun _ _ l => [.dst l f.dn 1]
    body := fun s c =>
      let v := mxStatus s c.rd
      lanewise (fun _ _ _ => .val f.dn .n32 v) s c }

/-! ## MXPROM (R410) -/

/-- The byte offset of the first element, where the row of elements lies in the tile. -/
def promOff (f : Full) (e : DWord) (n : Nat) (t : Thread) : Option Nat :=
  let v := (t.reg f.bn).toNat
  let r := v % 2 ^ 16
  let k := v / 2 ^ 16
  if r ≥ tH e ∨ k + n > tW e then none else some ((r * tW e + k) * f.ety.esize)

def promCount (f : Full) : Nat := f.md.toNat % 64 + 1

def mxpromBody (f : Full) (s : State) (c : Ctx) : Res :=
  let i := f.an % 256
  let n := promCount f
  match namedTile s c.rd i false, c.team with
  | some e, some t =>
    match tileImageWith s c.rd.core t e (lostCells s c.rd.core t e 0) with
    | none => { st := s, traps := tileTraps c i }
    | some img =>
      let s := drawLost s c.rd.core (tAddrs t e 0 (tSize e))
      let offs := c.lanes.map (fun l => (l, promOff f e n (c.rd.thread l)))
      let ts := (offs.filter (·.2.isNone)).map (fun p => ⟨p.1, .tile, BitVec.ofNat 64 i, 0⟩)
      let good := offs.filterMap (fun p => p.2.map (fun o => (p.1, o)))
      if good.isEmpty then { st := s, traps := ts }
      else
        let (id, s1) := s.newId
        let jobs := good.map (fun p =>
          Job.known p.1 f.dn f.ety (natWords (n * f.ety.regs) (leNat ((img.drop p.2).take (n * f.ety.esize)))) 0)
        let (s1, room) := startFlight s1 c { Flight.start id c.pc f.ety with jobs := jobs }
        if !room then { st := s1, traps := ts, abort := fullAbort c 4 }
        else { st := countReader s s1 c t i, traps := ts }
  | _, _ => { st := s, traps := tileTraps c i }

def semMxprom (f : Full) : Sem :=
  let i := f.an % 256
  { Sem.plain f with
    ops := fun _ _ l => [.dst l f.dn (promCount f * f.ety.regs), opIdx f l]
    tile := tileWait i false false, fmt := tileFormat i f.ety, hold := tileBusy i, body := mxpromBody f }

/-! ## The computation (R404) -/

/-- The narrow accumulation of R100 from k-block kb on. -/
def narrowFrom (fa fb : Ety) (p nb k : Nat) (a b : Nat → Nat) (sa sb : Nat → Int) :
    Nat → Nat → A24 → Nat → Nat → FFlags → Nat × FFlags
  | 0, _, _, _, acc, fl => (acc, fl)
  | n + 1, kb, x, c, acc, fl =>
    if kb ≥ nb then (acc, fl)
    else
      let ks := (rangeFrom (16 * kb) 16).filter (· < k)
      let (t, f1) := blockSum fa fb (ks.map (fun k => (a k, b k))) (sa kb) (sb kb)
      let (x, o) := A24.add x t
      let fl := fl ||| f1 ||| (if o then fOF else 0)
      if c + 1 = p ∨ kb + 1 = nb then
        let (acc, f2) := fDot .f32 .plain [] [Fmt.f32.value acc, x.toVal]
        narrowFrom fa fb p nb k a b sa sb n (kb + 1) (.num false 0 0) 0 acc (fl ||| f2)
      else narrowFrom fa fb p nb k a b sa sb n (kb + 1) x (c + 1) acc fl

/-- One element of the result, from k-block kb0 up to k-block nb (R101, R404). -/
def mxElem (pb : BitVec 128) (kb0 nb : Nat) (a b : Nat → Nat) (sa sb : Nat → Int) (acc : Nat) : Nat × FFlags :=
  let k := min (mbK pb) (16 * nb)
  let fa := mbA pb
  let f := Fmt.of fa
  if mxNarrow fa then narrowFrom fa (mbB pb) (mbP pb) nb k a b sa sb nb kb0 (.num false 0 0) 0 acc 0
  else if fa == .bf16 || fa == .f16 then
    (rangeFrom kb0 (nb - kb0)).foldl (fun r kb =>
      let ks := (rangeFrom (16 * kb) 16).filter (· < k)
      let (v, g) := fDot .f32 .plain (ks.map (fun k => (f.value (a k), f.value (b k)))) [Fmt.f32.value r.1]
      (v, r.2 ||| g)) (acc, 0)
  else if fa == .c64 then
    let (v, g) := (rangeFrom (16 * kb0) (k - 16 * kb0)).foldl (fun (r : (Nat × Nat) × FFlags) k =>
      let (v, g) := cFma .plain (conjIf (mbCja pb) (c64Of (a k))) (conjIf (mbCjb pb) (c64Of (b k))) r.1
      (v, r.2 ||| g)) (c64Of acc, 0)
    (c64Join v, g)
  else
    (rangeFrom (16 * kb0) (k - 16 * kb0)).foldl (fun r k =>
      let (v, g) := fFma f .plain false (a k) (b k) r.1
      (v, r.2 ||| g)) (acc, 0)

/-- The image of a tile that the unit reads; a compressed image that no read port takes gives free bytes
(log entry 2). -/
def mxImage (s : State) (core : Nat) (t : Team) (e : DWord) (role : Nat) : List Byte :=
  (tileImageWith s core t e (lostCells s core t e role)).getD
    ((List.range (tLen e)).map (fun k => (Config.freeValue (s.free + role * 2 ^ 17 + k)).extractLsb' 0 8))

/-- Element (r, c) of a tile's image. -/
def mxAt (img : List Byte) (e : DWord) (es r c : Nat) : Nat :=
  leNat ((img.drop ((r * tW e + c) * es)).take es)

/-- Element b(k, j) of a quarter (R407). -/
def quarterAt (t : Ety) (q : List (List Word)) (kk j : Nat) : Nat :=
  let ws := ((q.getD j []).drop (kk / t.elems * t.regs)).take t.regs
  (elemsOf t (wordsNat ws)).getD (kk % t.elems) 0

/-- b(k, j) from the four quarters of a rendezvous (R407). -/
def shareAt (t : Ety) (kAll : Nat) (quarters : List (List (List Word))) (k j : Nat) : Nat :=
  let h := kAll / 4
  quarterAt t (quarters.getD (k / h) []) (k % h) j

/-- Compute an operation up to k-block `nb`: rows of accumulator elements with the flags of all. -/
def mxCompute (s : State) (t : Team) (o : MxOp) (nb : Nat) (quarters : List (List (List Word))) : List (List Nat) × FFlags :=
  let pb := o.pb
  let ent (i : Nat) : DWord := s.tileEnt t o.core i
  let ea := ent (mbTA pb); let eb := ent (mbTB pb)
  let esa := ent (mbTSA pb); let esb := ent (mbTSB pb); let ec := ent (mxAcc pb)
  let ia := mxImage s o.core t ea 0
  let ib := if mbBsh pb then [] else mxImage s o.core t eb 1
  let isa := if mbScl pb then mxImage s o.core t esa 2 else []
  let isb := if mbScl pb then mxImage s o.core t esb 3 else []
  let acc := (mbAcc pb).getD .f32
  let ic := tileBytes s o.core t ec (lostCells s o.core t ec 4) (tSize ec)
  let a (i k : Nat) : Nat := if mbTra pb then mxAt ia ea (mbA pb).esize k i else mxAt ia ea (mbA pb).esize i k
  let b (k j : Nat) : Nat :=
    if mbBsh pb then shareAt (mbB pb) (mbK pb) quarters k j
    else if mbTrb pb then mxAt ib eb (mbB pb).esize j k else mxAt ib eb (mbB pb).esize k j
  let sa (i kb : Nat) : Int := if mbScl pb then intOf .s8 (mxAt isa esa 1 i kb) else 0
  let sb (kb j : Nat) : Int := if mbScl pb then intOf .s8 (mxAt isb esb 1 kb j) else 0
  let rows := (List.range (mbM pb)).map (fun i => (List.range (mbN pb)).map (fun j =>
    mxElem pb o.kb0 nb (a i) (b · j) (sa i) (sb · j)
      (if mbZi pb && o.kb0 == 0 then 0 else mxAt ic ec acc.esize i j)))
  (rows.map (·.map (·.1)), (rows.flatten.foldl (fun g x => g ||| x.2) 0) &&& (fNV ||| fOF))

/-! ## MX_OP_START and MX_OP_COMPLETE (R404, R405) -/

/-- Free values have been drawn for lost bytes and for the images that no read port takes. -/
def mxDraw (s : State) (t : Team) (o : MxOp) : State :=
  let odd (x : MxTile) : Bool :=
    let e := s.tileEnt t o.core x.no
    !(lostCells s o.core t e 0).isEmpty || (tileImage s o.core t e).isNone
  if (mxTiles o.pb ((mbAcc o.pb).getD .f32)).any odd then { s with free := s.free + 5 * 2 ^ 17 } else s

/-- Stores and atomics past their order point stand before the operation (R142, R153, R156, R165): it reads its tiles
once no atomic waits there, and writes the accumulator once no store waits there. -/
def mxBehind (s : State) (o : MxOp) (write : Bool) : Bool :=
  match s.team? o.team with
  | none => false
  | some t =>
    let at_ (i : Nat) : List Nat := tAddrs t (s.tileEnt t o.core i) 0 (tSize (s.tileEnt t o.core i))
    let outs := teamOuts s t
    if write then outs.any (fun y => y.touches s (at_ (mxAcc o.pb)))
    else (mxTiles o.pb ((mbAcc o.pb).getD .f32)).any (fun x => outs.any (fun y => y.rmwAt s (at_ x.no)))

/-- An operation reads its sources and accumulator. -/
def mxRun (quarters : List (List (List Word))) (s : State) (o : MxOp) : State :=
  match s.team? o.team with
  | none => s
  | some t =>
    let s := if mbAcq o.pb then acquireAt s o.wave (mbScope o.pb) else s
    let r := mxCompute s t o (mbNb o.pb) quarters
    let s := mxDraw s t o
    s.mapQuad (o.core * 4 + o.quad) (fun q => { q with mx := { q.mx with ops := q.mx.ops.map (fun x =>
      if x.id = o.id then { x with result := some r } else x) } })

/-- MX_OP_START: the head of the queue runs; the members of a rendezvous run together (R408). -/
def mxStart (qn : Nat) (s : State) : State :=
  let core := qn / 4
  match (s.quad qn).mx.head with
  | none => s
  | some o =>
    if (s.quad qn).mx.ops.any (·.result.isSome) then s
    else if !mbBsh o.pb then (if mxBehind s o false then s else mxRun [] s o)
    else
      let heads := (List.range 4).filterMap (fun q =>
        (s.quad (core * 4 + q)).mx.head.filter (fun x =>
          x.formed && x.team == o.team && mbBsid x.pb == mbBsid o.pb &&
            !(s.quad (core * 4 + q)).mx.ops.any (·.result.isSome)))
      if !o.formed || heads.length < 4 || heads.any (mxBehind s · false) then s
      else heads.foldl (mxRun (heads.map (·.quarter))) s

/-- The release of R405 step 3 is done. -/
def mxReleased (s : State) (o : MxOp) : Bool :=
  !mbRel o.pb || unitReleased s o.wave o.id (mbScope o.pb)

/-- The rows of a result go into the accumulator; a write of the unit is a conflict to every wave that reads there,
the issuing one too (R365). -/
def mxStore (s : State) (t : Team) (o : MxOp) (rows : List (List Nat)) (acc : Ety) : State :=
  let e := s.tileEnt t o.core (mxAcc o.pb)
  rows.zipIdx.foldl (fun s p =>
    poolWrite s none (tAddrs t e (p.2 * tW e * acc.esize) (p.1.length * acc.esize))
      ((p.1.map (leBytes acc.esize)).flatten)) s

/-- MX_OP_COMPLETE. The reader counts of the sources fall (R405, log entry 35). -/
def mxComplete (qn : Nat) (s : State) : State :=
  match (s.quad qn).mx.ops.find? (·.result.isSome) with
  | none => s
  | some o =>
    match o.result, s.team? o.team with
    | some (rows, fl), some t =>
      if !mxReleased s o || mxBehind s o true then s
      else
        let acc := (mbAcc o.pb).getD .f32
        let s := mxStore s t o rows acc
        let s := (mxSources o.pb).foldl (fun s i => s.addReaders t i false) s
        let s := match o.flight with
          | none => s
          | some f => rows.zipIdx.foldl (fun s (p : List Nat × Nat) =>
              landJob s o.wave f p.2 (natWords (mbProm o.pb acc) (p.1.reverse.foldl (fun n v => v + 2 ^ (8 * acc.esize) * n) 0)) acc) s
        let s := s.setTile t (mxAcc o.pb) (fun e => setTileState (setFmt e acc) 2)
        let s := s.mapQuad qn (fun q => { q with mx := { q.mx with ops := q.mx.ops.filter (·.id != o.id) } })
        s.mapWave o.wave (fun w => (w.lower 4).orFlags fl)
    | _, _ => s

/-! ## Suspension and resumption (R398, R412) -/

/-- The word of MXS for an operation (R190). -/
def mxsWord (o : MxOp) : DWord := BitVec.ofNat 64 (2 ^ 63 + o.kb0 % 2 ^ 24 * 2 ^ 32 + o.off % 2 ^ 32)

/-- The running members of an operation's rendezvous, in quadrant order; an operation without a B-share is alone. -/
def mxMembers (s : State) (o : MxOp) : List MxOp :=
  if !mbBsh o.pb then [o]
  else (List.range 4).filterMap (fun q => (s.quad (o.core * 4 + q)).mx.ops.find? (fun x =>
    x.formed && x.result.isSome && x.team == o.team && mbBsh x.pb && mbBsid x.pb == mbBsid o.pb))

/-- A k-block before which an operation may stop: a promotion boundary of a narrow one, any boundary of another
(R192). -/
def mxBoundary (o : MxOp) (kb : Nat) : Bool :=
  o.kb0 < kb && kb < mbNb o.pb && (kb - o.kb0) % (if mxNarrow (mbA o.pb) then mbP o.pb else 1) == 0

/-- The k-blocks before which a running operation may stop. The members of a rendezvous stop at one k-block that is
a boundary of all four (R192, R409); one of which a member is complete has passed its last. -/
def mxStops (s : State) (o : MxOp) : List Nat :=
  let ms := mxMembers s o
  if o.result.isNone || (mbBsh o.pb && ms.length < 4) || ms.any (mxBehind s · true) then []
  else (List.range (mbNb o.pb)).filter (fun kb => ms.all (mxBoundary · kb))

/-- One member stops before k-block kb: the accumulator holds the partial results (R101, R412), and the flags of the
k-blocks performed are set then, the model's choice (R96, log entry 88). -/
def mxCutOne (quarters : List (List (List Word))) (kb : Nat) (s : State) (o : MxOp) : State :=
  match s.team? o.team with
  | none => s
  | some t =>
    let r := mxCompute s t o kb quarters
    let s := mxStore (mxDraw s t o) t o r.1 ((mbAcc o.pb).getD .f32)
    let s := s.mapQuad (o.core * 4 + o.quad) (fun q => { q with mx := { q.mx with ops := q.mx.ops.map (fun x =>
      if x.id = o.id then { x with kb0 := kb, result := none, formed := false } else x) } })
    s.mapWave o.wave (·.orFlags r.2)

/-- A running operation stops at one of its boundaries, with all members of its rendezvous (R409). -/
def mxCut (s : State) (o : MxOp) : State :=
  match (mxStops s o)[s.now % (mxStops s o).length]? with
  | none => s
  | some kb =>
    let ms := mxMembers s o
    ms.foldl (mxCutOne (ms.map (·.quarter)) kb) s

/-- Suspend the operations of a wave, in issue order: they leave the queue and MXQ, their promotion
destinations are full with the bits they held, MXS and %prog name them (R192, R412). -/
def mxSuspend (s : State) (u : Nat) : State :=
  match s.wave? u with
  | none => s
  | some w =>
    let ops := (s.quad w.qn).mx.ops.filter (·.wave == u)
    let fs := ops.filterMap (·.flight)
    let s := ops.foldl mxCut s
    let ops := ((s.quad w.qn).mx.ops.filter (·.wave == u)).map (fun o => { o with result := none })
    let s := s.mapQuad w.qn (fun q => { q with mx := { q.mx with ops := q.mx.ops.filter (·.wave != u) } })
    let s := s.mapTeam w.team (fun t => { t with mxops := t.mxops ++ ops })
    s.mapWave u (fun w =>
      let w := { w with
        cnt := { w.cnt with mxq := w.cnt.mxq - ops.length }
        flights := w.flights.filter (fun f => !fs.contains f.id)
        threads := w.threads.map (fun t => { t with pend := t.pend.filter (fun p => !fs.contains p.2) })
        mxs := ops.zipIdx.foldl (fun m p => fset 0 m p.2 (mxsWord p.1)) [] }
      match ops with
      | [] => w
      | o :: _ => if w.progKind == 1 then w else { w with prog := BitVec.ofNat 32 (2 * 2 ^ 30 + o.kb0 % 2 ^ 24) })

/-- Re-enter one suspended operation (R412). -/
def mxReenter (u : Nat) (s : State) (e : DWord) : State :=
  match s.wave? u with
  | none => s
  | some w =>
    match s.team? w.team with
    | none => s
    | some t =>
      let off := (e.extractLsb' 0 32).toNat
      let old := t.mxops.find? (fun o => o.off == off && o.quad == w.quad && o.core == w.core)
      let s := match old with
        | some o => s.mapTeam t.uid (fun t => { t with mxops := t.mxops.filter (·.id != o.id) })
        | none => s
      let x := mxBlockAt s w.core t off
      let b := x.extractLsb' 0 128
      match mbAcc b, (if off % 128 = 0 && mxInPart t w.core off then mxCheck s w t x else some (.block 1)) with
      | some acc, none => mxPlace s w t 0 off (e.extractLsb' 32 24).toNat true b acc
      | _, _ =>
        let s := match old with | some o => freeMxTiles s { o with result := none } | none => s
        s.mapWave u (·.orFlags fNV)

/-- Re-enter the operations that MXS lists, in entry order. -/
def mxResume (s : State) (u : Nat) : State :=
  match s.wave? u with
  | none => s
  | some w =>
    let es := (List.range 16).map (fget 0 w.mxs)
    let s := s.mapWave u (fun w => { w with mxs := [] })
    (es.filter (·.getLsbD 63)).foldl (mxReenter u) s

def execMxrsv (f : Full) (s : State) : Out := execX (semMxrsv f) s
def execMxrel (f : Full) (s : State) : Out := execX (semMxrel f) s
def execMxgoImm (f : Full) (s : State) : Out := execX (semMxgoImm f) s
def execMxgoReg (f : Full) (s : State) : Out := execX (semMxgoReg f) s
def execMxprom (f : Full) (s : State) : Out := execX (semMxprom f) s
def execMxstat (f : Full) (s : State) : Out := execX (semMxstat f) s
def execMxOpStart (quad : Nat) (s : State) : Out := finish (mxStart quad s)
def execMxOpComplete (quad : Nat) (s : State) : Out := finish (mxComplete quad s)

end Sys2Proof.Machine
end

