-- ==== Sys2Proof/Machine/Handler.lean ====
section
/-!
DEFINITION. Handler-only instructions: RTH (R181, R385), HGET and HSET (R190, R386), dropping, replaying
and reissuing operand-log entries (R185, R187, R389), PARK (R388).
-/
namespace Sys2Proof.Machine

/-- Permitted in handler mode only (R251). -/
def handlerOnly (_ : State) (_ : Wave) (hm : Bool) : Bool := hm

/-- A handler-only instruction. -/
def Sem.handler (f : Full) : Sem := { Sem.plain f with legal := handlerOnly, forbid := fun _ => true }

/-! ## Operand-log entries of the running sub-wave -/

/-- The entry is held for lanes of a mask of a wave. -/
def OpEntry.heldFor (u : Nat) (m : Mask) (e : OpEntry) : Bool :=
  e.wave == u && e.items.any (fun it => m.getLsbD it.1)

/-- Reissue the entries held for lanes; entries that fault again wait for the driver anew. -/
def reissueFor (s : State) (u qn : Nat) (m : Mask) : State :=
  let s := resumeEntries s qn (OpEntry.heldFor u m)
  s.mapQuad qn (fun q => { q with oplog := q.oplog.map (fun e => if e.heldFor u m then { e with delivered := false } else e) })

/-- Drop the entries held for lanes (R187). -/
def dropFor (s : State) (u qn : Nat) (m : Mask) : State :=
  let s := ((s.quad qn).oplog.filter (OpEntry.heldFor u m)).foldl dropEntry s
  s.mapQuad qn (fun q => { q with oplog := q.oplog.filter (fun e => !e.heldFor u m) })

/-! ## RTH -/

/-- The wave's RTH completes its restore (R194). -/
def restoring (w : Wave) : Bool := w.entry.getLsbD 13 && w.restore

/-- A restoring holder must take its unit back first (R398): its team, where the unit is not yet theirs. -/
def mustReacquire (s : State) (w : Wave) : Bool :=
  restoring w && (match s.team? w.team with | some t => t.holders.contains w.num | none => false)

/-- Take the unit back where it is free; a unit that the team holds stays with its holder. -/
def reacquire (s : State) (w : Wave) : State × Bool :=
  if !mustReacquire s w then (s, true)
  else
    let u := (s.quad w.qn).mx
    if u.holder.isSome && !u.heldBy w.team then (s, false)
    else
      let s := if u.holder.isSome then s
        else s.mapQuad w.qn (fun q => { q with mx := { q.mx with holder := some (w.team, w.num) } })
      (s.mapTeam w.team (fun t => { t with holders := t.holders.filter (· != w.num) }), true)

/-- RTH once its unit is held: R181, then the operations of MXS (R412) and the log entries still held. -/
def returnNow (s : State) (u : Nat) : State :=
  match s.wave? u with
  | none => s
  | some w =>
    let s1 := returnHandler s u
    match s1.wave? u with
    | none => s1
    | some w1 =>
      if w1.retired then s1
      else
        let s2 := if restoring w then mxResume s1 u else s1
        if w1.handling && w1.subw &&& w.subw != 0 then s2 else reissueFor s2 u w.qn (w.subw &&& w.retm)

def rthBody (s : State) (c : Ctx) : Res :=
  match s.wave? c.u with
  | none => { st := s }
  | some w =>
    let (s, ok) := reacquire s w
    if ok then { st := returnNow s c.u, stay := c.grp }
    else { st := c.lanes.foldl (fun s l => startWait s c.u l .reacquire) s, stay := c.act }

def semRth (f : Full) : Sem := { Sem.handler f with body := rthBody }

/-- MX_RESERVATION_REACQUIRE: the unit is free again and the waiting RTH goes on. -/
def mxReservationReacquire (u : Nat) (s : State) : State :=
  match s.wave? u with
  | none => s
  | some w =>
    if !(lanesOf w.running).any (fun l => (w.thread l).wait == .reacquire) then s
    else
      let (s, ok) := reacquire s w
      if ok then returnNow s u else s

/-! ## HGET and HSET -/

/-- The selector of a word. -/
def selOf (f : Full) : Sel := (Sel.of f.imm16.toNat).getD .entry

/-- The word of eight tags (R190). -/
def tagGroup (w : Wave) (g : Nat) : Nat :=
  (List.range 8).foldr (fun k n => (w.tag (8 * g + k)).code.toNat + 16 * n) 0

/-- What HGET reads in a lane, with the index of the selector. -/
def hiddenRead (s : State) (w : Wave) (l i : Nat) (x : Sel) : Nat :=
  let t := w.thread l
  match x with
  | .entry => w.entry.toNat
  | .repeat => w.repeatB.toNat
  | .subw => w.subw.toNat
  | .retm => w.retm.toNat
  | .save => w.save.toNat
  | .restore => w.restore.toNat
  | .parkq => w.parkq.length
  | .pend => (w.cause &&& ~~~ w.entry).toNat
  | .lpc => t.pc.toNat
  | .lst => (t.lst.map BitVec.toNat).getD (if t.exited then 1 else if w.parkedMask.getLsbD l then 2 else 0)
  | .tags => tagGroup w i
  | .jctl j => (w.join? j).valid.toNat
  | .jpc j => (w.join? j).pc.toNat
  | .jexp j => (w.join? j).exp.toNat
  | .jarr j => (w.join? j).arr.toNat
  | .wbase k => (fget Watch.off w.watch k).base.toNat
  | .wlen k => (fget Watch.off w.watch k).len.toNat
  | .tent => match s.team? w.team with | some t => (s.tileEnt t w.core i).toNat | none => 0
  | .mxs => (fget 0 w.mxs i).toNat
  | .olog => ((s.quad w.qn).oplog.filter (·.wave == w.uid)).length
  | .ologd => 0

/-- An index is in range (R386). -/
def hiddenIndexOk (s : State) (w : Wave) (x : Sel) (i : Nat) : Bool :=
  match x with
  | .tags => i < 256
  | .tent => match s.team? w.team with | some t => i < t.desc.tiles | none => false
  | .mxs => i < 16
  | _ => true

/-- Selectors held per lane (R190). -/
def selPerLane : Sel → Bool
  | .lpc | .lst => true
  | _ => false

/-- The `.q` form of HGET and HSET (R387). -/
def hiddenQ (f : Full) : Bool := f.lo3 % 2 == 1

def hgetBody (f : Full) (s : State) (c : Ctx) : Res :=
  let x := selOf f
  let i := if x.indexed then (c.rd.wreg (f.an % 64)).toNat else 0
  if !hiddenIndexOk s c.rd x i then { st := s, traps := allLanes c .bounds i }
  else if hiddenQ f then
    let v := natWords f.ety.regs (hiddenRead s c.rd (c.lanes.headD 0) i x)
    { st := s.mapWave c.u (fun w => v.zipIdx.foldl (fun w p => w.setQ (f.dn + p.2) p.1) w) }
  else lanewise (fun c l _ => .val f.dn f.ety (hiddenRead s c.rd l i x)) s c

def semHget (f : Full) : Sem :=
  { Sem.handler f with
    ops := fun _ _ l => if hiddenQ f then [] else [opD f l]
    wsrc := if (selOf f).indexed then [f.an % 64] else []
    body := hgetBody f }

/-- Set eight tags; a code that names no type leaves its tag (log entry 21). -/
def setTagGroup (w : Wave) (g v : Nat) : Wave :=
  (List.range 8).foldl (fun w k =>
    let r := 8 * g + k
    match Ety.ofCode (BitVec.ofNat 4 (v / 16 ^ k)) with
    | some t => if r < w.top then { w with tags := fset .bits w.tags r t } else w
    | none => w) w

/-- What HSET writes for the wave. -/
def hiddenWrite (w : Wave) (i : Nat) (x : Sel) (v : Nat) : Wave :=
  match x with
  | .repeat => { w with repeatB := w.repeatB &&& ~~~ (BitVec.ofNat 32 v) }
  | .pend => { w with cause := w.cause &&& ~~~ (BitVec.ofNat 32 v &&& ~~~ w.entry) }
  | .retm => { w with retm := BitVec.ofNat 64 v }
  | .tags => setTagGroup w i v
  | .jctl j => w.setJoin j { w.join? j with valid := v % 2 == 1 }
  | .jpc j => w.setJoin j { w.join? j with pc := BitVec.ofNat 32 v }
  | .jexp j => w.setJoin j { w.join? j with exp := BitVec.ofNat 64 v }
  | .jarr j => w.setJoin j { w.join? j with arr := BitVec.ofNat 64 v }
  | .wbase k => { w with watch := fset Watch.off w.watch k { fget Watch.off w.watch k with base := BitVec.ofNat 64 v } }
  | .wlen k => { w with watch := fset Watch.off w.watch k { fget Watch.off w.watch k with len := BitVec.ofNat 32 v } }
  | .mxs => { w with mxs := fset 0 w.mxs i (BitVec.ofNat 64 v &&& 0x80FFFFFFFFFFFFFF) }
  | _ => w

/-- What HSET writes in a lane: LPC keeps its three low bits zero (R173); LST stands until RTH, where a thread
whose LST is 01 stays exited (R194). -/
def hiddenLane (w : Wave) (l : Nat) (x : Sel) (v : Nat) : Wave :=
  match x with
  | .lpc =>
    if w.subw.getLsbD l then w.mapThread l (fun t => { t with pc := BitVec.ofNat 32 (v / 8 * 8) }) else w
  | .lst => w.mapThread l (fun t => { t with lst := some (BitVec.ofNat 2 v) })
  | _ => w

/-- The value operand in a lane. -/
def hiddenValue (f : Full) (w : Wave) (l : Nat) : Nat :=
  if hiddenQ f then wordsNat ((rangeFrom f.an f.ety.regs).map w.qreg) else (w.thread l).val f.an f.ety.regs

def hsetBody (f : Full) (s : State) (c : Ctx) : Res :=
  let x := selOf f
  let i := if x.indexed then (c.rd.wreg (f.dn % 64)).toNat else 0
  let v := hiddenValue f c.rd (c.lanes.headD 0)
  if !hiddenIndexOk s c.rd x i then { st := s, traps := allLanes c .bounds i }
  else if selPerLane x then
    { st := s.mapWave c.u (fun w => c.lanes.foldl (fun w l => hiddenLane w l x (hiddenValue f c.rd l)) w) }
  else if x == Sel.tent then
    match c.team with
    | none => { st := s }
    | some t => { st := s.setTile t i (fun _ => BitVec.ofNat 64 v &&& ~~~ (0x1FF#64 <<< 27)) }
  else { st := s.mapWave c.u (fun w => hiddenWrite w i x v) }

/-- The Q registers that the `.q` form reads. -/
def hiddenSrc (f : Full) : List Nat := if hiddenQ f then (rangeFrom f.an f.ety.regs).map qSoft else []

/-- The V operand of HSET: each lane's own for a lane selector, else the wave's. -/
def hiddenOps (f : Full) (s : State) (w : Wave) (l : Nat) : List Opnd :=
  if hiddenQ f then [] else if selPerLane (selOf f) then [opA f l f.ety] else [opWave f (opA f · f.ety) s w l]

/-- HSET is legal in handler mode, and where the selector asks for it while RESTORE = 1 (R183). -/
def hsetLegal (f : Full) (_ : State) (w : Wave) (hm : Bool) : Bool := hm && (!(selOf f).atRestore || w.restore)

def semHset (f : Full) : Sem :=
  { Sem.handler f with
    ops := hiddenOps f
    wsrc := (if (selOf f).indexed then [f.dn % 64] else []) ++ hiddenSrc f
    legal := hsetLegal f, body := hsetBody f }

/-- HSET of OLOGD (R187). -/
def ologdBody (f : Full) (s : State) (c : Ctx) : Res :=
  if hiddenValue f c.rd (c.lanes.headD 0) % 2 = 1 then { st := dropFor s c.u c.qn c.rd.subw } else { st := s }

def semOlogdDrop (f : Full) : Sem :=
  { Sem.handler f with
    ops := hiddenOps f
    wsrc := hiddenSrc f
    body := ologdBody f }

/-! ## PARK and REPLAY -/

/-- A cause word that PARK takes (R388). -/
def parkOk (v : Word) : Bool := v != 0 && v &&& 0xFFE22000 == 0

/-- PAGE, CHECK and UNCORR, the deferred causes of a cause word (R173). -/
def deferredBits : Word := Cause.page.word ||| Cause.check.word ||| Cause.uncorr.word

/-- The Active threads become a parked sub-wave, and leave every slot (R55); a sub-wave left empty is over (log entry 22). -/
def parkBody (f : Full) (s : State) (c : Ctx) : Res :=
  let v := c.rd.wreg (f.an % 64)
  if !parkOk v then { st := s, traps := (lanesOf c.grp).map (fun l => ⟨l, .illegal, c.iss.word, 0⟩) }
  else
    let s := s.mapWave c.u (fun w =>
      { w.leaveJoins c.act with
               subw := w.subw &&& ~~~ c.act, retm := w.retm &&& ~~~ c.act,
               parkq := w.parkq ++ [⟨c.act, v, w.epc, v &&& deferredBits != 0, false, true⟩] })
    let empty := match s.wave? c.u with | some w => w.subw == 0 | none => false
    { st := if empty then returnNow s c.u else s, stay := c.act }

def semPark (f : Full) : Sem := { Sem.handler f with wsrc := [f.an % 64], body := parkBody f }

def semReplay (f : Full) : Sem :=
  { Sem.handler f with
    body := fun s c => { st := resumeEntries s c.qn (OpEntry.heldFor c.u c.rd.subw) } }

def execRth (f : Full) (s : State) : Out := execX (semRth f) s
def execHget (f : Full) (s : State) : Out := execX (semHget f) s
def execHset (f : Full) (s : State) : Out := execX (semHset f) s
def execOlogdDrop (f : Full) (s : State) : Out := execX (semOlogdDrop f) s
def execPark (f : Full) (s : State) : Out := execX (semPark f) s
def execReplay (f : Full) (s : State) : Out := execX (semReplay f) s
def execMxReservationReacquire (wave : Nat) (s : State) : Out := finish (mxReservationReacquire wave s)

end Sys2Proof.Machine
end

