-- ==== Sys2Proof/Machine/System.lean ====
section
/-!
DEFINITION. Privileged instructions (R390 to R393), and words that are no instruction (R183, R223, R252).
-/
namespace Sys2Proof.Machine

/-- Permitted in a wave whose context is marked privileged (R251). -/
def privileged (s : State) (w : Wave) (_ : Bool) : Bool := ctxPriv s (waveCtx s w)

def Sem.priv (f : Full) : Sem := { Sem.plain f with legal := privileged, forbid := fun _ => true }

/-! ## CINV (R390) -/

/-- The physical address of the 64 KiB page of a path 0 virtual address, by the rows of R107 that CINV
applies. -/
def cinvPage (s : State) (ctx a : Nat) : Chk :=
  if a / 2 ^ 57 % 8 ≠ 0 then .trap .bounds a 1
  else if a / 2 ^ 60 ≠ 0 then .trap .rights a 3
  else
    match walk s ctx a with
    | .absent x => .absent x
    | .page => .page 0 a
    | .leaf lvl e _ =>
      if !swzOk (pteNat e 51 4) then .page 0 a
      else
        match validDesc s (ctxComp s ctx) (pteNat e 20 20) with
        | none => .trap .rights a 10
        | some d =>
          if !ctxAdmits s ctx d then .trap .rights a 11
          else if pteNat e 41 10 != dKey d || !keyOk s d then .trap .rights a 12
          else .ok (.bytes [dPbase d + pteNat e 64 32 * 65536 + a % pageSize lvl / 65536 * 65536] .plain)

/-- A line of the 64 KiB page at b. -/
def inPage64 (b line : Nat) : Bool := b ≤ 64 * line && 64 * line < b + 65536

/-- The lines of a 64 KiB page are written back and leave the slice caches. -/
def cleanPage (s : State) (b : Nat) : State :=
  s.slices.foldl (fun s e =>
    (e.2.cache.filter (fun x => inPage64 b x.1)).foldl (fun s x => evict s e.1 x.1) s) s

def cinvBody (f : Full) (s : State) (c : Ctx) : Res :=
  if f.lo3 % 2 = 0 then { st := s.mapCore c.rd.core (fun k => { k with l1 := [] }) }
  else
    let a := (c.rd.wpair (f.an % 64)).toNat
    match cinvPage s c.ctxNo a with
    | .trap k tv _ => { st := s, traps := allLanes c k tv }
    | .absent x => { st := s.touch false x }
    | .page p va =>
      let s := logEntry s c false (c.lanes.map (fun l => (l, Held.wait, p, va)))
      { st := c.lanes.foldl (fun s l => startWait s c.u l .logged) s, stay := c.act }
    | .ok (.bytes (b :: _) _) => { st := cleanPage s b }
    | _ => { st := s }

/-- A write-back that a CINV of a page makes waits at its slice (R444, R446). -/
def cinvShut (f : Full) (s : State) (w : Wave) : Bool :=
  match cinvPage s (waveCtx s w) (w.wpair (f.an % 64)).toNat with
  | .ok (.bytes (b :: _) _) => writeBackShut s (fun _ line => inPage64 b line)
  | _ => false

/-- A CINV that may have to wait for a page is held while the operand log is full (R186). -/
def semCinv (f : Full) : Sem :=
  { Sem.priv f with
    wsrc := if f.lo3 % 2 = 0 then [] else [f.an % 64, f.an % 64 + 1]
    body := cinvBody f
    hold := fun s w a => f.lo3 % 2 == 1 && a != 0 && ((w.members &&& a == 0 && logFull s w) || cinvShut f s w) }

/-! ## XLINV (R391, R198) -/

/-- The members of a shoot-down: the cores 0 to 191, the engines from 192 up, and with `.dom` the other
devices of the domain from 256 up. -/
def shootMembers (s : State) (dom : Bool) : List Nat :=
  List.range 256 ++
    (if dom then (s.domain.filter (fun d => d != s.devId && !s.fenced.contains d)).map (256 + ·) else [])

/-- Multicast a shoot-down. -/
def startShoot (s : State) (ctx va : Nat) (dom : Bool) : Nat × State :=
  let (id, s) := s.newId
  let ms := shootMembers s dom
  (id, { s with shoots := s.shoots ++ [{ id := id, ctx := ctx, va := va % 2 ^ 57, toReceive := ms, toCount := ms }] })

def xlinvBody (f : Full) (s : State) (c : Ctx) : Res :=
  let v := c.rd.wreg (f.bn % 64)
  if v.toNat ≥ 65536 then { st := s, traps := illegalW c v }
  else
    let (id, s) := startShoot s v.toNat (c.rd.wpair (f.an % 64)).toNat (f.lo3 % 2 == 1)
    { st := c.lanes.foldl (fun s l => startWait s c.u l (.shoot id)) s, stay := c.act }

def semXlinv (f : Full) : Sem := { Sem.priv f with wsrc := [f.an % 64, f.an % 64 + 1, f.bn % 64], body := xlinvBody f }

/-! ## DEADM (R392, R445) -/

/-- An address lies in the image of a Steppe region that holds rows. -/
def inSteppe (s : State) (a : Nat) : Bool :=
  s.regions.any (fun r =>
    let d := regionDesc s (r.1 / 2 ^ 20) (r.1 % 2 ^ 20)
    !r.2.laps.isEmpty && dPbase d ≤ a && a < dPbase d + granules d * 1024)

/-- Rows of a range become dead: their bytes read as zero and carry no mark; slice-cache lines of the range
are dropped (R445). -/
def makeDead (s : State) (a n : Nat) : State :=
  let gone (x : Nat) : Bool := a ≤ x && x < a + n && !inSteppe s x
  { s with
    mem := s.mem.filter (fun c => !gone c.1)
    poison := s.poison.filter (fun c => !gone c.1)
    seals := s.seals.filter (fun g => !gone (64 * g.1))
    slices := s.slices.map (fun e => (e.1, { e.2 with cache := e.2.cache.filter (fun x => !gone (64 * x.1)) })) }

def deadmBody (f : Full) (s : State) (c : Ctx) : Res :=
  let a := (c.rd.wpair (f.an % 64)).toNat
  let n := (c.rd.wreg (f.bn % 64)).toNat * 2 ^ 21
  if a % 2 ^ 21 ≠ 0 then { st := s, traps := allLanes c .align a }
  else if a + n > deviceBytes then { st := s, traps := allLanes c .bounds a }
  else { st := makeDead s a n }

def semDeadm (f : Full) : Sem :=
  { Sem.priv f with
    wsrc := [f.an % 64, f.an % 64 + 1, f.bn % 64], body := deadmBody f
    hold := fun _ w a => a != 0 && w.members &&& a == 0 && w.cnt.stq != 0 }

/-! ## APSET (R393) -/

/-- A word of an aperture register as written: its reserved bits stay zero (R9, R438). -/
def apWritten (word : Nat) (x : DWord) : DWord :=
  match word with
  | 0 => x &&& 0xFFFFFFFF00000000
  | 2 => x &&& 0x000FFFFFFFFFFFFF
  | 3 => x &&& 0x0000FFFFFFFFFFFF
  | _ => x

def apsetBody (f : Full) (s : State) (c : Ctx) : Res :=
  let v := c.rd.wreg (f.dn % 64)
  if v.toNat ≥ 128 then { st := s, traps := illegalW c v }
  else
    let n := v.toNat
    let x := BitVec.ofNat 64 ((c.rd.thread (c.lanes.headD 0)).val f.an 2)
    { st := { s with apertures := fset 0 s.apertures (n / 16 % 2 * 64 + n % 16 * 4 + n / 32) (apWritten (n / 32) x) } }

def semApset (f : Full) : Sem :=
  { Sem.priv f with ops := fun s w l => [opWave f (opA f · .n64) s w l], wsrc := [f.dn % 64], body := apsetBody f }

/-! ## Words that are no instruction -/

/-- ILLEGAL in every issuing lane with the word (R183, R252). -/
def illegalWord (w : DWord) (s : State) : State :=
  match s.cur with
  | some i => illegalAll s i w
  | none => s

/-- ILLEGAL for a PC beyond the text, with %tval 0 (R223). -/
def textOverrun (s : State) : State :=
  match s.cur with
  | some i => illegalAll s i 0
  | none => s

def execCinv (f : Full) (s : State) : Out := execX (semCinv f) s
def execXlinv (f : Full) (s : State) : Out := execX (semXlinv f) s
def execDeadm (f : Full) (s : State) : Out := execX (semDeadm f) s
def execApset (f : Full) (s : State) : Out := execX (semApset f) s
def execIllegalWord (w : DWord) (s : State) : Out := finish (illegalWord w s)
def execTextOverrun (s : State) : Out := finish (textOverrun s)

end Sys2Proof.Machine
end

