-- ==== Sys2Proof/Machine/Quadrant.lean ====
section
/-!
DEFINITION. Moves between the active and the pending set outside instructions (R59, R61, R62, R464) and
the grant of waiting XGET requests (R66, R74).
-/
namespace Sys2Proof.Machine

/-- WAVE_SWAP: the single swap of a quadrant's cycle, where one is due. -/
def waveSwap (qn : Nat) (s : State) : State := if swapDue s qn then swapMove s qn else s

/-- The quantum of an active wave has run out and its move is not yet due. -/
def quantumOut (s : State) (qn : Nat) (w : Wave) : Bool :=
  !w.retired && w.qn == qn && (s.quad qn).active.contains w.uid && 65536 ≤ w.quantum &&
    !(s.quad qn).quantumDue.contains w.uid

/-- QUANTUM_EXPIRE: the move is due; it is performed where it stands first (R464). -/
def quantumExpire (qn u : Nat) (s : State) : State :=
  match s.wave? u with
  | none => s
  | some w =>
    let s := if quantumOut s qn w then s.mapQuad qn (fun q => { q with quantumDue := q.quantumDue ++ [u] }) else s
    if (s.quad qn).quantumDue.contains u && standsFirst s qn false u then swapMove s qn else s

/-- PENDING_WAVE_ENTER: a free active place takes the ready pending wave nearest the head. -/
def pendingWaveEnter (qn : Nat) (s : State) : State :=
  if (s.quad qn).active.length < 8 then
    match nextReady s qn with
    | some u => toActive s qn u
    | none => s
  else s

/-- The first waiting request that may be granted: no earlier one whose lanes overlap waits, and its
registers are free (R74). -/
def grantable (s : State) (qn : Nat) : Option (Nat × Nat × Nat) :=
  let xq := (s.quad qn).xq
  let fits (p : (Nat × Nat × Nat) × Nat) : Bool :=
    match s.wave? p.1.2.1 with
    | some w => !heldBack s w (xq.take p.2) && (overQuota s w p.1.2.2 || regsFree s qn w.lane w.width p.1.2.2)
    | none => true
  (xq.zipIdx.find? fits).map (·.1)

/-- Threads that wait for a request. -/
def xgetLanes (w : Wave) (id : Nat) : Mask :=
  maskOf ((lanesOf w.running).filter (fun l => (w.thread l).wait == .xget id))

/-- XGET_GRANT: the registers are added and the threads go on; a request that has passed its quota
meanwhile raises XQUOTA. -/
def xgetGrant (qn : Nat) (s : State) : State :=
  match grantable s qn with
  | none => s
  | some (id, u, n) =>
    let s := s.mapQuad qn (fun q => { q with xq := q.xq.filter (·.1 != id) })
    match s.wave? u with
    | none => s
    | some w =>
      let m := xgetLanes w id
      let pc := match lowest m with | some l => w.pcOf l | none => 0
      let s := s.mapWave u (fun w => w.setWait m .none)
      if m == 0 then s
      else if overQuota s w n then
        takeTraps s u pc ((lanesOf m).map (fun l => ⟨l, .xquota, BitVec.ofNat 64 n, 0⟩))
      else markGrant (s.mapWave u (fun w => (grantRegs w n).setPc m (fun _ => pcNext pc))) w

def execWaveSwap (quad : Nat) (s : State) : Out := finish (waveSwap quad s)
def execQuantumExpire (quad wave : Nat) (s : State) : Out := finish (quantumExpire quad wave s)
def execPendingWaveEnter (quad : Nat) (s : State) : Out := finish (pendingWaveEnter quad s)
def execXgetGrant (quad : Nat) (s : State) : Out := finish (xgetGrant quad s)

end Sys2Proof.Machine
end

