-- ==== Sys2Proof/Machine/Engines.lean ====
section
/-!
DEFINITION. Copy engines: tails and chains (R427 to R430), commands and their failures (R431, R432), views,
permutation, padding and clip (R433, R434), progress (R435), classes (R436), and the ENGINE cause (R173,
R174).
-/
namespace Sys2Proof.Machine

/-! ## The state block -/

def engBits (s : State) (e lo n : Nat) : Nat := dn (engBlock s e) lo n
def engEn (s : State) (e : Nat) : Bool := engBits s e 303 1 == 1
def engDone (s : State) (e : Nat) : Bool := engBits s e 302 1 == 1
def engHead (s : State) (e : Nat) : Nat := engBits s e 320 64
def engTail (s : State) (e : Nat) : Nat := engBits s e 384 64

/-- An agent that is no wave writes device memory: read sets take it as a conflict (R365). -/
def agentWrite (s : State) (a n v : Nat) : State :=
  noteWrite (devWrite s a n v) none (fun _ => true) (rangeFrom a n)

/-- Replace a field of a block. -/
def setEng (s : State) (e lo n v : Nat) : State :=
  agentWrite s (engAddr s e) 64 (dSet (engBlock s e) lo n v).toNat

/-- What the accesses of an engine are checked for: its context, on its die (R33). -/
def engWho (s : State) (e : Nat) : Who := ⟨engBits s e 304 16, e / 32, none, false⟩

/-! ## Tails (R427, R429) -/

/-- ENGINE_TAIL_RECORD. -/
def engineTailRecord (e : Nat) (s : State) : State :=
  match (s.engine e).tails with
  | [] => s
  | (a, w, t) :: rest =>
    let idle := engDone s e && engHead s e == a
    let s := setEng s e 384 64 a
    let s := s.mapEngine e (fun x => { x with tails := rest, feeds := if idle then x.feeds else x.feeds ++ [(a, t)] })
    match w with
    | some u => s.mapWave u (·.lower 5)
    | none => s

/-- ENGINE_TAIL_DOORBELL. -/
def engineTailDoorbell (e : Nat) (a : DWord) (s : State) : State :=
  if e < 64 && s.host.boot == .normal then s.mapEngine e (fun x => { x with tails := x.tails ++ [(a.toNat, none, none)] }) else s

/-! ## Reading entries and views -/

/-- What reading 64 bytes of a chain or a view gives. -/
inductive Got where
  | got (phys : Nat) (w : BitVec 512)
  | page
  | bad (poison : Bool)
  | absent (a : Nat)
  /-- the read waits at its slice (R444, R446) -/
  | wait
deriving DecidableEq, Repr

/-- The place of 64 bytes of a chain or a view: on path 0, with the checks of a read. -/
def blockChk (s : State) (e a : Nat) : Chk :=
  if a / 2 ^ 60 ≠ 0 then .trap .rights a 3 else checkGeneric s (engWho s e) a 64 .read false

def readBlock (s : State) (e a : Nat) : Got :=
  let x := engWho s e
  match blockChk s e a with
  | .ok (.bytes (p :: ad) post) =>
    let l : Loc := .bytes (p :: ad) post
    if sliceAsleep s x.ctx x.die 0 a l then .wait
    else if anyPoison s (p :: ad) || wrongKey s x.ctx x.die 0 a l then .bad true
    else .got p (BitVec.ofNat 512 (devNat s p 64))
  | .page .. => .page
  | .absent x => .absent x
  | _ => .bad false

/-- Reading them reaches their row (R441, R453). -/
def useBlock (e : Nat) (s : State) (a : Nat) : State :=
  let x := engWho s e
  match blockChk s e a with
  | .ok l => if sliceAsleep s x.ctx x.die 0 a l then s else useLoc s false x.ctx x.die 0 a l
  | _ => s

/-- The engine has no command and is neither stopped nor closed. -/
def engFree (s : State) (e : Nat) : Bool := !((s.engine e).cmd.isSome || (s.engine e).stopped || !engEn s e)

/-- A completed entry at HEAD that is not the last one: HEAD := its NEXT, and DONE := 0 (R429). -/
def engAdvance (s : State) (e : Nat) : State :=
  if !engFree s e || !engDone s e || engHead s e = engTail s e then s
  else
    match readBlock s e (engHead s e) with
    | .got _ w => setEng (setEng (useBlock e s (engHead s e)) e 320 64 (dn w 448 64)) e 302 1 0
    | _ => s

/-- The entry that an engine turns to: the one at HEAD, which is to be performed or, complete, to name the next one
(R429). -/
def engFetch (s : State) (e : Nat) : Option (Nat × Got) :=
  if !engFree s e || (engDone s e && engHead s e == engTail s e) then none
  else some (engHead s e, readBlock s e (engHead s e))

/-- The engine reads the entry at HEAD and accepts its command (R436). -/
def engAccept (s : State) (e a phys : Nat) (w : BitVec 512) : State :=
  (useBlock e s a).mapEngine e (fun x => { x with cmd := some ⟨a, phys, w, dn w 62 3, w.getLsbD 181, 0⟩ })

/-! ## Completing -/

def Cmd.chunks (c : Cmd) : Nat := dn c.word 128 32

/-- Write the progress word, through the entry's own page (R435). -/
def putProg (s : State) (e : Nat) (c : Cmd) (pst ecode chunks : Nat) : State :=
  let p := pst * 2 ^ 62 + ecode * 2 ^ 54 + (if c.late then 2 ^ 53 else 0) + chunks
  let at_ := rangeFrom (c.phys + 16) 8
  let s := useLoc s true (engWho s e).ctx (engWho s e).die 0 c.addr (.bytes at_ .plain)
  let s := noteWrite (writeAddrs s at_ (leBytes 8 p)) none (fun _ => true) at_
  s.mapEngine e (fun x => { x with cmd := x.cmd.map (fun c => { c with word := dSet c.word 128 64 p }) })

/-- ENGINE waits in a wave (R173). -/
def Wave.withEngine (w : Wave) (tv : DWord) : Wave := { w with engine := w.engine ++ [tv] }

/-- ENGINE in every wave of a team, resident or saved (R173). -/
def raiseEngine (s : State) (t : Option Nat) (e seq : Nat) : State :=
  let tv := BitVec.ofNat 64 (e * 2 ^ 58 + seq % 2 ^ 58)
  match t with
  | none => s
  | some tu =>
    { s with
      waves := s.waves.map (fun w => if w.team = tu ∧ !w.retired then w.withEngine tv else w)
      launches := s.launches.map (fun l => { l with saved := l.saved.map (fun t =>
        if t.uid = tu then { t with saved := t.saved.map (·.withEngine tv) } else t) }) }

/-- The first of some feeds that ends at an entry, or at one that the chain links behind it, up to TAIL. -/
def feedFrom (s : State) (e : Nat) (feeds : List (Nat × Option Nat)) : Nat → Nat → Option (Nat × Option Nat)
  | 0, _ => none
  | n + 1, a =>
    match feeds.find? (·.1 == a) with
    | some x => some x
    | none =>
      if a = engTail s e then none
      else match readBlock s e a with
      | .got _ w => feedFrom s e feeds n (dn w 448 64)
      | _ => none

/-- The team that made the entry at HEAD available (R430): that of the tail to which the chain leads from it, however
the driver has set HEAD meanwhile. A chain that cannot be read goes with the oldest tail. -/
def engFeeder (s : State) (e : Nat) : Option Nat :=
  let fs := (s.engine e).feeds
  if fs.isEmpty then none
  else match feedFrom s e fs (2 ^ 20) (engHead s e) with
  | some x => x.2
  | none => match fs with | x :: _ => x.2 | [] => none

/-- The entry at HEAD is complete: the feeds up to one that ends with it are over. -/
def endEntry (s : State) (e a : Nat) : State :=
  let s := setEng s e 302 1 1
  s.mapEngine e (fun x => { x with
    cmd := none, feeds := if x.feeds.any (·.1 == a) then (x.feeds.dropWhile (·.1 != a)).dropWhile (·.1 == a) else x.feeds })

/-- A command completes, with its sequence number (R431, R432, R154). -/
def completeCmd (s : State) (e : Nat) (c : Cmd) (ecode chunks : Nat) : State :=
  let seq := (engSeq s e + 1) % 2 ^ 64
  let s := putProg s e c (if ecode = 0 then 2 else 3) ecode chunks
  let s := setEng s e 448 64 seq
  let s := if ecode = 0 then s else raiseEngine (setEng s e 256 1 1) (engFeeder s e) e seq
  endEntry s e c.addr

def failCmd (s : State) (e : Nat) (c : Cmd) (ecode : Nat) : State := completeCmd s e c ecode c.chunks

/-! ## Views (R433) -/

def vRank (v : BitVec 512) : Nat := dn v 465 3
def vFmt (v : BitVec 512) : Option Ety := Ety.ofCode (v.extractLsb' 468 4)
def vEs (v : BitVec 512) : Nat := match vFmt v with | some t => t.esize | none => 4
def vTiled (v : BitVec 512) : Bool := v.getLsbD 472
def vSz (v : BitVec 512) (d : Nat) : Nat := dn v (65 + 16 * d) 16
def vStr (v : BitVec 512) (d : Nat) : Word := v.extractLsb' (145 + 32 * d) 32
def vLo (v : BitVec 512) (d : Nat) : Nat := dn v (305 + 16 * d) 16
def vHi (v : BitVec 512) (d : Nat) : Nat := dn v (385 + 16 * d) 16
def vBase (v : BitVec 512) : Nat := dn v 0 64
/-- The handle of a tiled view's region, with every right. -/
def vHandle (v : BitVec 512) : Word := BitVec.ofNat 32 (vBase v % 2 ^ 20 + 7 * 2 ^ 29)
def vClean (v : BitVec 512) : Bool := dn v 473 39 == 0 && !v.getLsbD 64

/-- The paths of a view's accesses. -/
def viewPath (a : Nat) : Bool :=
  let p := a / 2 ^ 60
  p == 0 || p == 5 || p == 6 || p == 7

/-- A valid view; a tiled one whose element size is not its region's is not (log entry 14). Whether the region admits
the context is a matter of each access (R112). -/
def viewOk (s : State) (ctx : Nat) (v : BitVec 512) : Bool :=
  (vFmt v).isSome && 1 ≤ vRank v && vRank v ≤ 5 &&
    (List.range 5).all (fun d =>
      if d < vRank v then vSz v d != 0 else vSz v d == 0 && vStr v d == 0 && vLo v d == 0 && vHi v d == 0) &&
    (if vTiled v then
      vBase v / 2 ^ 20 == 0 &&
        (match validDesc s (ctxComp s ctx) (vBase v) with
         | some d => dClass d == 1 && dRank d == vRank v && dEs d == vEs v
         | none => false)
     else viewPath (vBase v))

/-- The address of position q of a linear view. -/
def posAddr (v : BitVec 512) (q : List Nat) : Nat :=
  let x : Int := q.zipIdx.foldl (fun (n : Int) p => n + p.1 * (vStr v p.2).toInt * vEs v) (vBase v)
  (x % 2 ^ 64).toNat

/-- The access to position q of a view. -/
def posChk (s : State) (e : Nat) (v : BitVec 512) (q : List Nat) (want : Want) : Chk :=
  if vTiled v then
    match handleDesc s (engWho s e).ctx (vHandle v) with
    | none => .trap .rights (vHandle v).toNat 11
    | some d =>
      checkCoord s (engWho s e).ctx (vHandle v) d (q.zipIdx.map (fun p => vStr v p.2 + BitVec.ofNat 32 p.1)) 1 want (· == 1)
  else
    let a := posAddr v q
    if viewPath a then checkGeneric s (engWho s e) a (vEs v) want false else .trap .rights a 3

/-! ## The order of positions (R434) -/

/-- The position with a row-major number in a box. -/
def unrank : List Nat → Nat → List Nat
  | [], _ => []
  | d :: ds, n => n / ds.foldl (· * ·) 1 % d :: unrank ds n

def boxOf (v : BitVec 512) : List Nat := (List.range (vRank v)).map (vSz v)
def boxCount (v : BitVec 512) : Nat := (boxOf v).foldl (· * ·) 1

def Cmd.perm (c : Cmd) (d : Nat) : Nat := dn c.word (65 + 3 * d) 3
/-- PERM permutes the dimensions below a rank. -/
def Cmd.permOk (c : Cmd) (r : Nat) : Bool :=
  (List.range 5).all (fun d => if d < r then c.perm d < r else c.perm d == 0) &&
    (List.range r).all (fun j => (List.range r).any (fun d => c.perm d == j))
def Cmd.op (c : Cmd) : Nat := dn c.word 0 8
def Cmd.span (c : Cmd) : Nat := (dn c.word 80 16 + 1) * 64

/-- The source position of a destination position. -/
def Cmd.srcPos (c : Cmd) (q : List Nat) : List Nat :=
  (List.range q.length).map (fun j =>
    match (List.range q.length).find? (fun d => c.perm d == j) with
    | some d => q.getD d 0
    | none => 0)

/-- The position is written. -/
def inClip (v : BitVec 512) (q : List Nat) : Bool := q.zipIdx.all (fun p => vLo v p.2 ≤ p.1 && p.1 ≤ vHi v p.2)
/-- A COPY's data position. -/
def isData (src : BitVec 512) (p : List Nat) : Bool := p.zipIdx.all (fun x => x.1 < vSz src x.2)

/-- Chunks of a command. -/
def Cmd.total (c : Cmd) (dst : BitVec 512) : Nat := ceilDiv (boxCount dst) c.span

/-- The positions that a chunk writes, each with the source position of a data position: padding first. -/
def Cmd.places (c : Cmd) (src dst : BitVec 512) (k : Nat) : List (List Nat × Option (List Nat)) :=
  let ns := (List.range c.span).map (k * c.span + ·)
  let qs := ((ns.filter (· < boxCount dst)).map (unrank (boxOf dst))).filter (inClip dst)
  let xs := qs.map (fun q => (q, if c.op == 1 && isData src (c.srcPos q) then some (c.srcPos q) else none))
  xs.filter (·.2.isNone) ++ xs.filter (·.2.isSome)

/-! ## Performing positions (R434, R435) -/

/-- How one position ends. -/
inductive Placed where
  | ok (s : State)
  | pause
  | wait
  | fail (ecode : Nat)
  | absent (a : Nat)

/-- Bytes of a source position; an Infuser block is decoded (R440). -/
def sourceBytes (s : State) (l : Loc) (n : Nat) : Option (List Byte) :=
  match l with
  | .infuse b =>
    if anyPoison s (codedBytes s b) then none
    else (decodeBlock ((rangeFrom b.hdr b.slot).map s.mem.read) b).map (fun raw => (raw.drop b.off).take n)
  | _ => let (bs, bad) := readLoc s l n; if bad then none else some bs

/-- An access of a position waits at its slice (R446). -/
def posAsleep (s : State) (e : Nat) (v : BitVec 512) (q : List Nat) (l : Loc) : Bool :=
  let a := servedAs s (posAddr v q)
  sliceAsleep s (engWho s e).ctx (engWho s e).die (if vTiled v then pathTiled else a / 2 ^ 60) a l

/-- An access of a position at its point of performance. -/
def posUse (s : State) (write : Bool) (e : Nat) (v : BitVec 512) (q : List Nat) (l : Loc) : State :=
  let a := servedAs s (posAddr v q)
  useLoc s write (engWho s e).ctx (engWho s e).die (if vTiled v then pathTiled else a / 2 ^ 60) a l

def putPos (s : State) (e : Nat) (dst : BitVec 512) (q : List Nat) (bs : List Byte) : Placed :=
  match posChk s e dst q .write with
  | .ok l => if posAsleep s e dst q l then .wait
    else .ok (noteWrite (writeLoc (posUse s true e dst q l) l bs) none (fun _ => true) (l.addrs s))
  | .page .. => .pause
  | .absent a => .absent a
  | _ => .fail 4

def posOne (s : State) (e : Nat) (c : Cmd) (src dst : BitVec 512) (x : List Nat × Option (List Nat)) : Placed :=
  match x.2 with
  | none => putPos s e dst x.1 (leBytes (vEs dst) (dn c.word 192 64 % 2 ^ (8 * vEs dst)))
  | some p =>
    match posChk s e src p .read with
    | .ok l =>
      if posAsleep s e src p l then .wait
      else
      let s := posUse s false e src p l
      (match sourceBytes s l (vEs src) with
       | some bs => putPos s e dst x.1 bs
       | none => .fail 5)
    | .page .. => .pause
    | .absent a => .absent a
    | _ => .fail 4

/-- Perform positions one after another; a PAGE pauses the command, or fails it when the driver does not
resolve it. -/
def posAll (s : State) (e : Nat) (c : Cmd) (src dst : BitVec 512) (deny : Bool) :
    List (List Nat × Option (List Nat)) → Nat → State
  | [], pos => s.mapEngine e (fun x => { x with cmd := x.cmd.map (fun c => { c with pos := pos }) })
  | x :: xs, pos =>
    match posOne s e c src dst x with
    | .ok s' => posAll s' e c src dst deny xs (pos + 1)
    | .pause =>
      if deny then failCmd s e c 4
      else s.mapEngine e (fun x => { x with cmd := x.cmd.map (fun c => { c with pos := pos }) })
    | .wait => s.mapEngine e (fun x => { x with cmd := x.cmd.map (fun c => { c with pos := pos }) })
    | .fail k => failCmd s e c k
    | .absent a => s.touch false a

/-! ## Commands (R431, R432) -/

/-- What the first three rows of R432 and the views say of a command. -/
inductive Plan where
  | skip
  | fail (ecode : Nat)
  | nop
  | run (src dst : BitVec 512)
  | pause
  | wait
  | absent (a : Nat)
deriving DecidableEq, Repr

/-- A reserved field of the entry, or a code it may not hold. -/
def Cmd.ill (c : Cmd) : Bool :=
  dn c.word 8 49 != 0 || 2 < c.op || 3 < dn c.word 62 3 || dn c.word 59 3 == 7

/-- The addresses of a command's views: source, then destination. A FILL has none of a source, and its destination's
stands for it. -/
def Cmd.viewAddrs (c : Cmd) : Nat × Nat :=
  let d := dn c.word 256 64
  if c.op = 1 then (dn c.word 320 64, d) else (d, d)

/-- Views of a COPY or FILL. -/
def viewsOf (s : State) (e : Nat) (c : Cmd) : Got × Got := (readBlock s e c.viewAddrs.1, readBlock s e c.viewAddrs.2)

/-- What a command comes to that lacks a view: the fourth row of R432 stands before the fifth, and neither can be ruled
out while a PAGE is not resolved or a read waits. -/
def lackPlan (xs : List Got) : Plan :=
  match xs.findSome? (fun x => match x with | .absent a => some a | _ => none) with
  | some a => .absent a
  | none =>
    if xs.contains (.bad false) then .fail 4
    else if xs.contains .page then .pause
    else if xs.contains .wait then .wait
    else .fail 5

/-- The second row of R432 for one readable view. PERM counts for a FILL as well, over the rank of its destination
(log entry 14); of a COPY whose ranks agree it holds or fails for both. -/
def viewBad (s : State) (e : Nat) (c : Cmd) (v : BitVec 512) : Bool :=
  !viewOk s (engWho s e).ctx v || !c.permOk (vRank v)

/-- The second row for the two views of a COPY. -/
def viewsDiffer (c : Cmd) (src dst : BitVec 512) : Bool :=
  c.op == 1 && (vRank src != vRank dst || vFmt src != vFmt dst)

/-- The readable ones. -/
def readable (xs : List Got) : List (BitVec 512) :=
  xs.filterMap (fun x => match x with | .got _ w => some w | _ => none)

def cmdPlan (s : State) (e : Nat) (c : Cmd) : Plan :=
  let sqn := dn c.word 384 64
  if sqn ≤ engSeq s e then .skip
  else if c.ill then .fail 1
  else if c.op = 0 then (if sqn = engSeq s e + 1 then .nop else .fail 3)
  else
    let x := viewsOf s e c
    let vs := readable [x.1, x.2]
    if vs.any (!vClean ·) then .fail 1
    else if vs.any (viewBad s e c) then .fail 2
    else
      match x with
      | (.got _ src, .got _ dst) =>
        if viewsDiffer c src dst then .fail 2 else if sqn ≠ engSeq s e + 1 then .fail 3 else .run src dst
      | _ => if sqn ≠ engSeq s e + 1 then .fail 3 else lackPlan [x.1, x.2]

/-- An engine's step: it goes on to the next entry and accepts it when `takes` its operation, or works on its
command. -/
def engineStep (e : Nat) (takes : Nat → Bool) (work : State → Cmd → State) (s : State) : State :=
  match (s.engine e).cmd with
  | none =>
    let s := engAdvance s e
    (match engFetch s e with
     | some (a, .got phys w) => if takes (dn w 0 8) then engAccept s e a phys w else s
     | some (_, .absent a) => s.touch false a
     | _ => s)
  | some c => if takes c.op then work s c else s

/-- Skip, fail, pause and NOP; `run` performs a COPY or FILL, whose views are read. -/
def cmdWork (e : Nat) (deny : Bool) (run : State → Cmd → BitVec 512 → BitVec 512 → State) (s : State) (c : Cmd) :
    State :=
  match cmdPlan s e c with
  | .skip => endEntry s e c.addr
  | .fail k => failCmd s e c k
  | .nop => completeCmd s e c 0 c.chunks
  | .pause => if deny then failCmd s e c 4 else s
  | .wait => s
  | .absent a => s.touch false a
  | .run src dst => run (useBlock e (useBlock e s c.viewAddrs.1) c.viewAddrs.2) c src dst

/-- ENGINE_NOP: an entry that is neither COPY nor FILL. -/
def engineNop (e : Nat) (s : State) : State :=
  engineStep e (fun op => op != 1 && op != 2) (cmdWork e false (fun s _ _ _ => s)) s

/-- The positions of a command's current chunk up to number `upto`. -/
def runChunk (e upto : Nat) (deny : Bool) (s : State) (c : Cmd) (src dst : BitVec 512) : State :=
  let xs := c.places src dst c.chunks
  posAll (if c.word.extractLsb' 190 2 = 1#2 then s else putProg s e c 1 0 c.chunks) e c src dst deny
    ((xs.take upto).drop c.pos) c.pos

/-- ENGINE_COPY. -/
def engineCopy (e upto : Nat) (deny : Bool) (s : State) : State :=
  engineStep e (· == 1) (cmdWork e deny (runChunk e upto deny)) s
/-- ENGINE_FILL. -/
def engineFill (e upto : Nat) (deny : Bool) (s : State) : State :=
  engineStep e (· == 2) (cmdWork e deny (runChunk e upto deny)) s

/-- Positions of the current chunk still to write. -/
def chunkLeft (s : State) (e : Nat) : Option (Cmd × BitVec 512 × Nat) :=
  match (s.engine e).cmd with
  | none => none
  | some c =>
    match cmdPlan s e c with
    | .run src dst => some (c, dst, (c.places src dst c.chunks).length - c.pos)
    | _ => none

/-- ENGINE_CHUNK_DONE. -/
def engineChunkDone (e : Nat) (s : State) : State :=
  match chunkLeft s e with
  | some (c, dst, 0) =>
    let k := min (c.chunks + 1) (c.total dst)
    if k = c.total dst then completeCmd s e c 0 k
    else
      let s := putProg s e c 1 0 k
      s.mapEngine e (fun x => { x with cmd := x.cmd.map (fun c => { c with pos := 0 }) })
  | _ => s

/-- CHAIN_FAULT: NEXT or an entry cannot be read; a PAGE counts when the driver does not resolve it. -/
def chainFault (e : Nat) (s : State) : State :=
  let s := engAdvance s e
  match engFetch s e with
  | some (_, .bad _) | some (_, .page) =>
    let s := setEng s e 257 1 1
    let s := raiseEngine s (engFeeder s e) e (engSeq s e + 1)
    s.mapEngine e (fun x => { x with stopped := true })
  | some (_, .absent a) => s.touch false a
  | _ => s

/-- A stopped engine is free once the driver has taken EN away to set HEAD (log entry 15). -/
def engRestart (s : State) (e : Nat) : State :=
  if (s.engine e).stopped && !engEn s e then s.mapEngine e (fun x => { x with stopped := false }) else s

/-! ## Classes and deadlines (R436) -/

def Cmd.deadline (c : Cmd) : Nat := dn c.word 96 32

/-- DEADLINE_PROMOTE: the class rises by one above the command's own, once. -/
def deadlinePromote (e : Nat) (s : State) : State :=
  match (s.engine e).cmd with
  | some c => if c.deadline = 0 then s else s.mapEngine e (fun x => { x with cmd := some { c with cls := max c.cls (min 3 (dn c.word 62 3 + 1)) } })
  | none => s

/-- DEADLINE_EXPIRE: LATE stands in the progress word. -/
def deadlineExpire (e : Nat) (s : State) : State :=
  match (s.engine e).cmd with
  | some c =>
    if c.deadline = 0 ∨ c.late then s
    else
      let c := { c with cls := 3, late := true }
      let s := s.mapEngine e (fun x => { x with cmd := some c })
      putProg s e c (dn c.word 190 2) 0 c.chunks
  | none => s

/-! ## The ENGINE cause (R174) -/

/-- An asynchronous cause parks every thread of the wave that has not exited and is not parked; members
of a transaction abort first, and a wave in handler mode records it (R180, R189). -/
def asyncCause (s : State) (u : Nat) (k : Cause) (tv : DWord) : State :=
  match s.wave? u with
  | none => s
  | some w =>
    if w.handling then s.mapWave u (fun w => w.recordCause k)
    else
      let s := s.mapWave u (fun w => abortTx w w.members (abortCode k) 0)
      match s.wave? u with
      | none => s
      | some w =>
        let n := w.running
        deliver (s.mapWave u (fun w =>
          parkLanes w ⟨n, k.word, 0, false, true, false⟩ ((lanesOf n).map (fun l => (l, tv))))) u

/-- ENGINE_CAUSE_TAKEN. -/
def engineCauseTaken (u : Nat) (s : State) : State :=
  match s.wave? u with
  | none => s
  | some w =>
    match w.engine with
    | [] => s
    | tv :: rest =>
      if w.retired || (!w.handling && w.running == 0) then s
      else asyncCause (s.mapWave u (fun w => { w with engine := rest })) u .engine tv

def execEngineTailRecord (e : Nat) (s : State) : Out := finish (engineTailRecord e s)
def execEngineNop (e : Nat) (s : State) : Out := finish (engineNop e s)
def execEngineCopy (e upto : Nat) (deny : Bool) (s : State) : Out := finish (engineCopy e upto deny s)
def execEngineFill (e upto : Nat) (deny : Bool) (s : State) : Out := finish (engineFill e upto deny s)
def execChainFault (e : Nat) (s : State) : Out := finish (chainFault e s)
def execEngineChunkDone (e : Nat) (s : State) : Out := finish (engineChunkDone e s)
def execDeadlinePromote (e : Nat) (s : State) : Out := finish (deadlinePromote e s)
def execDeadlineExpire (e : Nat) (s : State) : Out := finish (deadlineExpire e s)
def execEngineTailDoorbell (e : Nat) (addr : DWord) (s : State) : Out := finish (engineTailDoorbell e addr s)
def execEngineCauseTaken (wave : Nat) (s : State) : Out := finish (engineCauseTaken wave s)

end Sys2Proof.Machine
end

