-- ==== Sys2Proof/Machine/Scheduling.lean ====
section
/-!
DEFINITION. From launch to issue: queues and records (R201 to R207), placement (R208 to R215, R22 to R27, R43
to R47), FETCHW (R217), pre-emption between priorities, save and restore (R193 to R196, R221), completion,
failure, kill and watchdog (R63, R218 to R222).
-/
namespace Sys2Proof.Machine

/-! ## Queue control blocks (R201) -/

def qcbAddr (s : State) (q : Nat) : Nat := s.host.bases.qcb + 64 * q
def qcb (s : State) (q : Nat) : BitVec 512 := BitVec.ofNat 512 (devNat s (qcbAddr s q) 64)
def setQcb (s : State) (q lo n v : Nat) : State := agentWrite s (qcbAddr s q) 64 (dSet (qcb s q) lo n v).toNat

def qSeq (b : BitVec 512) : Nat := dn b 192 64
def qTail (b : BitVec 512) : Nat := dn b 128 64
def qHead (b : BitVec 512) : Nat := dn b 64 64
def qSlots (b : BitVec 512) : Nat := 2 ^ dn b 304 5
def qEn (b : BitVec 512) : Bool := b.getLsbD 319
def qCtx (b : BitVec 512) : Nat := dn b 288 16
def qComp (b : BitVec 512) : Nat := dn b 316 3
def qPrio (b : BitVec 512) : Nat := dn b 312 3
def qWdog (b : BitVec 512) : Nat := dn b 256 32
/-- Device-physical address of record k. -/
def recAddr (b : BitVec 512) (k : Nat) : Nat := dn b 0 64 + 128 * (k % qSlots b)

/-- LAUNCH_DOORBELL (R202). -/
def launchDoorbell (q : Nat) (tail : DWord) (s : State) : State :=
  if 64 ≤ q || s.host.boot != .normal then s
  else
    let b := qcb s q
    let t := tail.toNat
    if t < qTail b ∨ qSeq b + qSlots b < t then setQcb s q 321 1 1 else setQcb s q 128 64 t

/-! ## Kernel descriptors (R275, R23, R44, R45, R47, R65) -/

abbrev Rec := BitVec 1024
def rn (r : Rec) (lo n : Nat) : Nat := (r.extractLsb' lo n).toNat

def kdescOf (r : Rec) : KDesc :=
  { pers := r.getLsbD 387, umx := r.getLsbD 386, ust := r.getLsbD 385, utry := r.getLsbD 384,
    privH := rn r 352 32, privI := rn r 320 32, tiles := rn r 288 16, acc := rn r 256 32, scr := rn r 224 32,
    gang := rn r 208 8, dz := rn r 192 16, dy := rn r 176 16, dx := rn r 160 16, part := r.extractLsb' 128 32,
    maxe := rn r 96 16, base := rn r 80 16, width := rn r 64 8, hoff := r.extractLsb' 32 32,
    eoff := r.extractLsb' 0 32 }

def KDesc.rf (d : KDesc) : Nat := (d.part.extractLsb' 0 8).toNat
def KDesc.sp (d : KDesc) : Nat := (d.part.extractLsb' 8 8).toNat
def KDesc.as_ (d : KDesc) : Nat := (d.part.extractLsb' 16 8).toNat
/-- Threads and waves of a team (R44). -/
def KDesc.nt (d : KDesc) : Nat := d.dx * d.dy * d.dz
def KDesc.nw (d : KDesc) : Nat := ceilDiv d.nt d.width
/-- The team is placed on a saddle (R47). -/
def KDesc.saddle (d : KDesc) : Bool := d.scr > d.sp * 16384 || d.acc > d.as_ * 16384

/-- A valid partition word (R23). -/
def partOk (d : KDesc) : Bool :=
  d.rf % 4 == 0 && 4 ≤ d.rf && d.rf + d.sp + d.as_ ≤ 192 && d.part.extractLsb' 24 8 == 0

def kdescOk (r : Rec) : Bool :=
  let d := kdescOf r
  rn r 388 636 == 0 && rn r 304 16 == 0 && rn r 216 8 == 0 && rn r 112 16 == 0 && rn r 72 8 == 0 &&
    partOk d && (d.width == 16 || d.width == 32 || d.width == 64) &&
    d.nt != 0 && d.nt ≤ 2048 && d.nw ≤ 32 &&
    d.scr ≤ 2 * d.sp * 16384 && d.acc ≤ 2 * d.as_ * 16384 &&
    d.base % 32 == 0 && 32 ≤ d.base && d.base ≤ 512 && 1 ≤ d.gang && d.gang ≤ 16 && d.tiles ≤ 256 &&
    (!d.pers || d.gang == 1)

/-- The place of the descriptor at KDESC, where it is a loaded .kdesc of the context (R205). -/
def kdescLoc (s : State) (ctx a : Nat) : Option (Code × Loc) :=
  match s.codes.find? (fun c => c.ctx == ctx && c.kdescs.contains a) with
  | none => none
  | some c =>
    match checkGeneric s ⟨ctx, 0, none, false⟩ a 128 .read false with
    | .ok l => if a / 2 ^ 60 = 0 then some (c, l) else none
    | _ => none

/-- The descriptor at KDESC; one that lies in a granule in error or under another key (R453) is none (log entry 83). -/
def loadedKdesc (s : State) (ctx a : Nat) : Option (Code × Rec) :=
  match kdescLoc s ctx a with
  | some (c, l) =>
    let ad := l.addrs s
    if wrongKey s ctx 0 0 a l || anyPoison s ad then none
    else ad.head?.map (fun p => (c, BitVec.ofNat 1024 (devNat s p 128)))
  | none => none

/-! ## What a core has free (R25, R26, R46, R213, R214) -/

/-- Teams that hold shares of a core. -/
def teamsOn (s : State) (core : Nat) : List Team := s.teams.filter (fun t => t.cores.contains core)

/-- A core is idle (R26). -/
def coreIdle (s : State) (core : Nat) : Bool :=
  (teamsOn s core).isEmpty && (List.range 4).all (fun q => (s.quad (core * 4 + q)).quar.isEmpty)

/-- First fit from the lowest free offset (R213). -/
def firstFit (held : List (Nat × Nat)) (size limit : Nat) : Option Nat :=
  let free (b : Nat) : Bool := b + size ≤ limit && held.all (fun h => b + size ≤ h.1 || h.1 + h.2 ≤ b || size == 0)
  ((0 :: held.map (fun h => h.1 + h.2)).filter free).foldl
    (fun m b => match m with | none => some b | some x => some (min x b)) none

/-- A place of a wave: quadrant of its core and lane offset. -/
abbrev Spot := Nat × Nat

/-- A quadrant holds k more waves of width `width` from lane `lane` up, each with `n` registers, beside
waves chosen already. -/
def spotFits (s : State) (core : Nat) (d : KDesc) (taken : List Spot) (q lane k : Nat) : Bool :=
  let qn := core * 4 + q
  let here := taken.filter (·.1 == q)
  let slots := (s.waves.filter (fun w => w.qn == qn && !w.retired)).length + here.length
  slots + k ≤ 16 &&
    (rangeFrom lane (k * d.width)).all (fun ql =>
      regsUsed s qn ql + (here.countP (fun p => p.2 ≤ ql && ql < p.2 + d.width)) * d.base + d.base ≤ d.rf / 4 * 64)

/-- Places for the k waves of a lane group (R214). -/
def placeGroup (s : State) (core : Nat) (d : KDesc) (taken : List Spot) (g k : Nat) : Option (List Spot) :=
  match ((List.range 4).map (fun i => (g + i) % 4)).find? (fun q => spotFits s core d taken q 0 k) with
  | some q => some (taken ++ (List.range k).map (fun i => (q, i * d.width)))
  | none =>
    let spots := ((List.range 4).map (fun q => (List.range (64 / d.width)).map (fun i => (q, i * d.width)))).flatten
    (List.range k).foldl (fun (r : Option (List Spot)) _ =>
      match r with
      | none => none
      | some t => (spots.find? (fun p => spotFits s core d t p.1 p.2 1)).map (fun p => t ++ [p])) (some taken)

/-- Places for the first `n` waves of a core's share of a team (R214). -/
def placeWaves (s : State) (core : Nat) (d : KDesc) (n : Nat) : Option (List Spot) :=
  let per := 64 / d.width
  (List.range (ceilDiv n per)).foldl (fun r g =>
    match r with
    | none => none
    | some t => placeGroup s core d t g (min per (n - g * per))) (some [])

/-- Shares held on a core: scratchpad, accumulator and tile entries, each as base and size. -/
def heldOn (s : State) (core : Nat) : List (Nat × Nat) × List (Nat × Nat) × List (Nat × Nat) :=
  let ts := teamsOn s core
  (ts.map (fun t => (t.spBase.getD (core - t.core) 0, t.spSize)),
   ts.map (fun t => (t.asBase.getD (core - t.core) 0, t.asSize)),
   ts.map (fun t => (t.tileBase, t.desc.tiles)))

/-- Bytes of a share on each core (R213). -/
def shareSize (saddle : Bool) (n : Nat) : Nat := if saddle then ceilDiv n 512 * 256 else ceilDiv n 256 * 256

/-- What a team takes: bases on each core, the tile run, and the place of each wave as core and spot. -/
structure Fit where
  core  : Nat
  sp    : List Nat
  as_   : List Nat
  tile  : Nat
  spots : List (Nat × Spot)
deriving DecidableEq, Repr

/-- The core may hold the launch's teams (R208, R212). -/
def coreMatches (s : State) (l : Launch) (core : Nat) : Bool :=
  (fget 0#192 s.host.bases.mask l.comp).getLsbD core &&
    (coreIdle s core || ((s.core core).part == l.desc.part && (s.core core).comp == l.comp))

/-- The saved waves of a team in wave-number order. -/
def Team.byNum (t : Team) : List Wave := (List.range 32).filterMap (fun n => t.saved.find? (·.num == n))

/-- Former places of a saved team (R212): each wave in its quadrant, at its offset. -/
def savedSpots (s : State) (core : Nat) (d : KDesc) (ws : List Wave) : Option (List Spot) :=
  ws.foldl (fun (r : Option (List Spot)) w =>
    match r with
    | none => none
    | some t => if spotFits s core d t w.quad w.lane 1 then some (t ++ [(w.quad, w.lane)]) else none) (some [])

/-- A team on the cores from `core` up (R212, R213). -/
def fitAt (s : State) (l : Launch) (old : Option Team) (core : Nat) : Option Fit :=
  let d := l.desc
  let cs := if d.saddle then [core, core + 1] else [core]
  if !cs.all (coreMatches s l) then none
  else
    let first := if d.saddle then ceilDiv d.nw 2 else d.nw
    let spots (c : Nat) : Option (List (Nat × Spot)) :=
      (match old with
       | some t => savedSpots s c d (t.byNum.filter (fun w => w.core - t.core == c - core))
       | none => placeWaves s c d (if c = core then first else d.nw - first)).map (fun ps => List.map (fun p => (c, p)) ps)
    let sps := cs.map (fun c => firstFit (heldOn s c).1 (shareSize d.saddle d.scr) (d.sp * 16384))
    let ass := cs.map (fun c => firstFit (heldOn s c).2.1 (shareSize d.saddle d.acc) (d.as_ * 16384))
    let tile := firstFit ((cs.map (fun c => (heldOn s c).2.2)).flatten) d.tiles 256
    let places := cs.map spots
    match tile with
    | some tb =>
      if sps.all (·.isSome) && ass.all (·.isSome) && places.all (·.isSome) then
        some ⟨core, sps.map (·.getD 0), ass.map (·.getD 0), tb, (places.map (·.getD [])).flatten⟩
      else none
    | none => none

/-- The core or saddle that takes a team: the lowest that fits and is not idle, else the lowest idle one
(R212). -/
def chooseFit (s : State) (l : Launch) (old : Option Team) : Option Fit :=
  let cs := if l.desc.saddle then (List.range 96).map (2 * ·) else List.range 192
  let idle (c : Nat) : Bool := if l.desc.saddle then coreIdle s c && coreIdle s (c + 1) else coreIdle s c
  match (cs.filter (fun c => !idle c)).findSome? (fitAt s l old) with
  | some f => some f
  | none => (cs.filter idle).findSome? (fitAt s l old)

/-! ## Placing (R27, R215, R22) -/

/-- Grant bytes of a core's pool to a context (R27). -/
def grantPlots (s : State) (core ctx lo n : Nat) : State :=
  (List.range 192).foldl (fun s p =>
    let a := max lo (p * 16384)
    let b := min (lo + n) (p * 16384 + 16384)
    if b ≤ a || fget none (s.core core).marks p == some ctx then s
    else
      let s := { s with mem := s.mem.clear (poolAddr core a) (b - a)
                        poison := s.poison.filter (fun c => c.1 < poolAddr core a || poolAddr core b ≤ c.1) }
      s.mapCore core (fun k => { k with
        marks := fset none k.marks p (if b - a = 16384 then some ctx else none) })) s

/-- Base blocks are granted in the plots of the quadrants that the team's waves enter (R25, R27): a plot of another
context becomes the team's where the grant covers the whole register file of the quadrant, and mixed otherwise (log
entry 23). -/
def grantRegPlots (s : State) (core ctx : Nat) (d : KDesc) (spots : List Spot) : State :=
  (List.range 4).foldl (fun s q =>
    let here := spots.filter (·.1 == q)
    let whole := (List.range 64).all (fun ql => here.countP (fun p => p.2 ≤ ql && ql < p.2 + d.width) * d.base == d.rf / 4 * 64)
    if here.isEmpty then s else markRegPlots s core ctx (q * (d.rf / 4)) (d.rf / 4) whole) s

/-- %handler at wave start (R177): a program counter is a multiple of 8 (R173). -/
def Code.handlerOf (c : Code) (d : KDesc) : Word := if d.hoff = 0 then c.dh else d.hoff &&& 0xFFFFFFF8

/-- A wave at wave start (R64, R133, R177), or as it comes back from a save (R194). -/
def startWave (s : State) (t : Team) (c : Code) (num core q lane : Nat) (old : Option Wave) : Wave × State :=
  let d := t.desc
  let (uid, s) := s.newId
  let (priv, s) := s.newId
  let live := d.nt - num * d.width
  let entry : Word := d.eoff &&& 0xFFFFFFF8
  let fresh := (List.range d.width).map (fun i => Thread.start entry (live ≤ i))
  let threads := match old with
    | some w => w.threads.map (fun t => { Thread.start 0 t.exited with hpc := c.dh })
    | none => fresh
  let alive := maskOf ((List.range d.width).filter (fun i => !(threads.getD i Thread.gone).exited))
  let back := old.isSome
  let m := if back then Cause.preempt.word else 0
  ({ uid := uid, team := t.uid, num := num, core := core, quad := q, lane := lane, width := d.width,
     base := d.base, ext := 0, code := c.id, threads := threads, tags := [], w := [], q := [], joins := [],
     winFirst := 0, winLen := 0, winhit := 0, cnt := Counters.zero, fpctl := 0, fpstat := 0, cause := m, epc := 0,
     entry := m, repeatB := 0, restore := back, handling := back, subw := if back then alive else 0,
     retm := if back then alive else 0,
     save := match old with
       | some w => w.save
       | none => Config.saveArea t.uid num &&& 0x01FFFFFFFFFFFFFF
     parkq := [], defer := [], handler := c.handlerOf d, prog := 0, abort := 0,
     hwm := match old with | some w => w.hwm | none => d.privI
     watch := [], mxs := [], quantum := 0, sq := [], flights := [], kettle := Kettle.closed, kill := false,
     killEsc := false, preempt := false, engine := match old with | some w => w.engine | none => [],
     acqAt := s.now, priv := match old with | some w => w.priv | none => priv, retired := false, freed := false, wsoft := [], stuck := 0 },
   s)

/-- The waves of a team, in wave-number order. -/
def startWaves (s : State) (t : Team) (c : Code) (f : Fit) : State :=
  let nums : List (Nat × Option Wave) :=
    if t.restored then t.byNum.map (fun w => (w.num, some w)) else (List.range f.spots.length).map (fun i => (i, none))
  (nums.zip f.spots).foldl (fun s p =>
    let (w, s) := startWave s t c p.1.1 p.2.1 p.2.2.1 p.2.2.2 p.1.2
    { s with waves := s.waves ++ [w] }) s

/-- Put a team on a core or saddle: the partition register, the plots, the tile run (R22, R27, R215). Its barriers are
idle, also after a restore (R379). -/
def putTeam (s : State) (l : Launch) (n : Nat) (old : Option Team) (c : Code) (f : Fit) : State :=
  let d := l.desc
  let (id, s) := s.newId
  let uid := match old with | some o => o.uid | none => id
  let base : Team :=
    { uid := uid, lq := l.q, lk := l.k, n := n, x := n % l.gx, y := n / l.gx % l.gy, z := n / (l.gx * l.gy),
      gang := n % d.gang, ctx := l.ctx, comp := l.comp, prio := l.prio, desc := d, code := c.id, core := f.core,
      saddle := d.saddle, spBase := f.sp, spSize := shareSize d.saddle d.scr, asBase := f.as_,
      asSize := shareSize d.saddle d.acc, tileBase := f.tile, bars := [], bargArrived := [], phase := .placing,
      restored := false, fetchw := [], failed := none, saved := [], holders := [], mxops := [], readers := [],
      placedAt := id }
  let t : Team := match old with
    | none => base
    | some o => { base with
        restored := true, failed := o.failed, saved := o.saved,
        holders := o.holders,
        mxops := o.mxops.map (fun x => { x with core := f.core + (x.core - o.core) }),
        readers := o.readers }
  let s := t.cores.foldl (fun s core =>
    let s := s.mapCore core (fun k => { k with part := d.part, comp := l.comp })
    let s := grantRegPlots s core l.ctx d ((f.spots.filter (·.1 == core)).map (·.2))
    let h := core - f.core
    let s := grantPlots s core l.ctx (d.rf * 16384 + t.spBase.getD h 0) t.spSize
    let s := grantPlots s core l.ctx ((d.rf + d.sp) * 16384 + t.asBase.getD h 0) t.asSize
    s.mapCore core (fun k => { k with
      tiles := k.tiles.filter (fun e => e.1 < f.tile || f.tile + d.tiles ≤ e.1)
      readers := (t.readers.map (fun e => (f.tile + e.1, e.2))).foldl (fun m e => fset 0 m e.1 e.2)
        (k.readers.filter (fun e => e.1 < f.tile || f.tile + d.tiles ≤ e.1)) })) s
  startWaves { s with teams := s.teams ++ [t] } t c f

/-- Place one team. -/
def placeOne (l : Launch) (s : State) (n : Nat) (old : Option Team) : Option State :=
  match s.code? l.code, chooseFit s l old with
  | some c, some f => some (putTeam s l n old c f)
  | _, _ => none

/-- Place teams together or not at all (R75). -/
def placeSet (s : State) (l : Launch) (xs : List (Nat × Option Team)) : Option State :=
  xs.foldl (fun r x => match r with | some s => placeOne l s x.1 x.2 | none => none) (some s)

/-! ## Records (R203 to R206) -/

/-- Teams of a grid. -/
def Launch.total (l : Launch) : Nat := if l.reject.isSome then 0 else l.gx * l.gy * l.gz

/-- A dependence is invalid (R206). -/
def depBad (q k : Nat) (d : DWord) : Bool :=
  dwn d 62 2 == 3 || (dwn d 62 2 == 1 && dwn d 56 6 == q && dwn d 0 56 > k)

/-- A field of the record is out of range, or a reserved one is not zero (R204, R205). -/
def recordBad (q k : Nat) (r : Rec) : Bool :=
  let extent (lo : Nat) : Bool := rn r lo 32 == 0 || rn r lo 32 ≥ 2 ^ 31
  rn r 864 32 != 0 || rn r 576 128 != 0 || rn r 289 31 != 0 || rn r 160 32 != 0 ||
    extent 192 || extent 224 || extent 256 || rn r 128 32 % 4 != 0 || 4096 < rn r 128 32 ||
    rn r 64 64 % 4 != 0 || rn r 0 64 % 128 != 0 ||
    (List.range 4).any (fun i => depBad q k (r.extractLsb' (320 + 64 * i) 64))

/-- The teams of the gang that starts at team n. -/
def gangSet (l : Launch) (n : Nat) : List (Nat × Option Team) := (rangeFrom n l.desc.gang).map (fun i => (i, none))

/-- A team or gang fits the idle cores of the compartment (CODE 0x04 of R205). -/
def placeable (s : State) (l : Launch) : Bool :=
  (placeSet { s with teams := [], waves := [], quads := [] } l (gangSet l 0)).isSome

/-- The launch of a record, with its rejection code. -/
def readRecord (s : State) (q : Nat) (b : BitVec 512) (k : Nat) : Launch :=
  let r : Rec := BitVec.ofNat 1024 (devNat s (recAddr b k) 128)
  let found := loadedKdesc s (qCtx b) (rn r 0 64)
  let good := match found with | some (_, x) => kdescOk x | none => false
  let l : Launch :=
    { q := q, k := k, ctx := qCtx b, comp := qComp b, prio := qPrio b, gx := rn r 192 32, gy := rn r 224 32,
      gz := rn r 256 32, irq := r.getLsbD 288, args := rn r 64 64, arglen := rn r 128 32,
      deps := (List.range 4).map (fun i => r.extractLsb' (320 + 64 * i) 64),
      desc := kdescOf (match found with | some (_, x) => x | none => 0),
      code := (match found with | some (c, _) => c.id | none => 0), reject := none, startable := false, next := 0,
      gone := 0, nfail := 0, owed := [], first := none, killed := false, esc := false, saved := [], wd := false }
  let two := recordBad q k r || (good && (l.desc.scr < l.arglen || l.gx * l.gy * l.gz % l.desc.gang != 0))
  { l with reject :=
      if two then some 2 else if !good then some 3 else if !placeable s l then some 4 else none }

/-- LAUNCH_RECORD_READ. -/
def launchRecordRead (q : Nat) (s : State) : State :=
  let b := qcb s q
  if 64 ≤ q || !qEn b || qTail b ≤ qHead b then s
  else
    let a := recAddr b (qHead b)
    let ka := rn (BitVec.ofNat 1024 (devNat s a 128)) 0 64
    let at_ := kdescLoc s (qCtx b) ka
    if a + 128 > deviceBytes then s.touch false a
    else if at_.any (fun p => sliceAsleep s (qCtx b) 0 0 ka p.2) then s
    else
      let l := readRecord s q b (qHead b)
      let s := match at_ with | some p => useLoc s false (qCtx b) 0 0 ka p.2 | none => s
      setQcb { s with launches := s.launches ++ [l] } q 64 64 (qHead b + 1)

/-! ## Dependences (R206, R207) -/

def depHolds (s : State) (d : DWord) : Bool :=
  match dwn d 62 2 with
  | 1 => dwn d 0 56 ≤ qSeq (qcb s (dwn d 56 6))
  | 2 => dwn d 0 56 ≤ engSeq s (dwn d 56 6)
  | _ => true

/-- LAUNCH_STARTABLE. -/
def launchStartable (q k : Nat) (s : State) : State :=
  match s.launch? q k with
  | none => s
  | some l =>
    if l.reject.isSome || l.startable || !l.deps.all (depHolds s) ||
        s.launches.any (fun o => o.q == q && o.k < k && o.next < o.total) then s
    else s.mapLaunch q k (fun l => { l with startable := true })

/-! ## Service (R209 to R211, R221) -/

/-- A launch with teams still to place. -/
def Launch.waiting (l : Launch) : Bool := l.startable && !l.killed && (!l.saved.isEmpty || l.next < l.total)

/-- The lowest queue above the one served last, in a circle. -/
def roundRobin (last : Option Nat) (ls : List Launch) : Option Launch :=
  let pick (xs : List Launch) : Option Launch :=
    xs.foldl (fun m l => match m with | none => some l | some x => if l.q < x.q then some l else some x) none
  match last with
  | none => pick ls
  | some q => match pick (ls.filter (fun l => q < l.q)) with | some l => some l | none => pick ls

/-- The launch served: of the highest priority, the one held for placement, or the next queue. -/
def served (s : State) : Option Launch :=
  let ls := s.launches.filter (·.waiting)
  let top := ls.foldl (fun n l => max n l.prio) 0
  let ls := ls.filter (·.prio == top)
  match flook s.stuck top with
  | some p =>
    (match ls.find? (fun l => (l.q, l.k) == p) with
     | some l => some l
     | none => roundRobin (flook s.rr top) ls)
  | none => roundRobin (flook s.rr top) ls

/-- The team is resident and not being saved. -/
def Team.stays (s : State) (t : Team) : Bool :=
  t.phase == .running || (t.phase == .placing && !s.waves.any (fun w => w.team == t.uid && w.preempt))

/-- The team leaves its cores: a save goes on, or begins with the end of its argument copy. -/
def Team.leaving (s : State) (t : Team) : Bool := t.phase == .saving || (t.phase == .placing && !t.stays s)

/-- What the launch places next: the saved teams of the first saved gang, else its next team or gang. A
gang whose save goes on is not placed yet. -/
def nextSet (s : State) (l : Launch) : Option (List (Nat × Option Team)) :=
  match l.saved with
  | [] => some (gangSet l l.next)
  | t :: _ =>
    let g := t.n / l.desc.gang
    if s.teams.any (fun o => o.lq == l.q && o.lk == l.k && o.n / l.desc.gang == g && o.leaving s) then none
    else some ((l.saved.filter (fun o => o.n / l.desc.gang == g)).map (fun o => (o.n, some o)))

/-- The state without some teams. -/
def withoutTeams (s : State) (p : Team → Bool) : State :=
  let gone := (s.teams.filter p).map (·.uid)
  { s with teams := s.teams.filter (fun t => !p t), waves := s.waves.filter (fun w => !gone.contains w.team) }

/-- Teams of one gang. -/
def sameGang (a b : Team) : Bool := a.lq == b.lq && a.lk == b.lk && a.n + b.gang == b.n + a.gang

/-- PREEMPT in every wave of a gang (R193, R75), in a team whose argument copy goes on too. -/
def preemptGang (s : State) (t : Team) : State :=
  { s with
    teams := s.teams.map (fun o => if sameGang o t ∧ o.phase = .running then { o with phase := .saving } else o)
    waves := s.waves.map (fun w =>
      if !w.retired && s.teams.any (fun o => o.uid == w.team && sameGang o t && o.stays s) then
        { w with preempt := true } else w) }

/-- Teams that may be pre-empted for a launch, in the order of R221. -/
def victims (s : State) (l : Launch) : List Team :=
  let mask := fget 0#192 s.host.bases.mask l.comp
  let ts := s.teams.filter (fun t => t.prio < l.prio && t.stays s && t.cores.any mask.getLsbD)
  let before (a b : Team) : Bool := a.prio < b.prio || (a.prio == b.prio && b.placedAt < a.placedAt)
  ts.foldl (fun acc t => acc.filter (before · t) ++ [t] ++ acc.filter (fun o => !before o t)) []

/-- Pre-empt until a placement would succeed; none while saves in progress free enough. -/
def preemptFor (s : State) (l : Launch) (xs : List (Nat × Option Team)) : List Team → State
  | [] => s
  | t :: ts =>
    if (placeSet (withoutTeams s (·.leaving s)) l xs).isSome then s
    else preemptFor (if s.teams.any (fun o => o.uid == t.uid && o.stays s) then preemptGang s t else s) l xs ts

/-- A placed team or gang leaves the launch's list. -/
def takeSet (s : State) (l : Launch) (xs : List (Nat × Option Team)) : State :=
  let s := s.mapLaunch l.q l.k (fun l =>
    if xs.any (·.2.isSome) then { l with saved := l.saved.filter (fun t => !xs.any (·.1 == t.n)) }
    else { l with next := l.next + xs.length })
  { s with rr := fput s.rr l.prio l.q, stuck := fdel s.stuck l.prio }

/-- TEAM_PLACE: place one team or gang of the served launch, or hold back equal and lower priorities and
pre-empt lower ones. -/
def teamPlace (s : State) : State :=
  if s.host.noPlace then s
  else
    match served s with
    | none => s
    | some l =>
      let s := { s with stuck := fput s.stuck l.prio (l.q, l.k) }
      match nextSet s l with
      | none => s
      | some xs =>
        match placeSet s l xs with
        | some s => takeSet s l xs
        | none => preemptFor s l xs (victims s l)

/-! ## The argument copy (R215) -/

/-- The first word of the argument block that cannot be read, with its cause. -/
def argFault (s : State) (t : Team) (args n : Nat) : Option (Cause × Nat) :=
  (List.range (n / 4)).findSome? (fun i =>
    let a := args + 4 * i
    if a / 2 ^ 60 ≠ 0 then some (.bounds, a)
    else
      match checkGeneric s ⟨t.ctx, t.core / 96, none, false⟩ a 4 .read false with
      | .ok l =>
        let ad := l.addrs s
        if anyPoison s ad then some (poisonCause s ad, a)
        else if wrongKey s t.ctx 0 0 a l then some (.check, a) else none
      | .page .. => some (.page, a)
      | .trap k _ _ => some (k, a)
      | .grow _ => some (.page, a)
      | .absent _ => none)

/-- The words of the argument block. -/
def argBytes (s : State) (t : Team) (args n : Nat) : List Byte × Option Nat :=
  (List.range (n / 4)).foldl (fun r i =>
    match checkGeneric s ⟨t.ctx, t.core / 96, none, false⟩ (args + 4 * i) 4 .read false with
    | .ok l => (r.1 ++ (l.addrs s).map s.mem.read, r.2)
    | .absent a => (r.1, some a)
    | _ => r) ([], none)

/-- A word of the argument block waits at its slice (R444, R446). -/
def argAsleep (s : State) (t : Team) (args n : Nat) : Bool :=
  (List.range (n / 4)).any (fun i =>
    match checkGeneric s ⟨t.ctx, t.core / 96, none, false⟩ (args + 4 * i) 4 .read false with
    | .ok l => sliceAsleep s t.ctx 0 0 (args + 4 * i) l
    | _ => false)

/-- The argument copy reads its words (R441). -/
def argUse (s : State) (t : Team) (args n : Nat) : State :=
  (List.range (n / 4)).foldl (fun s i =>
    match checkGeneric s ⟨t.ctx, t.core / 96, none, false⟩ (args + 4 * i) 4 .read false with
    | .ok l => useLoc s false t.ctx 0 0 (args + 4 * i) l
    | _ => s) s

/-- The waves of a team enter the active and pending sets (R56). -/
def enterWaves (s : State) (t : Team) : State :=
  let ws := s.waves.filter (fun w => w.team == t.uid && !w.retired)
  (((List.range 32).filterMap (fun n => ws.find? (·.num == n))).map (fun w => (w.qn, w.uid))).foldl (fun s p =>
    s.mapQuad p.1 (fun q =>
      if q.active.length < 8 then { q with active := q.active ++ [p.2] } else { q with pending := q.pending ++ [p.2] })) s

/-- ARG_COPY_DONE. -/
def argCopyDone (tu : Nat) (s : State) : State :=
  match s.team? tu with
  | none => s
  | some t =>
    if t.phase != .placing then s
    else
      let start (s : State) : State := s.mapTeam tu (fun x => { x with phase := if t.stays s then .running else .saving, saved := [] })
      if t.restored then start (enterWaves s t)
      else
        match s.launch? t.lq t.lk with
        | none => s
        | some l =>
          match argFault s t l.args l.arglen with
          | some _ => s
          | none =>
            if argAsleep s t l.args l.arglen then s else
            let s := argUse s t l.args l.arglen
            let (bs, bad) := argBytes s t l.args l.arglen
            let s := match bad with | some a => s.touch false a | none => s
            start (enterWaves (writeAddrs s ((List.range bs.length).map t.spAddr) bs) t)

/-- The waves of a team that has not run are freed. -/
def failPlacing (s : State) (t : Team) (r : FaultRec) : State := endTeam s t.uid r false

/-- ARG_COPY_FAULT. -/
def argCopyFault (tu : Nat) (k : Cause) (s : State) : State :=
  match s.team? tu with
  | none => s
  | some t =>
    if t.phase != .placing || t.restored then s
    else
      match s.launch? t.lq t.lk with
      | none => s
      | some l =>
        match argFault s t l.args l.arglen with
        | some (c, a) =>
          if c = k && !argAsleep s t l.args l.arglen then failPlacing s t ⟨k.word, 0, BitVec.ofNat 64 a, t.x, t.y, t.z⟩ else s
        | none => s

/-! ## FETCHW (R217) -/

/-- Write bytes of a team's scratchpad share from outside. -/
def shareWrite (s : State) (t : Team) (o : Nat) (bs : List Byte) : State :=
  let ad := (List.range bs.length).map (fun k => t.spAddr (o + k))
  noteWrite (writeAddrs s ad bs) none (fun _ => true) ad

/-- A scratchpad store that a wave issued before FETCHW has not been performed; the answer follows it (log
entry 27). -/
def mailboxBusy (s : State) (u since : Nat) : Bool :=
  match s.wave? u with
  | none => false
  | some w =>
    (w.sq ++ (s.core w.core).outs).any (fun e =>
      e.wave == u && e.id < since && e.open_.any (fun p => p.path == 2 || p.path == 3))

/-- FETCHW_ANSWER. -/
def fetchwAnswer (tu : Nat) (s : State) : State :=
  match s.team? tu with
  | none => s
  | some t =>
    match t.fetchw, s.launch? t.lq t.lk with
    | (o, u, since) :: rest, some l =>
      if mailboxBusy s u since then s
      else
        let s := s.mapTeam tu (fun t => { t with fetchw := rest })
        if l.next < l.total && !l.killed then
          let n := l.next
          let s := s.mapLaunch l.q l.k (fun l => { l with next := n + 1, gone := l.gone + 1, wd := false })
          let w (v : Nat) : List Byte := leBytes 4 (v % 2 ^ 32)
          let s := shareWrite s t o (w (n % l.gx) ++ w (n / l.gx % l.gy) ++ w (n / (l.gx * l.gy)))
          shareWrite s t (o + 12) (w 1)
        else shareWrite s t (o + 12) (leBytes 4 2)
    | _, _ => s

/-! ## Taking PREEMPT, and the save (R193 to R196) -/

/-- The cause of a parked sub-wave is an after cause: %epc is the word behind the raising one (R173). -/
def Parked.late (p : Parked) : Bool := !p.byPark && (p.cause.getLsbD 7 || p.cause.getLsbD 10 || p.cause.getLsbD 12)

/-- Parked sub-waves whose cause has not been delivered go back to the word that raised it; an ENGINE
cause waits again (R193). A sub-wave that PARK made keeps its LPC (R388). -/
def unpark (w : Wave) : Wave :=
  let w' := w.parkq.foldl (fun w p =>
    if p.async then
      { w with engine := (match lowest p.lanes with | some l => (w.thread l).tval | none => 0) :: w.engine }
    else w.mapLanes p.lanes (fun _ t => if p.late then { t with pc := p.epc - 8 } else t)) w
  { w' with parkq := [] }

/-- PREEMPT stops a wave at its boundary: an open transaction aborts, and no thread issues until the save
begins (R189, R193 steps 1 and 2). -/
def preemptStop (s : State) (u : Nat) : State :=
  match s.wave? u with
  | none => s
  | some w =>
    if !w.retired && preemptFree s w && w.members != 0 then
      s.mapWave u (fun w => abortTx w w.members 7 0)
    else s

/-- The description of a vector long instruction (R191, R192). -/
def longSem : Instr → Option Sem
  | .ldg f => some (semLdg f)
  | .stg f => some (semStg f)
  | .fsumv f => some (semFsumv f)
  | .lxrd f => some (semLxrd f)
  | _ => none

/-- The wave's threads of an entry that stand at a vector long instruction begin it and stop at a boundary; none
where it cannot begin in all of them, or is not begun at all. -/
def stopEntry (s : State) (w : Wave) (n : Nat) (e : Entry) : Option State :=
  let ps := e.parts.filter (·.wave == w.uid)
  match longSem (fetch s e.key).2 with
  | none => none
  | some m =>
    if ps.isEmpty then none
    else
      let i := { issueOf s w.qn n { e with parts := ps } with cut := some s.now }
      let t := { issueFull m { s with cur := some i } with cur := none }
      match t.wave? w.uid with
      | none => none
      | some v =>
        if v.progKind == 1 && v.parkq.length == w.parkq.length && ps.all (fun p => (lanesOf p.mask).all (fun l =>
            (v.thread l).wait == .none)) then some t else none

/-- Step 4 of R193: a vector long instruction that the wave has begun stops (R192). -/
def stepFour (s : State) (w : Wave) : Option State :=
  if w.retired || !preemptFree s w || w.kettle.isOpen || w.progKind == 1 then none
  else (s.quad w.qn).table.findSome? (fun x => stopEntry s w x.1 x.2)

/-- The wave has come to the end of step 5 of R193: its counters are 0 and every matrix operation of it that is
being performed has a boundary to stop at (R192). -/
def stepFive (s : State) (w : Wave) : Bool :=
  !w.retired && preemptFree s w && !w.kettle.isOpen && (stepFour s w).isNone && w.cnt.ldq == 0 && w.cnt.stq == 0 && w.cnt.syq == 0 &&
    w.cnt.tlq == 0 && w.cnt.enq == 0 &&
    !(s.quad w.qn).mx.ops.any (fun o => o.wave == w.uid && o.result.isSome && (mxStops s o).isEmpty)

/-- A store or reduction on path 3 of the gang, of a retired wave too, is not performed (R339). -/
def gangStoring (s : State) (t : Team) : Bool :=
  s.teams.any (fun o => sameGang o t && s.waves.any (fun w => w.team == o.uid &&
    (w.sq ++ (s.core w.core).outs).any (fun e => e.wave == w.uid && e.open_.any (·.path == 3))))

/-- The wave may enter the default handler for its save: every wave of its gang has come so far (R339), and no team of
the gang owes an answer to FETCHW (R217). -/
def saveReady (s : State) (w : Wave) : Bool :=
  stepFive s w &&
    (match s.team? w.team with
     | none => false
     | some t =>
       !gangStoring s t && (s.teams.filter (sameGang t)).all (fun o => o.phase != .placing && o.fetchw.isEmpty &&
         (s.waves.filter (·.team == o.uid)).all (fun v => v.retired || !v.preempt || stepFive s v)))

/-- PREEMPT_DELIVER: step 4 of R193, or once every step before it is done, step 6. -/
def preemptDeliver (u : Nat) (s : State) : State :=
  match s.wave? u with
  | none => s
  | some w =>
    match stepFour s w with
    | some t => t
    | none =>
    if !saveReady s w then s
    else
      let s := s.mapWave u unpark
      let s := mxSuspend s u
      let s := s.mapWave u (fun w =>
        parkLanes { w with preempt := false } ⟨w.alive, Cause.preempt.word, 0, false, true, false⟩ [])
      deliver s u

/-! ## Retirement of teams (R63, R193, R398) -/

/-- A byte of the team's scratchpad share. -/
def inShare (t : Team) (a : Nat) : Bool :=
  t.cores.zipIdx.any (fun c =>
    let b := poolAddr c.1 (t.spBase.getD c.2 0)
    b ≤ a && a < b + t.spSize)

/-- A path 3 load of a wave whose team has gone still reads the share. -/
def goneReads (s : State) (t : Team) : Bool :=
  s.waves.any (fun w => (s.team? w.team).isNone && w.flights.any (fun f => f.jobs.any (fun j =>
    j.path == 3 && !j.held && !j.performed && (match j.src with | .mem l _ => (l.addrs s).any (inShare t) | _ => false))))

/-- A path 3 access of a wave of the gang to the team's share has passed its check and is not performed (R339). -/
def shareAwaited (s : State) (t : Team) : Bool :=
  let here (va : Nat) : Bool := va / 2 ^ 32 % 16 == t.gang
  let part (p : StPart) : Bool := p.path == 3 && !p.done && here p.va
  goneReads s t ||
  s.teams.any (fun o => sameGang o t && s.waves.any (fun w => w.team == o.uid &&
    (w.flights.any (fun f => f.jobs.any (fun j => j.path == 3 && j.isRead && !j.held && !j.performed && here j.va)) ||
     w.sq.any (fun e => e.parts.any part) || w.kettle.buf.any part ||
     (s.core w.core).outs.any (fun e => e.wave == w.uid && e.parts.any part))))

/-- Every wave has retired, every store is performed at device scope, and no transfer, matrix operation or
FETCHW answer of the team is outstanding. -/
def teamDone (s : State) (t : Team) : Bool :=
  t.phase != .placing && t.fetchw.isEmpty && !shareAwaited s t &&
    (s.waves.filter (·.team == t.uid)).all (fun w => w.retired && w.sq.isEmpty) &&
    t.cores.all (fun c =>
      !(s.core c).outs.any (fun e => s.waves.any (fun w => w.uid == e.wave && w.team == t.uid)) &&
      !(s.core c).xfers.any (·.team == t.uid) &&
      (List.range 4).all (fun q => !(s.quad (c * 4 + q)).mx.ops.any (·.team == t.uid)))

/-- Some wave of the team has been saved. -/
def teamSaved (s : State) (t : Team) : Bool :=
  t.phase == .saving && s.waves.any (fun w => w.team == t.uid && w.freed)

/-- Holders of the team's reservations, by wave number. -/
def holdersOf (s : State) (t : Team) : List Nat :=
  (t.cores.map (fun c => ((List.range 4).filterMap (fun q =>
    match (s.quad (c * 4 + q)).mx.holder with
    | some h => if h.1 == t.uid then some h.2 else none
    | none => none)))).flatten

/-- A wave of a team that has gone: kept, without a team, while writes to its registers are in flight (R73). -/
def dropWaves (s : State) (tu : Nat) : State :=
  { s with waves := (s.waves.filter (fun w => w.team != tu || !w.flights.isEmpty)).map (fun w =>
      if w.team = tu then { w with team := 0 } else w) }

/-- A team's shares, tiles and reservations are free. -/
def freeTeam (s : State) (t : Team) : State :=
  let s := t.cores.foldl (fun s c =>
    let s := s.mapCore c (fun k => { k with
      tiles := k.tiles.filter (fun e => e.1 < t.tileBase || t.tileBase + t.desc.tiles ≤ e.1)
      readers := k.readers.filter (fun e => e.1 < t.tileBase || t.tileBase + t.desc.tiles ≤ e.1) })
    (List.range 4).foldl (fun s q => s.mapQuad (c * 4 + q) (fun k =>
      match k.mx.holder with
      | some h => if h.1 = t.uid then { k with mx := { k.mx with holder := none } } else k
      | none => k)) s) s
  dropWaves { s with teams := s.teams.filter (·.uid != t.uid) } t.uid

/-- TEAM_RETIRE: the team leaves its cores, as retired or as saved. The record of its reservations is kept where its
descriptor has UMX (R216), and stores that the host or a peer has not acknowledged are owed by the launch (R171). -/
def teamRetire (tu : Nat) (s : State) : State :=
  match s.team? tu with
  | none => s
  | some t =>
    if !teamDone s t then s
    else
      let saved := teamSaved s t
      let rs := ((s.core t.core).readers.filter (fun e => t.tileBase ≤ e.1 && e.1 < t.tileBase + t.desc.tiles)).map
        (fun e => (e.1 - t.tileBase, e.2))
      let keep : Team := { t with holders := if t.desc.umx then t.holders ++ holdersOf s t else [], readers := rs }
      let owed := (t.cores.map (fun c => ((s.core c).egress.filter (fun e =>
        s.waves.any (fun w => w.uid == e.wave && w.team == t.uid))).map (·.id))).flatten
      let s := freeTeam s t
      s.mapLaunch t.lq t.lk (fun l =>
        let l := { l with owed := l.owed ++ owed }
        if !saved then { l with gone := l.gone + 1, wd := false }
        else if l.killed then { l with gone := l.gone + 1 }
        else { l with saved := l.saved ++ [keep] })

/-! ## Kill (R179, R220, R196) -/

/-- KILL in the resident teams that a test chooses. -/
def killTeams (s : State) (p : Team → Bool) (esc : Bool) : State :=
  let us := (s.teams.filter p).map (·.uid)
  { s with waves := s.waves.map (fun w =>
      if !w.retired && us.contains w.team then { w with kill := true, killEsc := w.killEsc || esc } else w) }

/-- A launch that has been read and has not completed is killed: no further team is placed, and its saved
teams fail (R220). An escalation shows in its fault record (R450). -/
def killLaunch (esc : Bool) (s : State) (l : Launch) : State :=
  if l.reject.isSome then s
  else
    let r : FaultRec := ⟨Cause.kill.word ||| (if esc then Cause.uncorr.word else 0), 0, 0, 0, 0, 0⟩
    let s := s.mapLaunch l.q l.k (fun l => { l with
      killed := true, esc := l.esc || esc, gone := l.gone + (l.total - l.next) + l.saved.length, next := l.total, saved := []
      nfail := l.nfail + l.saved.length
      first := match l.first, l.saved with
        | some x, _ => some x
        | none, t :: _ => some { r with x := t.x, y := t.y, z := t.z }
        | none, [] => none })
    killTeams s (fun t => t.lq == l.q && t.lk == l.k) esc

/-- LAUNCH_KILL. -/
def launchKill (q k : Nat) (s : State) : State :=
  match s.launch? q k with
  | some l => killLaunch false s l
  | none => s

/-- SAVE_TIMEOUT_KILL. -/
def saveTimeoutKill (tu : Nat) (s : State) : State :=
  killTeams s (fun t => t.uid == tu && t.phase == .saving) false

/-- KILL_DELIVER: an open transaction aborts and the team ends (R189, R179). -/
def killDeliver (tu : Nat) (s : State) : State :=
  match s.team? tu with
  | none => s
  | some t =>
    let ws := s.waves.filter (fun w => w.team == tu && w.kill && !w.retired)
    if ws.isEmpty then s else endTeam s tu (killRecord t (ws.any (·.killEsc))) true

/-! ## Completion (R218, R219) -/

/-- Every team has retired or been withdrawn, and every store of theirs is performed at system scope: the status word
is written as a release (R171, R218). -/
def Launch.over (s : State) (l : Launch) : Bool :=
  !s.cores.any (fun c => c.2.egress.any (fun e => l.owed.contains e.id)) &&
  l.total ≤ l.next && l.total ≤ l.gone && l.saved.isEmpty && !s.teams.any (fun t => t.lq == l.q && t.lk == l.k)

def Launch.status (l : Launch) : Nat :=
  let code := match l.reject with
    | some c => c
    | none => if l.killed then 6 else if l.nfail ≠ 0 then 5 else 1
  l.k % 2 ^ 32 * 2 ^ 32 + (if l.reject.isSome then 0 else min l.nfail 65535) * 2 ^ 16 + code

/-- The fault record that completion writes: that of the first team to fail (R220), with FCAUSE bits 20 and 15 where a
lost granule has killed the launch (R450, log entry 38). -/
def Launch.record (l : Launch) : Option FaultRec :=
  if l.esc then
    let r := l.first.getD ⟨0, 0, 0, 0, 0, 0⟩
    some { r with cause := r.cause ||| Cause.kill.word ||| Cause.uncorr.word }
  else l.first

/-- The fault fields of a launch record (R204). -/
def putFault (s : State) (a : Nat) (r : FaultRec) : State :=
  let s := agentWrite s (a + 88) 12 (r.x % 2 ^ 32 + r.y % 2 ^ 32 * 2 ^ 32 + r.z % 2 ^ 32 * 2 ^ 64)
  let s := agentWrite s (a + 100) 8 (r.cause.toNat + r.epc.toNat * 2 ^ 32)
  agentWrite s (a + 112) 8 r.tval.toNat

/-- The lowest record of a queue that has been read and has not completed. -/
def firstLaunch (s : State) (q : Nat) : Option Launch :=
  (s.launches.filter (·.q == q)).foldl (fun m l =>
    match m with | none => some l | some x => if l.k < x.k then some l else some x) none

/-- LAUNCH_COMPLETE: status, sequence and interrupt. -/
def launchComplete (q : Nat) (s : State) : State :=
  match firstLaunch s q with
  | none => s
  | some l =>
    if !l.over s then s
    else
      let a := recAddr (qcb s q) l.k
      let s := match l.record with | some r => if l.reject.isNone then putFault s a r else s | none => s
      let s := agentWrite s (a + 120) 8 l.status
      let s := setQcb s q 192 64 (qSeq (qcb s q) + 1)
      let s := if l.irq then { s with host := { s.host with irqs := s.host.irqs ++ [(l.q, l.k)] } } else s
      { s with launches := s.launches.filter (fun o => !(o.q == l.q && o.k == l.k)) }

/-! ## The watchdog (R222) -/

/-- WATCHDOG_EXPIRE. -/
def watchdogExpire (q k : Nat) (s : State) : State :=
  match s.launch? q k with
  | none => s
  | some l =>
    if l.wd || qWdog (qcb s q) = 0 || !s.teams.any (fun t => t.lq == q && t.lk == k) then s
    else
      let s := setQcb s q 320 1 1
      let s := s.mapLaunch q k (fun l => { l with wd := true })
      { s with host := { s.host with errIrqs := s.host.errIrqs + 1 } }

def execLaunchDoorbell (q : Nat) (tail : DWord) (s : State) : Out := finish (launchDoorbell q tail s)
def execLaunchRecordRead (q : Nat) (s : State) : Out := finish (launchRecordRead q s)
def execLaunchStartable (q k : Nat) (s : State) : Out := finish (launchStartable q k s)
def execTeamPlace (s : State) : Out := finish (teamPlace s)
def execArgCopyDone (team : Nat) (s : State) : Out := finish (argCopyDone team s)
def execArgCopyFault (team : Nat) (cause : Cause) (s : State) : Out := finish (argCopyFault team cause s)
def execFetchwAnswer (team : Nat) (s : State) : Out := finish (fetchwAnswer team s)
def execPreemptDeliver (wave : Nat) (s : State) : Out := finish (preemptDeliver wave s)
def execSaveTimeoutKill (team : Nat) (s : State) : Out := finish (saveTimeoutKill team s)
def execLaunchKill (q k : Nat) (s : State) : Out := finish (launchKill q k s)
def execKillDeliver (team : Nat) (s : State) : Out := finish (killDeliver team s)
def execTeamRetire (team : Nat) (s : State) : Out := finish (teamRetire team s)
def execLaunchComplete (q : Nat) (s : State) : Out := finish (launchComplete q s)
def execWatchdogExpire (q k : Nat) (s : State) : Out := finish (watchdogExpire q k s)

end Sys2Proof.Machine
end

