-- ==== Sys2Proof/Machine/Outside.lean ====
section
/-!
DEFINITION. The device and what surrounds it: shoot-downs and fencing (R198, R199), peers and links (R460,
R461), refresh, back-off and self-refresh (R441 to R446), uncorrectable errors (R448 to R450), clocks (R37),
keys (R452, R455), attestation (R457), registers (R454), resets and bring-up (R462, R463).
-/
namespace Sys2Proof.Machine

/-- The host ports are up (R463). -/
def hostUp (s : State) : Bool := s.host.boot == .normal

/-! ## Shoot-downs (R198, R447) -/

/-- A request of the wave named no later than `id` waits at its slice: what stands behind it in the core waits with
it. -/
def sleepsBefore (s : State) (w : Wave) (id : Nat) : Bool :=
  w.flights.any (fun f => f.id ≤ id && f.jobs.any (fun j => j.isRead && !j.held && !j.performed && jobAsleep s w f.id j false)) ||
  (s.core w.core).outs.any (fun e => e.wave == w.uid && e.id ≤ id && e.open_.any (partAsleep s e)) ||
  (s.core w.core).xfers.any (fun x => x.wave == w.uid && x.id ≤ id && xferAsleep s w.core x)

/-- A core has no access under way that was translated through the page: a request that waits at a slice in
self-refresh counts as complete, and so does what waits in the core behind one (R447), a store to a read-duplicated page waits for the count (R200), and one
that a transaction holds is complete when the transaction has ended. -/
def coreQuiet (s : State) (core ctx lo n : Nat) : Bool :=
  let inPage (path va : Nat) : Bool := (path == 0 || path == 4 || path == 6) && lo ≤ va % 2 ^ 57 && va % 2 ^ 57 < lo + n
  let ws := s.waves.filter (fun w => w.core == core && waveCtx s w == ctx)
  ws.all (fun w =>
    w.flights.all (fun f => f.jobs.all (fun j =>
      !(j.isRead && !j.held && !j.performed && inPage j.path j.va) || jobAsleep s w f.id j false || sleepsBefore s w f.id)) &&
    w.sq.all (fun e => e.parts.all (fun p => !inPage p.path p.va || p.waits || p.done || p.shared) || sleepsBefore s w e.id) &&
    (w.kettle.buf.all (fun p => !inPage p.path p.va || p.shared) || sleepsBefore s w s.nextId)) &&
  (s.core core).outs.all (fun e =>
    (ws.filter (·.uid == e.wave)).all (fun w =>
      e.open_.all (fun p => !inPage p.path p.va || partAsleep s e p) || sleepsBefore s w e.id))

def shootOf (s : State) (id : Nat) : Option Shoot := s.shoots.find? (·.id == id)
def mapShoot (s : State) (id : Nat) (f : Shoot → Shoot) : State :=
  { s with shoots := s.shoots.map (fun x => if x.id = id then f x else x) }

/-- SHOOTDOWN_RECEIVE: a member has invalidated its copies and completed its accesses. -/
def shootdownReceive (id m : Nat) (s : State) : State :=
  match shootOf s id with
  | none => s
  | some x =>
    let (lo, n) := pageAround s x.ctx x.va
    if !x.toReceive.contains m || (m < 192 && !coreQuiet s m x.ctx lo n) then s
    else
      let s := mapShoot s id (fun x => { x with toReceive := x.toReceive.filter (· != m) })
      if m < 192 then conflictPage s x.ctx lo n (· == m) else s

/-- A shoot-down whose members are all counted is complete: the threads that wait for it go on (R391). -/
def endShoot (s : State) (id : Nat) : State :=
  match shootOf s id with
  | none => s
  | some x =>
    if !x.toCount.isEmpty then s
    else
      let s := { s with shoots := s.shoots.filter (·.id != id) }
      releaseWaits s (s.waves.map (·.uid)) (fun w => w == .shoot id)

/-- SHOOTDOWN_ACK. -/
def shootdownAck (id m : Nat) (s : State) : State :=
  match shootOf s id with
  | none => s
  | some x =>
    if x.toReceive.contains m || !x.toCount.contains m then s
    else endShoot (mapShoot s id (fun x => { x with toCount := x.toCount.filter (· != m) })) id

/-! ## Fencing (R199) -/

/-- A path 7 access to a device. -/
def toPeer (d path va : Nat) : Bool := path == 7 && va / 2 ^ 52 % 64 == d

/-- Loads outstanding to a device fail with UNCORR. -/
def fenceLoads (s : State) (d : Nat) : State :=
  { s with waves := s.waves.map (fun w => { w with flights := w.flights.map (fun f =>
      { f with jobs := f.jobs.map (fun j =>
          if toPeer d j.path j.va && !j.performed && !j.held then { j with err := some .uncorr } else j) }) }) }

/-- Stores outstanding to a device: they count as performed and the lanes take a deferred UNCORR. -/
def fenceEntry (d : Nat) (s : State) (e : StEntry) : State :=
  (e.parts.filter (fun p => toPeer d p.path p.va && !p.waits)).foldl (fun s p =>
    deferLane s e.wave p.lane .uncorr e.pc (BitVec.ofNat 64 p.va)) s

/-- Parts to a device stand as done. -/
def fenceParts (d : Nat) (e : StEntry) : StEntry :=
  { e with parts := e.parts.map (fun p =>
      if toPeer d p.path p.va && !p.waits then { p with loc := .bytes [] .plain, done := true } else p) }

def fenceStores (s : State) (d : Nat) : State :=
  let s : State := ((s.waves.map (·.sq)).flatten).foldl (fenceEntry d) s
  let s : State := { s with waves := s.waves.map (fun w => { w with sq := w.sq.map (fenceParts d) }) }
  (s.cores.map (·.1)).foldl (fun s c =>
    let k := s.core c
    let s := (k.outs ++ k.egress).foldl (fenceEntry d) s
    let s := s.mapCore c (fun k => { k with outs := k.outs.map (fenceParts d) })
    let s := (k.outs.map (·.id)).foldl (fun s id => finishEntry s c id) s
    let ended (e : StEntry) : Bool := e.parts.any (fun p => toPeer d p.path p.va) &&
      e.parts.all (fun p => toPeer d p.path p.va || !(p.path == 6 || p.path == 7))
    ((s.core c).egress.filter ended).foldl (fun s e => ackEntry s c e.id) s) s

/-- FENCE_TIMEOUT: a silent device is fenced, and counted in every shoot-down. -/
def fenceTimeout (id m : Nat) (s : State) : State :=
  match shootOf s id with
  | none => s
  | some x =>
    if !x.toCount.contains m || m < 256 then s
    else
      let d := m - 256
      let s : State := { s with fenced := if s.fenced.contains d then s.fenced else s.fenced ++ [d] }
      let s : State := fenceStores (fenceLoads s d) d
      let s : State := { s with shoots := s.shoots.map (fun x =>
        { x with toReceive := x.toReceive.filter (· != m), toCount := x.toCount.filter (· != m) }) }
      (s.shoots.map (·.id)).foldl endShoot s

/-! ## Peers and links (R460, R461) -/

/-- The rights that a request needs, and whether it writes. -/
def peerWant : PeerAct → Want
  | .read => .read
  | .write _ => .write
  | .atomic .. => .atomic

/-- A request of another device acts at its location, and ends so; an atomic on lost bytes writes nothing (R450). -/
def peerAct (s : State) (size : Nat) (l : Loc) (a : PeerAct) : State × PeerEnd :=
  let put (bs : List Byte) : State := noteWrite (writeLoc s l bs) none (fun _ => true) (l.addrs s)
  let (bs, bad) := rawBytes s l
  let end_ : PeerEnd := if bad then .poisoned else .done (BitVec.ofNat 128 (leNat bs))
  match a with
  | .read => (s, end_)
  | .write v => (put (leBytes size v.toNat), .done 0)
  | .atomic ty op v cmp =>
    (if bad then s else put (leBytes size (atomicNew ty op.toNat (leNat bs) v.toNat cmp.toNat)), end_)

/-- The request is one that this device serves. -/
def peerServed (s : State) (r : PeerReq) : Bool :=
  s.domain.contains r.device && !s.fenced.contains r.device && r.device != s.devId && r.size != 0 && r.va % r.size == 0 &&
    (match r.act with | .atomic ty .. => ty.esize == r.size && (r.size == 4 || r.size == 8) | _ => true)

/-- The reply of this device to a request leaves on the port of the requester's route (R460). -/
def peerReply (r : PeerReq) (s : State) (e : PeerEnd) : State := sendFlit s r.device (.reply s.devId r e)

/-- PEER_REQUEST: a request of another device is translated here and served; a refusal goes back to it. -/
def peerRequest (r : PeerReq) (s : State) : State :=
  let va := r.va % 2 ^ 52
  if r.device == s.devId then s
  else if !peerServed s r then peerReply r s .refused
  else
    match checkVirtual s r.ctx 0 r.va va r.size (peerWant r.act) with
    | .ok l =>
      if sliceAsleep s r.ctx 0 0 va l then s
      else
        let (s, e) := peerAct (useLoc s (peerWant r.act != .read) r.ctx 0 0 va l) r.size l r.act
        peerReply r s e
    | .absent a => s.touch false a
    | _ => peerReply r s .refused

/-- The reply to a request of this device (R460): a read's bytes become what this device finds in its window of the
peer, poisoned bytes are lost (R450), and a refusal stands until the driver has resolved it (log entry 85). -/
def peerAnswer (target : Nat) (r : PeerReq) (e : PeerEnd) (s : State) : State :=
  let ad := rangeFrom (peerAddr target r.ctx r.va) r.size
  if r.device != s.devId then s
  else
    match e, r.act with
    | .done v, .read => writeAddrs s ad (leBytes r.size v.toNat)
    | .done _, _ => s
    | .poisoned, _ => markBytes s ad .uncorr
    | .refused, _ => { s with refused := s.refused ++ [(target, r.ctx, r.va / 65536)] }

/-- What a flit that has been delivered does. -/
def takeFlit (x : Flit) (s : State) : State :=
  match x with
  | .request r => peerRequest r s
  | .reply target r e => peerAnswer target r e s
  | .ack core id => ackEntry s core id
  | .token comp idx slice src => lapDoneToken comp idx slice src s

/-- LINK_FLIT_RECEIVE: a flit is delivered once, in its order; a bad one comes again from the sender's buffer, and one
that has been accepted already is discarded. -/
def linkFlitReceive (port seq : Nat) (crcOk : Bool) (payload : Flit) (s : State) : State :=
  let l := fget Link.reset s.links port
  if port < 12 && crcOk && seq == l.next then
    takeFlit payload { s with links := fput s.links port { l with next := l.next + 1, delivered := l.delivered ++ [payload] } }
  else s

/-! ## Refresh (R441 to R446) -/

/-- Some lines of a location lie in the bank. -/
def reachesBank (s : State) (n bank ctx die path va : Nat) (l : Loc) : Bool :=
  let home : Nat → Home := homeOf s ctx die path va l
  (deviceLines s l).any (fun line => (home line).slice == some n && Config.bankOf (rowOf line) == bank)

/-- Requests to the bank wait (R442): reads not performed, stores past their order point, admitted Steppe entries. -/
def bankWanted (s : State) (n bank : Nat) : Bool :=
  s.waves.any (fun w => w.flights.any (fun f => f.jobs.any (fun j =>
    j.isRead && !j.held && !j.performed &&
      (match j.src with | .mem l _ => reachesBank s n bank (waveCtx s w) (w.core / 96) j.path j.va l | _ => false)))) ||
  s.cores.any (fun c => c.2.outs.any (fun e => e.open_.any (fun p =>
    reachesBank s n bank (match s.wave? e.wave with | some w => waveCtx s w | none => 0) (c.1 / 96) p.path p.va p.loc))) ||
  (s.slice n).admitted.any (fun q => Config.bankOf (rowOf (lineOf (dPbase (regionDesc s q.comp q.idx) +
    elemGranule (regionDesc s q.comp q.idx) q.co * 1024))) == bank)

/-- The refresh number k of a bank sets the counters of the rows that it covers to 0 (R441). -/
def refreshRows (k bank : Nat) (acts : FMap Nat) : FMap Nat :=
  acts.filter (fun e => !(Config.bankOf e.1 == bank && Config.refreshed k e.1))

/-- The refreshes of one moment are numbered from 8 times the time on: a window issues up to eight (R443). -/
def refreshes (now bank n : Nat) (acts : FMap Nat) : FMap Nat :=
  (List.range n).foldl (fun m i => refreshRows (8 * now + i) bank m) acts

/-- REFRESH_DUE: a refresh is postponed while requests to the bank wait and debt is below 8, or issued. -/
def refreshDue (n bank : Nat) (postpone : Bool) (s : State) : State :=
  let d := fget 0 (s.slice n).debt bank
  if 384 ≤ n || (s.slice n).selfRefresh then s
  else if postpone && d < 8 && bankWanted s n bank then s.mapSlice n (fun z => { z with debt := fset 0 z.debt bank (d + 1) })
  else s.mapSlice n (fun z => { z with acts := refreshes s.now bank 1 z.acts })

/-- REFRESH_REPAY: an idle bank repays one postponed refresh. -/
def refreshRepay (n bank : Nat) (s : State) : State :=
  let d := fget 0 (s.slice n).debt bank
  if (s.slice n).selfRefresh || d = 0 || (flook (s.slice n).windows bank).isSome || bankWanted s n bank then s
  else s.mapSlice n (fun z => { z with debt := fset 0 z.debt bank (d - 1), acts := refreshes s.now bank 1 z.acts })

/-- The counter of a row of a bank has come to the threshold. -/
def alertDue (z : Slice) (bank row : Nat) : Bool :=
  z.acts.any (fun e => threshold ≤ e.2 && Config.bankOf e.1 == bank && Config.rowIn e.1 == row)

/-- ROW_ALERT: step 1 of the back-off window (R443). -/
def rowAlert (n bank row rows : Nat) (s : State) : State :=
  let z := s.slice n
  if 384 ≤ n || z.selfRefresh || rows ≤ row || (flook z.windows bank).isSome || !alertDue z bank row then s
  else
    s.mapSlice n (fun z =>
      let full := fget 0 z.debt bank == 8
      { z with
        alerts := (z.alerts + 1) % 2 ^ 32
        paid := if full then (z.paid + 1) % 2 ^ 16 else z.paid
        debt := if full then fset 0 z.debt bank 0 else z.debt
        acts := if full then refreshes s.now bank 8 z.acts else z.acts
        windows := fput z.windows bank (row, rows) })

/-- The rows whose counters a window sets to 0: the victims in their order, then the alerting row. -/
def windowRows (row rows : Nat) : List Nat :=
  (if 1 ≤ row then [row - 1] else []) ++ (if row + 1 < rows then [row + 1] else []) ++
    (if 2 ≤ row then [row - 2] else []) ++ (if row + 2 < rows then [row + 2] else []) ++ [row]

/-- Counters of rows of a bank become 0. -/
def resetRows (bank : Nat) (rows : List Nat) (acts : FMap Nat) : FMap Nat :=
  acts.filter (fun e => !(Config.bankOf e.1 == bank && rows.contains (Config.rowIn e.1)))

/-- BACKOFF_END: steps 2 and 3. A slice in self-refresh issues no command (R446). -/
def backoffEnd (n bank : Nat) (s : State) : State :=
  match flook (s.slice n).windows bank with
  | none => s
  | some (row, rows) =>
    if (s.slice n).selfRefresh then s
    else s.mapSlice n (fun z => { z with windows := fdel z.windows bank, acts := resetRows bank (windowRows row rows) z.acts })

/-- The slices of a stack. -/
def stackSlices (k : Nat) : List Nat := if k < 12 then rangeFrom (32 * k) 32 else []

/-- SELF_REFRESH_ENTER. -/
def selfRefreshEnter (k : Nat) (s : State) : State :=
  (stackSlices k).foldl (fun s n => s.mapSlice n (fun z => { z with selfRefresh := true })) s

/-- SELF_REFRESH_EXIT: every debt and every activation counter is 0. -/
def selfRefreshExit (k : Nat) (s : State) : State :=
  (stackSlices k).foldl (fun s n =>
    if (s.slice n).selfRefresh then s.mapSlice n (fun z => { z with selfRefresh := false, debt := [], acts := [] }) else s) s

/-! ## Uncorrectable errors (R449, R450) -/

/-- How wide an error is escalated. -/
inductive Level where
  | team | context (ctx : Nat) | compartment (comp : Nat) | device
deriving DecidableEq, Repr

def errLevel (s : State) (e : ErrSite) : Level :=
  match e.owner with
  | .team _ => .team
  | .deviceStructure => .device
  | .buffer comp idx =>
    let d := descOf s comp idx
    if !e.writeBack || e.carry then .team else if dShr d then .compartment (dComp d) else .context (dCtx d)

/-- KILL in the teams, and the end of the launches, that a test chooses. -/
def escalate (s : State) (teams : Team → Bool) (launches : Launch → Bool) : State :=
  let s := (s.launches.filter launches).foldl (killLaunch true) s
  let s := killTeams s teams true
  { s with host := { s.host with errIrqs := s.host.errIrqs + 1 } }

/-- A granule is lost: it is poisoned and the level's effects follow (R449, R450). -/
def loseGranule (e : ErrSite) (s : State) : State :=
  let s' := markBytes s (rangeFrom (64 * e.granule) 64) (if e.carry then .check else .uncorr)
  match errLevel s e with
  | .team => s'
  | .context c => escalate s' (·.ctx == c) (·.ctx == c)
  | .compartment c => escalate s' (·.comp == c) (·.comp == c)
  | .device =>
    let s := escalate s' (fun _ => true) (fun _ => true)
    { s with host := { s.host with noPlace := true, fatal := true } }

/-- UNCORRECTABLE_ERROR: a clean line of an L1 or a slice cache is dropped, to be read again (R448); no row that is dead
is read (R445), nor one whose granule a slice cache holds. -/
def uncorrectableError (e : ErrSite) (s : State) : State :=
  match e.place with
  | .l1 c => s.mapCore c (fun k => { k with l1 := fdel k.l1 e.granule })
  | .slice =>
    match holderOf s e.granule with
    | some n =>
      if ((flook (s.slice n).cache e.granule).map (·.dirty)).getD false then loseGranule e s
      else s.mapSlice n (fun z => { z with cache := fdel z.cache e.granule })
    | none => s
  | .store =>
    if 64 * e.granule < deviceBytes && (!rowLive s (rowOf e.granule) || (holderOf s e.granule).isSome) then s
    else loseGranule e s

/-! ## Clocks (R37) -/

/-- The arithmetic clock of a die, in MHz: 850 where nothing lowers it. -/
def clockOf (s : State) (die : Nat) : Nat := fget 850 s.clocks die

/-- CLOCK_LOWER. -/
def clockLower (die mhz : Nat) (s : State) : State :=
  if die < 2 && mhz < clockOf s die then { s with clocks := fset 850 s.clocks die mhz } else s
/-- CLOCK_RAISE: never above 850 MHz. -/
def clockRaise (die mhz : Nat) (s : State) : State :=
  if die < 2 && clockOf s die < mhz && mhz ≤ 850 then { s with clocks := fset 850 s.clocks die mhz } else s

/-! ## Keys (R452, R455) -/

/-- Numbers of the records of a table that hold a byte other than zero. -/
def filled (s : State) (base size n : Nat) : List Nat :=
  ((s.mem.filter (fun c => base ≤ c.1 && c.1 < base + size * n)).map (fun c => (c.1 - base) / size)).eraseDups

/-- The valid leaves below a table. -/
def leavesFrom (s : State) : List (Nat × Nat × Nat) → Nat → List (BitVec 128)
  | [], _ => []
  | (lvl, _, n) :: ls, tbl =>
    ((filled s tbl 16 (2 ^ n)).map (fun i =>
      let e := BitVec.ofNat 128 (devNat s (tbl + 16 * i) 16)
      if !e.getLsbD 63 || !pteClean e then []
      else if e.getLsbD 60 then (if lvl = 4 ∨ pteNat e 61 2 ≠ lvl then [] else [e])
      else if lvl = 0 then []
      else leavesFrom s ls (pteNat e 64 48))).flatten

/-- Any valid descriptor, or any valid leaf of a context's tables, names the slot in its KEY field, whatever its ENC
(R455, log entry 41). -/
def slotNamed (s : State) (slot : Nat) : Bool :=
  let named (comp idx : Nat) : Bool :=
    match validDesc s comp idx with | some d => dKey d == slot | none => false
  (List.range 8).any (fun comp => (filled s (bufTable s comp).1 64 (bufTable s comp).2).any (named comp)) ||
    (filled s s.host.bases.ctx 16 65536).any (fun ctx =>
      (leavesFrom s walkLevels (ctxRoot s ctx)).any (fun e => pteNat e 41 10 == slot))

/-- The mailbox after a command: the fields as written, and how it ended. -/
def boxAfter (cmd : DWord) (stat : BitVec 2) (key : BitVec 512) : KeyBox :=
  { stat := stat, opk := cmd.extractLsb' 60 2, comp := dwn cmd 10 3, slot := dwn cmd 0 10, key := key }

def State.port (s : State) (n : Nat) : HostPort := fget HostPort.reset s.ports n
def State.mapPort (s : State) (n : Nat) (f : HostPort → HostPort) : State :=
  { s with ports := fset HostPort.reset s.ports n (f (s.port n)) }

def setBox (s : State) (port : Nat) (b : KeyBox) : State := s.mapPort port (fun p => { p with box := b })

/-- What the mailbox refuses whatever the operation. -/
def keyRefused (s : State) (ide : Bool) (cmd : DWord) : Bool :=
  !ide || cmd.extractLsb' 13 47 != 0 || slotNamed s (dwn cmd 0 10)

/-- KEY_LOAD: a command with OPK 01; OPK 00 and 11 are refused. -/
def keyLoad (port : Nat) (ide : Bool) (cmd : DWord) (key : BitVec 512) (s : State) : State :=
  if !hostUp s || 2 ≤ port || cmd.extractLsb' 60 2 = 2#2 then s
  else if cmd.extractLsb' 60 2 ≠ 1#2 ∨ keyRefused s ide cmd ∨ (flook s.host.keys (dwn cmd 0 10)).isSome then
    setBox s port (boxAfter cmd 2 key)
  else
    let s := setBox s port (boxAfter cmd 1 key)
    { s with host := { s.host with keys := fput s.host.keys (dwn cmd 0 10) ⟨dwn cmd 10 3, key⟩ } }

/-- KEY_CLEAR: the slot is erased and the key field zeroed. -/
def keyClear (port : Nat) (ide : Bool) (cmd : DWord) (s : State) : State :=
  if !hostUp s || 2 ≤ port || cmd.extractLsb' 60 2 ≠ 2#2 then s
  else if keyRefused s ide cmd then setBox s port (boxAfter cmd 2 (s.port port).box.key)
  else
    let s := setBox s port (boxAfter cmd 1 0)
    { s with host := { s.host with keys := fdel s.host.keys (dwn cmd 0 10) } }

/-! ## Attestation (R457) -/

/-- QUOTE_REQUEST: the answer is the digest of the nonce and the log, and its signature of 2,420 bytes. -/
def quoteRequest (port : Nat) (nonce : BitVec 256) (s : State) : State :=
  if !hostUp s || 2 ≤ port then s
  else
    let bs := leBytes 32 nonce.toNat ++ (s.host.log.map (fun e => leBytes 64 e.toNat)).flatten
    let digest := Config.sha3 bs
    s.mapPort port (fun p => { p with quote := leBytes 32 digest.toNat ++ leBytes 2420 (Config.signQuote digest).toNat })

/-- MEASUREMENT_APPEND: only entries of KIND 0x05, at the next index. -/
def measurementAppend (entry : BitVec 512) (s : State) : State :=
  if !hostUp s || dn entry 40 8 ≠ 5 || dn entry 48 16 ≠ 0 || dn entry 32 8 ≠ 0 then s
  else { s with host := { s.host with log := s.host.log ++ [dSet entry 0 32 s.host.log.length] } }

/-! ## Registers of the host function (R454) -/

/-- SLICE_STATUS_CLEAR. -/
def sliceStatusClear (n : Nat) (v : DWord) (s : State) : State :=
  if !hostUp s || 384 ≤ n then s
  else s.mapSlice n (fun z => { z with
    paid := if v.getLsbD 47 then 0 else z.paid, alerts := if v.getLsbD 31 then 0 else z.alerts })

/-- The slice status word. -/
def sliceStatus (s : State) (n : Nat) : DWord :=
  let z := s.slice n
  BitVec.ofNat 64 ((if z.selfRefresh then 2 ^ 63 else 0) + z.paid % 2 ^ 16 * 2 ^ 32 + z.alerts % 2 ^ 32)

/-- The core status block. -/
def coreStatus (s : State) (core : Nat) : BitVec 128 :=
  let idle := coreIdle s core
  let k := s.core core
  BitVec.ofNat 128 ((teamsOn s core).length % 256 * 2 ^ 40 + (if idle then 2 ^ 35 else k.comp % 8 * 2 ^ 32 + k.part.toNat))

/-- The bases that a write to the register page sets (places in the page: log entry 25). -/
def setBase (b : Bases) (o v : Nat) : Bases :=
  if o = 0 then { b with qcb := v }
  else if o = 8 then { b with eng := v }
  else if o = 16 then { b with ctx := v }
  else if 0x40 ≤ o ∧ o < 0xC0 then
    let c := (o - 0x40) / 16
    let x := fget (0, 0) b.buf c
    { b with buf := fset (0, 0) b.buf c (if o % 16 = 0 then (v, x.2) else (x.1, v)) }
  else if 0x100 ≤ o ∧ o < 0x200 then
    let c := (o - 0x100) / 32
    let k := (o - 0x100) % 32 / 8
    let m := fget 0#192 b.mask c
    if k < 3 then
      { b with mask := fset 0#192 b.mask c <|
          ((m &&& ~~~ (BitVec.ofNat 192 ((2 ^ 64 - 1) * 2 ^ (64 * k)))) ||| BitVec.ofNat 192 (v * 2 ^ (64 * k))) }
    else b
  else b

/-- REGISTER_WRITE: an 8-byte write to the register page; other bytes without behaviour ignore it. -/
def registerWrite (off : Nat) (v : DWord) (s : State) : State :=
  if hostUp s && 0x50000 ≤ off && off < 0x51000 && off % 8 == 0 then
    { s with host := { s.host with
        bases := setBase s.host.bases (off - 0x50000) v.toNat, regs := fset 0 s.host.regs off v } }
  else s

/-- The identity block: the ordering number, the public key and its certificate; the boot state is its last byte
(places: log entry 25). -/
def identityBlock (s : State) : List Byte :=
  orderingNumber.map (BitVec.ofNat 8) ++ List.replicate 7 0 ++ s.host.ident.key ++ s.host.ident.cert

/-- The key mailbox as the host reads it: the key field is write-only (R455). -/
def boxWord (b : KeyBox) : DWord :=
  BitVec.ofNat 64 (b.stat.toNat * 2 ^ 62 + b.opk.toNat * 2 ^ 60 + b.comp % 8 * 2 ^ 10 + b.slot % 1024)

/-- The quote from the start of the attestation page, the measurement log from its byte 0xA00 (places: log entry 25). -/
def attestPage (s : State) (port : Nat) : List Byte :=
  let q := (s.port port).quote
  q ++ List.replicate (0xA00 - q.length) 0 ++ (s.host.log.map (fun e => leBytes 64 e.toNat)).flatten

/-- A byte of BAR0 of a host port as a read finds it (R454); bytes not listed read as zero. -/
def bar0 (s : State) (port a : Nat) : Byte :=
  let at_ (v k : Nat) : Byte := BitVec.ofNat 8 (v / 2 ^ (8 * k))
  if a < 0x1000 then (if a = 0xFFF then (if s.host.boot = .normal then 0 else 1) else (identityBlock s).getD a 0)
  else if a < 0x1C00 then at_ (coreStatus s ((a - 0x1000) / 16)).toNat (a % 16)
  else if 0x2000 ≤ a ∧ a < 0x2C00 then at_ (sliceStatus s ((a - 0x2000) / 8)).toNat (a % 8)
  else if 0x30000 ≤ a ∧ a < 0x30008 then at_ (boxWord (s.port port).box).toNat (a - 0x30000)
  else if 0x40000 ≤ a ∧ a < 0x41000 then (attestPage s port).getD (a - 0x40000) 0
  else if 0x50000 ≤ a ∧ a < 0x51000 then at_ (fget 0 s.host.regs (a / 8 * 8)).toNat (a % 8)
  else 0

/-! ## Resets (R462, R463) -/

/-- CORE_RESET: its teams fail, stores past the order point stay, all else of the core goes. -/
def coreReset (core : Nat) (s : State) : State :=
  let ts := teamsOn s core
  let s : State := ts.foldl (fun s t => endTeam s t.uid ⟨Cause.kill.word, 0, 0, t.x, t.y, t.z⟩ true) s
  let s : State := { s with waves := s.waves.map (fun w => if w.core = core then { w with sq := [], flights := [] } else w) }
  let s := (List.range 4).foldl (fun s q =>
    s.mapQuad (core * 4 + q) (fun k => { Quad.reset with cyc := k.cyc })) s
  s.mapCore core (fun k => { k with l1 := [], xfers := [] })

/-- SLICE_RESET: it begins once every admitted Steppe entry is served and every dirty line of the slice can be written
back (R444, R446); its cache is then empty. -/
def sliceReset (n : Nat) (s : State) : State :=
  if (s.slice n).admitted.isEmpty && !writeBackShut s (fun k _ => k == n) then (s.slice n).cache.foldl (fun s x => evict s n x.1) s else s

/-- ENGINE_RESET: the entry at HEAD is taken up again from its chunk count. -/
def engineReset (e : Nat) (s : State) : State := s.mapEngine e (fun x => { x with cmd := none })

/-- LINK_RESET: nothing is lost and nothing is delivered twice; a fenced device behind the port rejoins (R199, log
entry 67). -/
def linkReset (port : Nat) (s : State) : State :=
  { s with fenced := s.fenced.filter (fun d => flook s.routes d != some port) }

/-- Bring-up with a firmware image: the measured log begins with it, every row is dead (R463). -/
def bringUp (image : Image) (s : State) : State :=
  { State.reset with
    devId := s.devId, domain := [s.devId], agenda := s.agenda, nextId := s.nextId, free := s.free, now := s.now
    host := { HostFn.reset with
      ident := s.host.ident
      log := if image.sigOk then bootLog image.digest else []
      boot := if image.sigOk then .normal else .recovery } }

/-- COLD_RESET. -/
def coldReset (image : Image) (s : State) : State := bringUp image s

/-- RECOVERY_NEW_IMAGE: in the recovery state the host port takes a new image. -/
def recoveryNewImage (image : Image) (s : State) : State :=
  if s.host.boot == .recovery then bringUp image s else s

def execShootdownReceive (id member : Nat) (s : State) : Out := finish (shootdownReceive id member s)
def execShootdownAck (id member : Nat) (s : State) : Out := finish (shootdownAck id member s)
def execFenceTimeout (id member : Nat) (s : State) : Out := finish (fenceTimeout id member s)
def execPeerRequest (r : PeerReq) (s : State) : Out := finish (peerRequest r s)
def execLinkFlitReceive (port seq : Nat) (crcOk : Bool) (payload : Flit) (s : State) : Out :=
  finish (linkFlitReceive port seq crcOk payload s)
def execRefreshDue (slice bank : Nat) (postpone : Bool) (s : State) : Out := finish (refreshDue slice bank postpone s)
def execRefreshRepay (slice bank : Nat) (s : State) : Out := finish (refreshRepay slice bank s)
def execRowAlert (slice bank row rows : Nat) (s : State) : Out := finish (rowAlert slice bank row rows s)
def execBackoffEnd (slice bank : Nat) (s : State) : Out := finish (backoffEnd slice bank s)
def execSelfRefreshEnter (stack : Nat) (s : State) : Out := finish (selfRefreshEnter stack s)
def execSelfRefreshExit (stack : Nat) (s : State) : Out := finish (selfRefreshExit stack s)
def execUncorrectableError (e : ErrSite) (s : State) : Out := finish (uncorrectableError e s)
def execClockLower (die mhz : Nat) (s : State) : Out := finish (clockLower die mhz s)
def execClockRaise (die mhz : Nat) (s : State) : Out := finish (clockRaise die mhz s)
def execKeyLoad (box : BoxWrite) (cmd : DWord) (key : BitVec 512) (s : State) : Out :=
  finish (keyLoad box.port box.ide cmd key s)
def execKeyClear (box : BoxWrite) (cmd : DWord) (s : State) : Out := finish (keyClear box.port box.ide cmd s)
def execQuoteRequest (nonce : NonceWrite) (s : State) : Out := finish (quoteRequest nonce.port nonce.nonce s)
def execMeasurementAppend (entry : BitVec 512) (s : State) : Out := finish (measurementAppend entry s)
def execSliceStatusClear (slice : Nat) (v : DWord) (s : State) : Out := finish (sliceStatusClear slice v s)
def execRegisterWrite (off : Nat) (v : DWord) (s : State) : Out := finish (registerWrite off v s)
def execCoreReset (core : Nat) (s : State) : Out := finish (coreReset core s)
def execSliceReset (slice : Nat) (s : State) : Out := finish (sliceReset slice s)
def execEngineReset (e : Nat) (s : State) : Out := finish (engineReset e s)
def execLinkReset (port : Nat) (s : State) : Out := finish (linkReset port s)
def execColdReset (image : Image) (s : State) : Out := finish (coldReset image s)
def execRecoveryNewImage (image : Image) (s : State) : Out := finish (recoveryNewImage image s)

end Sys2Proof.Machine
end

