-- ==== Sys2Proof/Machine/Table.lean ====
section
/-!
DEFINITION. The PC table, issue selection and the end of a step (R48 to R51, R56 to R62, R284).
-/
namespace Sys2Proof.Machine

/-- The description of an instruction word under the common course; a device step has none. -/
def semOf : Instr → Option Sem
  | .iadd f => some (semIadd f)
  | .isub f => some (semIsub f)
  | .imul f => some (semImul f)
  | .imulh f => some (semImulh f)
  | .imad f => some (semImad f)
  | .imin f => some (semImin f)
  | .imax f => some (semImax f)
  | .iabs f => some (semIabs f)
  | .ineg f => some (semIneg f)
  | .and f => some (semAnd f)
  | .or f => some (semOr f)
  | .xor f => some (semXor f)
  | .andn f => some (semAndn f)
  | .not f => some (semNot f)
  | .shl f => some (semShl f)
  | .shr f => some (semShr f)
  | .sar f => some (semSar f)
  | .rot f => some (semRot f)
  | .fshf f => some (semFshf f)
  | .popc f => some (semPopc f)
  | .clz f => some (semClz f)
  | .ctz f => some (semCtz f)
  | .brev f => some (semBrev f)
  | .bfx f => some (semBfx f)
  | .bfi f => some (semBfi f)
  | .lea f => some (semLea f)
  | .idot4 f => some (semIdot4 f)
  | .bpick f => some (semBpick f)
  | .fadd f => some (semFadd f)
  | .fsub f => some (semFsub f)
  | .fmul f => some (semFmul f)
  | .fma f => some (semFma f)
  | .fnma f => some (semFnma f)
  | .fdiv f => some (semFdiv f)
  | .fmin f => some (semFmin f)
  | .fmax f => some (semFmax f)
  | .fabs f => some (semFabs f)
  | .fneg f => some (semFneg f)
  | .frcp f => some (semFrcp f)
  | .frsq f => some (semFrsq f)
  | .fsqrt f => some (semFsqrt f)
  | .fexp2 f => some (semFexp2 f)
  | .flog2 f => some (semFlog2 f)
  | .fsin f => some (semFsin f)
  | .fcos f => some (semFcos f)
  | .frnd f => some (semFrnd f)
  | .fscl f => some (semFscl f)
  | .fcls f => some (semFcls f)
  | .fdot2 f => some (semFdot2 f)
  | .fsumv f => some (semFsumv f)
  | .cmul f => some (semCmul f)
  | .cfma f => some (semCfma f)
  | .cconj f => some (semCconj f)
  | .crcp f => some (semCrcp f)
  | .cvt f => some (semCvt f)
  | .srnd f => some (semSrnd f)
  | .pack f => some (semPack f)
  | .unpk f => some (semUnpk f)
  | .icmp f => some (semIcmp f)
  | .fcmp f => some (semFcmp f)
  | .sel f => some (semSel f)
  | .plog f => some (semPlog f)
  | .pmov f => some (semPmov f)
  | .vote f => some (semVote f)
  | .lxb f => some (semLxb f)
  | .lxs f => some (semLxs f)
  | .lxbc f => some (semLxbc f)
  | .lxrd f => some (semLxrd f)
  | .mov f => some (semMov f)
  | .movi f => some (semMovi f)
  | .movx f => some (semMovx f)
  | .movxw f => some (semMovxw f)
  | .setx f => some (semSetx f)
  | .gets f => some (semGets f)
  | .sets f => some (semSets f)
  | .wmov f => some (semWmov f)
  | .win f => some (semWin f)
  | .xget f => some (semXget f)
  | .xgetP f => some (semXgetP f)
  | .xrel f => some (semXrel f)
  | .tag f => some (semTag f)
  | .setf f => some (semSetf f)
  | .bra f => some (semBra f)
  | .brw f => some (semBrw f)
  | .loopw f => some (semLoopw f)
  | .brx f => some (semBrx f)
  | .call f => some (semCall f)
  | .ret f => some (semRet f)
  | .jpt f => some (semJpt f)
  | .join f => some (semJoin f)
  | .yield f => some (semYield f)
  | .exit f => some (semExit f)
  | .nop f => some (semNop f)
  | .trap f => some (semTrap f)
  | .brk f => some (semBrk f)
  | .tryTx f => some (semTry f)
  | .commit f => some (semCommit f)
  | .abort f => some (semAbort f)
  | .tstat f => some (semTstat f)
  | .ld f => some (semLd f)
  | .st f => some (semSt f)
  | .lds f => some (semLds f)
  | .sts f => some (semSts f)
  | .ldp f => some (semLdp f)
  | .stp f => some (semStp f)
  | .ldro f => some (semLdro f)
  | .ldg f => some (semLdg f)
  | .stg f => some (semStg f)
  | .atom f => some (semAtom f)
  | .atomt f => some (semAtomt f)
  | .atomsReg f => some (semAtoms f)
  | .atomsImm f => some (semAtoms f)
  | .rsadd f => some (semRsadd f)
  | .ldt f => some (semLdt f)
  | .stt f => some (semStt f)
  | .lapr f => some (semLapr f)
  | .pref f => some (semPref f)
  | .tdef f => some (semTdef f)
  | .tstate f => some (semTstate f)
  | .twait f => some (semTwait f)
  | .tld f => some (semTld f)
  | .tst f => some (semTst f)
  | .trd f => some (semTrd f)
  | .twr f => some (semTwr f)
  | .tzero f => some (semTzero f)
  | .regq f => some (semRegq f)
  | .regpinPin f => some (semRegpinPin f)
  | .regpinUnpin f => some (semRegpinUnpin f)
  | .regpinClear f => some (semRegpinClear f)
  | .regadv f => some (semRegadv f)
  | .waitlReg f => some (semWaitlReg f)
  | .waitlImm f => some (semWaitlImm f)
  | .waitcReg f => some (semWaitcReg f)
  | .waitcImm f => some (semWaitcImm f)
  | .waitqReg f => some (semWaitqReg f)
  | .waitqImm f => some (semWaitqImm f)
  | .waitm f => some (semWaitm f)
  | .mxrsv f => some (semMxrsv f)
  | .mxrel f => some (semMxrel f)
  | .mxgoImm f => some (semMxgoImm f)
  | .mxgoReg f => some (semMxgoReg f)
  | .mxprom f => some (semMxprom f)
  | .mxstat f => some (semMxstat f)
  | .ctail f => some (semCtail f)
  | .cseq f => some (semCseq f)
  | .barImm f => some (semBarImm f)
  | .barReg f => some (semBarReg f)
  | .barg f => some (semBarg f)
  | .fetchwImm f => some (semFetchwImm f)
  | .fetchwReg f => some (semFetchwReg f)
  | .elect f => some (semElect f)
  | .rth f => some (semRth f)
  | .hget f => some (semHget f)
  | .hset f => some (semHset f)
  | .ologdDrop f => some (semOlogdDrop f)
  | .park f => some (semPark f)
  | .replay f => some (semReplay f)
  | .cinv f => some (semCinv f)
  | .xlinv f => some (semXlinv f)
  | .deadm f => some (semDeadm f)
  | .apset f => some (semApset f)
  | .iaddHalf h m => some (semPair ⟨.iadd, h⟩ m)
  | .isubHalf h m => some (semPair ⟨.isub, h⟩ m)
  | .imulHalf h m => some (semPair ⟨.imul, h⟩ m)
  | .iminHalf h m => some (semPair ⟨.imin, h⟩ m)
  | .imaxHalf h m => some (semPair ⟨.imax, h⟩ m)
  | .andHalf h m => some (semPair ⟨.and, h⟩ m)
  | .orHalf h m => some (semPair ⟨.or, h⟩ m)
  | .xorHalf h m => some (semPair ⟨.xor, h⟩ m)
  | .shlHalf h m => some (semPair ⟨.shl, h⟩ m)
  | .shrHalf h m => some (semPair ⟨.shr, h⟩ m)
  | .sarHalf h m => some (semPair ⟨.sar, h⟩ m)
  | .faddHalf h m => some (semPair ⟨.fadd, h⟩ m)
  | .fsubHalf h m => some (semPair ⟨.fsub, h⟩ m)
  | .fmulHalf h m => some (semPair ⟨.fmul, h⟩ m)
  | .fminHalf h m => some (semPair ⟨.fmin, h⟩ m)
  | .fmaxHalf h m => some (semPair ⟨.fmax, h⟩ m)
  | .fabsHalf h m => some (semPair ⟨.fabs, h⟩ m)
  | .fnegHalf h m => some (semPair ⟨.fneg, h⟩ m)
  | .movHalf h m => some (semPair ⟨.mov, h⟩ m)
  | .cvtHalf h m => some (semPair ⟨.cvt, h⟩ m)
  | .illegalWord .. => none
  | .textOverrun => none
  | .registerWriteback .. => none
  | .readErrorReturn .. => none
  | .oplogResume .. => none
  | .pageDeliver .. => none
  | .growDeny .. => none
  | .ownershipFlip .. => none
  | .waveSwap .. => none
  | .quantumExpire .. => none
  | .pendingWaveEnter .. => none
  | .xgetGrant .. => none
  | .waitConditionMet .. => none
  | .barrierComplete .. => none
  | .gangBarrierComplete .. => none
  | .teamRetire .. => none
  | .storeOrderPoint .. => none
  | .storePerformed .. => none
  | .storeAck .. => none
  | .transactionConflict .. => none
  | .commitStep .. => none
  | .monitorSignature .. => none
  | .parcelStaged .. => none
  | .parcelWriteout .. => none
  | .parcelNew .. => none
  | .descriptorWrite .. => none
  | .tldComplete .. => none
  | .tstComplete .. => none
  | .mxOpStart .. => none
  | .mxOpComplete .. => none
  | .mxReservationReacquire .. => none
  | .steppeAdmit .. => none
  | .steppeRowApply .. => none
  | .lapEnd .. => none
  | .lapDoneToken .. => none
  | .infuserDecode .. => none
  | .engineTailRecord .. => none
  | .engineNop .. => none
  | .engineCopy .. => none
  | .engineFill .. => none
  | .chainFault .. => none
  | .engineChunkDone .. => none
  | .deadlinePromote .. => none
  | .deadlineExpire .. => none
  | .engineTailDoorbell .. => none
  | .launchDoorbell .. => none
  | .launchRecordRead .. => none
  | .launchStartable .. => none
  | .teamPlace => none
  | .argCopyDone .. => none
  | .argCopyFault .. => none
  | .fetchwAnswer .. => none
  | .preemptDeliver .. => none
  | .saveTimeoutKill .. => none
  | .launchKill .. => none
  | .killDeliver .. => none
  | .launchComplete .. => none
  | .watchdogExpire .. => none
  | .shootdownReceive .. => none
  | .shootdownAck .. => none
  | .fenceTimeout .. => none
  | .peerRequest .. => none
  | .linkFlitReceive .. => none
  | .refreshDue .. => none
  | .refreshRepay .. => none
  | .rowAlert .. => none
  | .backoffEnd .. => none
  | .selfRefreshEnter .. => none
  | .selfRefreshExit .. => none
  | .uncorrectableError .. => none
  | .clockLower .. => none
  | .keyLoad .. => none
  | .keyClear .. => none
  | .quoteRequest .. => none
  | .measurementAppend .. => none
  | .sliceStatusClear .. => none
  | .registerWrite .. => none
  | .coreReset .. => none
  | .sliceReset .. => none
  | .engineReset .. => none
  | .linkReset .. => none
  | .coldReset .. => none
  | .registerSoftError .. => none
  | .engineCauseTaken .. => none
  | .clockRaise .. => none
  | .recoveryNewImage .. => none

/-! ## Places in the PC table (R48 to R50) -/

/-- A wave issues nothing while a move of it is due (R464) or PREEMPT is being taken (R193). -/
def waveStopped (s : State) (q : Quad) (w : Wave) : Bool :=
  q.yieldDue.contains w.uid || q.quantumDue.contains w.uid || preemptFree s w

/-- Threads of a wave that hold or seek a place: it is active, and they neither wait nor stand parked. -/
def placeSeekers (s : State) (q : Quad) (w : Wave) : List Nat :=
  if w.retired || !q.active.contains w.uid || waveStopped s q w then [] else w.free

/-- The key of a thread (R48). -/
def keyOf (w : Wave) (i : Nat) : Key := ⟨w.code, w.pcOf i, w.modeOf i⟩

/-- Threads of a wave as lanes of its quadrant. -/
def Wave.laneMask (w : Wave) (m : Mask) : Mask := m.shiftLeft w.lane

/-- Lanes of the quadrant that an entry fills. -/
def Entry.lanes (s : State) (e : Entry) : Mask :=
  e.parts.foldl (fun m p => match s.wave? p.wave with | some w => m ||| w.laneMask p.mask | none => m) 0

/-- Add threads to an entry. -/
def Entry.join (e : Entry) (u : Nat) (m : Mask) : Entry :=
  if e.parts.any (·.wave == u) then
    { e with parts := e.parts.map (fun p => if p.wave = u then { p with mask := p.mask ||| m } else p) }
  else { e with parts := e.parts ++ [⟨u, m⟩] }

/-- The free entry that a thread takes: the lowest-numbered, the model's choice (R50, log entry 59). -/
def freeEntry (t : FMap Entry) : Option Nat := (List.range 64).find? (fun n => (flook t n).isNone)

/-- Entries keep the threads that still hold their key. -/
def keepPlaces (s : State) (q : Quad) : FMap Entry :=
  (q.table.map (fun x =>
    (x.1, { x.2 with parts := (x.2.parts.map (fun p =>
      match s.wave? p.wave with
      | some w => ⟨p.wave, p.mask &&& maskOf ((placeSeekers s q w).filter (fun i => keyOf w i == x.2.key))⟩
      | none => ⟨p.wave, 0⟩)).filter (·.mask != 0) }))).filter (fun x => !x.2.parts.isEmpty)

/-- The threads of a wave that have no place, by key, the least thread of each first. -/
def newcomers (s : State) (q : Quad) (w : Wave) : List (Key × Mask) :=
  let held := q.table.foldl (fun m x => (x.2.parts.filter (·.wave == w.uid)).foldl (fun m p => m ||| p.mask) m) 0
  let out := (placeSeekers s q w).filter (fun i => !held.getLsbD i && !q.queue.contains (w.uid, i))
  out.foldl (fun gs i =>
    let k := keyOf w i
    if gs.any (·.1 == k) then gs.map (fun g => if g.1 = k then (g.1, g.2 ||| bitM i) else g) else gs ++ [(k, bitM i)]) []

/-- The threads of a group whose lanes an entry leaves free. -/
def roomFor (s : State) (w : Wave) (e : Entry) (m : Mask) : Mask := m &&& ~~~ ((e.lanes s).ushiftRight w.lane)

/-- Threads of one key of a wave take their places, each by itself: in an entry that holds the key, a free entry,
or the queue. Where several entries hold the key, a thread joins the lowest-numbered one whose lane is free (log
entry 59). -/
def takePlace (s : State) (w : Wave) (q : Quad) (g : Key × Mask) : Quad :=
  let r := q.table.foldl (fun (r : FMap Entry × Mask) x =>
    let m := if x.2.key == g.1 then roomFor s w x.2 r.2 else 0
    if m == 0 then r else (fput r.1 x.1 (x.2.join w.uid m), r.2 &&& ~~~ m)) (q.table, g.2)
  let q := { q with table := r.1 }
  if r.2 == 0 then q
  else
    match (if q.queue.isEmpty then freeEntry q.table else none) with
    | some n => { q with table := fput q.table n ⟨g.1, [⟨w.uid, r.2⟩], 0⟩ }
    | none => { q with queue := q.queue ++ (lanesOf r.2).map (fun i => (w.uid, i)) }

/-- The key of a queued thread. -/
def queuedKey (s : State) (x : Nat × Nat) : Option Key := (s.wave? x.1).map (fun w => keyOf w x.2)

/-- A free entry goes to the head of the queue, with every queued thread of its key in another lane. -/
def serveQueue (s : State) : Nat → Quad → Quad
  | 0, q => q
  | k + 1, q =>
    match q.queue, freeEntry q.table with
    | h :: _, some n =>
      (match queuedKey s h with
       | none => serveQueue s k { q with queue := q.queue.drop 1 }
       | some key =>
         let r := q.queue.foldl (fun (r : Entry × List (Nat × Nat)) x =>
           match s.wave? x.1 with
           | none => r
           | some w =>
             if queuedKey s x == some key && r.1.lanes s &&& w.laneMask (bitM x.2) == 0 then
               (r.1.join x.1 (bitM x.2), r.2)
             else (r.1, r.2 ++ [x])) (⟨key, [], 0⟩, [])
         serveQueue s k { q with table := fput q.table n r.1, queue := r.2 })
    | _, _ => q

/-- Threads that seek a place stand in the table or in the queue (R50). `issued` is the entry that has just
issued: while others wait in the queue it is released and its threads go to the tail. Several keys and waves take their
places in one step in the order of the active set, each wave's keys by their least thread (log entry 59). -/
def retable (s : State) (qn : Nat) (issued : Option Nat) : State :=
  s.mapQuad qn (fun q =>
    let seeks (x : Nat × Nat) : Bool := match s.wave? x.1 with | some w => (placeSeekers s q w).contains x.2 | none => false
    let q := { q with queue := q.queue.filter seeks }
    let q := match issued.bind (flook q.table) with
      | some e =>
        if q.queue.isEmpty then q
        else
          let back := (e.parts.map (fun (p : Part) => (lanesOf p.mask).map (fun i => (p.wave, i)))).flatten.filter seeks
          { q with table := fdel q.table (issued.getD 0), queue := q.queue ++ back }
      | none => q
    let q := { q with table := keepPlaces s q }
    let ws := q.active.filterMap s.wave?
    let q := if q.queue.isEmpty then q else serveQueue s 64 q
    ws.foldl (fun q w => (newcomers s q w).foldl (takePlace s w) q) q)


/-! ## Selection (R51) -/

/-- Threads of an entry that wait on memory producers or tiles leave it (R69). -/
def leaveEntry (s : State) (qn n : Nat) (e : Entry) : State :=
  match semOf (fetch s e.key).2 with
  | none => s
  | some m =>
    let i := issueOf s qn n e
    let s0 : State := { s with cur := some i }
    let ps := shares s i
    if ps.any (fun p => !m.legal s0 p.rd i.hm || m.hold s0 p.rd (m.active p.rd p.grp)) then s
    else (m.readyAll s0 ps).foldl (fun s x => leaveWaiters s x.1 x.2) s

/-- Every entry of a quadrant loses the threads that wait; an entry without threads is released (R50). -/
def leaveAll (s : State) (qn : Nat) : State :=
  let s := (s.quad qn).table.foldl (fun s x => leaveEntry s qn x.1 x.2) s
  s.mapQuad qn (fun q => { q with table := keepPlaces s q })

/-- A wave is held: one of its entries stands at a TLD while 128 tile loads are in flight (R20). -/
def tldHeld (s : State) (qn u : Nat) : Bool :=
  128 ≤ ((s.core (qn / 4)).xfers.filter (·.load)).length && (s.quad qn).table.any (fun x => x.2.parts.any (·.wave == u) &&
    (match (fetch s x.2.key).2 with | .tld _ => true | _ => false))

/-- An entry whose word, sources and holds let it issue now. -/
def readyEntry (s : State) (qn n : Nat) (e : Entry) : Bool :=
  match semOf (fetch s e.key).2 with
  | none => true
  | some m =>
    let i := issueOf s qn n e
    let s0 : State := { s with cur := some i }
    let ps := shares s i
    ps.any (fun p => !m.legal s0 p.rd i.hm) ||
      (!ps.any (fun p => m.hold s0 p.rd (m.active p.rd p.grp)) && !ps.any (fun p => (m.ready s0 p).stall))

/-- An entry that may issue now: no wave of it is held (log entry 60). -/
def eligible (s : State) (qn n : Nat) (e : Entry) : Bool :=
  !e.parts.any (fun p => tldHeld s qn p.wave) && readyEntry s qn n e

/-- The order of R51 among eligible entries. -/
def pick (recent : List Nat) (xs : List (Nat × Entry)) : Option (Nat × Entry) :=
  let aged := (xs.filter (fun x => 64 ≤ x.2.age)).foldl (fun (b : Option (Nat × Entry)) x =>
    match b with | none => some x | some y => if y.2.age < x.2.age then some x else some y) none
  match aged with
  | some x => some x
  | none =>
    match xs.find? (fun x => x.2.parts.any (fun p => recent.contains p.wave)) with
    | some x => some x
    | none => xs.head?

/-- Banks that an entry's word reads (R72). -/
def entryBanks (s : State) (qn n : Nat) (e : Entry) : BitVec 16 :=
  match semOf (fetch s e.key).2 with
  | none => 0
  | some m =>
    let i := issueOf s qn n e
    (shares s i).foldl (fun b p => b ||| m.banks { s with cur := some i } p) 0

/-- The first and the second word of a cycle. -/
def choose (s : State) (qn : Nat) : Option ((Nat × Entry) × Option (Nat × Entry)) :=
  let q := s.quad qn
  let xs := q.table.filter (fun x => eligible s qn x.1 x.2)
  match pick q.recent xs with
  | none => none
  | some x =>
    let b := entryBanks s qn x.1 x.2
    some (x, pick q.recent (xs.filter (fun y => y.1 != x.1 && entryBanks s qn y.1 y.2 &&& b == 0)))

/-! ## The cycle of a quadrant -/

/-- Ages, quanta and %cyc advance by one arithmetic cycle (R51, R61, R241); a wave whose quantum has run out issues
no further word (R61, R464), and the cycle has its own swap (R59). Quanta that run out in one cycle stand in the order
of the list of waves (log entry 43). -/
def tick (s : State) (qn : Nat) : State :=
  let q := s.quad qn
  let busy := (nextReady s qn).isSome
  let count (w : Wave) : Wave := if q.active.contains w.uid then { w with quantum := min 65536 (w.quantum + 1) } else w
  let s := if busy then { s with waves := s.waves.map count } else s
  let out := (s.waves.filter (quantumOut s qn)).map (·.uid)
  s.mapQuad qn (fun q => { q with
    cyc := q.cyc + 1, swapped := false, quantumDue := q.quantumDue ++ out
    table := q.table.map (fun (x : Nat × Entry) => (x.1, { x.2 with age := min 1023 (x.2.age + 1) })) })

/-! ## The end of a step -/

/-- A thread's wait is over and its word is tried again. -/
def retryNow (s : State) (w : Wave) (l : Nat) (x : Wait) : Bool :=
  match x with
  | .regs rs => rs.all (fun r => !(w.thread r.1).empty r.2)
  | .partner u rs => match s.wave? u with | some v => v.retired || rs.all (fun r => !(v.thread r.1).empty r.2) | none => true
  | .tile ent => tileFree s w ent
  | .openTx => !w.kettle.isOpen
  | .logged => !(s.quad w.qn).oplog.any (fun e => e.wave == w.uid && e.items.any (fun it => it.1 == l && it.2.1 == .wait))
  | _ => false

/-- Threads whose wait is over seek a place again (R50). -/
def wake (s : State) (w : Wave) : State :=
  let ls := (lanesOf w.running).filter (fun l => retryNow s w l (w.thread l).wait)
  if ls.isEmpty then s else s.mapWave w.uid (fun w => w.setWait (maskOf ls) .none)

/-- Operand-log entries that nothing will resume: of retired waves that were delivered, and of ended teams. -/
def dropDead (s : State) (qn : Nat) : State :=
  let dead (e : OpEntry) : Bool :=
    match s.wave? e.wave with
    | none => true
    | some w => w.retired && (e.delivered || (match s.team? w.team with | some t => t.phase == .ended | none => true))
  let es := (s.quad qn).oplog.filter dead
  if es.isEmpty then s
  else (es.foldl dropEntry s).mapQuad qn (fun q => { q with oplog := q.oplog.filter (fun e => !dead e) })

/-- XGET requests whose threads have left are gone. -/
def dropRequests (s : State) (qn : Nat) : State :=
  let gone (r : Nat × Nat × Nat) : Bool := match s.wave? r.2.1 with | some w => xgetLanes w r.1 == 0 | none => true
  if (s.quad qn).xq.any gone then s.mapQuad qn (fun q => { q with xq := q.xq.filter (fun r => !gone r) }) else s

/-- Threads of a quadrant's waves whose next word cannot issue though they wait for no swap trigger (R57): their
entry is not eligible. Only a wave that has a thread at a swap trigger can be blocked. -/
def markStuck (s : State) (qn : Nat) : State :=
  let q := s.quad qn
  let stuck := (q.table.filter (fun x => x.2.parts.any (fun p =>
    match s.wave? p.wave with | some w => w.triggered | none => false) && !eligible s qn x.1 x.2)).map (·.2)
  { s with waves := s.waves.map (fun w =>
      if w.qn = qn ∧ q.active.contains w.uid then
        { w with stuck := stuck.foldl (fun m (e : Entry) => (e.parts.filter (·.wave == w.uid)).foldl (fun m (p : Part) => m ||| p.mask) m) 0 }
      else w) }

/-- Registers that have been released while a write to them is in flight go into quarantine (R73). -/
def quarantine (s : State) (w : Wave) : State :=
  let qs := (w.threads.mapIdx (fun i t =>
    (t.pend.filter (w.top ≤ ·.1)).map (fun e => (⟨w.lane + i, e.2, e.1⟩ : Quar)))).flatten
  if qs.isEmpty then s
  else (s.mapQuad w.qn (fun q => { q with quar := q.quar ++ qs })).mapWave w.uid (fun w =>
    { w with threads := w.threads.map (fun t => { t with pend := t.pend.filter (·.1 < w.top) }) })

/-- What follows from a step at once: waits that end with another try, arrivals, the place of a commit group,
PREEMPT and parked sub-waves at their boundary. A cycle whose second word stands by has not ended. -/
def settleWave (s : State) (u : Nat) : State :=
  match s.wave? u with
  | none => s
  | some w =>
    if w.retired || (s.quad w.qn).second.isSome then s
    else
      let s := quarantine (wake s w) w
      let s := noteArrivals s w
      let s := fixPlace s u
      let s := preemptStop s u
      deliver s u

/-- The end of a step: the entry that has issued, if any, by quadrant and number. A wave is judged by the words that
its threads stand at after the step (R57); a swap then gives the waves that enter their places. -/
def settle (s : State) (issued : Option (Nat × Nat)) : State :=
  let s := { s with cur := none }
  let s := (s.waves.map (·.uid)).foldl settleWave s
  let s := (s.engines.map (·.1)).foldl engRestart s
  let s := { s with waves := s.waves.filter (fun w => w.team != 0 || !w.flights.isEmpty) }
  (s.quads.map (·.1)).foldl (fun s qn =>
    let s := dropRequests (dropDead s qn) qn
    let own := match issued with | some x => if x.1 = qn then some x.2 else none | none => none
    let s := retable s qn own
    let s := trackBlocked (markStuck s qn) qn
    if own.isSome && (s.quad qn).second.isNone then
      let t := waveSwap qn s
      if (t.quad qn).active = (s.quad qn).active then t else retable t qn none
    else s) s

end Sys2Proof.Machine
end

