-- ==== Sys2Proof/Machine/Dispatch.lean ====
section
/-!
DEFINITION. Dispatch: one arm for each constructor of the instruction type, a direct call of its meaning.
-/
namespace Sys2Proof.Machine

def exec (i : Instr) (s : State) : Host.Outcome State Fault Refusal :=
  match i with
  | .iadd f => Sys2Proof.Machine.execIadd f s
  | .isub f => Sys2Proof.Machine.execIsub f s
  | .imul f => Sys2Proof.Machine.execImul f s
  | .imulh f => Sys2Proof.Machine.execImulh f s
  | .imad f => Sys2Proof.Machine.execImad f s
  | .imin f => Sys2Proof.Machine.execImin f s
  | .imax f => Sys2Proof.Machine.execImax f s
  | .iabs f => Sys2Proof.Machine.execIabs f s
  | .ineg f => Sys2Proof.Machine.execIneg f s
  | .and f => Sys2Proof.Machine.execAnd f s
  | .or f => Sys2Proof.Machine.execOr f s
  | .xor f => Sys2Proof.Machine.execXor f s
  | .andn f => Sys2Proof.Machine.execAndn f s
  | .not f => Sys2Proof.Machine.execNot f s
  | .shl f => Sys2Proof.Machine.execShl f s
  | .shr f => Sys2Proof.Machine.execShr f s
  | .sar f => Sys2Proof.Machine.execSar f s
  | .rot f => Sys2Proof.Machine.execRot f s
  | .fshf f => Sys2Proof.Machine.execFshf f s
  | .popc f => Sys2Proof.Machine.execPopc f s
  | .clz f => Sys2Proof.Machine.execClz f s
  | .ctz f => Sys2Proof.Machine.execCtz f s
  | .brev f => Sys2Proof.Machine.execBrev f s
  | .bfx f => Sys2Proof.Machine.execBfx f s
  | .bfi f => Sys2Proof.Machine.execBfi f s
  | .lea f => Sys2Proof.Machine.execLea f s
  | .idot4 f => Sys2Proof.Machine.execIdot4 f s
  | .bpick f => Sys2Proof.Machine.execBpick f s
  | .fadd f => Sys2Proof.Machine.execFadd f s
  | .fsub f => Sys2Proof.Machine.execFsub f s
  | .fmul f => Sys2Proof.Machine.execFmul f s
  | .fma f => Sys2Proof.Machine.execFma f s
  | .fnma f => Sys2Proof.Machine.execFnma f s
  | .fdiv f => Sys2Proof.Machine.execFdiv f s
  | .fmin f => Sys2Proof.Machine.execFmin f s
  | .fmax f => Sys2Proof.Machine.execFmax f s
  | .fabs f => Sys2Proof.Machine.execFabs f s
  | .fneg f => Sys2Proof.Machine.execFneg f s
  | .frcp f => Sys2Proof.Machine.execFrcp f s
  | .frsq f => Sys2Proof.Machine.execFrsq f s
  | .fsqrt f => Sys2Proof.Machine.execFsqrt f s
  | .fexp2 f => Sys2Proof.Machine.execFexp2 f s
  | .flog2 f => Sys2Proof.Machine.execFlog2 f s
  | .fsin f => Sys2Proof.Machine.execFsin f s
  | .fcos f => Sys2Proof.Machine.execFcos f s
  | .frnd f => Sys2Proof.Machine.execFrnd f s
  | .fscl f => Sys2Proof.Machine.execFscl f s
  | .fcls f => Sys2Proof.Machine.execFcls f s
  | .fdot2 f => Sys2Proof.Machine.execFdot2 f s
  | .fsumv f => Sys2Proof.Machine.execFsumv f s
  | .cmul f => Sys2Proof.Machine.execCmul f s
  | .cfma f => Sys2Proof.Machine.execCfma f s
  | .cconj f => Sys2Proof.Machine.execCconj f s
  | .crcp f => Sys2Proof.Machine.execCrcp f s
  | .cvt f => Sys2Proof.Machine.execCvt f s
  | .srnd f => Sys2Proof.Machine.execSrnd f s
  | .pack f => Sys2Proof.Machine.execPack f s
  | .unpk f => Sys2Proof.Machine.execUnpk f s
  | .icmp f => Sys2Proof.Machine.execIcmp f s
  | .fcmp f => Sys2Proof.Machine.execFcmp f s
  | .sel f => Sys2Proof.Machine.execSel f s
  | .plog f => Sys2Proof.Machine.execPlog f s
  | .pmov f => Sys2Proof.Machine.execPmov f s
  | .vote f => Sys2Proof.Machine.execVote f s
  | .lxb f => Sys2Proof.Machine.execLxb f s
  | .lxs f => Sys2Proof.Machine.execLxs f s
  | .lxbc f => Sys2Proof.Machine.execLxbc f s
  | .lxrd f => Sys2Proof.Machine.execLxrd f s
  | .mov f => Sys2Proof.Machine.execMov f s
  | .movi f => Sys2Proof.Machine.execMovi f s
  | .movx f => Sys2Proof.Machine.execMovx f s
  | .movxw f => Sys2Proof.Machine.execMovxw f s
  | .setx f => Sys2Proof.Machine.execSetx f s
  | .gets f => Sys2Proof.Machine.execGets f s
  | .sets f => Sys2Proof.Machine.execSets f s
  | .wmov f => Sys2Proof.Machine.execWmov f s
  | .win f => Sys2Proof.Machine.execWin f s
  | .xget f => Sys2Proof.Machine.execXget f s
  | .xgetP f => Sys2Proof.Machine.execXgetP f s
  | .xrel f => Sys2Proof.Machine.execXrel f s
  | .tag f => Sys2Proof.Machine.execTag f s
  | .setf f => Sys2Proof.Machine.execSetf f s
  | .bra f => Sys2Proof.Machine.execBra f s
  | .brw f => Sys2Proof.Machine.execBrw f s
  | .loopw f => Sys2Proof.Machine.execLoopw f s
  | .brx f => Sys2Proof.Machine.execBrx f s
  | .call f => Sys2Proof.Machine.execCall f s
  | .ret f => Sys2Proof.Machine.execRet f s
  | .jpt f => Sys2Proof.Machine.execJpt f s
  | .join f => Sys2Proof.Machine.execJoin f s
  | .yield f => Sys2Proof.Machine.execYield f s
  | .exit f => Sys2Proof.Machine.execExit f s
  | .nop f => Sys2Proof.Machine.execNop f s
  | .trap f => Sys2Proof.Machine.execTrap f s
  | .brk f => Sys2Proof.Machine.execBrk f s
  | .tryTx f => Sys2Proof.Machine.execTryTx f s
  | .commit f => Sys2Proof.Machine.execCommit f s
  | .abort f => Sys2Proof.Machine.execAbort f s
  | .tstat f => Sys2Proof.Machine.execTstat f s
  | .ld f => Sys2Proof.Machine.execLd f s
  | .st f => Sys2Proof.Machine.execSt f s
  | .lds f => Sys2Proof.Machine.execLds f s
  | .sts f => Sys2Proof.Machine.execSts f s
  | .ldp f => Sys2Proof.Machine.execLdp f s
  | .stp f => Sys2Proof.Machine.execStp f s
  | .ldro f => Sys2Proof.Machine.execLdro f s
  | .ldg f => Sys2Proof.Machine.execLdg f s
  | .stg f => Sys2Proof.Machine.execStg f s
  | .atom f => Sys2Proof.Machine.execAtom f s
  | .atomt f => Sys2Proof.Machine.execAtomt f s
  | .atomsReg f => Sys2Proof.Machine.execAtomsReg f s
  | .atomsImm f => Sys2Proof.Machine.execAtomsImm f s
  | .rsadd f => Sys2Proof.Machine.execRsadd f s
  | .ldt f => Sys2Proof.Machine.execLdt f s
  | .stt f => Sys2Proof.Machine.execStt f s
  | .lapr f => Sys2Proof.Machine.execLapr f s
  | .pref f => Sys2Proof.Machine.execPref f s
  | .tdef f => Sys2Proof.Machine.execTdef f s
  | .tstate f => Sys2Proof.Machine.execTstate f s
  | .twait f => Sys2Proof.Machine.execTwait f s
  | .tld f => Sys2Proof.Machine.execTld f s
  | .tst f => Sys2Proof.Machine.execTst f s
  | .trd f => Sys2Proof.Machine.execTrd f s
  | .twr f => Sys2Proof.Machine.execTwr f s
  | .tzero f => Sys2Proof.Machine.execTzero f s
  | .regq f => Sys2Proof.Machine.execRegq f s
  | .regpinPin f => Sys2Proof.Machine.execRegpinPin f s
  | .regpinUnpin f => Sys2Proof.Machine.execRegpinUnpin f s
  | .regpinClear f => Sys2Proof.Machine.execRegpinClear f s
  | .regadv f => Sys2Proof.Machine.execRegadv f s
  | .waitlReg f => Sys2Proof.Machine.execWaitlReg f s
  | .waitlImm f => Sys2Proof.Machine.execWaitlImm f s
  | .waitcReg f => Sys2Proof.Machine.execWaitcReg f s
  | .waitcImm f => Sys2Proof.Machine.execWaitcImm f s
  | .waitqReg f => Sys2Proof.Machine.execWaitqReg f s
  | .waitqImm f => Sys2Proof.Machine.execWaitqImm f s
  | .waitm f => Sys2Proof.Machine.execWaitm f s
  | .mxrsv f => Sys2Proof.Machine.execMxrsv f s
  | .mxrel f => Sys2Proof.Machine.execMxrel f s
  | .mxgoImm f => Sys2Proof.Machine.execMxgoImm f s
  | .mxgoReg f => Sys2Proof.Machine.execMxgoReg f s
  | .mxprom f => Sys2Proof.Machine.execMxprom f s
  | .mxstat f => Sys2Proof.Machine.execMxstat f s
  | .ctail f => Sys2Proof.Machine.execCtail f s
  | .cseq f => Sys2Proof.Machine.execCseq f s
  | .barImm f => Sys2Proof.Machine.execBarImm f s
  | .barReg f => Sys2Proof.Machine.execBarReg f s
  | .barg f => Sys2Proof.Machine.execBarg f s
  | .fetchwImm f => Sys2Proof.Machine.execFetchwImm f s
  | .fetchwReg f => Sys2Proof.Machine.execFetchwReg f s
  | .elect f => Sys2Proof.Machine.execElect f s
  | .rth f => Sys2Proof.Machine.execRth f s
  | .hget f => Sys2Proof.Machine.execHget f s
  | .hset f => Sys2Proof.Machine.execHset f s
  | .ologdDrop f => Sys2Proof.Machine.execOlogdDrop f s
  | .park f => Sys2Proof.Machine.execPark f s
  | .replay f => Sys2Proof.Machine.execReplay f s
  | .cinv f => Sys2Proof.Machine.execCinv f s
  | .xlinv f => Sys2Proof.Machine.execXlinv f s
  | .deadm f => Sys2Proof.Machine.execDeadm f s
  | .apset f => Sys2Proof.Machine.execApset f s
  | .iaddHalf h mate => Sys2Proof.Machine.execIaddHalf h mate s
  | .isubHalf h mate => Sys2Proof.Machine.execIsubHalf h mate s
  | .imulHalf h mate => Sys2Proof.Machine.execImulHalf h mate s
  | .iminHalf h mate => Sys2Proof.Machine.execIminHalf h mate s
  | .imaxHalf h mate => Sys2Proof.Machine.execImaxHalf h mate s
  | .andHalf h mate => Sys2Proof.Machine.execAndHalf h mate s
  | .orHalf h mate => Sys2Proof.Machine.execOrHalf h mate s
  | .xorHalf h mate => Sys2Proof.Machine.execXorHalf h mate s
  | .shlHalf h mate => Sys2Proof.Machine.execShlHalf h mate s
  | .shrHalf h mate => Sys2Proof.Machine.execShrHalf h mate s
  | .sarHalf h mate => Sys2Proof.Machine.execSarHalf h mate s
  | .faddHalf h mate => Sys2Proof.Machine.execFaddHalf h mate s
  | .fsubHalf h mate => Sys2Proof.Machine.execFsubHalf h mate s
  | .fmulHalf h mate => Sys2Proof.Machine.execFmulHalf h mate s
  | .fminHalf h mate => Sys2Proof.Machine.execFminHalf h mate s
  | .fmaxHalf h mate => Sys2Proof.Machine.execFmaxHalf h mate s
  | .fabsHalf h mate => Sys2Proof.Machine.execFabsHalf h mate s
  | .fnegHalf h mate => Sys2Proof.Machine.execFnegHalf h mate s
  | .movHalf h mate => Sys2Proof.Machine.execMovHalf h mate s
  | .cvtHalf h mate => Sys2Proof.Machine.execCvtHalf h mate s
  | .illegalWord w => Sys2Proof.Machine.execIllegalWord w s
  | .textOverrun => Sys2Proof.Machine.execTextOverrun s
  | .registerWriteback wave prod job how => Sys2Proof.Machine.execRegisterWriteback wave prod job how s
  | .readErrorReturn wave prod job uncorr => Sys2Proof.Machine.execReadErrorReturn wave prod job uncorr s
  | .oplogResume quad idx => Sys2Proof.Machine.execOplogResume quad idx s
  | .pageDeliver quad idx => Sys2Proof.Machine.execPageDeliver quad idx s
  | .growDeny quad idx => Sys2Proof.Machine.execGrowDeny quad idx s
  | .ownershipFlip ctx va toDevice => Sys2Proof.Machine.execOwnershipFlip ctx va toDevice s
  | .waveSwap quad => Sys2Proof.Machine.execWaveSwap quad s
  | .quantumExpire quad wave => Sys2Proof.Machine.execQuantumExpire quad wave s
  | .pendingWaveEnter quad => Sys2Proof.Machine.execPendingWaveEnter quad s
  | .xgetGrant quad => Sys2Proof.Machine.execXgetGrant quad s
  | .waitConditionMet wave => Sys2Proof.Machine.execWaitConditionMet wave s
  | .barrierComplete team b => Sys2Proof.Machine.execBarrierComplete team b s
  | .gangBarrierComplete team n => Sys2Proof.Machine.execGangBarrierComplete team n s
  | .teamRetire team => Sys2Proof.Machine.execTeamRetire team s
  | .storeOrderPoint wave => Sys2Proof.Machine.execStoreOrderPoint wave s
  | .storePerformed core entry upto => Sys2Proof.Machine.execStorePerformed core entry upto s
  | .storeAck core entry => Sys2Proof.Machine.execStoreAck core entry s
  | .transactionConflict wave => Sys2Proof.Machine.execTransactionConflict wave s
  | .commitStep wave => Sys2Proof.Machine.execCommitStep wave s
  | .monitorSignature k => Sys2Proof.Machine.execMonitorSignature k s
  | .parcelStaged comp idx => Sys2Proof.Machine.execParcelStaged comp idx s
  | .parcelWriteout comp idx elem => Sys2Proof.Machine.execParcelWriteout comp idx elem s
  | .parcelNew comp idx => Sys2Proof.Machine.execParcelNew comp idx s
  | .descriptorWrite comp idx d => Sys2Proof.Machine.execDescriptorWrite comp idx d s
  | .tldComplete core entry upto => Sys2Proof.Machine.execTldComplete core entry upto s
  | .tstComplete core entry upto => Sys2Proof.Machine.execTstComplete core entry upto s
  | .mxOpStart quad => Sys2Proof.Machine.execMxOpStart quad s
  | .mxOpComplete quad => Sys2Proof.Machine.execMxOpComplete quad s
  | .mxReservationReacquire wave => Sys2Proof.Machine.execMxReservationReacquire wave s
  | .steppeAdmit k => Sys2Proof.Machine.execSteppeAdmit k s
  | .steppeRowApply comp idx slice => Sys2Proof.Machine.execSteppeRowApply comp idx slice s
  | .lapEnd comp idx slice => Sys2Proof.Machine.execLapEnd comp idx slice s
  | .lapDoneToken comp idx slice src => Sys2Proof.Machine.execLapDoneToken comp idx slice src s
  | .infuserDecode wave prod job => Sys2Proof.Machine.execInfuserDecode wave prod job s
  | .engineTailRecord e => Sys2Proof.Machine.execEngineTailRecord e s
  | .engineNop e => Sys2Proof.Machine.execEngineNop e s
  | .engineCopy e upto deny => Sys2Proof.Machine.execEngineCopy e upto deny s
  | .engineFill e upto deny => Sys2Proof.Machine.execEngineFill e upto deny s
  | .chainFault e => Sys2Proof.Machine.execChainFault e s
  | .engineChunkDone e => Sys2Proof.Machine.execEngineChunkDone e s
  | .deadlinePromote e => Sys2Proof.Machine.execDeadlinePromote e s
  | .deadlineExpire e => Sys2Proof.Machine.execDeadlineExpire e s
  | .engineTailDoorbell e addr => Sys2Proof.Machine.execEngineTailDoorbell e addr s
  | .launchDoorbell q tail => Sys2Proof.Machine.execLaunchDoorbell q tail s
  | .launchRecordRead q => Sys2Proof.Machine.execLaunchRecordRead q s
  | .launchStartable q k => Sys2Proof.Machine.execLaunchStartable q k s
  | .teamPlace => Sys2Proof.Machine.execTeamPlace s
  | .argCopyDone team => Sys2Proof.Machine.execArgCopyDone team s
  | .argCopyFault team cause => Sys2Proof.Machine.execArgCopyFault team cause s
  | .fetchwAnswer team => Sys2Proof.Machine.execFetchwAnswer team s
  | .preemptDeliver wave => Sys2Proof.Machine.execPreemptDeliver wave s
  | .saveTimeoutKill team => Sys2Proof.Machine.execSaveTimeoutKill team s
  | .launchKill q k => Sys2Proof.Machine.execLaunchKill q k s
  | .killDeliver team => Sys2Proof.Machine.execKillDeliver team s
  | .launchComplete q => Sys2Proof.Machine.execLaunchComplete q s
  | .watchdogExpire q k => Sys2Proof.Machine.execWatchdogExpire q k s
  | .shootdownReceive id member => Sys2Proof.Machine.execShootdownReceive id member s
  | .shootdownAck id member => Sys2Proof.Machine.execShootdownAck id member s
  | .fenceTimeout id member => Sys2Proof.Machine.execFenceTimeout id member s
  | .peerRequest r => Sys2Proof.Machine.execPeerRequest r s
  | .linkFlitReceive port seq crcOk payload => Sys2Proof.Machine.execLinkFlitReceive port seq crcOk payload s
  | .refreshDue slice bank postpone => Sys2Proof.Machine.execRefreshDue slice bank postpone s
  | .refreshRepay slice bank => Sys2Proof.Machine.execRefreshRepay slice bank s
  | .rowAlert slice bank row rows => Sys2Proof.Machine.execRowAlert slice bank row rows s
  | .backoffEnd slice bank => Sys2Proof.Machine.execBackoffEnd slice bank s
  | .selfRefreshEnter stack => Sys2Proof.Machine.execSelfRefreshEnter stack s
  | .selfRefreshExit stack => Sys2Proof.Machine.execSelfRefreshExit stack s
  | .uncorrectableError e => Sys2Proof.Machine.execUncorrectableError e s
  | .clockLower die mhz => Sys2Proof.Machine.execClockLower die mhz s
  | .keyLoad box cmd key => Sys2Proof.Machine.execKeyLoad box cmd key s
  | .keyClear box cmd => Sys2Proof.Machine.execKeyClear box cmd s
  | .quoteRequest nonce => Sys2Proof.Machine.execQuoteRequest nonce s
  | .measurementAppend entry => Sys2Proof.Machine.execMeasurementAppend entry s
  | .sliceStatusClear slice v => Sys2Proof.Machine.execSliceStatusClear slice v s
  | .registerWrite off v => Sys2Proof.Machine.execRegisterWrite off v s
  | .coreReset core => Sys2Proof.Machine.execCoreReset core s
  | .sliceReset slice => Sys2Proof.Machine.execSliceReset slice s
  | .engineReset e => Sys2Proof.Machine.execEngineReset e s
  | .linkReset port => Sys2Proof.Machine.execLinkReset port s
  | .coldReset image => Sys2Proof.Machine.execColdReset image s
  | .registerSoftError wave thread reg => Sys2Proof.Machine.execRegisterSoftError wave thread reg s
  | .engineCauseTaken wave => Sys2Proof.Machine.execEngineCauseTaken wave s
  | .clockRaise die mhz => Sys2Proof.Machine.execClockRaise die mhz s
  | .recoveryNewImage image => Sys2Proof.Machine.execRecoveryNewImage image s

end Sys2Proof.Machine
end

