-- ==== Sys2Proof/Machine/Run.lean ====
section
/-!
DEFINITION. What a step does beside the instruction: the second word of a cycle (R51, R284), moves at an
instruction boundary (R174, R365), the steps that the machine takes by itself, and the issue of the next
quadrant. The order among them is the model's (log entry 1); the agenda may put any device step at any
place.
-/
namespace Sys2Proof.Machine

/-- Continue after an outcome. -/
def followedBy (o : Out) (f : State → State) : Out :=
  match o with
  | .next s => .next (f s)
  | .fault r => .fault r
  | .refused r => .refused r

/-! ## At an instruction boundary -/

/-- Lanes of a wave in conflict (R365), a deferred cause (R174), or an asynchronous one (R193, R179). -/
inductive Due where
  | kill (team : Nat)
  | conflict (wave : Nat)
  | defer (wave : Nat) (d : Defer)
  | engine (wave : Nat)

def Wave.due (w : Wave) : Option Due :=
  if w.retired then none
  else if w.kill then some (.kill w.team)
  else if w.kettle.hit &&& w.members != 0 then some (.conflict w.uid)
  else
    match w.defer.find? w.takeable with
    | some d => some (.defer w.uid d)
    | none =>
      match w.engine with
      | _ :: _ => if w.handling || w.running != 0 then some (.engine w.uid) else none
      | [] => none

/-- The first wave's boundary move. -/
def firstDue (s : State) : Option Due := s.waves.findSome? Wave.due

def takeDue (s : State) : Due → Out
  | .kill t => exec (.killDeliver t) s
  | .conflict u => exec (.transactionConflict u) s
  | .defer u d => finish (takeDefer s u d)
  | .engine u => execEngineCauseTaken u s

/-! ## Steps of the machine by itself -/

/-- A step that does something, or stops. -/
def acts (s : State) (i : Instr) : Bool :=
  match exec i s with
  | .next t => !(decide (t = s))
  | _ => true

/-- The model's time runs in rounds of 8,192: words issue, then the machine's own steps are taken, then
sweeps go on (log entry 1). -/
def roundLen : Nat := 8192

/-- More than any count of elements or parts. -/
def allOf : Nat := 2 ^ 64

def jobEvents (u : Nat) (f : Flight) : List Instr :=
  (f.jobs.zipIdx.map (fun p =>
    if p.1.landed then []
    else if p.1.err.isSome then [Instr.readErrorReturn u f.id p.2 false]
    else [Instr.infuserDecode u f.id p.2, Instr.registerWriteback u f.id p.2 (.land true)])).flatten

def waveEvents (w : Wave) : List Instr :=
  (w.flights.map (jobEvents w.uid)).flatten ++
    [.storeOrderPoint w.uid, .commitStep w.uid, .waitConditionMet w.uid, .mxReservationReacquire w.uid,
     .quantumExpire w.qn w.uid, .preemptDeliver w.uid]

def coreEvents (n : Nat) (k : Core) : List Instr :=
  k.outs.map (fun e => .storePerformed n e.id allOf) ++ k.egress.map (fun e => .storeAck n e.id) ++
    k.xfers.map (fun x => if x.load then .tldComplete n x.id allOf else .tstComplete n x.id allOf)

def quadEvents (n : Nat) : List Instr :=
  [.waveSwap n, .pendingWaveEnter n, .xgetGrant n, .mxOpComplete n, .mxOpStart n]

def teamEvents (t : Team) : List Instr :=
  [.argCopyDone t.uid, .fetchwAnswer t.uid] ++
    [.rights, .bounds, .align, .check, .uncorr].map (fun k => .argCopyFault t.uid k) ++ t.bars.map (fun b => .barrierComplete t.uid b.1) ++
    (List.range 4).map (fun n => .gangBarrierComplete t.uid n) ++ [.teamRetire t.uid]

/-- Moves of a region's parcels, with the next element to write out. -/
def regionEvents (s : State) (key : Nat) (r : Region) : List Instr :=
  let comp := key / 2 ^ 20
  let idx := key % 2 ^ 20
  let d := regionDesc s comp idx
  let next := if r.moving then (parcelElems d (dMvp d)).find? (fun n => !r.written.contains n) else none
  [.parcelStaged comp idx] ++ (next.toList.map (fun n => Instr.parcelWriteout comp idx n)) ++ [.parcelNew comp idx]

/-- The sweep of a Steppe region: rows, laps and the next token of each slice. -/
def sweepEvents (s : State) (key : Nat) (r : Region) : List Instr :=
  let comp := key / 2 ^ 20
  let idx := key % 2 ^ 20
  (r.laps.map (fun x =>
    let token := (r.laps.map (·.1)).find? (fun m => m != x.1 && !x.2.tokens.contains m && tokenSent s comp idx m x.2.lap)
    [Instr.steppeRowApply comp idx x.1, .lapEnd comp idx x.1] ++
      token.toList.map (fun m => .lapDoneToken comp idx x.1 m))).flatten

def engineEvents (e : Nat) : List Instr :=
  [.engineTailRecord e, .chainFault e, .engineNop e, .engineCopy e allOf false, .engineFill e allOf false,
   .engineChunkDone e]

def shootEvents (h : Shoot) : List Instr :=
  h.toReceive.map (fun m => .shootdownReceive h.id m) ++ h.toCount.map (fun m => .shootdownAck h.id m)

/-- The class that an engine's requests contend with (R436). Model's choice (log entry 90): an engine that
reads its next entry has no command yet and goes before the others. -/
def engineClass (k : Engine) : Nat := match k.cmd with | some c => c.cls | none => 4

/-- The engines' steps in the order in which their requests are served (R436): in strictly decreasing class,
and within a class from another engine on in each round. -/
def engineOrder (s : State) : List Instr :=
  ([4, 3, 2, 1, 0].map (fun c =>
    let es := (s.engines.filter (fun e => engineClass e.2 == c)).map (·.1)
    ((es.rotateLeft (s.now / roundLen % (es.length + 1))).map engineEvents).flatten)).flatten

/-- The engine step that is served next. -/
def engineNext (s : State) : Option Instr := (engineOrder s).find? (acts s)

/-- Every step that the machine may take by itself, but for sweeps. -/
def ownEvents (s : State) : List Instr :=
  (s.waves.map waveEvents).flatten ++ (s.cores.map (fun c => coreEvents c.1 c.2)).flatten ++
    (s.quads.map (fun q => quadEvents q.1)).flatten ++ (s.teams.map teamEvents).flatten ++
    (s.regions.map (fun r => regionEvents s r.1 r.2)).flatten ++
    (if s.sigs.isEmpty then [] else [.monitorSignature 0]) ++
    (List.range s.fabric.length).map .steppeAdmit ++ (engineNext s).toList ++
    (s.shoots.map shootEvents).flatten ++ (List.range 64).map .launchRecordRead ++
    s.launches.map (fun l => .launchStartable l.q l.k) ++ [.teamPlace] ++
    s.launches.map (fun l => .launchComplete l.q)

/-- The first step of a list that does something, the list taken from the place numbered `k`. -/
def firstActing (s : State) (es : List Instr) (k : Nat) : Option Instr :=
  (es.rotateLeft (k % (es.length + 1))).find? (acts s)

/-- Where the own steps and the sweeps begin in a round. -/
def ownFrom : Nat := 1024
def sweepFrom : Nat := 8128

/-- The next own step, in another order in each round, so that none waits for ever. -/
def ownEvent (s : State) : Option Instr := firstActing s (ownEvents s) (s.now / roundLen)
/-- The next step of a sweep. -/
def sweepEvent (s : State) : Option Instr :=
  firstActing s ((s.regions.map (fun r => sweepEvents s r.1 r.2)).flatten) s.now

/-! ## Issue -/

/-- The words of a quadrant's cycle (R51): the first issues; a second stands by with the waves as the cycle
began (R284). -/
def issueAt (s : State) (qn : Nat) (a : Nat × Entry) (b : Option (Nat × Entry)) : Out :=
  let first := issueOf s qn a.1 a.2
  let second := b.map (fun x => { issueOf s qn x.1 x.2 with snap := s.waves })
  let s1 := { (s.mapQuad qn (fun q => { q with
      second := second
      recent := match b with | some x => x.2.parts.map (·.wave) | none => a.2.parts.map (·.wave)
      table := q.table.map (fun x =>
        if x.1 == a.1 || (match b with | some y => x.1 == y.1 | none => false) then (x.1, { x.2 with age := 0 }) else x) }))
    with cur := some first, turn := qn + 1 }
  followedBy (exec (fetch s a.2.key).2 s1) (fun t => settle t (some (qn, a.1)))

/-- Quadrants with active waves, from `turn` on in a circle. -/
def turnOrder (s : State) : List Nat :=
  let qs := (s.quads.filter (fun x => !x.2.active.isEmpty)).map (·.1)
  qs.filter (fun n => s.turn ≤ n) ++ qs.filter (fun n => n < s.turn)

/-- Cycle by cycle in their turn: the threads that wait leave, and the first quadrant with an eligible entry
issues; without one, what the cycles have changed. -/
def issueNext (s : State) : List Nat → State × Option Out
  | [] => (s, none)
  | qn :: rest =>
    let s := leaveAll (tick s qn) qn
    match choose s qn with
    | some (a, b) => (s, some (issueAt s qn a b))
    | none => issueNext (waveSwap qn s) rest

/-- Effects of the first word in waves in which the second has done nothing (R284). -/
def takeRest (s : State) : State :=
  match s.cur with
  | some i => i.late.foldl takeEffects s
  | none => s

/-- The second word of a cycle. -/
def secondAt (s : State) (qn : Nat) (i : Issue) : Out :=
  let s1 := { (s.mapQuad qn (fun q => { q with second := none })) with cur := some i }
  followedBy (exec (fetch s i.key).2 s1) (fun t => settle (takeRest t) (some (qn, i.num)))

/-! ## The step -/

/-- The quadrant whose second word stands by. -/
def standby (s : State) : Option (Nat × Issue) := s.quads.findSome? (fun q => q.2.second.map (fun i => (q.1, i)))

/-- The place in the round. -/
def State.place (s : State) : Nat := s.now % roundLen
/-- The time at a place of the same round. -/
def State.atPlace (s : State) (k : Nat) : State := { s with now := s.now / roundLen * roundLen + k }

def ownStep (s : State) (i : Instr) : Out := followedBy (exec i s) (fun t => settle t none)

/-- Sweeps, the last part of a round. -/
def runSweep (s : State) : Out :=
  match sweepEvent s with
  | some i => ownStep s i
  | none => .next (settle (s.atPlace (roundLen - 1)) none)

/-- The machine's own steps, the middle part of a round. -/
def runOwn (s : State) : Out :=
  match (if s.place < sweepFrom then ownEvent s else none) with
  | some i => ownStep s i
  | none => runSweep (if s.place < sweepFrom then s.atPlace sweepFrom else s)

/-- Issue, the first part of a round; a part in which nothing can be done ends at once. -/
def runFree (s : State) : Out :=
  if s.place < ownFrom then
    match issueNext s (turnOrder s) with
    | (_, some o) => o
    | (s, none) => runOwn ((settle s none).atPlace ownFrom)
  else runOwn s

/-- One step at time `now`. -/
def runStep (s : State) : Out :=
  match standby s with
  | some (qn, i) => secondAt s qn i
  | none =>
    match firstDue s with
    | some d => followedBy (takeDue s d) (fun t => settle t none)
    | none =>
      match s.agenda with
      | i :: rest => followedBy (exec i { s with agenda := rest }) (fun t => settle t none)
      | [] => runFree s

/-- The clock of the model's steps. -/
def advanceNow (s : State) : State := { s with now := s.now + 1 }

end Sys2Proof.Machine
end

