-- ==== Sys2Proof/Machine/Step.lean ====
section
/-!
DEFINITION. The step, and the placing of one instruction where the next step fetches it.
-/
namespace Sys2Proof.Machine

/-- One step of the machine. -/
def step (s : State) : Host.Outcome State Fault Refusal := followedBy (runStep s) advanceNow

namespace State

/-- Where `withFetchWord` puts the text: a path 0 address in device memory. -/
def fetchHome : Nat := 0x10000000

/-- The kernel descriptor of the wave of `withFetchWord`: one thread, 256 registers. -/
def fetchDesc : KDesc :=
  { pers := false, umx := false, ust := false, utry := false, privH := 0, privI := 0, tiles := 0, acc := 0, scr := 0,
    gang := 1, dx := 1, dy := 1, dz := 1, part := 0, maxe := 0, base := 256, width := 16, hoff := 0, eoff := 0 }

/-- The wave of `withFetchWord`: one live thread at PC 0, its own handler at offset 0. -/
def fetchWave (uid team code priv now : Nat) : Wave :=
  { uid := uid, team := team, num := 0, core := 0, quad := 0, lane := 0, width := 16, base := 256, ext := 0,
    code := code, threads := (List.range 16).map (fun i => Thread.start 0 (1 ≤ i)), tags := [], w := [], q := [],
    joins := [], winFirst := 0, winLen := 0, winhit := 0, cnt := Counters.zero, fpctl := 0, fpstat := 0, cause := 0,
    epc := 0, entry := 0, repeatB := 0, restore := false, handling := false, subw := 0, retm := 0, save := 0,
    parkq := [], defer := [], handler := 0, prog := 0, abort := 0, hwm := 0, watch := [], mxs := [], quantum := 0,
    sq := [], flights := [], kettle := Kettle.closed, kill := false, killEsc := false, preempt := false,
    engine := [], acqAt := now, priv := priv, retired := false, freed := false, wsoft := [], stuck := 0 }

/-- The team of that wave, resident on core 0. -/
def fetchTeam (uid code : Nat) : Team :=
  { uid := uid, lq := 0, lk := 0, n := 0, x := 0, y := 0, z := 0, gang := 0, ctx := 0, comp := 0, prio := 0,
    desc := fetchDesc, code := code, core := 0, saddle := false, spBase := [0], spSize := 0, asBase := [0],
    asSize := 0, tileBase := 0, bars := [], bargArrived := [], phase := .running, restored := false, fetchw := [],
    failed := none, saved := [], holders := [], mxops := [], readers := [], placedAt := uid }

/-- The instruction word `w` stands in the text of a one-thread wave that is alone on quadrant 0, and nothing
goes before it: the next step issues it. It stands for what the driver and the distributor do from reset
before a program's first word issues (log entry 26). -/
def withFetchWord (s : State) (_nbits w : Nat) : State :=
  let n := s.nextId
  let wave := fetchWave (n + 2) (n + 1) n (n + 3) s.now
  let code : Code := { id := n, ctx := 0, base := fetchHome, size := 16, dh := 8, kdescs := [] }
  let entry : Entry := ⟨⟨n, 0, .normal⟩, [⟨n + 2, 1⟩], 0⟩
  { s with
    mem := s.mem.writeN fetchHome (leBytes 8 w ++ List.replicate 8 0)
    codes := s.codes ++ [code]
    teams := s.teams ++ [fetchTeam (n + 1) n]
    waves := s.waves.filter (fun v => v.qn != 0 && v.due.isNone) ++ [wave]
    quads := fput (s.quads.map (fun (x : Nat × Quad) => (x.1, { x.2 with second := none }))) 0
      { Quad.reset with table := [(0, entry)], active := [n + 2] }
    agenda := [], cur := none, turn := 0, now := (s.now + (roundLen - 1)) / roundLen * roundLen, nextId := n + 4, bad := none }

end State

end Sys2Proof.Machine
end

