-- ==== Sys2Proof/Safety.lean ====
section
/-!
DEFINITION. The terms in which statements speak of a run without a stop: an issue group and its shares, operands that
are ready, the course of a word for a group or for members of a transaction, and what a word leaves as it was.
-/
namespace Sys2Proof.Machine

/-- The word of this step is the first of its cycle and issues for threads `g` of wave `w`, whose W, Q, P and X
registers hold no soft error; PREEMPT does not stop it; in the mode of a transaction the threads are all members (R49,
R192, R361). -/
structure Issues (s : State) (i : Issue) (w : Wave) (g : Mask) : Prop where
  cur    : s.cur = some i
  parts  : i.parts = [⟨w.uid, g⟩]
  first  : i.snap = []
  late   : i.late = []
  whole  : i.cut = none
  member : i.inTx = true → g &&& w.members = g
  found  : s.wave? w.uid = some w
  live   : w.retired = false
  lanes  : g ≠ 0
  steady : w.wsoft = []
  firm   : ∀ t ∈ w.threads, ∀ n ∈ t.soft, n < 16384
  sound  : s.bad = none

/-- The same in no transaction. -/
structure Alone (s : State) (i : Issue) (w : Wave) (g : Mask) : Prop extends Issues s i w g where
  mode : i.inTx = false

/-- The word of this step issues for the shares `ps`, of one wave of the quadrant or of several, as the first word of
its cycle or the second, with each wave as the cycle began (R49, R284). Their W, Q, P and X registers hold no soft
error, PREEMPT does not stop the word, and the first word left no cause. In the mode of a transaction the threads are
all members (R361). -/
structure Group (s : State) (i : Issue) (ps : List Share) : Prop where
  cur    : s.cur = some i
  parts  : i.parts = ps.map (fun p => ⟨p.u, p.grp⟩)
  found  : ∀ p ∈ ps, ∃ v, s.wave? p.u = some v ∧ v.retired = false ∧ (i.inTx = true → p.grp &&& v.members = p.grp) ∧
    p.rd = (i.snap.find? (·.uid == p.u)).getD v
  apart  : (ps.map (·.u)).Nodup
  lanes  : ∀ p ∈ ps, p.grp ≠ 0
  late   : i.late = []
  whole  : i.cut = none
  steady : ∀ p ∈ ps, p.rd.wsoft = []
  firm   : ∀ p ∈ ps, ∀ t ∈ p.rd.threads, ∀ n ∈ t.soft, n < 16384
  sound  : s.bad = none

/-- The Active lanes of an issue group (R229). -/
def activeLanes (grd : Guard) (w : Wave) (g : Mask) : Mask :=
  maskOf ((lanesOf g).filter (fun l => grd.holds (w.thread l)))

/-- The operands of a word whose half's guard holds in a thread (R238); all of them in a full-form word. -/
def liveOps (os : List Opnd) (t : Thread) : List Opnd := os.filter (fun o => o.grd.holds t)

/-- In every Active lane the operands are full or admitted empty, lie in the allocation and hold no soft
error, and the tags pass (R68, R69, R81, R173). -/
structure OpsReady (grd : Guard) (ops : Wave → Nat → List Opnd) (w : Wave) (g : Mask) : Prop where
  full  : ∀ l ∈ lanesOf (activeLanes grd w g), waitsFor w (liveOps (ops w l) (w.thread l)) = []
  sound : ∀ l ∈ lanesOf (activeLanes grd w g), operandTrap w l (liveOps (ops w l) (w.thread l)) = none
  tags  : ∀ o ∈ ops w ((lowest g).getD 0), o.idx = false → o.format w = none
  named : ∀ l ∈ lanesOf (activeLanes grd w g), ∀ o ∈ ops w l, o.idx = true → o.format w = none

/-- The window reads that a word counts (R71). -/
def hitsOf (ops : Wave → Nat → List Opnd) (w : Wave) (act : Mask) : Nat :=
  windowHits w ((lanesOf act).map (fun l => liveOps (ops w l) (w.thread l)))

/-! ## What a word leaves -/

/-- A lane after the writes that `o` lists. -/
def LaneOut.done (o : LaneOut) (t : Thread) : Thread :=
  o.put (o.vw.foldl (fun t v => t.setRegs v.1 v.2.1) t)

/-- A thread that issued at `pc` and still stands there goes on at `dest`; in handler mode the handler's PC
moves (R178, R320). -/
def Thread.moveOn (t : Thread) (hm : Bool) (pc dest : Word) : Thread :=
  if hm then (if t.hpc = pc then { t with hpc := dest } else t)
  else if t.pc = pc then { t with pc := dest } else t

/-- The tags after the writes of the Active lanes, in lane order (R80). -/
def tagsAfter (act : Mask) (out : Nat → LaneOut) (m : FMap Ety) : FMap Ety :=
  ((lanesOf act).map (fun l => (out l).vw)).flatten.foldl (fun m x => tagRun m x.1 x.2.2 x.2.1.length) m

/-- The flags of the Active lanes (R96). -/
def flagsOf (act : Mask) (out : Nat → LaneOut) : BitVec 5 := (lanesOf act).foldl (fun a l => a ||| (out l).flags) 0

/-- The issuing wave after a word that works lane by lane: Active lanes hold their results, issuing threads go
on, and nothing else of the wave changes but the window count and the flags. -/
def afterWord (i : Issue) (g act : Mask) (hits : Nat) (out : Nat → LaneOut) (v : Wave) : Wave :=
  { v with
    threads := v.threads.mapIdx (fun l t =>
      let t := if act.getLsbD l then (out l).done t else t
      if g.getLsbD l then
        t.moveOn i.hm i.key.pc (if act.getLsbD l then (out l).go.getD (pcNext i.key.pc) else pcNext i.key.pc)
      else t)
    tags := tagsAfter act out v.tags
    winhit := v.winhit + BitVec.ofNat 64 hits
    fpstat := v.fpstat ||| (flagsOf act out).zeroExtend 32 }

/-- `t` is `s` but for wave `u`, on which `F` has acted, and for what the second words that stand by know of
raised flags. -/
def OnlyWave (s t : State) (u : Nat) (F : Wave → Wave) : Prop :=
  t = { s with waves := s.waves.map (fun v => if v.uid = u then F v else v), quads := t.quads } ∧
    ∀ n, { t.quad n with second := none } = { s.quad n with second := none }

/-- `t` is `s` with `F` of each wave, but for what the second words that stand by know of raised flags. -/
def OnlyWaves (s t : State) (F : Wave → Wave) : Prop :=
  t = { s with waves := s.waves.map F, quads := t.quads } ∧
    ∀ n, { t.quad n with second := none } = { s.quad n with second := none }

/-- What the body of a word learns of one share of its group. -/
def shareCtx (s : State) (i : Issue) (grd : Guard) (p : Share) : Ctx :=
  ⟨i, p.rd, p.u, p.grp, activeLanes grd p.rd p.grp, s.team? p.rd.team⟩

/-- A wave after a word that works lane by lane, for a group of shares. -/
def afterGroup (i : Issue) (grd : Guard) (ops : Wave → Nat → List Opnd) (out : Share → Nat → LaneOut) (ps : List Share)
    (v : Wave) : Wave :=
  match ps.find? (·.u == v.uid) with
  | none => v
  | some p =>
    let act := activeLanes grd p.rd p.grp
    afterWord i p.grp act (hitsOf ops p.rd act) (out p) v

/-- The V registers that the Active lanes write, in the order of lanes. -/
def writtenBy (act : Mask) (out : Nat → LaneOut) : List Nat :=
  (((lanesOf act).map (fun l => (out l).vw)).flatten.map (fun x => rangeFrom x.1 x.2.1.length)).flatten

/-- What the body of a word learns when it issues alone. -/
def soloCtx (s : State) (i : Issue) (grd : Guard) (w : Wave) (g : Mask) : Ctx :=
  ⟨i, w, w.uid, g, activeLanes grd w g, s.team? w.team⟩

/-- The issuing threads that do not stay move on: each to its target, or to the next word. -/
def leaveWord (i : Issue) (g stay : Mask) (go : Nat → Option Word) (v : Wave) : Wave :=
  { v with threads := v.threads.mapIdx (fun l t =>
      if (g &&& ~~~ stay).getLsbD l then t.moveOn i.hm i.key.pc ((go l).getD (pcNext i.key.pc)) else t) }

/-- The window count of R71. -/
def counted (s : State) (u hits : Nat) : State :=
  s.mapWave u (fun v => { v with winhit := v.winhit + BitVec.ofNat 64 hits })

/-- A word that works lane by lane leaves in every Active lane of every share of its group what `out` says, when its
operands are ready and `ok` holds (R282). Issued by members it logs the registers it writes first (R363), and aborts the
Active ones with code 0x04 where the register log is full. -/
def LaneCourse (ins : Instr) (grd : Guard) (ops : Wave → Nat → List Opnd) (ok : State → Ctx → Prop)
    (out : State → Ctx → Nat → LaneOut) : Prop :=
  (∀ s i ps, Group s i ps → i.inTx = false →
    (∀ p ∈ ps, OpsReady grd ops p.rd p.grp ∧ ok s (shareCtx s i grd p)) →
    ∃ t, exec ins s = .next t ∧ OnlyWaves s t (afterGroup i grd ops (fun p => out s (shareCtx s i grd p)) ps)) ∧
  (∀ s i p, Group s i [p] → i.inTx = true → OpsReady grd ops p.rd p.grp →
    let c := shareCtx s i grd p
    let hits := hitsOf ops p.rd c.act
    let log := logRegs s p.u (writtenBy c.act (out s c))
    ok s c → c.act ≠ 0 →
    (log.2 = true → ∃ t, exec ins s = .next t ∧ OnlyWave log.1 t p.u (afterWord i p.grp c.act hits (out s c))) ∧
    (log.2 = false → (∀ n, standsBy s n p.u = false) → exec ins s = .next (retireIfDone
      (((counted s p.u hits).mapWave p.u (leaveWord i p.grp 0 (fun _ => none))).mapWave p.u (fun v =>
        abortTx v c.act 4 0)) p.u)))

/-- The law of a full-form word, where no flag that it raises is enabled to trap (R97). -/
def LaneWord (ins : Instr) (grd : Guard) (ops : Wave → Nat → List Opnd) (ok : Ctx → Prop) (out : State → Ctx → Nat → LaneOut) :
    Prop :=
  LaneCourse ins grd ops (fun s c => ok c ∧ ∀ l ∈ c.lanes, (out s c l).flags &&& c.rd.fxe = 0) out

/-- The law of a pair word, each operand under its half's guard: no flag of it traps (R240). -/
def PairWord (ins : Instr) (ops : Wave → Nat → List Opnd) (out : Ctx → Nat → LaneOut) : Prop :=
  LaneCourse ins .always ops (fun _ _ => True) (fun _ => out)

/-- The instruction `ins`, issuing alone with some Active lane and its operands ready, has the effect `eff` on
the machine whenever `ok` holds; then its issuing threads go on, but those that stay. -/
def WaveWord (ins : Instr) (grd : Guard) (ops : State → Wave → Nat → List Opnd) (ok : State → Ctx → Prop)
    (eff : State → Ctx → State) (stay : Ctx → Mask) (go : Ctx → Nat → Option Word) : Prop :=
  ∀ s i w g, Alone s i w g → OpsReady grd (ops s) w g → activeLanes grd w g ≠ 0 →
    let c := soloCtx s i grd w g
    let s1 := counted s w.uid (hitsOf (ops s) w (activeLanes grd w g))
    ok s1 c → exec ins s = .next ((eff s1 c).mapWave w.uid (leaveWord i g (stay c) (go c)))

/-- The same for an instruction without V operands. -/
def SoloWord (ins : Instr) (grd : Guard) (ok : State → Ctx → Prop) (eff : State → Ctx → State) (stay : Ctx → Mask) :
    Prop :=
  ∀ s i w g, Alone s i w g → activeLanes grd w g ≠ 0 →
    let c := soloCtx s i grd w g
    ok s c → exec ins s = .next ((eff s c).mapWave w.uid (leaveWord i g (stay c) (fun _ => none)))

/-! ## Taking an exception (R174, R175, R178, R180) -/

/-- Nothing stands in the way of a cause in these lanes: no sub-wave runs or is parked, PREEMPT is not due, no second
word of the cycle stands by for the wave (R284), the lanes are in no transaction, and the wave has a handler of its own. -/
structure Calm (s : State) (w : Wave) (lanes : Mask) : Prop where
  idle   : w.handling = false
  none   : w.parkq = []
  quiet  : w.preempt = false
  single : ∀ n, standsBy s n w.uid = false
  out    : w.members &&& lanes = 0
  custom : w.handler ≠ defaultHandler s w

/-- These lanes leave normal issue and their join slots, and go on in handler mode at `h`; each keeps its own PC
and its %tval. -/
def Wave.enter (k : Cause) (epc : Word) (lanes : Mask) (tval : Nat → DWord) (h : Word) (w : Wave) : Wave :=
  let w := (w.mapLanes lanes (fun l t => { t with wait := .none, parkPc := t.pc, tval := tval l })).leaveJoins lanes
  { w with
    parkq := [], handling := true, cause := k.word, entry := k.word, epc := epc, subw := lanes, retm := lanes
    threads := w.threads.mapIdx (fun l t => if lanes.getLsbD l then { t with hpc := h, wait := .none } else t) }

/-- Causes whose %epc is the word after (R174). -/
def isAfter (k : Cause) : Bool := k == .break || k == .fpx || k == .watch

/-- The traps of one cause in some lanes. -/
def trapsOf (k : Cause) (lanes : Mask) (tval : Nat → DWord) : List Trap := (lanesOf lanes).map (fun l => ⟨l, k, tval l, 0⟩)

/-- The instruction `ins`, issuing alone in a calm wave with its operands ready, raises `k` in `lanes` whenever
`ok` holds: these lanes enter handler mode, the others go on. -/
def TrapWord (ins : Instr) (grd : Guard) (ops : State → Wave → Nat → List Opnd) (ok : State → Ctx → Prop) (k : Cause)
    (lanes : Ctx → Mask) (tval : State → Ctx → Nat → DWord) : Prop :=
  ∀ s i w g, Alone s i w g → OpsReady grd (ops s) w g → activeLanes grd w g ≠ 0 →
    let c := soloCtx s i grd w g
    let s1 := counted s w.uid (hitsOf (ops s) w (activeLanes grd w g))
    Calm s w (lanes c) → lanes c ≠ 0 → ok s1 c →
    exec ins s = .next ((s1.mapWave w.uid (leaveWord i g (if isAfter k then 0 else lanes c) (fun _ => none))).mapWave w.uid
      (Wave.enter k (if isAfter k then i.key.pc + 8 else i.key.pc) (lanes c) (tval s1 c) w.handler))

/-! ## Operand shapes (R281) and results by element (R282) -/

/-- Destination and source A of ETY. -/
def shapeUn (f : Full) (_ : Wave) (l : Nat) : List Opnd := [opD f l, opA f l f.ety]
/-- Destination, sources A and B of ETY. -/
def shapeBin (f : Full) (_ : Wave) (l : Nat) : List Opnd := [opD f l, opA f l f.ety] ++ opB f l f.ety
/-- Destination read as the third source, sources A and B of ETY. -/
def shapeAcc (f : Full) (_ : Wave) (l : Nat) : List Opnd := [opDacc f l, opA f l f.ety] ++ opB f l f.ety
/-- Destination and source A of ETY, source B of another type. -/
def shapeBinB (f : Full) (b : Ety) (_ : Wave) (l : Nat) : List Opnd := [opD f l, opA f l f.ety] ++ opB f l b
def shapeAccB (f : Full) (b : Ety) (_ : Wave) (l : Nat) : List Opnd := [opDacc f l, opA f l f.ety] ++ opB f l b
/-- No V operand. -/
def shapeNone (_ : Wave) (_ : Nat) : List Opnd := []

/-- Exact integer results of the elements of a and b, reduced (R82). -/
def intPairs (f : Full) (op : Int → Int → Int) (t : Thread) : Nat :=
  elemsJoin f.ety (List.zipWith (fun x y => reduce f.ety f.sat (op (intOf f.ety x) (intOf f.ety y)))
    (elemsOf f.ety (f.valA t f.ety)) (elemsOf f.ety (f.valB t f.ety)))
/-- Exact integer results of the elements of a, reduced. -/
def intSingles (f : Full) (op : Int → Int) (t : Thread) : Nat :=
  elemsJoin f.ety ((elemsOf f.ety (f.valA t f.ety)).map (fun x => reduce f.ety f.sat (op (intOf f.ety x))))
/-- Results of the elements of a as bit strings. -/
def bitSingles (f : Full) (op : Nat → Nat) (t : Thread) : Nat :=
  elemsJoin f.ety ((elemsOf f.ety (f.valA t f.ety)).map op)

/-! ## Memory words (R327) -/

/-- Every access may go ahead at once: its checks pass, it waits for no page, fills its registers and meets no
watch range; and so do the pieces `hs` in which they are performed. -/
def AccsReady (c : Ctx) (wants : List Want) (as hs : List Acc) : Prop :=
  as ≠ [] ∧ (∀ a ∈ as, (∃ l, a.chk = .ok l) ∧ a.ragged = false ∧
    ∀ g, a.gen = some g → watchHit c.rd g a.size wants = false) ∧
  ∀ a ∈ hs, (∃ l, a.chk = .ok l) ∧ a.ragged = false

/-- A producer begins: its destinations are empty, it is in flight, and LDQ rises when it is counted (R69,
R146). -/
def Wave.begin (fl : Flight) (w : Wave) : Wave :=
  let w := fl.jobs.foldl (fun w j => w.mapThread j.lane (fun t => t.setEmpty j.dst fl.id j.n)) w
  let w := { w with flights := w.flights ++ [fl] }
  if fl.ldq then { w with cnt := { w.cnt with ldq := w.cnt.ldq + 1 } } else w

/-- The pending registers of a load: one job for each piece, in order. -/
def loadJobs (f : Full) (as : List Acc) : List Job :=
  as.map (fun a => Job.read a.lane a.dst a.n f.ety (.mem a.loc a.size) a.path a.adr)

/-- A load has issued: a new producer of the wave, in the order of the accesses, a 16-byte access outside the own
memory in two halves (R139), and their signatures. -/
def loadBegun (f : Full) (as : List Acc) (s : State) (c : Ctx) : State :=
  sendSigs ({ s with nextId := s.nextId + 1 }.mapWave c.u
    (Wave.begin { Flight.start s.nextId c.pc f.ety with mem := true, ldq := true, jobs := loadJobs f (splitHalves s c .read as) })) c as

/-- An entry has joined the tail of the wave's store queue; STQ and SYQ have risen (R142, R146). -/
def Wave.queue (e : StEntry) (w : Wave) : Wave :=
  { w with sq := w.sq ++ [e], cnt := { w.cnt with stq := w.cnt.stq + 1, syq := w.cnt.syq + 1 } }

/-- A store has issued: one entry with a part for each access or half, with what its translation found (R200). -/
def storeBegun (kind : StKind) (scope : Nat) (acq rel : Bool) (as : List Acc) (mk : Acc → StPart) (s : State) (c : Ctx) :
    State :=
  sendSigs ({ s with nextId := s.nextId + 1 }.mapWave c.u
    (Wave.queue { StEntry.make s.nextId c kind
      (markShared s c.ctxNo ((splitHalves s c .write as).map mk)) with scope := scope, acq := acq, rel := rel })) c as

/-- An atomic has issued: an entry of the store queue, and a producer for the old values where it returns
them (R335, R336). -/
def atomicBegun (f : Full) (op scope : Nat) (acq rel ret : Bool) (arg : Nat → AtomArgs) (as : List Acc) (s : State)
    (c : Ctx) : State :=
  let id := s.nextId
  let jobs := as.map (fun a => Job.read a.lane f.dn f.ety.regs f.ety .await a.path a.adr)
  let parts := as.zipIdx.map (fun p => p.1.part f.ety (.rmw op (arg p.1.lane).cmp) (arg p.1.lane).val
    (if ret then some p.2 else none) .atomic)
  let s := { s with nextId := id + 2 }
  let s := if ret then s.mapWave c.u (Wave.begin
    { Flight.start (id + 1) c.pc f.ety with mem := true, ldq := true, jobs := jobs }) else s
  sendSigs (s.mapWave c.u (Wave.queue { StEntry.make id c .atomic (markShared s c.ctxNo parts) with
    scope := scope, acq := acq, rel := rel, flight := if ret then some (id + 1) else none })) c as

/-! ## Memory words of members (R363) -/

/-- The instruction `ins`, issued by members with some Active lane and its operands ready, has the effect `eff` whenever
`ok` holds; then its issuing threads go on. -/
def MemberWord (ins : Instr) (grd : Guard) (ops : State → Wave → Nat → List Opnd) (ok : State → Ctx → Prop)
    (eff : State → Ctx → State) : Prop :=
  ∀ s i w g, Issues s i w g → i.inTx = true → OpsReady grd (ops s) w g → activeLanes grd w g ≠ 0 →
    let c := soloCtx s i grd w g
    let s1 := counted s w.uid (hitsOf (ops s) w (activeLanes grd w g))
    ok s1 c → exec ins s = .next ((eff s1 c).mapWave w.uid (leaveWord i g 0 (fun _ => none)))

/-- Where a structure of the transaction is full, its Active members abort with `code` instead. -/
def MemberFull (ins : Instr) (grd : Guard) (ops : State → Wave → Nat → List Opnd) (ok : State → Ctx → Prop)
    (eff : State → Ctx → State) (code : Nat) : Prop :=
  ∀ s i w g, Issues s i w g → i.inTx = true → OpsReady grd (ops s) w g → activeLanes grd w g ≠ 0 →
    (∀ n, standsBy s n w.uid = false) →
    let c := soloCtx s i grd w g
    let s1 := counted s w.uid (hitsOf (ops s) w (activeLanes grd w g))
    ok s1 c → exec ins s = .next (retireIfDone (((eff s1 c).mapWave w.uid (leaveWord i g 0 (fun _ => none))).mapWave w.uid
      (fun v => abortTx v c.act code 0)) w.uid)

/-- The entries that a store of members puts into the store buffer: one for each access, in lane order. -/
def memberParts (as : List Acc) (mk : Acc → StPart) (s : State) (c : Ctx) : List StPart := markShared s c.ctxNo (as.map mk)

/-- A store by members: its entries join the store buffer, and nothing is queued or counted (R159). -/
def storeBuffered (as : List Acc) (mk : Acc → StPart) (s : State) (c : Ctx) : State :=
  sendSigs (s.mapWave c.u (fun w => { w with kettle := { w.kettle with buf := w.kettle.buf ++ memberParts as mk s c } })) c as

/-- The pending registers of a load by members: each byte that an earlier buffered store of the thread covers comes from
the latest such store. -/
def memberJobs (f : Full) (as : List Acc) (s : State) (c : Ctx) : List Job :=
  (splitHalves s c .read as).map (fun a =>
    { Job.read a.lane a.dst a.n f.ety (.mem a.loc a.size) a.path a.adr with fwd := bufferBytes s c.rd a.lane a.loc })

/-- The registers of a load by members are logged after its lines have entered the read set. -/
def loadLog (f : Full) (as : List Acc) (s : State) (c : Ctx) : State × Bool :=
  logRegs { (recordReads s c as).1 with nextId := s.nextId + 1 } c.u
    ((memberJobs f as s c).map (fun j => rangeFrom j.dst j.n)).flatten

/-- A load by members has issued: its lines stand in the read set with its lanes, its registers in the register log, and
one producer reads it. -/
def loadLogged (f : Full) (as : List Acc) (s : State) (c : Ctx) : State :=
  sendSigs ((loadLog f as s c).1.mapWave c.u
    (Wave.begin { Flight.start s.nextId c.pc f.ety with mem := true, ldq := true, jobs := memberJobs f as s c })) c as

/-- An atomic of members enters its lines into the read set and reads at issue. -/
def memberReads (as : List Acc) (s : State) (c : Ctx) : State :=
  as.foldl (fun s a => useLoc s false c.ctxNo (c.rd.core / 96) a.path a.adr a.loc) (recordReads s c as).1

/-- The old value of an access: what the thread's buffered stores or the memory hold. -/
def memberOld (s : State) (c : Ctx) (a : Acc) : Nat :=
  leNat (finishBytes a.size a.loc (layFwd (bufferBytes s c.rd a.lane a.loc) (coreRead s c.rd.core a.loc).1))

/-- The new values of R336, as entries of the store buffer. -/
def memberNews (f : Full) (op : Nat) (arg : Nat → AtomArgs) (as : List Acc) (s : State) (c : Ctx) : List StPart :=
  let r := memberReads as s c
  memberParts as (fun a => a.part f.ety .store (atomicNew f.ety op (memberOld r c a) (arg a.lane).val (arg a.lane).cmp) none
    .write) r c

/-- The new values stand in the store buffer, the lines that were read are known, and the signatures are sent. -/
def atomicSeen (f : Full) (op : Nat) (arg : Nat → AtomArgs) (as : List Acc) (s : State) (c : Ctx) : State :=
  let r := memberReads as s c
  let r := r.mapWave c.u (fun w => { w with kettle := { w.kettle with buf := w.kettle.buf ++ memberNews f op arg as s c } })
  sendSigs (r.mapWave c.u (fun w => as.foldl (fun w a => seeRead w a.lane r.nextId a.loc (a.loc.addrs r)) w)) c as

/-- The old values that an atomic of members returns. -/
def memberRets (f : Full) (as : List Acc) (s : State) (c : Ctx) : List Job :=
  as.map (fun a => Job.known a.lane f.dn f.ety (natWords f.ety.regs (memberOld (memberReads as s c) c a)) 0)

/-- The registers for the old values are logged. -/
def retLog (f : Full) (op : Nat) (arg : Nat → AtomArgs) (as : List Acc) (s : State) (c : Ctx) : State × Bool :=
  let r := atomicSeen f op arg as s c
  logRegs { r with nextId := r.nextId + 1 } c.u ((memberRets f as s c).map (fun j => rangeFrom j.dst j.n)).flatten

/-- An atomic by members has issued. -/
def atomicBuffered (f : Full) (op : Nat) (ret : Bool) (arg : Nat → AtomArgs) (as : List Acc) (s : State) (c : Ctx) : State :=
  if ret then
    (retLog f op arg as s c).1.mapWave c.u (Wave.begin
      { Flight.start (atomicSeen f op arg as s c).nextId c.pc f.ety with mem := true, ldq := true, jobs := memberRets f as s c })
  else atomicSeen f op arg as s c

/-- A long-latency instruction has issued: a producer whose values are known (R283). -/
def produced (f : Full) (jobs : List Job) (s : State) (c : Ctx) : State :=
  { s with nextId := s.nextId + 1 }.mapWave c.u
    (Wave.begin { Flight.start s.nextId c.pc f.ety with fpx := true, jobs := jobs })

/-- Registers wait for an answer from another place of the device (R355, R384). -/
def asked (n dst : Nat) (tag : Ety) (src : JobSrc) (s : State) (c : Ctx) : State :=
  { s with nextId := s.nextId + 1 }.mapWave c.u (Wave.begin { Flight.start s.nextId c.pc tag with
    mem := true, jobs := c.lanes.map (fun l => Job.read l dst n tag src pathTiled 0) })

/-- The Active threads wait for `x` and give up their entry (R58). -/
def waiting (x : Wait) (s : State) (c : Ctx) : State := c.lanes.foldl (fun t l => startWait t c.u l x) s

/-- The value v of a type in registers d up of some lanes, with its tag. -/
def Wave.spread (act : Mask) (d : Nat) (t : Ety) (v : Nat) (w : Wave) : Wave :=
  putV w ((lanesOf act).map (fun l => ⟨l, d, natWords t.regs v, t⟩))

/-- The accesses of TRD: the lane's index counts registers of the tile (R352). -/
def tileAccs (f : Full) (t : Team) (e : DWord) (c : Ctx) : List Acc :=
  c.lanes.map (fun l =>
    { lane := l, chk := .ok (.bytes (tAddrs t e (((c.rd.thread l).reg f.bn).toNat * regBytes f) (regBytes f)) .plain),
      gen := none, adr := tileVa e (((c.rd.thread l).reg f.bn).toNat * regBytes f), path := pathTile, size := regBytes f, dst := f.dn, n := f.ety.regs })

/-! ## Steps that the machine takes by itself -/

/-- The step `ins` has the effect `eff` in every state that meets `ok`, where the addresses it reaches exist. -/
def Happens (ins : Instr) (ok : State → Prop) (eff : State → State) : Prop :=
  ∀ s, ok s → (eff s).bad = none → exec ins s = .next (eff s)

end Sys2Proof.Machine
end

