-- ==== Sys2Proof/Certificates/Slice0/Obligations.lean ====
section
/-!
DEFINITION. The statements for the provers, by the chapters of the specification.
-/
open Sys2Proof Sys2Proof.Machine

/-! ## Integer and bit instructions -/

/-- The integer and logic instructions of R286 leave in every Active lane the exact result of each element,
wrapped or clamped, with the tag ETY, and nothing else of the machine changes. -/
def Obligations.IntegerResults : Prop := ∀ f : Full,
  let ints (ins : Full → Instr) (op : Int → Int → Int) : Prop :=
    LaneWord (ins f) f.grd (shapeBin f) (fun _ => True) (fun _ c l => .val f.dn f.ety (intPairs f op (c.rd.thread l)))
  let bits (ins : Full → Instr) (op : Nat → Nat → Nat) : Prop :=
    LaneWord (ins f) f.grd (shapeBin f) (fun _ => True) (fun _ c l =>
      .val f.dn f.ety (op (f.valA (c.rd.thread l) f.ety) (f.valB (c.rd.thread l) f.ety)))
  let single (ins : Full → Instr) (op : Nat → Nat) : Prop :=
    LaneWord (ins f) f.grd (shapeUn f) (fun _ => True) (fun _ c l => .val f.dn f.ety (bitSingles f op (c.rd.thread l)))
  let n := f.ety.width
  ints .iadd (· + ·) ∧ ints .isub (· - ·) ∧ ints .imul (· * ·) ∧
  ints .imulh (fun a b => a * b / (2 ^ f.ety.width : Nat)) ∧ ints .imin min ∧ ints .imax max ∧
  bits .and (· &&& ·) ∧ bits .or (· ||| ·) ∧ bits .xor (· ^^^ ·) ∧ bits .andn (fun a b => a ^^^ (a &&& b)) ∧
  LaneWord (.imad f) f.grd (shapeAcc f) (fun _ => True) (fun _ c l =>
    let t := c.rd.thread l
    .val f.dn f.ety (reduce f.ety f.sat
      (intOf f.ety (f.valA t f.ety) * intOf f.ety (f.valB t f.ety) + intOf f.ety (f.valD t)))) ∧
  LaneWord (.iabs f) f.grd (shapeUn f) (fun _ => True) (fun _ c l =>
    .val f.dn f.ety (intSingles f (fun x => x.natAbs) (c.rd.thread l))) ∧
  LaneWord (.ineg f) f.grd (shapeUn f) (fun _ => True) (fun _ c l =>
    .val f.dn f.ety (intSingles f (fun x => -x) (c.rd.thread l))) ∧
  single .not (fun a => 2 ^ n - 1 - a) ∧
  single .popc (fun a => ((List.range n).filter a.testBit).length) ∧
  single .clz (fun a => (((List.range n).map a.testBit).reverse.takeWhile (!·)).length) ∧
  single .ctz (fun a => (((List.range n).map a.testBit).takeWhile (!·)).length) ∧
  single .brev (fun a => ((List.range n).map (fun i => a.testBit i)).foldl (fun v b => 2 * v + b.toNat) 0)

/-- A word whose operands are ready runs for every share of its issue group, first word of its cycle or second, one wave
or several: each wave's share is the body of the word with the wave as the cycle began, then the end of the share, in
the order of the shares (R49, R229, R284). The earlier shares' issue leaves the later ones' operands as they are. -/
def Obligations.GroupCourse : Prop := ∀ ins m s i ps, semOf ins = some m → Group s i ps →
  let active (p : Share) : Mask := activeLanes m.grd p.rd p.grp
  let share (t : State) (p : Share) : State := settleShare i m p.u p.rd p.grp []
    (if active p = 0 then { st := t }
     else m.body (counted t p.u (hitsOf (m.ops s) p.rd (active p))) (shareCtx t i m.grd p))
  (∀ p ∈ ps, OpsReady m.grd (m.ops s) p.rd p.grp ∧ m.legal s p.rd i.hm = true ∧ (i.inTx = true → m.forbid p.rd = false) ∧
    m.hold s p.rd (active p) = false ∧ m.tile s p.rd (active p) = none ∧ m.fmt s p.rd (active p) = none) →
  (∀ done p rest, ps = done ++ p :: rest → ∀ l, m.ops (done.foldl share s) p.rd l = m.ops s p.rd l) →
  (ps.foldl share s).bad = none → exec ins s = .next (ps.foldl share s)

/-- The shifts of R288: b is one register of type N32, the count its low bits. -/
def Obligations.ShiftResults : Prop := ∀ f : Full,
  let n := f.ety.width
  let shift (ins : Full → Instr) (op : Nat → Nat → Nat) : Prop :=
    LaneWord (ins f) f.grd (shapeBinB f .n32) (fun _ => True) (fun _ c l =>
      let t := c.rd.thread l
      .val f.dn f.ety (op (f.valA t f.ety) (f.valB t .n32 % n)))
  shift .shl (fun a s => a * 2 ^ s % 2 ^ n) ∧ shift .shr (fun a s => a / 2 ^ s) ∧
  shift .sar (fun a s => reduce f.ety false (intOf f.ety a / (2 ^ s : Nat))) ∧
  shift .rot (fun a s => (a * 2 ^ s + a / 2 ^ (32 - s)) % 2 ^ 32) ∧
  LaneWord (.fshf f) f.grd (shapeAccB f .n32) (fun _ => True) (fun _ c l =>
    let t := c.rd.thread l
    let x := f.valA t f.ety * 2 ^ 32 + f.valD t
    let s := f.valB t .n32 % 32
    .val f.dn f.ety (if f.lo3 = 0 then x / 2 ^ s % 2 ^ 32 else x * 2 ^ s / 2 ^ 32 % 2 ^ 32))

/-- Bit fields (R289), address add and dot product (R290), byte gather (R291). -/
def Obligations.FieldResults : Prop := ∀ f : Full,
  let n := f.ety.width
  LaneWord (.bfx f) f.grd (shapeBinB f .n32) (fun _ => True) (fun _ c l =>
    let t := c.rd.thread l
    let b := f.valB t .n32
    .val f.dn f.ety (bitField f.ety (f.valA t f.ety) (b % 256) (min (b / 256 % 256) n))) ∧
  LaneWord (.bfi f) f.grd (shapeAccB f .n32) (fun _ => True) (fun _ c l =>
    let t := c.rd.thread l
    let b := f.valB t .n32
    .val f.dn f.ety (bitInsert n (f.valD t) (f.valA t f.ety) (b % 256) (min (b / 256 % 256) n))) ∧
  LaneWord (.lea f) f.grd (fun _ l => [.dst l f.dn 2, opA f l .n64] ++ opB f l .s32) (fun _ => True) (fun _ c l =>
    let t := c.rd.thread l
    .val f.dn .n64 (((f.valA t .n64 : Int) + intOf .s32 (f.valB t .s32) * (2 ^ f.lo3 : Nat)) % (2 ^ 64 : Nat)).toNat) ∧
  LaneWord (.idot4 f) f.grd (fun _ l => [opDacc f l, opA f l .s8] ++ opB f l .s8) (fun _ => True) (fun _ c l =>
    let t := c.rd.thread l
    let a := (elemsOf .s8 (f.valA t .s8)).map (intOf .s8)
    let b := (elemsOf .s8 (f.valB t .s8)).map (intOf .s8)
    .val f.dn .s32 (reduce .s32 f.sat ((List.zipWith (· * ·) a b).foldl (· + ·) (intOf .s32 (f.valD t))))) ∧
  LaneWord (.bpick f) f.grd (fun _ l => [opDacc f l, opA f l .bits] ++ opB f l .n32) (fun _ => True) (fun _ c l =>
    let t := c.rd.thread l
    .val f.dn .bits (bytePick (f.valD t) (f.valA t .bits)
      (if f.imm? then f.imm16.toNat else f.valB t .n32 % 2 ^ 16)))

/-! ## Float instructions -/

/-- The float instructions of R292 to R297 that land at once: each element is rounded once, in the mode of the
word or of %fpctl, and the flags of the Active lanes are ORed into %fpstat (R95, R96). -/
def Obligations.FloatResults : Prop := ∀ f : Full,
  let bin (ins : Full → Instr) (op : Rnd → Nat → Nat → Nat × FFlags) : Prop :=
    LaneWord (ins f) f.grd (shapeBin f) (fun _ => True) (fun _ c l =>
      .fval f.dn f.ety (fBinVal f (op (rndOf f c)) (c.rd.thread l)))
  let un (ins : Full → Instr) (op : Rnd → Nat → Nat × FFlags) : Prop :=
    LaneWord (ins f) f.grd (shapeUn f) (fun _ => True) (fun _ c l =>
      .fval f.dn f.ety (fUnVal f (op (rndOf f c)) (c.rd.thread l)))
  let acc (ins : Full → Instr) (op : Rnd → Nat → Nat → Nat → Nat × FFlags) : Prop :=
    LaneWord (ins f) f.grd (shapeAcc f) (fun _ => True) (fun _ c l =>
      let t := c.rd.thread l
      let ab := (elemsOf f.ety (f.valA t f.ety)).zip (elemsOf f.ety (f.valB t f.ety))
      .fval f.dn f.ety (joinElems f.ety
        (List.zipWith (fun p d => op (rndOf f c) p.1 p.2 d) ab (elemsOf f.ety (f.valD t)))))
  let m := Fmt.of f.ety
  bin .fadd (fAdd m) ∧ bin .fsub (fSub m) ∧ bin .fmul (fMul m) ∧
  acc .fma (fun r a b d => fFma m r false a b d) ∧ acc .fnma (fun r a b d => fFma m r true a b d) ∧
  bin .fmin (fun r a b => fMinMax m false r.ftz a b) ∧ bin .fmax (fun r a b => fMinMax m true r.ftz a b) ∧
  un .fabs (fun _ a => (fSignClear m a, 0)) ∧ un .fneg (fun _ a => (fSignFlip m a, 0)) ∧
  un .frnd (fun r a => fIntegral m r.md r.ftz a) ∧
  LaneWord (.fscl f) f.grd (shapeBinB f .s32) (fun _ => True) (fun _ c l =>
    let t := c.rd.thread l
    .fval f.dn f.ety (fUnVal f (fun a => fScale m (rndOf f c) a (intOf .s32 (f.valB t .s32))) t)) ∧
  LaneWord (.fcls f) f.grd (fun _ l => [.dst l f.dn 1, opA f l f.ety]) (fun _ => True) (fun _ c l =>
    .val f.dn .n32 ((elemsOf f.ety (f.valA (c.rd.thread l) f.ety)).foldr (fun a n => fClass m a + 2 ^ 16 * n) 0)) ∧
  (let h : Ety := if f.lo3 = 0 then .f16 else .bf16
   LaneWord (.fdot2 f) f.grd (fun _ l => [opDacc f l, opA f l h] ++ opB f l h) (fun _ => True) (fun _ c l =>
    let t := c.rd.thread l
    .fval f.dn .f32 (fDot2 (Fmt.of h) (rndOf f c) (elemsOf h (f.valA t h)) (elemsOf h (f.valB t h)) (f.valD t))))

/-- The complex instructions of R299 that land at once; the conjugate flags are MOD<0> for a and MOD<1> for b. -/
def Obligations.ComplexResults : Prop := ∀ f : Full,
  let a (t : Thread) := conjIf (f.lo3 % 2 == 1) (c64Of (f.valA t .c64))
  let b (t : Thread) := conjIf (f.lo3 / 2 % 2 == 1) (c64Of (f.valB t .c64))
  LaneWord (.cmul f) f.grd (fun _ l => [opD f l, opA f l .c64] ++ opB f l .c64) (fun _ => True) (fun _ c l =>
    let r := cMul (rndOf f c) (a (c.rd.thread l)) (b (c.rd.thread l))
    .fval f.dn .c64 (c64Join r.1, r.2)) ∧
  LaneWord (.cfma f) f.grd (fun _ l => [opDacc f l, opA f l .c64] ++ opB f l .c64) (fun _ => True) (fun _ c l =>
    let t := c.rd.thread l
    let r := cFma (rndOf f c) (a t) (b t) (c64Of (f.valD t))
    .fval f.dn .c64 (c64Join r.1, r.2)) ∧
  LaneWord (.cconj f) f.grd (fun _ l => [opD f l, opA f l .c64]) (fun _ => True) (fun _ c l =>
    .val f.dn .c64 (c64Join (conjIf true (c64Of (f.valA (c.rd.thread l) .c64)))))

/-! ## Conversion, comparison, predicates, exchange, moves -/

/-- CVT, SRND, PACK and UNPK (R300 to R303). -/
def Obligations.ConversionResults : Prop := ∀ f : Full,
  let sty := (Ety.ofCode (f.sb.extractLsb' 0 4)).getD .bits
  let one := f.ety.elems = 1
  LaneWord (.cvt f) f.grd (fun _ l => [if one then opD f l else opDacc f l, opA f l sty]) (fun _ => True) (fun _ c l =>
    let t := c.rd.thread l
    let r := rndOf f c
    let v := convert sty f.ety r.md r.sat r.ftz ((elemsOf sty (f.valA t sty)).getD (f.bn / 16 % 4) 0)
    .fval f.dn f.ety (if one then v.1 else elemSet f.ety (f.valD t) (f.bn / 64 % 4) v.1, v.2)) ∧
  LaneWord (.srnd f) f.grd (fun _ l => [opD f l, .src l 1 f.an f.ety.elems f.femA (some .f32)] ++ opB f l .bits)
    (fun _ => True) (fun _ c l =>
      let t := c.rd.thread l
      .fval f.dn f.ety (joinElems f.ety ((List.range f.ety.elems).map (fun e =>
        srndElem f (f.valB t .bits) e (t.val (f.an + e) 1))))) ∧
  LaneWord (.pack f) f.grd (fun _ l =>
      [if f.ety.elems = 2 then opD f l else opDacc f l, opA f l (packSrc f)] ++ opB f l (packSrc f))
    (fun _ => True) (fun _ c l =>
      let t := c.rd.thread l
      let a := packElem f (rndOf f c) (f.valA t (packSrc f))
      let b := packElem f (rndOf f c) (f.valB t (packSrc f))
      let d := if f.ety.elems = 2 then 0 else f.valD t
      .fval f.dn f.ety (elemSet f.ety (elemSet f.ety d (2 * (f.lo3 % 2)) a.1) (2 * (f.lo3 % 2) + 1) b.1, a.2 ||| b.2)) ∧
  LaneWord (.unpk f) f.grd (fun _ l => [.dst l f.dn 2, opA f l sty]) (fun _ => True) (fun _ c l =>
    let es := elemsOf sty (f.valA (c.rd.thread l) sty)
    let a := unpkElem f (es.getD (2 * (f.lo3 % 2)) 0)
    let b := unpkElem f (es.getD (2 * (f.lo3 % 2) + 1) 0)
    { vw := [(f.dn, [BitVec.ofNat 32 a.1], f.ety), (f.dn + 1, [BitVec.ofNat 32 b.1], f.ety)], flags := a.2 ||| b.2 })

/-- Comparison, selection, predicate logic and votes (R304 to R307): Boolean results in every Active lane. -/
def Obligations.PredicateResults : Prop := ∀ f : Full,
  let m := Fmt.of f.ety
  let ab (t : Thread) := (elemsOf f.ety (f.valA t f.ety)).zip (elemsOf f.ety (f.valB t f.ety))
  let cmp : Wave → Nat → List Opnd := fun _ l => [opA f l f.ety] ++ opB f l f.ety
  LaneWord (.icmp f) f.grd cmp (fun _ => True) (fun _ c l =>
    { pw := [(f.dn, (ab (c.rd.thread l)).all (fun p => intCond f.lo3 (intOf f.ety p.1) (intOf f.ety p.2)))] }) ∧
  LaneWord (.fcmp f) f.grd cmp (fun _ => True) (fun _ c l =>
    let rs := (ab (c.rd.thread l)).map (fun p => fCompare m f.ftz f.lo3 p.1 p.2)
    { pw := [(f.dn, rs.all (·.1))], flags := rs.foldl (fun a r => a ||| r.2) 0 }) ∧
  LaneWord (.sel f) f.grd (shapeBin f) (fun _ => True) (fun _ c l =>
    let t := c.rd.thread l
    .val f.dn f.ety (if t.pred f.lo3 != f.md.getLsbD 3 then f.valA t f.ety else f.valB t f.ety)) ∧
  LaneWord (.plog f) f.grd shapeNone (fun _ => True) (fun _ c l =>
    let t := c.rd.thread l
    { pw := [(f.dn, f.md.getLsbD (2 * (t.pred f.an).toNat + (t.pred f.bn).toNat))] }) ∧
  (f.lo3 = 0 → LaneWord (.pmov f) f.grd (fun _ l => [.dst l f.dn 1]) (fun _ => True) (fun _ c l =>
    .val f.dn .n32 ((c.rd.thread l).pred f.an).toNat)) ∧
  (f.lo3 ≠ 0 → LaneWord (.pmov f) f.grd (fun _ l => [opA f l .bits]) (fun _ => True) (fun _ c l =>
    { pw := [(f.dn, (c.rd.thread l).reg f.an != 0)] })) ∧
  (let ops : Wave → Nat → List Opnd := fun _ l =>
      match f.lo3 with | 2 => [.dst l f.dn 1] | 3 => [.dst l f.dn 2] | _ => []
   LaneWord (.vote f) f.grd ops (fun _ => True) (fun _ c _ =>
    let b := maskOf (c.lanes.filter (fun l => (c.rd.thread l).pred f.an))
    match f.lo3 with
    | 0 => { pw := [(f.dn, b == c.act)] }
    | 1 => { pw := [(f.dn, b != 0)] }
    | 2 => .val f.dn .n32 (lanesOf b).length
    | _ => .val f.dn .n64 b.toNat))

/-- Lane exchange (R308 to R310): a lane takes operand a of its partner, Active or not, as it stood before the
word; while its index register is empty only the tag of a is checked. -/
def Obligations.ExchangeResults : Prop := ∀ f : Full,
  let take (ins : Full → Instr) (extra : Nat → List Opnd) (from_ : Wave → Nat → Nat) : Prop :=
    LaneWord (ins f) f.grd (fun w l =>
        [opD f l, if (extra l).any (fun o => !(o.empties w).isEmpty) then { opA f l f.ety with part := true, rd := false }
          else { opA f (from_ w l) f.ety with part := true }] ++ extra l)
      (fun _ => True) (fun _ c l => .val f.dn f.ety (f.valA (c.rd.thread (from_ c.rd l)) f.ety))
  take .lxb (fun _ => []) (fun w l => l ^^^ (f.md.toNat % 64 &&& (w.width - 1))) ∧
  take .lxs (fun l => opB f l .n32) (fun w l =>
    let j := f.valB (w.thread l) .n32
    match f.md.toNat with
    | 0 => j % w.width
    | 1 => if j ≤ l then l - j else l
    | _ => if l + j < w.width then l + j else l) ∧
  take .lxbc (fun _ => []) (fun w _ => f.md.toNat % 64 % w.width)

/-- Moves between V, X and special registers in a lane (R242, R312 to R315, R318). -/
def Obligations.MoveResults : Prop := ∀ f : Full,
  let kept (w : Wave) : Ety := if f.ety == .bits then w.tag f.an else f.ety
  let name (base : Nat) (t : Thread) : Int := base + (t.xreg (f.md.toNat % 4)).toInt
  let odd (n : Int) : Bool := n % f.ety.regs != 0
  LaneWord (.mov f) f.grd (shapeUn f) (fun _ => True) (fun _ c l =>
    { vw := [(f.dn, natWords f.ety.regs (f.valA (c.rd.thread l) f.ety), kept c.rd)] }) ∧
  LaneWord (.movi f) f.grd (fun _ l => [if f.lo3 = 1 then opDacc f l else opD f l]) (fun _ => True) (fun _ c l =>
    .val f.dn f.ety (if f.lo3 = 1 then f.imm16.toNat * 2 ^ 16 + ((c.rd.thread l).reg f.dn).toNat % 2 ^ 16
      else immValue f.ety f.imm16)) ∧
  LaneWord (.movx f) f.grd (fun w l =>
      [opD f l, { Opnd.src l 1 0 f.ety.regs f.femA (some f.ety) with
        reg := name f.an (w.thread l), idx := true, odd := odd (name f.an (w.thread l)) }])
    (fun _ => True) (fun _ c l =>
      let t := c.rd.thread l
      { vw := [(f.dn, t.regs (name f.an t).toNat f.ety.regs, f.ety)] }) ∧
  LaneWord (.movxw f) f.grd (fun w l =>
      [{ Opnd.dst l 0 f.ety.regs with reg := name f.dn (w.thread l), idx := true, odd := odd (name f.dn (w.thread l)) },
       opA f l f.ety])
    (fun _ => True) (fun _ c l =>
      let t := c.rd.thread l
      { vw := [((name f.dn t).toNat, natWords f.ety.regs (f.valA t f.ety), kept c.rd)] }) ∧
  (f.lo3 % 4 = 2 → LaneWord (.setx f) f.grd (fun _ l => [.dst l f.dn 1]) (fun _ => True) (fun _ c l =>
    .val f.dn .s32 (reduce .s32 false (((c.rd.thread l).xreg f.an).toInt)))) ∧
  (f.lo3 % 4 ≠ 2 → LaneWord (.setx f) f.grd (fun _ l => if f.imm? then [] else [opA f l .s32]) (fun _ => True)
    (fun _ c l =>
      let t := c.rd.thread l
      let v : Int := if f.imm? then f.imm16.toInt else intOf .s32 (f.valA t .s32)
      let old : Int := if f.lo3 % 4 = 1 then (t.xreg f.dn).toInt else 0
      { xw := [(f.dn, reduce16 (f.md.getLsbD 2) (old + v))] })) ∧
  LaneWord (.gets f) f.grd (fun _ l => [opD f l]) (fun _ => True) (fun s c l =>
    .val f.dn f.ety (readSpecial s c l f.imm16.toNat)) ∧
  (f.lo3 ≠ 0 → LaneWord (.tag f) f.grd (fun _ l => [.dst l f.dn 1, .src l 1 f.an 1 f.femA none]) (fun _ => True)
    (fun _ c _ => .val f.dn .n32 (c.rd.tag f.an).code.toNat)) ∧
  (f.lo3 % 4 = 0 → LaneWord (.wmov f) f.grd (fun _ l => [opD f l]) (fun c => f.md.getLsbD 2 = false ∨ c.hm = true)
    (fun _ c _ => .val f.dn f.ety (if f.md.getLsbD 2 then c.rd.qreg f.an else c.rd.wreg f.an).toNat))

/-! ## Control -/

/-- Branches, calls, returns and LOOPW (R320, R321): where the Active lanes go. -/
def Obligations.BranchResults : Prop := ∀ f : Full,
  let target (pc : Word) : Word := pc + 8 + 8 * f.imm16.signExtend 32
  LaneWord (.bra f) f.grd shapeNone (fun _ => True) (fun _ c _ => { go := some (target c.pc) }) ∧
  LaneWord (.brw f) f.grd shapeNone (fun _ => True) (fun _ c _ =>
    { go := if (c.rd.wreg f.an != 0) != (f.lo3 % 2 == 1) then some (target c.pc) else none }) ∧
  LaneWord (.call f) f.grd (fun _ l => [.dst l f.dn 1]) (fun _ => True) (fun _ c _ =>
    { vw := [(f.dn, [c.pc + 8], .n32)], go := some (target c.pc) }) ∧
  (let ok (c : Ctx) : Prop := ∀ l ∈ c.lanes, ((c.rd.thread l).reg f.an).toNat % 8 = 0
   let jump : State → Ctx → Nat → LaneOut := fun _ c l => { go := some ((c.rd.thread l).reg f.an) }
   LaneWord (.brx f) f.grd (fun _ l => [opA f l .n32]) ok jump ∧
   LaneWord (.ret f) f.grd (fun _ l => [opA f l .n32]) ok jump) ∧
  SoloWord (.loopw f) f.grd (fun _ c => c.rd.wreg f.dn = 1)
    (fun s c => s.mapWave c.u (·.setW f.dn 0)) (fun _ => 0) ∧
  WaveWord (.loopw f) f.grd (fun _ => shapeNone) (fun _ c => c.rd.wreg f.dn ≠ 1)
    (fun s c => s.mapWave c.u (·.setW f.dn (c.rd.wreg f.dn - 1))) (fun _ => 0)
    (fun c l => if c.act.getLsbD l then some (target c.pc) else none)

/-- Joins and the other control words (R53, R54, R60, R63, R181, R322): in handler mode JPT, JOIN and YIELD only
go on and EXIT clears RETM. -/
def Obligations.ControlResults : Prop := ∀ f : Full,
  let target (c : Ctx) : Word := c.pc + 8 + 8 * f.imm16.signExtend 32
  let slot (c : Ctx) : Join := c.rd.join? f.lo3
  let arrive (c : Ctx) : Mask := if c.hm = false ∧ (slot c).valid then c.act &&& (slot c).exp else 0
  SoloWord (.nop f) f.grd (fun _ _ => True) (fun s _ => s) (fun _ => 0) ∧
  SoloWord (.jpt f) f.grd (fun _ c => (slot c).valid = true → (slot c).pc = target c)
    (fun s c => if c.hm then s else s.mapWave c.u (fun w => w.setJoin f.lo3
      (if (slot c).valid then { slot c with exp := (slot c).exp ||| c.act } else ⟨true, target c, c.act, 0⟩)))
    (fun _ => 0) ∧
  SoloWord (.join f) f.grd (fun _ _ => True)
    (fun s c => if arrive c = 0 then s else s.mapWave c.u (fun w =>
      ((w.setWait (arrive c) (.join f.lo3)).setJoin f.lo3 { slot c with arr := (slot c).arr ||| arrive c }).joinTest
        f.lo3))
    arrive ∧
  SoloWord (.yield f) f.grd (fun _ _ => True)
    (fun s c => if c.hm then s else yieldWave s c.iss c.u) (fun _ => 0) ∧
  SoloWord (.exit f) f.grd (fun _ c => c.hm = true)
    (fun s c => s.mapWave c.u (fun w => { w with retm := w.retm &&& ~~~ c.act })) (fun _ => 0) ∧
  SoloWord (.exit f) f.grd (fun _ c => c.hm = false)
    (fun s c => retireIfDone (s.mapWave c.u (fun w => exitLanes w c.act)) c.u) (fun c => c.act)

/-- Wave registers, special registers, the window, the flags and the tags (R71, R95, R96, R242, R315, R316,
R318, R319): the lowest Active lane supplies a V operand. -/
def Obligations.WaveRegisterResults : Prop := ∀ f : Full,
  let low (c : Ctx) : Word := (c.rd.thread ((lowest c.act).getD 0)).reg f.an
  let put (q : Bool) (v : Word) (w : Wave) : Wave := if q then w.setQ f.dn v else w.setW f.dn v
  let q := f.md.getLsbD 2
  (f.lo3 % 4 = 1 → WaveWord (.wmov f) f.grd (fun s w l => [opWave f (opA f · f.ety) s w l]) (fun _ c => q = true → c.hm = true)
    (fun s c => s.mapWave c.u (put q (low c))) (fun _ => 0) (fun _ _ => none)) ∧
  (2 ≤ f.lo3 % 4 → SoloWord (.wmov f) f.grd (fun _ c => q = true → c.hm = true)
    (fun s c => s.mapWave c.u (put q (if q then c.rd.qreg f.an else c.rd.wreg f.an))) (fun _ => 0)) ∧
  WaveWord (.sets f) f.grd (fun s w l => [opWave f (opA f · f.ety) s w l])
    (fun _ c => badMode f.imm16.toNat (low c) = false ∧
      (c.hm = true ∨ ∀ b, specialReg f.imm16.toNat ≠ some (b, 2)))
    (fun s c => s.mapWave c.u (fun w =>
      writeSpecial w f.imm16.toNat (low c) (allFlags (c.iss.raised.filter (·.1 == c.u))))) (fun _ => 0) (fun _ _ => none) ∧
  SoloWord (.win f) f.grd (fun _ c => f.an + f.imm16.toNat ≤ c.rd.top)
    (fun s c => s.mapWave c.u (fun w => loadWindow w f.an f.imm16.toNat)) (fun _ => 0) ∧
  (f.lo3 = 0 → WaveWord (.tag f) f.grd (fun _ _ l => [opD f l]) (fun _ _ => True)
    (fun s c => s.mapWave c.u (fun w => w.setTags f.dn f.ety f.ety.regs)) (fun _ => 0) (fun _ _ => none)) ∧
  SoloWord (.setf f) f.grd (fun _ _ => True)
    (fun s c => raiseFlags s c.u c.qn [(0, (c.rd.wreg f.an).extractLsb' 0 5)]) (fun _ => 0)

/-- Register acquisition (R66, R67, R73, R74, R317): XGET is granted or waits in the quadrant's queue; its
predicate form answers whether it was granted; XREL frees the highest registers, those with a write in flight
into quarantine. What a grant does to the marks of plots is the model's choice (log entry 23), since R27 gives registers
no place in the plots: a plot of the quadrant's register file that another context has marked becomes mixed. -/
def Obligations.AcquisitionResults : Prop := ∀ f : Full,
  let n := f.imm16.toNat
  let within (s : State) (c : Ctx) : Prop :=
    c.rd.top + n ≤ 2048 ∧ ∃ t, s.team? c.rd.team = some t ∧ c.rd.ext + n ≤ t.desc.maxe
  let room (s : State) (c : Ctx) : Bool :=
    regsFree s c.rd.qn c.rd.lane c.rd.width n && !heldBack s c.rd (s.quad c.rd.qn).xq
  SoloWord (.xget f) f.grd (fun s c => within s c ∧ room s c = true)
    (fun s c => markGrant (s.mapWave c.u (fun w => grantRegs w n)) c.rd) (fun _ => 0) ∧
  SoloWord (.xget f) f.grd (fun s c => within s c ∧ room s c = false)
    (fun s c => c.lanes.foldl (fun t l => startWait t c.u l (.xget s.nextId))
      ({ s with nextId := s.nextId + 1 }.mapQuad c.rd.qn (fun q => { q with xq := q.xq ++ [(s.nextId, c.u, n)] })))
    (fun c => c.act) ∧
  SoloWord (.xgetP f) f.grd within
    (fun s c => (if room s c then markGrant (s.mapWave c.u (fun w => grantRegs w n)) c.rd else s).mapWave c.u (fun w =>
      w.mapLanes c.act (fun _ t => t.setPred f.dn (room s c)))) (fun _ => 0) ∧
  SoloWord (.xrel f) f.grd (fun _ c => n ≤ c.rd.ext) (fun s c => releaseRegs s c.u n) (fun _ => 0)

/-! ## Memory (R324 to R344) -/

/-- The loads empty their registers, begin one producer that reads the accesses in lane order, a 16-byte access on
path 5, 6 or 7 in two halves (R139), and raise LDQ (R327, R328, R330 to R334, R340), whenever every access passes its
checks; LDG ends with %prog = 0 (R333). Issued by members they enter their lines into the read set and their registers
into the register log, and take from the thread's own buffered stores what these cover; where the read set or the log is
full the Active members abort with code 0x05 or 0x04 (R363). -/
def Obligations.LoadResults : Prop := ∀ f : Full,
  let loads (ins : Full → Instr) (ops : State → Wave → Nat → List Opnd) (accs : State → Ctx → List Acc)
      (fin : State → Ctx → State) (ok : State → Ctx → Prop) : Prop :=
    let ready (s : State) (c : Ctx) : Prop :=
      memHold [0] s c.rd c.act = false ∧ AccsReady c [.read] (accs s c) (splitHalves s c .read (accs s c)) ∧ ok s c
    WaveWord (ins f) f.grd ops ready (fun s c => fin (loadBegun f (accs s c) s c) c) (fun _ => 0) (fun _ _ => none) ∧
    MemberWord (ins f) f.grd ops
      (fun s c => ready s c ∧ (recordReads s c (accs s c)).2 = true ∧ (loadLog f (accs s c) s c).2 = true)
      (fun s c => fin (loadLogged f (accs s c) s c) c) ∧
    MemberFull (ins f) f.grd ops (fun s c => ready s c ∧ (recordReads s c (accs s c)).2 = false) fin 5 ∧
    MemberFull (ins f) f.grd ops
      (fun s c => ready s c ∧ (recordReads s c (accs s c)).2 = true ∧ (loadLog f (accs s c) s c).2 = false)
      (fun s c => fin (loadLog f (accs s c) s c).1 c) 4
  let same (s : State) (_ : Ctx) : State := s
  loads .ld (fun _ _ l => ldOps f true l) (fun s c => c.lanes.map (fun l => genAcc s c f .read (ldAddr f c.rd l) l)) same
    (fun _ c => isQ f = true → c.hm = true) ∧
  loads .lds (fun _ _ l => offOps f true l)
    (fun _ c => c.lanes.map (fun l => scratchAcc c f (offAddr f (c.rd.thread l)) l)) same (fun _ _ => True) ∧
  loads .ldp (fun _ _ l => offOps f true l)
    (fun _ c => c.lanes.map (fun l => privAcc c f (offAddr f (c.rd.thread l)) l)) same (fun _ _ => True) ∧
  loads .ldro (fun _ _ l => [opD f l] ++ opOff f l) (fun s c => c.lanes.map (roAcc s c f)) same (fun _ _ => True) ∧
  loads .ldg (fun _ _ l => gatherOps f true l) (fun s c => gatherAccs s c f .read none) (fun s c => setProg s c 0)
    (fun _ _ => True) ∧
  loads .ldt (fun s w l => [opD f l, opCoords s w f l])
    (fun s c => c.lanes.map (coordAcc s c f .read (· == 1) false)) same (fun s c => coordFmt f s c.rd c.act = none)

/-- The stores put one entry at the tail of the wave's store queue, with a part for each access in lane order,
a 16-byte access on path 5, 6 or 7 in two halves (R139), and raise STQ and SYQ (R142, R146, R327 to R334, R338, R340);
STG ends with %prog = 0 (R333). Issued by members they put one entry for each access into the store buffer, and neither
queue nor count it; where the buffer is full the Active members abort with code 0x03 (R159, R363). -/
def Obligations.StoreResults : Prop := ∀ f : Full,
  let stores (ins : Full → Instr) (kind : StKind) (scope : Nat) (acq rel : Bool) (want : Want)
      (ops : State → Wave → Nat → List Opnd) (accs : State → Ctx → List Acc) (part : Ctx → Acc → StPart)
      (fin : State → Ctx → State) (ok : State → Ctx → Prop) : Prop :=
    let ready (s : State) (c : Ctx) : Prop :=
      memHold [1, 2] s c.rd c.act = false ∧ AccsReady c [want] (accs s c) (splitHalves s c .write (accs s c)) ∧ ok s c
    WaveWord (ins f) f.grd ops ready (fun s c => fin (storeBegun kind scope acq rel (accs s c) (part c) s c) c)
      (fun _ => 0) (fun _ _ => none) ∧
    MemberWord (ins f) f.grd ops (fun s c => ready s c ∧ c.rd.kettle.buf.length + (accs s c).length ≤ 256)
      (fun s c => fin (storeBuffered (accs s c) (part c) s c) c) ∧
    MemberFull (ins f) f.grd ops (fun s c => ready s c ∧ c.rd.kettle.buf.length + (accs s c).length > 256) fin 3
  let same (s : State) (_ : Ctx) : State := s
  let plain (c : Ctx) (a : Acc) : StPart :=
    a.part f.ety .store (storeValue f (f.valD (c.rd.thread a.lane))) none .write
  stores .st .plain 0 false false .write (fun _ _ l => ldOps f false l)
    (fun s c => c.lanes.map (fun l => genAcc s c f .write (ldAddr f c.rd l) l)) plain same
    (fun _ c => isQ f = true → c.hm = true) ∧
  stores .sts .plain 0 false false .write (fun _ _ l => offOps f false l)
    (fun _ c => c.lanes.map (fun l => scratchAcc c f (offAddr f (c.rd.thread l)) l)) plain same (fun _ _ => True) ∧
  stores .stp .plain 0 false false .write (fun _ _ l => offOps f false l)
    (fun _ c => c.lanes.map (fun l => privAcc c f (offAddr f (c.rd.thread l)) l)) plain same (fun _ _ => True) ∧
  stores .stg .plain 0 false false .write (fun _ _ l => gatherOps f false l) (fun s c => gatherAccs s c f .write none)
    (fun c a => a.part f.ety .store ((c.rd.thread a.lane).val a.dst a.n) none .write) (fun s c => setProg s c 0)
    (fun _ _ => True) ∧
  stores .stt .plain 0 false false .write (fun s w l => [opStored f l f.ety.regs, opCoords s w f l])
    (fun s c => c.lanes.map (coordAcc s c f .write (fun k => k == 1 || k == 2) (f.ety == .bits))) plain same
    (fun s c => coordFmt f s c.rd c.act = none) ∧
  stores .rsadd .rsadd f.scope (f.md.getLsbD 0) (f.md.getLsbD 1) .atomic
    (fun _ _ l => [opStored f l 1, opA f l .n64]) (fun s c => c.lanes.map (rsAcc s c f))
    (fun c a => a.part f.ety (.rmw 0 0) ((c.rd.thread a.lane).val f.dn 1) none .atomic) same (fun _ _ => True)

/-- The atomics queue a read-modify-write for each lane and, in the form that returns old values, empty the
destinations of a new producer (R335 to R337, R341). A relaxed one that members issue reads at once: its lines enter the
read set, the new values the store buffer, and the form that returns old values begins a producer for them; where the
read set, the buffer or the register log is full the Active members abort with code 0x05, 0x03 or 0x04 (R363). -/
def Obligations.AtomicResults : Prop := ∀ f : Full,
  let op := atomCode f
  let ret := atomRet f
  let atomics (ins : Full → Instr) (scope : Nat) (ops : State → Wave → Nat → List Opnd) (accs : State → Ctx → List Acc)
      (ok : State → Ctx → Prop) : Prop :=
    let ready (s : State) (c : Ctx) : Prop :=
      memHold (if ret then [0, 1, 2] else [1, 2]) s c.rd c.act = false ∧ AccsReady c [.atomic] (accs s c) [] ∧ ok s c
    let inTx (s : State) (c : Ctx) : Prop := ready s c ∧ (atomAcq f || atomRel f) = false ∧ memberHold s c.rd c.act = false ∧
      memberAsleep accs s c.rd c.act = false
    let sound (s : State) (c : Ctx) : Prop :=
      (recordReads s c (accs s c)).2 = true ∧ ∀ a ∈ accs s c, (coreRead (memberReads (accs s c) s c) c.rd.core a.loc).2 = false
    let room (s : State) (c : Ctx) : Prop := c.rd.kettle.buf.length + (accs s c).length ≤ 256
    WaveWord (ins f) f.grd ops (fun s c => ready s c ∧ c.rd.members &&& c.act = 0)
      (fun s c => atomicBegun f op scope (atomAcq f) (atomRel f) ret (atomArg f c) (accs s c) s c)
      (fun _ => 0) (fun _ _ => none) ∧
    MemberWord (ins f) f.grd ops
      (fun s c => inTx s c ∧ sound s c ∧ room s c ∧ (ret = true → (retLog f op (atomArg f c) (accs s c) s c).2 = true))
      (fun s c => atomicBuffered f op ret (atomArg f c) (accs s c) s c) ∧
    MemberFull (ins f) f.grd ops (fun s c => inTx s c ∧ (recordReads s c (accs s c)).2 = false) (fun s _ => s) 5 ∧
    MemberFull (ins f) f.grd ops (fun s c => inTx s c ∧ sound s c ∧ ¬ room s c) (fun s c => memberReads (accs s c) s c) 3 ∧
    MemberFull (ins f) f.grd ops
      (fun s c => inTx s c ∧ sound s c ∧ room s c ∧ ret = true ∧ (retLog f op (atomArg f c) (accs s c) s c).2 = false)
      (fun s c => (retLog f op (atomArg f c) (accs s c) s c).1) 4
  let coords (s : State) (c : Ctx) : List Acc :=
    c.lanes.map (coordAcc s c f .atomic (fun k => k == 1 || (k == 2 && !ret)) (op == 6 || op == 7))
  atomics .atom (atomScope f) (fun _ _ l => opAtom f l ++ [opA f l .n64]) (fun s c => c.lanes.map (atomAcc s c f))
    (fun _ _ => True) ∧
  atomics .atomsReg (atomScope f) (fun _ _ l => opAtom f l ++ [opA f l .n32]) (fun _ c => c.lanes.map (atomsAcc c f))
    (fun _ _ => True) ∧
  atomics .atomsImm (atomScope f) (fun _ _ l => opAtom f l ++ [opA f l .n32]) (fun _ c => c.lanes.map (atomsAcc c f))
    (fun _ _ => True) ∧
  atomics .atomt f.scope (fun s w l => opAtom f l ++ [opCoords s w f l]) coords
    (fun s c => coordFmt f s c.rd c.act = none ∧ onSteppe s c f = false) ∧
  WaveWord (.atomt f) f.grd (fun s w l => opAtom f l ++ [opCoords s w f l])
    (fun s c => memHold (if ret then [0, 1, 2] else [1, 2]) s c.rd c.act = false ∧
      c.rd.members &&& c.act = 0 ∧ AccsReady c [.atomic] (coords s c) (splitHalves s c .write (coords s c)) ∧ coordFmt f s c.rd c.act = none ∧
      onSteppe s c f = true)
    (fun s c => storeBegun .rsadd f.scope (atomAcq f) (atomRel f) (coords s c) (fun a =>
      a.part f.ety (.rmw op 0) (f.valD (c.rd.thread a.lane)) none .atomic) s c)
    (fun _ => 0) (fun _ _ => none)

/-- LAPR empties its registers for a producer whose requests go to the home slices through the fabric (R343);
PREF acts lane by lane on the L1 or the slice cache (R344). -/
def Obligations.LapResults : Prop := ∀ f : Full,
  WaveWord (.lapr f) f.grd (fun s w l => [.dst l f.dn (f.ety.regs + 1), opCoords s w f l])
    (fun s c => memHold [0] s c.rd c.act = false ∧ declares (·.ust) s c.rd c.hm = true ∧
      coordFmt f s c.rd c.act = none ∧ AccsReady c [.read] (c.lanes.map (coordAcc s c f .read (· == 2) false)) [])
    (fun s c =>
      let as := c.lanes.map (coordAcc s c f .read (· == 2) false)
      let jobs := as.map (fun a => Job.read a.lane a.dst (a.n + 1) f.ety .await pathSteppe a.adr)
      let s1 := { s with nextId := s.nextId + 1, fabric := s.fabric ++ laprRequests c f s.nextId as }
      sendSigs (s1.mapWave c.u (Wave.begin { Flight.start s.nextId c.pc f.ety with mem := true, ldq := true, jobs := jobs })) c as)
    (fun _ => 0) (fun _ _ => none) ∧
  WaveWord (.pref f) f.grd (fun _ _ l => [opA f l .n64] ++ (if f.imm? then [] else [.src l 2 f.bn 1 f.femB (some .s32)]))
    (fun s c => memHold [] s c.rd c.act = false)
    (fun s c => c.lanes.foldl (fun s l => prefLane f s c l) s) (fun _ => 0) (fun _ _ => none)

/-! ## Causes (R172 to R183, R231, R364) -/

/-- TRAP (OPC 0x0CF) and BRK (0x0D0), which take I = 1 with DST, SA and MOD3 zero, park their Active threads with
BREAK: %epc is the word after, %tval the immediate, with bit 16 for TRAP, and the threads go on in handler mode. In
handler mode the cause is recorded and the handler goes on at PC + 8 (R323). -/
def Obligations.BreakEntry : Prop := ∀ f : Full,
  let shape (ins : Instr) (opc : BitVec 9) : Prop :=
    (ins.wellFormed = true → f.imm? = true ∧ f.dst = 0 ∧ f.sa = 0 ∧ f.lo3 = 0) ∧
    ∀ w, encode ins = some w → w.extractLsb' 53 9 = opc
  let recorded (ins : Instr) : Prop := ∀ s i w g, Issues s i w g → i.hm = true → w.handling = true → g &&& ~~~ w.subw = 0 →
    activeLanes f.grd w g ≠ 0 →
    (∀ n, standsBy s n w.uid = false) →
    exec ins s = .next ((s.mapWave w.uid (leaveWord i g 0 (fun _ => none))).mapWave w.uid (fun v =>
      (lanesOf (activeLanes f.grd w g)).foldl (fun v _ => v.recordCause .break) v))
  shape (.trap f) 0x0CF ∧ shape (.brk f) 0x0D0 ∧
  TrapWord (.trap f) f.grd (fun _ => shapeNone) (fun _ _ => True) .break (fun c => c.act)
    (fun _ _ _ => BitVec.ofNat 64 (f.imm16.toNat + 2 ^ 16)) ∧
  TrapWord (.brk f) f.grd (fun _ => shapeNone) (fun _ _ => True) .break (fun c => c.act)
    (fun _ _ _ => BitVec.ofNat 64 f.imm16.toNat) ∧
  recorded (.trap f) ∧ recorded (.brk f)

/-- A word that is no instruction, and a PC beyond the text, raise ILLEGAL in every issuing thread (R183, R223,
R252): the threads of a calm wave enter handler mode, with the word as %tval, or 0 beyond the text; members abort
with code 0x08 (R189); in handler mode the cause is recorded and the threads go on at the next word (R180). No second
word of the wave's cycle stands by, which would come before these effects (R284). -/
def Obligations.IllegalEntry : Prop := ∀ s i w g x, Issues s i w g → (∀ n, standsBy s n w.uid = false) →
  let taken (tv : DWord) : State := s.mapWave w.uid (Wave.enter .illegal i.key.pc g (fun _ => tv) w.handler)
  (i.inTx = false → Calm s w g → exec (.illegalWord x) s = .next (taken x) ∧ exec .textOverrun s = .next (taken 0)) ∧
  (w.handling = false → w.members &&& g ≠ 0 → exec (.illegalWord x) s = .next (retireIfDone
    (s.mapWave w.uid (fun v => abortTx v g 8 0)) w.uid)) ∧
  (w.handling = true → g &&& ~~~ w.subw = 0 → exec (.illegalWord x) s = .next (s.mapWave w.uid (fun v =>
    ((lanesOf g).foldl (fun v _ => v.recordCause .illegal) v).setPc g (fun _ => i.key.pc + 8))))

/-- RTH, HGET, HSET, PARK and REPLAY are permitted in handler mode and illegal elsewhere (HSET of a selector of the
save area besides outside a restore, R190); CINV, XLINV, DEADM and APSET are permitted, in handler mode or out of
it, only in a wave whose context is marked privileged (R251). An instruction that is not permitted where it issues
does what a word that is no instruction does: it raises ILLEGAL, with its word as %tval (R183, R231). That it does so
whatever the guard says, and in members of a transaction ahead of R364, is the model's choice (log entry 28). -/
def Obligations.WhereLegal : Prop :=
  (∀ (f : Full) (s : State) (w : Wave) (hm : Bool),
    let legal (ins : Instr) : Bool := (semOf ins).any (fun m => m.legal s w hm)
    legal (.rth f) = hm ∧ legal (.hget f) = hm ∧ legal (.park f) = hm ∧ legal (.replay f) = hm ∧
    legal (.ologdDrop f) = hm ∧ legal (.hset f) = (hm && (!(selOf f).atRestore || w.restore)) ∧
    (∀ ins ∈ [Instr.cinv f, .xlinv f, .deadm f, .apset f], legal ins = ctxPriv s (waveCtx s w))) ∧
  (∀ (ins : Instr) (m : Sem) (s : State) (i : Issue), semOf ins = some m → s.cur = some i →
    (∃ p ∈ shares s i, m.legal s p.rd i.hm = false) → exec ins s = exec (.illegalWord i.word) s) ∧
  (∀ (ins : Instr) (m : Sem) (s : State) (i : Issue) (w : Wave) (g : Mask), semOf ins = some m → Alone s i w g →
    Calm s w g → m.legal s w i.hm = false →
    exec ins s = .next (s.mapWave w.uid (Wave.enter .illegal i.key.pc g (fun _ => i.word) w.handler)))

/-- The causes of operands come before the instruction acts: lanes whose operands lie outside the allocation, are
empty with FEM = 1, or hold a soft error enter handler mode with that cause, and write nothing (R68, R69, R173), where
no value makes the word ILLEGAL, which ranks above them (R182). -/
def Obligations.OperandCauses : Prop := ∀ ins m k tval s i w g, semOf ins = some m → Alone s i w g →
  let act := activeLanes m.grd w g
  let live (l : Nat) : List Opnd := liveOps (m.ops s w l) (w.thread l)
  act ≠ 0 → Calm s w act → m.legal s w i.hm = true → m.hold s w act = false → m.tile s w act = none →
  m.formats s w g act = [] → m.valueIllegal s (soloCtx s i m.grd w g) = [] → (∀ l ∈ lanesOf act, waitsFor w (live l) = []) →
  (∀ l ∈ lanesOf act, operandTrap w l (live l) = some ⟨l, k, tval l, 0⟩) →
  exec ins s = .next ((s.mapWave w.uid (leaveWord i g act (fun _ => none))).mapWave w.uid
    (Wave.enter k i.key.pc act tval w.handler))

/-- FORMAT stops the whole word: every issuing thread enters handler mode with the %tval of the first operand that
fails (R81, R231), where no thread raises a cause that ranks above it (R182). -/
def Obligations.FormatEntry : Prop := ∀ ins m tv s i w g, semOf ins = some m → Alone s i w g →
  let act := activeLanes m.grd w g
  let live (l : Nat) : List Opnd := liveOps (m.ops s w l) (w.thread l)
  Calm s w g → m.legal s w i.hm = true → m.hold s w act = false → (act = 0 ∨ m.tile s w act = none) →
  m.valueIllegal s (soloCtx s i m.grd w g) = [] → firstFormat (m.formats s w g act) = some tv → (∀ l ∈ lanesOf act, waitsFor w (live l) = []) →
  (∀ l ∈ lanesOf act, operandTrap w l (live l) = none) →
  exec ins s = .next (s.mapWave w.uid (Wave.enter .format i.key.pc g (fun _ => tv) w.handler))

/-- A word with no Active lane only moves its threads on (R229). -/
def Obligations.NoActiveLane : Prop := ∀ ins m s i w g, semOf ins = some m → Issues s i w g →
  activeLanes m.grd w g = 0 → m.legal s w i.hm = true → m.hold s w 0 = false → m.formats s w g 0 = [] →
  exec ins s = .next (s.mapWave w.uid (leaveWord i g 0 (fun _ => none)))

/-- An Active lane that reads or writes a register still owed by a producer other than memory keeps the whole
entry waiting: nothing changes (R69). That it waits before it raises REGBOUND or EMPTY for another register, and that a
D which is read and written waits whatever FEM.D says, is the model's choice (log entry 17). -/
def Obligations.RegistersAwaited : Prop := ∀ ins m s i w g, semOf ins = some m → Issues s i w g →
  let act := activeLanes m.grd w g
  let need (l : Nat) : List (Nat × Nat) := waitsFor w (liveOps (m.ops s w l) (w.thread l))
  m.legal s w i.hm = true → m.hold s w act = false →
  (∃ l ∈ lanesOf act, need l ≠ []) → (∀ l ∈ lanesOf act, ∀ x ∈ need l, w.memProducer x.1 x.2 = false) →
  (∀ a, m.tile s w a = none) →
  exec ins s = .next s

/-- An instruction that R364 forbids inside a transaction aborts its Active members with code 0x09. -/
def Obligations.ForbiddenAborts : Prop := ∀ ins m s i w g, semOf ins = some m → Issues s i w g → i.inTx = true →
  let act := activeLanes m.grd w g
  act ≠ 0 → m.forbid w = true → m.legal s w i.hm = true → m.hold s w act = false → m.tile s w act = none →
  OpsReady m.grd (m.ops s) w g → m.fmt s w act = none → (∀ n, standsBy s n w.uid = false) →
  exec ins s = .next (retireIfDone (((counted s w.uid (hitsOf (m.ops s) w act)).mapWave w.uid
    (leaveWord i g 0 (fun _ => none))).mapWave w.uid (fun v => abortTx v act 9 0)) w.uid)

/-- At the default handler's entry a cause ends the team with a fault record (R177, R179, R220). -/
def Obligations.DefaultHandlerEndsTeam : Prop := ∀ x s i w g t, Alone s i w g → w.handling = false → w.parkq = [] →
  w.preempt = false → (∀ n, standsBy s n w.uid = false) → w.members &&& g = 0 → w.handler = defaultHandler s w →
  s.team? w.team = some t →
  (∀ l ∈ lanesOf g, l < w.threads.length) →
  exec (.illegalWord x) s = .next (endTeam
    (s.mapWave w.uid (fun v => parkLanes v ⟨g, Cause.illegal.word, i.key.pc, false, false, false⟩ ((lanesOf g).map (fun l => (l, x)))))
    w.team ⟨Cause.illegal.word, i.key.pc, x, t.x, t.y, t.z⟩ false)

/-! ## Transactions (R361 to R371) -/

/-- TRY, COMMIT, ABORT and TSTAT outside a transaction and in handler mode: TRY opens a transaction of its Active
threads, or waits for the one of other threads to close; ABORT does nothing (R362, R366, R370, R371). -/
def Obligations.TransactionResults : Prop := ∀ f : Full,
  let busy (c : Ctx) : Bool := !c.hm && c.rd.kettle.isOpen
  SoloWord (.tryTx f) f.grd (fun s c => declares (·.utry) s c.rd c.hm = true)
    (fun s c => if c.hm then s
      else if busy c then s.mapWave c.u (fun w => w.setWait c.act .openTx)
      else s.mapWave c.u (fun w => openTx w c.act (f.lo3 % 2 == 1) (c.pc + 8 + 8 * f.imm16.signExtend 32) s.nextId))
    (fun c => if busy c then c.act else 0) ∧
  SoloWord (.commit f) f.grd (fun _ c => c.hm = true) (fun s _ => s) (fun _ => 0) ∧
  SoloWord (.abort f) f.grd (fun _ _ => True) (fun s _ => s) (fun _ => 0) ∧
  LaneWord (.tstat f) f.grd (fun _ l => [.dst l f.dn 1]) (fun _ => True) (fun _ c l =>
    let k := c.rd.kettle
    .val f.dn .n32 (k.log.length * 2 ^ 22 + k.buf.length * 2 ^ 13 + k.reads.length * 2 ^ 3 + (c.rd.thread l).depth))

/-- The same instructions issued by members: TRY nests, and aborts with code 0x0B where the depth is 7; COMMIT
leaves one level or waits for the others at depth 1; ABORT aborts with its own code (R362, R366, R369, R370). -/
def Obligations.MemberResults : Prop := ∀ (f : Full) s i w g, Issues s i w g → i.inTx = true → w.kettle.isOpen = true →
  (∀ n, standsBy s n w.uid = false) →
  let act := activeLanes f.grd w g
  let on (stay : Mask) (s : State) : State := s.mapWave w.uid (leaveWord i g stay (fun _ => none))
  act ≠ 0 →
  (declares (·.utry) s w false = true →
    ((∀ l ∈ lanesOf act, (w.thread l).depth ≠ 7) → exec (.tryTx f) s =
      .next (on 0 (s.mapWave w.uid (fun v => v.mapLanes act (fun _ t => { t with depth := t.depth + 1 }))))) ∧
    ((∀ l ∈ lanesOf act, (w.thread l).depth = 7) → exec (.tryTx f) s =
      .next (retireIfDone ((on 0 s).mapWave w.uid (fun v => abortTx v act 0x0B 0)) w.uid))) ∧
  ((∀ l ∈ lanesOf act, (w.thread l).depth > 1) → exec (.commit f) s =
    .next (on 0 (s.mapWave w.uid (fun v => v.mapLanes act (fun _ t => { t with depth := t.depth - 1 }))))) ∧
  ((∀ l ∈ lanesOf act, (w.thread l).depth ≤ 1) → exec (.commit f) s =
    .next (on act (s.mapWave w.uid (fun v => v.setWait act .commit)))) ∧
  exec (.abort f) s = .next (retireIfDone ((on 0 s).mapWave w.uid (fun v =>
    abortTx v act 1 (f.imm16.toNat % 256))) w.uid)

/-! ## Long-latency instructions (R283, R293 to R299, R311) -/

/-- The long-latency instructions empty their destinations at issue for a producer that holds each lane's value and
flags; FSUMV and LXRD that resumed end with %prog = 0 (R192). -/
def Obligations.LongLatencyResults : Prop := ∀ f : Full,
  let m := Fmt.of f.ety
  let long (ins : Full → Instr) (ops : Wave → Nat → List Opnd) (t : Ety) (out : Ctx → Nat → Nat × FFlags) : Prop :=
    WaveWord (ins f) f.grd (fun _ => ops) (fun _ _ => True)
      (fun s c => produced f (c.lanes.map (fun l => Job.known l f.dn t (natWords t.regs (out c l).1) (out c l).2)) s c)
      (fun _ => 0) (fun _ _ => none)
  let un (ins : Full → Instr) (op : Rnd → Nat → Nat × FFlags) : Prop :=
    long ins (shapeUn f) f.ety (fun c l => fUnVal f (op (rndOf f c)) (c.rd.thread l))
  let firstLane (c : Ctx) : Nat := if c.rd.resumes then c.rd.progIndex else 0
  let finished (c : Ctx) (s : State) : State := if c.rd.resumes then setProg s c 0 else s
  long .fdiv (shapeBin f) f.ety (fun c l => fBinVal f (fDiv m (rndOf f c)) (c.rd.thread l)) ∧
  un .frcp (fRcp m) ∧ un .frsq (fRsq m) ∧ un .fsqrt (fSqrt m) ∧ un .fexp2 (fExp2 m) ∧ un .flog2 (fLog2 m) ∧
  un .fsin (fSin m) ∧ un .fcos (fCos m) ∧
  long .crcp (fun _ l => [opD f l, opA f l .c64]) .c64 (fun c l =>
    let r := cRcp (rndOf f c) (c64Of (f.valA (c.rd.thread l) .c64))
    (c64Join r.1, r.2)) ∧
  WaveWord (.fsumv f) f.grd (fun _ => shapeUn f) (fun _ _ => True)
    (fun s c => finished c (produced f (c.lanes.map (fun l =>
      Job.known l f.dn f.ety (natWords f.ety.regs (fsumv f c none).1)
        ((((fsumv f c none).2.find? (·.1 == l)).map (·.2)).getD 0))) s c)) (fun _ => 0) (fun _ _ => none) ∧
  WaveWord (.lxrd f) f.grd
    (fun s w l => [opD f l, { opA f l f.ety with part := true, rd := false }] ++ ((lanesOf (curMask s w.uid)).filter (fun p =>
      p / segSize f w == l / segSize f w && f.grd.holds (w.thread p))).map (fun p => { opA f p f.ety with part := true }))
    (fun _ c => ∃ l ∈ c.lanes, firstLane c ≤ l / segSize f c.rd)
    (fun s c =>
      let n := segSize f c.rd
      let seg (g : Nat) : Nat × List (Nat × FFlags) := lxrdSeg f c (c.lanes.filter (fun l => l / n == g))
      finished c (produced f ((c.lanes.filter (fun l => firstLane c ≤ l / n)).map (fun l =>
        let v := ((List.range (c.rd.width / n)).map seg).getD (l / n) (0, [])
        Job.known l f.dn f.ety (natWords f.ety.regs v.1) (((v.2.find? (·.1 == l)).map (·.2)).getD 0))) s c))
    (fun _ => 0) (fun _ _ => none)

/-! ## Tiles (R345 to R354) -/

/-- TDEF writes the entry and makes it READY; TSTATE reads it; TWAIT goes on at a READY tile; TZERO and TWR write
the tile's image; a TWR of another type than BITS sets the tile's tag. -/
def Obligations.TileResults : Prop := ∀ f : Full,
  let i := f.dst.toNat % 256
  let low (c : Ctx) : Nat := (lowest c.act).getD 0
  WaveWord (.tdef f) f.grd (fun s w l => [opWave f (opA f · .n64) s w l])
    (fun s c => tileWait i true true s c.rd c.act = none ∧ (namedTile s c.rd i true).isSome = true ∧
      ∃ t, c.team = some t ∧ tdefOk t (BitVec.ofNat 64 ((c.rd.thread (low c)).val f.an 2)) f.ety = true)
    (fun s c => match c.team with
      | some t => s.setTile t i (fun _ =>
          setTileState (setFmt (BitVec.ofNat 64 ((c.rd.thread (low c)).val f.an 2)) f.ety) 2)
      | none => s) (fun _ => 0) (fun _ _ => none) ∧
  (∀ e, WaveWord (.tstate f) f.grd (fun _ _ l => [.dst l f.dn 2])
    (fun s c => namedTile s c.rd (f.an % 256) true = some e)
    (fun s c => s.mapWave c.u (Wave.spread c.act f.dn .n64 e.toNat)) (fun _ => 0) (fun _ _ => none)) ∧
  SoloWord (.twait f) f.grd
    (fun s c => tileWait i false false s c.rd c.act = none ∧ (namedTile s c.rd i false).isSome = true)
    (fun s _ => s) (fun _ => 0) ∧
  (∀ e t, SoloWord (.tzero f) f.grd
    (fun s c => tileWait i false true s c.rd c.act = none ∧ tileBusy i s c.rd c.act = false ∧
      tileRead i s c.rd c.act = false ∧ namedTile s c.rd i false = some e ∧ c.team = some t)
    (fun s c =>
      let z := List.replicate (tLen e) (0 : Byte)
      let bs := if tCmp e then codeTile z else z
      poolWrite s (tileWriter s c) (tAddrs t e 0 bs.length) bs) (fun _ => 0)) ∧
  (∀ e t, WaveWord (.twr f) f.grd (fun _ _ l => [opA f l f.ety, opIdx f l])
    (fun s c => tileWait i false true s c.rd c.act = none ∧ tileBusy i s c.rd c.act = false ∧
      tileRead i s c.rd c.act = false ∧ namedTile s c.rd i false = some e ∧ c.team = some t ∧ tCmp e = false ∧
      ∀ l ∈ c.lanes, ((c.rd.thread l).reg f.bn).toNat * regBytes f + regBytes f ≤ tLen e)
    (fun s c =>
      let s' := c.lanes.foldl (fun st l => poolWrite st (tileWriter s c)
        (tAddrs t e (((c.rd.thread l).reg f.bn).toNat * regBytes f) (regBytes f))
        (leBytes (regBytes f) (f.valA (c.rd.thread l) f.ety))) s
      if f.ety == .bits then s' else s'.setTile t i (fun e => setFmt e f.ety))
    (fun _ => 0) (fun _ _ => none))

/-- TRD reads registers of a tile through a producer that counts as its reader; TLD and TST start a transfer: the
tile is FILLING or DRAINING, TLQ rises, or an entry of the store queue stands for the transfer (R129, R348 to
R352). -/
def Obligations.TileTransfers : Prop := ∀ (f : Full) (e : DWord) (t : Team),
  let i := f.dst.toNat % 256
  let j := f.an % 256
  WaveWord (.trd f) f.grd (fun _ _ l => [opD f l, opIdx f l])
    (fun s c => tileWait j false false s c.rd c.act = none ∧ memHold [0] s c.rd c.act = false ∧
      tileFormat j f.ety s c.rd c.act = none ∧ namedTile s c.rd j false = some e ∧ c.team = some t ∧ tCmp e = false ∧
      ∀ l ∈ c.lanes, ((c.rd.thread l).reg f.bn).toNat * regBytes f + regBytes f ≤ tLen e)
    (fun s c => countReader s (loadBegun f (tileAccs f t e c) s c) c t j) (fun _ => 0) (fun _ _ => none) ∧
  (∀ img, WaveWord (.trd f) f.grd (fun _ _ l => [opD f l, opIdx f l])
    (fun s c => tileWait j false false s c.rd c.act = none ∧ memHold [0] s c.rd c.act = false ∧
      tileFormat j f.ety s c.rd c.act = none ∧ namedTile s c.rd j false = some e ∧ c.team = some t ∧ tCmp e = true ∧
      tileBusy j s c.rd c.act = false ∧ loadsAhead s c.rd c.act = false ∧ tileImage s c.rd.core t e = some img ∧
      ∀ l ∈ c.lanes, ((c.rd.thread l).reg f.bn).toNat * regBytes f + regBytes f ≤ tLen e)
    (fun s c =>
      let off (l : Nat) : Nat := ((c.rd.thread l).reg f.bn).toNat * regBytes f
      -- bytes of the image that are lost land as an error of their lane (R326)
      let jobs := c.lanes.map (fun l =>
        { Job.known l f.dn f.ety (natWords f.ety.regs (leNat ((img.drop (off l)).take (regBytes f)))) 0 with
          va := tileVa e (off l), err := tileLost s c.rd.core t e [] (off l) (regBytes f) })
      let s1 := { s with nextId := s.nextId + 1 }.mapWave c.u (Wave.begin
        { Flight.start s.nextId c.pc f.ety with mem := true, ldq := true, jobs := jobs })
      countReader s (s1.mapWave c.u (fun w => c.lanes.foldl (fun w l => noteSeen w l s.nextId (tAddrs t e 0 (tSize e))) w))
        c t j)
    (fun _ => 0) (fun _ _ => none)) ∧
  WaveWord (.tld f) f.grd (fun s w l => xferOps f s w l)
    (fun s c => tileWait i false true s c.rd c.act = none ∧ memHold [3] s c.rd c.act = false ∧ fetchFull s c.rd = false ∧
      namedTile s c.rd i false = some e ∧ c.team = some t ∧ xferTrap f s c e (xferOf f true 0 s c e) = none ∧
      xferWatch c (xferOf f true 0 s c e) = [])
    (fun s c =>
      let x := xferOf f true s.nextId { s with nextId := s.nextId + 1 } c e
      let s := xferSig ({ s with nextId := s.nextId + 1 }.setTile t i (fun e => setTileState e 1)) x
      (s.mapCore c.rd.core (fun k => { k with xfers := k.xfers ++ [x] })).mapWave c.u (·.raise 3))
    (fun _ => 0) (fun _ _ => none) ∧
  WaveWord (.tst f) f.grd (fun s w l => xferOps f s w l)
    (fun s c => tileWait i false false s c.rd c.act = none ∧ memHold [1, 2] s c.rd c.act = false ∧
      tileBusy i s c.rd c.act = false ∧ tstFormat f s c.rd c.act = none ∧ namedTile s c.rd i false = some e ∧
      c.team = some t ∧ (tileImage s c.rd.core t e).isSome = true ∧ xferTrap f s c e (xferOf f false 0 s c e) = none ∧
      xferWatch c (xferOf f false 0 s c e) = [])
    (fun s c =>
      let x := xferOf f false s.nextId { s with nextId := s.nextId + 1 } c e
      let s1 := xferSig ({ s with nextId := s.nextId + 1 }.setTile t i (fun e => setTileState e 3)) x
      let eid := s1.nextId
      let s2 := { s1 with nextId := eid + 1 }.mapCore c.rd.core (fun k =>
        { k with xfers := k.xfers ++ [{ x with entry := some eid }] })
      s2.mapWave c.u (Wave.queue { StEntry.make eid c .tst [] with xfer := some s.nextId, rel := x.rel, scope := x.scope }))
    (fun _ => 0) (fun _ _ => none)

/-- Threads whose tile is not ready for the word wait for it, and threads whose registers a memory operation owes
wait for these, and for those of their partners or of the wave's operand together with the wave (R308, R324); each
gives up its entry (R58, R69, R129). That they wait before a lane raises REGBOUND or EMPTY, and that all threads of the
wave wait for the operand of the wave, is the model's choice (log entries 17 and 78). -/
def Obligations.ThreadsWait : Prop := ∀ ins m s i w g, semOf ins = some m → Issues s i w g →
  let need (l : Nat) : List (Nat × Nat) := waitsFor w (liveOps (m.ops s w l) (w.thread l))
  let shared : List (Nat × Nat) :=
    ((lanesOf g).map (fun l => partnersFor w (liveOps (m.ops s w l) (w.thread l)))).flatten.eraseDups
  activeLanes m.grd w g = g → m.legal s w i.hm = true → m.hold s w g = false →
  (∀ x, m.tile s w g = some x → (∀ l ∈ lanesOf g, need l = []) →
    exec ins s = .next ((lanesOf g).foldl (fun t l => startWait t w.uid l x) s)) ∧
  ((∀ l ∈ lanesOf g, need l ≠ [] ∧ ∀ x ∈ need l, w.memProducer x.1 x.2 = true) →
    exec ins s = .next ((lanesOf g).foldl (fun t l => startWait t w.uid l (.regs (shared ++ need l))) s))

/-! ## Pair words (R237 to R240) -/

/-- The halves of a pair word act side by side, each under its own guard on its own registers; the first half's
result is written out here for each operation, the second half's is that of the same operation. -/
def Obligations.PairResults : Prop := ∀ (h : Half) (m : HalfWord),
  let t := h.et2.ety
  let d := 2 * h.dst.toNat
  let n := 2 * h.src.toNat
  let word (ins : Half → HalfWord → Instr) (op : HalfOp) (val : Wave → Nat → Nat → Nat × FFlags) : Prop :=
    PairWord (ins h m) (fun _ l => (HalfOps.of ⟨op, h⟩ 0).ops l ++ (HalfOps.of m 1).ops l) (fun c l =>
      let x := c.rd.thread l
      let b := if h.imm? then imm8Value h.et2 h.src else (x.reg n).toNat
      let r := val c.rd (x.reg d).toNat b
      let tag := if op = .mov ∧ h.et2 = .bits ∧ h.imm? = false then c.rd.tag n else t
      let p : LaneOut := if (HalfOps.of ⟨op, h⟩ 0).grd.holds x then { vw := [(d, [BitVec.ofNat 32 r.1], tag)], flags := r.2 }
        else {}
      let q := (HalfOps.of m 1).out c.rd x
      { vw := p.vw ++ q.vw, flags := p.flags ||| q.flags })
  let int (op : Int → Int → Int) (sat : Bool) : Wave → Nat → Nat → Nat × FFlags :=
    fun _ a b => (reduce t sat (op (intOf t a) (intOf t b)), 0)
  let bits (op : Nat → Nat → Nat) : Wave → Nat → Nat → Nat × FFlags := fun _ a b => (op a b, 0)
  let float (op : Rnd → Nat → Nat → Nat × FFlags) : Wave → Nat → Nat → Nat × FFlags :=
    fun w a b => op ⟨w.rmode h.m3, false, false⟩ a b
  let s := h.m3 == 1
  word .iaddHalf .iadd (int (· + ·) s) ∧ word .isubHalf .isub (int (· - ·) s) ∧ word .imulHalf .imul (int (· * ·) s) ∧
  word .iminHalf .imin (int min false) ∧ word .imaxHalf .imax (int max false) ∧
  word .andHalf .and (bits (· &&& ·)) ∧ word .orHalf .or (bits (· ||| ·)) ∧ word .xorHalf .xor (bits (· ^^^ ·)) ∧
  word .shlHalf .shl (bits (fun a b => a * 2 ^ (b % 32) % 2 ^ 32)) ∧ word .shrHalf .shr (bits (fun a b => a / 2 ^ (b % 32))) ∧
  word .sarHalf .sar (bits (fun a b => reduce t false (intOf t a / (2 ^ (b % 32) : Nat)))) ∧
  word .faddHalf .fadd (float (fAdd .f32)) ∧ word .fsubHalf .fsub (float (fSub .f32)) ∧ word .fmulHalf .fmul (float (fMul .f32)) ∧
  word .fminHalf .fmin (fun _ a b => fMinMax .f32 false false a b) ∧ word .fmaxHalf .fmax (fun _ a b => fMinMax .f32 true false a b) ∧
  word .fabsHalf .fabs (bits (fun _ b => fSignClear .f32 b)) ∧ word .fnegHalf .fneg (bits (fun _ b => fSignFlip .f32 b)) ∧
  word .movHalf .mov (bits (fun _ b => b)) ∧
  word .cvtHalf .cvt (fun _ _ b => convert (HalfOps.of ⟨.cvt, h⟩ 0).sty t (RMode.of (h.m3 % 4) 0) false false b)

/-! ## Regions (R124, R125, R355 to R357) -/

/-- REGQ asks the region's home slice for a word of its descriptor, also while slices of a closed Steppe region are still
in CLOSE (R426); REGPIN and REGADV change the descriptor there,
and Pd tells whether the request was accepted. -/
def Obligations.RegionResults : Prop := ∀ (f : Full) (d : Desc),
  let h (c : Ctx) : Word := c.rd.wreg (f.an % 64)
  let idle (s : State) (c : Ctx) : Prop := memHold [] s c.rd c.act = false ∧ handleDesc s c.ctxNo (h c) = some d
  let request (ins : Full → Instr) (ops : State → Wave → Nat → List Opnd) (new : Ctx → Desc) (win : Region → Region) (yes : Ctx → Bool) : Prop :=
    WaveWord (ins f) f.grd ops
      (fun s c => idle s c ∧ hasRight (hRights (h c)) .write = true ∧ hasRight (dRights d) .write = true ∧
        descAddr s (ctxComp s c.ctxNo) (hIdx (h c)) + 64 ≤ deviceBytes)
      (fun s c =>
        let comp := ctxComp s c.ctxNo
        let s := if yes c then (putDesc s comp (hIdx (h c)) (new c)).mapRegion comp (hIdx (h c)) win else s
        s.mapWave c.u (fun w => w.mapLanes c.act (fun _ t => t.setPred f.dn (yes c))))
      (fun _ => 0) (fun _ _ => none)
  let a (c : Ctx) : Nat := ((c.rd.thread ((lowest c.act).getD 0)).reg f.bn).toNat
  WaveWord (.regq f) f.grd (fun _ _ l => [.dst l f.dn 2])
    (fun s c => memHold [] s c.rd c.act = false ∧ regqDesc s c.ctxNo (h c) = some d)
    (fun s c => asked 2 f.dn .n64 (.regq (ctxComp s c.ctxNo) (hIdx (h c)) f.lo3) s c) (fun _ => 0) (fun _ _ => none) ∧
  request .regpinPin (fun _ _ _ => []) (fun _ => dSet (dSet d 359 1 1) 354 1 0) id (fun _ => dClass d == 1 || dClass d == 2) ∧
  request .regpinUnpin (fun _ _ _ => []) (fun _ => dSet d 359 1 0) id (fun _ => dClass d == 1) ∧
  request .regpinClear (fun _ _ _ => []) (fun _ => dSet (dSet d 358 1 0) 356 2 0) (fun r => { r with cnt := [], n := 0 })
    (fun _ => dClass d == 1 || dClass d == 2) ∧
  request .regadv (fun s w l => [opWave f (.src · 2 f.bn 1 f.femB (some .n32)) s w l])
    (fun c =>
      if a c = dOrder d ∧ dMvb d = false then dSet d 358 1 0
      else if dMvb d = true then dSet (dSet d 354 1 1) 346 8 (a c)
      else dSet (dSet (dSet (dSet (dSet d 360 8 (dOrder d)) 368 8 (a c)) 355 1 1) 322 24 0) 358 1 0)
    id (fun c => a c < 256 && dClass d == 1 && !dPin d && orderOk d (a c))

/-! ## Waits and cooperation (R373 to R384) -/

/-- A wait whose condition holds goes on with its effect; otherwise its Active threads wait, and give up their
entry (R58, R373 to R377). -/
def Obligations.WaitResults : Prop := ∀ f : Full,
  let waits (ins : Full → Instr) (ok met unmet : State → Ctx → Prop) (eff : State → Ctx → State) (x : State → Ctx → Wait) : Prop :=
    SoloWord (ins f) f.grd (fun s c => ok s c ∧ met s c) eff (fun _ => 0) ∧
    SoloWord (ins f) f.grd (fun s c => ok s c ∧ unmet s c) (fun s c => waiting (x s c) s c) (fun c => c.act)
  let counter (ins : Full → Instr) (k scope : Nat) (v : Ctx → Nat) : Prop :=
    waits ins (fun _ _ => True) (fun _ c => c.rd.cnt.get k ≤ v c) (fun _ c => v c < c.rd.cnt.get k)
      (fun s c => if k = 0 ∧ v c = 0 then acquireAt s c.u scope else s) (fun _ c => .waitc k (v c) scope)
  let tail (c : Ctx) : Nat := (c.rd.wpair (f.an % 64)).toNat
  let engine (ins : Full → Instr) (e : Ctx → Nat) : Prop :=
    waits ins (fun s c => e c < 64 ∧ engOpen s (e c) c.ctxNo = true) (fun s c => tail c ≤ engSeq s (e c))
      (fun s c => engSeq s (e c) < tail c) (fun s c => acquireNow s c.u) (fun _ c => .waitq (e c) (tail c))
  let lap (ins : Full → Instr) (v : Ctx → Nat) : Prop :=
    let h (c : Ctx) : Word := c.rd.wreg (f.an % 64)
    let ready (s : State) (c : Ctx) : Prop := lapReached s (ctxComp s c.ctxNo) (hIdx (h c)) (v c) = true
    waits ins (fun s c => declares (·.ust) s c.rd c.hm = true ∧ hasRight (hRights (h c)) .read = true ∧
        ∃ d, handleDesc s c.ctxNo (h c) = some d ∧ dClass d = 2) ready (fun s c => ¬ ready s c) (fun s _ => s)
      (fun s c => .waitl (ctxComp s c.ctxNo) (hIdx (h c)) (v c))
  let word (c : Ctx) : Nat := (c.rd.wreg (f.bn % 64)).toNat
  counter .waitcReg f.hi3 f.scope (fun c => (c.rd.wreg (f.an % 64)).toNat) ∧
  counter .waitcImm f.lo3 5 (fun _ => f.imm16.toNat) ∧
  engine .waitqReg (fun c => word c) ∧ engine .waitqImm (fun _ => f.imm16.toNat % 64) ∧
  lap .waitlReg (fun c => word c) ∧ lap .waitlImm (fun _ => f.imm16.toNat) ∧
  ∀ l,
    let at_ (s : State) (c : Ctx) : Prop := memHold [] s c.rd c.act = false ∧ waitmChk s c.who (tail c) = .ok l
    let read (ok : Bool) (s : State) (c : Ctx) : Prop := at_ s c ∧
      ∃ n, waitmRead s c.rd (tail c) l = some n ∧ condHolds (f.lo3 % 4) n (word c) = ok
    let wait (s : State) (c : Ctx) : State :=
      waiting (.waitm (tail c / 2 ^ 60) (tail c) (f.lo3 % 4) (word c) f.scope) s c
    -- a word that may be read reaches its slice, whatever it holds (R377)
    SoloWord (.waitm f) f.grd (read true) (fun s c => acquireAt (waitmUse s c.rd (tail c) l) c.u f.scope) (fun _ => 0) ∧
    SoloWord (.waitm f) f.grd (read false) (fun s c => wait (waitmUse s c.rd (tail c) l) c) (fun c => c.act) ∧
    SoloWord (.waitm f) f.grd (fun s c => at_ s c ∧ waitmRead s c.rd (tail c) l = none) wait (fun c => c.act)

/-- ELECT, the barriers, FETCHW, CTAIL and CSEQ (R378 to R384); a barrier in handler mode does nothing. That the first
thread which waits in a round opens the barrier and fixes its count is the model's choice (log entry 13). -/
def Obligations.CooperationResults : Prop := ∀ (f : Full) (t : Team),
  let bar (ins : Full → Instr) (ok : Ctx → Prop) (b k : Ctx → Nat) : Prop :=
    let x (c : Ctx) : Bar := fget Bar.idle t.bars (b c)
    SoloWord (ins f) f.grd (fun _ c => c.hm = true) (fun s _ => s) (fun _ => 0) ∧
    SoloWord (ins f) f.grd
      (fun s c => c.hm = false ∧ ok c ∧ s.team? c.rd.team = some t ∧ k c ≤ teamNW t ∧ ((x c).isOpen = true → (x c).c = k c))
      (fun s c => waiting (.bar (b c) (k c)) (s.mapTeam t.uid (fun u =>
        { u with bars := fset Bar.idle u.bars (b c) { x c with isOpen := true, c := k c } })) c) (fun c => c.act)
  let v (c : Ctx) : Nat := (c.rd.wreg (f.an % 64)).toNat
  let fetches (s : State) (c : Ctx) (o : Nat) : Prop :=
    declares (·.pers) s c.rd c.hm = true ∧ s.team? c.rd.team = some t ∧ o % 16 = 0 ∧ o + 16 ≤ t.spTotal
  let fetched (s : State) (c : Ctx) (o : Nat) : State :=
    s.mapTeam t.uid (fun u => { u with fetchw := u.fetchw ++ [(o, c.u, s.nextId)] })
  let low (c : Ctx) : Nat := ((c.rd.thread ((lowest c.act).getD 0)).reg f.an).toNat
  let e (c : Ctx) : Nat := (c.rd.wreg (f.bn % 64)).toNat
  let a (c : Ctx) : Nat := (c.rd.wpair (f.an % 64)).toNat
  SoloWord (.elect f) f.grd (fun _ _ => True) (fun s c => s.mapWave c.u (fun w =>
    w.mapLanes c.act (fun i t => t.setPred f.dn (some i == lowest c.act)))) (fun _ => 0) ∧
  bar .barImm (fun _ => True) (fun _ => f.imm16.toNat % 16) (fun _ => f.imm16.toNat / 16 % 64) ∧
  bar .barReg (fun c => v c < 1024) (fun c => v c % 16) (fun c => v c / 16) ∧
  SoloWord (.barg f) f.grd (fun _ c => c.hm = true) (fun s _ => s) (fun _ => 0) ∧
  SoloWord (.barg f) f.grd (fun _ c => c.hm = false) (fun s c => waiting (.barg (f.lo3 % 4)) s c) (fun c => c.act) ∧
  SoloWord (.fetchwImm f) f.grd (fun s c => fetches s c f.imm16.toNat) (fun s c => fetched s c f.imm16.toNat) (fun _ => 0) ∧
  WaveWord (.fetchwReg f) f.grd (fun s w l => [opWave f (opA f · .n32) s w l]) (fun s c => fetches s c (low c)) (fun s c => fetched s c (low c))
    (fun _ => 0) (fun _ _ => none) ∧
  SoloWord (.ctail f) f.grd
    (fun s c => c.rd.cnt.stq = 0 ∧ readsDone s c.rd s.nextId (fun _ => true) = true ∧ counterFull c.rd [5] = false ∧ e c < 64 ∧ a c % 64 = 0 ∧ a c < 2 ^ 60 ∧
      engOpen s (e c) c.ctxNo = true)
    (fun s c => (s.mapWave c.u (fun w => { w with cnt := { w.cnt with enq := w.cnt.enq + 1 } })).mapEngine (e c) (fun x =>
      { x with tails := x.tails ++ [(a c, some c.u, some c.rd.team)] })) (fun _ => 0) ∧
  WaveWord (.cseq f) f.grd (fun _ _ l => [.dst l f.dn 2]) (fun s c => v c < 64 ∧ engOpen s (v c) c.ctxNo = true)
    (fun s c => asked 2 f.dn .n64 (.cseq (v c)) s c) (fun _ => 0) (fun _ _ => none)

/-! ## Matrix units (R396 to R411) -/

/-- MXRSV takes a free unit and tells whether the team holds it; MXREL gives it back; MXGO, once its checks find
nothing and its registers and tiles are ready, places the operation of its parameter block in the unit's queue;
MXPROM reads accumulator elements; MXSTAT reads the unit's state. Neither MXGO nor MXPROM raises a deferred cause (R395):
bytes that are lost read as free values, which is the model's choice (log entry 86). -/
def Obligations.MatrixResults : Prop := ∀ (f : Full) (t : Team) (e : DWord),
  let unit (s : State) (w : Wave) : MxUnit := (s.quad w.qn).mx
  let go (ins : Full → Instr) (ops : State → Wave → Nat → List Opnd) : Prop := ∀ o b acc,
    WaveWord (ins f) f.grd ops
      (fun s c => declares (·.umx) s c.rd c.hm = true ∧ c.team = some t ∧ mxPlan f s c.rd c.act = .go o b acc)
      (fun s c => mxPlace (drawLost s c.rd.core (mxBlockBytes t o)) c.rd t c.pc o 0 false b acc) (fun _ => 0) (fun _ _ => none)
  SoloWord (.mxrsv f) f.grd (fun _ c => c.qn = c.rd.qn)
    (fun s c =>
      let free := (unit s c.rd).holder.isNone
      let own := free || (unit s c.rd).heldBy c.rd.team
      (if free then s.mapQuad c.rd.qn (fun q => { q with mx := { q.mx with holder := some (c.rd.team, c.rd.num) } }) else s).mapWave
        c.u (fun w => w.mapLanes c.act (fun _ t => t.setPred f.dn own))) (fun _ => 0) ∧
  SoloWord (.mxrel f) f.grd
    (fun s c => c.qn = c.rd.qn ∧ ((unit s c.rd).heldBy c.rd.team = true → ∀ x ∈ (unit s c.rd).ops, x.team ≠ c.rd.team))
    (fun s c => if (unit s c.rd).heldBy c.rd.team then
      s.mapQuad c.rd.qn (fun q => { q with mx := { q.mx with holder := none } }) else s) (fun _ => 0) ∧
  go .mxgoImm (fun _ _ _ => []) ∧ go .mxgoReg (fun s w l => [opWave f (opA f · .n32) s w l]) ∧
  (∀ img, WaveWord (.mxprom f) f.grd (fun _ _ l => [.dst l f.dn (promCount f * f.ety.regs), opIdx f l])
    (fun s c => tileWait (f.an % 256) false false s c.rd c.act = none ∧ tileBusy (f.an % 256) s c.rd c.act = false ∧
      tileFormat (f.an % 256) f.ety s c.rd c.act = none ∧ namedTile s c.rd (f.an % 256) false = some e ∧ c.team = some t ∧
      tileImageWith s c.rd.core t e (lostCells s c.rd.core t e 0) = some img ∧
      ∀ l ∈ c.lanes, (promOff f e (promCount f) (c.rd.thread l)).isSome = true)
    (fun s c =>
      let s := drawLost s c.rd.core (tAddrs t e 0 (tSize e))
      let n := promCount f
      let jobs := c.lanes.map (fun l =>
        let o := (promOff f e n (c.rd.thread l)).getD 0
        Job.known l f.dn f.ety (natWords (n * f.ety.regs) (leNat ((img.drop o).take (n * f.ety.esize)))) 0)
      countReader s ({ s with nextId := s.nextId + 1 }.mapWave c.u
        (Wave.begin { Flight.start s.nextId c.pc f.ety with jobs := jobs })) c t (f.an % 256))
    (fun _ => 0) (fun _ _ => none)) ∧
  (∀ v, WaveWord (.mxstat f) f.grd (fun _ _ l => [.dst l f.dn 1]) (fun s c => mxStatus s c.rd = v)
    (fun s c => s.mapWave c.u (Wave.spread c.act f.dn .n32 v)) (fun _ => 0) (fun _ _ => none))

/-! ## Handler mode (R181, R185 to R187, R190, R385 to R389) -/

/-- The handler-only instructions run in handler mode. -/
def Obligations.HandlerResults : Prop := ∀ f : Full,
  let q := f.lo3 % 2 == 1
  let dst (l : Nat) : List Opnd := if q then [] else [opD f l]
  let val (l : Nat) : List Opnd := if q then [] else [opA f l f.ety]
  let one (s : State) (w : Wave) (l : Nat) : List Opnd := if q then [] else [opWave f (opA f · f.ety) s w l]
  let low (c : Ctx) : Nat := (lowest c.act).getD 0
  let index (n : Nat) (x : Sel) (c : Ctx) : Nat := if x.indexed then (c.rd.wreg (n % 64)).toNat else 0
  let cause (c : Ctx) : Word := c.rd.wreg (f.an % 64)
  SoloWord (.rth f) f.grd
    (fun s c => c.hm = true ∧ (reacquire s c.rd).2 = true ∧ (returnNow (reacquire s c.rd).1 c.u).bad = none)
    (fun s c => returnNow (reacquire s c.rd).1 c.u) (fun c => c.grp) ∧
  SoloWord (.rth f) f.grd (fun s c => c.hm = true ∧ (reacquire s c.rd).2 = false)
    (fun s c => waiting .reacquire s c) (fun c => c.act) ∧
  (∀ x v, selOf f = x → WaveWord (.hget f) f.grd (fun _ _ l => dst l)
    (fun s c => c.hm = true ∧ hiddenIndexOk s c.rd x (index f.an x c) = true ∧
      (if q then hiddenRead s c.rd (low c) (index f.an x c) x = v
       else ∀ l ∈ c.lanes, hiddenRead s c.rd l (index f.an x c) x = v))
    (fun s c => s.mapWave c.u (if q then fun w =>
      (natWords f.ety.regs v).zipIdx.foldl (fun w p => w.setQ (f.dn + p.2) p.1) w else Wave.spread c.act f.dn f.ety v))
    (fun _ => 0) (fun _ _ => none)) ∧
  (∀ x, selOf f = x → selPerLane x = false → x ≠ .tent → WaveWord (.hset f) f.grd one
    (fun s c => c.hm = true ∧ (x.atRestore = true → c.rd.restore = true) ∧ hiddenIndexOk s c.rd x (index f.dn x c) = true)
    (fun s c => s.mapWave c.u (fun w => hiddenWrite w (index f.dn x c) x (hiddenValue f c.rd (low c))))
    (fun _ => 0) (fun _ _ => none)) ∧
  (∀ x, selOf f = x → selPerLane x = true → WaveWord (.hset f) f.grd (fun _ _ l => val l)
    (fun s c => c.hm = true ∧ (x.atRestore = true → c.rd.restore = true) ∧ hiddenIndexOk s c.rd x (index f.dn x c) = true)
    (fun s c => s.mapWave c.u (fun w => c.lanes.foldl (fun w l => hiddenLane w l x (hiddenValue f c.rd l)) w))
    (fun _ => 0) (fun _ _ => none)) ∧
  (∀ t, selOf f = .tent → WaveWord (.hset f) f.grd one
    (fun s c => c.hm = true ∧ c.rd.restore = true ∧ c.team = some t ∧ hiddenIndexOk s c.rd .tent (index f.dn .tent c) = true)
    (fun s c => s.setTile t (index f.dn .tent c) (fun _ =>
      BitVec.ofNat 64 (hiddenValue f c.rd (low c)) &&& ~~~ (0x1FF#64 <<< 27))) (fun _ => 0) (fun _ _ => none)) ∧
  WaveWord (.ologdDrop f) f.grd one (fun s c => c.hm = true ∧ (dropFor s c.u c.qn c.rd.subw).bad = none)
    (fun s c => if hiddenValue f c.rd (low c) % 2 = 1 then dropFor s c.u c.qn c.rd.subw else s) (fun _ => 0) (fun _ _ => none) ∧
  SoloWord (.park f) f.grd
    (fun _ c => c.hm = true ∧ cause c ≠ 0 ∧ cause c &&& 0xFFE22000 = 0 ∧ c.rd.subw &&& ~~~ c.act ≠ 0)
    (fun s c => s.mapWave c.u (fun w => { w.leaveJoins c.act with
      subw := w.subw &&& ~~~ c.act, retm := w.retm &&& ~~~ c.act, parkq := w.parkq ++
        [⟨c.act, cause c, w.epc, cause c &&& (Cause.page.word ||| Cause.check.word ||| Cause.uncorr.word) != 0, false, true⟩] }))
    (fun c => c.act) ∧
  SoloWord (.replay f) f.grd (fun s c => c.hm = true ∧ (resumeEntries s c.qn (OpEntry.heldFor c.u c.rd.subw)).bad = none)
    (fun s c => resumeEntries s c.qn (OpEntry.heldFor c.u c.rd.subw)) (fun _ => 0)

/-- RTH ends handler mode where no other cause waits: the threads that RETM keeps resume normal issue, each at its
own PC, those whose PC the handler has changed have left their join slots (R55), and %cause, ENTRY, REPEAT, %epc, SUBW and RETM are 0 (R181). -/
def Obligations.HandlerReturn : Prop := ∀ f s i w g, Alone s i w g → i.hm = true → activeLanes f.grd w g ≠ 0 →
  w.subw &&& ~~~ (w.retm &&& ~~~ restoredExited w) = 0 → w.parkq = [] → w.preempt = false → w.entry.getLsbD 13 = false →
  w.cause &&& ~~~ w.entry = 0 → w.repeatB = 0 → w.alive ≠ 0 → (∀ e ∈ (s.quad w.qn).oplog, e.wave ≠ w.uid) →
  ∃ t, exec (.rth f) s = .next t ∧ OnlyWave s t w.uid (fun v =>
    { (v.leaveJoins (movedLanes v)).mapLanes v.subw (fun _ t => { t with wait := .none, lst := none }) with
      cause := 0, repeatB := 0, restore := false, entry := 0, epc := 0, handling := false, subw := 0, retm := 0 })

/-! ## Privileged instructions (R390 to R393) -/

/-- CINV, XLINV, DEADM and APSET in a wave of a privileged context. -/
def Obligations.PrivilegedResults : Prop := ∀ f : Full,
  let may (s : State) (c : Ctx) : Prop := ctxPriv s (waveCtx s c.rd) = true
  let a (c : Ctx) : Nat := (c.rd.wpair (f.an % 64)).toNat
  let v (n : Nat) (c : Ctx) : Nat := (c.rd.wreg (n % 64)).toNat
  let low (c : Ctx) : Nat := (lowest c.act).getD 0
  (f.lo3 % 2 = 0 → SoloWord (.cinv f) f.grd may
    (fun s c => s.mapCore c.rd.core (fun k => { k with l1 := [] })) (fun _ => 0)) ∧
  (f.lo3 % 2 = 1 → ∀ b w, SoloWord (.cinv f) f.grd
    (fun s c => may s c ∧ logFull s c.rd = false ∧ cinvShut f s c.rd = false ∧ cinvPage s c.ctxNo (a c) = .ok (.bytes [b] w))
    (fun s _ => s.slices.foldl (fun s e => (e.2.cache.filter (fun x => b ≤ 64 * x.1 && 64 * x.1 < b + 65536)).foldl
      (fun s x => evict s e.1 x.1) s) s) (fun _ => 0)) ∧
  SoloWord (.xlinv f) f.grd (fun s c => may s c ∧ v f.bn c < 65536)
    (fun s c => waiting (.shoot s.nextId) { s with
      nextId := s.nextId + 1
      shoots := s.shoots ++ [⟨s.nextId, v f.bn c, a c % 2 ^ 57, shootMembers s (f.lo3 % 2 == 1),
        shootMembers s (f.lo3 % 2 == 1)⟩] } c) (fun c => c.act) ∧
  SoloWord (.deadm f) f.grd
    (fun s c => may s c ∧ c.rd.cnt.stq = 0 ∧ a c % 2 ^ 21 = 0 ∧ a c + v f.bn c * 2 ^ 21 ≤ deviceBytes)
    (fun s c => makeDead s (a c) (v f.bn c * 2 ^ 21)) (fun _ => 0) ∧
  WaveWord (.apset f) f.grd (fun s w l => [opWave f (opA f · .n64) s w l]) (fun s c => may s c ∧ v f.dn c < 128)
    (fun s c =>
      let word := v f.dn c / 32
      let n := v f.dn c / 16 % 2 * 64 + v f.dn c % 16 * 4 + word
      let x := BitVec.ofNat 64 ((c.rd.thread (low c)).val f.an 2)
      -- the reserved bits of the words of an aperture register stay zero (R9, R438)
      let held := if word = 0 then x &&& ~~~ 0xFFFFFFFF else if word = 2 then x.extractLsb' 0 52 |>.setWidth 64
        else if word = 3 then x.extractLsb' 0 48 |>.setWidth 64 else x
      { s with apertures := fset 0 s.apertures n held }) (fun _ => 0) (fun _ _ => none)

/-! ## Steps of the machine beside the instructions -/

/-- Read producers: a value lands in the registers that still wait for it (R69, R73, R80, R96); REGQ and CSEQ read
their word when they are performed (R355, R384); a read that nothing nearer answers takes the bytes of its
location; a failed one lands zeros, or in handler mode writes nothing (R180), and parks its lane (R188); REGQ reads at
one moment for all its lanes (R355); an Infuser block is decoded or found corrupt (R440);
a soft error stays with its V, W, Q, P or X register (R64, R173). The model's choices are that registers of a failed read
in handler mode are full again with their old words (log entry 72), that the flags of a flight meet the FXE of the moment
it ends (log entry 71), the polynomial of a block's CRC (log entry 11), the numbers of the registers (log entry 87), and
the address of an error of an access that names none (log entry 81). -/
def Obligations.ReadEvents : Prop := ∀ (u fid k : Nat) (w : Wave) (fl : Flight) (j : Job),
  let job (s : State) : Prop := jobOf s u fid k = some (w, fl, j) ∧ j.landed = false
  let ready (s : State) : Prop := job s ∧ readReady s w fl k j = true ∧ jobAsleep s w fid j false = false
  let value (s : State) (f : Job → Job) : State := s.mapWave u (fun v => v.setJob fid k f)
  -- what an access does to its slice before it is read (R29, R445, R453); one of a peer leaves as a request (R460)
  let used (s : State) (va : Nat) (l : Loc) : State := useLoc s false (waveCtx s w) (w.core / 96) j.path va l
  let asked (s : State) (l : Loc) (size : Nat) : State := askPeer (used s j.va l) (waveCtx s w) j.path j.va size .read
  (∀ ws hit, Happens (.registerWriteback u fid k (.land hit))
    (fun s => job s ∧ j.val = some ws ∧ j.err = none ∧ j.path ≠ pathSteppe ∧ fl.whole j = true ∧ fl.halfLost j = false)
    (fun s =>
      let owed := (w.thread j.lane).owed fid j.dst j.n
      endFlight (releaseQuar (s.mapWave u (fun v =>
        let v := owed.foldl (fun v r => { v with tags := fset .bits v.tags r j.tag }) v
        let v := v.mapThread j.lane (fun t => t.land fid j.dst ws)
        let v := v.setJob fid k (fun j => { j with landed := true, flags := if owed.isEmpty then 0 else j.flags })
        if fl.fpx && !owed.isEmpty then v.orFlags j.flags else v)) w.qn (w.lane + j.lane) fid (rangeFrom j.dst j.n)) u fid)) ∧
  (∀ comp idx sel, Happens (.registerWriteback u fid k .stage) (fun s => ready s ∧ j.src = .regq comp idx sel)
    (fun s => s.mapWave u (fun v => { v with flights := v.flights.map (fun x =>
      if x.id = fid then { x with jobs := x.jobs.map (fun j => if j.src == .regq comp idx sel then
        { j with val := some (natWords 2 (regWord (regionDesc s comp idx) sel)) } else j) } else x) }))) ∧
  (∀ e, Happens (.registerWriteback u fid k .stage) (fun s => ready s ∧ j.src = .cseq e)
    (fun s => value s (fun j => { j with val := some (natWords 2 (engSeq s e)) }))) ∧
  (∀ l size bs, Happens (.registerWriteback u fid k .stage)
    (fun s => ready s ∧ j.src = .mem l size ∧ forward s w fid j.path j.va (l.addrs s) = none ∧ cachedPath j.path = false ∧
      coreRead (asked s l size) w.core l = (bs, false))
    (fun s => (asked s l size).mapWave u (fun v => seeRead (v.setJob fid k (fun x =>
      { x with val := some (natWords x.n (leNat (finishBytes size l (layFwd j.fwd bs)))) })) j.lane fid l
        (l.addrs (asked s l size))))) ∧
  (∀ c x, Happens (.readErrorReturn u fid k x) (fun s => job s ∧ j.err = some c ∧ j.path ≠ pathSteppe)
    (fun s =>
      let s := value s (fun y => { y with err := some c })
      let s := if w.inHandler j.lane then returnUnwritten s u fid k w j else landJob s u fid k (List.replicate j.n 0) j.tag
      s.mapWave u (fun v => addDefer v ⟨bitM j.lane, c, fl.pc, [(j.lane, j.errTval c)]⟩))) ∧
  (∀ b size, Happens (.infuserDecode u fid k)
    (fun s => job s ∧ j.src = .mem (.infuse b) size ∧ blockReady s w fl k j b = true)
    (fun s =>
      let s := used s j.va (.infuse b)
      let ad := codedBytes s b
      value s (fun x =>
        if (coreRead s w.core (.bytes ad .plain)).2 then { x with err := some (poisonCause s ad) }
        else match decodeBlock (coreBytes s w.core (rangeFrom b.hdr b.slot)) b with
          | some raw => { x with val := some (natWords x.n (leNat (layFwd j.fwd ((raw.drop b.off).take size)))) }
          | none => { x with err := some .check }))) ∧
  (∀ l n, Happens (.registerSoftError u l n)
    (fun s => s.wave? u = some w ∧ w.retired = false ∧ l < w.width ∧ n < w.top ∧ n < 2048)
    (fun s => s.mapWave u (fun v => v.mapThread l (fun t =>
      if t.soft.contains n then t else { t with soft := t.soft ++ [n] })))) ∧
  (∀ l n, Happens (.registerSoftError u l (8192 + n))
    (fun s => s.wave? u = some w ∧ w.retired = false ∧ l < w.width ∧ n < 80)
    (fun s => s.mapWave u (fun v => { v with wsoft := n :: v.wsoft.filter (· != n) }))) ∧
  (∀ l n, Happens (.registerSoftError u l (16384 + n))
    (fun s => s.wave? u = some w ∧ w.retired = false ∧ l < w.width ∧ 0 < n ∧ n < 12)
    (fun s => s.mapWave u (fun v => v.mapThread l (fun t =>
      if t.soft.contains (16384 + n) then t else { t with soft := t.soft ++ [16384 + n] }))))

/-- The head of a store queue leaves at the order point (R142); an entry is performed, an atomic with its old value
(R137, R140, R336); the host or a peer acknowledges, and SYQ falls with the last part of an instruction (R147). That the
bytes of a part on path 6 or 7 stand at the host or in the peer's window from the performing step on is the model's
choice (log entries 7 and 85). -/
def Obligations.StoreEvents : Prop := ∀ (u core id : Nat) (w : Wave) (e : StEntry) (p : StPart),
  let entry (s : State) : Prop := (s.core core).outs.find? (·.id == id) = some e ∧ performReady s core e = true ∧
    e.parts = [p] ∧ p.done = false ∧ p.path ≠ pathSteppe ∧ partAsleep s e p = false
  let done (s : State) : State := finishEntry (markDone s core id (· == 0)) core id
  -- a store to a peer also leaves as a request (R460)
  let used (s : State) : State :=
    let ctx := match s.wave? e.wave with | some w => waveCtx s w | none => 0
    askPeer (useLoc s true ctx (core / 96) p.path p.va p.loc) ctx p.path p.va p.size p.asks
  (∀ rest, Happens (.storeOrderPoint u)
    (fun s => s.wave? u = some w ∧ w.sq = e :: rest ∧ orderReady s w e = true ∧
      ∀ p ∈ e.parts, relocate s w p = .ok p.loc ∧ p.waits = false)
    (fun s => passOrder (s.mapWave u (fun v => { v with sq := rest })) w e)) ∧
  (∀ n, Happens (.storePerformed core id (n + 1)) (fun s => entry s ∧ p.op = .store)
    (fun s =>
      let s := writeLoc (used s) p.loc (leBytes p.size p.val)
      done (noteWrite s (some (e.wave, e.id)) (· != core) (p.addrs s)))) ∧
  (∀ n op cmp bs, Happens (.storePerformed core id (n + 1))
    (fun s => entry s ∧ p.op = .rmw op cmp ∧ rawBytes (used s) p.loc = (bs, false))
    (fun s =>
      let new := leBytes p.size (atomicNew p.ety op (leNat bs) p.val cmp)
      let s := writeLoc (used s) p.loc new
      -- the L1 keeps what a store of the core that came after the atomic has written there
      let younger := ((((s.core core).outs.dropWhile (·.id != e.id)).drop 1).map (·.cells s)).flatten
      let s := l1Update s core (((p.addrs s).zip new).filter (fun x => !younger.any (·.1 == x.1)))
      let s := noteWrite s (some (e.wave, e.id)) (fun _ => true) (p.addrs s)
      done (giveOld s e p (leNat bs) false))) ∧
  Happens (.storeAck core id)
    (fun s => (s.core core).egress.find? (·.id == id) = some e ∧ e.queued s = false ∧
      ∀ x ∈ (s.core core).outs ++ (s.core core).egress.erase e, x.id ≠ id)
    (fun s => (s.mapCore core (fun k => { k with egress := k.egress.erase e })).mapWave e.wave (fun v =>
      { v with cnt := { v.cnt with syq := v.cnt.syq - 1 } })) ∧
  Happens (.storeAck core id)
    (fun s => (s.core core).egress.find? (·.id == id) = some e ∧
      (e.queued s = true ∨ ∃ x ∈ (s.core core).outs ++ (s.core core).egress.erase e, x.id = id))
    (fun s => s.mapCore core (fun k => { k with egress := k.egress.erase e }))

/-- The operand log: the driver maps the page and a load or a store goes on (R185), or PAGE or BOUNDS goes to %handler
(R187, R134); a page goes back to the host (R197). That a refusal of a peer ends with the resumption is the model's choice
(log entry 85). -/
def Obligations.LogEvents : Prop := ∀ (qn idx : Nat) (e : OpEntry),
  let held (s : State) : Prop := (s.quad qn).oplog[idx]? = some e ∧ e.delivered = false
  let given (s : State) (c : Cause) : State :=
    (s.mapQuad qn (fun q => { q with oplog := q.oplog.mapIdx (fun i x => if i = idx then { x with delivered := true } else x) })).mapWave
      e.wave (fun w => addDefer w ⟨maskOf (e.items.map (·.1)), c, e.pc, e.items.map (fun it => (it.1, BitVec.ofNat 64 it.2.2.2))⟩)
  -- the entry leaves the log; a peer that had refused the page is asked again (R460)
  let resumes (item : Held) (lane path a : Nat) (w : Wave) (l : Loc) (s : State) : Prop :=
    let t := askAgain s e
    held s ∧ e.grow = false ∧ e.items = [(lane, item, path, a)] ∧ s.wave? e.wave = some w ∧ w.uid = e.wave ∧
      recheck t w lane path a (itemAccess t w item).1 (itemAccess t w item).2 = .ok l ∧
      (path < 8 → watchHit w (onPathAddr path a) (itemAccess t w item).1 [(itemAccess t w item).2] = false)
  let leaves (s : State) : State := s.mapQuad qn (fun q => { q with oplog := q.oplog.take idx ++ q.oplog.drop (idx + 1) })
  (∀ lane fid k path a w l, Happens (.oplogResume qn idx) (resumes (.job fid k) lane path a w l)
    (fun s => leaves ((askAgain s e).mapWave e.wave (fun w => w.setJob fid k (fun j =>
      { j with held := false, src := match j.src with | .mem _ size => .mem l size | x => x }))))) ∧
  -- a store stands under the leaf that it finds there (R200)
  (∀ lane eid k path a w l, Happens (.oplogResume qn idx)
    (fun s => resumes (.part eid k) lane path a w l s ∧ partJob s e.wave eid k = none)
    (fun s => leaves (setPart (askAgain s e) e.wave eid k (fun p =>
      { p with loc := l, shared := dupLeaf (askAgain s e) (waveCtx s w) p.path p.va })))) ∧
  Happens (.pageDeliver qn idx) (fun s => held s ∧ e.grow = false) (fun s => given s .page) ∧
  Happens (.growDeny qn idx) (fun s => held s ∧ e.grow = true) (fun s => given s .bounds) ∧
  ∀ ctx va lvl leaf at_, Happens (.ownershipFlip ctx va false)
    (fun s => walk s ctx va = .leaf lvl leaf at_ ∧ leaf.getLsbD 59 = true ∧
      pageBusy s ctx (va % 2 ^ 57 / pageSize lvl * pageSize lvl) (pageSize lvl) = false)
    (fun s => conflictPage (devWrite s at_ 16 (leaf &&& ~~~ (1#128 <<< 59)).toNat) ctx
      (va % 2 ^ 57 / pageSize lvl * pageSize lvl) (pageSize lvl) (fun _ => true))

/-- Moves between the active and the pending set, one swap in a cycle (R59 to R62, R464), and the grant of a waiting XGET
(R66, R74). That a move which is due may be performed later, and which of several due together is first, is the model's
choice (log entry 43); so is what the grant does to the marks of plots (log entry 23, R27). -/
def Obligations.QuadrantEvents : Prop := ∀ (qn u p : Nat) (w : Wave),
  let enter (s : State) (p : Nat) : State :=
    (s.mapQuad qn (fun q => { q with active := q.active ++ [p], pending := q.pending.filter (· != p) })).mapWave p
      (fun v => { v with quantum := 0 })
  let leave (s : State) (u : Nat) : State := s.mapQuad qn (fun q =>
    { q with
      active := q.active.filter (· != u), pending := q.pending ++ [u], blocked := q.blocked.filter (· != u)
      yieldDue := q.yieldDue.filter (· != u), quantumDue := q.quantumDue.filter (· != u) })
  (∀ us, Happens (.waveSwap qn)
    (fun s => ((trackBlocked s qn).quad qn).blocked = u :: us ∧ nextReady (trackBlocked s qn) qn = some p ∧
      (s.quad qn).swapped = false)
    (fun s => (enter (leave (trackBlocked s qn) u) p).mapQuad qn (fun q => { q with swapped := true }))) ∧
  Happens (.waveSwap qn) (fun s => (s.quad qn).swapped = true) (fun s => s) ∧
  Happens (.quantumExpire qn u)
    (fun s => s.wave? u = some w ∧ quantumOut s qn w = true ∧ (s.quad qn).yieldDue ≠ [])
    (fun s => s.mapQuad qn (fun q => { q with quantumDue := q.quantumDue ++ [u] })) ∧
  -- where nothing stands before it, the wave whose quantum has run out leaves at once (R61, R464)
  Happens (.quantumExpire qn u)
    (fun s => s.wave? u = some w ∧ quantumOut s qn w = true ∧ (s.quad qn).yieldDue = [] ∧ (s.quad qn).quantumDue = [] ∧
      ((trackBlocked s qn).quad qn).blocked = [] ∧ (s.quad qn).swapped = false ∧ (s.quad qn).second = none ∧
      nextReady s qn = some p)
    (fun s => (enter (leave (trackBlocked s qn) u) p).mapQuad qn (fun q => { q with swapped := true })) ∧
  Happens (.pendingWaveEnter qn) (fun s => (s.quad qn).active.length < 8 ∧ nextReady s qn = some p) (fun s => enter s p) ∧
  ∀ id n l, Happens (.xgetGrant qn)
    (fun s => grantable s qn = some (id, u, n) ∧ s.wave? u = some w ∧ lowest (xgetLanes w id) = some l ∧
      overQuota s w n = false)
    (fun s => ((s.mapQuad qn (fun q => { q with xq := q.xq.filter (·.1 != id) })).mapWave u (fun v =>
      v.setWait (xgetLanes w id) .none)).mapWave u (fun v =>
        (grantRegs v n).setPc (xgetLanes w id) (fun _ => w.pcOf l + 8)) |> (markGrant · w))

/-- Waits end (R373 to R377), barriers complete (R380, R381), a waiting RTH takes its unit back (R398). -/
def Obligations.WaitEvents : Prop := ∀ (u : Nat) (w : Wave) (t : Team),
  let go (s : State) (l : Nat) : State := s.mapWave u (fun v =>
    (v.mapThread l (fun t => { t with wait := .none })).setPc (bitM l) (fun _ => v.pcOf l + 8))
  Happens (.waitConditionMet u)
    (fun s => s.wave? u = some w ∧ ∀ l ∈ lanesOf w.running, match (w.thread l).wait with
      | .waitc k _ _ => k ≠ 0
      | .waitl .. | .none | .join _ | .bar .. | .barg _ => True
      | _ => False)
    (fun s => ((lanesOf w.running).filter (fun l => match (w.thread l).wait with
      | .waitc k v _ => decide (w.cnt.get k ≤ v)
      | .waitl comp idx v => lapReached s comp idx v
      | _ => false)).foldl go s) ∧
  (∀ b, Happens (.barrierComplete t.uid b)
    (fun s => s.team? t.uid = some t ∧ t.saddle = false ∧ barFull s t b = true ∧
      ∀ w ∈ liveWaves s t, w.num ∈ (fget Bar.idle t.bars b).arr → releasedAt s w false = true)
    (fun s => (releaseWaits s ((liveWaves s t).map (·.uid)) (Wait.atBar b)).mapTeam t.uid (fun t =>
      { t with bars := fset Bar.idle t.bars b Bar.idle }))) ∧
  (∀ n, Happens (.gangBarrierComplete t.uid n)
    (fun s => s.team? t.uid = some t ∧ n < 4 ∧ ((gangOf s t).map (liveWaves s)).flatten ≠ [] ∧
      (∀ p ∈ gangOf s t, bargArrived s p n = true ∧ ∀ w ∈ liveWaves s p, releasedAt s w true = true))
    (fun s =>
      let ws := ((gangOf s t).map (liveWaves s)).flatten
      (gangOf s t).foldl (fun s p => s.mapTeam p.uid (fun p => { p with bargArrived := p.bargArrived.filter (fun k => k / 4096 != n) }))
        (releaseWaits (ws.foldl (fun s w => acquireNow s w.uid) s) (ws.map (·.uid)) (Wait.atBarg n)))) ∧
  Happens (.mxReservationReacquire u)
    (fun s => s.wave? u = some w ∧ (∃ l ∈ lanesOf w.running, (w.thread l).wait = .reacquire) ∧ mustReacquire s w = true ∧
      (s.quad w.qn).mx.holder = none)
    (fun s => returnNow ((s.mapQuad w.qn (fun q => { q with mx := { q.mx with holder := some (w.team, w.num) } })).mapTeam
      w.team (fun t => { t with holders := t.holders.filter (· != w.num) })) u)

/-- A transaction's conflict aborts its lanes with code 0x02 (R365); the commit step makes the buffered stores one
entry of the store queue, and the members go on (R366 to R368). -/
def Obligations.TransactionEvents : Prop := ∀ (u k : Nat) (w : Wave),
  let leave (v : Wave) : Wave := (v.closeTx).mapLanes w.members (fun _ t => { t with wait := .none, pc := t.pc + 8 })
  let ready (s : State) : Prop := s.wave? u = some w ∧ w.kettle.commitAt = some k ∧ commitReady s w k = true ∧
    w.kettle.hit &&& w.members = 0 ∧ (w.kettle.whole = true ∨ aliasLanes s w w.members = 0)
  Happens (.transactionConflict u) (fun s => s.wave? u = some w ∧ w.kettle.hit &&& w.members ≠ 0)
    (fun s => retireIfDone (s.mapWave u (fun v => abortTx v (w.kettle.hit &&& w.members) 2 0)) u) ∧
  Happens (.commitStep u) (fun s => ready s ∧ w.kettle.buf = []) (fun s => s.mapWave u leave) ∧
  ∀ l, Happens (.commitStep u) (fun s => ready s ∧ w.kettle.buf ≠ [] ∧ lowest w.members = some l)
    (fun s => orderPoint ((s.mapWave u leave).mapWave u (fun v =>
      { v with
        sq := { id := k, wave := u, pc := (w.thread l).pc, word := (fetch s ⟨w.code, (w.thread l).pc, w.modeOf l⟩).1, kind := .commit, parts := (w.kettle.buf.map StPart.halves).flatten, scope := 0, acq := false, rel := false, flight := none, xfer := none, stq := true, syq := true } :: v.sq
        cnt := { v.cnt with stq := v.cnt.stq + 1, syq := v.cnt.syq + 1 } })) u)

/-- A region's monitor counts signatures (R118); a parcel is staged, written out element by element and becomes NEW
(R119, R120, R121, R125); the driver writes a descriptor, whose device fields stand while the old one is valid (R8, R108,
R109, R414), of which a Steppe region holds ORDER 0x00 and PIN 1 (R114, log entry 68), and which closes the region where
it clears VALID (R122, R426). -/
def Obligations.RegionEvents : Prop := ∀ (k comp idx n dim : Nat) (m : SigMsg) (d x : Desc),
  let r (s : State) : Region := s.region comp idx
  let arrives (s : State) : Prop := s.sigs[k]? = some m ∧ m.comp = comp ∧ m.idx = idx ∧ validDesc s comp idx = some d
  let message (s : State) : Prop := arrives s ∧ dEcnt d ≠ 65535
  let taken (s : State) (d : Desc) (f : Region → Region) : State :=
    (putDesc { s with sigs := s.sigs.eraseIdx k } comp idx d).mapRegion comp idx (fun _ => f (r s))
  let counts (d : Desc) : Desc := dSet d 432 16 (dEcnt d + 1)
  let moves (s : State) : Prop := validDesc s comp idx = some d ∧ dMvb d = true ∧ asleep s d = false
  let oldAt (n : Nat) : List Nat := rangeFrom (parcelAddr d (dPrior d) (dMvp d) n) (dEs d)
  let newAt (n : Nat) : List Nat := rangeFrom (parcelAddr d (dOrder d) (dMvp d) n) (dEs d)
  Happens (.monitorSignature k) (fun s => message s ∧ (m.sig = none ∨ dMvb (counts d) = true))
    (fun s => taken s (counts d) id) ∧
  Happens (.monitorSignature k)
    (fun s => message s ∧ m.sig = some dim ∧ dMvb (counts d) = false ∧ (r s).n + 1 < 64)
    (fun s => taken s (counts d) (fun r => { r with cnt := fset 0 r.cnt dim (fget 0 r.cnt dim + 1), n := r.n + 1 })) ∧
  Happens (.monitorSignature k)
    (fun s => message s ∧ m.sig = some dim ∧ dMvb (counts d) = false ∧ (r s).n = 63 ∧ isSteppe (counts d) = false)
    (fun s => taken s (propose (counts d) (fset 0 (r s).cnt dim (fget 0 (r s).cnt dim + 1))) (fun r =>
      Region.clearWindow { r with cnt := fset 0 r.cnt dim (fget 0 r.cnt dim + 1), n := 64 })) ∧
  -- the signature that ends an epoch clears RCNT, CONT and the window before it counts
  (let anew : Desc := dSet (dSet (dSet d 432 16 0) 356 2 0) 358 1 0
   Happens (.monitorSignature k) (fun s => arrives s ∧ dEcnt d = 65535 ∧ (m.sig = none ∨ dMvb anew = true))
     (fun s => taken s anew Region.clearWindow) ∧
   Happens (.monitorSignature k) (fun s => arrives s ∧ dEcnt d = 65535 ∧ m.sig = some dim ∧ dMvb anew = false)
     (fun s => taken s anew (fun r => { Region.clearWindow r with cnt := fset 0 [] dim 1, n := 1 }))) ∧
  Happens (.parcelStaged comp idx)
    (fun s => moves s ∧ (r s).moving = false ∧ parcelShut s d (dMvp d) = false ∧
      ∀ z ∈ parcelSlices d (dMvp d), z ∉ stagingSlices s)
    (fun s =>
      let s := stageLines s d (dMvp d)
      (noteWrite s none (fun _ => true) ((parcelElems d (dMvp d)).map oldAt).flatten).mapRegion comp idx (fun r =>
      { r with
        moving := true, written := []
        staged := (parcelElems d (dMvp d)).foldl (fun m n => fput m n
          (s.mem.readN (parcelAddr d (dPrior d) (dMvp d) n) (dEs d))) []
        poisoned := (parcelElems d (dMvp d)).foldl (fun m n => fset .clean m n (readMark s (oldAt n))) [] })) ∧
  (let home (s : State) : Home :=
     ⟨some (granuleSlice d ((parcelAddr d (dOrder d) (dMvp d) n - dPbase d) / 1024)), sealOf s d⟩
   ∀ bs, Happens (.parcelWriteout comp idx n)
    (fun s => moves s ∧ (r s).moving = true ∧ elemIn d (dMvp d) n = true ∧ n < dPh d * dPw d ∧ n ∉ (r s).written ∧
      (linesOf (newAt n)).any (lineAsleep s (home s)) = false ∧ fget (List.replicate (dEs d) 0) (r s).staged n = bs)
    (fun s =>
      (markBytes (writeAddrs (useLines s true (home s) (newAt n)) (newAt n) bs) (newAt n)
        (fget .clean (r s).poisoned n)).mapRegion comp idx (fun r => { r with written := r.written ++ [n] }))) ∧
  (let last (s : State) : Prop := moves s ∧ (r s).moving = true ∧ ∀ n ∈ parcelElems d (dMvp d), n ∈ (r s).written
   -- the staged lines may leave the slice caches again (R121)
   let settled (s : State) : State :=
     (pinLines s d (dMvp d) false).mapRegion comp idx (fun r => { r with moving := false, staged := [], poisoned := [], written := [] })
   Happens (.parcelNew comp idx) (fun s => last s ∧ dMvp d + 1 < parcelCount d)
     (fun s => putDesc (settled s) comp idx (dSet d 322 24 (dMvp d + 1))) ∧
   Happens (.parcelNew comp idx)
     (fun s => last s ∧ parcelCount d = dMvp d + 1 ∧ dAdvv (dSet (dSet d 355 1 0) 322 24 (dMvp d + 1)) = false)
     (fun s => (putDesc (settled s) comp idx (dSet (dSet d 355 1 0) 322 24 (dMvp d + 1))).mapRegion comp idx
       Region.clearWindow)) ∧
  let writable (s : State) : Prop := (r s).old = none ∧ idx < (bufTable s comp).2
  let y (s : State) : Desc := dWritten s comp idx x
  let z : Desc := dSet (dSet (dSet x 368 8 0) 359 1 1) 384 32 0
  let quiet (s : State) : Prop := ∀ o, validDesc s comp idx = some o → isSteppe o = false ∧ dMvb o = false
  Happens (.descriptorWrite comp idx x)
    (fun s => writable s ∧ quiet s ∧ dValid (y s) = true ∧
      (descOk (y s) = false ∨ isSteppe (y s) = true ∧ rowsFit s comp idx (y s) = false))
    (fun s => (putDesc s comp idx (y s)).mapRegion comp idx (fun _ => { Region.fresh with refused := true })) ∧
  Happens (.descriptorWrite comp idx x)
    (fun s => writable s ∧ dValid x = true ∧ isSteppe x = false ∧ validDesc s comp idx = some d ∧ isSteppe d = false ∧
      dValid (y s) = true ∧ descOk (y s) = true ∧ isSteppe (y s) = false)
    (fun s => (putDesc s comp idx ((x &&& ~~~ dHeld) ||| (descOf s comp idx &&& dHeld))).mapRegion comp idx (fun r =>
      { r with refused := false })) ∧
  Happens (.descriptorWrite comp idx x)
    (fun s => writable s ∧ dValid x = true ∧ descOk x = true ∧ isSteppe x = false ∧ validDesc s comp idx = none)
    (fun s => (putDesc s comp idx x).mapRegion comp idx (fun _ => Region.fresh)) ∧
  Happens (.descriptorWrite comp idx x)
    (fun s => writable s ∧ dValid x = true ∧ isSteppe x = true ∧ dValid z = true ∧ isSteppe z = true ∧ descOk z = true ∧
      rowsFit s comp idx z = true ∧ validDesc s comp idx = none)
    (fun s => (putDesc s comp idx z).mapRegion comp idx (fun _ => { Region.fresh with
      laps := (regionSlices z).foldl (fun m n => fput m n ⟨0, .sweep, 0, [], false⟩) [] })) ∧
  Happens (.descriptorWrite comp idx x)
    (fun s => writable s ∧ dValid x = true ∧ isSteppe x = true ∧ validDesc s comp idx = some d ∧ isSteppe d = true ∧
      dValid (y s) = true ∧ isSteppe (y s) = true ∧ descOk (y s) = true ∧ rowsFit s comp idx (y s) = true ∧
      sameRows d (y s) = true)
    (fun s => (putDesc s comp idx (y s)).mapRegion comp idx (fun r => { r with refused := false })) ∧
  Happens (.descriptorWrite comp idx x)
    (fun s => writable s ∧ dValid x = false ∧ validDesc s comp idx = some d ∧ isSteppe d = false ∧ dMvb d = false)
    (fun s => (putDesc s comp idx (y s)).mapRegion comp idx (fun _ => Region.fresh)) ∧
  Happens (.descriptorWrite comp idx x)
    (fun s => writable s ∧ dValid x = false ∧ validDesc s comp idx = some d ∧ isSteppe d = false ∧ dMvb d = true)
    (fun s => scramble ((putDesc s comp idx (y s)).mapRegion comp idx (fun _ => Region.fresh)) d) ∧
  Happens (.descriptorWrite comp idx x)
    (fun s => writable s ∧ dValid x = false ∧ validDesc s comp idx = some d ∧ isSteppe d = true)
    (fun s => releaseRows ((putDesc s comp idx (y s)).mapRegion comp idx (fun r => { r with
      old := some d, refused := false, laps := r.laps.map (fun e => (e.1, { e.2 with closing := true })) })) comp idx)

/-- A Steppe region's requests and sweeps: admission at the fabric (R418), the rows under the cursor (R419 to R421), and
laps with their tokens (R416, R417). That the slices of a closing region leave it one by one is the model's choice (log
entry 82). -/
def Obligations.SteppeEvents : Prop := ∀ (k comp idx n src : Nat) (q : SReq) (x : SliceLap) (g : Nat),
  let home (s : State) : Nat := dHome (regionDesc s comp idx)
  let enter (s : State) : State :=
    setLap s comp idx n (fun x => { x with lap := x.lap + 1, st := .sweep, cursor := 0, tokens := [] })
  let others (s : State) : List Nat := ((s.region comp idx).laps.map (·.1)).filter (· != n)
  let row (s : State) : Nat := rowOf (lineOf (dPbase (regionDesc s comp idx) + 1024 * g))
  (let at_ (s : State) : Prop := s.fabric[k]? = some q ∧ admitReady s k q = true ∧ reqSlice s q = n ∧
     lapOf s q.comp q.idx n = some x
   let entered (s : State) : State := { s with fabric := s.fabric.eraseIdx k }.mapSlice n (fun z =>
     { z with admitted := z.admitted ++ [{ q with lap := x.lap + 1 }] })
   Happens (.steppeAdmit k) (fun s => at_ s ∧ q.op = none) entered ∧
   ∀ op, Happens (.steppeAdmit k) (fun s => at_ s ∧ q.op = some op)
     (fun s => finishEntry (markDone (entered s) q.core q.entry (· == q.job)) q.core q.entry)) ∧
  Happens (.steppeRowApply comp idx n)
    (fun s => lapOf s comp idx n = some x ∧ (sliceRows (regionDesc s comp idx) n)[x.cursor]? = some g ∧ x.st = .sweep ∧
      (s.slice n).selfRefresh = false ∧ bankShut s n (row s) = false)
    (fun s =>
      let here (q : SReq) : Bool :=
        q.comp == comp && q.idx == idx && q.lap == x.lap && elemGranule (regionDesc s comp idx) q.co == g
      let qs := (s.slice n).admitted.filter here
      let s := openRow s n (row s) (sealOf s (regionDesc s comp idx))
      let s := (qs.filter (·.op.isNone)).foldl answerLap ((qs.filter (·.op.isSome)).foldl applyUpdate s)
      releaseRows (setLap (s.mapSlice n (fun z => { z with admitted := z.admitted.filter (fun q => !here q) }))
        comp idx n (fun x => { x with cursor := x.cursor + 1 })) comp idx) ∧
  Happens (.lapEnd comp idx n)
    (fun s => lapOf s comp idx n = some x ∧ x.st = .sweep ∧ (s.slice n).selfRefresh = false ∧
      x.cursor = (sliceRows (regionDesc s comp idx) n).length ∧ (s.region comp idx).old = none ∧
      ∃ o ∈ others s, o ∉ x.tokens)
    (fun s => setLap s comp idx n (fun x => { x with st := .wait })) ∧
  Happens (.lapDoneToken comp idx n src)
    (fun s => lapOf s comp idx n = some x ∧ (s.slice n).selfRefresh = false ∧ src ≠ n ∧ src ∉ x.tokens ∧
      tokenSent s comp idx src x.lap = true ∧ x.st = .sweep)
    (fun s => setLap s comp idx n (fun x => { x with tokens := x.tokens ++ [src] })) ∧
  Happens (.lapDoneToken comp idx n src)
    (fun s => lapOf s comp idx n = some x ∧ (s.slice n).selfRefresh = false ∧ src ≠ n ∧ src ∉ x.tokens ∧
      tokenSent s comp idx src x.lap = true ∧ x.st = .wait ∧ (∀ o ∈ others s, o = src ∨ o ∈ x.tokens) ∧ n ≠ home s)
    (fun s => enter (setLap s comp idx n (fun x => { x with tokens := x.tokens ++ [src] }))) ∧
  Happens (.lapDoneToken comp idx n src)
    (fun s => lapOf s comp idx n = some x ∧ (s.slice n).selfRefresh = false ∧ src ≠ n ∧ src ∉ x.tokens ∧
      tokenSent s comp idx src x.lap = true ∧ x.st = .wait ∧ (∀ o ∈ others s, o = src ∨ o ∈ x.tokens) ∧ n = home s)
    (fun s => keepLap (enter (setLap s comp idx n (fun x => { x with tokens := x.tokens ++ [src] }))) comp idx (x.lap + 1))

/-- A copy engine records the tails it is sent (R427, R429), takes up the next entry (R429), completes or refuses its
command (R431, R432, R154), moves one position (R434), counts chunks (R435), raises or marks its class (R436), stops at
an unreadable entry (R430), and its cause enters handler mode (R173, R174, R180). -/
def Obligations.EngineEvents : Prop := ∀ (e u a phys n : Nat) (c : Cmd) (b src dst : BitVec 512) (deny : Bool) (w : Wave)
    (tv : DWord),
  let cmd (s : State) (f : Cmd → Cmd) : State := s.mapEngine e (fun x => { x with cmd := x.cmd.map f })
  let works (s : State) (p : Plan) : Prop := (s.engine e).cmd = some c ∧ cmdPlan s e c = p
  -- the end of a command that counts: its progress word, SEQ, DONE
  let closed (s : State) (pst ecode chunks : Nat) : State :=
    setEng (putProg s e c pst ecode chunks) e 448 64 ((engSeq s e + 1) % 2 ^ 64)
  let ended (s : State) : State := (setEng s e 302 1 1).mapEngine e (fun x =>
    { x with cmd := none, feeds := if x.feeds.any (·.1 == c.addr) then
        (x.feeds.dropWhile (·.1 != c.addr)).dropWhile (·.1 == c.addr) else x.feeds })
  let failed (s : State) (k : Nat) : State :=
    ended (raiseEngine (setEng (closed s 3 k c.chunks) e 256 1 1) (engFeeder (closed s 3 k c.chunks) e) e
      ((engSeq s e + 1) % 2 ^ 64))
  let accepts (ins : Instr) (op : Nat → Prop) : Prop := Happens ins
    (fun s => (s.engine e).cmd = none ∧ engFetch (engAdvance s e) e = some (a, .got phys b) ∧ op (dn b 0 8))
    (fun s => (useBlock e (engAdvance s e) a).mapEngine e (fun x =>
      { x with cmd := some ⟨a, phys, b, dn b 62 3, b.getLsbD 181, 0⟩ }))
  -- a command that runs has read its views (R433), and its progress word shows it in progress (R435)
  let viewed (s : State) : State := useBlock e (useBlock e s c.viewAddrs.1) c.viewAddrs.2
  let runs (s : State) (op : Nat) : Prop := works s (.run src dst) ∧ c.op = op
  let begun (s : State) : State :=
    if c.word.extractLsb' 190 2 = 1#2 then viewed s else putProg (viewed s) e c 1 0 c.chunks
  Happens (.engineTailDoorbell e tv) (fun s => e < 64 ∧ s.host.boot = .normal)
    (fun s => s.mapEngine e (fun x => { x with tails := x.tails ++ [(tv.toNat, none, none)] })) ∧
  (∀ t rest, Happens (.engineTailRecord e)
    (fun s => (s.engine e).tails = (a, some u, t) :: rest ∧ ¬ (engDone s e = true ∧ engHead s e = a))
    (fun s => ((setEng s e 384 64 a).mapEngine e (fun x => { x with tails := rest, feeds := x.feeds ++ [(a, t)] })).mapWave u
      (fun w => { w with cnt := { w.cnt with enq := w.cnt.enq - 1 } }))) ∧
  accepts (.engineCopy e n deny) (· = 1) ∧ accepts (.engineFill e n deny) (· = 2) ∧
  accepts (.engineNop e) (fun op => op ≠ 1 ∧ op ≠ 2) ∧
  Happens (.engineNop e) (fun s => works s .nop ∧ c.op = 0) (fun s => ended (closed s 2 0 c.chunks)) ∧
  (∀ k, Happens (.engineNop e) (fun s => works s (.fail (k + 1)) ∧ c.op ≠ 1 ∧ c.op ≠ 2) (fun s => failed s (k + 1))) ∧
  Happens (.engineNop e) (fun s => works s .skip ∧ c.op ≠ 1 ∧ c.op ≠ 2) ended ∧
  (∀ q l, Happens (.engineFill e n deny)
    (fun s => runs s 2 ∧ ((c.places src dst c.chunks).take n).drop c.pos = [(q, none)] ∧
      posChk (begun s) e dst q .write = .ok l ∧ posAsleep (begun s) e dst q l = false)
    (fun s =>
      let s := begun s
      cmd (noteWrite (writeLoc (posUse s true e dst q l) l
        (leBytes (vEs dst) (dn c.word 192 64 % 2 ^ (8 * vEs dst)))) none (fun _ => true) (l.addrs s))
        (fun y => { y with pos := c.pos + 1 }))) ∧
  (∀ q p l m bs, Happens (.engineCopy e n deny)
    (fun s =>
      let r := posUse (begun s) false e src p m
      runs s 1 ∧ ((c.places src dst c.chunks).take n).drop c.pos = [(q, some p)] ∧ posChk (begun s) e src p .read = .ok m ∧
        posAsleep (begun s) e src p m = false ∧ sourceBytes r m (vEs src) = some bs ∧ posChk r e dst q .write = .ok l ∧
        posAsleep r e dst q l = false)
    (fun s =>
      let s := posUse (begun s) false e src p m
      cmd (noteWrite (writeLoc (posUse s true e dst q l) l bs) none (fun _ => true) (l.addrs s))
        (fun y => { y with pos := c.pos + 1 }))) ∧
  (∀ k, Happens (.engineCopy e n deny) (fun s => works s (.fail (k + 1)) ∧ c.op = 1) (fun s => failed s (k + 1))) ∧
  Happens (.engineChunkDone e) (fun s => chunkLeft s e = some (c, dst, 0) ∧ c.total dst ≤ c.chunks + 1)
    (fun s => ended (closed s 2 0 (c.total dst))) ∧
  Happens (.engineChunkDone e) (fun s => chunkLeft s e = some (c, dst, 0) ∧ c.chunks + 1 < c.total dst)
    (fun s => cmd (putProg s e c 1 0 (c.chunks + 1)) (fun y => { y with pos := 0 })) ∧
  (∀ p, Happens (.chainFault e) (fun s => engFetch (engAdvance s e) e = some (a, .bad p))
    (fun s =>
      let s := setEng (engAdvance s e) e 257 1 1
      (raiseEngine s (engFeeder s e) e (engSeq s e + 1)).mapEngine e (fun x => { x with stopped := true }))) ∧
  Happens (.deadlinePromote e) (fun s => (s.engine e).cmd = some c ∧ c.deadline ≠ 0)
    (fun s => s.mapEngine e (fun x => { x with cmd := some { c with cls := max c.cls (min 3 (dn c.word 62 3 + 1)) } })) ∧
  Happens (.deadlineExpire e) (fun s => (s.engine e).cmd = some c ∧ c.deadline ≠ 0 ∧ c.late = false)
    (fun s => putProg (s.mapEngine e (fun x => { x with cmd := some { c with cls := 3, late := true } })) e
      { c with cls := 3, late := true } (dn c.word 190 2) 0 c.chunks) ∧
  (∀ rest, Happens (.engineCauseTaken u)
    (fun s => s.wave? u = some w ∧ w.engine = tv :: rest ∧ w.retired = false ∧ w.handling = true)
    (fun s => s.mapWave u (fun v => Wave.recordCause { v with engine := rest } .engine))) ∧
  ∀ rest, Happens (.engineCauseTaken u)
    (fun s => s.wave? u = some w ∧ (∀ v ∈ s.waves, v.uid = u → v = w) ∧ w.engine = tv :: rest ∧ w.retired = false ∧
      w.running ≠ 0 ∧ w.members = 0 ∧ Calm s w w.running)
    (fun s => s.mapWave u (fun v => Wave.enter .engine 0 w.running (fun _ => tv) w.handler { v with engine := rest }))

/-- The matrix unit starts the head of its queue (R404, R408) and writes a result (R405); a transfer moves its next
element, and ends once its release is done (R350, R351). That the result is fixed at the start from the sources as they
then stand, lost bytes among them as free values, is the model's choice (log entries 35 and 86). -/
def Obligations.UnitEvents : Prop := ∀ (qn core : Nat) (o : MxOp) (t : Team) (x : Xfer) (e : DWord) (l : Loc),
  let unit (s : State) (f : MxUnit → MxUnit) (qn : Nat) : State := s.mapQuad qn (fun q => { q with mx := f q.mx })
  -- an acquire comes before the first element (R351)
  let begun (s : State) : State := if x.acq && x.done == 0 then acquireAt s x.wave x.scope else s
  let moves (s : State) (load : Bool) : Prop := (s.core core).xfers.find? (·.id == x.id) = some x ∧ x.load = load ∧
    xferReady s x = true ∧ s.team? x.team = some t ∧ x.held = false ∧ x.done < x.total ∧
    xferAsleep (begun s) core x = false ∧ s.tileEnt t core x.ent = e ∧ xferChk (begun s) x x.done = some (.ok l)
  -- what a load reaches; of a peer, it leaves as a request (R460)
  let used (s : State) : State :=
    let a := servedAs (begun s) (x.addrAt x.done)
    let r := xferUse (begun s) x core l
    if x.lin then askPeer r t.ctx (a / 2 ^ 60) a x.es .read else r
  let va (s : State) : Nat := if x.lin then servedAs s (x.addrAt x.done) else 0
  let path (s : State) : Nat := if x.lin then servedAs s (x.addrAt x.done) / 2 ^ 60 else pathTiled
  (Happens (.mxOpStart qn)
    (fun s => (s.quad qn).mx.head = some o ∧ (∀ y ∈ (s.quad qn).mx.ops, y.result = none) ∧ mbBsh o.pb = false ∧
      s.team? o.team = some t ∧ mbAcq o.pb = false ∧ mxBehind s o false = false)
    (fun s => unit (mxDraw s t o) (fun u =>
      { u with ops := u.ops.map (fun y =>
          if y.id = o.id then { y with result := some (mxCompute s t o (mbNb o.pb) []) } else y) })
      (o.core * 4 + o.quad))) ∧
  (∀ rows fl, Happens (.mxOpComplete qn)
    (fun s => (s.quad qn).mx.ops.find? (·.result.isSome) = some o ∧ o.result = some (rows, fl) ∧ s.team? o.team = some t ∧
      mxReleased s o = true ∧ mxBehind s o true = false ∧ o.flight = none)
    (fun s => (unit (((mxSources o.pb).foldl (fun s i => s.addReaders t i false)
        (mxStore s t o rows ((mbAcc o.pb).getD .f32))).setTile t (mxAcc o.pb) (fun e =>
        setTileState (setFmt e ((mbAcc o.pb).getD .f32)) 2))
      (fun u => { u with ops := u.ops.filter (·.id != o.id) }) qn).mapWave o.wave (fun w =>
        Wave.orFlags { w with cnt := { w.cnt with mxq := w.cnt.mxq - 1 } } fl))) ∧
  (∀ bs, Happens (.tldComplete core x.id (x.done + 1))
    (fun s => moves s true ∧ (∀ b, l ≠ .infuse b) ∧ coreRead (used s) core l = (bs, false))
    (fun s =>
      let r := fillElem (used s) core x t e (finishBytes x.es l bs)
      if x.rel && !unitReleased r x.wave x.id x.scope then r else endXfer r core x.id)) ∧
  ∀ img, Happens (.tstComplete core x.id (x.done + 1))
    (fun s => moves s false ∧ storedElem (begun s) core x t e = (img, none))
    (fun s => endXfer (mapXfer ((begun s).mapWave x.wave (fun w => { w with sq := w.sq.map (fun y =>
      if some y.id = x.entry then { y with parts := y.parts ++ [{
        lane := (lowest x.lanes).getD 0, path := path s, loc := l
        size := x.es, ety := tFmt e, op := .store, val := leNat img
        ret := none, want := .write, va := va s, done := false
        shared := dupLeaf s t.ctx (path s) (va s) }] } else y) }))
      core x.id (fun x => { x with done := x.done + 1 })) core x.id)

/-- Launch queues (R202 to R207), placement and the argument copy (R209 to R215), FETCHW (R217), saving (R193, R196),
the end of teams and launches (R63, R179, R218 to R220) and the watchdog (R222). The model's choices are that a restored
team copies no arguments again (log entry 48), what a kill writes (log entry 38), the boundary at which a long word stops
(log entry 73), and that FETCHW of a killed launch is answered with 2 (log entry 89). -/
def Obligations.ScheduleEvents : Prop := ∀ (q k tu u : Nat) (tail : DWord) (t : Team) (l : Launch) (w : Wave),
  let team (s : State) : Prop := s.team? tu = some t
  let launch (s : State) : Prop := s.launch? q k = some l
  let host (s : State) : Prop := q < 64 ∧ s.host.boot = .normal
  Happens (.launchDoorbell q tail)
    (fun s => host s ∧ qTail (qcb s q) ≤ tail.toNat ∧ tail.toNat ≤ qSeq (qcb s q) + qSlots (qcb s q))
    (fun s => setQcb s q 128 64 tail.toNat) ∧
  Happens (.launchDoorbell q tail)
    (fun s => host s ∧ (tail.toNat < qTail (qcb s q) ∨ qSeq (qcb s q) + qSlots (qcb s q) < tail.toNat))
    (fun s => setQcb s q 321 1 1) ∧
  -- the kernel descriptor that the record names is read from its slice (R205, R453)
  (let kdesc (s : State) : Nat := rn (BitVec.ofNat 1024 (devNat s (recAddr (qcb s q) (qHead (qcb s q))) 128)) 0 64
   let at_ (s : State) : Option (Code × Loc) := kdescLoc s (qCtx (qcb s q)) (kdesc s)
   Happens (.launchRecordRead q)
    (fun s => q < 64 ∧ qEn (qcb s q) = true ∧ qHead (qcb s q) < qTail (qcb s q) ∧
      recAddr (qcb s q) (qHead (qcb s q)) + 128 ≤ deviceBytes ∧
      (at_ s).any (fun p => sliceAsleep s (qCtx (qcb s q)) 0 0 (kdesc s) p.2) = false)
    (fun s =>
      let r := match at_ s with | some p => useLoc s false (qCtx (qcb s q)) 0 0 (kdesc s) p.2 | none => s
      setQcb { r with launches := r.launches ++ [readRecord s q (qcb s q) (qHead (qcb s q))] } q 64 64
        (qHead (qcb s q) + 1))) ∧
  Happens (.launchStartable q k)
    (fun s => launch s ∧ l.reject = none ∧ l.startable = false ∧ (∀ d ∈ l.deps, depHolds s d = true) ∧
      ∀ o ∈ s.launches, o.q = q → o.k < k → o.total ≤ o.next)
    (fun s => s.mapLaunch q k (fun l => { l with startable := true })) ∧
  (∀ xs (f : State → State), Happens .teamPlace
    (fun s => s.host.noPlace = false ∧ served s = some l ∧
      nextSet { s with stuck := fput s.stuck l.prio (l.q, l.k) } l = some xs ∧
      placeSet { s with stuck := fput s.stuck l.prio (l.q, l.k) } l xs = some (f s))
    (fun s => takeSet (f s) l xs)) ∧
  (∀ bs, Happens (.argCopyDone tu)
    (fun s => team s ∧ t.phase = .placing ∧ t.restored = false ∧ s.launch? t.lq t.lk = some l ∧
      argFault s t l.args l.arglen = none ∧ argAsleep s t l.args l.arglen = false ∧ argBytes (argUse s t l.args l.arglen) t l.args l.arglen = (bs, none))
    (fun s =>
      let r := enterWaves (writeAddrs (argUse s t l.args l.arglen) ((List.range bs.length).map t.spAddr) bs) t
      r.mapTeam tu (fun x => { x with phase := if t.stays r then .running else .saving, saved := [] }))) ∧
  Happens (.argCopyDone tu) (fun s => team s ∧ t.phase = .placing ∧ t.restored = true)
    (fun s =>
      let r := enterWaves s t
      r.mapTeam tu (fun x => { x with phase := if t.stays r then .running else .saving, saved := [] })) ∧
  (∀ c a, Happens (.argCopyFault tu c)
    (fun s => team s ∧ t.phase = .placing ∧ t.restored = false ∧ s.launch? t.lq t.lk = some l ∧
      argFault s t l.args l.arglen = some (c, a) ∧ argAsleep s t l.args l.arglen = false)
    (fun s => endTeam s t.uid ⟨c.word, 0, BitVec.ofNat 64 a, t.x, t.y, t.z⟩ false)) ∧
  (∀ o since rest,
    let asked (s : State) : Prop := team s ∧ t.fetchw = (o, u, since) :: rest ∧ s.launch? t.lq t.lk = some l ∧
      mailboxBusy s u since = false
    let taken (s : State) : State := s.mapTeam tu (fun t => { t with fetchw := rest })
    let word (v : Nat) : List Byte := leBytes 4 (v % 2 ^ 32)
    Happens (.fetchwAnswer tu) (fun s => asked s ∧ l.next < l.total ∧ l.killed = false)
      (fun s => shareWrite (shareWrite ((taken s).mapLaunch l.q l.k (fun x =>
          { x with next := l.next + 1, gone := x.gone + 1, wd := false })) t o
        (word (l.next % l.gx) ++ word (l.next / l.gx % l.gy) ++ word (l.next / (l.gx * l.gy)))) t (o + 12) (word 1)) ∧
    Happens (.fetchwAnswer tu) (fun s => asked s ∧ (l.total ≤ l.next ∨ l.killed = true))
      (fun s => shareWrite (taken s) t (o + 12) (leBytes 4 2))) ∧
  Happens (.preemptDeliver u) (fun s => s.wave? u = some w ∧ stepFour s w = none ∧ saveReady s w = true)
    (fun s => deliver ((mxSuspend (s.mapWave u unpark) u).mapWave u (fun w =>
      parkLanes { w with preempt := false } ⟨w.alive, Cause.preempt.word, 0, false, true, false⟩ [])) u) ∧
  (∀ r : State, Happens (.preemptDeliver u) (fun s => s.wave? u = some w ∧ stepFour s w = some r) (fun _ => r)) ∧
  Happens (.saveTimeoutKill tu) (fun _ => True)
    (fun s => { s with waves := s.waves.map (fun w =>
      if !w.retired && ((s.teams.filter (fun t => t.uid == tu && t.phase == .saving)).map (·.uid)).contains w.team then
        { w with kill := true } else w) }) ∧
  Happens (.launchKill q k) (fun s => launch s ∧ l.reject = none) (fun s => killLaunch false s l) ∧
  Happens (.launchKill q k) (fun s => launch s ∧ l.reject ≠ none) id ∧
  Happens (.killDeliver tu)
    (fun s => team s ∧ w ∈ s.waves ∧ w.team = tu ∧ w.kill = true ∧ w.retired = false ∧ ∀ v ∈ s.waves, v.killEsc = false)
    (fun s => endTeam s tu ⟨Cause.kill.word, 0, 0, t.x, t.y, t.z⟩ true) ∧
  Happens (.killDeliver tu)
    (fun s => team s ∧ w ∈ s.waves ∧ w.team = tu ∧ w.kill = true ∧ w.retired = false ∧ w.killEsc = true)
    (fun s => endTeam s tu ⟨Cause.kill.word ||| Cause.uncorr.word, 0, 0, t.x, t.y, t.z⟩ true) ∧
  Happens (.teamRetire tu) (fun s => team s ∧ teamDone s t = true ∧ teamSaved s t = false)
    (fun s => (freeTeam s t).mapLaunch t.lq t.lk (fun l => { l with
      -- stores that the host or a peer has still to acknowledge hold the launch's status word back (R171)
      owed := l.owed ++ (t.cores.map (fun c => ((s.core c).egress.filter (fun e =>
        s.waves.any (fun w => w.uid == e.wave && w.team == t.uid))).map (·.id))).flatten
      gone := l.gone + 1, wd := false })) ∧
  Happens (.launchComplete q)
    (fun s => firstLaunch s q = some l ∧ l.over s = true ∧ l.record = none ∧ l.irq = true)
    (fun s =>
      let s := agentWrite s (recAddr (qcb s q) l.k + 120) 8 l.status
      let s := setQcb s q 192 64 (qSeq (qcb s q) + 1)
      { s with
        host := { s.host with irqs := s.host.irqs ++ [(l.q, l.k)] }
        launches := s.launches.filter (fun o => !(o.q == l.q && o.k == l.k)) }) ∧
  Happens (.watchdogExpire q k)
    (fun s => launch s ∧ l.wd = false ∧ qWdog (qcb s q) ≠ 0 ∧ ∃ t ∈ s.teams, t.lq = q ∧ t.lk = k)
    (fun s =>
      let s := (setQcb s q 320 1 1).mapLaunch q k (fun l => { l with wd := true })
      { s with host := { s.host with errIrqs := s.host.errIrqs + 1 } })

/-- Shoot-downs and fencing (R198, R199, R447), peers and links (R460, R461), refresh, activation counters and back-off
(R441 to R446), lost granules (R448 to R450) and clocks (R37). The model's choices are the numbers of the members of a
shoot-down (log entry 47), the bank, the number and the refresh of a row, which are opaque (log entry 64), and that a
refused or answered request of this device acts on a window of the peer (log entry 85). -/
def Obligations.DeviceEvents : Prop := ∀ (id m n bank row rows p q die mhz : Nat) (x : Shoot) (r : PeerReq) (l : Loc)
    (v : DWord) (b : Flit) (e : ErrSite),
  let shoot (s : State) : Prop := shootOf s id = some x
  let received (s : State) : State := mapShoot s id (fun x => { x with toReceive := x.toReceive.filter (· != m) })
  let count (s : State) : State := mapShoot s id (fun x => { x with toCount := x.toCount.filter (· != m) })
  let gone (x : Shoot) : Shoot :=
    { x with toReceive := x.toReceive.filter (· != m), toCount := x.toCount.filter (· != m) }
  let debt (s : State) (n : Nat) : Nat := fget 0 (s.slice n).debt bank
  let poison (s : State) : State := markBytes s (rangeFrom (64 * e.granule) 64) (if e.carry then .check else .uncorr)
  -- a granule is lost where it lies: in HBM or a pool plot, or in a dirty line of a slice cache (R448)
  let lost (s : State) : Prop :=
    (e.place = .store ∧ (deviceBytes ≤ 64 * e.granule ∨ rowLive s (rowOf e.granule) = true ∧ holderOf s e.granule = none)) ∨
    e.place = .slice ∧ ∃ m z, holderOf s e.granule = some m ∧ flook (s.slice m).cache e.granule = some z ∧ z.dirty = true
  -- a refresh sets the activation counters of its rows to 0 (R441)
  let row1 (k : Nat) (m : FMap Nat) : FMap Nat :=
    m.filter (fun e => !(Config.bankOf e.1 == bank && Config.refreshed k e.1))
  let refreshed (f : Slice → Slice) (s : State) : State := s.mapSlice n (fun z =>
    { f z with acts := row1 (8 * s.now) z.acts })
  let every (k : Nat) (f : Slice → Slice) (s : State) : State := (rangeFrom (32 * k) 32).foldl (fun s n => s.mapSlice n f) s
  Happens (.shootdownReceive id m) (fun s => shoot s ∧ m ∈ x.toReceive ∧ 192 ≤ m) received ∧
  (∀ lo len, Happens (.shootdownReceive id m)
    (fun s => shoot s ∧ m ∈ x.toReceive ∧ m < 192 ∧ pageAround s x.ctx x.va = (lo, len) ∧ coreQuiet s m x.ctx lo len = true)
    (fun s => conflictPage (received s) x.ctx lo len (· == m))) ∧
  Happens (.shootdownAck id m) (fun s => shoot s ∧ m ∉ x.toReceive ∧ m ∈ x.toCount) (fun s => endShoot (count s) id) ∧
  Happens (.fenceTimeout id m) (fun s => shoot s ∧ m ∈ x.toCount ∧ 256 ≤ m ∧ m - 256 ∉ s.fenced)
    (fun s =>
      let s := fenceStores (fenceLoads { s with fenced := s.fenced ++ [m - 256] } (m - 256)) (m - 256)
      let s : State := { s with shoots := s.shoots.map gone }
      (s.shoots.map (·.id)).foldl endShoot s) ∧
  let asked (s : State) (k : Want) : Prop := r.device ∈ s.domain ∧ r.device ∉ s.fenced ∧ r.device ≠ s.devId ∧ r.size ≠ 0 ∧
    r.va % r.size = 0 ∧ checkVirtual s r.ctx 0 r.va (r.va % 2 ^ 52) r.size k = .ok l ∧
    sliceAsleep s r.ctx 0 0 (r.va % 2 ^ 52) l = false
  let used (s : State) (b : Bool) : State := useLoc s b r.ctx 0 0 (r.va % 2 ^ 52) l
  let put (s : State) (n : Nat) : State := noteWrite (writeLoc s l (leBytes r.size n)) none (fun _ => true) (l.addrs s)
  -- the reply leaves on the port of the requester's route; a read of lost bytes has a poisoned one (R450, R460)
  let reply (e : PeerEnd) (s : State) : State := match flook s.routes r.device with
    | some k => if k < 12 then { s with links := fput s.links k (let l := fget Link.reset s.links k
        { l with sent := l.sent ++ [.reply s.devId r e] }) } else s
    | none => s
  (∀ bs bad, Happens (.peerRequest r) (fun s => asked s .read ∧ r.act = .read ∧ rawBytes (used s false) l = (bs, bad))
    (fun s => reply (if bad then .poisoned else .done (BitVec.ofNat 128 (leNat bs))) (used s false))) ∧
  Happens (.peerRequest r) (fun s => asked s .write ∧ r.act = .write v) (fun s => reply (.done 0) (put (used s true) v.toNat)) ∧
  (∀ ty op cmp bs, Happens (.peerRequest r)
    (fun s => asked s .atomic ∧ r.act = .atomic ty op v cmp ∧ ty.esize = r.size ∧ (r.size = 4 ∨ r.size = 8) ∧
      rawBytes (used s true) l = (bs, false))
    (fun s => reply (.done (BitVec.ofNat 128 (leNat bs)))
      (put (used s true) (atomicNew ty op.toNat (leNat bs) v.toNat cmp.toNat)))) ∧
  Happens (.peerRequest r) (fun s => r.device ≠ s.devId ∧ (r.device ∉ s.domain ∨ r.device ∈ s.fenced)) (reply .refused) ∧
  (∀ c tv pos, Happens (.peerRequest r)
    (fun s => r.device ≠ s.devId ∧ checkVirtual s r.ctx 0 r.va (r.va % 2 ^ 52) r.size (peerWant r.act) = .trap c tv pos)
    (reply .refused)) ∧
  -- a flit is taken once, in its order (R461); what it carries then acts
  Happens (.linkFlitReceive p q true b) (fun s => p < 12 ∧ q = (fget Link.reset s.links p).next)
    (fun s => let k := fget Link.reset s.links p
      takeFlit b { s with links := fput s.links p { k with next := k.next + 1, delivered := k.delivered ++ [b] } }) ∧
  Happens (.linkFlitReceive p q true b) (fun s => q ≠ (fget Link.reset s.links p).next) (fun s => s) ∧
  Happens (.linkFlitReceive p q false b) (fun _ => True) (fun s => s) ∧
  Happens (.refreshDue n bank true) (fun s => n < 384 ∧ (s.slice n).selfRefresh = false ∧ debt s n < 8 ∧ bankWanted s n bank = true)
    (fun s => s.mapSlice n (fun z => { z with debt := fset 0 z.debt bank (debt s n + 1) })) ∧
  Happens (.refreshDue n bank true) (fun s => n < 384 ∧ (s.slice n).selfRefresh = false ∧
    (debt s n = 8 ∨ bankWanted s n bank = false)) (refreshed (fun z => z)) ∧
  Happens (.refreshDue n bank false) (fun s => n < 384 ∧ (s.slice n).selfRefresh = false) (refreshed (fun z => z)) ∧
  Happens (.refreshDue n bank false) (fun s => (s.slice n).selfRefresh = true) (fun s => s) ∧
  Happens (.refreshRepay n bank) (fun s => (s.slice n).selfRefresh = false ∧ debt s n ≠ 0 ∧
      flook (s.slice n).windows bank = none ∧ bankWanted s n bank = false)
    (fun s => refreshed (fun z => { z with debt := fset 0 z.debt bank (debt s n - 1) }) s) ∧
  (let alert (s : State) : Prop := n < 384 ∧ (s.slice n).selfRefresh = false ∧ row < rows ∧
     flook (s.slice n).windows bank = none ∧
     ∃ e ∈ (s.slice n).acts, 1024 ≤ e.2 ∧ Config.bankOf e.1 = bank ∧ Config.rowIn e.1 = row
   let noted (z : Slice) : Slice := { z with alerts := (z.alerts + 1) % 2 ^ 32, windows := fput z.windows bank (row, rows) }
   Happens (.rowAlert n bank row rows) (fun s => alert s ∧ debt s n ≠ 8)
     (fun s => s.mapSlice n (fun _ => noted (s.slice n))) ∧
   Happens (.rowAlert n bank row rows) (fun s => alert s ∧ debt s n = 8)
     (fun s => s.mapSlice n (fun z => { noted z with
       paid := (z.paid + 1) % 2 ^ 16, debt := fset 0 z.debt bank 0
       acts := (List.range 8).foldl (fun m i => row1 (8 * s.now + i) m) z.acts }))) ∧
  Happens (.backoffEnd n bank) (fun s => (s.slice n).selfRefresh = true) (fun s => s) ∧
  Happens (.backoffEnd n bank)
    (fun s => flook (s.slice n).windows bank = some (row, rows) ∧ (s.slice n).selfRefresh = false ∧ 2 ≤ row ∧ row + 2 < rows)
    (fun s => s.mapSlice n (fun z => { z with
      windows := fdel z.windows bank
      acts := z.acts.filter (fun e => !(Config.bankOf e.1 == bank &&
        [row - 1, row + 1, row - 2, row + 2, row].contains (Config.rowIn e.1))) })) ∧
  Happens (.selfRefreshEnter n) (fun _ => n < 12) (every n (fun z => { z with selfRefresh := true })) ∧
  Happens (.selfRefreshExit n) (fun _ => n < 12)
    (fun s => (rangeFrom (32 * n) 32).foldl (fun s k => if (s.slice k).selfRefresh then
      s.mapSlice k (fun z => { z with selfRefresh := false, debt := [], acts := [] }) else s) s) ∧
  -- a clean line is dropped, to be read again; no dead row is read (R445, R448)
  (∀ k, Happens (.uncorrectableError e) (fun _ => e.place = .l1 k)
    (fun s => s.mapCore k (fun c => { c with l1 := fdel c.l1 e.granule }))) ∧
  (∀ k z, Happens (.uncorrectableError e)
    (fun s => e.place = .slice ∧ holderOf s e.granule = some k ∧ flook (s.slice k).cache e.granule = some z ∧ z.dirty = false)
    (fun s => s.mapSlice k (fun z => { z with cache := fdel z.cache e.granule }))) ∧
  Happens (.uncorrectableError e)
    (fun s => e.place = .store ∧ 64 * e.granule < deviceBytes ∧ rowLive s (rowOf e.granule) = false) (fun s => s) ∧
  Happens (.uncorrectableError e) (fun s => lost s ∧ errLevel s e = .team) poison ∧
  (∀ c, Happens (.uncorrectableError e) (fun s => lost s ∧ errLevel s e = .context c)
    (fun s => escalate (poison s) (·.ctx == c) (·.ctx == c))) ∧
  (∀ c, Happens (.uncorrectableError e) (fun s => lost s ∧ errLevel s e = .compartment c)
    (fun s => escalate (poison s) (·.comp == c) (·.comp == c))) ∧
  Happens (.uncorrectableError e) (fun s => lost s ∧ errLevel s e = .device)
    (fun s =>
      let s := escalate (poison s) (fun _ => true) (fun _ => true)
      { s with host := { s.host with noPlace := true, fatal := true } }) ∧
  Happens (.clockLower die mhz) (fun s => die < 2 ∧ mhz < clockOf s die)
    (fun s => { s with clocks := fset 850 s.clocks die mhz }) ∧
  Happens (.clockRaise die mhz) (fun s => die < 2 ∧ clockOf s die < mhz ∧ mhz ≤ 850)
    (fun s => { s with clocks := fset 850 s.clocks die mhz })

/-- Keys (R452, R455) and quotes (R457), at the mailboxes of either host port (R34); the log of measurements, registers of
the host function (R454), resets, with which a fenced device behind the port takes part again (R199), and bring-up (R462,
R463). The model's choices are the places of the bases (log entry 25), the shape of a quote and its opaque functions (log
entry 9), which KEY fields name a slot and what a refused KEY_CLEAR leaves (log entry 41), the effects of slice and link
resets (log entries 40 and 67), what a cold reset keeps and recovery ignores (log entry 45), and the entries that the
device adds to its log (log entry 84). -/
def Obligations.HostEvents : Prop := ∀ (n : Nat) (cmd v : DWord) (key entry : BitVec 512) (nonce : BitVec 256) (im : Image)
    (port : Nat), port < 2 →
  let up (s : State) : Prop := s.host.boot = .normal
  let slot := (cmd.extractLsb' 0 10).toNat
  let comp := (cmd.extractLsb' 10 3).toNat
  let kind (k : BitVec 2) : Prop := cmd.extractLsb' 60 2 = k
  -- the mailboxes of a port are the port's own; what stands behind them is shared (R34)
  let at_ (s : State) (f : HostPort → HostPort) : State :=
    { s with ports := fset HostPort.reset s.ports port (f (fget HostPort.reset s.ports port)) }
  let box (s : State) (stat : BitVec 2) (key : BitVec 512) : State :=
    at_ s (fun p => { p with box := ⟨stat, cmd.extractLsb' 60 2, comp, slot, key⟩ })
  Happens (.keyLoad ⟨port, true⟩ cmd key)
    (fun s => up s ∧ kind 1 ∧ cmd.extractLsb' 13 47 = 0 ∧ slotNamed s slot = false ∧ flook s.host.keys slot = none)
    (fun s => { box s 1 key with host := { s.host with keys := fput s.host.keys slot ⟨comp, key⟩ } }) ∧
  Happens (.keyLoad ⟨port, true⟩ cmd key)
    (fun s => up s ∧ kind 1 ∧ (cmd.extractLsb' 13 47 ≠ 0 ∨ slotNamed s slot = true ∨ (flook s.host.keys slot).isSome = true))
    (fun s => box s 2 key) ∧
  (∀ ide, Happens (.keyLoad ⟨port, ide⟩ cmd key) (fun s => up s ∧ (kind 0 ∨ kind 3 ∨ kind 1 ∧ ide = false))
    (fun s => box s 2 key)) ∧
  Happens (.keyClear ⟨port, true⟩ cmd)
    (fun s => up s ∧ kind 2 ∧ cmd.extractLsb' 13 47 = 0 ∧ slotNamed s slot = false)
    (fun s => { box s 1 0 with host := { s.host with keys := fdel s.host.keys slot } }) ∧
  (∀ ide, Happens (.keyClear ⟨port, ide⟩ cmd)
    (fun s => up s ∧ kind 2 ∧ (ide = false ∨ cmd.extractLsb' 13 47 ≠ 0 ∨ slotNamed s slot = true))
    (fun s => box s 2 (fget HostPort.reset s.ports port).box.key)) ∧
  Happens (.quoteRequest ⟨port, nonce⟩) up
    (fun s =>
      let digest := Config.sha3 (leBytes 32 nonce.toNat ++ (s.host.log.map (fun e => leBytes 64 e.toNat)).flatten)
      at_ s (fun p => { p with quote := leBytes 32 digest.toNat ++ leBytes 2420 (Config.signQuote digest).toNat })) ∧
  Happens (.measurementAppend entry)
    (fun s => up s ∧ entry.extractLsb' 40 8 = 5 ∧ entry.extractLsb' 48 16 = 0 ∧ entry.extractLsb' 32 8 = 0)
    (fun s => { s with host := { s.host with log := s.host.log ++ [dSet entry 0 32 s.host.log.length] } }) ∧
  Happens (.sliceStatusClear n v) (fun s => up s ∧ n < 384)
    (fun s => s.mapSlice n (fun z => { z with
      paid := if v.getLsbD 47 then 0 else z.paid, alerts := if v.getLsbD 31 then 0 else z.alerts })) ∧
  Happens (.registerWrite n v) (fun s => up s ∧ 0x50000 ≤ n ∧ n < 0x51000 ∧ n % 8 = 0)
    (fun s => { s with host := { s.host with
      bases := setBase s.host.bases (n - 0x50000) v.toNat, regs := fset 0 s.host.regs n v } }) ∧
  Happens (.registerWrite n v) (fun s => up s ∧ (n < 0x50000 ∨ 0x51000 ≤ n)) (fun s => s) ∧
  Happens (.coreReset n) (fun _ => True)
    (fun s =>
      let s := (teamsOn s n).foldl (fun s t => endTeam s t.uid ⟨Cause.kill.word, 0, 0, t.x, t.y, t.z⟩ true) s
      let s : State := { s with waves := s.waves.map (fun w => if w.core = n then { w with sq := [], flights := [] } else w) }
      let s := (List.range 4).foldl (fun s q => s.mapQuad (n * 4 + q) (fun k => { Quad.reset with cyc := k.cyc })) s
      s.mapCore n (fun k => { k with l1 := [], xfers := [] })) ∧
  -- a slice writes its dirty lines back before it resets, and then holds no line (R462)
  Happens (.sliceReset n) (fun s => (s.slice n).admitted = [] ∧ writeBackShut s (fun k _ => k == n) = false)
    (fun s => (s.slice n).cache.foldl (fun s x => evict s n x.1) s) ∧
  Happens (.sliceReset n) (fun s => (s.slice n).admitted ≠ [] ∨ writeBackShut s (fun k _ => k == n) = true) (fun s => s) ∧
  Happens (.engineReset n) (fun _ => True) (fun s => s.mapEngine n (fun x => { x with cmd := none })) ∧
  -- a fenced device behind the port takes part again (R199)
  Happens (.linkReset n) (fun _ => True)
    (fun s => { s with fenced := s.fenced.filter (fun d => flook s.routes d != some n) }) ∧
  (let fresh (s : State) (h : HostFn) : State :=
     { State.reset with
       devId := s.devId, domain := [s.devId], agenda := s.agenda, nextId := s.nextId, free := s.free, now := s.now
       host := h }
   let log : List (BitVec 512) := bootLog im.digest
   (im.sigOk = true → Happens (.coldReset im) (fun _ => True)
     (fun s => fresh s { HostFn.reset with ident := s.host.ident, log := log, boot := .normal })) ∧
   (im.sigOk = false → Happens (.coldReset im) (fun _ => True)
     (fun s => fresh s { HostFn.reset with ident := s.host.ident, log := [], boot := .recovery })) ∧
   (im.sigOk = true → Happens (.recoveryNewImage im) (fun s => s.host.boot = .recovery)
     (fun s => fresh s { HostFn.reset with ident := s.host.ident, log := log, boot := .normal })) ∧
   Happens (.recoveryNewImage im) up (fun s => s))

/-! ## Storage, reset, fetch and the encoding -/

/-- The storage that every statement above reads through: a byte, a run of bytes and a cleared range of memory;
numbers in device memory, little-endian (R7); registers of a thread, written full, and by a flight only where
they still wait for it (R69, R73); predicates, of which P0 holds in every lane and discards writes (R227). -/
def Obligations.StorageLaws : Prop :=
  (∀ (m : Memory) (a : Nat) (b : Byte) (x : Nat), (m.write a b).read x = if x = a then b else m.read x) ∧
  (∀ (m : Memory) (a : Nat) (bs : List Byte) (x : Nat),
    (m.writeN a bs).read x = if a ≤ x ∧ x < a + bs.length then bs.getD (x - a) 0 else m.read x) ∧
  (∀ (m : Memory) (a n x : Nat), (m.clear a n).read x = if a ≤ x ∧ x < a + n then 0 else m.read x) ∧
  (∀ (s : State) (a n v : Nat), devNat (devWrite s a n v) a n = v % 2 ^ (8 * n)) ∧
  (∀ (s : State) (a n v x : Nat), ¬ (a ≤ x ∧ x < a + n) → (devWrite s a n v).mem.read x = s.mem.read x) ∧
  (∀ (t : Thread) (n : Nat) (ws : List Word) (r : Nat),
    let u := t.setRegs n ws
    u.reg r = (if n ≤ r ∧ r < n + ws.length then ws.getD (r - n) 0 else t.reg r) ∧
    u.empty r = (if n ≤ r ∧ r < n + ws.length then false else t.empty r) ∧
    u = { t with v := u.v, pend := u.pend, soft := u.soft }) ∧
  (∀ (t : Thread) (k n : Nat) (ws : List Word) (r : Nat),
    let u := t.land k n ws
    let due : Prop := n ≤ r ∧ r < n + ws.length ∧ flook t.pend r = some k
    u.reg r = (if due then ws.getD (r - n) 0 else t.reg r) ∧
    flook u.pend r = (if due then none else flook t.pend r) ∧
    u = { t with v := u.v, pend := u.pend, soft := u.soft }) ∧
  (∀ (t : Thread) (b : Bool), t.pred 0 = true ∧ t.setPred 0 b = t) ∧
  (∀ (t : Thread) (p : Nat) (b : Bool) (q : Nat), 0 < p → p < 8 → q < 8 →
    (t.setPred p b).pred q = if q = p then b else t.pred q)

/-- The machine right after cold reset (R463): every byte of main memory reads 0 since every row is dead (R445);
no wave, team or launch; every plot is marked mixed (R27), every tile EMPTY, no partition word that a placement
must match (R22); no shoot-down, no fenced member, clocks at their full rate; the identity block boots. That the
partition word is 0, %cyc of a quadrant 0 and the refresh debt of every bank 0 is the model's choice (log entry 4), and so
is that the log of measurements holds four entries (log entry 84). -/
def Obligations.ResetState : Prop :=
  let s := State.reset
  (∀ a, s.mem.read a = 0) ∧ s.mem.wf = true ∧ (∀ a, fget .clean s.poison a = .clean) ∧
  s.waves = [] ∧ s.teams = [] ∧ s.launches = [] ∧ s.fabric = [] ∧ s.shoots = [] ∧ s.fenced = [] ∧
  (∀ n, (s.quad n).table = [] ∧ (s.quad n).active = [] ∧ (s.quad n).pending = [] ∧ (s.quad n).oplog = [] ∧
    (s.quad n).cyc = 0 ∧ (s.quad n).mx = MxUnit.idle) ∧
  (∀ n, (s.core n).part = 0 ∧ (∀ p, fget none (s.core n).marks p = none) ∧
    (∀ t, tileState (fget 0 (s.core n).tiles t) = 0) ∧ (s.core n).outs = [] ∧ (s.core n).xfers = []) ∧
  (∀ n, (s.slice n).admitted = [] ∧ (s.slice n).selfRefresh = false ∧ (s.slice n).debt = [] ∧ (s.slice n).cache = [] ∧
    (s.slice n).acts = []) ∧ s.seals = [] ∧
  (∀ e, (s.engine e).cmd = none ∧ (s.engine e).stopped = false) ∧
  (∀ d, clockOf s d = 850) ∧ s.host.boot = .normal ∧ s.host.log.length = 4 ∧ s.host.keys = [] ∧
  s.agenda = [] ∧ s.cur = none ∧ s.bad = none

/-- Memory keeps its canonical form: a step from any state whose memory has it leads to a state whose memory has
it, whatever the step issues or does by itself. -/
def Obligations.MemInvariant : Prop :=
  ∀ s t : State, s.mem.wf = true → step s = .next t → t.mem.wf = true

/-- The encoding is one to one: a word decodes to an instruction exactly where the instruction is well formed and encodes
to that word; so no bit of a word is dropped, with every operand at every value. Bits 63:62 say which: FORM 00 words are
the full-form instructions and FORM 01 words the pairs; FORM 10 and 11 are no instruction, and such a word raises ILLEGAL
where it issues (R224). -/
def Obligations.RoundTrip : Prop :=
  (∀ (i : Instr) (w : DWord), decode w = .ok i ↔ (i.wellFormed = true ∧ encode i = some w)) ∧
  (∀ (i : Instr) (w : DWord), decode w = .ok i →
    (w.extractLsb' 62 2 = 0 ∧ i.spec.isSome = true) ∨ (w.extractLsb' 62 2 = 1 ∧ i.pair.isSome = true)) ∧
  (∀ w : DWord, w.getLsbD 63 = true → decode w = .error .form) ∧
  (∀ s i u g, Alone s i u g → Calm s u g → i.word.getLsbD 63 = true →
    exec (.illegalWord i.word) s = .next (s.mapWave u.uid (Wave.enter .illegal i.key.pc g (fun _ => i.word) u.handler)))

/-- A step runs the decoded word. Nothing stands by, no wave has a boundary move, nothing is on the agenda, the
round is in its issue part, and quadrant `qn` is next: where the waiting threads of `qn` have left and its
eligible entry is `e`, the word at the entry's PC is executed with that entry's threads as the issue group (a
second entry `b` of the cycle stands by), then the table is settled and the clock of the model moves on. A word
that stands by is executed in the same way, before anything else, and what the first word left for after it follows it
(R284). A word that decodes to nothing runs as
illegalWord (R252), a PC outside the text as textOverrun. The order of quadrants and of the machine's own steps is the
model's (log entry 1), and so is that the word is read from memory as it stands, where R160 allows the old one too (log
entry 50), and that what the first word left for later follows the second (log entry 16). -/
def Obligations.StepRunsDecoded : Prop :=
  let reads (s : State) (k : Key) (run : Instr → Prop) : Prop := ∀ c : Code, s.code? k.code = some c →
    (∀ w i, k.pc.toNat < c.size → w = BitVec.ofNat 64 (devNat s (c.base + k.pc.toNat) 8) → decode w = .ok i → run i) ∧
    (∀ w x, k.pc.toNat < c.size → w = BitVec.ofNat 64 (devNat s (c.base + k.pc.toNat) 8) → decode w = .error x →
      run (.illegalWord w)) ∧
    (c.size ≤ k.pc.toNat → run .textOverrun)
  let around (o : Out) (qn n : Nat) : Out := followedBy (followedBy o (fun r => settle r (some (qn, n)))) advanceNow
  (∀ (s t : State) (qn : Nat) (qs : List Nat) (n : Nat) (e : Entry) (b : Option (Nat × Entry)),
    standby s = none → firstDue s = none → s.agenda = [] → s.place < ownFrom → turnOrder s = qn :: qs →
    leaveAll (tick s qn) qn = t → choose t qn = some ((n, e), b) →
    let begun : State := { (t.mapQuad qn (fun q => { q with
        second := b.map (fun x => { issueOf t qn x.1 x.2 with snap := t.waves })
        recent := (b.getD (n, e)).2.parts.map (·.wave)
        table := q.table.map (fun x =>
          if x.1 = n ∨ (b.map (·.1)) = some x.1 then (x.1, { x.2 with age := 0 }) else x) })) with
      cur := some (issueOf t qn n e), turn := qn + 1 }
    reads t e.key (fun i => step s = around (exec i begun) qn n)) ∧
  (∀ (s : State) (qn : Nat) (j : Issue), standby s = some (qn, j) →
    let begun : State := { (s.mapQuad qn (fun q => { q with second := none })) with cur := some j }
    reads s j.key (fun i => step s = followedBy (followedBy (exec i begun) (fun r =>
      settle (match r.cur with | some x => x.late.foldl takeEffects r | none => r) (some (qn, j.num)))) advanceNow))

/-- Words written out from the encoding tables, one or more of each family, and words that are illegal (R224,
R225, R226, R237, R252). -/
def Obligations.DecodeWords : Prop :=
  let g : Guard := ⟨false, 0⟩
  let reg (t : Ety) (d a b : BitVec 11) (md : BitVec 8) : Full := ⟨t, g, false, false, false, d, a, .reg b md⟩
  let imm (t : Ety) (d a : BitVec 11) (v : BitVec 16) (md : BitVec 3) : Full := ⟨t, g, false, false, false, d, a, .imm v md⟩
  decode 0x0809440280580C00 = .ok (.fadd ⟨.f32, ⟨true, 2⟩, false, false, true, 10, 11, .reg 12 0⟩) ∧
  decode 0x4000081022801020 = .ok (.iaddHalf ⟨.s32, 0, 1, 2, 0⟩ ⟨.fmul, ⟨.f32, 0, 1, 2, 0⟩⟩) ∧
  decode 0x126002004007FEB8 = .ok (.setx (imm .s32 1 0 0xFFD7 0)) ∧
  decode 0x2006020080000000 = .ok (.ld (imm .n64 2 0 0 0)) ∧
  decode 0x28000000C0A00471 = .ok (.tld (reg .s32 3 20 4 0x71)) ∧
  decode 0x1920020000000028 = .ok (.tryTx (imm .s32 0 0 5 0)) ∧
  decode 0x1900000000000000 = .ok (.nop (reg .s32 0 0 0 0)) ∧
  decode 0x18E0000000000000 = .ok (.exit (reg .s32 0 0 0 0)) ∧
  decode 0x30E0020000000108 = .ok (.barImm (imm .s32 0 0 0x21 0)) ∧
  decode 0x3800000000000000 = .ok (.rth (reg .s32 0 0 0 0)) ∧
  decode 0x081F440280580C00 = .error .type ∧
  decode 0x0801440280580C00 = .error .field ∧
  decode 0x0809540280580C00 = .error .field ∧
  decode 0x0809440280580CE0 = .error .field ∧
  decode 0x0809040280580C00 = .error .field ∧
  decode 0x8000000000000000 = .error .form
end

