-- ==== Sys2Proof/Laws/Frame.lean ====
section
/-!
SUPPORT. What operations leave as it is: no address outside the device is marked by them.
-/
namespace Sys2Proof.Machine

theorem mapQuad_bad (s : State) (n : Nat) (f : Quad → Quad) : (s.mapQuad n f).bad = s.bad := rfl

theorem foldl_bad {α : Type} (g : State → α → State) (h : ∀ s a, (g s a).bad = s.bad) (l : List α) :
    ∀ s : State, (l.foldl g s).bad = s.bad := by
  induction l with
  | nil => intro s; rfl
  | cons a l ih => intro s; rw [List.foldl_cons, ih, h]

theorem retireWave_bad (s : State) (u : Nat) : (retireWave s u).bad = s.bad := by
  unfold retireWave
  split
  · rfl
  · split <;> rfl

theorem setTile_bad (s : State) (t : Team) (i : Nat) (f : DWord → DWord) : (s.setTile t i f).bad = s.bad := by
  unfold State.setTile; rw [foldl_bad]; intros; rfl
theorem addReaders_bad (s : State) (t : Team) (i : Nat) (b : Bool) : (s.addReaders t i b).bad = s.bad := by
  unfold State.addReaders; rw [foldl_bad]; intros; rfl
theorem freeMxTiles_bad (s : State) (o : MxOp) : (freeMxTiles s o).bad = s.bad := by
  unfold freeMxTiles
  split
  · rfl
  · simp only; rw [setTile_bad]
    exact foldl_bad _ (fun _ _ => addReaders_bad ..) _ _
theorem dropPromotion_bad (s : State) (o : MxOp) : (dropPromotion s o).bad = s.bad := by
  unfold dropPromotion; split <;> rfl
theorem dropMxOps_bad (s : State) (qn : Nat) (p : MxOp → Bool) : (dropMxOps s qn p).bad = s.bad := by
  unfold dropMxOps
  simp only
  rw [mapQuad_bad, foldl_bad]
  intro s o; rw [dropPromotion_bad, freeMxTiles_bad]
theorem retireAndCancel_bad (s : State) (u : Nat) : (retireAndCancel s u).bad = s.bad := by
  unfold retireAndCancel
  split
  · rfl
  · rw [dropMxOps_bad, retireWave_bad]
theorem retireIfDone_bad (s : State) (u : Nat) : (retireIfDone s u).bad = s.bad := by
  unfold retireIfDone
  split
  · rfl
  · split
    · exact retireAndCancel_bad ..
    · rfl
theorem exchangeWave_bad (s : State) (qn u : Nat) : (exchangeWave s qn u).1.bad = s.bad := by
  unfold exchangeWave; split <;> rfl
theorem trackBlocked_bad (s : State) (qn : Nat) : (trackBlocked s qn).bad = s.bad := rfl
theorem firstMove_bad (s : State) (qn : Nat) : (firstMove s qn).bad = s.bad := by
  unfold firstMove
  simp only
  split
  · rw [exchangeWave_bad]; rfl
  · split
    · rw [exchangeWave_bad]; rfl
    · split
      · split
        · rw [exchangeWave_bad]; rfl
        · show (exchangeWave _ _ _).1.bad = _
          rw [exchangeWave_bad]; rfl
      · rfl
theorem swapMove_bad (s : State) (qn : Nat) : (swapMove s qn).bad = s.bad := firstMove_bad s qn
theorem yieldWave_bad (s : State) (i : Issue) (u : Nat) : (yieldWave s i u).bad = s.bad := by
  unfold yieldWave
  simp only
  split
  · rw [swapMove_bad]; rfl
  · rfl

theorem recordFail_bad (s : State) (t : Team) (r : FaultRec) : (recordFail s t r).bad = s.bad := by
  unfold recordFail; split <;> rfl
theorem endTeam_bad (s : State) (tu : Nat) (r : FaultRec) (k : Bool) : (endTeam s tu r k).bad = s.bad := by
  unfold endTeam
  split
  · rfl
  · rename_i t _
    have h1 : (recordFail s t r).bad = s.bad := recordFail_bad ..
    have h2 : ∀ us : List Nat, (us.foldl retireAndCancel (recordFail s t r)).bad = s.bad := by
      intro us; rw [foldl_bad _ retireAndCancel_bad, h1]
    simp only
    split
    · show (List.foldl _ _ _ : State).bad = _
      rw [foldl_bad, h2]
      intro s c
      rw [foldl_bad]
      intro s q
      show (dropMxOps s _ _).bad = _
      exact dropMxOps_bad ..
    · exact h2 _

/-! ## Pool writes -/

theorem poolAddr_ok (core off : Nat) : addrOk (poolAddr core off) = true := by
  unfold addrOk poolAddr
  simp only [Bool.or_eq_true, decide_eq_true_eq]
  right; omega

theorem tAddr_ok (t : Team) (e : DWord) (o : Nat) : addrOk (tAddr t e o) = true := by
  unfold tAddr
  split
  · exact poolAddr_ok ..
  · exact poolAddr_ok ..

theorem writeAddrs_bad (ad : List Nat) (h : ∀ a ∈ ad, addrOk a = true) : ∀ (bs : List Byte) (s : State),
    (writeAddrs s ad bs).bad = s.bad := by
  induction ad with
  | nil => intro bs s; cases bs <;> rfl
  | cons a ad ih =>
    intro bs s
    cases bs with
    | nil => rfl
    | cons b bs =>
      unfold writeAddrs
      rw [ih (fun x hx => h x (List.mem_cons_of_mem _ hx)), h a (by simp)]
      rfl

theorem poolWrite_bad (s : State) (b : Option (Nat × Nat)) (ad : List Nat) (bs : List Byte) (h : ∀ a ∈ ad, addrOk a = true) :
    (poolWrite s b ad bs).bad = s.bad := writeAddrs_bad ad h bs s

theorem tAddrs_ok (t : Team) (e : DWord) (o n : Nat) : ∀ a ∈ tAddrs t e o n, addrOk a = true := by
  intro a ha
  obtain ⟨k, -, rfl⟩ := List.mem_map.1 ha
  exact tAddr_ok ..

theorem countReader_bad (s0 s : State) (c : Ctx) (t : Team) (i : Nat) : (countReader s0 s c t i).bad = s.bad := by
  have h : ∀ (b : Bool) (x : State), x.bad = s.bad → (if !b then s else x).bad = s.bad := by
    intro b x hx; cases b
    · rfl
    · exact hx
  exact h _ _ (addReaders_bad ..)

theorem sendSig_bad (s : State) (u l comp idx : Nat) (co : List Nat) : (sendSig s u l comp idx co).bad = s.bad := by
  unfold sendSig; split <;> rfl
theorem sendSigs_bad (s : State) (c : Ctx) (as : List Acc) : (sendSigs s c as).bad = s.bad := by
  unfold sendSigs
  rw [foldl_bad]
  intro s a
  split
  · exact sendSig_bad ..
  · rfl
theorem setProg_bad (s : State) (c : Ctx) (v : Nat) : (setProg s c v).bad = s.bad := rfl
theorem xferSig_bad (s : State) (x : Xfer) : (xferSig s x).bad = s.bad := by
  unfold xferSig; split <;> rfl
theorem loadBegun_bad (f : Full) (as : List Acc) (s : State) (c : Ctx) : (loadBegun f as s c).bad = s.bad := by
  unfold loadBegun; rw [sendSigs_bad]; rfl
theorem storeBegun_bad (kind : StKind) (scope : Nat) (acq rel : Bool) (as : List Acc) (mk : Acc → StPart) (s : State)
    (c : Ctx) : (storeBegun kind scope acq rel as mk s c).bad = s.bad := by
  unfold storeBegun; rw [sendSigs_bad]; rfl
theorem atomicBegun_bad (f : Full) (op scope : Nat) (acq rel ret : Bool) (arg : Nat → AtomArgs) (as : List Acc)
    (s : State) (c : Ctx) : (atomicBegun f op scope acq rel ret arg as s c).bad = s.bad := by
  unfold atomicBegun; simp only; rw [sendSigs_bad]; cases ret <;> rfl

end Sys2Proof.Machine
end

