-- ==== Sys2Proof/Laws/Store.lean ====
section
/-!
SUPPORT. The two sparse containers: reading after writing, and the canonical form that writes keep.
-/
namespace Sys2Proof.Machine

section Maps
variable {β : Type}

@[simp] theorem fget_nil (d : β) (k : Nat) : fget d [] k = d := rfl
@[simp] theorem flook_nil (k : Nat) : flook ([] : FMap β) k = none := rfl

theorem fget_cons (d : β) (e : Nat × β) (m : FMap β) (k : Nat) :
    fget d (e :: m) k = if e.1 = k then e.2 else fget d m k := rfl

theorem flook_cons (e : Nat × β) (m : FMap β) (k : Nat) :
    flook (e :: m) k = if e.1 = k then some e.2 else flook m k := rfl

theorem fdel_cons (e : Nat × β) (m : FMap β) (k : Nat) :
    fdel (e :: m) k = if e.1 = k then fdel m k else e :: fdel m k := by
  simp only [fdel, List.filter_cons, bne_iff_ne, ne_eq, ite_not]

/-- A removed key reads as the default, every other key as before. -/
theorem fget_fdel (d : β) (m : FMap β) (k j : Nat) :
    fget d (fdel m k) j = if j = k then d else fget d m j := by
  induction m with
  | nil => simp [fdel]
  | cons e m ih =>
    rw [fdel_cons]
    by_cases h : e.1 = k
    · rw [if_pos h, ih, fget_cons]
      by_cases hj : j = k
      · simp [hj]
      · have hn : ¬e.1 = j := fun h2 => hj (h2.symm.trans h)
        simp [hj, hn]
    · rw [if_neg h, fget_cons, ih, fget_cons]
      by_cases hj : j = k
      · subst hj; simp [h]
      · simp [hj]

theorem flook_fdel (m : FMap β) (k j : Nat) : flook (fdel m k) j = if j = k then none else flook m j := by
  induction m with
  | nil => simp [fdel]
  | cons e m ih =>
    rw [fdel_cons]
    by_cases h : e.1 = k
    · rw [if_pos h, ih, flook_cons]
      by_cases hj : j = k
      · simp [hj]
      · have hn : ¬e.1 = j := fun h2 => hj (h2.symm.trans h)
        simp [hj, hn]
    · rw [if_neg h, flook_cons, ih, flook_cons]
      by_cases hj : j = k
      · subst hj; simp [h]
      · simp [hj]

/-- A read after a write gives the value written, and every other key reads as before. -/
theorem fget_fset [BEq β] [LawfulBEq β] (d : β) (m : FMap β) (k : Nat) (v : β) (j : Nat) :
    fget d (fset d m k v) j = if j = k then v else fget d m j := by
  induction m with
  | nil =>
    unfold fset
    split
    · rename_i hv
      have hv : v = d := by simpa using hv
      simp [hv]
    · simp [fget_cons, eq_comm (a := k)]
  | cons e m ih =>
    obtain ⟨i, u⟩ := e
    unfold fset
    by_cases h : i = k
    · rw [if_pos h, ih, fget_cons]
      by_cases hj : j = k
      · simp [hj]
      · have hn : ¬i = j := fun h2 => hj (h2.symm.trans h)
        simp [hj, hn]
    · rw [if_neg h]
      split
      · split
        · rename_i hv
          have hv : v = d := by simpa using hv
          rw [fget_cons, fget_fdel, fget_cons, hv]
          by_cases hj : j = k
          · subst hj; simp [h]
          · simp [hj]
        · rw [fget_cons, fget_cons, fget_fdel, fget_cons]
          by_cases hj : j = k
          · simp [hj]
          · have hn : ¬k = j := fun h2 => hj h2.symm
            simp [hj, hn]
      · rw [fget_cons, ih, fget_cons]
        by_cases hj : j = k
        · subst hj; simp [h]
        · simp [hj]

theorem flook_fput (m : FMap β) (k : Nat) (v : β) (j : Nat) :
    flook (fput m k v) j = if j = k then some v else flook m j := by
  induction m with
  | nil => simp [fput, flook_cons, eq_comm (a := k)]
  | cons e m ih =>
    obtain ⟨i, u⟩ := e
    unfold fput
    by_cases h : i = k
    · rw [if_pos h, ih, flook_cons]
      by_cases hj : j = k
      · simp [hj]
      · have hn : ¬i = j := fun h2 => hj (h2.symm.trans h)
        simp [hj, hn]
    · rw [if_neg h]
      split
      · rw [flook_cons, flook_cons, flook_fdel, flook_cons]
        by_cases hj : j = k
        · simp [hj]
        · have hn : ¬k = j := fun h2 => hj h2.symm
          simp [hj, hn]
      · rw [flook_cons, ih, flook_cons]
        by_cases hj : j = k
        · subst hj; simp [h]
        · simp [hj]

theorem fget_fput (d : β) (m : FMap β) (k : Nat) (v : β) (j : Nat) :
    fget d (fput m k v) j = if j = k then v else fget d m j := by
  induction m with
  | nil => simp [fput, fget_cons, eq_comm (a := k)]
  | cons e m ih =>
    obtain ⟨i, u⟩ := e
    unfold fput
    by_cases h : i = k
    · rw [if_pos h, ih, fget_cons]
      by_cases hj : j = k
      · simp [hj]
      · have hn : ¬i = j := fun h2 => hj (h2.symm.trans h)
        simp [hj, hn]
    · rw [if_neg h]
      split
      · rw [fget_cons, fget_cons, fget_fdel, fget_cons]
        by_cases hj : j = k
        · simp [hj]
        · have hn : ¬k = j := fun h2 => hj h2.symm
          simp [hj, hn]
      · rw [fget_cons, ih, fget_cons]
        by_cases hj : j = k
        · subst hj; simp [h]
        · simp [hj]

/-! ## The canonical form -/

/-- Keys rise: the same said of every pair. -/
theorem keysRise_iff (m : FMap β) : keysRise m = true ↔ m.Pairwise (fun a b => a.1 < b.1) := by
  induction m with
  | nil => simp [keysRise]
  | cons a m ih =>
    cases m with
    | nil => simp [keysRise]
    | cons b m =>
      simp only [keysRise, Bool.and_eq_true, decide_eq_true_eq, ih, List.pairwise_cons]
      constructor
      · rintro ⟨h1, h2, h3⟩
        refine ⟨?_, h2, h3⟩
        intro c hc
        rcases List.mem_cons.1 hc with rfl | hc
        · exact h1
        · exact Nat.lt_trans h1 (h2 c hc)
      · rintro ⟨h1, h2, h3⟩
        exact ⟨h1 b (by simp), h2, h3⟩

theorem fwf_iff [BEq β] [LawfulBEq β] (d : β) (m : FMap β) :
    fwf d m = true ↔ m.Pairwise (fun a b => a.1 < b.1) ∧ ∀ e ∈ m, e.2 ≠ d := by
  simp [fwf, keysRise_iff, List.all_eq_true]

/-- Any selection of entries keeps the canonical form. -/
theorem fwf_filter [BEq β] [LawfulBEq β] (d : β) (m : FMap β) (p : Nat × β → Bool) (h : fwf d m = true) :
    fwf d (m.filter p) = true := by
  rw [fwf_iff] at *
  exact ⟨h.1.filter p, fun e he => h.2 e (List.mem_filter.1 he).1⟩

theorem mem_fset [BEq β] [LawfulBEq β] (d : β) (m : FMap β) (k : Nat) (v : β) (e : Nat × β)
    (h : e ∈ fset d m k v) : (e = (k, v) ∧ v ≠ d) ∨ (e ∈ m ∧ e.1 ≠ k) := by
  induction m with
  | nil =>
    by_cases hv : v = d
    · simp [fset, hv] at h
    · simp [fset, hv] at h; exact .inl ⟨h, hv⟩
  | cons a m ih =>
    obtain ⟨i, u⟩ := a
    unfold fset at h
    by_cases hi : i = k
    · rw [if_pos hi] at h
      rcases ih h with h1 | h1
      · exact .inl h1
      · exact .inr ⟨List.mem_cons_of_mem _ h1.1, h1.2⟩
    · rw [if_neg hi] at h
      have del : ∀ e, e ∈ fdel m k → e ∈ m ∧ e.1 ≠ k := by
        intro e he; simpa [fdel] using he
      split at h
      · split at h
        · rcases List.mem_cons.1 h with rfl | h
          · exact .inr ⟨by simp, hi⟩
          · exact .inr ⟨List.mem_cons_of_mem _ (del e h).1, (del e h).2⟩
        · rename_i hv
          rcases List.mem_cons.1 h with rfl | h
          · exact .inl ⟨rfl, by simpa using hv⟩
          · rcases List.mem_cons.1 h with rfl | h
            · exact .inr ⟨by simp, hi⟩
            · exact .inr ⟨List.mem_cons_of_mem _ (del e h).1, (del e h).2⟩
      · rcases List.mem_cons.1 h with rfl | h
        · exact .inr ⟨by simp, hi⟩
        · rcases ih h with h1 | h1
          · exact .inl h1
          · exact .inr ⟨List.mem_cons_of_mem _ h1.1, h1.2⟩

/-- A write keeps the canonical form. -/
theorem fwf_fset [BEq β] [LawfulBEq β] (d : β) (m : FMap β) (k : Nat) (v : β) (h : fwf d m = true) :
    fwf d (fset d m k v) = true := by
  have hall : ∀ e ∈ fset d m k v, e.2 ≠ d := by
    intro e he
    rcases mem_fset d m k v e he with ⟨rfl, hv⟩ | ⟨he, _⟩
    · exact hv
    · exact ((fwf_iff d m).1 h).2 e he
  rw [fwf_iff]
  refine ⟨?_, hall⟩
  clear hall
  have hp := ((fwf_iff d m).1 h).1
  clear h
  induction m with
  | nil => unfold fset; split <;> simp
  | cons a m ih =>
    obtain ⟨i, u⟩ := a
    rw [List.pairwise_cons] at hp
    unfold fset
    by_cases hi : i = k
    · rw [if_pos hi]; exact ih hp.2
    · rw [if_neg hi]
      have del : (fdel m k).Pairwise (fun a b => a.1 < b.1) := hp.2.filter _
      have low : ∀ e ∈ fdel m k, i < e.1 := fun e he => hp.1 e (List.mem_filter.1 he).1
      split
      · rename_i hk
        split
        · exact List.pairwise_cons.2 ⟨low, del⟩
        · refine List.pairwise_cons.2 ⟨?_, List.pairwise_cons.2 ⟨low, del⟩⟩
          intro e he
          rcases List.mem_cons.1 he with rfl | he
          · exact hk
          · exact Nat.lt_trans hk (low e he)
      · rename_i hk
        refine List.pairwise_cons.2 ⟨?_, ih hp.2⟩
        intro e he
        rcases mem_fset d m k v e he with ⟨rfl, _⟩ | ⟨he, _⟩
        · show i < k; omega
        · exact hp.1 e he

end Maps

/-! ## Memory -/

/-- A byte reads as what was last written to it, and a write leaves every other byte alone. -/
theorem Memory.read_write (m : Memory) (a : Nat) (b : Byte) (x : Nat) :
    (m.write a b).read x = if x = a then b else m.read x := fget_fset _ _ _ _ _

theorem Memory.write_wf (m : Memory) (a : Nat) (b : Byte) (h : m.wf = true) : (m.write a b).wf = true :=
  fwf_fset _ _ _ _ h

/-- Bytes written from `a` up read as written; every other byte reads as before. -/
theorem Memory.read_writeN (bs : List Byte) : ∀ (m : Memory) (a x : Nat),
    (m.writeN a bs).read x = if a ≤ x ∧ x < a + bs.length then bs.getD (x - a) 0 else m.read x := by
  induction bs with
  | nil =>
    intro m a x
    rw [if_neg (by simp only [List.length_nil]; omega)]
    rfl
  | cons b bs ih =>
    intro m a x
    rw [Memory.writeN, ih, Memory.read_write]
    by_cases h : x = a
    · subst h
      have h2 : ¬(x + 1 ≤ x ∧ x < x + 1 + bs.length) := by omega
      rw [if_neg h2]
      simp
    · by_cases h1 : a ≤ x ∧ x < a + (b :: bs).length
      · have h2 : a + 1 ≤ x ∧ x < a + 1 + bs.length := by
          simp only [List.length_cons] at h1; omega
        rw [if_pos h2, if_pos h1]
        have : x - a = (x - (a + 1)) + 1 := by omega
        rw [this, List.getD_cons_succ]
      · have h2 : ¬(a + 1 ≤ x ∧ x < a + 1 + bs.length) := by
          simp only [List.length_cons] at h1; omega
        rw [if_neg h2, if_neg h1, if_neg h]

theorem Memory.writeN_wf (bs : List Byte) : ∀ (m : Memory) (a : Nat), m.wf = true → (m.writeN a bs).wf = true := by
  induction bs with
  | nil => intro m a h; exact h
  | cons b bs ih => intro m a h; exact ih _ _ (Memory.write_wf m a b h)

theorem Memory.filter_wf (m : Memory) (p : Host.Cell → Bool) (h : m.wf = true) : Memory.wf (m.filter p) = true :=
  fwf_filter _ _ _ h

theorem Memory.clear_wf (m : Memory) (a n : Nat) (h : m.wf = true) : (m.clear a n).wf = true :=
  Memory.filter_wf m _ h

end Sys2Proof.Machine
end

