-- ==== Sys2Proof/Laws/State.lean ====
section
/-!
SUPPORT. What each update of a part of the state leaves alone, and what it changes: one lemma for each
field and each update.
-/
namespace Sys2Proof.Machine

/-! ## Updates of the state -/
namespace State

@[simp] theorem mapWave_mem (s : State) (u : Nat) (f : Wave → Wave) : (s.mapWave u f).mem = s.mem := rfl
@[simp] theorem mapWave_poison (s : State) (u : Nat) (f : Wave → Wave) : (s.mapWave u f).poison = s.poison := rfl
@[simp] theorem mapWave_quads (s : State) (u : Nat) (f : Wave → Wave) : (s.mapWave u f).quads = s.quads := rfl
@[simp] theorem mapWave_cores (s : State) (u : Nat) (f : Wave → Wave) : (s.mapWave u f).cores = s.cores := rfl
@[simp] theorem mapWave_slices (s : State) (u : Nat) (f : Wave → Wave) : (s.mapWave u f).slices = s.slices := rfl
@[simp] theorem mapWave_engines (s : State) (u : Nat) (f : Wave → Wave) : (s.mapWave u f).engines = s.engines := rfl
@[simp] theorem mapWave_regions (s : State) (u : Nat) (f : Wave → Wave) : (s.mapWave u f).regions = s.regions := rfl
@[simp] theorem mapWave_teams (s : State) (u : Nat) (f : Wave → Wave) : (s.mapWave u f).teams = s.teams := rfl
@[simp] theorem mapWave_launches (s : State) (u : Nat) (f : Wave → Wave) : (s.mapWave u f).launches = s.launches := rfl
@[simp] theorem mapWave_codes (s : State) (u : Nat) (f : Wave → Wave) : (s.mapWave u f).codes = s.codes := rfl
@[simp] theorem mapWave_apertures (s : State) (u : Nat) (f : Wave → Wave) : (s.mapWave u f).apertures = s.apertures := rfl
@[simp] theorem mapWave_sigs (s : State) (u : Nat) (f : Wave → Wave) : (s.mapWave u f).sigs = s.sigs := rfl
@[simp] theorem mapWave_fabric (s : State) (u : Nat) (f : Wave → Wave) : (s.mapWave u f).fabric = s.fabric := rfl
@[simp] theorem mapWave_rr (s : State) (u : Nat) (f : Wave → Wave) : (s.mapWave u f).rr = s.rr := rfl
@[simp] theorem mapWave_stuck (s : State) (u : Nat) (f : Wave → Wave) : (s.mapWave u f).stuck = s.stuck := rfl
@[simp] theorem mapWave_host (s : State) (u : Nat) (f : Wave → Wave) : (s.mapWave u f).host = s.host := rfl
@[simp] theorem mapWave_devId (s : State) (u : Nat) (f : Wave → Wave) : (s.mapWave u f).devId = s.devId := rfl
@[simp] theorem mapWave_domain (s : State) (u : Nat) (f : Wave → Wave) : (s.mapWave u f).domain = s.domain := rfl
@[simp] theorem mapWave_fenced (s : State) (u : Nat) (f : Wave → Wave) : (s.mapWave u f).fenced = s.fenced := rfl
@[simp] theorem mapWave_routes (s : State) (u : Nat) (f : Wave → Wave) : (s.mapWave u f).routes = s.routes := rfl
@[simp] theorem mapWave_refused (s : State) (u : Nat) (f : Wave → Wave) : (s.mapWave u f).refused = s.refused := rfl
@[simp] theorem mapWave_shoots (s : State) (u : Nat) (f : Wave → Wave) : (s.mapWave u f).shoots = s.shoots := rfl
@[simp] theorem mapWave_links (s : State) (u : Nat) (f : Wave → Wave) : (s.mapWave u f).links = s.links := rfl
@[simp] theorem mapWave_clocks (s : State) (u : Nat) (f : Wave → Wave) : (s.mapWave u f).clocks = s.clocks := rfl
@[simp] theorem mapWave_seals (s : State) (u : Nat) (f : Wave → Wave) : (s.mapWave u f).seals = s.seals := rfl
@[simp] theorem mapWave_ports (s : State) (u : Nat) (f : Wave → Wave) : (s.mapWave u f).ports = s.ports := rfl
@[simp] theorem mapWave_agenda (s : State) (u : Nat) (f : Wave → Wave) : (s.mapWave u f).agenda = s.agenda := rfl
@[simp] theorem mapWave_cur (s : State) (u : Nat) (f : Wave → Wave) : (s.mapWave u f).cur = s.cur := rfl
@[simp] theorem mapWave_turn (s : State) (u : Nat) (f : Wave → Wave) : (s.mapWave u f).turn = s.turn := rfl
@[simp] theorem mapWave_now (s : State) (u : Nat) (f : Wave → Wave) : (s.mapWave u f).now = s.now := rfl
@[simp] theorem mapWave_nextId (s : State) (u : Nat) (f : Wave → Wave) : (s.mapWave u f).nextId = s.nextId := rfl
@[simp] theorem mapWave_free (s : State) (u : Nat) (f : Wave → Wave) : (s.mapWave u f).free = s.free := rfl
@[simp] theorem mapWave_bad (s : State) (u : Nat) (f : Wave → Wave) : (s.mapWave u f).bad = s.bad := rfl

@[simp] theorem mapTeam_mem (s : State) (u : Nat) (f : Team → Team) : (s.mapTeam u f).mem = s.mem := rfl
@[simp] theorem mapTeam_poison (s : State) (u : Nat) (f : Team → Team) : (s.mapTeam u f).poison = s.poison := rfl
@[simp] theorem mapTeam_waves (s : State) (u : Nat) (f : Team → Team) : (s.mapTeam u f).waves = s.waves := rfl
@[simp] theorem mapTeam_quads (s : State) (u : Nat) (f : Team → Team) : (s.mapTeam u f).quads = s.quads := rfl
@[simp] theorem mapTeam_cores (s : State) (u : Nat) (f : Team → Team) : (s.mapTeam u f).cores = s.cores := rfl
@[simp] theorem mapTeam_slices (s : State) (u : Nat) (f : Team → Team) : (s.mapTeam u f).slices = s.slices := rfl
@[simp] theorem mapTeam_engines (s : State) (u : Nat) (f : Team → Team) : (s.mapTeam u f).engines = s.engines := rfl
@[simp] theorem mapTeam_regions (s : State) (u : Nat) (f : Team → Team) : (s.mapTeam u f).regions = s.regions := rfl
@[simp] theorem mapTeam_launches (s : State) (u : Nat) (f : Team → Team) : (s.mapTeam u f).launches = s.launches := rfl
@[simp] theorem mapTeam_codes (s : State) (u : Nat) (f : Team → Team) : (s.mapTeam u f).codes = s.codes := rfl
@[simp] theorem mapTeam_apertures (s : State) (u : Nat) (f : Team → Team) : (s.mapTeam u f).apertures = s.apertures := rfl
@[simp] theorem mapTeam_sigs (s : State) (u : Nat) (f : Team → Team) : (s.mapTeam u f).sigs = s.sigs := rfl
@[simp] theorem mapTeam_fabric (s : State) (u : Nat) (f : Team → Team) : (s.mapTeam u f).fabric = s.fabric := rfl
@[simp] theorem mapTeam_rr (s : State) (u : Nat) (f : Team → Team) : (s.mapTeam u f).rr = s.rr := rfl
@[simp] theorem mapTeam_stuck (s : State) (u : Nat) (f : Team → Team) : (s.mapTeam u f).stuck = s.stuck := rfl
@[simp] theorem mapTeam_host (s : State) (u : Nat) (f : Team → Team) : (s.mapTeam u f).host = s.host := rfl
@[simp] theorem mapTeam_devId (s : State) (u : Nat) (f : Team → Team) : (s.mapTeam u f).devId = s.devId := rfl
@[simp] theorem mapTeam_domain (s : State) (u : Nat) (f : Team → Team) : (s.mapTeam u f).domain = s.domain := rfl
@[simp] theorem mapTeam_fenced (s : State) (u : Nat) (f : Team → Team) : (s.mapTeam u f).fenced = s.fenced := rfl
@[simp] theorem mapTeam_routes (s : State) (u : Nat) (f : Team → Team) : (s.mapTeam u f).routes = s.routes := rfl
@[simp] theorem mapTeam_refused (s : State) (u : Nat) (f : Team → Team) : (s.mapTeam u f).refused = s.refused := rfl
@[simp] theorem mapTeam_shoots (s : State) (u : Nat) (f : Team → Team) : (s.mapTeam u f).shoots = s.shoots := rfl
@[simp] theorem mapTeam_links (s : State) (u : Nat) (f : Team → Team) : (s.mapTeam u f).links = s.links := rfl
@[simp] theorem mapTeam_clocks (s : State) (u : Nat) (f : Team → Team) : (s.mapTeam u f).clocks = s.clocks := rfl
@[simp] theorem mapTeam_seals (s : State) (u : Nat) (f : Team → Team) : (s.mapTeam u f).seals = s.seals := rfl
@[simp] theorem mapTeam_ports (s : State) (u : Nat) (f : Team → Team) : (s.mapTeam u f).ports = s.ports := rfl
@[simp] theorem mapTeam_agenda (s : State) (u : Nat) (f : Team → Team) : (s.mapTeam u f).agenda = s.agenda := rfl
@[simp] theorem mapTeam_cur (s : State) (u : Nat) (f : Team → Team) : (s.mapTeam u f).cur = s.cur := rfl
@[simp] theorem mapTeam_turn (s : State) (u : Nat) (f : Team → Team) : (s.mapTeam u f).turn = s.turn := rfl
@[simp] theorem mapTeam_now (s : State) (u : Nat) (f : Team → Team) : (s.mapTeam u f).now = s.now := rfl
@[simp] theorem mapTeam_nextId (s : State) (u : Nat) (f : Team → Team) : (s.mapTeam u f).nextId = s.nextId := rfl
@[simp] theorem mapTeam_free (s : State) (u : Nat) (f : Team → Team) : (s.mapTeam u f).free = s.free := rfl
@[simp] theorem mapTeam_bad (s : State) (u : Nat) (f : Team → Team) : (s.mapTeam u f).bad = s.bad := rfl

@[simp] theorem mapLaunch_mem (s : State) (q k : Nat) (f : Launch → Launch) : (s.mapLaunch q k f).mem = s.mem := rfl
@[simp] theorem mapLaunch_poison (s : State) (q k : Nat) (f : Launch → Launch) : (s.mapLaunch q k f).poison = s.poison := rfl
@[simp] theorem mapLaunch_waves (s : State) (q k : Nat) (f : Launch → Launch) : (s.mapLaunch q k f).waves = s.waves := rfl
@[simp] theorem mapLaunch_quads (s : State) (q k : Nat) (f : Launch → Launch) : (s.mapLaunch q k f).quads = s.quads := rfl
@[simp] theorem mapLaunch_cores (s : State) (q k : Nat) (f : Launch → Launch) : (s.mapLaunch q k f).cores = s.cores := rfl
@[simp] theorem mapLaunch_slices (s : State) (q k : Nat) (f : Launch → Launch) : (s.mapLaunch q k f).slices = s.slices := rfl
@[simp] theorem mapLaunch_engines (s : State) (q k : Nat) (f : Launch → Launch) : (s.mapLaunch q k f).engines = s.engines := rfl
@[simp] theorem mapLaunch_regions (s : State) (q k : Nat) (f : Launch → Launch) : (s.mapLaunch q k f).regions = s.regions := rfl
@[simp] theorem mapLaunch_teams (s : State) (q k : Nat) (f : Launch → Launch) : (s.mapLaunch q k f).teams = s.teams := rfl
@[simp] theorem mapLaunch_codes (s : State) (q k : Nat) (f : Launch → Launch) : (s.mapLaunch q k f).codes = s.codes := rfl
@[simp] theorem mapLaunch_apertures (s : State) (q k : Nat) (f : Launch → Launch) : (s.mapLaunch q k f).apertures = s.apertures := rfl
@[simp] theorem mapLaunch_sigs (s : State) (q k : Nat) (f : Launch → Launch) : (s.mapLaunch q k f).sigs = s.sigs := rfl
@[simp] theorem mapLaunch_fabric (s : State) (q k : Nat) (f : Launch → Launch) : (s.mapLaunch q k f).fabric = s.fabric := rfl
@[simp] theorem mapLaunch_rr (s : State) (q k : Nat) (f : Launch → Launch) : (s.mapLaunch q k f).rr = s.rr := rfl
@[simp] theorem mapLaunch_stuck (s : State) (q k : Nat) (f : Launch → Launch) : (s.mapLaunch q k f).stuck = s.stuck := rfl
@[simp] theorem mapLaunch_host (s : State) (q k : Nat) (f : Launch → Launch) : (s.mapLaunch q k f).host = s.host := rfl
@[simp] theorem mapLaunch_devId (s : State) (q k : Nat) (f : Launch → Launch) : (s.mapLaunch q k f).devId = s.devId := rfl
@[simp] theorem mapLaunch_domain (s : State) (q k : Nat) (f : Launch → Launch) : (s.mapLaunch q k f).domain = s.domain := rfl
@[simp] theorem mapLaunch_fenced (s : State) (q k : Nat) (f : Launch → Launch) : (s.mapLaunch q k f).fenced = s.fenced := rfl
@[simp] theorem mapLaunch_routes (s : State) (q k : Nat) (f : Launch → Launch) : (s.mapLaunch q k f).routes = s.routes := rfl
@[simp] theorem mapLaunch_refused (s : State) (q k : Nat) (f : Launch → Launch) : (s.mapLaunch q k f).refused = s.refused := rfl
@[simp] theorem mapLaunch_shoots (s : State) (q k : Nat) (f : Launch → Launch) : (s.mapLaunch q k f).shoots = s.shoots := rfl
@[simp] theorem mapLaunch_links (s : State) (q k : Nat) (f : Launch → Launch) : (s.mapLaunch q k f).links = s.links := rfl
@[simp] theorem mapLaunch_clocks (s : State) (q k : Nat) (f : Launch → Launch) : (s.mapLaunch q k f).clocks = s.clocks := rfl
@[simp] theorem mapLaunch_seals (s : State) (q k : Nat) (f : Launch → Launch) : (s.mapLaunch q k f).seals = s.seals := rfl
@[simp] theorem mapLaunch_ports (s : State) (q k : Nat) (f : Launch → Launch) : (s.mapLaunch q k f).ports = s.ports := rfl
@[simp] theorem mapLaunch_agenda (s : State) (q k : Nat) (f : Launch → Launch) : (s.mapLaunch q k f).agenda = s.agenda := rfl
@[simp] theorem mapLaunch_cur (s : State) (q k : Nat) (f : Launch → Launch) : (s.mapLaunch q k f).cur = s.cur := rfl
@[simp] theorem mapLaunch_turn (s : State) (q k : Nat) (f : Launch → Launch) : (s.mapLaunch q k f).turn = s.turn := rfl
@[simp] theorem mapLaunch_now (s : State) (q k : Nat) (f : Launch → Launch) : (s.mapLaunch q k f).now = s.now := rfl
@[simp] theorem mapLaunch_nextId (s : State) (q k : Nat) (f : Launch → Launch) : (s.mapLaunch q k f).nextId = s.nextId := rfl
@[simp] theorem mapLaunch_free (s : State) (q k : Nat) (f : Launch → Launch) : (s.mapLaunch q k f).free = s.free := rfl
@[simp] theorem mapLaunch_bad (s : State) (q k : Nat) (f : Launch → Launch) : (s.mapLaunch q k f).bad = s.bad := rfl

@[simp] theorem mapQuad_mem (s : State) (n : Nat) (f : Quad → Quad) : (s.mapQuad n f).mem = s.mem := rfl
@[simp] theorem mapQuad_poison (s : State) (n : Nat) (f : Quad → Quad) : (s.mapQuad n f).poison = s.poison := rfl
@[simp] theorem mapQuad_waves (s : State) (n : Nat) (f : Quad → Quad) : (s.mapQuad n f).waves = s.waves := rfl
@[simp] theorem mapQuad_cores (s : State) (n : Nat) (f : Quad → Quad) : (s.mapQuad n f).cores = s.cores := rfl
@[simp] theorem mapQuad_slices (s : State) (n : Nat) (f : Quad → Quad) : (s.mapQuad n f).slices = s.slices := rfl
@[simp] theorem mapQuad_engines (s : State) (n : Nat) (f : Quad → Quad) : (s.mapQuad n f).engines = s.engines := rfl
@[simp] theorem mapQuad_regions (s : State) (n : Nat) (f : Quad → Quad) : (s.mapQuad n f).regions = s.regions := rfl
@[simp] theorem mapQuad_teams (s : State) (n : Nat) (f : Quad → Quad) : (s.mapQuad n f).teams = s.teams := rfl
@[simp] theorem mapQuad_launches (s : State) (n : Nat) (f : Quad → Quad) : (s.mapQuad n f).launches = s.launches := rfl
@[simp] theorem mapQuad_codes (s : State) (n : Nat) (f : Quad → Quad) : (s.mapQuad n f).codes = s.codes := rfl
@[simp] theorem mapQuad_apertures (s : State) (n : Nat) (f : Quad → Quad) : (s.mapQuad n f).apertures = s.apertures := rfl
@[simp] theorem mapQuad_sigs (s : State) (n : Nat) (f : Quad → Quad) : (s.mapQuad n f).sigs = s.sigs := rfl
@[simp] theorem mapQuad_fabric (s : State) (n : Nat) (f : Quad → Quad) : (s.mapQuad n f).fabric = s.fabric := rfl
@[simp] theorem mapQuad_rr (s : State) (n : Nat) (f : Quad → Quad) : (s.mapQuad n f).rr = s.rr := rfl
@[simp] theorem mapQuad_stuck (s : State) (n : Nat) (f : Quad → Quad) : (s.mapQuad n f).stuck = s.stuck := rfl
@[simp] theorem mapQuad_host (s : State) (n : Nat) (f : Quad → Quad) : (s.mapQuad n f).host = s.host := rfl
@[simp] theorem mapQuad_devId (s : State) (n : Nat) (f : Quad → Quad) : (s.mapQuad n f).devId = s.devId := rfl
@[simp] theorem mapQuad_domain (s : State) (n : Nat) (f : Quad → Quad) : (s.mapQuad n f).domain = s.domain := rfl
@[simp] theorem mapQuad_fenced (s : State) (n : Nat) (f : Quad → Quad) : (s.mapQuad n f).fenced = s.fenced := rfl
@[simp] theorem mapQuad_routes (s : State) (n : Nat) (f : Quad → Quad) : (s.mapQuad n f).routes = s.routes := rfl
@[simp] theorem mapQuad_refused (s : State) (n : Nat) (f : Quad → Quad) : (s.mapQuad n f).refused = s.refused := rfl
@[simp] theorem mapQuad_shoots (s : State) (n : Nat) (f : Quad → Quad) : (s.mapQuad n f).shoots = s.shoots := rfl
@[simp] theorem mapQuad_links (s : State) (n : Nat) (f : Quad → Quad) : (s.mapQuad n f).links = s.links := rfl
@[simp] theorem mapQuad_clocks (s : State) (n : Nat) (f : Quad → Quad) : (s.mapQuad n f).clocks = s.clocks := rfl
@[simp] theorem mapQuad_seals (s : State) (n : Nat) (f : Quad → Quad) : (s.mapQuad n f).seals = s.seals := rfl
@[simp] theorem mapQuad_ports (s : State) (n : Nat) (f : Quad → Quad) : (s.mapQuad n f).ports = s.ports := rfl
@[simp] theorem mapQuad_agenda (s : State) (n : Nat) (f : Quad → Quad) : (s.mapQuad n f).agenda = s.agenda := rfl
@[simp] theorem mapQuad_cur (s : State) (n : Nat) (f : Quad → Quad) : (s.mapQuad n f).cur = s.cur := rfl
@[simp] theorem mapQuad_turn (s : State) (n : Nat) (f : Quad → Quad) : (s.mapQuad n f).turn = s.turn := rfl
@[simp] theorem mapQuad_now (s : State) (n : Nat) (f : Quad → Quad) : (s.mapQuad n f).now = s.now := rfl
@[simp] theorem mapQuad_nextId (s : State) (n : Nat) (f : Quad → Quad) : (s.mapQuad n f).nextId = s.nextId := rfl
@[simp] theorem mapQuad_free (s : State) (n : Nat) (f : Quad → Quad) : (s.mapQuad n f).free = s.free := rfl
@[simp] theorem mapQuad_bad (s : State) (n : Nat) (f : Quad → Quad) : (s.mapQuad n f).bad = s.bad := rfl

@[simp] theorem mapCore_mem (s : State) (n : Nat) (f : Core → Core) : (s.mapCore n f).mem = s.mem := rfl
@[simp] theorem mapCore_poison (s : State) (n : Nat) (f : Core → Core) : (s.mapCore n f).poison = s.poison := rfl
@[simp] theorem mapCore_waves (s : State) (n : Nat) (f : Core → Core) : (s.mapCore n f).waves = s.waves := rfl
@[simp] theorem mapCore_quads (s : State) (n : Nat) (f : Core → Core) : (s.mapCore n f).quads = s.quads := rfl
@[simp] theorem mapCore_slices (s : State) (n : Nat) (f : Core → Core) : (s.mapCore n f).slices = s.slices := rfl
@[simp] theorem mapCore_engines (s : State) (n : Nat) (f : Core → Core) : (s.mapCore n f).engines = s.engines := rfl
@[simp] theorem mapCore_regions (s : State) (n : Nat) (f : Core → Core) : (s.mapCore n f).regions = s.regions := rfl
@[simp] theorem mapCore_teams (s : State) (n : Nat) (f : Core → Core) : (s.mapCore n f).teams = s.teams := rfl
@[simp] theorem mapCore_launches (s : State) (n : Nat) (f : Core → Core) : (s.mapCore n f).launches = s.launches := rfl
@[simp] theorem mapCore_codes (s : State) (n : Nat) (f : Core → Core) : (s.mapCore n f).codes = s.codes := rfl
@[simp] theorem mapCore_apertures (s : State) (n : Nat) (f : Core → Core) : (s.mapCore n f).apertures = s.apertures := rfl
@[simp] theorem mapCore_sigs (s : State) (n : Nat) (f : Core → Core) : (s.mapCore n f).sigs = s.sigs := rfl
@[simp] theorem mapCore_fabric (s : State) (n : Nat) (f : Core → Core) : (s.mapCore n f).fabric = s.fabric := rfl
@[simp] theorem mapCore_rr (s : State) (n : Nat) (f : Core → Core) : (s.mapCore n f).rr = s.rr := rfl
@[simp] theorem mapCore_stuck (s : State) (n : Nat) (f : Core → Core) : (s.mapCore n f).stuck = s.stuck := rfl
@[simp] theorem mapCore_host (s : State) (n : Nat) (f : Core → Core) : (s.mapCore n f).host = s.host := rfl
@[simp] theorem mapCore_devId (s : State) (n : Nat) (f : Core → Core) : (s.mapCore n f).devId = s.devId := rfl
@[simp] theorem mapCore_domain (s : State) (n : Nat) (f : Core → Core) : (s.mapCore n f).domain = s.domain := rfl
@[simp] theorem mapCore_fenced (s : State) (n : Nat) (f : Core → Core) : (s.mapCore n f).fenced = s.fenced := rfl
@[simp] theorem mapCore_routes (s : State) (n : Nat) (f : Core → Core) : (s.mapCore n f).routes = s.routes := rfl
@[simp] theorem mapCore_refused (s : State) (n : Nat) (f : Core → Core) : (s.mapCore n f).refused = s.refused := rfl
@[simp] theorem mapCore_shoots (s : State) (n : Nat) (f : Core → Core) : (s.mapCore n f).shoots = s.shoots := rfl
@[simp] theorem mapCore_links (s : State) (n : Nat) (f : Core → Core) : (s.mapCore n f).links = s.links := rfl
@[simp] theorem mapCore_clocks (s : State) (n : Nat) (f : Core → Core) : (s.mapCore n f).clocks = s.clocks := rfl
@[simp] theorem mapCore_seals (s : State) (n : Nat) (f : Core → Core) : (s.mapCore n f).seals = s.seals := rfl
@[simp] theorem mapCore_ports (s : State) (n : Nat) (f : Core → Core) : (s.mapCore n f).ports = s.ports := rfl
@[simp] theorem mapCore_agenda (s : State) (n : Nat) (f : Core → Core) : (s.mapCore n f).agenda = s.agenda := rfl
@[simp] theorem mapCore_cur (s : State) (n : Nat) (f : Core → Core) : (s.mapCore n f).cur = s.cur := rfl
@[simp] theorem mapCore_turn (s : State) (n : Nat) (f : Core → Core) : (s.mapCore n f).turn = s.turn := rfl
@[simp] theorem mapCore_now (s : State) (n : Nat) (f : Core → Core) : (s.mapCore n f).now = s.now := rfl
@[simp] theorem mapCore_nextId (s : State) (n : Nat) (f : Core → Core) : (s.mapCore n f).nextId = s.nextId := rfl
@[simp] theorem mapCore_free (s : State) (n : Nat) (f : Core → Core) : (s.mapCore n f).free = s.free := rfl
@[simp] theorem mapCore_bad (s : State) (n : Nat) (f : Core → Core) : (s.mapCore n f).bad = s.bad := rfl

@[simp] theorem mapSlice_mem (s : State) (n : Nat) (f : Slice → Slice) : (s.mapSlice n f).mem = s.mem := rfl
@[simp] theorem mapSlice_poison (s : State) (n : Nat) (f : Slice → Slice) : (s.mapSlice n f).poison = s.poison := rfl
@[simp] theorem mapSlice_waves (s : State) (n : Nat) (f : Slice → Slice) : (s.mapSlice n f).waves = s.waves := rfl
@[simp] theorem mapSlice_quads (s : State) (n : Nat) (f : Slice → Slice) : (s.mapSlice n f).quads = s.quads := rfl
@[simp] theorem mapSlice_cores (s : State) (n : Nat) (f : Slice → Slice) : (s.mapSlice n f).cores = s.cores := rfl
@[simp] theorem mapSlice_engines (s : State) (n : Nat) (f : Slice → Slice) : (s.mapSlice n f).engines = s.engines := rfl
@[simp] theorem mapSlice_regions (s : State) (n : Nat) (f : Slice → Slice) : (s.mapSlice n f).regions = s.regions := rfl
@[simp] theorem mapSlice_teams (s : State) (n : Nat) (f : Slice → Slice) : (s.mapSlice n f).teams = s.teams := rfl
@[simp] theorem mapSlice_launches (s : State) (n : Nat) (f : Slice → Slice) : (s.mapSlice n f).launches = s.launches := rfl
@[simp] theorem mapSlice_codes (s : State) (n : Nat) (f : Slice → Slice) : (s.mapSlice n f).codes = s.codes := rfl
@[simp] theorem mapSlice_apertures (s : State) (n : Nat) (f : Slice → Slice) : (s.mapSlice n f).apertures = s.apertures := rfl
@[simp] theorem mapSlice_sigs (s : State) (n : Nat) (f : Slice → Slice) : (s.mapSlice n f).sigs = s.sigs := rfl
@[simp] theorem mapSlice_fabric (s : State) (n : Nat) (f : Slice → Slice) : (s.mapSlice n f).fabric = s.fabric := rfl
@[simp] theorem mapSlice_rr (s : State) (n : Nat) (f : Slice → Slice) : (s.mapSlice n f).rr = s.rr := rfl
@[simp] theorem mapSlice_stuck (s : State) (n : Nat) (f : Slice → Slice) : (s.mapSlice n f).stuck = s.stuck := rfl
@[simp] theorem mapSlice_host (s : State) (n : Nat) (f : Slice → Slice) : (s.mapSlice n f).host = s.host := rfl
@[simp] theorem mapSlice_devId (s : State) (n : Nat) (f : Slice → Slice) : (s.mapSlice n f).devId = s.devId := rfl
@[simp] theorem mapSlice_domain (s : State) (n : Nat) (f : Slice → Slice) : (s.mapSlice n f).domain = s.domain := rfl
@[simp] theorem mapSlice_fenced (s : State) (n : Nat) (f : Slice → Slice) : (s.mapSlice n f).fenced = s.fenced := rfl
@[simp] theorem mapSlice_routes (s : State) (n : Nat) (f : Slice → Slice) : (s.mapSlice n f).routes = s.routes := rfl
@[simp] theorem mapSlice_refused (s : State) (n : Nat) (f : Slice → Slice) : (s.mapSlice n f).refused = s.refused := rfl
@[simp] theorem mapSlice_shoots (s : State) (n : Nat) (f : Slice → Slice) : (s.mapSlice n f).shoots = s.shoots := rfl
@[simp] theorem mapSlice_links (s : State) (n : Nat) (f : Slice → Slice) : (s.mapSlice n f).links = s.links := rfl
@[simp] theorem mapSlice_clocks (s : State) (n : Nat) (f : Slice → Slice) : (s.mapSlice n f).clocks = s.clocks := rfl
@[simp] theorem mapSlice_seals (s : State) (n : Nat) (f : Slice → Slice) : (s.mapSlice n f).seals = s.seals := rfl
@[simp] theorem mapSlice_ports (s : State) (n : Nat) (f : Slice → Slice) : (s.mapSlice n f).ports = s.ports := rfl
@[simp] theorem mapSlice_agenda (s : State) (n : Nat) (f : Slice → Slice) : (s.mapSlice n f).agenda = s.agenda := rfl
@[simp] theorem mapSlice_cur (s : State) (n : Nat) (f : Slice → Slice) : (s.mapSlice n f).cur = s.cur := rfl
@[simp] theorem mapSlice_turn (s : State) (n : Nat) (f : Slice → Slice) : (s.mapSlice n f).turn = s.turn := rfl
@[simp] theorem mapSlice_now (s : State) (n : Nat) (f : Slice → Slice) : (s.mapSlice n f).now = s.now := rfl
@[simp] theorem mapSlice_nextId (s : State) (n : Nat) (f : Slice → Slice) : (s.mapSlice n f).nextId = s.nextId := rfl
@[simp] theorem mapSlice_free (s : State) (n : Nat) (f : Slice → Slice) : (s.mapSlice n f).free = s.free := rfl
@[simp] theorem mapSlice_bad (s : State) (n : Nat) (f : Slice → Slice) : (s.mapSlice n f).bad = s.bad := rfl

@[simp] theorem mapEngine_mem (s : State) (n : Nat) (f : Engine → Engine) : (s.mapEngine n f).mem = s.mem := rfl
@[simp] theorem mapEngine_poison (s : State) (n : Nat) (f : Engine → Engine) : (s.mapEngine n f).poison = s.poison := rfl
@[simp] theorem mapEngine_waves (s : State) (n : Nat) (f : Engine → Engine) : (s.mapEngine n f).waves = s.waves := rfl
@[simp] theorem mapEngine_quads (s : State) (n : Nat) (f : Engine → Engine) : (s.mapEngine n f).quads = s.quads := rfl
@[simp] theorem mapEngine_cores (s : State) (n : Nat) (f : Engine → Engine) : (s.mapEngine n f).cores = s.cores := rfl
@[simp] theorem mapEngine_slices (s : State) (n : Nat) (f : Engine → Engine) : (s.mapEngine n f).slices = s.slices := rfl
@[simp] theorem mapEngine_regions (s : State) (n : Nat) (f : Engine → Engine) : (s.mapEngine n f).regions = s.regions := rfl
@[simp] theorem mapEngine_teams (s : State) (n : Nat) (f : Engine → Engine) : (s.mapEngine n f).teams = s.teams := rfl
@[simp] theorem mapEngine_launches (s : State) (n : Nat) (f : Engine → Engine) : (s.mapEngine n f).launches = s.launches := rfl
@[simp] theorem mapEngine_codes (s : State) (n : Nat) (f : Engine → Engine) : (s.mapEngine n f).codes = s.codes := rfl
@[simp] theorem mapEngine_apertures (s : State) (n : Nat) (f : Engine → Engine) : (s.mapEngine n f).apertures = s.apertures := rfl
@[simp] theorem mapEngine_sigs (s : State) (n : Nat) (f : Engine → Engine) : (s.mapEngine n f).sigs = s.sigs := rfl
@[simp] theorem mapEngine_fabric (s : State) (n : Nat) (f : Engine → Engine) : (s.mapEngine n f).fabric = s.fabric := rfl
@[simp] theorem mapEngine_rr (s : State) (n : Nat) (f : Engine → Engine) : (s.mapEngine n f).rr = s.rr := rfl
@[simp] theorem mapEngine_stuck (s : State) (n : Nat) (f : Engine → Engine) : (s.mapEngine n f).stuck = s.stuck := rfl
@[simp] theorem mapEngine_host (s : State) (n : Nat) (f : Engine → Engine) : (s.mapEngine n f).host = s.host := rfl
@[simp] theorem mapEngine_devId (s : State) (n : Nat) (f : Engine → Engine) : (s.mapEngine n f).devId = s.devId := rfl
@[simp] theorem mapEngine_domain (s : State) (n : Nat) (f : Engine → Engine) : (s.mapEngine n f).domain = s.domain := rfl
@[simp] theorem mapEngine_fenced (s : State) (n : Nat) (f : Engine → Engine) : (s.mapEngine n f).fenced = s.fenced := rfl
@[simp] theorem mapEngine_routes (s : State) (n : Nat) (f : Engine → Engine) : (s.mapEngine n f).routes = s.routes := rfl
@[simp] theorem mapEngine_refused (s : State) (n : Nat) (f : Engine → Engine) : (s.mapEngine n f).refused = s.refused := rfl
@[simp] theorem mapEngine_shoots (s : State) (n : Nat) (f : Engine → Engine) : (s.mapEngine n f).shoots = s.shoots := rfl
@[simp] theorem mapEngine_links (s : State) (n : Nat) (f : Engine → Engine) : (s.mapEngine n f).links = s.links := rfl
@[simp] theorem mapEngine_clocks (s : State) (n : Nat) (f : Engine → Engine) : (s.mapEngine n f).clocks = s.clocks := rfl
@[simp] theorem mapEngine_seals (s : State) (n : Nat) (f : Engine → Engine) : (s.mapEngine n f).seals = s.seals := rfl
@[simp] theorem mapEngine_ports (s : State) (n : Nat) (f : Engine → Engine) : (s.mapEngine n f).ports = s.ports := rfl
@[simp] theorem mapEngine_agenda (s : State) (n : Nat) (f : Engine → Engine) : (s.mapEngine n f).agenda = s.agenda := rfl
@[simp] theorem mapEngine_cur (s : State) (n : Nat) (f : Engine → Engine) : (s.mapEngine n f).cur = s.cur := rfl
@[simp] theorem mapEngine_turn (s : State) (n : Nat) (f : Engine → Engine) : (s.mapEngine n f).turn = s.turn := rfl
@[simp] theorem mapEngine_now (s : State) (n : Nat) (f : Engine → Engine) : (s.mapEngine n f).now = s.now := rfl
@[simp] theorem mapEngine_nextId (s : State) (n : Nat) (f : Engine → Engine) : (s.mapEngine n f).nextId = s.nextId := rfl
@[simp] theorem mapEngine_free (s : State) (n : Nat) (f : Engine → Engine) : (s.mapEngine n f).free = s.free := rfl
@[simp] theorem mapEngine_bad (s : State) (n : Nat) (f : Engine → Engine) : (s.mapEngine n f).bad = s.bad := rfl

@[simp] theorem mapRegion_mem (s : State) (c i : Nat) (f : Region → Region) : (s.mapRegion c i f).mem = s.mem := rfl
@[simp] theorem mapRegion_poison (s : State) (c i : Nat) (f : Region → Region) : (s.mapRegion c i f).poison = s.poison := rfl
@[simp] theorem mapRegion_waves (s : State) (c i : Nat) (f : Region → Region) : (s.mapRegion c i f).waves = s.waves := rfl
@[simp] theorem mapRegion_quads (s : State) (c i : Nat) (f : Region → Region) : (s.mapRegion c i f).quads = s.quads := rfl
@[simp] theorem mapRegion_cores (s : State) (c i : Nat) (f : Region → Region) : (s.mapRegion c i f).cores = s.cores := rfl
@[simp] theorem mapRegion_slices (s : State) (c i : Nat) (f : Region → Region) : (s.mapRegion c i f).slices = s.slices := rfl
@[simp] theorem mapRegion_engines (s : State) (c i : Nat) (f : Region → Region) : (s.mapRegion c i f).engines = s.engines := rfl
@[simp] theorem mapRegion_teams (s : State) (c i : Nat) (f : Region → Region) : (s.mapRegion c i f).teams = s.teams := rfl
@[simp] theorem mapRegion_launches (s : State) (c i : Nat) (f : Region → Region) : (s.mapRegion c i f).launches = s.launches := rfl
@[simp] theorem mapRegion_codes (s : State) (c i : Nat) (f : Region → Region) : (s.mapRegion c i f).codes = s.codes := rfl
@[simp] theorem mapRegion_apertures (s : State) (c i : Nat) (f : Region → Region) : (s.mapRegion c i f).apertures = s.apertures := rfl
@[simp] theorem mapRegion_sigs (s : State) (c i : Nat) (f : Region → Region) : (s.mapRegion c i f).sigs = s.sigs := rfl
@[simp] theorem mapRegion_fabric (s : State) (c i : Nat) (f : Region → Region) : (s.mapRegion c i f).fabric = s.fabric := rfl
@[simp] theorem mapRegion_rr (s : State) (c i : Nat) (f : Region → Region) : (s.mapRegion c i f).rr = s.rr := rfl
@[simp] theorem mapRegion_stuck (s : State) (c i : Nat) (f : Region → Region) : (s.mapRegion c i f).stuck = s.stuck := rfl
@[simp] theorem mapRegion_host (s : State) (c i : Nat) (f : Region → Region) : (s.mapRegion c i f).host = s.host := rfl
@[simp] theorem mapRegion_devId (s : State) (c i : Nat) (f : Region → Region) : (s.mapRegion c i f).devId = s.devId := rfl
@[simp] theorem mapRegion_domain (s : State) (c i : Nat) (f : Region → Region) : (s.mapRegion c i f).domain = s.domain := rfl
@[simp] theorem mapRegion_fenced (s : State) (c i : Nat) (f : Region → Region) : (s.mapRegion c i f).fenced = s.fenced := rfl
@[simp] theorem mapRegion_routes (s : State) (c i : Nat) (f : Region → Region) : (s.mapRegion c i f).routes = s.routes := rfl
@[simp] theorem mapRegion_refused (s : State) (c i : Nat) (f : Region → Region) : (s.mapRegion c i f).refused = s.refused := rfl
@[simp] theorem mapRegion_shoots (s : State) (c i : Nat) (f : Region → Region) : (s.mapRegion c i f).shoots = s.shoots := rfl
@[simp] theorem mapRegion_links (s : State) (c i : Nat) (f : Region → Region) : (s.mapRegion c i f).links = s.links := rfl
@[simp] theorem mapRegion_clocks (s : State) (c i : Nat) (f : Region → Region) : (s.mapRegion c i f).clocks = s.clocks := rfl
@[simp] theorem mapRegion_seals (s : State) (c i : Nat) (f : Region → Region) : (s.mapRegion c i f).seals = s.seals := rfl
@[simp] theorem mapRegion_ports (s : State) (c i : Nat) (f : Region → Region) : (s.mapRegion c i f).ports = s.ports := rfl
@[simp] theorem mapRegion_agenda (s : State) (c i : Nat) (f : Region → Region) : (s.mapRegion c i f).agenda = s.agenda := rfl
@[simp] theorem mapRegion_cur (s : State) (c i : Nat) (f : Region → Region) : (s.mapRegion c i f).cur = s.cur := rfl
@[simp] theorem mapRegion_turn (s : State) (c i : Nat) (f : Region → Region) : (s.mapRegion c i f).turn = s.turn := rfl
@[simp] theorem mapRegion_now (s : State) (c i : Nat) (f : Region → Region) : (s.mapRegion c i f).now = s.now := rfl
@[simp] theorem mapRegion_nextId (s : State) (c i : Nat) (f : Region → Region) : (s.mapRegion c i f).nextId = s.nextId := rfl
@[simp] theorem mapRegion_free (s : State) (c i : Nat) (f : Region → Region) : (s.mapRegion c i f).free = s.free := rfl
@[simp] theorem mapRegion_bad (s : State) (c i : Nat) (f : Region → Region) : (s.mapRegion c i f).bad = s.bad := rfl

@[simp] theorem touch_mem (s : State) (ok : Bool) (a : Nat) : (s.touch ok a).mem = s.mem := by
  unfold touch; split <;> rfl
@[simp] theorem touch_poison (s : State) (ok : Bool) (a : Nat) : (s.touch ok a).poison = s.poison := by
  unfold touch; split <;> rfl
@[simp] theorem touch_waves (s : State) (ok : Bool) (a : Nat) : (s.touch ok a).waves = s.waves := by
  unfold touch; split <;> rfl
@[simp] theorem touch_quads (s : State) (ok : Bool) (a : Nat) : (s.touch ok a).quads = s.quads := by
  unfold touch; split <;> rfl
@[simp] theorem touch_cores (s : State) (ok : Bool) (a : Nat) : (s.touch ok a).cores = s.cores := by
  unfold touch; split <;> rfl
@[simp] theorem touch_slices (s : State) (ok : Bool) (a : Nat) : (s.touch ok a).slices = s.slices := by
  unfold touch; split <;> rfl
@[simp] theorem touch_engines (s : State) (ok : Bool) (a : Nat) : (s.touch ok a).engines = s.engines := by
  unfold touch; split <;> rfl
@[simp] theorem touch_regions (s : State) (ok : Bool) (a : Nat) : (s.touch ok a).regions = s.regions := by
  unfold touch; split <;> rfl
@[simp] theorem touch_teams (s : State) (ok : Bool) (a : Nat) : (s.touch ok a).teams = s.teams := by
  unfold touch; split <;> rfl
@[simp] theorem touch_launches (s : State) (ok : Bool) (a : Nat) : (s.touch ok a).launches = s.launches := by
  unfold touch; split <;> rfl
@[simp] theorem touch_codes (s : State) (ok : Bool) (a : Nat) : (s.touch ok a).codes = s.codes := by
  unfold touch; split <;> rfl
@[simp] theorem touch_apertures (s : State) (ok : Bool) (a : Nat) : (s.touch ok a).apertures = s.apertures := by
  unfold touch; split <;> rfl
@[simp] theorem touch_sigs (s : State) (ok : Bool) (a : Nat) : (s.touch ok a).sigs = s.sigs := by
  unfold touch; split <;> rfl
@[simp] theorem touch_fabric (s : State) (ok : Bool) (a : Nat) : (s.touch ok a).fabric = s.fabric := by
  unfold touch; split <;> rfl
@[simp] theorem touch_rr (s : State) (ok : Bool) (a : Nat) : (s.touch ok a).rr = s.rr := by
  unfold touch; split <;> rfl
@[simp] theorem touch_stuck (s : State) (ok : Bool) (a : Nat) : (s.touch ok a).stuck = s.stuck := by
  unfold touch; split <;> rfl
@[simp] theorem touch_host (s : State) (ok : Bool) (a : Nat) : (s.touch ok a).host = s.host := by
  unfold touch; split <;> rfl
@[simp] theorem touch_devId (s : State) (ok : Bool) (a : Nat) : (s.touch ok a).devId = s.devId := by
  unfold touch; split <;> rfl
@[simp] theorem touch_domain (s : State) (ok : Bool) (a : Nat) : (s.touch ok a).domain = s.domain := by
  unfold touch; split <;> rfl
@[simp] theorem touch_fenced (s : State) (ok : Bool) (a : Nat) : (s.touch ok a).fenced = s.fenced := by
  unfold touch; split <;> rfl
@[simp] theorem touch_routes (s : State) (ok : Bool) (a : Nat) : (s.touch ok a).routes = s.routes := by
  unfold touch; split <;> rfl
@[simp] theorem touch_refused (s : State) (ok : Bool) (a : Nat) : (s.touch ok a).refused = s.refused := by
  unfold touch; split <;> rfl
@[simp] theorem touch_shoots (s : State) (ok : Bool) (a : Nat) : (s.touch ok a).shoots = s.shoots := by
  unfold touch; split <;> rfl
@[simp] theorem touch_links (s : State) (ok : Bool) (a : Nat) : (s.touch ok a).links = s.links := by
  unfold touch; split <;> rfl
@[simp] theorem touch_clocks (s : State) (ok : Bool) (a : Nat) : (s.touch ok a).clocks = s.clocks := by
  unfold touch; split <;> rfl
@[simp] theorem touch_seals (s : State) (ok : Bool) (a : Nat) : (s.touch ok a).seals = s.seals := by
  unfold touch; split <;> rfl
@[simp] theorem touch_ports (s : State) (ok : Bool) (a : Nat) : (s.touch ok a).ports = s.ports := by
  unfold touch; split <;> rfl
@[simp] theorem touch_agenda (s : State) (ok : Bool) (a : Nat) : (s.touch ok a).agenda = s.agenda := by
  unfold touch; split <;> rfl
@[simp] theorem touch_cur (s : State) (ok : Bool) (a : Nat) : (s.touch ok a).cur = s.cur := by
  unfold touch; split <;> rfl
@[simp] theorem touch_turn (s : State) (ok : Bool) (a : Nat) : (s.touch ok a).turn = s.turn := by
  unfold touch; split <;> rfl
@[simp] theorem touch_now (s : State) (ok : Bool) (a : Nat) : (s.touch ok a).now = s.now := by
  unfold touch; split <;> rfl
@[simp] theorem touch_nextId (s : State) (ok : Bool) (a : Nat) : (s.touch ok a).nextId = s.nextId := by
  unfold touch; split <;> rfl
@[simp] theorem touch_free (s : State) (ok : Bool) (a : Nat) : (s.touch ok a).free = s.free := by
  unfold touch; split <;> rfl

@[simp] theorem newId_mem (s : State) : s.newId.2.mem = s.mem := rfl
@[simp] theorem newId_poison (s : State) : s.newId.2.poison = s.poison := rfl
@[simp] theorem newId_waves (s : State) : s.newId.2.waves = s.waves := rfl
@[simp] theorem newId_quads (s : State) : s.newId.2.quads = s.quads := rfl
@[simp] theorem newId_cores (s : State) : s.newId.2.cores = s.cores := rfl
@[simp] theorem newId_slices (s : State) : s.newId.2.slices = s.slices := rfl
@[simp] theorem newId_engines (s : State) : s.newId.2.engines = s.engines := rfl
@[simp] theorem newId_regions (s : State) : s.newId.2.regions = s.regions := rfl
@[simp] theorem newId_teams (s : State) : s.newId.2.teams = s.teams := rfl
@[simp] theorem newId_launches (s : State) : s.newId.2.launches = s.launches := rfl
@[simp] theorem newId_codes (s : State) : s.newId.2.codes = s.codes := rfl
@[simp] theorem newId_apertures (s : State) : s.newId.2.apertures = s.apertures := rfl
@[simp] theorem newId_sigs (s : State) : s.newId.2.sigs = s.sigs := rfl
@[simp] theorem newId_fabric (s : State) : s.newId.2.fabric = s.fabric := rfl
@[simp] theorem newId_rr (s : State) : s.newId.2.rr = s.rr := rfl
@[simp] theorem newId_stuck (s : State) : s.newId.2.stuck = s.stuck := rfl
@[simp] theorem newId_host (s : State) : s.newId.2.host = s.host := rfl
@[simp] theorem newId_devId (s : State) : s.newId.2.devId = s.devId := rfl
@[simp] theorem newId_domain (s : State) : s.newId.2.domain = s.domain := rfl
@[simp] theorem newId_fenced (s : State) : s.newId.2.fenced = s.fenced := rfl
@[simp] theorem newId_routes (s : State) : s.newId.2.routes = s.routes := rfl
@[simp] theorem newId_refused (s : State) : s.newId.2.refused = s.refused := rfl
@[simp] theorem newId_shoots (s : State) : s.newId.2.shoots = s.shoots := rfl
@[simp] theorem newId_links (s : State) : s.newId.2.links = s.links := rfl
@[simp] theorem newId_clocks (s : State) : s.newId.2.clocks = s.clocks := rfl
@[simp] theorem newId_seals (s : State) : s.newId.2.seals = s.seals := rfl
@[simp] theorem newId_ports (s : State) : s.newId.2.ports = s.ports := rfl
@[simp] theorem newId_agenda (s : State) : s.newId.2.agenda = s.agenda := rfl
@[simp] theorem newId_cur (s : State) : s.newId.2.cur = s.cur := rfl
@[simp] theorem newId_turn (s : State) : s.newId.2.turn = s.turn := rfl
@[simp] theorem newId_now (s : State) : s.newId.2.now = s.now := rfl
@[simp] theorem newId_free (s : State) : s.newId.2.free = s.free := rfl
@[simp] theorem newId_bad (s : State) : s.newId.2.bad = s.bad := rfl

@[simp] theorem mapWave_waves (s : State) (u : Nat) (f : Wave → Wave) :
    (s.mapWave u f).waves = s.waves.map (fun w => if w.uid = u then f w else w) := rfl
@[simp] theorem mapTeam_teams (s : State) (u : Nat) (f : Team → Team) :
    (s.mapTeam u f).teams = s.teams.map (fun t => if t.uid = u then f t else t) := rfl

@[simp] theorem mapWave_quad_at (s : State) (u : Nat) (f : Wave → Wave) (j : Nat) : (s.mapWave u f).quad j = s.quad j := rfl
@[simp] theorem mapWave_core_at (s : State) (u : Nat) (f : Wave → Wave) (j : Nat) : (s.mapWave u f).core j = s.core j := rfl
@[simp] theorem mapWave_slice_at (s : State) (u : Nat) (f : Wave → Wave) (j : Nat) : (s.mapWave u f).slice j = s.slice j := rfl
@[simp] theorem mapWave_engine_at (s : State) (u : Nat) (f : Wave → Wave) (j : Nat) : (s.mapWave u f).engine j = s.engine j := rfl
@[simp] theorem mapWave_region_at (s : State) (u : Nat) (f : Wave → Wave) (x y : Nat) : (s.mapWave u f).region x y = s.region x y := rfl
@[simp] theorem mapWave_team_at (s : State) (u : Nat) (f : Wave → Wave) (j : Nat) : (s.mapWave u f).team? j = s.team? j := rfl
@[simp] theorem mapWave_launch_at (s : State) (u : Nat) (f : Wave → Wave) (x y : Nat) : (s.mapWave u f).launch? x y = s.launch? x y := rfl
@[simp] theorem mapWave_code_at (s : State) (u : Nat) (f : Wave → Wave) (j : Nat) : (s.mapWave u f).code? j = s.code? j := rfl
@[simp] theorem mapTeam_quad_at (s : State) (u : Nat) (f : Team → Team) (j : Nat) : (s.mapTeam u f).quad j = s.quad j := rfl
@[simp] theorem mapTeam_core_at (s : State) (u : Nat) (f : Team → Team) (j : Nat) : (s.mapTeam u f).core j = s.core j := rfl
@[simp] theorem mapTeam_slice_at (s : State) (u : Nat) (f : Team → Team) (j : Nat) : (s.mapTeam u f).slice j = s.slice j := rfl
@[simp] theorem mapTeam_engine_at (s : State) (u : Nat) (f : Team → Team) (j : Nat) : (s.mapTeam u f).engine j = s.engine j := rfl
@[simp] theorem mapTeam_region_at (s : State) (u : Nat) (f : Team → Team) (x y : Nat) : (s.mapTeam u f).region x y = s.region x y := rfl
@[simp] theorem mapTeam_launch_at (s : State) (u : Nat) (f : Team → Team) (x y : Nat) : (s.mapTeam u f).launch? x y = s.launch? x y := rfl
@[simp] theorem mapTeam_wave_at (s : State) (u : Nat) (f : Team → Team) (j : Nat) : (s.mapTeam u f).wave? j = s.wave? j := rfl
@[simp] theorem mapTeam_code_at (s : State) (u : Nat) (f : Team → Team) (j : Nat) : (s.mapTeam u f).code? j = s.code? j := rfl
@[simp] theorem mapLaunch_quad_at (s : State) (q k : Nat) (f : Launch → Launch) (j : Nat) : (s.mapLaunch q k f).quad j = s.quad j := rfl
@[simp] theorem mapLaunch_core_at (s : State) (q k : Nat) (f : Launch → Launch) (j : Nat) : (s.mapLaunch q k f).core j = s.core j := rfl
@[simp] theorem mapLaunch_slice_at (s : State) (q k : Nat) (f : Launch → Launch) (j : Nat) : (s.mapLaunch q k f).slice j = s.slice j := rfl
@[simp] theorem mapLaunch_engine_at (s : State) (q k : Nat) (f : Launch → Launch) (j : Nat) : (s.mapLaunch q k f).engine j = s.engine j := rfl
@[simp] theorem mapLaunch_region_at (s : State) (q k : Nat) (f : Launch → Launch) (x y : Nat) : (s.mapLaunch q k f).region x y = s.region x y := rfl
@[simp] theorem mapLaunch_team_at (s : State) (q k : Nat) (f : Launch → Launch) (j : Nat) : (s.mapLaunch q k f).team? j = s.team? j := rfl
@[simp] theorem mapLaunch_wave_at (s : State) (q k : Nat) (f : Launch → Launch) (j : Nat) : (s.mapLaunch q k f).wave? j = s.wave? j := rfl
@[simp] theorem mapLaunch_code_at (s : State) (q k : Nat) (f : Launch → Launch) (j : Nat) : (s.mapLaunch q k f).code? j = s.code? j := rfl
@[simp] theorem mapQuad_core_at (s : State) (n : Nat) (f : Quad → Quad) (j : Nat) : (s.mapQuad n f).core j = s.core j := rfl
@[simp] theorem mapQuad_slice_at (s : State) (n : Nat) (f : Quad → Quad) (j : Nat) : (s.mapQuad n f).slice j = s.slice j := rfl
@[simp] theorem mapQuad_engine_at (s : State) (n : Nat) (f : Quad → Quad) (j : Nat) : (s.mapQuad n f).engine j = s.engine j := rfl
@[simp] theorem mapQuad_region_at (s : State) (n : Nat) (f : Quad → Quad) (x y : Nat) : (s.mapQuad n f).region x y = s.region x y := rfl
@[simp] theorem mapQuad_team_at (s : State) (n : Nat) (f : Quad → Quad) (j : Nat) : (s.mapQuad n f).team? j = s.team? j := rfl
@[simp] theorem mapQuad_launch_at (s : State) (n : Nat) (f : Quad → Quad) (x y : Nat) : (s.mapQuad n f).launch? x y = s.launch? x y := rfl
@[simp] theorem mapQuad_wave_at (s : State) (n : Nat) (f : Quad → Quad) (j : Nat) : (s.mapQuad n f).wave? j = s.wave? j := rfl
@[simp] theorem mapQuad_code_at (s : State) (n : Nat) (f : Quad → Quad) (j : Nat) : (s.mapQuad n f).code? j = s.code? j := rfl
@[simp] theorem mapCore_quad_at (s : State) (n : Nat) (f : Core → Core) (j : Nat) : (s.mapCore n f).quad j = s.quad j := rfl
@[simp] theorem mapCore_slice_at (s : State) (n : Nat) (f : Core → Core) (j : Nat) : (s.mapCore n f).slice j = s.slice j := rfl
@[simp] theorem mapCore_engine_at (s : State) (n : Nat) (f : Core → Core) (j : Nat) : (s.mapCore n f).engine j = s.engine j := rfl
@[simp] theorem mapCore_region_at (s : State) (n : Nat) (f : Core → Core) (x y : Nat) : (s.mapCore n f).region x y = s.region x y := rfl
@[simp] theorem mapCore_team_at (s : State) (n : Nat) (f : Core → Core) (j : Nat) : (s.mapCore n f).team? j = s.team? j := rfl
@[simp] theorem mapCore_launch_at (s : State) (n : Nat) (f : Core → Core) (x y : Nat) : (s.mapCore n f).launch? x y = s.launch? x y := rfl
@[simp] theorem mapCore_wave_at (s : State) (n : Nat) (f : Core → Core) (j : Nat) : (s.mapCore n f).wave? j = s.wave? j := rfl
@[simp] theorem mapCore_code_at (s : State) (n : Nat) (f : Core → Core) (j : Nat) : (s.mapCore n f).code? j = s.code? j := rfl
@[simp] theorem mapSlice_quad_at (s : State) (n : Nat) (f : Slice → Slice) (j : Nat) : (s.mapSlice n f).quad j = s.quad j := rfl
@[simp] theorem mapSlice_core_at (s : State) (n : Nat) (f : Slice → Slice) (j : Nat) : (s.mapSlice n f).core j = s.core j := rfl
@[simp] theorem mapSlice_engine_at (s : State) (n : Nat) (f : Slice → Slice) (j : Nat) : (s.mapSlice n f).engine j = s.engine j := rfl
@[simp] theorem mapSlice_region_at (s : State) (n : Nat) (f : Slice → Slice) (x y : Nat) : (s.mapSlice n f).region x y = s.region x y := rfl
@[simp] theorem mapSlice_team_at (s : State) (n : Nat) (f : Slice → Slice) (j : Nat) : (s.mapSlice n f).team? j = s.team? j := rfl
@[simp] theorem mapSlice_launch_at (s : State) (n : Nat) (f : Slice → Slice) (x y : Nat) : (s.mapSlice n f).launch? x y = s.launch? x y := rfl
@[simp] theorem mapSlice_wave_at (s : State) (n : Nat) (f : Slice → Slice) (j : Nat) : (s.mapSlice n f).wave? j = s.wave? j := rfl
@[simp] theorem mapSlice_code_at (s : State) (n : Nat) (f : Slice → Slice) (j : Nat) : (s.mapSlice n f).code? j = s.code? j := rfl
@[simp] theorem mapEngine_quad_at (s : State) (n : Nat) (f : Engine → Engine) (j : Nat) : (s.mapEngine n f).quad j = s.quad j := rfl
@[simp] theorem mapEngine_core_at (s : State) (n : Nat) (f : Engine → Engine) (j : Nat) : (s.mapEngine n f).core j = s.core j := rfl
@[simp] theorem mapEngine_slice_at (s : State) (n : Nat) (f : Engine → Engine) (j : Nat) : (s.mapEngine n f).slice j = s.slice j := rfl
@[simp] theorem mapEngine_region_at (s : State) (n : Nat) (f : Engine → Engine) (x y : Nat) : (s.mapEngine n f).region x y = s.region x y := rfl
@[simp] theorem mapEngine_team_at (s : State) (n : Nat) (f : Engine → Engine) (j : Nat) : (s.mapEngine n f).team? j = s.team? j := rfl
@[simp] theorem mapEngine_launch_at (s : State) (n : Nat) (f : Engine → Engine) (x y : Nat) : (s.mapEngine n f).launch? x y = s.launch? x y := rfl
@[simp] theorem mapEngine_wave_at (s : State) (n : Nat) (f : Engine → Engine) (j : Nat) : (s.mapEngine n f).wave? j = s.wave? j := rfl
@[simp] theorem mapEngine_code_at (s : State) (n : Nat) (f : Engine → Engine) (j : Nat) : (s.mapEngine n f).code? j = s.code? j := rfl
@[simp] theorem mapRegion_quad_at (s : State) (c i : Nat) (f : Region → Region) (j : Nat) : (s.mapRegion c i f).quad j = s.quad j := rfl
@[simp] theorem mapRegion_core_at (s : State) (c i : Nat) (f : Region → Region) (j : Nat) : (s.mapRegion c i f).core j = s.core j := rfl
@[simp] theorem mapRegion_slice_at (s : State) (c i : Nat) (f : Region → Region) (j : Nat) : (s.mapRegion c i f).slice j = s.slice j := rfl
@[simp] theorem mapRegion_engine_at (s : State) (c i : Nat) (f : Region → Region) (j : Nat) : (s.mapRegion c i f).engine j = s.engine j := rfl
@[simp] theorem mapRegion_team_at (s : State) (c i : Nat) (f : Region → Region) (j : Nat) : (s.mapRegion c i f).team? j = s.team? j := rfl
@[simp] theorem mapRegion_launch_at (s : State) (c i : Nat) (f : Region → Region) (x y : Nat) : (s.mapRegion c i f).launch? x y = s.launch? x y := rfl
@[simp] theorem mapRegion_wave_at (s : State) (c i : Nat) (f : Region → Region) (j : Nat) : (s.mapRegion c i f).wave? j = s.wave? j := rfl
@[simp] theorem mapRegion_code_at (s : State) (c i : Nat) (f : Region → Region) (j : Nat) : (s.mapRegion c i f).code? j = s.code? j := rfl

/-- The part that an update names takes the new value, every other part stays. -/
theorem mapQuad_quad (s : State) (n : Nat) (f : Quad → Quad) (k : Nat) :
    (s.mapQuad n f).quad k = if k = n then f (s.quad n) else s.quad k := fget_fput _ _ _ _ _
theorem mapCore_core (s : State) (n : Nat) (f : Core → Core) (k : Nat) :
    (s.mapCore n f).core k = if k = n then f (s.core n) else s.core k := fget_fput _ _ _ _ _
theorem mapSlice_slice (s : State) (n : Nat) (f : Slice → Slice) (k : Nat) :
    (s.mapSlice n f).slice k = if k = n then f (s.slice n) else s.slice k := fget_fput _ _ _ _ _
theorem mapRegion_region (s : State) (c i : Nat) (f : Region → Region) :
    (s.mapRegion c i f).region c i = f (s.region c i) := (fget_fput _ _ _ _ _).trans (if_pos rfl)
theorem mapEngine_engine (s : State) (n : Nat) (f : Engine → Engine) (k : Nat) :
    (s.mapEngine n f).engine k = if k = n then f (s.engine n) else s.engine k := fget_fput _ _ _ _ _

/-- The wave that an update names is found updated; another is found as before. -/
theorem mapWave_wave (s : State) (u : Nat) (f : Wave → Wave) (k : Nat) (hf : ∀ w, w.uid = u → (f w).uid = u) :
    (s.mapWave u f).wave? k = if k = u then (s.wave? k).map f else s.wave? k := by
  unfold wave? mapWave
  simp only
  induction s.waves with
  | nil => simp
  | cons a l ih =>
    by_cases ha : a.uid = u
    · have h2 := hf a ha
      by_cases hk : k = u
      · subst hk; simp [ha, h2]
      · have n1 : (u == k) = false := by simpa using fun h : u = k => hk h.symm
        simp only [List.map_cons, ha, if_true, List.find?_cons, h2, n1, if_neg hk] at ih ⊢
        exact ih
    · by_cases hk : a.uid = k
      · have n1 : ¬k = u := fun h => ha (hk.trans h)
        simp [hk, n1]
      · simp only [List.map_cons, ha, if_false, List.find?_cons]
        have n2 : (a.uid == k) = false := by simpa using hk
        simp only [n2]
        exact ih

/-- Two updates of one wave are one. -/
theorem mapWave_mapWave (s : State) (u : Nat) (f g : Wave → Wave) (hf : ∀ w, w.uid = u → (f w).uid = u) :
    (s.mapWave u f).mapWave u g = s.mapWave u (fun w => g (f w)) := by
  unfold mapWave
  simp only [List.map_map]
  congr 1
  apply List.map_congr_left
  intro w _
  by_cases h : w.uid = u
  · simp [h, hf w h]
  · simp [h]

/-- An update that changes nothing is none. -/
theorem mapWave_id (s : State) (u : Nat) : s.mapWave u (fun w => w) = s := by
  unfold mapWave; simp

end State

@[simp] theorem finish_next (s : State) (h : s.bad = none) : finish s = .next s := by
  unfold finish; rw [h]

/-- A meaning ends in a next state only where it reached no absent address, and the state is its own. -/
theorem finish_inv (s t : State) (h : finish s = .next t) : s.bad = none ∧ t = s := by
  unfold finish at h
  split at h
  · cases h
  · rename_i hb; cases h; exact ⟨hb, rfl⟩

/-! ## Updates of a wave -/
namespace Wave

@[simp] theorem mapThread_uid (v : Wave) (i : Nat) (f : Thread → Thread) : (v.mapThread i f).uid = v.uid := rfl
@[simp] theorem mapThread_team (v : Wave) (i : Nat) (f : Thread → Thread) : (v.mapThread i f).team = v.team := rfl
@[simp] theorem mapThread_num (v : Wave) (i : Nat) (f : Thread → Thread) : (v.mapThread i f).num = v.num := rfl
@[simp] theorem mapThread_core (v : Wave) (i : Nat) (f : Thread → Thread) : (v.mapThread i f).core = v.core := rfl
@[simp] theorem mapThread_quad (v : Wave) (i : Nat) (f : Thread → Thread) : (v.mapThread i f).quad = v.quad := rfl
@[simp] theorem mapThread_lane (v : Wave) (i : Nat) (f : Thread → Thread) : (v.mapThread i f).lane = v.lane := rfl
@[simp] theorem mapThread_width (v : Wave) (i : Nat) (f : Thread → Thread) : (v.mapThread i f).width = v.width := rfl
@[simp] theorem mapThread_base (v : Wave) (i : Nat) (f : Thread → Thread) : (v.mapThread i f).base = v.base := rfl
@[simp] theorem mapThread_ext (v : Wave) (i : Nat) (f : Thread → Thread) : (v.mapThread i f).ext = v.ext := rfl
@[simp] theorem mapThread_code (v : Wave) (i : Nat) (f : Thread → Thread) : (v.mapThread i f).code = v.code := rfl
@[simp] theorem mapThread_tags (v : Wave) (i : Nat) (f : Thread → Thread) : (v.mapThread i f).tags = v.tags := rfl
@[simp] theorem mapThread_w (v : Wave) (i : Nat) (f : Thread → Thread) : (v.mapThread i f).w = v.w := rfl
@[simp] theorem mapThread_q (v : Wave) (i : Nat) (f : Thread → Thread) : (v.mapThread i f).q = v.q := rfl
@[simp] theorem mapThread_joins (v : Wave) (i : Nat) (f : Thread → Thread) : (v.mapThread i f).joins = v.joins := rfl
@[simp] theorem mapThread_winFirst (v : Wave) (i : Nat) (f : Thread → Thread) : (v.mapThread i f).winFirst = v.winFirst := rfl
@[simp] theorem mapThread_winLen (v : Wave) (i : Nat) (f : Thread → Thread) : (v.mapThread i f).winLen = v.winLen := rfl
@[simp] theorem mapThread_winhit (v : Wave) (i : Nat) (f : Thread → Thread) : (v.mapThread i f).winhit = v.winhit := rfl
@[simp] theorem mapThread_cnt (v : Wave) (i : Nat) (f : Thread → Thread) : (v.mapThread i f).cnt = v.cnt := rfl
@[simp] theorem mapThread_fpctl (v : Wave) (i : Nat) (f : Thread → Thread) : (v.mapThread i f).fpctl = v.fpctl := rfl
@[simp] theorem mapThread_fpstat (v : Wave) (i : Nat) (f : Thread → Thread) : (v.mapThread i f).fpstat = v.fpstat := rfl
@[simp] theorem mapThread_cause (v : Wave) (i : Nat) (f : Thread → Thread) : (v.mapThread i f).cause = v.cause := rfl
@[simp] theorem mapThread_epc (v : Wave) (i : Nat) (f : Thread → Thread) : (v.mapThread i f).epc = v.epc := rfl
@[simp] theorem mapThread_entry (v : Wave) (i : Nat) (f : Thread → Thread) : (v.mapThread i f).entry = v.entry := rfl
@[simp] theorem mapThread_repeatB (v : Wave) (i : Nat) (f : Thread → Thread) : (v.mapThread i f).repeatB = v.repeatB := rfl
@[simp] theorem mapThread_restore (v : Wave) (i : Nat) (f : Thread → Thread) : (v.mapThread i f).restore = v.restore := rfl
@[simp] theorem mapThread_handling (v : Wave) (i : Nat) (f : Thread → Thread) : (v.mapThread i f).handling = v.handling := rfl
@[simp] theorem mapThread_subw (v : Wave) (i : Nat) (f : Thread → Thread) : (v.mapThread i f).subw = v.subw := rfl
@[simp] theorem mapThread_retm (v : Wave) (i : Nat) (f : Thread → Thread) : (v.mapThread i f).retm = v.retm := rfl
@[simp] theorem mapThread_save (v : Wave) (i : Nat) (f : Thread → Thread) : (v.mapThread i f).save = v.save := rfl
@[simp] theorem mapThread_parkq (v : Wave) (i : Nat) (f : Thread → Thread) : (v.mapThread i f).parkq = v.parkq := rfl
@[simp] theorem mapThread_defer (v : Wave) (i : Nat) (f : Thread → Thread) : (v.mapThread i f).defer = v.defer := rfl
@[simp] theorem mapThread_handler (v : Wave) (i : Nat) (f : Thread → Thread) : (v.mapThread i f).handler = v.handler := rfl
@[simp] theorem mapThread_prog (v : Wave) (i : Nat) (f : Thread → Thread) : (v.mapThread i f).prog = v.prog := rfl
@[simp] theorem mapThread_abort (v : Wave) (i : Nat) (f : Thread → Thread) : (v.mapThread i f).abort = v.abort := rfl
@[simp] theorem mapThread_hwm (v : Wave) (i : Nat) (f : Thread → Thread) : (v.mapThread i f).hwm = v.hwm := rfl
@[simp] theorem mapThread_watch (v : Wave) (i : Nat) (f : Thread → Thread) : (v.mapThread i f).watch = v.watch := rfl
@[simp] theorem mapThread_mxs (v : Wave) (i : Nat) (f : Thread → Thread) : (v.mapThread i f).mxs = v.mxs := rfl
@[simp] theorem mapThread_quantum (v : Wave) (i : Nat) (f : Thread → Thread) : (v.mapThread i f).quantum = v.quantum := rfl
@[simp] theorem mapThread_sq (v : Wave) (i : Nat) (f : Thread → Thread) : (v.mapThread i f).sq = v.sq := rfl
@[simp] theorem mapThread_flights (v : Wave) (i : Nat) (f : Thread → Thread) : (v.mapThread i f).flights = v.flights := rfl
@[simp] theorem mapThread_kettle (v : Wave) (i : Nat) (f : Thread → Thread) : (v.mapThread i f).kettle = v.kettle := rfl
@[simp] theorem mapThread_kill (v : Wave) (i : Nat) (f : Thread → Thread) : (v.mapThread i f).kill = v.kill := rfl
@[simp] theorem mapThread_killEsc (v : Wave) (i : Nat) (f : Thread → Thread) : (v.mapThread i f).killEsc = v.killEsc := rfl
@[simp] theorem mapThread_preempt (v : Wave) (i : Nat) (f : Thread → Thread) : (v.mapThread i f).preempt = v.preempt := rfl
@[simp] theorem mapThread_engine (v : Wave) (i : Nat) (f : Thread → Thread) : (v.mapThread i f).engine = v.engine := rfl
@[simp] theorem mapThread_acqAt (v : Wave) (i : Nat) (f : Thread → Thread) : (v.mapThread i f).acqAt = v.acqAt := rfl
@[simp] theorem mapThread_priv (v : Wave) (i : Nat) (f : Thread → Thread) : (v.mapThread i f).priv = v.priv := rfl
@[simp] theorem mapThread_retired (v : Wave) (i : Nat) (f : Thread → Thread) : (v.mapThread i f).retired = v.retired := rfl
@[simp] theorem mapThread_freed (v : Wave) (i : Nat) (f : Thread → Thread) : (v.mapThread i f).freed = v.freed := rfl
@[simp] theorem mapThread_wsoft (v : Wave) (i : Nat) (f : Thread → Thread) : (v.mapThread i f).wsoft = v.wsoft := rfl
@[simp] theorem mapThread_stuck (v : Wave) (i : Nat) (f : Thread → Thread) : (v.mapThread i f).stuck = v.stuck := rfl
@[simp] theorem mapLanes_uid (v : Wave) (m : Mask) (f : Nat → Thread → Thread) : (v.mapLanes m f).uid = v.uid := rfl
@[simp] theorem mapLanes_team (v : Wave) (m : Mask) (f : Nat → Thread → Thread) : (v.mapLanes m f).team = v.team := rfl
@[simp] theorem mapLanes_num (v : Wave) (m : Mask) (f : Nat → Thread → Thread) : (v.mapLanes m f).num = v.num := rfl
@[simp] theorem mapLanes_core (v : Wave) (m : Mask) (f : Nat → Thread → Thread) : (v.mapLanes m f).core = v.core := rfl
@[simp] theorem mapLanes_quad (v : Wave) (m : Mask) (f : Nat → Thread → Thread) : (v.mapLanes m f).quad = v.quad := rfl
@[simp] theorem mapLanes_lane (v : Wave) (m : Mask) (f : Nat → Thread → Thread) : (v.mapLanes m f).lane = v.lane := rfl
@[simp] theorem mapLanes_width (v : Wave) (m : Mask) (f : Nat → Thread → Thread) : (v.mapLanes m f).width = v.width := rfl
@[simp] theorem mapLanes_base (v : Wave) (m : Mask) (f : Nat → Thread → Thread) : (v.mapLanes m f).base = v.base := rfl
@[simp] theorem mapLanes_ext (v : Wave) (m : Mask) (f : Nat → Thread → Thread) : (v.mapLanes m f).ext = v.ext := rfl
@[simp] theorem mapLanes_code (v : Wave) (m : Mask) (f : Nat → Thread → Thread) : (v.mapLanes m f).code = v.code := rfl
@[simp] theorem mapLanes_tags (v : Wave) (m : Mask) (f : Nat → Thread → Thread) : (v.mapLanes m f).tags = v.tags := rfl
@[simp] theorem mapLanes_w (v : Wave) (m : Mask) (f : Nat → Thread → Thread) : (v.mapLanes m f).w = v.w := rfl
@[simp] theorem mapLanes_q (v : Wave) (m : Mask) (f : Nat → Thread → Thread) : (v.mapLanes m f).q = v.q := rfl
@[simp] theorem mapLanes_joins (v : Wave) (m : Mask) (f : Nat → Thread → Thread) : (v.mapLanes m f).joins = v.joins := rfl
@[simp] theorem mapLanes_winFirst (v : Wave) (m : Mask) (f : Nat → Thread → Thread) : (v.mapLanes m f).winFirst = v.winFirst := rfl
@[simp] theorem mapLanes_winLen (v : Wave) (m : Mask) (f : Nat → Thread → Thread) : (v.mapLanes m f).winLen = v.winLen := rfl
@[simp] theorem mapLanes_winhit (v : Wave) (m : Mask) (f : Nat → Thread → Thread) : (v.mapLanes m f).winhit = v.winhit := rfl
@[simp] theorem mapLanes_cnt (v : Wave) (m : Mask) (f : Nat → Thread → Thread) : (v.mapLanes m f).cnt = v.cnt := rfl
@[simp] theorem mapLanes_fpctl (v : Wave) (m : Mask) (f : Nat → Thread → Thread) : (v.mapLanes m f).fpctl = v.fpctl := rfl
@[simp] theorem mapLanes_fpstat (v : Wave) (m : Mask) (f : Nat → Thread → Thread) : (v.mapLanes m f).fpstat = v.fpstat := rfl
@[simp] theorem mapLanes_cause (v : Wave) (m : Mask) (f : Nat → Thread → Thread) : (v.mapLanes m f).cause = v.cause := rfl
@[simp] theorem mapLanes_epc (v : Wave) (m : Mask) (f : Nat → Thread → Thread) : (v.mapLanes m f).epc = v.epc := rfl
@[simp] theorem mapLanes_entry (v : Wave) (m : Mask) (f : Nat → Thread → Thread) : (v.mapLanes m f).entry = v.entry := rfl
@[simp] theorem mapLanes_repeatB (v : Wave) (m : Mask) (f : Nat → Thread → Thread) : (v.mapLanes m f).repeatB = v.repeatB := rfl
@[simp] theorem mapLanes_restore (v : Wave) (m : Mask) (f : Nat → Thread → Thread) : (v.mapLanes m f).restore = v.restore := rfl
@[simp] theorem mapLanes_handling (v : Wave) (m : Mask) (f : Nat → Thread → Thread) : (v.mapLanes m f).handling = v.handling := rfl
@[simp] theorem mapLanes_subw (v : Wave) (m : Mask) (f : Nat → Thread → Thread) : (v.mapLanes m f).subw = v.subw := rfl
@[simp] theorem mapLanes_retm (v : Wave) (m : Mask) (f : Nat → Thread → Thread) : (v.mapLanes m f).retm = v.retm := rfl
@[simp] theorem mapLanes_save (v : Wave) (m : Mask) (f : Nat → Thread → Thread) : (v.mapLanes m f).save = v.save := rfl
@[simp] theorem mapLanes_parkq (v : Wave) (m : Mask) (f : Nat → Thread → Thread) : (v.mapLanes m f).parkq = v.parkq := rfl
@[simp] theorem mapLanes_defer (v : Wave) (m : Mask) (f : Nat → Thread → Thread) : (v.mapLanes m f).defer = v.defer := rfl
@[simp] theorem mapLanes_handler (v : Wave) (m : Mask) (f : Nat → Thread → Thread) : (v.mapLanes m f).handler = v.handler := rfl
@[simp] theorem mapLanes_prog (v : Wave) (m : Mask) (f : Nat → Thread → Thread) : (v.mapLanes m f).prog = v.prog := rfl
@[simp] theorem mapLanes_abort (v : Wave) (m : Mask) (f : Nat → Thread → Thread) : (v.mapLanes m f).abort = v.abort := rfl
@[simp] theorem mapLanes_hwm (v : Wave) (m : Mask) (f : Nat → Thread → Thread) : (v.mapLanes m f).hwm = v.hwm := rfl
@[simp] theorem mapLanes_watch (v : Wave) (m : Mask) (f : Nat → Thread → Thread) : (v.mapLanes m f).watch = v.watch := rfl
@[simp] theorem mapLanes_mxs (v : Wave) (m : Mask) (f : Nat → Thread → Thread) : (v.mapLanes m f).mxs = v.mxs := rfl
@[simp] theorem mapLanes_quantum (v : Wave) (m : Mask) (f : Nat → Thread → Thread) : (v.mapLanes m f).quantum = v.quantum := rfl
@[simp] theorem mapLanes_sq (v : Wave) (m : Mask) (f : Nat → Thread → Thread) : (v.mapLanes m f).sq = v.sq := rfl
@[simp] theorem mapLanes_flights (v : Wave) (m : Mask) (f : Nat → Thread → Thread) : (v.mapLanes m f).flights = v.flights := rfl
@[simp] theorem mapLanes_kettle (v : Wave) (m : Mask) (f : Nat → Thread → Thread) : (v.mapLanes m f).kettle = v.kettle := rfl
@[simp] theorem mapLanes_kill (v : Wave) (m : Mask) (f : Nat → Thread → Thread) : (v.mapLanes m f).kill = v.kill := rfl
@[simp] theorem mapLanes_killEsc (v : Wave) (m : Mask) (f : Nat → Thread → Thread) : (v.mapLanes m f).killEsc = v.killEsc := rfl
@[simp] theorem mapLanes_preempt (v : Wave) (m : Mask) (f : Nat → Thread → Thread) : (v.mapLanes m f).preempt = v.preempt := rfl
@[simp] theorem mapLanes_engine (v : Wave) (m : Mask) (f : Nat → Thread → Thread) : (v.mapLanes m f).engine = v.engine := rfl
@[simp] theorem mapLanes_acqAt (v : Wave) (m : Mask) (f : Nat → Thread → Thread) : (v.mapLanes m f).acqAt = v.acqAt := rfl
@[simp] theorem mapLanes_priv (v : Wave) (m : Mask) (f : Nat → Thread → Thread) : (v.mapLanes m f).priv = v.priv := rfl
@[simp] theorem mapLanes_retired (v : Wave) (m : Mask) (f : Nat → Thread → Thread) : (v.mapLanes m f).retired = v.retired := rfl
@[simp] theorem mapLanes_freed (v : Wave) (m : Mask) (f : Nat → Thread → Thread) : (v.mapLanes m f).freed = v.freed := rfl
@[simp] theorem mapLanes_wsoft (v : Wave) (m : Mask) (f : Nat → Thread → Thread) : (v.mapLanes m f).wsoft = v.wsoft := rfl
@[simp] theorem mapLanes_stuck (v : Wave) (m : Mask) (f : Nat → Thread → Thread) : (v.mapLanes m f).stuck = v.stuck := rfl
@[simp] theorem setW_uid (v : Wave) (n : Nat) (x : Word) : (v.setW n x).uid = v.uid := rfl
@[simp] theorem setW_team (v : Wave) (n : Nat) (x : Word) : (v.setW n x).team = v.team := rfl
@[simp] theorem setW_num (v : Wave) (n : Nat) (x : Word) : (v.setW n x).num = v.num := rfl
@[simp] theorem setW_core (v : Wave) (n : Nat) (x : Word) : (v.setW n x).core = v.core := rfl
@[simp] theorem setW_quad (v : Wave) (n : Nat) (x : Word) : (v.setW n x).quad = v.quad := rfl
@[simp] theorem setW_lane (v : Wave) (n : Nat) (x : Word) : (v.setW n x).lane = v.lane := rfl
@[simp] theorem setW_width (v : Wave) (n : Nat) (x : Word) : (v.setW n x).width = v.width := rfl
@[simp] theorem setW_base (v : Wave) (n : Nat) (x : Word) : (v.setW n x).base = v.base := rfl
@[simp] theorem setW_ext (v : Wave) (n : Nat) (x : Word) : (v.setW n x).ext = v.ext := rfl
@[simp] theorem setW_code (v : Wave) (n : Nat) (x : Word) : (v.setW n x).code = v.code := rfl
@[simp] theorem setW_threads (v : Wave) (n : Nat) (x : Word) : (v.setW n x).threads = v.threads := rfl
@[simp] theorem setW_tags (v : Wave) (n : Nat) (x : Word) : (v.setW n x).tags = v.tags := rfl
@[simp] theorem setW_q (v : Wave) (n : Nat) (x : Word) : (v.setW n x).q = v.q := rfl
@[simp] theorem setW_joins (v : Wave) (n : Nat) (x : Word) : (v.setW n x).joins = v.joins := rfl
@[simp] theorem setW_winFirst (v : Wave) (n : Nat) (x : Word) : (v.setW n x).winFirst = v.winFirst := rfl
@[simp] theorem setW_winLen (v : Wave) (n : Nat) (x : Word) : (v.setW n x).winLen = v.winLen := rfl
@[simp] theorem setW_winhit (v : Wave) (n : Nat) (x : Word) : (v.setW n x).winhit = v.winhit := rfl
@[simp] theorem setW_cnt (v : Wave) (n : Nat) (x : Word) : (v.setW n x).cnt = v.cnt := rfl
@[simp] theorem setW_fpctl (v : Wave) (n : Nat) (x : Word) : (v.setW n x).fpctl = v.fpctl := rfl
@[simp] theorem setW_fpstat (v : Wave) (n : Nat) (x : Word) : (v.setW n x).fpstat = v.fpstat := rfl
@[simp] theorem setW_cause (v : Wave) (n : Nat) (x : Word) : (v.setW n x).cause = v.cause := rfl
@[simp] theorem setW_epc (v : Wave) (n : Nat) (x : Word) : (v.setW n x).epc = v.epc := rfl
@[simp] theorem setW_entry (v : Wave) (n : Nat) (x : Word) : (v.setW n x).entry = v.entry := rfl
@[simp] theorem setW_repeatB (v : Wave) (n : Nat) (x : Word) : (v.setW n x).repeatB = v.repeatB := rfl
@[simp] theorem setW_restore (v : Wave) (n : Nat) (x : Word) : (v.setW n x).restore = v.restore := rfl
@[simp] theorem setW_handling (v : Wave) (n : Nat) (x : Word) : (v.setW n x).handling = v.handling := rfl
@[simp] theorem setW_subw (v : Wave) (n : Nat) (x : Word) : (v.setW n x).subw = v.subw := rfl
@[simp] theorem setW_retm (v : Wave) (n : Nat) (x : Word) : (v.setW n x).retm = v.retm := rfl
@[simp] theorem setW_save (v : Wave) (n : Nat) (x : Word) : (v.setW n x).save = v.save := rfl
@[simp] theorem setW_parkq (v : Wave) (n : Nat) (x : Word) : (v.setW n x).parkq = v.parkq := rfl
@[simp] theorem setW_defer (v : Wave) (n : Nat) (x : Word) : (v.setW n x).defer = v.defer := rfl
@[simp] theorem setW_handler (v : Wave) (n : Nat) (x : Word) : (v.setW n x).handler = v.handler := rfl
@[simp] theorem setW_prog (v : Wave) (n : Nat) (x : Word) : (v.setW n x).prog = v.prog := rfl
@[simp] theorem setW_abort (v : Wave) (n : Nat) (x : Word) : (v.setW n x).abort = v.abort := rfl
@[simp] theorem setW_hwm (v : Wave) (n : Nat) (x : Word) : (v.setW n x).hwm = v.hwm := rfl
@[simp] theorem setW_watch (v : Wave) (n : Nat) (x : Word) : (v.setW n x).watch = v.watch := rfl
@[simp] theorem setW_mxs (v : Wave) (n : Nat) (x : Word) : (v.setW n x).mxs = v.mxs := rfl
@[simp] theorem setW_quantum (v : Wave) (n : Nat) (x : Word) : (v.setW n x).quantum = v.quantum := rfl
@[simp] theorem setW_sq (v : Wave) (n : Nat) (x : Word) : (v.setW n x).sq = v.sq := rfl
@[simp] theorem setW_flights (v : Wave) (n : Nat) (x : Word) : (v.setW n x).flights = v.flights := rfl
@[simp] theorem setW_kettle (v : Wave) (n : Nat) (x : Word) : (v.setW n x).kettle = v.kettle := rfl
@[simp] theorem setW_kill (v : Wave) (n : Nat) (x : Word) : (v.setW n x).kill = v.kill := rfl
@[simp] theorem setW_killEsc (v : Wave) (n : Nat) (x : Word) : (v.setW n x).killEsc = v.killEsc := rfl
@[simp] theorem setW_preempt (v : Wave) (n : Nat) (x : Word) : (v.setW n x).preempt = v.preempt := rfl
@[simp] theorem setW_engine (v : Wave) (n : Nat) (x : Word) : (v.setW n x).engine = v.engine := rfl
@[simp] theorem setW_acqAt (v : Wave) (n : Nat) (x : Word) : (v.setW n x).acqAt = v.acqAt := rfl
@[simp] theorem setW_priv (v : Wave) (n : Nat) (x : Word) : (v.setW n x).priv = v.priv := rfl
@[simp] theorem setW_retired (v : Wave) (n : Nat) (x : Word) : (v.setW n x).retired = v.retired := rfl
@[simp] theorem setW_freed (v : Wave) (n : Nat) (x : Word) : (v.setW n x).freed = v.freed := rfl
@[simp] theorem setW_wsoft (v : Wave) (n : Nat) (x : Word) :
    (v.setW n x).wsoft = v.wsoft.filter (· != n) := rfl
@[simp] theorem setW_stuck (v : Wave) (n : Nat) (x : Word) : (v.setW n x).stuck = v.stuck := rfl
@[simp] theorem setQ_uid (v : Wave) (n : Nat) (x : Word) : (v.setQ n x).uid = v.uid := rfl
@[simp] theorem setQ_team (v : Wave) (n : Nat) (x : Word) : (v.setQ n x).team = v.team := rfl
@[simp] theorem setQ_num (v : Wave) (n : Nat) (x : Word) : (v.setQ n x).num = v.num := rfl
@[simp] theorem setQ_core (v : Wave) (n : Nat) (x : Word) : (v.setQ n x).core = v.core := rfl
@[simp] theorem setQ_quad (v : Wave) (n : Nat) (x : Word) : (v.setQ n x).quad = v.quad := rfl
@[simp] theorem setQ_lane (v : Wave) (n : Nat) (x : Word) : (v.setQ n x).lane = v.lane := rfl
@[simp] theorem setQ_width (v : Wave) (n : Nat) (x : Word) : (v.setQ n x).width = v.width := rfl
@[simp] theorem setQ_base (v : Wave) (n : Nat) (x : Word) : (v.setQ n x).base = v.base := rfl
@[simp] theorem setQ_ext (v : Wave) (n : Nat) (x : Word) : (v.setQ n x).ext = v.ext := rfl
@[simp] theorem setQ_code (v : Wave) (n : Nat) (x : Word) : (v.setQ n x).code = v.code := rfl
@[simp] theorem setQ_threads (v : Wave) (n : Nat) (x : Word) : (v.setQ n x).threads = v.threads := rfl
@[simp] theorem setQ_tags (v : Wave) (n : Nat) (x : Word) : (v.setQ n x).tags = v.tags := rfl
@[simp] theorem setQ_w (v : Wave) (n : Nat) (x : Word) : (v.setQ n x).w = v.w := rfl
@[simp] theorem setQ_joins (v : Wave) (n : Nat) (x : Word) : (v.setQ n x).joins = v.joins := rfl
@[simp] theorem setQ_winFirst (v : Wave) (n : Nat) (x : Word) : (v.setQ n x).winFirst = v.winFirst := rfl
@[simp] theorem setQ_winLen (v : Wave) (n : Nat) (x : Word) : (v.setQ n x).winLen = v.winLen := rfl
@[simp] theorem setQ_winhit (v : Wave) (n : Nat) (x : Word) : (v.setQ n x).winhit = v.winhit := rfl
@[simp] theorem setQ_cnt (v : Wave) (n : Nat) (x : Word) : (v.setQ n x).cnt = v.cnt := rfl
@[simp] theorem setQ_fpctl (v : Wave) (n : Nat) (x : Word) : (v.setQ n x).fpctl = v.fpctl := rfl
@[simp] theorem setQ_fpstat (v : Wave) (n : Nat) (x : Word) : (v.setQ n x).fpstat = v.fpstat := rfl
@[simp] theorem setQ_cause (v : Wave) (n : Nat) (x : Word) : (v.setQ n x).cause = v.cause := rfl
@[simp] theorem setQ_epc (v : Wave) (n : Nat) (x : Word) : (v.setQ n x).epc = v.epc := rfl
@[simp] theorem setQ_entry (v : Wave) (n : Nat) (x : Word) : (v.setQ n x).entry = v.entry := rfl
@[simp] theorem setQ_repeatB (v : Wave) (n : Nat) (x : Word) : (v.setQ n x).repeatB = v.repeatB := rfl
@[simp] theorem setQ_restore (v : Wave) (n : Nat) (x : Word) : (v.setQ n x).restore = v.restore := rfl
@[simp] theorem setQ_handling (v : Wave) (n : Nat) (x : Word) : (v.setQ n x).handling = v.handling := rfl
@[simp] theorem setQ_subw (v : Wave) (n : Nat) (x : Word) : (v.setQ n x).subw = v.subw := rfl
@[simp] theorem setQ_retm (v : Wave) (n : Nat) (x : Word) : (v.setQ n x).retm = v.retm := rfl
@[simp] theorem setQ_save (v : Wave) (n : Nat) (x : Word) : (v.setQ n x).save = v.save := rfl
@[simp] theorem setQ_parkq (v : Wave) (n : Nat) (x : Word) : (v.setQ n x).parkq = v.parkq := rfl
@[simp] theorem setQ_defer (v : Wave) (n : Nat) (x : Word) : (v.setQ n x).defer = v.defer := rfl
@[simp] theorem setQ_handler (v : Wave) (n : Nat) (x : Word) : (v.setQ n x).handler = v.handler := rfl
@[simp] theorem setQ_prog (v : Wave) (n : Nat) (x : Word) : (v.setQ n x).prog = v.prog := rfl
@[simp] theorem setQ_abort (v : Wave) (n : Nat) (x : Word) : (v.setQ n x).abort = v.abort := rfl
@[simp] theorem setQ_hwm (v : Wave) (n : Nat) (x : Word) : (v.setQ n x).hwm = v.hwm := rfl
@[simp] theorem setQ_watch (v : Wave) (n : Nat) (x : Word) : (v.setQ n x).watch = v.watch := rfl
@[simp] theorem setQ_mxs (v : Wave) (n : Nat) (x : Word) : (v.setQ n x).mxs = v.mxs := rfl
@[simp] theorem setQ_quantum (v : Wave) (n : Nat) (x : Word) : (v.setQ n x).quantum = v.quantum := rfl
@[simp] theorem setQ_sq (v : Wave) (n : Nat) (x : Word) : (v.setQ n x).sq = v.sq := rfl
@[simp] theorem setQ_flights (v : Wave) (n : Nat) (x : Word) : (v.setQ n x).flights = v.flights := rfl
@[simp] theorem setQ_kettle (v : Wave) (n : Nat) (x : Word) : (v.setQ n x).kettle = v.kettle := rfl
@[simp] theorem setQ_kill (v : Wave) (n : Nat) (x : Word) : (v.setQ n x).kill = v.kill := rfl
@[simp] theorem setQ_killEsc (v : Wave) (n : Nat) (x : Word) : (v.setQ n x).killEsc = v.killEsc := rfl
@[simp] theorem setQ_preempt (v : Wave) (n : Nat) (x : Word) : (v.setQ n x).preempt = v.preempt := rfl
@[simp] theorem setQ_engine (v : Wave) (n : Nat) (x : Word) : (v.setQ n x).engine = v.engine := rfl
@[simp] theorem setQ_acqAt (v : Wave) (n : Nat) (x : Word) : (v.setQ n x).acqAt = v.acqAt := rfl
@[simp] theorem setQ_priv (v : Wave) (n : Nat) (x : Word) : (v.setQ n x).priv = v.priv := rfl
@[simp] theorem setQ_retired (v : Wave) (n : Nat) (x : Word) : (v.setQ n x).retired = v.retired := rfl
@[simp] theorem setQ_freed (v : Wave) (n : Nat) (x : Word) : (v.setQ n x).freed = v.freed := rfl
@[simp] theorem setQ_wsoft (v : Wave) (n : Nat) (x : Word) :
    (v.setQ n x).wsoft = v.wsoft.filter (· != qSoft n) := rfl
@[simp] theorem setQ_stuck (v : Wave) (n : Nat) (x : Word) : (v.setQ n x).stuck = v.stuck := rfl
@[simp] theorem setJoin_uid (v : Wave) (j : Nat) (x : Join) : (v.setJoin j x).uid = v.uid := rfl
@[simp] theorem setJoin_team (v : Wave) (j : Nat) (x : Join) : (v.setJoin j x).team = v.team := rfl
@[simp] theorem setJoin_num (v : Wave) (j : Nat) (x : Join) : (v.setJoin j x).num = v.num := rfl
@[simp] theorem setJoin_core (v : Wave) (j : Nat) (x : Join) : (v.setJoin j x).core = v.core := rfl
@[simp] theorem setJoin_quad (v : Wave) (j : Nat) (x : Join) : (v.setJoin j x).quad = v.quad := rfl
@[simp] theorem setJoin_lane (v : Wave) (j : Nat) (x : Join) : (v.setJoin j x).lane = v.lane := rfl
@[simp] theorem setJoin_width (v : Wave) (j : Nat) (x : Join) : (v.setJoin j x).width = v.width := rfl
@[simp] theorem setJoin_base (v : Wave) (j : Nat) (x : Join) : (v.setJoin j x).base = v.base := rfl
@[simp] theorem setJoin_ext (v : Wave) (j : Nat) (x : Join) : (v.setJoin j x).ext = v.ext := rfl
@[simp] theorem setJoin_code (v : Wave) (j : Nat) (x : Join) : (v.setJoin j x).code = v.code := rfl
@[simp] theorem setJoin_threads (v : Wave) (j : Nat) (x : Join) : (v.setJoin j x).threads = v.threads := rfl
@[simp] theorem setJoin_tags (v : Wave) (j : Nat) (x : Join) : (v.setJoin j x).tags = v.tags := rfl
@[simp] theorem setJoin_w (v : Wave) (j : Nat) (x : Join) : (v.setJoin j x).w = v.w := rfl
@[simp] theorem setJoin_q (v : Wave) (j : Nat) (x : Join) : (v.setJoin j x).q = v.q := rfl
@[simp] theorem setJoin_winFirst (v : Wave) (j : Nat) (x : Join) : (v.setJoin j x).winFirst = v.winFirst := rfl
@[simp] theorem setJoin_winLen (v : Wave) (j : Nat) (x : Join) : (v.setJoin j x).winLen = v.winLen := rfl
@[simp] theorem setJoin_winhit (v : Wave) (j : Nat) (x : Join) : (v.setJoin j x).winhit = v.winhit := rfl
@[simp] theorem setJoin_cnt (v : Wave) (j : Nat) (x : Join) : (v.setJoin j x).cnt = v.cnt := rfl
@[simp] theorem setJoin_fpctl (v : Wave) (j : Nat) (x : Join) : (v.setJoin j x).fpctl = v.fpctl := rfl
@[simp] theorem setJoin_fpstat (v : Wave) (j : Nat) (x : Join) : (v.setJoin j x).fpstat = v.fpstat := rfl
@[simp] theorem setJoin_cause (v : Wave) (j : Nat) (x : Join) : (v.setJoin j x).cause = v.cause := rfl
@[simp] theorem setJoin_epc (v : Wave) (j : Nat) (x : Join) : (v.setJoin j x).epc = v.epc := rfl
@[simp] theorem setJoin_entry (v : Wave) (j : Nat) (x : Join) : (v.setJoin j x).entry = v.entry := rfl
@[simp] theorem setJoin_repeatB (v : Wave) (j : Nat) (x : Join) : (v.setJoin j x).repeatB = v.repeatB := rfl
@[simp] theorem setJoin_restore (v : Wave) (j : Nat) (x : Join) : (v.setJoin j x).restore = v.restore := rfl
@[simp] theorem setJoin_handling (v : Wave) (j : Nat) (x : Join) : (v.setJoin j x).handling = v.handling := rfl
@[simp] theorem setJoin_subw (v : Wave) (j : Nat) (x : Join) : (v.setJoin j x).subw = v.subw := rfl
@[simp] theorem setJoin_retm (v : Wave) (j : Nat) (x : Join) : (v.setJoin j x).retm = v.retm := rfl
@[simp] theorem setJoin_save (v : Wave) (j : Nat) (x : Join) : (v.setJoin j x).save = v.save := rfl
@[simp] theorem setJoin_parkq (v : Wave) (j : Nat) (x : Join) : (v.setJoin j x).parkq = v.parkq := rfl
@[simp] theorem setJoin_defer (v : Wave) (j : Nat) (x : Join) : (v.setJoin j x).defer = v.defer := rfl
@[simp] theorem setJoin_handler (v : Wave) (j : Nat) (x : Join) : (v.setJoin j x).handler = v.handler := rfl
@[simp] theorem setJoin_prog (v : Wave) (j : Nat) (x : Join) : (v.setJoin j x).prog = v.prog := rfl
@[simp] theorem setJoin_abort (v : Wave) (j : Nat) (x : Join) : (v.setJoin j x).abort = v.abort := rfl
@[simp] theorem setJoin_hwm (v : Wave) (j : Nat) (x : Join) : (v.setJoin j x).hwm = v.hwm := rfl
@[simp] theorem setJoin_watch (v : Wave) (j : Nat) (x : Join) : (v.setJoin j x).watch = v.watch := rfl
@[simp] theorem setJoin_mxs (v : Wave) (j : Nat) (x : Join) : (v.setJoin j x).mxs = v.mxs := rfl
@[simp] theorem setJoin_quantum (v : Wave) (j : Nat) (x : Join) : (v.setJoin j x).quantum = v.quantum := rfl
@[simp] theorem setJoin_sq (v : Wave) (j : Nat) (x : Join) : (v.setJoin j x).sq = v.sq := rfl
@[simp] theorem setJoin_flights (v : Wave) (j : Nat) (x : Join) : (v.setJoin j x).flights = v.flights := rfl
@[simp] theorem setJoin_kettle (v : Wave) (j : Nat) (x : Join) : (v.setJoin j x).kettle = v.kettle := rfl
@[simp] theorem setJoin_kill (v : Wave) (j : Nat) (x : Join) : (v.setJoin j x).kill = v.kill := rfl
@[simp] theorem setJoin_killEsc (v : Wave) (j : Nat) (x : Join) : (v.setJoin j x).killEsc = v.killEsc := rfl
@[simp] theorem setJoin_preempt (v : Wave) (j : Nat) (x : Join) : (v.setJoin j x).preempt = v.preempt := rfl
@[simp] theorem setJoin_engine (v : Wave) (j : Nat) (x : Join) : (v.setJoin j x).engine = v.engine := rfl
@[simp] theorem setJoin_acqAt (v : Wave) (j : Nat) (x : Join) : (v.setJoin j x).acqAt = v.acqAt := rfl
@[simp] theorem setJoin_priv (v : Wave) (j : Nat) (x : Join) : (v.setJoin j x).priv = v.priv := rfl
@[simp] theorem setJoin_retired (v : Wave) (j : Nat) (x : Join) : (v.setJoin j x).retired = v.retired := rfl
@[simp] theorem setJoin_freed (v : Wave) (j : Nat) (x : Join) : (v.setJoin j x).freed = v.freed := rfl
@[simp] theorem setJoin_wsoft (v : Wave) (j : Nat) (x : Join) : (v.setJoin j x).wsoft = v.wsoft := rfl
@[simp] theorem setJoin_stuck (v : Wave) (j : Nat) (x : Join) : (v.setJoin j x).stuck = v.stuck := rfl
@[simp] theorem setWait_uid (v : Wave) (m : Mask) (x : Wait) : (v.setWait m x).uid = v.uid := rfl
@[simp] theorem setWait_team (v : Wave) (m : Mask) (x : Wait) : (v.setWait m x).team = v.team := rfl
@[simp] theorem setWait_num (v : Wave) (m : Mask) (x : Wait) : (v.setWait m x).num = v.num := rfl
@[simp] theorem setWait_core (v : Wave) (m : Mask) (x : Wait) : (v.setWait m x).core = v.core := rfl
@[simp] theorem setWait_quad (v : Wave) (m : Mask) (x : Wait) : (v.setWait m x).quad = v.quad := rfl
@[simp] theorem setWait_lane (v : Wave) (m : Mask) (x : Wait) : (v.setWait m x).lane = v.lane := rfl
@[simp] theorem setWait_width (v : Wave) (m : Mask) (x : Wait) : (v.setWait m x).width = v.width := rfl
@[simp] theorem setWait_base (v : Wave) (m : Mask) (x : Wait) : (v.setWait m x).base = v.base := rfl
@[simp] theorem setWait_ext (v : Wave) (m : Mask) (x : Wait) : (v.setWait m x).ext = v.ext := rfl
@[simp] theorem setWait_code (v : Wave) (m : Mask) (x : Wait) : (v.setWait m x).code = v.code := rfl
@[simp] theorem setWait_tags (v : Wave) (m : Mask) (x : Wait) : (v.setWait m x).tags = v.tags := rfl
@[simp] theorem setWait_w (v : Wave) (m : Mask) (x : Wait) : (v.setWait m x).w = v.w := rfl
@[simp] theorem setWait_q (v : Wave) (m : Mask) (x : Wait) : (v.setWait m x).q = v.q := rfl
@[simp] theorem setWait_joins (v : Wave) (m : Mask) (x : Wait) : (v.setWait m x).joins = v.joins := rfl
@[simp] theorem setWait_winFirst (v : Wave) (m : Mask) (x : Wait) : (v.setWait m x).winFirst = v.winFirst := rfl
@[simp] theorem setWait_winLen (v : Wave) (m : Mask) (x : Wait) : (v.setWait m x).winLen = v.winLen := rfl
@[simp] theorem setWait_winhit (v : Wave) (m : Mask) (x : Wait) : (v.setWait m x).winhit = v.winhit := rfl
@[simp] theorem setWait_cnt (v : Wave) (m : Mask) (x : Wait) : (v.setWait m x).cnt = v.cnt := rfl
@[simp] theorem setWait_fpctl (v : Wave) (m : Mask) (x : Wait) : (v.setWait m x).fpctl = v.fpctl := rfl
@[simp] theorem setWait_fpstat (v : Wave) (m : Mask) (x : Wait) : (v.setWait m x).fpstat = v.fpstat := rfl
@[simp] theorem setWait_cause (v : Wave) (m : Mask) (x : Wait) : (v.setWait m x).cause = v.cause := rfl
@[simp] theorem setWait_epc (v : Wave) (m : Mask) (x : Wait) : (v.setWait m x).epc = v.epc := rfl
@[simp] theorem setWait_entry (v : Wave) (m : Mask) (x : Wait) : (v.setWait m x).entry = v.entry := rfl
@[simp] theorem setWait_repeatB (v : Wave) (m : Mask) (x : Wait) : (v.setWait m x).repeatB = v.repeatB := rfl
@[simp] theorem setWait_restore (v : Wave) (m : Mask) (x : Wait) : (v.setWait m x).restore = v.restore := rfl
@[simp] theorem setWait_handling (v : Wave) (m : Mask) (x : Wait) : (v.setWait m x).handling = v.handling := rfl
@[simp] theorem setWait_subw (v : Wave) (m : Mask) (x : Wait) : (v.setWait m x).subw = v.subw := rfl
@[simp] theorem setWait_retm (v : Wave) (m : Mask) (x : Wait) : (v.setWait m x).retm = v.retm := rfl
@[simp] theorem setWait_save (v : Wave) (m : Mask) (x : Wait) : (v.setWait m x).save = v.save := rfl
@[simp] theorem setWait_parkq (v : Wave) (m : Mask) (x : Wait) : (v.setWait m x).parkq = v.parkq := rfl
@[simp] theorem setWait_defer (v : Wave) (m : Mask) (x : Wait) : (v.setWait m x).defer = v.defer := rfl
@[simp] theorem setWait_handler (v : Wave) (m : Mask) (x : Wait) : (v.setWait m x).handler = v.handler := rfl
@[simp] theorem setWait_prog (v : Wave) (m : Mask) (x : Wait) : (v.setWait m x).prog = v.prog := rfl
@[simp] theorem setWait_abort (v : Wave) (m : Mask) (x : Wait) : (v.setWait m x).abort = v.abort := rfl
@[simp] theorem setWait_hwm (v : Wave) (m : Mask) (x : Wait) : (v.setWait m x).hwm = v.hwm := rfl
@[simp] theorem setWait_watch (v : Wave) (m : Mask) (x : Wait) : (v.setWait m x).watch = v.watch := rfl
@[simp] theorem setWait_mxs (v : Wave) (m : Mask) (x : Wait) : (v.setWait m x).mxs = v.mxs := rfl
@[simp] theorem setWait_quantum (v : Wave) (m : Mask) (x : Wait) : (v.setWait m x).quantum = v.quantum := rfl
@[simp] theorem setWait_sq (v : Wave) (m : Mask) (x : Wait) : (v.setWait m x).sq = v.sq := rfl
@[simp] theorem setWait_flights (v : Wave) (m : Mask) (x : Wait) : (v.setWait m x).flights = v.flights := rfl
@[simp] theorem setWait_kettle (v : Wave) (m : Mask) (x : Wait) : (v.setWait m x).kettle = v.kettle := rfl
@[simp] theorem setWait_kill (v : Wave) (m : Mask) (x : Wait) : (v.setWait m x).kill = v.kill := rfl
@[simp] theorem setWait_killEsc (v : Wave) (m : Mask) (x : Wait) : (v.setWait m x).killEsc = v.killEsc := rfl
@[simp] theorem setWait_preempt (v : Wave) (m : Mask) (x : Wait) : (v.setWait m x).preempt = v.preempt := rfl
@[simp] theorem setWait_engine (v : Wave) (m : Mask) (x : Wait) : (v.setWait m x).engine = v.engine := rfl
@[simp] theorem setWait_acqAt (v : Wave) (m : Mask) (x : Wait) : (v.setWait m x).acqAt = v.acqAt := rfl
@[simp] theorem setWait_priv (v : Wave) (m : Mask) (x : Wait) : (v.setWait m x).priv = v.priv := rfl
@[simp] theorem setWait_retired (v : Wave) (m : Mask) (x : Wait) : (v.setWait m x).retired = v.retired := rfl
@[simp] theorem setWait_freed (v : Wave) (m : Mask) (x : Wait) : (v.setWait m x).freed = v.freed := rfl
@[simp] theorem setWait_wsoft (v : Wave) (m : Mask) (x : Wait) : (v.setWait m x).wsoft = v.wsoft := rfl
@[simp] theorem setWait_stuck (v : Wave) (m : Mask) (x : Wait) : (v.setWait m x).stuck = v.stuck := rfl
@[simp] theorem setPc_uid (v : Wave) (m : Mask) (f : Nat → Word) : (v.setPc m f).uid = v.uid := rfl
@[simp] theorem setPc_team (v : Wave) (m : Mask) (f : Nat → Word) : (v.setPc m f).team = v.team := rfl
@[simp] theorem setPc_num (v : Wave) (m : Mask) (f : Nat → Word) : (v.setPc m f).num = v.num := rfl
@[simp] theorem setPc_core (v : Wave) (m : Mask) (f : Nat → Word) : (v.setPc m f).core = v.core := rfl
@[simp] theorem setPc_quad (v : Wave) (m : Mask) (f : Nat → Word) : (v.setPc m f).quad = v.quad := rfl
@[simp] theorem setPc_lane (v : Wave) (m : Mask) (f : Nat → Word) : (v.setPc m f).lane = v.lane := rfl
@[simp] theorem setPc_width (v : Wave) (m : Mask) (f : Nat → Word) : (v.setPc m f).width = v.width := rfl
@[simp] theorem setPc_base (v : Wave) (m : Mask) (f : Nat → Word) : (v.setPc m f).base = v.base := rfl
@[simp] theorem setPc_ext (v : Wave) (m : Mask) (f : Nat → Word) : (v.setPc m f).ext = v.ext := rfl
@[simp] theorem setPc_code (v : Wave) (m : Mask) (f : Nat → Word) : (v.setPc m f).code = v.code := rfl
@[simp] theorem setPc_tags (v : Wave) (m : Mask) (f : Nat → Word) : (v.setPc m f).tags = v.tags := rfl
@[simp] theorem setPc_w (v : Wave) (m : Mask) (f : Nat → Word) : (v.setPc m f).w = v.w := rfl
@[simp] theorem setPc_q (v : Wave) (m : Mask) (f : Nat → Word) : (v.setPc m f).q = v.q := rfl
@[simp] theorem setPc_joins (v : Wave) (m : Mask) (f : Nat → Word) : (v.setPc m f).joins = v.joins := rfl
@[simp] theorem setPc_winFirst (v : Wave) (m : Mask) (f : Nat → Word) : (v.setPc m f).winFirst = v.winFirst := rfl
@[simp] theorem setPc_winLen (v : Wave) (m : Mask) (f : Nat → Word) : (v.setPc m f).winLen = v.winLen := rfl
@[simp] theorem setPc_winhit (v : Wave) (m : Mask) (f : Nat → Word) : (v.setPc m f).winhit = v.winhit := rfl
@[simp] theorem setPc_cnt (v : Wave) (m : Mask) (f : Nat → Word) : (v.setPc m f).cnt = v.cnt := rfl
@[simp] theorem setPc_fpctl (v : Wave) (m : Mask) (f : Nat → Word) : (v.setPc m f).fpctl = v.fpctl := rfl
@[simp] theorem setPc_fpstat (v : Wave) (m : Mask) (f : Nat → Word) : (v.setPc m f).fpstat = v.fpstat := rfl
@[simp] theorem setPc_cause (v : Wave) (m : Mask) (f : Nat → Word) : (v.setPc m f).cause = v.cause := rfl
@[simp] theorem setPc_epc (v : Wave) (m : Mask) (f : Nat → Word) : (v.setPc m f).epc = v.epc := rfl
@[simp] theorem setPc_entry (v : Wave) (m : Mask) (f : Nat → Word) : (v.setPc m f).entry = v.entry := rfl
@[simp] theorem setPc_repeatB (v : Wave) (m : Mask) (f : Nat → Word) : (v.setPc m f).repeatB = v.repeatB := rfl
@[simp] theorem setPc_restore (v : Wave) (m : Mask) (f : Nat → Word) : (v.setPc m f).restore = v.restore := rfl
@[simp] theorem setPc_handling (v : Wave) (m : Mask) (f : Nat → Word) : (v.setPc m f).handling = v.handling := rfl
@[simp] theorem setPc_subw (v : Wave) (m : Mask) (f : Nat → Word) : (v.setPc m f).subw = v.subw := rfl
@[simp] theorem setPc_retm (v : Wave) (m : Mask) (f : Nat → Word) : (v.setPc m f).retm = v.retm := rfl
@[simp] theorem setPc_save (v : Wave) (m : Mask) (f : Nat → Word) : (v.setPc m f).save = v.save := rfl
@[simp] theorem setPc_parkq (v : Wave) (m : Mask) (f : Nat → Word) : (v.setPc m f).parkq = v.parkq := rfl
@[simp] theorem setPc_defer (v : Wave) (m : Mask) (f : Nat → Word) : (v.setPc m f).defer = v.defer := rfl
@[simp] theorem setPc_handler (v : Wave) (m : Mask) (f : Nat → Word) : (v.setPc m f).handler = v.handler := rfl
@[simp] theorem setPc_prog (v : Wave) (m : Mask) (f : Nat → Word) : (v.setPc m f).prog = v.prog := rfl
@[simp] theorem setPc_abort (v : Wave) (m : Mask) (f : Nat → Word) : (v.setPc m f).abort = v.abort := rfl
@[simp] theorem setPc_hwm (v : Wave) (m : Mask) (f : Nat → Word) : (v.setPc m f).hwm = v.hwm := rfl
@[simp] theorem setPc_watch (v : Wave) (m : Mask) (f : Nat → Word) : (v.setPc m f).watch = v.watch := rfl
@[simp] theorem setPc_mxs (v : Wave) (m : Mask) (f : Nat → Word) : (v.setPc m f).mxs = v.mxs := rfl
@[simp] theorem setPc_quantum (v : Wave) (m : Mask) (f : Nat → Word) : (v.setPc m f).quantum = v.quantum := rfl
@[simp] theorem setPc_sq (v : Wave) (m : Mask) (f : Nat → Word) : (v.setPc m f).sq = v.sq := rfl
@[simp] theorem setPc_flights (v : Wave) (m : Mask) (f : Nat → Word) : (v.setPc m f).flights = v.flights := rfl
@[simp] theorem setPc_kettle (v : Wave) (m : Mask) (f : Nat → Word) : (v.setPc m f).kettle = v.kettle := rfl
@[simp] theorem setPc_kill (v : Wave) (m : Mask) (f : Nat → Word) : (v.setPc m f).kill = v.kill := rfl
@[simp] theorem setPc_killEsc (v : Wave) (m : Mask) (f : Nat → Word) : (v.setPc m f).killEsc = v.killEsc := rfl
@[simp] theorem setPc_preempt (v : Wave) (m : Mask) (f : Nat → Word) : (v.setPc m f).preempt = v.preempt := rfl
@[simp] theorem setPc_engine (v : Wave) (m : Mask) (f : Nat → Word) : (v.setPc m f).engine = v.engine := rfl
@[simp] theorem setPc_acqAt (v : Wave) (m : Mask) (f : Nat → Word) : (v.setPc m f).acqAt = v.acqAt := rfl
@[simp] theorem setPc_priv (v : Wave) (m : Mask) (f : Nat → Word) : (v.setPc m f).priv = v.priv := rfl
@[simp] theorem setPc_retired (v : Wave) (m : Mask) (f : Nat → Word) : (v.setPc m f).retired = v.retired := rfl
@[simp] theorem setPc_freed (v : Wave) (m : Mask) (f : Nat → Word) : (v.setPc m f).freed = v.freed := rfl
@[simp] theorem setPc_wsoft (v : Wave) (m : Mask) (f : Nat → Word) : (v.setPc m f).wsoft = v.wsoft := rfl
@[simp] theorem setPc_stuck (v : Wave) (m : Mask) (f : Nat → Word) : (v.setPc m f).stuck = v.stuck := rfl
@[simp] theorem advance_uid (v : Wave) (h : Bool) (m : Mask) (p : Word) (f : Nat → Word) : (v.advance h m p f).uid = v.uid := rfl
@[simp] theorem advance_team (v : Wave) (h : Bool) (m : Mask) (p : Word) (f : Nat → Word) : (v.advance h m p f).team = v.team := rfl
@[simp] theorem advance_num (v : Wave) (h : Bool) (m : Mask) (p : Word) (f : Nat → Word) : (v.advance h m p f).num = v.num := rfl
@[simp] theorem advance_core (v : Wave) (h : Bool) (m : Mask) (p : Word) (f : Nat → Word) : (v.advance h m p f).core = v.core := rfl
@[simp] theorem advance_quad (v : Wave) (h : Bool) (m : Mask) (p : Word) (f : Nat → Word) : (v.advance h m p f).quad = v.quad := rfl
@[simp] theorem advance_lane (v : Wave) (h : Bool) (m : Mask) (p : Word) (f : Nat → Word) : (v.advance h m p f).lane = v.lane := rfl
@[simp] theorem advance_width (v : Wave) (h : Bool) (m : Mask) (p : Word) (f : Nat → Word) : (v.advance h m p f).width = v.width := rfl
@[simp] theorem advance_base (v : Wave) (h : Bool) (m : Mask) (p : Word) (f : Nat → Word) : (v.advance h m p f).base = v.base := rfl
@[simp] theorem advance_ext (v : Wave) (h : Bool) (m : Mask) (p : Word) (f : Nat → Word) : (v.advance h m p f).ext = v.ext := rfl
@[simp] theorem advance_code (v : Wave) (h : Bool) (m : Mask) (p : Word) (f : Nat → Word) : (v.advance h m p f).code = v.code := rfl
@[simp] theorem advance_tags (v : Wave) (h : Bool) (m : Mask) (p : Word) (f : Nat → Word) : (v.advance h m p f).tags = v.tags := rfl
@[simp] theorem advance_w (v : Wave) (h : Bool) (m : Mask) (p : Word) (f : Nat → Word) : (v.advance h m p f).w = v.w := rfl
@[simp] theorem advance_q (v : Wave) (h : Bool) (m : Mask) (p : Word) (f : Nat → Word) : (v.advance h m p f).q = v.q := rfl
@[simp] theorem advance_joins (v : Wave) (h : Bool) (m : Mask) (p : Word) (f : Nat → Word) : (v.advance h m p f).joins = v.joins := rfl
@[simp] theorem advance_winFirst (v : Wave) (h : Bool) (m : Mask) (p : Word) (f : Nat → Word) : (v.advance h m p f).winFirst = v.winFirst := rfl
@[simp] theorem advance_winLen (v : Wave) (h : Bool) (m : Mask) (p : Word) (f : Nat → Word) : (v.advance h m p f).winLen = v.winLen := rfl
@[simp] theorem advance_winhit (v : Wave) (h : Bool) (m : Mask) (p : Word) (f : Nat → Word) : (v.advance h m p f).winhit = v.winhit := rfl
@[simp] theorem advance_cnt (v : Wave) (h : Bool) (m : Mask) (p : Word) (f : Nat → Word) : (v.advance h m p f).cnt = v.cnt := rfl
@[simp] theorem advance_fpctl (v : Wave) (h : Bool) (m : Mask) (p : Word) (f : Nat → Word) : (v.advance h m p f).fpctl = v.fpctl := rfl
@[simp] theorem advance_fpstat (v : Wave) (h : Bool) (m : Mask) (p : Word) (f : Nat → Word) : (v.advance h m p f).fpstat = v.fpstat := rfl
@[simp] theorem advance_cause (v : Wave) (h : Bool) (m : Mask) (p : Word) (f : Nat → Word) : (v.advance h m p f).cause = v.cause := rfl
@[simp] theorem advance_epc (v : Wave) (h : Bool) (m : Mask) (p : Word) (f : Nat → Word) : (v.advance h m p f).epc = v.epc := rfl
@[simp] theorem advance_entry (v : Wave) (h : Bool) (m : Mask) (p : Word) (f : Nat → Word) : (v.advance h m p f).entry = v.entry := rfl
@[simp] theorem advance_repeatB (v : Wave) (h : Bool) (m : Mask) (p : Word) (f : Nat → Word) : (v.advance h m p f).repeatB = v.repeatB := rfl
@[simp] theorem advance_restore (v : Wave) (h : Bool) (m : Mask) (p : Word) (f : Nat → Word) : (v.advance h m p f).restore = v.restore := rfl
@[simp] theorem advance_handling (v : Wave) (h : Bool) (m : Mask) (p : Word) (f : Nat → Word) : (v.advance h m p f).handling = v.handling := rfl
@[simp] theorem advance_subw (v : Wave) (h : Bool) (m : Mask) (p : Word) (f : Nat → Word) : (v.advance h m p f).subw = v.subw := rfl
@[simp] theorem advance_retm (v : Wave) (h : Bool) (m : Mask) (p : Word) (f : Nat → Word) : (v.advance h m p f).retm = v.retm := rfl
@[simp] theorem advance_save (v : Wave) (h : Bool) (m : Mask) (p : Word) (f : Nat → Word) : (v.advance h m p f).save = v.save := rfl
@[simp] theorem advance_parkq (v : Wave) (h : Bool) (m : Mask) (p : Word) (f : Nat → Word) : (v.advance h m p f).parkq = v.parkq := rfl
@[simp] theorem advance_defer (v : Wave) (h : Bool) (m : Mask) (p : Word) (f : Nat → Word) : (v.advance h m p f).defer = v.defer := rfl
@[simp] theorem advance_handler (v : Wave) (h : Bool) (m : Mask) (p : Word) (f : Nat → Word) : (v.advance h m p f).handler = v.handler := rfl
@[simp] theorem advance_prog (v : Wave) (h : Bool) (m : Mask) (p : Word) (f : Nat → Word) : (v.advance h m p f).prog = v.prog := rfl
@[simp] theorem advance_abort (v : Wave) (h : Bool) (m : Mask) (p : Word) (f : Nat → Word) : (v.advance h m p f).abort = v.abort := rfl
@[simp] theorem advance_hwm (v : Wave) (h : Bool) (m : Mask) (p : Word) (f : Nat → Word) : (v.advance h m p f).hwm = v.hwm := rfl
@[simp] theorem advance_watch (v : Wave) (h : Bool) (m : Mask) (p : Word) (f : Nat → Word) : (v.advance h m p f).watch = v.watch := rfl
@[simp] theorem advance_mxs (v : Wave) (h : Bool) (m : Mask) (p : Word) (f : Nat → Word) : (v.advance h m p f).mxs = v.mxs := rfl
@[simp] theorem advance_quantum (v : Wave) (h : Bool) (m : Mask) (p : Word) (f : Nat → Word) : (v.advance h m p f).quantum = v.quantum := rfl
@[simp] theorem advance_sq (v : Wave) (h : Bool) (m : Mask) (p : Word) (f : Nat → Word) : (v.advance h m p f).sq = v.sq := rfl
@[simp] theorem advance_flights (v : Wave) (h : Bool) (m : Mask) (p : Word) (f : Nat → Word) : (v.advance h m p f).flights = v.flights := rfl
@[simp] theorem advance_kettle (v : Wave) (h : Bool) (m : Mask) (p : Word) (f : Nat → Word) : (v.advance h m p f).kettle = v.kettle := rfl
@[simp] theorem advance_kill (v : Wave) (h : Bool) (m : Mask) (p : Word) (f : Nat → Word) : (v.advance h m p f).kill = v.kill := rfl
@[simp] theorem advance_killEsc (v : Wave) (h : Bool) (m : Mask) (p : Word) (f : Nat → Word) : (v.advance h m p f).killEsc = v.killEsc := rfl
@[simp] theorem advance_preempt (v : Wave) (h : Bool) (m : Mask) (p : Word) (f : Nat → Word) : (v.advance h m p f).preempt = v.preempt := rfl
@[simp] theorem advance_engine (v : Wave) (h : Bool) (m : Mask) (p : Word) (f : Nat → Word) : (v.advance h m p f).engine = v.engine := rfl
@[simp] theorem advance_acqAt (v : Wave) (h : Bool) (m : Mask) (p : Word) (f : Nat → Word) : (v.advance h m p f).acqAt = v.acqAt := rfl
@[simp] theorem advance_priv (v : Wave) (h : Bool) (m : Mask) (p : Word) (f : Nat → Word) : (v.advance h m p f).priv = v.priv := rfl
@[simp] theorem advance_retired (v : Wave) (h : Bool) (m : Mask) (p : Word) (f : Nat → Word) : (v.advance h m p f).retired = v.retired := rfl
@[simp] theorem advance_freed (v : Wave) (h : Bool) (m : Mask) (p : Word) (f : Nat → Word) : (v.advance h m p f).freed = v.freed := rfl
@[simp] theorem advance_wsoft (v : Wave) (h : Bool) (m : Mask) (p : Word) (f : Nat → Word) : (v.advance h m p f).wsoft = v.wsoft := rfl
@[simp] theorem advance_stuck (v : Wave) (h : Bool) (m : Mask) (p : Word) (f : Nat → Word) : (v.advance h m p f).stuck = v.stuck := rfl
@[simp] theorem raise_uid (v : Wave) (k : Nat) : (v.raise k).uid = v.uid := rfl
@[simp] theorem raise_team (v : Wave) (k : Nat) : (v.raise k).team = v.team := rfl
@[simp] theorem raise_num (v : Wave) (k : Nat) : (v.raise k).num = v.num := rfl
@[simp] theorem raise_core (v : Wave) (k : Nat) : (v.raise k).core = v.core := rfl
@[simp] theorem raise_quad (v : Wave) (k : Nat) : (v.raise k).quad = v.quad := rfl
@[simp] theorem raise_lane (v : Wave) (k : Nat) : (v.raise k).lane = v.lane := rfl
@[simp] theorem raise_width (v : Wave) (k : Nat) : (v.raise k).width = v.width := rfl
@[simp] theorem raise_base (v : Wave) (k : Nat) : (v.raise k).base = v.base := rfl
@[simp] theorem raise_ext (v : Wave) (k : Nat) : (v.raise k).ext = v.ext := rfl
@[simp] theorem raise_code (v : Wave) (k : Nat) : (v.raise k).code = v.code := rfl
@[simp] theorem raise_threads (v : Wave) (k : Nat) : (v.raise k).threads = v.threads := rfl
@[simp] theorem raise_tags (v : Wave) (k : Nat) : (v.raise k).tags = v.tags := rfl
@[simp] theorem raise_w (v : Wave) (k : Nat) : (v.raise k).w = v.w := rfl
@[simp] theorem raise_q (v : Wave) (k : Nat) : (v.raise k).q = v.q := rfl
@[simp] theorem raise_joins (v : Wave) (k : Nat) : (v.raise k).joins = v.joins := rfl
@[simp] theorem raise_winFirst (v : Wave) (k : Nat) : (v.raise k).winFirst = v.winFirst := rfl
@[simp] theorem raise_winLen (v : Wave) (k : Nat) : (v.raise k).winLen = v.winLen := rfl
@[simp] theorem raise_winhit (v : Wave) (k : Nat) : (v.raise k).winhit = v.winhit := rfl
@[simp] theorem raise_fpctl (v : Wave) (k : Nat) : (v.raise k).fpctl = v.fpctl := rfl
@[simp] theorem raise_fpstat (v : Wave) (k : Nat) : (v.raise k).fpstat = v.fpstat := rfl
@[simp] theorem raise_cause (v : Wave) (k : Nat) : (v.raise k).cause = v.cause := rfl
@[simp] theorem raise_epc (v : Wave) (k : Nat) : (v.raise k).epc = v.epc := rfl
@[simp] theorem raise_entry (v : Wave) (k : Nat) : (v.raise k).entry = v.entry := rfl
@[simp] theorem raise_repeatB (v : Wave) (k : Nat) : (v.raise k).repeatB = v.repeatB := rfl
@[simp] theorem raise_restore (v : Wave) (k : Nat) : (v.raise k).restore = v.restore := rfl
@[simp] theorem raise_handling (v : Wave) (k : Nat) : (v.raise k).handling = v.handling := rfl
@[simp] theorem raise_subw (v : Wave) (k : Nat) : (v.raise k).subw = v.subw := rfl
@[simp] theorem raise_retm (v : Wave) (k : Nat) : (v.raise k).retm = v.retm := rfl
@[simp] theorem raise_save (v : Wave) (k : Nat) : (v.raise k).save = v.save := rfl
@[simp] theorem raise_parkq (v : Wave) (k : Nat) : (v.raise k).parkq = v.parkq := rfl
@[simp] theorem raise_defer (v : Wave) (k : Nat) : (v.raise k).defer = v.defer := rfl
@[simp] theorem raise_handler (v : Wave) (k : Nat) : (v.raise k).handler = v.handler := rfl
@[simp] theorem raise_prog (v : Wave) (k : Nat) : (v.raise k).prog = v.prog := rfl
@[simp] theorem raise_abort (v : Wave) (k : Nat) : (v.raise k).abort = v.abort := rfl
@[simp] theorem raise_hwm (v : Wave) (k : Nat) : (v.raise k).hwm = v.hwm := rfl
@[simp] theorem raise_watch (v : Wave) (k : Nat) : (v.raise k).watch = v.watch := rfl
@[simp] theorem raise_mxs (v : Wave) (k : Nat) : (v.raise k).mxs = v.mxs := rfl
@[simp] theorem raise_quantum (v : Wave) (k : Nat) : (v.raise k).quantum = v.quantum := rfl
@[simp] theorem raise_sq (v : Wave) (k : Nat) : (v.raise k).sq = v.sq := rfl
@[simp] theorem raise_flights (v : Wave) (k : Nat) : (v.raise k).flights = v.flights := rfl
@[simp] theorem raise_kettle (v : Wave) (k : Nat) : (v.raise k).kettle = v.kettle := rfl
@[simp] theorem raise_kill (v : Wave) (k : Nat) : (v.raise k).kill = v.kill := rfl
@[simp] theorem raise_killEsc (v : Wave) (k : Nat) : (v.raise k).killEsc = v.killEsc := rfl
@[simp] theorem raise_preempt (v : Wave) (k : Nat) : (v.raise k).preempt = v.preempt := rfl
@[simp] theorem raise_engine (v : Wave) (k : Nat) : (v.raise k).engine = v.engine := rfl
@[simp] theorem raise_acqAt (v : Wave) (k : Nat) : (v.raise k).acqAt = v.acqAt := rfl
@[simp] theorem raise_priv (v : Wave) (k : Nat) : (v.raise k).priv = v.priv := rfl
@[simp] theorem raise_retired (v : Wave) (k : Nat) : (v.raise k).retired = v.retired := rfl
@[simp] theorem raise_freed (v : Wave) (k : Nat) : (v.raise k).freed = v.freed := rfl
@[simp] theorem raise_wsoft (v : Wave) (k : Nat) : (v.raise k).wsoft = v.wsoft := rfl
@[simp] theorem raise_stuck (v : Wave) (k : Nat) : (v.raise k).stuck = v.stuck := rfl
@[simp] theorem lower_uid (v : Wave) (k : Nat) : (v.lower k).uid = v.uid := rfl
@[simp] theorem lower_team (v : Wave) (k : Nat) : (v.lower k).team = v.team := rfl
@[simp] theorem lower_num (v : Wave) (k : Nat) : (v.lower k).num = v.num := rfl
@[simp] theorem lower_core (v : Wave) (k : Nat) : (v.lower k).core = v.core := rfl
@[simp] theorem lower_quad (v : Wave) (k : Nat) : (v.lower k).quad = v.quad := rfl
@[simp] theorem lower_lane (v : Wave) (k : Nat) : (v.lower k).lane = v.lane := rfl
@[simp] theorem lower_width (v : Wave) (k : Nat) : (v.lower k).width = v.width := rfl
@[simp] theorem lower_base (v : Wave) (k : Nat) : (v.lower k).base = v.base := rfl
@[simp] theorem lower_ext (v : Wave) (k : Nat) : (v.lower k).ext = v.ext := rfl
@[simp] theorem lower_code (v : Wave) (k : Nat) : (v.lower k).code = v.code := rfl
@[simp] theorem lower_threads (v : Wave) (k : Nat) : (v.lower k).threads = v.threads := rfl
@[simp] theorem lower_tags (v : Wave) (k : Nat) : (v.lower k).tags = v.tags := rfl
@[simp] theorem lower_w (v : Wave) (k : Nat) : (v.lower k).w = v.w := rfl
@[simp] theorem lower_q (v : Wave) (k : Nat) : (v.lower k).q = v.q := rfl
@[simp] theorem lower_joins (v : Wave) (k : Nat) : (v.lower k).joins = v.joins := rfl
@[simp] theorem lower_winFirst (v : Wave) (k : Nat) : (v.lower k).winFirst = v.winFirst := rfl
@[simp] theorem lower_winLen (v : Wave) (k : Nat) : (v.lower k).winLen = v.winLen := rfl
@[simp] theorem lower_winhit (v : Wave) (k : Nat) : (v.lower k).winhit = v.winhit := rfl
@[simp] theorem lower_fpctl (v : Wave) (k : Nat) : (v.lower k).fpctl = v.fpctl := rfl
@[simp] theorem lower_fpstat (v : Wave) (k : Nat) : (v.lower k).fpstat = v.fpstat := rfl
@[simp] theorem lower_cause (v : Wave) (k : Nat) : (v.lower k).cause = v.cause := rfl
@[simp] theorem lower_epc (v : Wave) (k : Nat) : (v.lower k).epc = v.epc := rfl
@[simp] theorem lower_entry (v : Wave) (k : Nat) : (v.lower k).entry = v.entry := rfl
@[simp] theorem lower_repeatB (v : Wave) (k : Nat) : (v.lower k).repeatB = v.repeatB := rfl
@[simp] theorem lower_restore (v : Wave) (k : Nat) : (v.lower k).restore = v.restore := rfl
@[simp] theorem lower_handling (v : Wave) (k : Nat) : (v.lower k).handling = v.handling := rfl
@[simp] theorem lower_subw (v : Wave) (k : Nat) : (v.lower k).subw = v.subw := rfl
@[simp] theorem lower_retm (v : Wave) (k : Nat) : (v.lower k).retm = v.retm := rfl
@[simp] theorem lower_save (v : Wave) (k : Nat) : (v.lower k).save = v.save := rfl
@[simp] theorem lower_parkq (v : Wave) (k : Nat) : (v.lower k).parkq = v.parkq := rfl
@[simp] theorem lower_defer (v : Wave) (k : Nat) : (v.lower k).defer = v.defer := rfl
@[simp] theorem lower_handler (v : Wave) (k : Nat) : (v.lower k).handler = v.handler := rfl
@[simp] theorem lower_prog (v : Wave) (k : Nat) : (v.lower k).prog = v.prog := rfl
@[simp] theorem lower_abort (v : Wave) (k : Nat) : (v.lower k).abort = v.abort := rfl
@[simp] theorem lower_hwm (v : Wave) (k : Nat) : (v.lower k).hwm = v.hwm := rfl
@[simp] theorem lower_watch (v : Wave) (k : Nat) : (v.lower k).watch = v.watch := rfl
@[simp] theorem lower_mxs (v : Wave) (k : Nat) : (v.lower k).mxs = v.mxs := rfl
@[simp] theorem lower_quantum (v : Wave) (k : Nat) : (v.lower k).quantum = v.quantum := rfl
@[simp] theorem lower_sq (v : Wave) (k : Nat) : (v.lower k).sq = v.sq := rfl
@[simp] theorem lower_flights (v : Wave) (k : Nat) : (v.lower k).flights = v.flights := rfl
@[simp] theorem lower_kettle (v : Wave) (k : Nat) : (v.lower k).kettle = v.kettle := rfl
@[simp] theorem lower_kill (v : Wave) (k : Nat) : (v.lower k).kill = v.kill := rfl
@[simp] theorem lower_killEsc (v : Wave) (k : Nat) : (v.lower k).killEsc = v.killEsc := rfl
@[simp] theorem lower_preempt (v : Wave) (k : Nat) : (v.lower k).preempt = v.preempt := rfl
@[simp] theorem lower_engine (v : Wave) (k : Nat) : (v.lower k).engine = v.engine := rfl
@[simp] theorem lower_acqAt (v : Wave) (k : Nat) : (v.lower k).acqAt = v.acqAt := rfl
@[simp] theorem lower_priv (v : Wave) (k : Nat) : (v.lower k).priv = v.priv := rfl
@[simp] theorem lower_retired (v : Wave) (k : Nat) : (v.lower k).retired = v.retired := rfl
@[simp] theorem lower_freed (v : Wave) (k : Nat) : (v.lower k).freed = v.freed := rfl
@[simp] theorem lower_wsoft (v : Wave) (k : Nat) : (v.lower k).wsoft = v.wsoft := rfl
@[simp] theorem lower_stuck (v : Wave) (k : Nat) : (v.lower k).stuck = v.stuck := rfl
@[simp] theorem orFlags_uid (v : Wave) (x : BitVec 5) : (v.orFlags x).uid = v.uid := rfl
@[simp] theorem orFlags_team (v : Wave) (x : BitVec 5) : (v.orFlags x).team = v.team := rfl
@[simp] theorem orFlags_num (v : Wave) (x : BitVec 5) : (v.orFlags x).num = v.num := rfl
@[simp] theorem orFlags_core (v : Wave) (x : BitVec 5) : (v.orFlags x).core = v.core := rfl
@[simp] theorem orFlags_quad (v : Wave) (x : BitVec 5) : (v.orFlags x).quad = v.quad := rfl
@[simp] theorem orFlags_lane (v : Wave) (x : BitVec 5) : (v.orFlags x).lane = v.lane := rfl
@[simp] theorem orFlags_width (v : Wave) (x : BitVec 5) : (v.orFlags x).width = v.width := rfl
@[simp] theorem orFlags_base (v : Wave) (x : BitVec 5) : (v.orFlags x).base = v.base := rfl
@[simp] theorem orFlags_ext (v : Wave) (x : BitVec 5) : (v.orFlags x).ext = v.ext := rfl
@[simp] theorem orFlags_code (v : Wave) (x : BitVec 5) : (v.orFlags x).code = v.code := rfl
@[simp] theorem orFlags_threads (v : Wave) (x : BitVec 5) : (v.orFlags x).threads = v.threads := rfl
@[simp] theorem orFlags_tags (v : Wave) (x : BitVec 5) : (v.orFlags x).tags = v.tags := rfl
@[simp] theorem orFlags_w (v : Wave) (x : BitVec 5) : (v.orFlags x).w = v.w := rfl
@[simp] theorem orFlags_q (v : Wave) (x : BitVec 5) : (v.orFlags x).q = v.q := rfl
@[simp] theorem orFlags_joins (v : Wave) (x : BitVec 5) : (v.orFlags x).joins = v.joins := rfl
@[simp] theorem orFlags_winFirst (v : Wave) (x : BitVec 5) : (v.orFlags x).winFirst = v.winFirst := rfl
@[simp] theorem orFlags_winLen (v : Wave) (x : BitVec 5) : (v.orFlags x).winLen = v.winLen := rfl
@[simp] theorem orFlags_winhit (v : Wave) (x : BitVec 5) : (v.orFlags x).winhit = v.winhit := rfl
@[simp] theorem orFlags_cnt (v : Wave) (x : BitVec 5) : (v.orFlags x).cnt = v.cnt := rfl
@[simp] theorem orFlags_fpctl (v : Wave) (x : BitVec 5) : (v.orFlags x).fpctl = v.fpctl := rfl
@[simp] theorem orFlags_cause (v : Wave) (x : BitVec 5) : (v.orFlags x).cause = v.cause := rfl
@[simp] theorem orFlags_epc (v : Wave) (x : BitVec 5) : (v.orFlags x).epc = v.epc := rfl
@[simp] theorem orFlags_entry (v : Wave) (x : BitVec 5) : (v.orFlags x).entry = v.entry := rfl
@[simp] theorem orFlags_repeatB (v : Wave) (x : BitVec 5) : (v.orFlags x).repeatB = v.repeatB := rfl
@[simp] theorem orFlags_restore (v : Wave) (x : BitVec 5) : (v.orFlags x).restore = v.restore := rfl
@[simp] theorem orFlags_handling (v : Wave) (x : BitVec 5) : (v.orFlags x).handling = v.handling := rfl
@[simp] theorem orFlags_subw (v : Wave) (x : BitVec 5) : (v.orFlags x).subw = v.subw := rfl
@[simp] theorem orFlags_retm (v : Wave) (x : BitVec 5) : (v.orFlags x).retm = v.retm := rfl
@[simp] theorem orFlags_save (v : Wave) (x : BitVec 5) : (v.orFlags x).save = v.save := rfl
@[simp] theorem orFlags_parkq (v : Wave) (x : BitVec 5) : (v.orFlags x).parkq = v.parkq := rfl
@[simp] theorem orFlags_defer (v : Wave) (x : BitVec 5) : (v.orFlags x).defer = v.defer := rfl
@[simp] theorem orFlags_handler (v : Wave) (x : BitVec 5) : (v.orFlags x).handler = v.handler := rfl
@[simp] theorem orFlags_prog (v : Wave) (x : BitVec 5) : (v.orFlags x).prog = v.prog := rfl
@[simp] theorem orFlags_abort (v : Wave) (x : BitVec 5) : (v.orFlags x).abort = v.abort := rfl
@[simp] theorem orFlags_hwm (v : Wave) (x : BitVec 5) : (v.orFlags x).hwm = v.hwm := rfl
@[simp] theorem orFlags_watch (v : Wave) (x : BitVec 5) : (v.orFlags x).watch = v.watch := rfl
@[simp] theorem orFlags_mxs (v : Wave) (x : BitVec 5) : (v.orFlags x).mxs = v.mxs := rfl
@[simp] theorem orFlags_quantum (v : Wave) (x : BitVec 5) : (v.orFlags x).quantum = v.quantum := rfl
@[simp] theorem orFlags_sq (v : Wave) (x : BitVec 5) : (v.orFlags x).sq = v.sq := rfl
@[simp] theorem orFlags_flights (v : Wave) (x : BitVec 5) : (v.orFlags x).flights = v.flights := rfl
@[simp] theorem orFlags_kettle (v : Wave) (x : BitVec 5) : (v.orFlags x).kettle = v.kettle := rfl
@[simp] theorem orFlags_kill (v : Wave) (x : BitVec 5) : (v.orFlags x).kill = v.kill := rfl
@[simp] theorem orFlags_killEsc (v : Wave) (x : BitVec 5) : (v.orFlags x).killEsc = v.killEsc := rfl
@[simp] theorem orFlags_preempt (v : Wave) (x : BitVec 5) : (v.orFlags x).preempt = v.preempt := rfl
@[simp] theorem orFlags_engine (v : Wave) (x : BitVec 5) : (v.orFlags x).engine = v.engine := rfl
@[simp] theorem orFlags_acqAt (v : Wave) (x : BitVec 5) : (v.orFlags x).acqAt = v.acqAt := rfl
@[simp] theorem orFlags_priv (v : Wave) (x : BitVec 5) : (v.orFlags x).priv = v.priv := rfl
@[simp] theorem orFlags_retired (v : Wave) (x : BitVec 5) : (v.orFlags x).retired = v.retired := rfl
@[simp] theorem orFlags_freed (v : Wave) (x : BitVec 5) : (v.orFlags x).freed = v.freed := rfl
@[simp] theorem orFlags_wsoft (v : Wave) (x : BitVec 5) : (v.orFlags x).wsoft = v.wsoft := rfl
@[simp] theorem orFlags_stuck (v : Wave) (x : BitVec 5) : (v.orFlags x).stuck = v.stuck := rfl
@[simp] theorem setJob_uid (v : Wave) (i k : Nat) (f : Job → Job) : (v.setJob i k f).uid = v.uid := rfl
@[simp] theorem setJob_team (v : Wave) (i k : Nat) (f : Job → Job) : (v.setJob i k f).team = v.team := rfl
@[simp] theorem setJob_num (v : Wave) (i k : Nat) (f : Job → Job) : (v.setJob i k f).num = v.num := rfl
@[simp] theorem setJob_core (v : Wave) (i k : Nat) (f : Job → Job) : (v.setJob i k f).core = v.core := rfl
@[simp] theorem setJob_quad (v : Wave) (i k : Nat) (f : Job → Job) : (v.setJob i k f).quad = v.quad := rfl
@[simp] theorem setJob_lane (v : Wave) (i k : Nat) (f : Job → Job) : (v.setJob i k f).lane = v.lane := rfl
@[simp] theorem setJob_width (v : Wave) (i k : Nat) (f : Job → Job) : (v.setJob i k f).width = v.width := rfl
@[simp] theorem setJob_base (v : Wave) (i k : Nat) (f : Job → Job) : (v.setJob i k f).base = v.base := rfl
@[simp] theorem setJob_ext (v : Wave) (i k : Nat) (f : Job → Job) : (v.setJob i k f).ext = v.ext := rfl
@[simp] theorem setJob_code (v : Wave) (i k : Nat) (f : Job → Job) : (v.setJob i k f).code = v.code := rfl
@[simp] theorem setJob_threads (v : Wave) (i k : Nat) (f : Job → Job) : (v.setJob i k f).threads = v.threads := rfl
@[simp] theorem setJob_tags (v : Wave) (i k : Nat) (f : Job → Job) : (v.setJob i k f).tags = v.tags := rfl
@[simp] theorem setJob_w (v : Wave) (i k : Nat) (f : Job → Job) : (v.setJob i k f).w = v.w := rfl
@[simp] theorem setJob_q (v : Wave) (i k : Nat) (f : Job → Job) : (v.setJob i k f).q = v.q := rfl
@[simp] theorem setJob_joins (v : Wave) (i k : Nat) (f : Job → Job) : (v.setJob i k f).joins = v.joins := rfl
@[simp] theorem setJob_winFirst (v : Wave) (i k : Nat) (f : Job → Job) : (v.setJob i k f).winFirst = v.winFirst := rfl
@[simp] theorem setJob_winLen (v : Wave) (i k : Nat) (f : Job → Job) : (v.setJob i k f).winLen = v.winLen := rfl
@[simp] theorem setJob_winhit (v : Wave) (i k : Nat) (f : Job → Job) : (v.setJob i k f).winhit = v.winhit := rfl
@[simp] theorem setJob_cnt (v : Wave) (i k : Nat) (f : Job → Job) : (v.setJob i k f).cnt = v.cnt := rfl
@[simp] theorem setJob_fpctl (v : Wave) (i k : Nat) (f : Job → Job) : (v.setJob i k f).fpctl = v.fpctl := rfl
@[simp] theorem setJob_fpstat (v : Wave) (i k : Nat) (f : Job → Job) : (v.setJob i k f).fpstat = v.fpstat := rfl
@[simp] theorem setJob_cause (v : Wave) (i k : Nat) (f : Job → Job) : (v.setJob i k f).cause = v.cause := rfl
@[simp] theorem setJob_epc (v : Wave) (i k : Nat) (f : Job → Job) : (v.setJob i k f).epc = v.epc := rfl
@[simp] theorem setJob_entry (v : Wave) (i k : Nat) (f : Job → Job) : (v.setJob i k f).entry = v.entry := rfl
@[simp] theorem setJob_repeatB (v : Wave) (i k : Nat) (f : Job → Job) : (v.setJob i k f).repeatB = v.repeatB := rfl
@[simp] theorem setJob_restore (v : Wave) (i k : Nat) (f : Job → Job) : (v.setJob i k f).restore = v.restore := rfl
@[simp] theorem setJob_handling (v : Wave) (i k : Nat) (f : Job → Job) : (v.setJob i k f).handling = v.handling := rfl
@[simp] theorem setJob_subw (v : Wave) (i k : Nat) (f : Job → Job) : (v.setJob i k f).subw = v.subw := rfl
@[simp] theorem setJob_retm (v : Wave) (i k : Nat) (f : Job → Job) : (v.setJob i k f).retm = v.retm := rfl
@[simp] theorem setJob_save (v : Wave) (i k : Nat) (f : Job → Job) : (v.setJob i k f).save = v.save := rfl
@[simp] theorem setJob_parkq (v : Wave) (i k : Nat) (f : Job → Job) : (v.setJob i k f).parkq = v.parkq := rfl
@[simp] theorem setJob_defer (v : Wave) (i k : Nat) (f : Job → Job) : (v.setJob i k f).defer = v.defer := rfl
@[simp] theorem setJob_handler (v : Wave) (i k : Nat) (f : Job → Job) : (v.setJob i k f).handler = v.handler := rfl
@[simp] theorem setJob_prog (v : Wave) (i k : Nat) (f : Job → Job) : (v.setJob i k f).prog = v.prog := rfl
@[simp] theorem setJob_abort (v : Wave) (i k : Nat) (f : Job → Job) : (v.setJob i k f).abort = v.abort := rfl
@[simp] theorem setJob_hwm (v : Wave) (i k : Nat) (f : Job → Job) : (v.setJob i k f).hwm = v.hwm := rfl
@[simp] theorem setJob_watch (v : Wave) (i k : Nat) (f : Job → Job) : (v.setJob i k f).watch = v.watch := rfl
@[simp] theorem setJob_mxs (v : Wave) (i k : Nat) (f : Job → Job) : (v.setJob i k f).mxs = v.mxs := rfl
@[simp] theorem setJob_quantum (v : Wave) (i k : Nat) (f : Job → Job) : (v.setJob i k f).quantum = v.quantum := rfl
@[simp] theorem setJob_sq (v : Wave) (i k : Nat) (f : Job → Job) : (v.setJob i k f).sq = v.sq := rfl
@[simp] theorem setJob_kettle (v : Wave) (i k : Nat) (f : Job → Job) : (v.setJob i k f).kettle = v.kettle := rfl
@[simp] theorem setJob_kill (v : Wave) (i k : Nat) (f : Job → Job) : (v.setJob i k f).kill = v.kill := rfl
@[simp] theorem setJob_killEsc (v : Wave) (i k : Nat) (f : Job → Job) : (v.setJob i k f).killEsc = v.killEsc := rfl
@[simp] theorem setJob_preempt (v : Wave) (i k : Nat) (f : Job → Job) : (v.setJob i k f).preempt = v.preempt := rfl
@[simp] theorem setJob_engine (v : Wave) (i k : Nat) (f : Job → Job) : (v.setJob i k f).engine = v.engine := rfl
@[simp] theorem setJob_acqAt (v : Wave) (i k : Nat) (f : Job → Job) : (v.setJob i k f).acqAt = v.acqAt := rfl
@[simp] theorem setJob_priv (v : Wave) (i k : Nat) (f : Job → Job) : (v.setJob i k f).priv = v.priv := rfl
@[simp] theorem setJob_retired (v : Wave) (i k : Nat) (f : Job → Job) : (v.setJob i k f).retired = v.retired := rfl
@[simp] theorem setJob_freed (v : Wave) (i k : Nat) (f : Job → Job) : (v.setJob i k f).freed = v.freed := rfl
@[simp] theorem setJob_wsoft (v : Wave) (i k : Nat) (f : Job → Job) : (v.setJob i k f).wsoft = v.wsoft := rfl
@[simp] theorem setJob_stuck (v : Wave) (i k : Nat) (f : Job → Job) : (v.setJob i k f).stuck = v.stuck := rfl
@[simp] theorem setTags_uid (v : Wave) (n : Nat) (t : Ety) (k : Nat) : (v.setTags n t k).uid = v.uid := rfl
@[simp] theorem setTags_team (v : Wave) (n : Nat) (t : Ety) (k : Nat) : (v.setTags n t k).team = v.team := rfl
@[simp] theorem setTags_num (v : Wave) (n : Nat) (t : Ety) (k : Nat) : (v.setTags n t k).num = v.num := rfl
@[simp] theorem setTags_core (v : Wave) (n : Nat) (t : Ety) (k : Nat) : (v.setTags n t k).core = v.core := rfl
@[simp] theorem setTags_quad (v : Wave) (n : Nat) (t : Ety) (k : Nat) : (v.setTags n t k).quad = v.quad := rfl
@[simp] theorem setTags_lane (v : Wave) (n : Nat) (t : Ety) (k : Nat) : (v.setTags n t k).lane = v.lane := rfl
@[simp] theorem setTags_width (v : Wave) (n : Nat) (t : Ety) (k : Nat) : (v.setTags n t k).width = v.width := rfl
@[simp] theorem setTags_base (v : Wave) (n : Nat) (t : Ety) (k : Nat) : (v.setTags n t k).base = v.base := rfl
@[simp] theorem setTags_ext (v : Wave) (n : Nat) (t : Ety) (k : Nat) : (v.setTags n t k).ext = v.ext := rfl
@[simp] theorem setTags_code (v : Wave) (n : Nat) (t : Ety) (k : Nat) : (v.setTags n t k).code = v.code := rfl
@[simp] theorem setTags_threads (v : Wave) (n : Nat) (t : Ety) (k : Nat) : (v.setTags n t k).threads = v.threads := rfl
@[simp] theorem setTags_w (v : Wave) (n : Nat) (t : Ety) (k : Nat) : (v.setTags n t k).w = v.w := rfl
@[simp] theorem setTags_q (v : Wave) (n : Nat) (t : Ety) (k : Nat) : (v.setTags n t k).q = v.q := rfl
@[simp] theorem setTags_joins (v : Wave) (n : Nat) (t : Ety) (k : Nat) : (v.setTags n t k).joins = v.joins := rfl
@[simp] theorem setTags_winFirst (v : Wave) (n : Nat) (t : Ety) (k : Nat) : (v.setTags n t k).winFirst = v.winFirst := rfl
@[simp] theorem setTags_winLen (v : Wave) (n : Nat) (t : Ety) (k : Nat) : (v.setTags n t k).winLen = v.winLen := rfl
@[simp] theorem setTags_winhit (v : Wave) (n : Nat) (t : Ety) (k : Nat) : (v.setTags n t k).winhit = v.winhit := rfl
@[simp] theorem setTags_cnt (v : Wave) (n : Nat) (t : Ety) (k : Nat) : (v.setTags n t k).cnt = v.cnt := rfl
@[simp] theorem setTags_fpctl (v : Wave) (n : Nat) (t : Ety) (k : Nat) : (v.setTags n t k).fpctl = v.fpctl := rfl
@[simp] theorem setTags_fpstat (v : Wave) (n : Nat) (t : Ety) (k : Nat) : (v.setTags n t k).fpstat = v.fpstat := rfl
@[simp] theorem setTags_cause (v : Wave) (n : Nat) (t : Ety) (k : Nat) : (v.setTags n t k).cause = v.cause := rfl
@[simp] theorem setTags_epc (v : Wave) (n : Nat) (t : Ety) (k : Nat) : (v.setTags n t k).epc = v.epc := rfl
@[simp] theorem setTags_entry (v : Wave) (n : Nat) (t : Ety) (k : Nat) : (v.setTags n t k).entry = v.entry := rfl
@[simp] theorem setTags_repeatB (v : Wave) (n : Nat) (t : Ety) (k : Nat) : (v.setTags n t k).repeatB = v.repeatB := rfl
@[simp] theorem setTags_restore (v : Wave) (n : Nat) (t : Ety) (k : Nat) : (v.setTags n t k).restore = v.restore := rfl
@[simp] theorem setTags_handling (v : Wave) (n : Nat) (t : Ety) (k : Nat) : (v.setTags n t k).handling = v.handling := rfl
@[simp] theorem setTags_subw (v : Wave) (n : Nat) (t : Ety) (k : Nat) : (v.setTags n t k).subw = v.subw := rfl
@[simp] theorem setTags_retm (v : Wave) (n : Nat) (t : Ety) (k : Nat) : (v.setTags n t k).retm = v.retm := rfl
@[simp] theorem setTags_save (v : Wave) (n : Nat) (t : Ety) (k : Nat) : (v.setTags n t k).save = v.save := rfl
@[simp] theorem setTags_parkq (v : Wave) (n : Nat) (t : Ety) (k : Nat) : (v.setTags n t k).parkq = v.parkq := rfl
@[simp] theorem setTags_defer (v : Wave) (n : Nat) (t : Ety) (k : Nat) : (v.setTags n t k).defer = v.defer := rfl
@[simp] theorem setTags_handler (v : Wave) (n : Nat) (t : Ety) (k : Nat) : (v.setTags n t k).handler = v.handler := rfl
@[simp] theorem setTags_prog (v : Wave) (n : Nat) (t : Ety) (k : Nat) : (v.setTags n t k).prog = v.prog := rfl
@[simp] theorem setTags_abort (v : Wave) (n : Nat) (t : Ety) (k : Nat) : (v.setTags n t k).abort = v.abort := rfl
@[simp] theorem setTags_hwm (v : Wave) (n : Nat) (t : Ety) (k : Nat) : (v.setTags n t k).hwm = v.hwm := rfl
@[simp] theorem setTags_watch (v : Wave) (n : Nat) (t : Ety) (k : Nat) : (v.setTags n t k).watch = v.watch := rfl
@[simp] theorem setTags_mxs (v : Wave) (n : Nat) (t : Ety) (k : Nat) : (v.setTags n t k).mxs = v.mxs := rfl
@[simp] theorem setTags_quantum (v : Wave) (n : Nat) (t : Ety) (k : Nat) : (v.setTags n t k).quantum = v.quantum := rfl
@[simp] theorem setTags_sq (v : Wave) (n : Nat) (t : Ety) (k : Nat) : (v.setTags n t k).sq = v.sq := rfl
@[simp] theorem setTags_flights (v : Wave) (n : Nat) (t : Ety) (k : Nat) : (v.setTags n t k).flights = v.flights := rfl
@[simp] theorem setTags_kettle (v : Wave) (n : Nat) (t : Ety) (k : Nat) : (v.setTags n t k).kettle = v.kettle := rfl
@[simp] theorem setTags_kill (v : Wave) (n : Nat) (t : Ety) (k : Nat) : (v.setTags n t k).kill = v.kill := rfl
@[simp] theorem setTags_killEsc (v : Wave) (n : Nat) (t : Ety) (k : Nat) : (v.setTags n t k).killEsc = v.killEsc := rfl
@[simp] theorem setTags_preempt (v : Wave) (n : Nat) (t : Ety) (k : Nat) : (v.setTags n t k).preempt = v.preempt := rfl
@[simp] theorem setTags_engine (v : Wave) (n : Nat) (t : Ety) (k : Nat) : (v.setTags n t k).engine = v.engine := rfl
@[simp] theorem setTags_acqAt (v : Wave) (n : Nat) (t : Ety) (k : Nat) : (v.setTags n t k).acqAt = v.acqAt := rfl
@[simp] theorem setTags_priv (v : Wave) (n : Nat) (t : Ety) (k : Nat) : (v.setTags n t k).priv = v.priv := rfl
@[simp] theorem setTags_retired (v : Wave) (n : Nat) (t : Ety) (k : Nat) : (v.setTags n t k).retired = v.retired := rfl
@[simp] theorem setTags_freed (v : Wave) (n : Nat) (t : Ety) (k : Nat) : (v.setTags n t k).freed = v.freed := rfl
@[simp] theorem setTags_wsoft (v : Wave) (n : Nat) (t : Ety) (k : Nat) : (v.setTags n t k).wsoft = v.wsoft := rfl
@[simp] theorem setTags_stuck (v : Wave) (n : Nat) (t : Ety) (k : Nat) : (v.setTags n t k).stuck = v.stuck := rfl

end Wave

end Sys2Proof.Machine
end

