-- ==== Sys2Proof/Laws/Course.lean ====
section
/-!
SUPPORT. The common course of one word, said once: when nothing holds it up, `issueFull` is its body
followed by `settleShare`, and without a cause that is the body with the PCs moved on.
-/
namespace Sys2Proof.Machine

@[simp] theorem maskOf_nil : maskOf [] = 0 := rfl

@[simp] theorem and_not_zero (m : Mask) : m &&& ~~~ (0 : Mask) = m := by
  have : ~~~ (0 : Mask) = BitVec.allOnes 64 := rfl
  rw [this, BitVec.and_allOnes]

/-- A share's wave is the wave it names. -/
theorem Group.uid {s : State} {i : Issue} {ps : List Share} (G : Group s i ps) {p : Share} (hp : p ∈ ps) :
    p.rd.uid = p.u := by
  obtain ⟨v, hv, -, -, h⟩ := G.found p hp
  rw [h]
  cases e : i.snap.find? (·.uid == p.u) with
  | none => unfold State.wave? at hv; simpa using List.find?_some hv
  | some w => simpa using List.find?_some e

theorem shares_group {s : State} {i : Issue} {ps : List Share} (G : Group s i ps) : shares s i = ps := by
  unfold shares
  rw [G.parts, List.filterMap_map]
  have all : ∀ (qs : List Share) (f : Share → Option Share), (∀ p ∈ qs, f p = some p) → qs.filterMap f = qs := by
    intro qs f
    induction qs with
    | nil => intro _; rfl
    | cons q qs ih =>
      intro h
      rw [List.filterMap_cons, h q (by simp), ih (fun p hp => h p (List.mem_cons_of_mem _ hp))]
  refine all ps _ fun p hp => ?_
  obtain ⟨v, hv, hr, hm, h⟩ := G.found p hp
  have hg : (p.grp == 0) = false := by simpa using G.lanes p hp
  have hx : (if i.inTx then p.grp &&& v.members else p.grp) = p.grp := by
    split
    · rename_i h; exact hm h
    · rfl
  simp only [Function.comp_apply, hv, hx, hr, hg, Bool.or_self, Bool.false_eq_true, if_false, ← h]

/-- An issue for one wave as the first word of its cycle is a group of one share. -/
theorem Issues.group {s : State} {i : Issue} {w : Wave} {g : Mask} (A : Issues s i w g) : Group s i [⟨w.uid, w, g⟩] where
  cur := A.cur
  parts := A.parts
  found p hp := by
    obtain rfl := List.mem_singleton.1 hp
    exact ⟨w, A.found, A.live, A.member, by rw [A.first]; rfl⟩
  apart := by simp
  lanes p hp := by obtain rfl := List.mem_singleton.1 hp; exact A.lanes
  late := A.late
  whole := A.whole
  steady p hp := by obtain rfl := List.mem_singleton.1 hp; exact A.steady
  firm p hp := by obtain rfl := List.mem_singleton.1 hp; exact A.firm
  sound := A.sound

theorem shares_alone {s : State} {i : Issue} {w : Wave} {g : Mask} (A : Issues s i w g) :
    shares s i = [⟨w.uid, w, g⟩] := shares_group A.group

/-- The window count of R71 at issue. -/
def countHits (m : Sem) (s : State) (w : Wave) (g : Mask) : State :=
  let hits := windowHits w ((lanesOf (m.active w g)).map (fun l => m.live s w l))
  if hits = 0 then s else s.mapWave w.uid (fun v => { v with winhit := v.winhit + BitVec.ofNat 64 hits })

/-- Operands that wait for nothing do so in part, too. -/
theorem waitsFor_filter {w : Wave} {os : List Opnd} (p : Opnd → Bool) (h : waitsFor w os = []) :
    waitsFor w (os.filter p) = [] := by
  unfold waitsFor at *
  rw [List.flatten_eq_nil_iff] at *
  intro x hx
  obtain ⟨o, ho, rfl⟩ := List.mem_map.1 hx
  exact h _ (List.mem_map.2 ⟨o, (List.mem_filter.1 ho).1, rfl⟩)

/-- A lane that waits for nothing waits for no partner either. -/
theorem partnersFor_nil {w : Wave} {os : List Opnd} (h : waitsFor w os = []) : partnersFor w os = [] :=
  waitsFor_filter _ h

/-- Where no P or X register holds a soft error, a thread has no mark of one. -/
theorem thread_firm {w : Wave} (h : ∀ t ∈ w.threads, ∀ n ∈ t.soft, n < 16384) (l : Nat) :
    ∀ n ∈ (w.thread l).soft, n < 16384 := by
  unfold Wave.thread
  rw [List.getD_eq_getElem?_getD]
  cases e : w.threads[l]? with
  | none => intro n hn; cases hn
  | some t => exact h t (List.mem_of_getElem? e)

/-- Without a soft error in a W, Q, P or X register, a lane's cause is that of its V operands. -/
theorem laneTrap_steady {w : Wave} (h : w.wsoft = []) (hf : ∀ t ∈ w.threads, ∀ n ∈ t.soft, n < 16384) (ws : List Nat)
    (l : Nat) (os : List Opnd) : laneTrap ws w l os = operandTrap w l os := by
  have none : ws.find? (w.softReg l) = none := by
    refine List.find?_eq_none.2 fun r _ => ?_
    unfold Wave.softReg
    split
    · simp [h]
    · rename_i hr
      simp only [List.contains_iff_mem]
      exact fun hm => hr (thread_firm hf l r hm)
  unfold laneTrap
  rw [none]
  cases operandTrap w l os <;> rfl

/-- What stands in the way of a word: nothing. -/
structure Clear (m : Sem) (s : State) (i : Issue) (w : Wave) (g : Mask) : Prop where
  legal : m.legal s w i.hm = true
  forbid : i.inTx = true → m.forbid w = true → m.active w g = 0
  hold  : m.hold s w (m.active w g) = false
  tile  : m.active w g = 0 ∨ m.tile s w (m.active w g) = none
  full  : ∀ l ∈ lanesOf (m.active w g), waitsFor w (m.live s w l) = []
  sound : ∀ l ∈ lanesOf (m.active w g), operandTrap w l (m.live s w l) = none
  tags  : firstFormat (m.formats s w g (m.active w g)) = none

/-- Without an earlier cause no ILLEGAL of a W value is looked for. -/
theorem worseIllegal_nil (m : Sem) (s : State) (c : Ctx) : m.worseIllegal s c [] = [] := by
  unfold Sem.worseIllegal; simp

/-- A share that nothing holds up stands ready. -/
def Sem.clearReady (m : Sem) (p : Share) : Ready := ⟨[], false, none, m.active p.rd p.grp, []⟩

theorem ready_clear {m : Sem} {s : State} {i : Issue} {p : Share} (C : Clear m s i p.rd p.grp) :
    m.ready s p = m.clearReady p := by
  have hfull : ((lanesOf (m.active p.rd p.grp)).map (fun l => (l, waitsFor p.rd (m.live s p.rd l)))).filter
      (fun x => !x.2.isEmpty) = [] := by
    rw [List.filter_eq_nil_iff]
    intro x hx
    obtain ⟨l, hl, rfl⟩ := List.mem_map.1 hx
    simp [C.full l hl]
  have none (q : Opnd → Bool) : ((lanesOf (m.active p.rd p.grp)).map (fun l =>
      waitsFor p.rd ((m.live s p.rd l).filter q))).flatten.eraseDups = [] := by
    have : ((lanesOf (m.active p.rd p.grp)).map (fun l => waitsFor p.rd ((m.live s p.rd l).filter q))).flatten = [] := by
      rw [List.flatten_eq_nil_iff]
      intro x hx
      obtain ⟨l, hl, rfl⟩ := List.mem_map.1 hx
      exact waitsFor_filter _ (C.full l hl)
    rw [this]; rfl
  have htile : (if m.active p.rd p.grp == 0 then Option.none else m.tile s p.rd (m.active p.rd p.grp)) = Option.none := by
    rcases C.tile with h | h
    · simp [h]
    · split
      · rfl
      · exact h
  unfold Sem.ready Sem.clearReady partnersFor
  simp only [hfull, none, List.isEmpty_nil, if_true]
  simp only [List.filter_nil, List.map_nil, maskOf_nil, List.any_nil, and_not_zero]
  rw [htile]
  rfl

theorem readyAll_clear {m : Sem} {s : State} {i : Issue} {ps : List Share} (C : ∀ p ∈ ps, Clear m s i p.rd p.grp) :
    m.readyAll s ps = ps.map (fun p => (p, m.clearReady p)) := by
  have h : ps.map (fun p => (p, m.ready s p)) = ps.map (fun p => (p, m.clearReady p)) :=
    List.map_congr_left (fun p hp => by rw [ready_clear (C p hp)])
  have hn : (ps.map (fun p => (p, m.clearReady p))).find? (fun x => !x.2.away.isEmpty) = none := by
    rw [List.find?_eq_none]
    intro x hx
    obtain ⟨p, -, rfl⟩ := List.mem_map.1 hx
    simp [Sem.clearReady]
  unfold Sem.readyAll
  simp only [h, hn]

theorem firstFormat_nil : firstFormat [] = none := rfl

/-- A list with an entry has a first one. -/
theorem firstFormat_none {l : List (Nat × DWord)} (h : firstFormat l = none) : l = [] := by
  have some : ∀ (l : List (Nat × DWord)) (b : Nat × DWord), ∃ c, l.foldl (fun (b : Option (Nat × DWord)) p =>
      match b with | none => some p | some q => if p.1 < q.1 then some p else some q) (some b) = some c := by
    intro l
    induction l with
    | nil => intro b; exact ⟨b, rfl⟩
    | cons x l ih =>
      intro b
      rw [List.foldl_cons]
      by_cases h : x.1 < b.1
      · simp only [h, if_true]; exact ih x
      · simp only [h, if_false]; exact ih b
  cases l with
  | nil => rfl
  | cons x l =>
    obtain ⟨c, hc⟩ := some l x
    have : firstFormat (x :: l) = Option.some c.2 :=
      congrArg (fun y : Option (Nat × DWord) => match y with | Option.some p => Option.some p.2 | none => none) hc
    rw [this] at h
    cases h

/-- A word that nothing holds up runs each share of its group. -/
theorem issueFull_group {m : Sem} {s : State} {i : Issue} {ps : List Share} (G : Group s i ps)
    (C : ∀ p ∈ ps, Clear m s i p.rd p.grp) :
    issueFull m s = ps.foldl (fun s p => runShare m i none s p (m.clearReady p)) s := by
  have hleg : ps.any (fun p => !m.legal s p.rd i.hm) = false := by
    rw [List.any_eq_false]; intro p hp; simp [(C p hp).legal]
  have hhold : ps.any (fun p => m.hold s p.rd (m.active p.rd p.grp)) = false := by
    rw [List.any_eq_false]; intro p hp; simp [(C p hp).hold]
  have hj : (ps.map (fun p => (p, m.clearReady p))).map (fun x => (x.1, x.2.judged i)) =
      ps.map (fun p => (p, m.clearReady p)) := by
    rw [List.map_map]
    refine List.map_congr_left fun p _ => ?_
    simp [Ready.judged, Sem.clearReady]
  have hleave : ∀ (ps : List Share) (s : State), (ps.map (fun p => (p, m.clearReady p))).foldl
      (fun s x => leaveWaiters s x.1 x.2) s = s := by
    intro ps
    induction ps with
    | nil => intro s; rfl
    | cons p ps ih => intro s; rw [List.map_cons, List.foldl_cons]; exact ih s
  have hstall : (ps.map (fun p => (p, m.clearReady p))).any (fun x => x.2.stall) = false := by
    rw [List.any_eq_false]
    intro x hx
    obtain ⟨p, -, rfl⟩ := List.mem_map.1 hx
    simp [Sem.clearReady]
  have hbad : ((ps.map (fun p => (p, m.clearReady p))).map (fun x =>
      if x.2.left x.1 == 0 then [] else m.formats s x.1.rd x.1.grp x.2.act)).flatten = [] := by
    rw [List.flatten_eq_nil_iff]
    intro l hl
    simp only [List.map_map, List.mem_map] at hl
    obtain ⟨p, hp, rfl⟩ := hl
    simp only [Function.comp_apply]
    split
    · rfl
    · exact firstFormat_none (C p hp).tags
  unfold issueFull
  rw [G.cur]
  simp only [shares_group G, hleg, hhold, Bool.and_false, Bool.false_eq_true, if_false, readyAll_clear C, hj, hleave, hstall,
    hbad, firstFormat_nil]
  rw [List.foldl_map]

/-- What stands in the way of one share, at a state that other shares of its group have left. -/
structure Free (m : Sem) (s : State) (i : Issue) (p : Share) : Prop where
  forbid : i.inTx = true → m.forbid p.rd = true → m.active p.rd p.grp = 0
  sound  : ∀ l ∈ lanesOf (m.active p.rd p.grp), operandTrap p.rd l (m.live s p.rd l) = none
  lanes  : p.grp ≠ 0
  steady : p.rd.wsoft = []
  firm   : ∀ t ∈ p.rd.threads, ∀ n ∈ t.soft, n < 16384
  uid    : p.rd.uid = p.u

theorem runShare_free {m : Sem} {s : State} {i : Issue} {p : Share} (C : Free m s i p) :
    runShare m i none s p (m.clearReady p) = settleShare i m p.u p.rd p.grp []
      (if m.active p.rd p.grp == 0 then { st := countHits m s p.rd p.grp }
       else m.body (countHits m s p.rd p.grp) (shareCtx s i m.grd p)) := by
  have hearly : ((lanesOf (m.active p.rd p.grp)).map (fun l => (l, m.live s p.rd l))).filterMap
      (fun x => laneTrap m.wsrc p.rd x.1 x.2) = [] := by
    rw [List.filterMap_eq_nil_iff]
    intro x hx
    obtain ⟨l, hl, rfl⟩ := List.mem_map.1 hx
    rw [laneTrap_steady C.steady C.firm]
    exact C.sound l hl
  have hg : (p.grp == 0) = false := by simpa using C.lanes
  have hhit : ∀ l ∈ lanesOf (m.active p.rd p.grp), (m.active p.rd p.grp).getLsbD l = true := by
    intro l hl; exact (List.mem_filter.1 hl).2
  have hops : (((lanesOf (m.active p.rd p.grp)).map (fun l => (l, m.live s p.rd l))).filter
      (fun x => (m.active p.rd p.grp).getLsbD x.1)).map (·.2) = (lanesOf (m.active p.rd p.grp)).map (fun l => m.live s p.rd l) := by
    rw [List.filter_eq_self.2 (by intro x hx; obtain ⟨l, hl, rfl⟩ := List.mem_map.1 hx; exact hhit l hl)]
    simp [List.map_map, Function.comp_def]
  have hfb : (i.inTx && m.forbid p.rd && m.active p.rd p.grp != 0) = false := by
    cases hi : i.inTx with
    | false => rfl
    | true =>
      cases hf : m.forbid p.rd with
      | false => rfl
      | true => simp [C.forbid hi hf]
  have hteam : (countHits m s p.rd p.grp).team? p.rd.team = s.team? p.rd.team := by
    unfold countHits
    simp only
    split <;> rfl
  unfold runShare Sem.clearReady
  simp only [Ready.left, List.map_nil, maskOf_nil, and_not_zero, Option.isSome_none, Bool.false_eq_true, if_false, hg,
    hearly, hops, hfb]
  unfold countHits shareCtx at *
  simp only [C.uid] at *
  simp only [hteam, worseIllegal_nil, List.append_nil]
  split <;> rfl

/-- A word that nothing holds up and that issues for one wave is its body. -/
theorem issueFull_clear {m : Sem} {s : State} {i : Issue} {w : Wave} {g : Mask} (A : Issues s i w g)
    (C : Clear m s i w g) :
    issueFull m s = settleShare i m w.uid w g []
      (if m.active w g == 0 then { st := countHits m s w g }
       else m.body (countHits m s w g) (soloCtx s i m.grd w g)) := by
  rw [issueFull_group A.group (fun p hp => by obtain rfl := List.mem_singleton.1 hp; exact C)]
  exact runShare_free (p := ⟨w.uid, w, g⟩) ⟨C.forbid, C.sound, A.lanes, A.steady, A.firm, rfl⟩

/-! ## The end of a share without a cause -/

/-- Where a lane goes on. -/
def nextPc (i : Issue) (go : List (Nat × Word)) (l : Nat) : Word :=
  match go.find? (·.1 == l) with | some p => p.2 | none => pcNext i.key.pc

theorem fpxTraps_nil (x : BitVec 5) (fs : List (Nat × BitVec 5)) (h : ∀ p ∈ fs, p.2 &&& x = 0) :
    fpxTraps x fs = [] := by
  have : fs.filter (fun p => p.2 &&& x != 0) = [] := by
    rw [List.filter_eq_nil_iff]; intro p hp; simp [h p hp]
  unfold fpxTraps
  simp only [this, List.map_nil]

theorem takeTraps_nil (s : State) (u : Nat) (pc : Word) : takeTraps s u pc [] = s := by
  unfold takeTraps; split <;> rfl

/-- A word without a cause in the first word of a cycle has no effect after its own. -/
theorem takeInOrder_nil (s : State) (qn u : Nat) (pc : Word) : takeInOrder s qn [] ⟨u, pc, [], none⟩ = s := by
  show takeTraps s u pc [] = s
  exact takeTraps_nil ..

theorem settleShare_done (i : Issue) (m : Sem) (u : Nat) (rd : Wave) (g : Mask) (r : Res)
    (hl : i.late = []) (ht : r.traps = []) (ha : r.abort = none) (hf : m.fpx = true → ∀ p ∈ r.flags, p.2 &&& rd.fxe = 0) :
    settleShare i m u rd g [] r =
      (raiseFlags r.st u (i.core * 4 + i.quad) r.flags).mapWave u (fun w =>
        w.advance i.hm (g &&& ~~~ r.stay) i.key.pc (nextPc i r.go)) := by
  have hx : (if m.fpx then fpxTraps rd.fxe r.flags else []) = [] := by
    split
    · rename_i h; exact fpxTraps_nil _ _ (hf h)
    · rfl
  unfold settleShare
  simp only [ht, ha, hx, hl, List.append_nil, oneEach, List.filter_nil, List.map_nil, maskOf_nil, and_not_zero,
    takeInOrder_nil]
  rfl

/-! ## Lane by lane -/

theorem mem_lanesOf (m : Mask) (l : Nat) : l ∈ lanesOf m ↔ m.getLsbD l = true := by
  simp only [lanesOf, List.mem_filter, List.mem_range, and_iff_right_iff_imp]
  intro h
  exact BitVec.lt_of_getLsbD h

theorem lanesOf_zero : lanesOf 0 = [] := rfl

theorem lanesOf_nodup (m : Mask) : (lanesOf m).Nodup := List.nodup_range.filter _

/-- A function of the index that answers the element leaves a list as it is. -/
theorem mapIdx_self {α : Type} (l : List α) (f : Nat → α → α) (h : ∀ i a, f i a = a) : l.mapIdx f = l := by
  apply List.ext_getElem
  · simp
  · intro i h1 h2; simp [h]

theorem mapIdx_mapIdx {α : Type} (l : List α) (f g : Nat → α → α) :
    (l.mapIdx f).mapIdx g = l.mapIdx (fun i a => g i (f i a)) := by
  apply List.ext_getElem <;> simp

theorem mapIdx_congr {α : Type} (l : List α) (f g : Nat → α → α) (h : ∀ i a, f i a = g i a) :
    l.mapIdx f = l.mapIdx g := by
  apply List.ext_getElem
  · simp
  · intro i h1 h2; simp [h]

/-- The writes of one lane on its thread. -/
theorem putV_lane (l : Nat) (vw : List (Nat × List Word × Ety)) : ∀ v : Wave,
    putV v (vw.map (fun x => ⟨l, x.1, x.2.1, x.2.2⟩)) =
      { v with
        threads := v.threads.mapIdx (fun j t => if j = l then vw.foldl (fun t x => t.setRegs x.1 x.2.1) t else t)
        tags := vw.foldl (fun m x => tagRun m x.1 x.2.2 x.2.1.length) v.tags } := by
  induction vw with
  | nil =>
    intro v
    show v = _
    simp only [List.foldl_nil, ite_self, mapIdx_self v.threads (fun _ t => t) (fun _ _ => rfl)]
  | cons x vw ih =>
    intro v
    have e : putV v ((x :: vw).map (fun x => ⟨l, x.1, x.2.1, x.2.2⟩)) =
        putV ((v.mapThread l (fun t => t.setRegs x.1 x.2.1)).setTags x.1 x.2.2 x.2.1.length)
          (vw.map (fun x => ⟨l, x.1, x.2.1, x.2.2⟩)) := rfl
    rw [e, ih]
    simp only [Wave.setTags, Wave.mapThread, List.foldl_cons, mapIdx_mapIdx]
    congr 1
    apply mapIdx_congr
    intro i a
    split <;> rfl

theorem putV_append (v : Wave) (a b : List VWrite) : putV v (a ++ b) = putV (putV v a) b := by
  simp [putV, List.foldl_append]

/-- The writes of several lanes, each lane once. -/
theorem putV_lanes (out : Nat → LaneOut) (ls : List Nat) : ls.Nodup → ∀ v : Wave,
    putV v (ls.map (fun l => (out l).vw.map (fun x => (⟨l, x.1, x.2.1, x.2.2⟩ : VWrite)))).flatten =
      { v with
        threads := v.threads.mapIdx (fun j t =>
          if j ∈ ls then (out j).vw.foldl (fun t x => t.setRegs x.1 x.2.1) t else t)
        tags := (ls.map (fun l => (out l).vw)).flatten.foldl (fun m x => tagRun m x.1 x.2.2 x.2.1.length) v.tags } := by
  induction ls with
  | nil =>
    intro _ v
    show v = _
    simp only [List.not_mem_nil, if_false, List.map_nil, List.flatten_nil, List.foldl_nil,
      mapIdx_self v.threads (fun _ t => t) (fun _ _ => rfl)]
  | cons l ls ih =>
    intro hn v
    rw [List.nodup_cons] at hn
    simp only [List.map_cons, List.flatten_cons]
    rw [putV_append, putV_lane, ih hn.2]
    simp only [mapIdx_mapIdx, List.foldl_append]
    congr 1
    apply mapIdx_congr
    intro i a
    by_cases h : i = l
    · subst h; simp [hn.1]
    · simp [h]

/-- Predicate and index writes of several lanes, each lane once. -/
theorem putP_lanes (out : Nat → LaneOut) (u : Nat) (ls : List Nat) : ls.Nodup → ∀ s : State,
    ls.foldl (fun s l =>
      if (out l).pw.isEmpty && (out l).xw.isEmpty then s
      else s.mapWave u (fun w => w.mapThread l (out l).put)) s =
    s.mapWave u (fun v => { v with threads := v.threads.mapIdx (fun j t => if j ∈ ls then (out j).put t else t) }) := by
  induction ls with
  | nil =>
    intro _ s
    have : (fun v : Wave => { v with
        threads := v.threads.mapIdx (fun j t => if j ∈ ([] : List Nat) then (out j).put t else t) }) = fun v => v := by
      funext v
      simp only [List.not_mem_nil, if_false, mapIdx_self v.threads (fun _ t => t) (fun _ _ => rfl)]
    rw [this, State.mapWave_id]; rfl
  | cons l ls ih =>
    intro hn s
    rw [List.nodup_cons] at hn
    have h1 : (if (out l).pw.isEmpty && (out l).xw.isEmpty then s
        else s.mapWave u (fun w => w.mapThread l (out l).put)) = s.mapWave u (fun w => w.mapThread l (out l).put) := by
      split
      · rename_i h
        simp only [Bool.and_eq_true, List.isEmpty_iff] at h
        have : (fun w : Wave => w.mapThread l (out l).put) = fun w => w := by
          funext w
          unfold Wave.mapThread
          rw [mapIdx_self w.threads]
          intro i a
          simp [LaneOut.put, h.1, h.2]
        rw [this, State.mapWave_id]
      · rfl
    rw [List.foldl_cons, h1, ih hn.2, State.mapWave_mapWave (hf := by intro w h; exact h)]
    congr 1
    funext v
    simp only [Wave.mapThread, mapIdx_mapIdx]
    congr 1
    apply mapIdx_congr
    intro i a
    by_cases h : i = l
    · subst h; simp [hn.1]
    · simp [h]

/-! ## The lanewise law -/

theorem active_eq (m : Sem) (w : Wave) (g : Mask) : m.active w g = activeLanes m.grd w g := rfl

/-- Operands that are ready leave no FORMAT. -/
theorem formats_nil (m : Sem) (s : State) (w : Wave) (g : Mask) (hm : m.fmt s w (m.active w g) = none)
    (h1 : ∀ o ∈ m.ops s w ((lowest g).getD 0), o.idx = false → o.format w = none)
    (h2 : ∀ l ∈ lanesOf (m.active w g), ∀ o ∈ m.ops s w l, o.idx = true → o.format w = none) :
    m.formats s w g (m.active w g) = [] := by
  unfold Sem.formats
  simp only [hm, List.append_nil]
  refine List.append_eq_nil_iff.2 ⟨?_, ?_⟩
  · rw [List.flatten_eq_nil_iff]
    intro x hx
    obtain ⟨p, hp, rfl⟩ := List.mem_map.1 hx
    have hp := List.mem_filter.1 hp
    have := h1 p.1 (List.fst_mem_of_mem_zipIdx hp.1) (by simpa using hp.2)
    simp [this]
  · rw [List.flatten_eq_nil_iff]
    intro x hx
    obtain ⟨l, hl, rfl⟩ := List.mem_map.1 hx
    rw [List.flatten_eq_nil_iff]
    intro x hx
    obtain ⟨p, hp, rfl⟩ := List.mem_map.1 hx
    have hp := List.mem_filter.1 hp
    have := h2 l hl p.1 (List.fst_mem_of_mem_zipIdx hp.1) (by simpa using hp.2)
    simp [this]

/-- A word with ready operands is clear. -/
theorem clear_of_ready {m : Sem} {s : State} {i : Issue} {w : Wave} {g : Mask} {ops : Wave → Nat → List Opnd}
    (hops : ∀ l, m.ops s w l = ops w l)
    (R : OpsReady m.grd ops w g) (hlegal : m.legal s w i.hm = true)
    (hforbid : i.inTx = true → m.forbid w = false) (hhold : m.hold s w (m.active w g) = false)
    (htile : m.active w g = 0 ∨ m.tile s w (m.active w g) = none) (hfmt : m.fmt s w (m.active w g) = none) :
    Clear m s i w g := by
  have hl : ∀ l, m.live s w l = liveOps (ops w l) (w.thread l) := by
    intro l; unfold Sem.live liveOps; rw [hops]
  refine ⟨hlegal, fun h h' => (by rw [hforbid h] at h'; cases h'), hhold, htile, ?_, ?_, ?_⟩
  · intro l h; rw [hl]; exact R.full l h
  · intro l h; rw [hl]; exact R.sound l h
  · rw [formats_nil m s w g hfmt]
    · rfl
    · intro o ho; rw [hops] at ho; exact R.tags o ho
    · intro l h o ho; rw [hops] at ho; exact R.named l h o ho

/-- What a lanewise body writes through `writeV`, when no lane raises a cause. -/
theorem laneOuts_written (o : Ctx → Nat → Thread → LaneOut) (c : Ctx) :
    ((c.lanes.map (fun l => (o c l (c.rd.thread l)).vw.map (fun x => (⟨l, x.1, x.2.1, x.2.2⟩ : VWrite)))).flatten.map
      (fun x => rangeFrom x.reg x.ws.length)).flatten = writtenBy c.act (fun l => o c l (c.rd.thread l)) := by
  unfold writtenBy Ctx.lanes
  congr 1
  generalize lanesOf c.act = ls
  induction ls with
  | nil => rfl
  | cons l ls ih =>
    simp only [List.map_cons, List.flatten_cons, List.map_append, ih, List.map_map, Function.comp_def]

/-- The state in which a lanewise body writes: in a transaction the registers are logged first (R363). -/
def laneBase (o : Ctx → Nat → Thread → LaneOut) (s : State) (c : Ctx) : State × Bool :=
  if c.tx then logRegs s c.u (writtenBy c.act (fun l => o c l (c.rd.thread l))) else (s, true)

/-- The body of a lanewise instruction, when no lane raises a cause and the register log has room. -/
theorem lanewise_done (o : Ctx → Nat → Thread → LaneOut) (s b : State) (c : Ctx) (hb : laneBase o s c = (b, true))
    (htr : ∀ l ∈ c.lanes, (o c l (c.rd.thread l)).trap = none) :
    lanewise o s c =
      { st := b.mapWave c.u (fun v => { v with
          threads := v.threads.mapIdx (fun j t => if c.act.getLsbD j then (o c j (c.rd.thread j)).done t else t)
          tags := tagsAfter c.act (fun l => o c l (c.rd.thread l)) v.tags })
        traps := [], stay := 0, abort := none,
        go := c.lanes.filterMap (fun l => (o c l (c.rd.thread l)).go.map (fun x => (l, x)))
        flags := c.lanes.map (fun l => (l, (o c l (c.rd.thread l)).flags)) } := by
  have htraps : (laneOuts c o).filterMap (fun p => p.2.trap.map (fun t => (⟨p.1, t.1, t.2, 0⟩ : Trap))) = [] := by
    rw [List.filterMap_eq_nil_iff]
    intro p hp
    obtain ⟨l, hl, rfl⟩ := List.mem_map.1 hp
    simp [htr l hl]
  have hgood : (laneOuts c o).filter (fun p => p.2.trap.isNone) = laneOuts c o := by
    rw [List.filter_eq_self]
    intro p hp
    obtain ⟨l, hl, rfl⟩ := List.mem_map.1 hp
    simp [htr l hl]
  have hv : (laneOuts c o).map (fun p => p.2.vw.map (fun v => (⟨p.1, v.1, v.2.1, v.2.2⟩ : VWrite))) =
      c.lanes.map (fun l => (o c l (c.rd.thread l)).vw.map (fun x => (⟨l, x.1, x.2.1, x.2.2⟩ : VWrite))) := by
    simp [laneOuts, List.map_map, Function.comp_def]
  have hp : ∀ s0 : State, (laneOuts c o).foldl (fun s p =>
      if p.2.pw.isEmpty && p.2.xw.isEmpty then s
      else s.mapWave c.u (fun w => w.mapThread p.1 p.2.put)) s0 =
      s0.mapWave c.u (fun v => { v with
        threads := v.threads.mapIdx (fun j t => if j ∈ c.lanes then (o c j (c.rd.thread j)).put t else t) }) := by
    intro s0
    rw [← putP_lanes (fun l => o c l (c.rd.thread l)) c.u c.lanes (lanesOf_nodup _) s0]
    simp [laneOuts, List.foldl_map]
  have hgo : (laneOuts c o).filterMap (fun p => p.2.go.map (fun x => (p.1, x))) =
      c.lanes.filterMap (fun l => (o c l (c.rd.thread l)).go.map (fun x => (l, x))) := by
    simp [laneOuts, List.filterMap_map, Function.comp_def]
  have hfl : (laneOuts c o).map (fun p => (p.1, p.2.flags)) =
      c.lanes.map (fun l => (l, (o c l (c.rd.thread l)).flags)) := by
    simp [laneOuts, List.map_map, Function.comp_def]
  have hw : (if c.tx then logRegs s c.u ((c.lanes.map (fun l => (o c l (c.rd.thread l)).vw.map
      (fun x => (⟨l, x.1, x.2.1, x.2.2⟩ : VWrite)))).flatten.map (fun x => rangeFrom x.reg x.ws.length)).flatten
      else (s, true)) = (b, true) := by
    rw [laneOuts_written]; exact hb
  unfold lanewise
  simp only [htraps, hgood, hv, writeV, hw, Bool.false_eq_true, if_false, if_true, Bool.not_true, hgo, hfl]
  rw [hp, State.mapWave_mapWave (hf := by
    intro w h
    rw [putV_lanes (fun l => o c l (c.rd.thread l)) c.lanes (lanesOf_nodup _)]
    exact h)]
  have he : ∀ v : Wave, { putV v (c.lanes.map (fun l => (o c l (c.rd.thread l)).vw.map
        (fun x => (⟨l, x.1, x.2.1, x.2.2⟩ : VWrite)))).flatten with
        threads := (putV v (c.lanes.map (fun l => (o c l (c.rd.thread l)).vw.map
          (fun x => (⟨l, x.1, x.2.1, x.2.2⟩ : VWrite)))).flatten).threads.mapIdx
            (fun j t => if j ∈ c.lanes then (o c j (c.rd.thread j)).put t else t) } =
      { v with
        threads := v.threads.mapIdx (fun j t => if c.act.getLsbD j then (o c j (c.rd.thread j)).done t else t)
        tags := tagsAfter c.act (fun l => o c l (c.rd.thread l)) v.tags } := by
    intro v
    rw [putV_lanes (fun l => o c l (c.rd.thread l)) c.lanes (lanesOf_nodup _)]
    simp only [mapIdx_mapIdx, tagsAfter]
    congr 1
    apply mapIdx_congr
    intro i a
    have : i ∈ c.lanes ↔ c.act.getLsbD i = true := mem_lanesOf _ _
    by_cases h : c.act.getLsbD i = true
    · simp [this, h, LaneOut.done]
    · simp [this, h]
  simp only [he]

/-- The body of a lanewise instruction of members, when no lane raises a cause and the register log is full (R363). -/
theorem lanewise_full (o : Ctx → Nat → Thread → LaneOut) (s b : State) (c : Ctx) (hb : laneBase o s c = (b, false))
    (htr : ∀ l ∈ c.lanes, (o c l (c.rd.thread l)).trap = none) :
    lanewise o s c = { st := b, abort := some (c.act, 4, 0) } := by
  have htraps : (laneOuts c o).filterMap (fun p => p.2.trap.map (fun t => (⟨p.1, t.1, t.2, 0⟩ : Trap))) = [] := by
    rw [List.filterMap_eq_nil_iff]
    intro p hp
    obtain ⟨l, hl, rfl⟩ := List.mem_map.1 hp
    simp [htr l hl]
  have hgood : (laneOuts c o).filter (fun p => p.2.trap.isNone) = laneOuts c o := by
    rw [List.filter_eq_self]
    intro p hp
    obtain ⟨l, hl, rfl⟩ := List.mem_map.1 hp
    simp [htr l hl]
  have hv : (laneOuts c o).map (fun p => p.2.vw.map (fun v => (⟨p.1, v.1, v.2.1, v.2.2⟩ : VWrite))) =
      c.lanes.map (fun l => (o c l (c.rd.thread l)).vw.map (fun x => (⟨l, x.1, x.2.1, x.2.2⟩ : VWrite))) := by
    simp [laneOuts, List.map_map, Function.comp_def]
  have hw : (if c.tx then logRegs s c.u ((c.lanes.map (fun l => (o c l (c.rd.thread l)).vw.map
      (fun x => (⟨l, x.1, x.2.1, x.2.2⟩ : VWrite)))).flatten.map (fun x => rangeFrom x.reg x.ws.length)).flatten
      else (s, true)) = (b, false) := by
    rw [laneOuts_written]; exact hb
  unfold lanewise
  simp only [htraps, hgood, hv, writeV, hw, Bool.false_eq_true, if_false, if_true, Bool.not_false]
  rfl

/-- The register log does not see the window count (R71, R363). -/
theorem logRegs_winhit (s : State) (u : Nat) (h : BitVec 64) (rs : List Nat) :
    logRegs (s.mapWave u (fun v => { v with winhit := v.winhit + h })) u rs =
      ((logRegs s u rs).1.mapWave u (fun v => { v with winhit := v.winhit + h }), (logRegs s u rs).2) := by
  have hw : (s.mapWave u (fun v => { v with winhit := v.winhit + h })).wave? u =
      (s.wave? u).map (fun v => { v with winhit := v.winhit + h }) := by
    rw [State.mapWave_wave (hf := by intro v h; exact h), if_pos rfl]
  unfold logRegs
  rw [hw]
  cases e : s.wave? u with
  | none => rfl
  | some w =>
    simp only [Option.map_some]
    by_cases hl : w.kettle.log.length + ((rs.filter (fun r => !w.kettle.log.any (·.reg == r))).eraseDups).length > 512
    · simp only [hl, if_true]
    · simp only [hl, if_false]
      split <;>
      · simp only [Prod.mk.injEq, and_true]
        simp only [State.mapWave, List.map_map]
        congr 1
        apply List.map_congr_left
        intro v _
        by_cases hv : v.uid = u
        · simp only [Function.comp_apply, hv, if_true]; exact (if_pos rfl).symm
        · simp only [Function.comp_apply, hv, if_false]

/-- A full log leaves the machine as it was. -/
theorem logRegs_full {s b : State} {u : Nat} {rs : List Nat} (h : logRegs s u rs = (b, false)) : b = s := by
  unfold logRegs at h
  split at h
  · cases h
  · simp only at h
    split at h
    · cases h; rfl
    · cases h

/-! ## Only the issuing wave changes -/

theorem OnlyWaves.refl (s : State) : OnlyWaves s s (fun v => v) := by
  refine ⟨?_, fun _ => rfl⟩
  rw [List.map_id']

theorem OnlyWaves.trans {s t r : State} {F G : Wave → Wave} (h1 : OnlyWaves s t F) (h2 : OnlyWaves t r G) :
    OnlyWaves s r (fun v => G (F v)) := by
  refine ⟨?_, fun n => (h2.2 n).trans (h1.2 n)⟩
  have hw : t.waves = s.waves.map F := by rw [h1.1]
  rw [h2.1, hw, List.map_map]
  rw [h1.1]
  rfl

theorem OnlyWaves.congr {s t : State} {F G : Wave → Wave} (h : OnlyWaves s t F) (e : ∀ v, F v = G v) : OnlyWaves s t G := by
  have : F = G := funext e
  rwa [← this]

theorem OnlyWaves.bad {s t : State} {F : Wave → Wave} (h : OnlyWaves s t F) : t.bad = s.bad := by rw [h.1]

/-- One wave's change among all. -/
theorem OnlyWave.all {s t : State} {u : Nat} {F : Wave → Wave} (h : OnlyWave s t u F) :
    OnlyWaves s t (fun v => if v.uid = u then F v else v) := h

/-- Shares of different waves, one after the other. -/
theorem OnlyWaves.fold (f : State → Share → State) (G : Share → Wave → Wave) (hG : ∀ p v, (G p v).uid = v.uid)
    (ps : List Share) : (ps.map (·.u)).Nodup → ∀ s : State,
    (∀ t F, OnlyWaves s t F → ∀ p ∈ ps, OnlyWave t (f t p) p.u (G p)) →
    OnlyWaves s (ps.foldl f s) (fun v => match ps.find? (·.u == v.uid) with | none => v | some p => G p v) := by
  induction ps with
  | nil => intro _ s _; exact OnlyWaves.refl s
  | cons p ps ih =>
    intro hn s h
    rw [List.map_cons, List.nodup_cons] at hn
    have h1 : OnlyWaves s (f s p) _ := (h s _ (OnlyWaves.refl s) p (by simp)).all
    have h2 := ih hn.2 (f s p) (fun t F ht q hq => h t _ (h1.trans ht) q (List.mem_cons_of_mem _ hq))
    refine (h1.trans h2).congr fun v => ?_
    by_cases hv : v.uid = p.u
    · have hb : (p.u == v.uid) = true := by simp [hv]
      have hnone : ps.find? (fun q => q.u == (G p v).uid) = none := by
        rw [List.find?_eq_none]
        intro q hq
        simp only [hG, hv, beq_iff_eq]
        exact fun e => hn.1 (List.mem_map.2 ⟨q, hq, e⟩)
      simp only [hv, if_true, hnone, List.find?_cons, beq_self_eq_true]
    · have hb : (p.u == v.uid) = false := by simpa using fun h : p.u = v.uid => hv h.symm
      simp only [hv, if_false, List.find?_cons, hb]

theorem OnlyWave.of_mapWave (s : State) (u : Nat) (F : Wave → Wave) : OnlyWave s (s.mapWave u F) u F :=
  ⟨rfl, fun _ => rfl⟩

theorem OnlyWave.refl (s : State) (u : Nat) : OnlyWave s s u (fun v => v) := by
  have h := OnlyWave.of_mapWave s u (fun v => v)
  rwa [State.mapWave_id] at h

theorem OnlyWave.trans {s t r : State} {u : Nat} {F G : Wave → Wave} (hF : ∀ v, v.uid = u → (F v).uid = u)
    (h1 : OnlyWave s t u F) (h2 : OnlyWave t r u G) : OnlyWave s r u (fun v => G (F v)) := by
  refine ⟨?_, fun n => (h2.2 n).trans (h1.2 n)⟩
  obtain ⟨e1, -⟩ := h1
  obtain ⟨e2, -⟩ := h2
  have hw : t.waves = s.waves.map (fun v => if v.uid = u then F v else v) := by rw [e1]
  have hw2 : t.waves.map (fun v => if v.uid = u then G v else v) =
      s.waves.map (fun v => if v.uid = u then G (F v) else v) := by
    rw [hw, List.map_map]
    apply List.map_congr_left
    intro v _
    by_cases hv : v.uid = u
    · simp [hv, hF v hv]
    · simp [hv]
  rw [hw2] at e2
  rw [e2, e1]

theorem OnlyWave.congr {s t : State} {u : Nat} {F G : Wave → Wave} (h : OnlyWave s t u F) (e : ∀ v, F v = G v) :
    OnlyWave s t u G := by
  have : F = G := funext e
  rwa [← this]

theorem OnlyWave.raiseFlags (s : State) (u qn : Nat) (fs : List (Nat × BitVec 5)) :
    OnlyWave s (raiseFlags s u qn fs) u (fun v => v.orFlags (allFlags fs)) := by
  unfold Machine.raiseFlags
  by_cases h : allFlags fs = 0
  · simp only [h, if_true]
    refine (OnlyWave.refl s u).congr ?_
    intro v
    simp [Wave.orFlags]
  · simp only [h, if_false]
    refine ⟨rfl, fun n => ?_⟩
    simp only [State.mapQuad_quad]
    split
    · rename_i hn; subst hn; rfl
    · rfl

theorem OnlyWave.countHits (m : Sem) (s : State) (w : Wave) (g : Mask) :
    OnlyWave s (countHits m s w g) w.uid (fun v =>
      { v with winhit := v.winhit + BitVec.ofNat 64 (windowHits w ((lanesOf (m.active w g)).map (fun l => m.live s w l))) }) := by
  unfold Machine.countHits
  simp only
  split
  · rename_i h
    refine (OnlyWave.refl s w.uid).congr ?_
    intro v
    rw [h]
    simp
  · exact OnlyWave.of_mapWave _ _ _

theorem OnlyWave.bad {s t : State} {u : Nat} {F : Wave → Wave} (h : OnlyWave s t u F) : t.bad = s.bad := by
  rw [h.1]

theorem nextPc_lanes (i : Issue) (go : Nat → Option Word) (l : Nat) (ls : List Nat) :
    nextPc i (ls.filterMap (fun l => (go l).map (fun x => (l, x)))) l =
      if l ∈ ls then (go l).getD (pcNext i.key.pc) else pcNext i.key.pc := by
  induction ls with
  | nil => rfl
  | cons a ls ih =>
    rw [List.filterMap_cons]
    cases hg : go a with
    | none =>
      simp only [Option.map_none]
      rw [ih]
      by_cases ha : l = a
      · subst ha; simp [hg]
      · simp [ha]
    | some x =>
      simp only [Option.map_some]
      by_cases ha : l = a
      · subst ha; simp [nextPc, hg]
      · have hb : (a == l) = false := by simpa using fun h : a = l => ha h.symm
        unfold nextPc at ih ⊢
        rw [List.find?_cons]
        simp only [hb]
        rw [ih]
        simp [ha]

/-- One value in the destination of every Active lane. -/
theorem lanewise_spread (o : Ctx → Nat → Thread → LaneOut) (s : State) (c : Ctx) (d : Nat) (t : Ety) (v : Nat)
    (htx : c.tx = false) (ho : ∀ l ∈ c.lanes, o c l (c.rd.thread l) = .val d t v) :
    lanewise o s c =
      { st := s.mapWave c.u (Wave.spread c.act d t v), flags := c.lanes.map (fun l => (l, 0)) } := by
  have houts : laneOuts c o = c.lanes.map (fun l => (l, LaneOut.val d t v)) :=
    List.map_congr_left (fun l hl => by rw [ho l hl])
  have h1 : ∀ ls : List Nat, (ls.map (fun l => (l, LaneOut.val d t v))).filterMap (fun p =>
      p.2.trap.map (fun t => (⟨p.1, t.1, t.2, 0⟩ : Trap))) = [] := by
    intro ls; rw [List.filterMap_map, List.filterMap_eq_nil_iff]; intro _ _; rfl
  have h2 : ∀ ls : List Nat, (ls.map (fun l => (l, LaneOut.val d t v))).filter (fun p => p.2.trap.isNone) =
      ls.map (fun l => (l, LaneOut.val d t v)) := by
    intro ls; rw [List.filter_eq_self]; intro p hp; obtain ⟨l, -, rfl⟩ := List.mem_map.1 hp; rfl
  have h3 : ∀ ls : List Nat, ((ls.map (fun l => (l, LaneOut.val d t v))).map (fun p =>
      p.2.vw.map (fun v => (⟨p.1, v.1, v.2.1, v.2.2⟩ : VWrite)))).flatten = ls.map (fun l => ⟨l, d, natWords t.regs v, t⟩) := by
    intro ls
    induction ls with
    | nil => rfl
    | cons a ls ih => rw [List.map_cons, List.map_cons, List.flatten_cons, ih]; rfl
  have h4 : ∀ (ls : List Nat) (s : State), (ls.map (fun l => (l, LaneOut.val d t v))).foldl (fun s p =>
      if p.2.pw.isEmpty && p.2.xw.isEmpty then s else s.mapWave c.u (fun w => w.mapThread p.1 p.2.put)) s = s := by
    intro ls
    induction ls with
    | nil => intro s; rfl
    | cons a ls ih => intro s; rw [List.map_cons, List.foldl_cons]; exact ih s
  have h5 : ∀ ls : List Nat, (ls.map (fun l => (l, LaneOut.val d t v))).filterMap (fun p =>
      p.2.go.map (fun x => (p.1, x))) = [] := by
    intro ls; rw [List.filterMap_map, List.filterMap_eq_nil_iff]; intro _ _; rfl
  have hg : ∀ w : State, lanewise o w c = { st := w.mapWave c.u (Wave.spread c.act d t v), flags := c.lanes.map (fun l => (l, 0)) } := by
    intro w
    unfold lanewise
    simp only [houts, h1, h2, h3, h4, h5, writeV, htx, Bool.not_true, Bool.false_eq_true, if_true, if_false]
    rw [List.map_map]
    rfl
  exact hg s

theorem counted_eq (m : Sem) (s : State) (w : Wave) (g : Mask) (ops : Wave → Nat → List Opnd)
    (hops : ∀ l, m.ops s w l = ops w l) :
    countHits m s w g = counted s w.uid (hitsOf ops w (activeLanes m.grd w g)) := by
  have hh : windowHits w ((lanesOf (m.active w g)).map (fun l => m.live s w l)) =
      hitsOf ops w (activeLanes m.grd w g) := by
    have : ∀ l, m.live s w l = liveOps (ops w l) (w.thread l) := by
      intro l; unfold Sem.live liveOps; rw [hops]
    simp only [this]; rfl
  unfold countHits counted
  rw [hh]
  simp only
  split
  · rename_i h
    rw [h]
    have : (fun v : Wave => { v with winhit := v.winhit + BitVec.ofNat 64 0 }) = fun v => v := by
      funext v; simp
    rw [this, State.mapWave_id]
  · rfl

theorem raiseFlags_nil (s : State) (u qn : Nat) : raiseFlags s u qn [] = s := rfl

/-- With no second word of its cycle to wait for, an abort takes effect at once (R284). -/
theorem takeInOrder_abort {s : State} {qn u : Nat} (pc : Word) (lanes : Mask) (code own : Nat)
    (h : standsBy s qn u = false) :
    takeInOrder s qn [] ⟨u, pc, [], some (lanes, code, own)⟩ =
      retireIfDone (s.mapWave u (fun w => abortTx w lanes code own)) u := by
  have e : lanes ||| maskOf [] = lanes := BitVec.or_zero
  unfold takeInOrder
  simp only [h, Bool.and_false, Bool.false_eq_true, if_false, List.filter_nil, List.foldl_nil, List.isEmpty_nil, if_true,
    takeEffects, List.map_nil]
  rw [e]

theorem logRegs_bad (s : State) (u : Nat) (rs : List Nat) : (logRegs s u rs).1.bad = s.bad := by
  unfold logRegs
  split
  · rfl
  · simp only
    split
    · rfl
    · split <;> rfl

/-- A share of a lanewise word: only its wave changes. `b` is the state in which it writes. -/
theorem share_done {m : Sem} {o : Ctx → Nat → Thread → LaneOut} {s b : State} {i : Issue} {p : Share} {ops : Wave → Nat → List Opnd}
    (C : Free m s i p) (hl : i.late = []) (hops : ∀ w l, m.ops s w l = ops w l)
    (hbody : m.body (countHits m s p.rd p.grp) (shareCtx s i m.grd p) =
      lanewise o (countHits m s p.rd p.grp) (shareCtx s i m.grd p))
    (hb : laneBase o s (shareCtx s i m.grd p) = (b, true)) (h0 : m.active p.rd p.grp = 0 → b = s)
    (htr : ∀ l ∈ (shareCtx s i m.grd p).lanes, (o (shareCtx s i m.grd p) l (p.rd.thread l)).trap = none)
    (hfl : m.fpx = true → ∀ l ∈ (shareCtx s i m.grd p).lanes, (o (shareCtx s i m.grd p) l (p.rd.thread l)).flags &&& p.rd.fxe = 0) :
    OnlyWave b (runShare m i none s p (m.clearReady p)) p.u (afterWord i p.grp (activeLanes m.grd p.rd p.grp)
      (hitsOf ops p.rd (activeLanes m.grd p.rd p.grp)) (fun l => o (shareCtx s i m.grd p) l (p.rd.thread l))) := by
  let c := shareCtx s i m.grd p
  let hits := windowHits p.rd ((lanesOf (m.active p.rd p.grp)).map (fun l => m.live s p.rd l))
  have hc0 : countHits m s p.rd p.grp = s.mapWave p.u (fun v => { v with winhit := v.winhit + BitVec.ofNat 64 hits }) := by
    unfold countHits
    simp only [C.uid]
    split
    · rename_i h
      have : (fun v : Wave => { v with winhit := v.winhit + BitVec.ofNat 64 hits }) = fun v => v := by
        funext v; show { v with winhit := v.winhit + BitVec.ofNat 64 hits } = v; simp [hits, h]
      rw [this, State.mapWave_id]
    · rfl
  have hbase : laneBase o (countHits m s p.rd p.grp) c =
      (b.mapWave p.u (fun v => { v with winhit := v.winhit + BitVec.ofNat 64 hits }), true) := by
    unfold laneBase at hb ⊢
    rw [hc0]
    cases htx : c.tx with
    | false =>
      have e : (shareCtx s i m.grd p).tx = false := htx
      rw [e] at hb
      simp only [Bool.false_eq_true, if_false, Prod.mk.injEq, and_true] at hb ⊢
      rw [hb]
    | true =>
      have e : (shareCtx s i m.grd p).tx = true := htx
      rw [e] at hb
      simp only [if_true] at hb ⊢
      have := logRegs_winhit s p.u (BitVec.ofNat 64 hits) (writtenBy c.act (fun l => o c l (c.rd.thread l)))
      have hb' : logRegs s p.u (writtenBy c.act (fun l => o c l (c.rd.thread l))) = (b, true) := hb
      rw [hb'] at this
      exact this
  have o1 : OnlyWave b (b.mapWave p.u (fun v => { v with winhit := v.winhit + BitVec.ofNat 64 hits })) p.u _ :=
    OnlyWave.of_mapWave _ _ _
  -- the end of the share
  have key : ∃ r : Res, runShare m i none s p (m.clearReady p) = settleShare i m p.u p.rd p.grp [] r ∧ r.traps = [] ∧
      r.abort = none ∧ r.stay = 0 ∧
      r.go = c.lanes.filterMap (fun l => (o c l (c.rd.thread l)).go.map (fun x => (l, x))) ∧
      allFlags r.flags = flagsOf c.act (fun l => o c l (c.rd.thread l)) ∧ (m.fpx = true → ∀ x ∈ r.flags, x.2 &&& p.rd.fxe = 0) ∧
      OnlyWave (b.mapWave p.u (fun v => { v with winhit := v.winhit + BitVec.ofNat 64 hits })) r.st p.u (fun v => { v with
          threads := v.threads.mapIdx (fun j t => if c.act.getLsbD j then (o c j (c.rd.thread j)).done t else t)
          tags := tagsAfter c.act (fun l => o c l (c.rd.thread l)) v.tags }) := by
    by_cases ha : m.active p.rd p.grp = 0
    · have hc : c.act = 0 := ha
      have hls : c.lanes = [] := by unfold Ctx.lanes; rw [hc]; rfl
      refine ⟨{ st := countHits m s p.rd p.grp }, ?_, rfl, rfl, rfl, ?_, ?_, ?_, ?_⟩
      · rw [runShare_free C]; simp [ha]
      · simp [hls]
      · rw [hc]; rfl
      · intro _ x hx; cases hx
      · rw [hc0, h0 ha]
        refine (OnlyWave.refl _ _).congr ?_
        intro v
        rw [hc]
        have e1 : ∀ (j : Nat) (t : Thread), (if (0 : Mask).getLsbD j then (o c j (c.rd.thread j)).done t else t) = t := by
          intro j t; simp
        rw [mapIdx_self v.threads _ e1]
        have e2 : tagsAfter 0 (fun l => o c l (c.rd.thread l)) v.tags = v.tags := by
          unfold tagsAfter; rw [lanesOf_zero]; rfl
        rw [e2]
    · have hz : (m.active p.rd p.grp == 0) = false := by simpa using ha
      refine ⟨lanewise o (countHits m s p.rd p.grp) c, ?_, ?_⟩
      · rw [runShare_free C, hz, ← hbody]; rfl
      · rw [lanewise_done o _ _ c hbase htr]
        refine ⟨rfl, rfl, rfl, rfl, ?_, ?_, OnlyWave.of_mapWave _ _ _⟩
        · simp [allFlags, flagsOf, Ctx.lanes, List.foldl_map]
        · intro hx y hy
          obtain ⟨l, hl, rfl⟩ := List.mem_map.1 hy
          exact hfl hx l hl
  obtain ⟨r, hr, r1, r2, r3, r4, r5, r6, r7⟩ := key
  have hset := settleShare_done i m p.u p.rd p.grp r hl r1 r2 r6
  have o2 := o1.trans (by intro v h; exact h) r7
  have o3 := o2.trans (by intro v h; exact h) (OnlyWave.raiseFlags r.st p.u (i.core * 4 + i.quad) r.flags)
  have o4 := o3.trans (by intro v h; exact h) (OnlyWave.of_mapWave _ p.u (fun w =>
        w.advance i.hm (p.grp &&& ~~~ r.stay) i.key.pc (nextPc i r.go)))
  rw [← hset, ← hr] at o4
  refine o4.congr ?_
  intro v
  rw [r3, r4, r5, and_not_zero]
  simp only [Wave.advance, Wave.mapLanes, Wave.orFlags, afterWord, mapIdx_mapIdx]
  have hh : hits = hitsOf ops p.rd (activeLanes m.grd p.rd p.grp) := by
    have : ∀ l, m.live s p.rd l = liveOps (ops p.rd l) (p.rd.thread l) := by
      intro l; unfold Sem.live liveOps; rw [hops]
    simp only [hits, this]; rfl
  rw [hh]
  congr 1
  apply mapIdx_congr
  intro j t
  rw [nextPc_lanes]
  have hm : j ∈ c.lanes ↔ c.act.getLsbD j = true := mem_lanesOf _ _
  have hc : c.act = activeLanes m.grd p.rd p.grp := rfl
  simp only [hm, hc, Thread.moveOn]
  rfl

/-- Ready operands of a share, at any state that its group leaves. -/
theorem free_of_ready {m : Sem} {s t : State} {i : Issue} {ps : List Share} {p : Share} {ops : Wave → Nat → List Opnd}
    (G : Group s i ps) (hp : p ∈ ps) (hops : ∀ w l, m.ops t w l = ops w l) (R : OpsReady m.grd ops p.rd p.grp)
    (hforbid : i.inTx = true → m.forbid p.rd = false) : Free m t i p where
  forbid h h' := by rw [hforbid h] at h'; cases h'
  sound l hl := by
    have : m.live t p.rd l = liveOps (ops p.rd l) (p.rd.thread l) := by unfold Sem.live liveOps; rw [hops]
    rw [this]; exact R.sound l hl
  lanes := G.lanes p hp
  steady := G.steady p hp
  firm := G.firm p hp
  uid := G.uid hp

/-- The law of a lanewise instruction, whether its flags may trap or not. -/
theorem laneCourse_of {ins : Instr} {m : Sem} {ops : Wave → Nat → List Opnd} {o : State → Ctx → Nat → Thread → LaneOut}
    {ok : State → Ctx → Prop} (hex : ∀ s, exec ins s = execX m s) (hops : ∀ s w l, m.ops s w l = ops w l)
    (hbody : ∀ s c, m.body s c = lanewise (o s) s c) (hst : ∀ s t F c l x, OnlyWaves s t F → o t c l x = o s c l x)
    (hlegal : ∀ s c, ok s c → m.legal s c.rd c.hm = true) (hforbid : ∀ w, m.forbid w = false)
    (hhold : ∀ s w a, m.hold s w a = false)
    (htile : ∀ s w a, m.tile s w a = none) (hfmt : ∀ s w a, m.fmt s w a = none)
    (hok : ∀ s c, ok s c → ∀ l ∈ c.lanes, (o s c l (c.rd.thread l)).trap = none)
    (hfl : ∀ s c, ok s c → m.fpx = true → ∀ l ∈ c.lanes, (o s c l (c.rd.thread l)).flags &&& c.rd.fxe = 0) :
    LaneCourse ins m.grd ops ok (fun s c l => o s c l (c.rd.thread l)) := by
  have hsame : ∀ s t F, OnlyWaves s t F → o t = o s := by
    intro s t F h; funext c l x; exact hst s t F c l x h
  have hclear : ∀ s i (p : Share), OpsReady m.grd ops p.rd p.grp → ok s (shareCtx s i m.grd p) → Clear m s i p.rd p.grp := by
    intro s i p R hk
    exact clear_of_ready (hops s p.rd) R (hlegal s _ hk) (fun _ => hforbid _) (hhold ..) (.inr (htile ..)) (hfmt ..)
  have hcount : ∀ s (w : Wave) g, o (countHits m s w g) = o s := fun s w g => hsame _ _ _ (OnlyWave.countHits m s w g).all
  constructor
  · intro s i ps G htx hR
    have hissue := issueFull_group G (fun p hp => hclear s i p (hR p hp).1 (hR p hp).2)
    have hfold := OnlyWaves.fold (fun s p => runShare m i none s p (m.clearReady p))
      (fun p => afterWord i p.grp (activeLanes m.grd p.rd p.grp) (hitsOf ops p.rd (activeLanes m.grd p.rd p.grp))
        (fun l => o s (shareCtx s i m.grd p) l (p.rd.thread l))) (fun _ _ => rfl) ps G.apart s (by
      intro t F hF p hp
      have hc : shareCtx t i m.grd p = shareCtx s i m.grd p := by
        have : t.team? p.rd.team = s.team? p.rd.team := by rw [hF.1]; rfl
        unfold shareCtx; rw [this]
      have h := share_done (m := m) (o := o s) (s := t) (b := t) (i := i) (p := p) (ops := ops)
        (free_of_ready G hp (hops t) (hR p hp).1 (fun _ => hforbid _)) G.late (hops t)
        (by rw [hbody, hcount, hsame s t F hF]) (by
          unfold laneBase
          have e : (shareCtx t i m.grd p).tx = false := htx
          rw [e]; rfl) (fun _ => rfl)
        (by rw [hc]; exact hok s _ (hR p hp).2) (by rw [hc]; exact hfl s _ (hR p hp).2)
      rw [hc] at h
      exact h)
    rw [← hissue] at hfold
    refine ⟨issueFull m s, ?_, hfold.congr ?_⟩
    · rw [hex]; exact finish_next _ (by rw [hfold.bad]; exact G.sound)
    · intro v; unfold afterGroup; rfl
  · intro s i p G htx R c hits log hk ha
    have hp : p ∈ [p] := List.mem_singleton.2 rfl
    have hissue := issueFull_group G (fun q hq => by
      obtain rfl := List.mem_singleton.1 hq; exact hclear s i q R hk)
    have hissue : issueFull m s = runShare m i none s p (m.clearReady p) := hissue
    have C : Free m s i p := free_of_ready G hp (hops s) R (fun _ => hforbid _)
    have hz : (m.active p.rd p.grp == 0) = false := by
      have : m.active p.rd p.grp ≠ 0 := ha
      simpa using this
    have hlog : laneBase (o s) s c = log := by
      unfold laneBase
      have e : c.tx = true := htx
      rw [e]; rfl
    constructor
    · intro hroom
      have h := share_done (m := m) (o := o s) (s := s) (b := log.1) (i := i) (p := p) (ops := ops) C G.late (hops s)
        (by rw [hbody, hcount]) (by rw [hlog]; exact Prod.ext rfl hroom) (fun h => absurd h ha)
        (hok s _ hk) (hfl s _ hk)
      rw [← hissue] at h
      refine ⟨issueFull m s, ?_, h⟩
      rw [hex]
      refine finish_next _ ?_
      rw [h.bad]
      show (logRegs s p.u _).1.bad = none
      rw [logRegs_bad]; exact G.sound
    · intro hfull hs
      have hc0 : countHits m s p.rd p.grp = counted s p.u hits := by
        have := counted_eq m s p.rd p.grp ops (hops s p.rd)
        rw [C.uid] at this
        exact this
      have hbase : laneBase (o s) (counted s p.u hits) c = (counted s p.u hits, false) := by
        unfold laneBase
        have e : c.tx = true := htx
        rw [e, if_pos rfl]
        have hx := logRegs_winhit s p.u (BitVec.ofNat 64 hits) (writtenBy c.act (fun l => o s c l (c.rd.thread l)))
        have hy : logRegs s p.u (writtenBy c.act (fun l => o s c l (c.rd.thread l))) = (s, false) := by
          have : log = (log.1, false) := Prod.ext rfl hfull
          have e := logRegs_full this
          rw [e] at this
          exact this
        rw [hy] at hx
        exact hx
      have hbod : m.body (countHits m s p.rd p.grp) c = { st := counted s p.u hits, abort := some (c.act, 4, 0) } := by
        rw [hbody, hcount, hc0]
        exact lanewise_full (o s) _ _ c hbase (hok s _ hk)
      have hst : issueFull m s = retireIfDone (((counted s p.u hits).mapWave p.u (leaveWord i p.grp 0 (fun _ => none))).mapWave
          p.u (fun v => abortTx v c.act 4 0)) p.u := by
        rw [hissue, runShare_free C, hz]
        simp only [Bool.false_eq_true, if_false]
        rw [show m.body (countHits m s p.rd p.grp) (shareCtx s i m.grd p) = _ from hbod]
        unfold settleShare
        simp only [G.late, List.append_nil, oneEach, List.filter_nil, List.map_nil, maskOf_nil, and_not_zero, fpxTraps,
          ite_self, raiseFlags_nil]
        have hadv : leaveWord i p.grp 0 (fun _ => none) = fun w => w.advance i.hm p.grp i.key.pc (nextPc i []) := by
          funext v
          unfold leaveWord
          rw [and_not_zero]
          rfl
        rw [hadv]
        exact takeInOrder_abort (s := (counted s p.u hits).mapWave p.u _) _ c.act 4 0 (hs _)
      rw [hex, ← hst]
      apply finish_next
      rw [hst, retireIfDone_bad]
      exact G.sound

/-- The law of a lanewise instruction. -/
theorem laneWord_of {ins : Instr} {m : Sem} {ops : Wave → Nat → List Opnd} {o : State → Ctx → Nat → Thread → LaneOut}
    {ok : Ctx → Prop} (hex : ∀ s, exec ins s = execX m s) (hops : ∀ s w l, m.ops s w l = ops w l)
    (hbody : ∀ s c, m.body s c = lanewise (o s) s c) (hst : ∀ s t F c l x, OnlyWaves s t F → o t c l x = o s c l x)
    (hlegal : ∀ s c, ok c → m.legal s c.rd c.hm = true) (hforbid : ∀ w, m.forbid w = false)
    (hhold : ∀ s w a, m.hold s w a = false)
    (htile : ∀ s w a, m.tile s w a = none) (hfmt : ∀ s w a, m.fmt s w a = none)
    (hok : ∀ s c, ok c → ∀ l ∈ c.lanes, (o s c l (c.rd.thread l)).trap = none) :
    LaneWord ins m.grd ops ok (fun s c l => o s c l (c.rd.thread l)) :=
  laneCourse_of hex hops hbody hst (fun s c h => hlegal s c h.1) hforbid hhold htile hfmt (fun s c h => hok s c h.1)
    (fun _ _ h _ => h.2)

/-- The law of an `alu` instruction. -/
theorem alu_word {ins : Instr} {f : Full} {ops : Nat → List Opnd} {o : Ctx → Nat → Thread → LaneOut} {ok : Ctx → Prop}
    {out : State → Ctx → Nat → LaneOut} (hex : ∀ s, exec ins s = execX (alu f ops o) s)
    (hout : ∀ s c l, out s c l = o c l (c.rd.thread l))
    (hok : ∀ c, ok c → ∀ l ∈ c.lanes, (o c l (c.rd.thread l)).trap = none) :
    LaneWord ins f.grd (fun _ l => ops l) ok out := by
  have h := laneWord_of (ins := ins) (m := alu f ops o) (ok := ok) (o := fun _ => o) hex (fun _ _ _ => rfl)
    (fun _ _ => rfl) (fun _ _ _ _ _ _ _ => rfl) (fun _ _ _ => rfl) (fun _ => rfl) (fun _ _ _ => rfl) (fun _ _ _ => rfl)
    (fun _ _ _ => rfl) (fun _ => hok)
  have he : (fun (_ : State) c l => o c l (c.rd.thread l)) = out := by
    funext s c l; exact (hout s c l).symm
  rwa [he] at h

theorem afterWord_congr (i : Issue) (g act : Mask) (hits : Nat) (o p : Nat → LaneOut)
    (h : ∀ l ∈ lanesOf act, o l = p l) (v : Wave) : afterWord i g act hits o v = afterWord i g act hits p v := by
  have hm : ∀ l, act.getLsbD l = true → o l = p l := fun l hl => h l ((mem_lanesOf _ _).2 hl)
  have h1 : (lanesOf act).map (fun l => (o l).vw) = (lanesOf act).map (fun l => (p l).vw) :=
    List.map_congr_left (fun l hl => by rw [h l hl])
  have h2 : flagsOf act o = flagsOf act p := by
    unfold flagsOf
    have : ∀ (ls : List Nat) (x : BitVec 5), (∀ l ∈ ls, o l = p l) →
        ls.foldl (fun a l => a ||| (o l).flags) x = ls.foldl (fun a l => a ||| (p l).flags) x := by
      intro ls
      induction ls with
      | nil => intro x _; rfl
      | cons a ls ih =>
        intro x ha
        simp only [List.foldl_cons]
        rw [ha a (by simp)]
        exact ih _ (fun l hl => ha l (List.mem_cons_of_mem _ hl))
    exact this _ _ h
  unfold afterWord tagsAfter
  rw [h1, h2]
  congr 1
  apply mapIdx_congr
  intro j t
  by_cases hj : act.getLsbD j = true
  · simp only [hj, if_true, hm j hj]
  · simp [hj]

theorem writtenBy_congr (act : Mask) (o p : Nat → LaneOut) (h : ∀ l ∈ lanesOf act, o l = p l) :
    writtenBy act o = writtenBy act p := by
  unfold writtenBy
  have : (lanesOf act).map (fun l => (o l).vw) = (lanesOf act).map (fun l => (p l).vw) :=
    List.map_congr_left (fun l hl => by rw [h l hl])
  rw [this]

/-- Only what the Active lanes hold matters. -/
theorem LaneCourse.congr {ins : Instr} {grd : Guard} {ops : Wave → Nat → List Opnd} {ok ok' : State → Ctx → Prop}
    {o p : State → Ctx → Nat → LaneOut} (L : LaneCourse ins grd ops ok o) (hk : ∀ s c, ok' s c → ok s c)
    (h : ∀ s c, ok' s c → ∀ l ∈ c.lanes, o s c l = p s c l) : LaneCourse ins grd ops ok' p := by
  constructor
  · intro s i ps G htx hR
    obtain ⟨t, h1, h2⟩ := L.1 s i ps G htx (fun q hq => ⟨(hR q hq).1, hk _ _ (hR q hq).2⟩)
    refine ⟨t, h1, h2.congr fun v => ?_⟩
    unfold afterGroup
    cases e : ps.find? (fun q => q.u == v.uid) with
    | none => rfl
    | some q => exact afterWord_congr i _ _ _ _ _ (h s _ (hR q (List.mem_of_find?_eq_some e)).2) v
  · intro s i q G htx R c hits log hok ha
    have he : ∀ l ∈ c.lanes, o s c l = p s c l := h s c hok
    obtain ⟨h1, h2⟩ := L.2 s i q G htx R (hk _ _ hok) ha
    have hlog : logRegs s q.u (writtenBy (shareCtx s i grd q).act (o s (shareCtx s i grd q))) = log := by
      show _ = logRegs s q.u (writtenBy c.act (p s c))
      rw [← writtenBy_congr c.act _ _ he]
    rw [hlog] at h1 h2
    refine ⟨fun hr => ?_, h2⟩
    obtain ⟨t, h3, h4⟩ := h1 hr
    exact ⟨t, h3, h4.congr (afterWord_congr i _ _ _ _ _ he)⟩

theorem LaneWord.congr {ins : Instr} {grd : Guard} {ops : Wave → Nat → List Opnd} {ok : Ctx → Prop}
    {o p : State → Ctx → Nat → LaneOut} (L : LaneWord ins grd ops ok o)
    (h : ∀ s c, ok c → ∀ l ∈ c.lanes, o s c l = p s c l) : LaneWord ins grd ops ok p :=
  LaneCourse.congr L (fun s c hk => ⟨hk.1, fun l hl => by rw [h s c hk.1 l hl]; exact hk.2 l hl⟩)
    (fun s c hk => h s c hk.1)

/-! ## Words that act on the wave or beyond it -/

theorem raiseFlags_zero (s : State) (u qn : Nat) (fs : List (Nat × BitVec 5)) (h : ∀ p ∈ fs, p.2 = 0) :
    raiseFlags s u qn fs = s := by
  have : ∀ (fs : List (Nat × BitVec 5)), (∀ p ∈ fs, p.2 = 0) → fs.foldl (fun a p => a ||| p.2) (0 : BitVec 5) = 0 := by
    intro fs
    induction fs with
    | nil => intro _; rfl
    | cons a fs ih =>
      intro h
      rw [List.foldl_cons, h a (by simp)]
      exact ih (fun p hp => h p (List.mem_cons_of_mem _ hp))
  unfold raiseFlags allFlags
  simp only [this fs h, if_true]

/-- The law of a word whose body raises no cause, no abort and only empty flags. -/
theorem waveWord_zero {ins : Instr} {m : Sem} {ops : State → Wave → Nat → List Opnd} {ok : State → Ctx → Prop}
    {eff : State → Ctx → State} {stay : Ctx → Mask} {go : Ctx → Nat → Option Word}
    (hex : ∀ s, exec ins s = execX m s) (hops : ∀ s w l, m.ops s w l = ops s w l)
    (hlegal : ∀ s u n c, ok (counted s u n) c → m.legal s c.rd c.hm = true)
    (hhold : ∀ s u n c, ok (counted s u n) c → m.hold s c.rd c.act = false)
    (htile : ∀ s u n c, ok (counted s u n) c → m.tile s c.rd c.act = none)
    (hfmt : ∀ s u n c, ok (counted s u n) c → m.fmt s c.rd c.act = none)
    (hbody : ∀ s c, ok s c → c.act ≠ 0 → (∃ x, s.wave? c.u = some { c.rd with winhit := x }) → c.u = c.rd.uid →
      c.tx = false → ∃ r, m.body s c = r ∧ r.traps = [] ∧ r.abort = none ∧ (∀ p ∈ r.flags, p.2 = 0) ∧
      r.stay = stay c ∧ r.st = eff s c ∧ ∀ l, nextPc c.iss r.go l = (go c l).getD (pcNext c.iss.key.pc))
    (hbad : ∀ s c, ok s c → s.bad = none → (eff s c).bad = none) :
    WaveWord ins m.grd ops ok eff stay go := by
  intro s i w g A R h0 c s1 hk
  have hk0 : ok (counted s w.uid (hitsOf (ops s) w (activeLanes m.grd w g))) c := hk
  have C : Clear m s i w g :=
    clear_of_ready (hops s w) R (hlegal _ _ _ _ hk0) (fun h => by rw [A.mode] at h; cases h) (hhold _ _ _ _ hk0) (.inr (htile _ _ _ _ hk0))
      (hfmt _ _ _ _ hk0)
  have hc : countHits m s w g = s1 := counted_eq m s w g (ops s) (hops s w)
  have h0' : (m.active w g == 0) = false := by
    have h : m.active w g ≠ 0 := h0
    simpa using h
  have hw : ∃ x, s1.wave? c.u = some { c.rd with winhit := x } := by
    refine ⟨w.winhit + BitVec.ofNat 64 (hitsOf (ops s) w (activeLanes m.grd w g)), ?_⟩
    show (counted s w.uid _).wave? w.uid = _
    unfold counted
    rw [State.mapWave_wave (hf := by intro v h; exact h), if_pos rfl, A.found]
    rfl
  obtain ⟨r, hr, r1, r2, r3, r4, r5, r6⟩ := hbody s1 c hk h0 hw rfl A.mode
  have hset := settleShare_done i m w.uid w g r A.late r1 r2 (by intro _ p hp; rw [r3 p hp]; exact BitVec.zero_and)
  have hst : issueFull m s = (eff s1 c).mapWave w.uid (leaveWord i g (stay c) (go c)) := by
    rw [issueFull_clear A.toIssues C, h0', hc]
    simp only [Bool.false_eq_true, if_false]
    have hgo : nextPc i r.go = fun l => (go c l).getD (pcNext i.key.pc) := funext r6
    rw [hr, hset, raiseFlags_zero _ _ _ _ r3, r4, r5, hgo]
    rfl
  have hb : s1.bad = none := A.sound
  rw [hex, ← hst]
  apply finish_next
  rw [hst]
  exact hbad s1 c hk hb

/-- The law of a word whose body raises no cause, no flag and no abort. -/
theorem waveWord_of {ins : Instr} {m : Sem} {ops : State → Wave → Nat → List Opnd} {ok : State → Ctx → Prop}
    {eff : State → Ctx → State} {stay : Ctx → Mask} {go : Ctx → Nat → Option Word}
    (hex : ∀ s, exec ins s = execX m s) (hops : ∀ s w l, m.ops s w l = ops s w l)
    (hlegal : ∀ s u n c, ok (counted s u n) c → m.legal s c.rd c.hm = true)
    (hhold : ∀ s u n c, ok (counted s u n) c → m.hold s c.rd c.act = false)
    (htile : ∀ s u n c, ok (counted s u n) c → m.tile s c.rd c.act = none)
    (hfmt : ∀ s u n c, ok (counted s u n) c → m.fmt s c.rd c.act = none)
    (hbody : ∀ s c, ok s c → c.act ≠ 0 → (∃ x, s.wave? c.u = some { c.rd with winhit := x }) → c.u = c.rd.uid →
      c.tx = false → ∃ r, m.body s c = r ∧ r.traps = [] ∧ r.abort = none ∧ r.flags = [] ∧
      r.stay = stay c ∧ r.st = eff s c ∧ ∀ l, nextPc c.iss r.go l = (go c l).getD (pcNext c.iss.key.pc))
    (hbad : ∀ s c, ok s c → s.bad = none → (eff s c).bad = none) :
    WaveWord ins m.grd ops ok eff stay go :=
  waveWord_zero hex hops hlegal hhold htile hfmt (fun s c h h0 hw hu ht => by
    obtain ⟨r, e, r1, r2, r3, r4, r5, r6⟩ := hbody s c h h0 hw hu ht
    exact ⟨r, e, r1, r2, (fun p hp => by rw [r3] at hp; cases hp), r4, r5, r6⟩) hbad

theorem windowHits_none (w : Wave) (ls : List Nat) : windowHits w (ls.map (fun _ => ([] : List Opnd))) = 0 := by
  have : ((ls.map (fun _ => ([] : List Opnd))).map (windowReads w)).flatten = [] := by
    rw [List.flatten_eq_nil_iff]
    intro x hx
    simp only [List.map_map, List.mem_map] at hx
    obtain ⟨_, -, rfl⟩ := hx
    rfl
  unfold windowHits
  rw [this]
  rfl

theorem counted_zero (s : State) (u : Nat) : counted s u 0 = s := by
  unfold counted
  have : (fun v : Wave => { v with winhit := v.winhit + BitVec.ofNat 64 0 }) = fun v => v := by
    funext v; simp
  rw [this, State.mapWave_id]

theorem hitsOf_none (w : Wave) (a : Mask) : hitsOf shapeNone w a = 0 := windowHits_none w _

theorem opsReady_none (grd : Guard) (w : Wave) (g : Mask) : OpsReady grd shapeNone w g :=
  ⟨fun _ _ => rfl, fun _ _ => rfl, fun _ h => by simp [shapeNone] at h, fun _ _ _ h => by simp [shapeNone] at h⟩

/-- The same law for a word without V operands. -/
theorem soloWord_of {ins : Instr} {m : Sem} {ok : State → Ctx → Prop} {eff : State → Ctx → State} {stay : Ctx → Mask}
    (hex : ∀ s, exec ins s = execX m s) (hops : ∀ s w l, m.ops s w l = [])
    (hlegal : ∀ s c, ok s c → m.legal s c.rd c.hm = true) (hhold : ∀ s c, ok s c → m.hold s c.rd c.act = false)
    (htile : ∀ s c, ok s c → m.tile s c.rd c.act = none) (hfmt : ∀ s c, ok s c → m.fmt s c.rd c.act = none)
    (hbody : ∀ s c, ok s c → c.act ≠ 0 → s.wave? c.u = some c.rd → c.u = c.rd.uid → c.tx = false →
      m.body s c = { st := eff s c, stay := stay c })
    (hbad : ∀ s c, ok s c → s.bad = none → (eff s c).bad = none) :
    SoloWord ins m.grd ok eff stay := by
  intro s i w g A h0 c hk
  have C : Clear m s i w g :=
    clear_of_ready (ops := shapeNone) (hops s w) (opsReady_none _ _ _) (hlegal s c hk)
      (fun h => by rw [A.mode] at h; cases h) (hhold s c hk)
      (.inr (htile s c hk)) (hfmt s c hk)
  have hc : countHits m s w g = s := by
    rw [counted_eq m s w g shapeNone (hops s w), hitsOf_none, counted_zero]
  have h0' : (m.active w g == 0) = false := by
    have h : m.active w g ≠ 0 := h0
    simpa using h
  have hset := settleShare_done i m w.uid w g { st := eff s c, stay := stay c } A.late rfl rfl (by intro _ p hp; cases hp)
  have hst : issueFull m s = (eff s c).mapWave w.uid (leaveWord i g (stay c) (fun _ => none)) := by
    rw [issueFull_clear A.toIssues C, h0', hc]
    simp only [Bool.false_eq_true, if_false]
    rw [hbody s c hk h0 A.found rfl A.mode, hset, raiseFlags_nil]
    rfl
  rw [hex, ← hst]
  apply finish_next
  rw [hst]
  exact hbad s c hk A.sound

/-- Where a lane of a body's answer goes, if it names a target. -/
def Res.goTo (r : Res) (l : Nat) : Option Word := (r.go.find? (·.1 == l)).map (·.2)

/-- A word of any mode, from its body's answer without a cause, an abort or a flag. -/
theorem issue_done {m : Sem} {s : State} {i : Issue} {w : Wave} {g : Mask} {r : Res} (I : Issues s i w g)
    (C : Clear m s i w g) (h0 : activeLanes m.grd w g ≠ 0)
    (hr : m.body (countHits m s w g) (soloCtx s i m.grd w g) = r) (r1 : r.traps = []) (r2 : r.abort = none)
    (r3 : r.flags = []) :
    issueFull m s = r.st.mapWave w.uid (leaveWord i g r.stay r.goTo) := by
  have h0' : (m.active w g == 0) = false := by
    have h : m.active w g ≠ 0 := h0
    simpa using h
  have hset := settleShare_done i m w.uid w g r I.late r1 r2 (by rw [r3]; intro _ p hp; cases hp)
  have hgo : nextPc i r.go = fun l => (r.goTo l).getD (pcNext i.key.pc) := by
    funext l
    unfold nextPc Res.goTo
    cases r.go.find? (·.1 == l) <;> rfl
  rw [issueFull_clear I C, h0']
  simp only [Bool.false_eq_true, if_false]
  rw [hr, hset, r3, raiseFlags_nil, hgo]
  rfl

/-- A word of any mode whose body aborts members (R369). -/
theorem issue_abort {m : Sem} {s : State} {i : Issue} {w : Wave} {g : Mask} {r : Res} {lanes : Mask} {code own : Nat}
    (I : Issues s i w g) (C : Clear m s i w g) (h0 : activeLanes m.grd w g ≠ 0)
    (hr : m.body (countHits m s w g) (soloCtx s i m.grd w g) = r) (r1 : r.traps = [])
    (r2 : r.abort = some (lanes, code, own)) (r3 : r.flags = [])
    (hs : standsBy r.st (i.core * 4 + i.quad) w.uid = false) :
    issueFull m s = retireIfDone ((r.st.mapWave w.uid (leaveWord i g r.stay r.goTo)).mapWave w.uid (fun w =>
      abortTx w lanes code own)) w.uid := by
  have h0' : (m.active w g == 0) = false := by
    have h : m.active w g ≠ 0 := h0
    simpa using h
  have hgo : nextPc i r.go = fun l => (r.goTo l).getD (pcNext i.key.pc) := by
    funext l
    unfold nextPc Res.goTo
    cases r.go.find? (·.1 == l) <;> rfl
  have hadv : (fun v : Wave => v.advance i.hm (g &&& ~~~ r.stay) i.key.pc (nextPc i r.go)) =
      leaveWord i g r.stay r.goTo := by
    rw [hgo]; rfl
  have hx : (if m.fpx then fpxTraps w.fxe r.flags else []) = [] := by
    split
    · exact fpxTraps_nil _ _ (by rw [r3]; intro p hp; cases hp)
    · rfl
  rw [issueFull_clear I C, h0']
  simp only [Bool.false_eq_true, if_false]
  rw [hr]
  unfold settleShare
  simp only [r1, r2, hx, I.late, List.append_nil, oneEach, List.filter_nil, List.map_nil, maskOf_nil, and_not_zero]
  rw [r3, raiseFlags_nil, ← hadv]
  exact takeInOrder_abort (s := r.st.mapWave w.uid _) _ lanes code own hs

theorem countHits_counted {m : Sem} {s : State} {w : Wave} {g : Mask} {ops : State → Wave → Nat → List Opnd}
    (hops : ∀ l, m.ops s w l = ops s w l) :
    countHits m s w g = counted s w.uid (hitsOf (ops s) w (activeLanes m.grd w g)) := counted_eq m s w g (ops s) hops

/-- The law of a word of members that does not abort. -/
theorem memberWord_of {ins : Instr} {m : Sem} {ops : State → Wave → Nat → List Opnd} {ok : State → Ctx → Prop}
    {eff : State → Ctx → State} (hex : ∀ s, exec ins s = execX m s) (hops : ∀ s w l, m.ops s w l = ops s w l)
    (hlegal : ∀ s u n c, c.iss.inTx = true → ok (counted s u n) c → m.legal s c.rd c.hm = true)
    (hforbid : ∀ s c, ok s c → m.forbid c.rd = false) (hhold : ∀ s u n c, s.cur = some c.iss → ok (counted s u n) c → m.hold s c.rd c.act = false)
    (htile : ∀ s w a, m.tile s w a = none) (hfmt : ∀ s u n c, ok (counted s u n) c → m.fmt s c.rd c.act = none)
    (hbody : ∀ s c, ok s c → c.act ≠ 0 → (∃ x, s.wave? c.u = some { c.rd with winhit := x }) → c.u = c.rd.uid →
      c.tx = true → m.body s c = { st := eff s c }) (hbad : ∀ s c, ok s c → s.bad = none → (eff s c).bad = none) :
    MemberWord ins m.grd ops ok eff := by
  intro s i w g I ht R h0 c s1 hk
  have hk0 : ok (counted s w.uid (hitsOf (ops s) w (activeLanes m.grd w g))) c := hk
  have C : Clear m s i w g := clear_of_ready (hops s w) R (hlegal _ _ _ c ht hk0) (fun _ => hforbid _ c hk)
    (hhold _ _ _ c I.cur hk0) (.inr (htile ..)) (hfmt _ _ _ c hk0)
  have hw : ∃ x, s1.wave? c.u = some { c.rd with winhit := x } := by
    refine ⟨w.winhit + BitVec.ofNat 64 (hitsOf (ops s) w (activeLanes m.grd w g)), ?_⟩
    show (counted s w.uid _).wave? w.uid = _
    unfold counted
    rw [State.mapWave_wave (hf := by intro v h; exact h), if_pos rfl, I.found]
    rfl
  have hb := hbody s1 c hk h0 hw rfl ht
  have h := issue_done I C h0 (r := { st := eff s1 c }) (by rw [countHits_counted (hops s w)]; exact hb) rfl rfl rfl
  have h : issueFull m s = (eff s1 c).mapWave w.uid (leaveWord i g 0 (fun _ => none)) := h
  rw [hex, ← h]
  apply finish_next
  rw [h]
  exact hbad s1 c hk I.sound

/-- The law of a word of members that aborts them. -/
theorem memberFull_of {ins : Instr} {m : Sem} {ops : State → Wave → Nat → List Opnd} {ok : State → Ctx → Prop}
    {eff : State → Ctx → State} {code : Nat} (hex : ∀ s, exec ins s = execX m s) (hops : ∀ s w l, m.ops s w l = ops s w l)
    (hlegal : ∀ s u n c, c.iss.inTx = true → ok (counted s u n) c → m.legal s c.rd c.hm = true)
    (hforbid : ∀ s c, ok s c → m.forbid c.rd = false) (hhold : ∀ s u n c, s.cur = some c.iss → ok (counted s u n) c → m.hold s c.rd c.act = false)
    (htile : ∀ s w a, m.tile s w a = none) (hfmt : ∀ s u n c, ok (counted s u n) c → m.fmt s c.rd c.act = none)
    (hbody : ∀ s c, ok s c → c.act ≠ 0 → (∃ x, s.wave? c.u = some { c.rd with winhit := x }) → c.u = c.rd.uid →
      c.tx = true → m.body s c = { st := eff s c, abort := some (c.act, code, 0) })
    (hquad : ∀ s c n, ok s c → (eff s c).quad n = s.quad n)
    (hbad : ∀ s c, ok s c → s.bad = none → (eff s c).bad = none) :
    MemberFull ins m.grd ops ok eff code := by
  intro s i w g I ht R h0 hs c s1 hk
  have hk0 : ok (counted s w.uid (hitsOf (ops s) w (activeLanes m.grd w g))) c := hk
  have C : Clear m s i w g := clear_of_ready (hops s w) R (hlegal _ _ _ c ht hk0) (fun _ => hforbid _ c hk)
    (hhold _ _ _ c I.cur hk0) (.inr (htile ..)) (hfmt _ _ _ c hk0)
  have hw : ∃ x, s1.wave? c.u = some { c.rd with winhit := x } := by
    refine ⟨w.winhit + BitVec.ofNat 64 (hitsOf (ops s) w (activeLanes m.grd w g)), ?_⟩
    show (counted s w.uid _).wave? w.uid = _
    unfold counted
    rw [State.mapWave_wave (hf := by intro v h; exact h), if_pos rfl, I.found]
    rfl
  have hb := hbody s1 c hk h0 hw rfl ht
  have h := issue_abort I C h0 (r := { st := eff s1 c, abort := some (c.act, code, 0) })
    (by rw [countHits_counted (hops s w)]; exact hb) rfl rfl rfl (by
      unfold standsBy
      rw [hquad s1 c _ hk]
      exact hs _)
  have h : issueFull m s = retireIfDone (((eff s1 c).mapWave w.uid (leaveWord i g 0 (fun _ => none))).mapWave w.uid
      (fun v => abortTx v c.act code 0)) w.uid := h
  rw [hex, ← h]
  apply finish_next
  rw [h, retireIfDone_bad]
  exact hbad s1 c hk I.sound

end Sys2Proof.Machine
end

