-- ==== Sys2Proof/Laws/Memory.lean ====
section
/-!
SUPPORT. The common end of loads, stores and atomics, when every access may go ahead at once.
-/
namespace Sys2Proof.Machine

variable {c : Ctx} {wants : List Want} {as hs : List Acc}

theorem AccsReady.chk (h : AccsReady c wants as hs) : ∀ a ∈ as, ∃ l, a.chk = .ok l := fun a ha => (h.2.1 a ha).1
theorem AccsReady.pieces (h : AccsReady c wants as hs) : ∀ a ∈ hs, ∃ l, a.chk = .ok l := fun a ha => (h.2.2 a ha).1

theorem touchAccs_ok (s : State) (h : ∀ a ∈ as, ∃ l, a.chk = .ok l) : touchAccs s as = s := by
  unfold touchAccs
  induction as generalizing s with
  | nil => rfl
  | cons a as ih =>
    obtain ⟨l, hl⟩ := h a (by simp)
    simp only [List.foldl_cons, hl]
    exact ih s (fun b hb => h b (List.mem_cons_of_mem _ hb))

theorem splitAccs_ok (tx : Bool) (h : ∀ a ∈ as, ∃ l, a.chk = .ok l) : splitAccs tx as = ([], as) := by
  have h1 : as.filterMap (Acc.trap tx) = [] := by
    rw [List.filterMap_eq_nil_iff]
    intro a ha
    obtain ⟨l, hl⟩ := h a ha
    simp [Acc.trap, hl]
  unfold splitAccs
  simp [h1]

theorem heldAccs_ok (h : ∀ a ∈ as, ∃ l, a.chk = .ok l) : heldAccs as = as.map (fun a => (a, none)) := by
  have key : ∀ (as : List Acc) (r : List (Acc × Option (Nat × Nat)) × Mask), r.2 = 0 →
      (∀ a ∈ as, ∃ l, a.chk = .ok l) →
      as.foldl (fun (r : List (Acc × Option (Nat × Nat)) × Mask) a =>
        if r.2.getLsbD a.lane then (r.1 ++ [(a, some (a.path, a.gen.getD 0))], r.2)
        else match a.held with
          | some h => (r.1 ++ [(a, some h)], r.2 ||| bitM a.lane)
          | none => (r.1 ++ [(a, none)], r.2)) r = (r.1 ++ as.map (fun a => (a, none)), 0) := by
    intro as
    induction as with
    | nil => intro r hr _; rw [← hr]; simp
    | cons a as ih =>
      intro r hr h
      obtain ⟨l, hl⟩ := h a (by simp)
      have hh : a.held = none := by simp [Acc.held, hl]
      have hz : (0 : Mask).getLsbD a.lane = false := by simp
      obtain ⟨r1, r2⟩ := r
      subst hr
      rw [List.foldl_cons, hh, if_neg (by rw [hz]; simp), ih _ rfl (fun b hb => h b (List.mem_cons_of_mem _ hb))]
      simp
  exact (congrArg Prod.fst (key as ([], 0) rfl h)).trans (by simp)

theorem all_unheld (h : ∀ a ∈ as, ∃ l, a.chk = .ok l) : as.all (·.held.isNone) = true := by
  rw [List.all_eq_true]
  intro a ha
  obtain ⟨l, hl⟩ := h a ha
  simp [Acc.held, hl]

theorem watchTraps_ok (s : State) (h : AccsReady c wants as hs) : watchTraps s c wants as = [] := by
  unfold watchTraps
  simp only [all_unheld h.chk, heldAccs_ok h.chk, if_true]
  rw [List.filterMap_eq_nil_iff]
  intro p hp
  obtain ⟨a, ha, rfl⟩ := List.mem_map.1 (List.mem_filter.1 hp).1
  obtain ⟨⟨l, hl⟩, -, hw⟩ := h.2.1 a ha
  cases hg : a.gen with
  | none => rfl
  | some g => simp [hl, hw g hg]

theorem not_ragged (h : AccsReady c wants as hs) : as.any (·.ragged) = false := by
  rw [List.any_eq_false]
  intro a ha
  simp [(h.2.1 a ha).2.1]

theorem drawFree_ok (s : State) (h : AccsReady c wants as hs) : drawFree s as = s := by
  unfold drawFree; simp [not_ragged h]

theorem logEntry_nil (s : State) (c : Ctx) (g : Bool) : logEntry s c g [] = s := rfl

theorem loadAccs_ok (f : Full) (s : State) (h : AccsReady c [.read] as (splitHalves s c .read as)) (htx : c.tx = false) :
    loadAccs f true as s c = { st := loadBegun f as s c } := by
  have hne : as.isEmpty = false := by
    cases as with
    | nil => exact absurd rfl h.1
    | cons a as => rfl
  have hjobs : ((splitHalves s c .read as).map (fun a => (a, (none : Option (Nat × Nat))))).map (fun p =>
        { Job.read p.1.lane p.1.dst p.1.n f.ety (.mem p.1.loc p.1.size) p.1.path p.1.adr with
          held := p.2.isSome, fwd := if p.1.ragged then freeBytes { s with nextId := s.nextId + 1 } p.1.lane else [] }) =
      loadJobs f (splitHalves s c .read as) := by
    unfold loadJobs
    rw [List.map_map]
    apply List.map_congr_left
    intro a ha
    simp [(h.2.2 a ha).2, Job.read]
  have hitems : ∀ id : Nat, (((splitHalves s c .read as).map (fun a => (a, (none : Option (Nat × Nat))))).zipIdx.filterMap (fun p =>
          p.1.2.map (fun h => (p.1.1.lane, Held.job id p.2, h.1, h.2)))) = [] := by
    intro id
    rw [List.filterMap_eq_nil_iff]
    intro p hp
    have := List.fst_mem_of_mem_zipIdx hp
    obtain ⟨a, -, ha⟩ := List.mem_map.1 this
    rw [← ha]; rfl
  have hp : splitHalves { s with nextId := s.nextId + 1 } c .read as = splitHalves s c .read as := rfl
  unfold loadAccs
  simp only [touchAccs_ok s h.chk, splitAccs_ok false h.chk, hne, recordReads, htx, Bool.not_false, if_true,
    Bool.false_eq_true, if_false, Bool.not_true, State.newId, hp, heldAccs_ok h.pieces, hjobs, hitems, logEntry_nil,
    watchTraps_ok _ h, drawFree_ok _ h, startFlight, List.append_nil]
  rfl

theorem storeAccs_ok (kind : StKind) (scope : Nat) (acq rel : Bool) (mk : Acc → StPart) (s : State)
    (h : AccsReady c wants as (splitHalves s c .write as)) (htx : c.tx = false) :
    storeAccs kind scope acq rel wants as mk s c = { st := storeBegun kind scope acq rel as mk s c } := by
  have hne : as.isEmpty = false := by
    cases as with
    | nil => exact absurd rfl h.1
    | cons a as => rfl
  have hps : (splitHalves s c .write as).map (fun a => if a.ragged then { mk a with val := freeNat s a.lane } else mk a) =
      (splitHalves s c .write as).map mk := by
    apply List.map_congr_left
    intro a ha
    simp [(h.2.2 a ha).2]
  have hitems : ∀ id : Nat, (((splitHalves s c .write as).map (fun a => (a, (none : Option (Nat × Nat))))).zipIdx.filterMap (fun p =>
          p.1.2.map (fun h => (p.1.1.lane, Held.part id p.2, h.1, h.2)))) = [] := by
    intro id
    rw [List.filterMap_eq_nil_iff]
    intro p hp
    have := List.fst_mem_of_mem_zipIdx hp
    obtain ⟨a, -, ha⟩ := List.mem_map.1 this
    rw [← ha]; rfl
  unfold storeAccs
  simp only [touchAccs_ok s h.chk, splitAccs_ok false h.chk, hne, htx, Bool.false_eq_true, if_false, hps,
    State.newId, heldAccs_ok h.pieces, hitems, logEntry_nil, watchTraps_ok _ h, drawFree_ok _ h, List.append_nil, enqueue]
  rfl

theorem atomicAccs_ok (f : Full) (op scope : Nat) (acq rel ret : Bool) (arg : Nat → AtomArgs) (s : State)
    (h : AccsReady c [.atomic] as hs) (htx : c.tx = false) :
    atomicAccs f op scope acq rel ret arg as s c = { st := atomicBegun f op scope acq rel ret arg as s c } := by
  have hne : as.isEmpty = false := by
    cases as with
    | nil => exact absurd rfl h.1
    | cons a as => rfl
  have hheld : ∀ a ∈ as, a.held = none := by
    intro a ha
    obtain ⟨l, hl⟩ := h.chk a ha
    simp [Acc.held, hl]
  have hjobs : ∀ n : Nat, as.map (fun a => { Job.read a.lane f.dn f.ety.regs f.ety .await a.path a.adr with
        held := a.held.isSome, fwd := if a.ragged then freeBytes { s with nextId := n } (a.lane + 64) else [] }) =
      as.map (fun a => Job.read a.lane f.dn f.ety.regs f.ety .await a.path a.adr) := by
    intro n
    apply List.map_congr_left
    intro a ha
    simp [(h.2.1 a ha).2.1, hheld a ha, Job.read]
  have hparts : ∀ (t : State) (r : Acc × Nat → Option Nat), as.zipIdx.map (fun p =>
      p.1.part f.ety (.rmw (if p.1.ragged then 6 else op) (arg p.1.lane).cmp)
        (if p.1.ragged then freeNat t p.1.lane else (arg p.1.lane).val) (r p) .atomic) =
      as.zipIdx.map (fun p => p.1.part f.ety (.rmw op (arg p.1.lane).cmp) (arg p.1.lane).val
        (r p) .atomic) := by
    intro t r
    apply List.map_congr_left
    intro p hp
    simp [(h.2.1 p.1 (List.fst_mem_of_mem_zipIdx hp)).2.1]
  have hitems : ∀ id : Nat, as.zipIdx.filterMap (fun p =>
      p.1.held.map (fun h => (p.1.lane, Held.part id p.2, h.1, h.2))) = [] := by
    intro id
    rw [List.filterMap_eq_nil_iff]
    intro p hp
    simp [hheld p.1 (List.fst_mem_of_mem_zipIdx hp)]
  unfold atomicAccs
  cases ret
  all_goals
    simp only [touchAccs_ok s h.chk, splitAccs_ok false h.chk, hne, htx, Bool.false_eq_true, if_false, if_true,
      State.newId, hjobs, hparts, hitems, logEntry_nil, watchTraps_ok _ h, drawFree_ok _ h, List.append_nil, enqueue,
      startFlight, Bool.not_true]
    rfl

/-! ## Members (R363) -/

theorem nonempty (h : AccsReady c wants as hs) : as.isEmpty = false := by
  cases as with
  | nil => exact absurd rfl h.1
  | cons a as => rfl

theorem ready_parts (s : State) (mk : Acc → StPart) (h : AccsReady c wants as hs) :
    as.map (fun a => if a.ragged then { mk a with val := freeNat s a.lane } else mk a) = as.map mk := by
  apply List.map_congr_left
  intro a ha
  simp [(h.2.1 a ha).2.1]

theorem memberParts_length (mk : Acc → StPart) (s : State) : (memberParts as mk s c).length = as.length := by
  simp [memberParts, markShared]

/-- A store by members. -/
theorem storeAccs_member (kind : StKind) (scope : Nat) (acq rel : Bool) (mk : Acc → StPart) (s : State)
    (h : AccsReady c wants as hs) (htx : c.tx = true) (hw : ∃ x, s.wave? c.u = some { c.rd with winhit := x })
    (hroom : c.rd.kettle.buf.length + as.length ≤ 256) :
    storeAccs kind scope acq rel wants as mk s c = { st := storeBuffered as mk s c } := by
  obtain ⟨x, hw⟩ := hw
  have hbuf : bufferParts s c.u (memberParts as mk s c) =
      (s.mapWave c.u (fun w => { w with kettle := { w.kettle with buf := w.kettle.buf ++ memberParts as mk s c } }), true) := by
    unfold bufferParts
    simp only [hw, memberParts_length]
    rw [if_neg (by omega)]
  unfold storeAccs
  simp only [touchAccs_ok s h.chk, splitAccs_ok true h.chk, nonempty h, htx, Bool.false_eq_true, if_false, if_true,
    ready_parts s mk h, drawFree_ok _ h, watchTraps_ok _ h, List.append_nil]
  rw [show markShared s c.ctxNo (as.map mk) = memberParts as mk s c from rfl, hbuf]
  rfl

theorem storeAccs_full (kind : StKind) (scope : Nat) (acq rel : Bool) (mk : Acc → StPart) (s : State)
    (h : AccsReady c wants as hs) (htx : c.tx = true) (hw : ∃ x, s.wave? c.u = some { c.rd with winhit := x })
    (hroom : c.rd.kettle.buf.length + as.length > 256) :
    storeAccs kind scope acq rel wants as mk s c = { st := s, abort := some (c.act, 3, 0) } := by
  obtain ⟨x, hw⟩ := hw
  have hbuf : bufferParts s c.u (memberParts as mk s c) = (s, false) := by
    unfold bufferParts
    simp only [hw, memberParts_length]
    rw [if_pos (by omega)]
  unfold storeAccs
  simp only [touchAccs_ok s h.chk, splitAccs_ok true h.chk, nonempty h, htx, Bool.false_eq_true, if_false, if_true,
    ready_parts s mk h, drawFree_ok _ h]
  rw [show markShared s c.ctxNo (as.map mk) = memberParts as mk s c from rfl, hbuf]
  rfl

/-- Recording reads changes the read set of the wave alone. -/
theorem recordReads_wave (s : State) {x : BitVec 64} (htx : c.tx = true) (hw : s.wave? c.u = some { c.rd with winhit := x }) :
    ∃ rs, (recordReads s c as).1 = s.mapWave c.u (fun w => { w with kettle := { w.kettle with reads := rs } }) ∨
      (recordReads s c as).1 = s := by
  unfold recordReads
  simp only [htx, Bool.not_true, Bool.false_eq_true, if_false, hw]
  split
  · exact ⟨[], .inr rfl⟩
  · exact ⟨_, .inl rfl⟩

theorem recordReads_full {s t : State} (h : recordReads s c as = (t, false)) : t = s := by
  unfold recordReads at h
  split at h
  · cases h
  · split at h
    · cases h
    · simp only at h
      split at h
      · cases h; rfl
      · cases h

/-- What a load by members finds in the store buffer does not depend on what issue has recorded. -/
theorem fwd_same {s r : State} {x : BitVec 64} {b : Bool} (n : Nat) (htx : c.tx = true)
    (hw : s.wave? c.u = some { c.rd with winhit := x }) (hr : recordReads s c as = (r, b)) (lane : Nat) (l : Loc) :
    (match ({ r with nextId := n } : State).wave? c.u with
      | some w => bufferBytes { r with nextId := n } w lane l
      | none => []) = bufferBytes s c.rd lane l := by
  have hr : r = (recordReads s c as).1 := by rw [hr]
  obtain ⟨rs, h | h⟩ := recordReads_wave (as := as) s htx hw
  · have e : ({ r with nextId := n } : State).wave? c.u =
        some { c.rd with winhit := x, kettle := { c.rd.kettle with reads := rs } } := by
      rw [hr, h]
      show (s.mapWave c.u _).wave? c.u = _
      rw [State.mapWave_wave (hf := by intro v h; exact h), if_pos rfl, hw]
      rfl
    rw [e, hr, h]
    rfl
  · have e : ({ r with nextId := n } : State).wave? c.u = some { c.rd with winhit := x } := by
      rw [hr, h]; exact hw
    rw [e, hr, h]
    rfl

/-- The checks of an address see of the waves only which teams have one that is not retired. -/
theorem checkGeneric_waves (s : State) (ws : List Wave) (n : Nat)
    (h : ∀ u, (ws.filter (·.team == u)).all (·.retired) = (s.waves.filter (·.team == u)).all (·.retired)) :
    checkGeneric { s with waves := ws, nextId := n } = checkGeneric s := by
  funext w addr size want rs
  unfold checkGeneric
  simp only [h]
  rfl

/-- A change of one wave that keeps its team and its retirement. -/
theorem retired_map (ws : List Wave) (u k : Nat) (f : Wave → Wave) (hf : ∀ v, (f v).team = v.team ∧ (f v).retired = v.retired) :
    ((ws.map (fun v => if v.uid = u then f v else v)).filter (·.team == k)).all (·.retired) =
      (ws.filter (·.team == k)).all (·.retired) := by
  induction ws with
  | nil => rfl
  | cons v vs ih =>
    rw [List.map_cons]
    have ht : (if v.uid = u then f v else v).team = v.team := by
      split
      · exact (hf v).1
      · rfl
    have hr : (if v.uid = u then f v else v).retired = v.retired := by
      split
      · exact (hf v).2
      · rfl
    simp only [List.filter_cons, ht]
    split
    · simp only [List.all_cons, hr, ih]
    · exact ih

theorem splitHalves_congr {s t : State} (w : Want) (h : checkGeneric s = checkGeneric t) :
    splitHalves s c w as = splitHalves t c w as := by
  unfold splitHalves; rw [h]

theorem halves_same {s r : State} {x : BitVec 64} {b : Bool} (n : Nat) (w : Want) (htx : c.tx = true)
    (hw : s.wave? c.u = some { c.rd with winhit := x }) (hr : recordReads s c as = (r, b)) :
    splitHalves { r with nextId := n } c w as = splitHalves s c w as := by
  have hr : r = (recordReads s c as).1 := by rw [hr]
  obtain ⟨rs, h | h⟩ := recordReads_wave (as := as) s htx hw
  · rw [hr, h]
    exact splitHalves_congr w (checkGeneric_waves s _ n (fun k => retired_map s.waves c.u k _ (fun _ => ⟨rfl, rfl⟩)))
  · rw [hr, h]; rfl

/-- A load by members. -/
theorem loadAccs_member (f : Full) (s : State) (h : AccsReady c [.read] as (splitHalves s c .read as)) (htx : c.tx = true)
    (hw : ∃ x, s.wave? c.u = some { c.rd with winhit := x }) (hr : (recordReads s c as).2 = true) :
    loadAccs f true as s c =
      if (loadLog f as s c).2 then { st := loadLogged f as s c }
      else { st := (loadLog f as s c).1, abort := some (c.act, 4, 0) } := by
  obtain ⟨x, hw⟩ := hw
  obtain ⟨r, hsplit⟩ : ∃ r, recordReads s c as = (r, true) := ⟨_, Prod.ext rfl hr⟩
  have hn : r.nextId = s.nextId := by
    have e : r = (recordReads s c as).1 := by rw [hsplit]
    obtain ⟨rs, h | h⟩ := recordReads_wave (as := as) s htx hw <;> rw [e, h] <;> rfl
  have hjobs : ∀ F : Acc × Option (Nat × Nat) → Job, (∀ a ∈ splitHalves s c .read as, F (a, none) =
      { Job.read a.lane a.dst a.n f.ety (.mem a.loc a.size) a.path a.adr with fwd := bufferBytes s c.rd a.lane a.loc }) →
      ((splitHalves s c .read as).map (fun a => (a, (none : Option (Nat × Nat))))).map F = memberJobs f as s c := by
    intro F hF
    unfold memberJobs
    rw [List.map_map]
    exact List.map_congr_left hF
  have hitems : ∀ id : Nat, (((splitHalves s c .read as).map (fun a => (a, (none : Option (Nat × Nat))))).zipIdx.filterMap (fun p =>
          p.1.2.map (fun h => (p.1.1.lane, Held.job id p.2, h.1, h.2)))) = [] := by
    intro id
    rw [List.filterMap_eq_nil_iff]
    intro p hp
    have := List.fst_mem_of_mem_zipIdx hp
    obtain ⟨a, -, ha⟩ := List.mem_map.1 this
    rw [← ha]; rfl
  have hlog : loadLog f as s c = logRegs { r with nextId := s.nextId + 1 } c.u
      ((memberJobs f as s c).map (fun j => rangeFrom j.dst j.n)).flatten := by
    unfold loadLog; rw [hsplit]
  unfold loadAccs
  simp only [touchAccs_ok s h.chk, htx, splitAccs_ok true h.chk, nonempty h, Bool.false_eq_true, if_false, hsplit,
    Bool.not_true, if_true, State.newId, hn, halves_same (s.nextId + 1) .read htx hw hsplit,
    heldAccs_ok h.pieces, hitems, logEntry_nil, drawFree_ok _ h, startFlight, watchTraps_ok _ h, List.append_nil]
  rw [hjobs _ (by
    intro a ha
    simp only [(h.2.2 a ha).2, Bool.false_eq_true, if_false]
    exact congrArg (fun b => { Job.read a.lane a.dst a.n f.ety (.mem a.loc a.size) a.path a.adr with fwd := b })
      (fwd_same (s.nextId + 1) htx hw hsplit a.lane a.loc))]
  unfold loadLogged
  rw [← hlog]
  cases e : (loadLog f as s c).2 <;> rfl

theorem loadAccs_full (f : Full) (s : State) (h : AccsReady c [.read] as hs) (htx : c.tx = true)
    (hr : (recordReads s c as).2 = false) : loadAccs f true as s c = { st := s, abort := some (c.act, 5, 0) } := by
  have hsplit : recordReads s c as = (s, false) := by
    have : recordReads s c as = ((recordReads s c as).1, false) := Prod.ext rfl hr
    have e := recordReads_full this
    rw [e] at this; exact this
  unfold loadAccs
  simp only [touchAccs_ok s h.chk, htx, splitAccs_ok true h.chk, nonempty h, Bool.false_eq_true, if_false, hsplit,
    Bool.not_false, if_true]
  rfl

/-! ## What reaching a row changes -/

/-- `t` is `s` but for what stands below its addresses: marks, seals and slices. -/
def SameAbove (s t : State) : Prop := ∃ p q z, t = { s with poison := p, seals := q, slices := z }

theorem SameAbove.refl (s : State) : SameAbove s s := ⟨_, _, _, rfl⟩
theorem SameAbove.trans {s t r : State} (h : SameAbove s t) (k : SameAbove t r) : SameAbove s r := by
  obtain ⟨p, q, z, rfl⟩ := h
  obtain ⟨p', q', z', rfl⟩ := k
  exact ⟨p', q', z', rfl⟩
theorem SameAbove.activate (s : State) (n row : Nat) : SameAbove s (activate s n row) := ⟨_, _, _, rfl⟩
theorem SameAbove.sealRow (s : State) (row : Nat) (k : Seal) : SameAbove s (sealRow s row k) := ⟨_, _, _, rfl⟩
theorem SameAbove.mapSlice (s : State) (n : Nat) (f : Slice → Slice) : SameAbove s (s.mapSlice n f) := ⟨_, _, _, rfl⟩

theorem SameAbove.checkSeal (s : State) (line : Nat) (k : Seal) : SameAbove s (checkSeal s line k) := by
  unfold Machine.checkSeal
  split
  · split
    · exact .refl s
    · exact ⟨_, _, _, rfl⟩
  · exact .refl s

theorem SameAbove.evict (s : State) (n line : Nat) : SameAbove s (evict s n line) := by
  unfold Machine.evict
  split
  · exact .refl s
  · simp only
    refine SameAbove.trans ?_ (SameAbove.mapSlice ..)
    split
    · exact ⟨_, _, _, rfl⟩
    · exact .refl s

theorem SameAbove.fillLine (s : State) (n line : Nat) (k : Seal) (w : Bool) : SameAbove s (fillLine s n line k w) := by
  unfold Machine.fillLine
  simp only
  refine SameAbove.trans ?_ (SameAbove.mapSlice ..)
  refine SameAbove.trans ?_ (SameAbove.checkSeal ..)
  refine SameAbove.trans ?_ (SameAbove.activate ..)
  split
  · exact .refl s
  · split
    · exact SameAbove.evict ..
    · exact .refl s

theorem SameAbove.useLine (w : Bool) (h : Home) (s : State) (line : Nat) : SameAbove s (useLine w h s line) := by
  unfold Machine.useLine
  split
  · exact .refl s
  · simp only
    have h0 : SameAbove s (if rowLive s (rowOf line) then s else Machine.sealRow s (rowOf line) h.key) := by
      split
      · exact .refl s
      · exact SameAbove.sealRow ..
    refine h0.trans ?_
    generalize (if rowLive s (rowOf line) = true then s else Machine.sealRow s (rowOf line) h.key) = t
    split
    · split
      · exact SameAbove.mapSlice ..
      · exact .refl t
    · exact SameAbove.fillLine ..
    · refine SameAbove.trans (SameAbove.checkSeal t line h.key) ?_
      split
      · exact ⟨_, _, _, rfl⟩
      · exact .refl _

theorem SameAbove.fold {α : Type} (f : State → α → State) (hf : ∀ s a, SameAbove s (f s a)) (l : List α) :
    ∀ s, SameAbove s (l.foldl f s) := by
  induction l with
  | nil => intro s; exact .refl s
  | cons a l ih => intro s; exact (hf s a).trans (ih (f s a))

theorem SameAbove.useLoc (s : State) (w : Bool) (ctx die path va : Nat) (l : Loc) :
    SameAbove s (useLoc s w ctx die path va l) := SameAbove.fold _ (fun _ _ => SameAbove.useLine ..) _ s

/-- An atomic by members. -/
theorem atomicAccs_member (f : Full) (op scope : Nat) (acq rel ret : Bool) (arg : Nat → AtomArgs) (s : State)
    (h : AccsReady c [.atomic] as hs) (htx : c.tx = true) (hw : ∃ x, s.wave? c.u = some { c.rd with winhit := x })
    (hr : (recordReads s c as).2 = true) (hp : ∀ a ∈ as, (coreRead (memberReads as s c) c.rd.core a.loc).2 = false) :
    atomicAccs f op scope acq rel ret arg as s c =
      if 256 < c.rd.kettle.buf.length + as.length then { st := memberReads as s c, abort := some (c.act, 3, 0) }
      else if !ret then { st := atomicSeen f op arg as s c }
      else if (retLog f op arg as s c).2 then { st := atomicBuffered f op true arg as s c }
      else { st := (retLog f op arg as s c).1, abort := some (c.act, 4, 0) } := by
  obtain ⟨x, hw⟩ := hw
  obtain ⟨r, hsplit⟩ : ∃ r, recordReads s c as = (r, true) := ⟨_, Prod.ext rfl hr⟩
  have hm : as.foldl (fun s a => useLoc s false c.ctxNo (c.rd.core / 96) a.path a.adr a.loc) r = memberReads as s c := by
    unfold memberReads; rw [hsplit]
  have hwave : ∃ k, (memberReads as s c).wave? c.u = some { c.rd with winhit := x, kettle := { c.rd.kettle with reads := k } } := by
    have hs : SameAbove r (memberReads as s c) := by
      rw [← hm]
      exact SameAbove.fold _ (fun _ _ => SameAbove.useLoc ..) _ _
    have he : (memberReads as s c).wave? c.u = r.wave? c.u := by obtain ⟨_, _, _, e⟩ := hs; rw [e]; rfl
    rw [he]
    have e : r = (recordReads s c as).1 := by rw [hsplit]
    obtain ⟨rs, h | h⟩ := recordReads_wave (as := as) s htx hw
    · refine ⟨rs, ?_⟩
      rw [e, h, State.mapWave_wave (hf := by intro v h; exact h), if_pos rfl, hw]
      rfl
    · exact ⟨c.rd.kettle.reads, by rw [e, h, hw]⟩
  obtain ⟨k, hwave⟩ := hwave
  have hbad : as.filter (fun a => (coreRead (memberReads as s c) c.rd.core a.loc).2) = [] := by
    rw [List.filter_eq_nil_iff]; intro a ha; simp [hp a ha]
  have hparts : (as.map (fun a => (a, memberOld (memberReads as s c) c a))).map (fun p =>
      p.1.part f.ety .store (atomicNew f.ety op p.2 (arg p.1.lane).val (arg p.1.lane).cmp) none .write) =
      as.map (fun a => a.part f.ety .store (atomicNew f.ety op (memberOld (memberReads as s c) c a) (arg a.lane).val
        (arg a.lane).cmp) none .write) := by rw [List.map_map]; rfl
  have holds : ∀ F : Acc → Nat, (∀ a ∈ as, F a = memberOld (memberReads as s c) c a) →
      as.map (fun a => (a, F a)) = as.map (fun a => (a, memberOld (memberReads as s c) c a)) := by
    intro F hF
    exact List.map_congr_left (fun a ha => by rw [hF a ha])
  have hseen : ∀ w : Wave, ∀ t : State, (as.map (fun a => (a, memberOld (memberReads as s c) c a))).foldl (fun w p =>
      seeRead w p.1.lane t.nextId p.1.loc (p.1.loc.addrs t)) w =
      as.foldl (fun w a => seeRead w a.lane t.nextId a.loc (a.loc.addrs t)) w := by
    intro w t; rw [List.foldl_map]
  have hall : as.filter (fun _ => true) = as := List.filter_eq_self.2 (fun _ _ => rfl)
  have hbuf : bufferParts (memberReads as s c) c.u (memberNews f op arg as s c) =
      if 256 < c.rd.kettle.buf.length + as.length then (memberReads as s c, false)
      else ((memberReads as s c).mapWave c.u (fun w =>
        { w with kettle := { w.kettle with buf := w.kettle.buf ++ memberNews f op arg as s c } }), true) := by
    unfold bufferParts
    simp only [hwave]
    have : (memberNews f op arg as s c).length = as.length := memberParts_length ..
    rw [this]
  unfold atomicAccs
  simp only [touchAccs_ok s h.chk, htx, splitAccs_ok true h.chk, nonempty h, Bool.false_eq_true, if_false, if_true]
  unfold memberAtomic
  simp only [hsplit, Bool.not_true, Bool.false_eq_true, if_false, hm, hwave, hbad, List.map_nil, List.append_nil, List.any_nil,
    Bool.not_false, hall]
  rw [holds _ (by
    intro a ha
    simp only [(h.2.1 a ha).2.1, Bool.false_eq_true, if_false]
    rfl)]
  simp only [drawFree_ok _ h, hparts]
  rw [show markShared (memberReads as s c) c.ctxNo (as.map (fun a => a.part f.ety .store
    (atomicNew f.ety op (memberOld (memberReads as s c) c a) (arg a.lane).val (arg a.lane).cmp) none .write)) =
    memberNews f op arg as s c from rfl, hbuf]
  by_cases hroom : 256 < c.rd.kettle.buf.length + as.length
  · simp only [hroom, if_true, Bool.not_false]; rfl
  · simp only [hroom, if_false, Bool.not_true, Bool.false_eq_true, hseen, watchTraps_ok _ h]
    cases ret with
    | false => simp only [Bool.not_false, Bool.true_or, if_true]; rfl
    | true =>
      simp only [Bool.not_true, nonempty h, Bool.or_self, Bool.false_eq_true, if_false, State.newId, startFlight, htx, if_true]
      have hrets : (as.map (fun a => (a, memberOld (memberReads as s c) c a))).map (fun p =>
          Job.known p.1.lane f.dn f.ety (natWords f.ety.regs p.2) 0) = memberRets f as s c := by rw [List.map_map]; rfl
      rw [hrets]
      generalize hq : logRegs _ c.u _ = q
      have hq : retLog f op arg as s c = q := hq
      unfold atomicBuffered
      rw [hq]
      obtain ⟨t, b⟩ := q
      cases b <;> rfl

end Sys2Proof.Machine
end

