-- ==== Sys2Proof/Laws/PerInstr.lean ====
section
/-!
SUPPORT. What the decoder reads from the fields that an instruction encodes, instruction by instruction: the
opcode map of R243 to R251 gives back the constructor, and so does the half map of R237 to R239.
-/
namespace Sys2Proof.Laws.OpcMap

/-- The opcode map, applied to the fields of a well-formed instruction, answers that instruction. -/
def Statement (i : Instr) : Prop :=
  i.wellFormed = true →
    (∀ f sp, i.spec = some (f, sp) → opcInstr sp.opc f = some i) ∧
    (∀ a b, i.spec = none → i.pair = some (a, b) → halfInstr a.op a.h b = i)

/-- A full-form constructor that its OPC alone names. -/
theorem full {i : Instr} {f : Full} {sp : Spec} (hs : i.spec = some (f, sp)) (ho : opcInstr sp.opc f = some i) : Statement i := by
  intro _
  refine ⟨?_, fun a b h _ => ?_⟩
  · intro g sq h
    rw [hs] at h
    cases h
    exact ho
  · rw [hs] at h; cases h

/-- A full-form constructor that I or the modifier names beside its OPC: its own checks decide. -/
theorem picked {i : Instr} {f : Full} {sp : Spec} (hs : i.spec = some (f, sp))
    (ho : sp.ok f = true → opcInstr sp.opc f = some i) : Statement i := by
  intro h
  have : sp.ok f = true := by
    unfold Instr.wellFormed at h
    rw [hs] at h
    exact h
  exact full hs (ho this) h

/-- A pair word. -/
theorem half {i : Instr} {a b : HalfWord} (hn : i.spec = none) (hp : i.pair = some (a, b)) (hh : halfInstr a.op a.h b = i) :
    Statement i := by
  intro _
  refine ⟨fun f sp h => ?_, fun x y _ h => ?_⟩
  · rw [hn] at h; cases h
  · rw [hp] at h
    cases h
    exact hh

/-- A step of the device has no word. -/
theorem device {i : Instr} (hn : i.spec = none) (hp : i.pair = none) : Statement i := by
  intro _
  refine ⟨fun f sp h => ?_, fun x y _ h => ?_⟩
  · rw [hn] at h; cases h
  · rw [hp] at h; cases h

/-- What the whole-word conditions say of the form and the modifier. -/
theorem ok_form {f : Full} {sp : Spec} (h : sp.ok f = true) :
    (sp.form = .imm → f.imm? = true) ∧ (sp.form = .reg → f.imm? = false) ∧ sp.md = true := by
  unfold Spec.ok at h
  simp only [Bool.and_eq_true] at h
  refine ⟨?_, ?_, h.1.1.1.2⟩
  · intro e; have := h.1.1.1.1.1.1.1.2; rw [e] at this; exact this
  · intro e; have := h.1.1.1.1.1.1.1.2; rw [e] at this; simpa using this

theorem iadd {x0} : Statement (.iadd x0) := full rfl (by dsimp only; unfold opcInstr; rfl)
theorem isub {x0} : Statement (.isub x0) := full rfl (by dsimp only; unfold opcInstr; rfl)
theorem imul {x0} : Statement (.imul x0) := full rfl (by dsimp only; unfold opcInstr; rfl)
theorem imulh {x0} : Statement (.imulh x0) := full rfl (by dsimp only; unfold opcInstr; rfl)
theorem imad {x0} : Statement (.imad x0) := full rfl (by dsimp only; unfold opcInstr; rfl)
theorem imin {x0} : Statement (.imin x0) := full rfl (by dsimp only; unfold opcInstr; rfl)
theorem imax {x0} : Statement (.imax x0) := full rfl (by dsimp only; unfold opcInstr; rfl)
theorem iabs {x0} : Statement (.iabs x0) := full rfl (by dsimp only; unfold opcInstr; rfl)
theorem ineg {x0} : Statement (.ineg x0) := full rfl (by dsimp only; unfold opcInstr; rfl)
theorem and {x0} : Statement (.and x0) := full rfl (by dsimp only; unfold opcInstr; rfl)
theorem or {x0} : Statement (.or x0) := full rfl (by dsimp only; unfold opcInstr; rfl)
theorem xor {x0} : Statement (.xor x0) := full rfl (by dsimp only; unfold opcInstr; rfl)
theorem andn {x0} : Statement (.andn x0) := full rfl (by dsimp only; unfold opcInstr; rfl)
theorem not {x0} : Statement (.not x0) := full rfl (by dsimp only; unfold opcInstr; rfl)
theorem shl {x0} : Statement (.shl x0) := full rfl (by dsimp only; unfold opcInstr; rfl)
theorem shr {x0} : Statement (.shr x0) := full rfl (by dsimp only; unfold opcInstr; rfl)
theorem sar {x0} : Statement (.sar x0) := full rfl (by dsimp only; unfold opcInstr; rfl)
theorem rot {x0} : Statement (.rot x0) := full rfl (by dsimp only; unfold opcInstr; rfl)
theorem fshf {x0} : Statement (.fshf x0) := full rfl (by dsimp only; unfold opcInstr; rfl)
theorem popc {x0} : Statement (.popc x0) := full rfl (by dsimp only; unfold opcInstr; rfl)
theorem clz {x0} : Statement (.clz x0) := full rfl (by dsimp only; unfold opcInstr; rfl)
theorem ctz {x0} : Statement (.ctz x0) := full rfl (by dsimp only; unfold opcInstr; rfl)
theorem brev {x0} : Statement (.brev x0) := full rfl (by dsimp only; unfold opcInstr; rfl)
theorem bfx {x0} : Statement (.bfx x0) := full rfl (by dsimp only; unfold opcInstr; rfl)
theorem bfi {x0} : Statement (.bfi x0) := full rfl (by dsimp only; unfold opcInstr; rfl)
theorem lea {x0} : Statement (.lea x0) := full rfl (by dsimp only; unfold opcInstr; rfl)
theorem idot4 {x0} : Statement (.idot4 x0) := full rfl (by dsimp only; unfold opcInstr; rfl)
theorem bpick {x0} : Statement (.bpick x0) := full rfl (by dsimp only; unfold opcInstr; rfl)
theorem fadd {x0} : Statement (.fadd x0) := full rfl (by dsimp only; unfold opcInstr; rfl)
theorem fsub {x0} : Statement (.fsub x0) := full rfl (by dsimp only; unfold opcInstr; rfl)
theorem fmul {x0} : Statement (.fmul x0) := full rfl (by dsimp only; unfold opcInstr; rfl)
theorem fma {x0} : Statement (.fma x0) := full rfl (by dsimp only; unfold opcInstr; rfl)
theorem fnma {x0} : Statement (.fnma x0) := full rfl (by dsimp only; unfold opcInstr; rfl)
theorem fdiv {x0} : Statement (.fdiv x0) := full rfl (by dsimp only; unfold opcInstr; rfl)
theorem fmin {x0} : Statement (.fmin x0) := full rfl (by dsimp only; unfold opcInstr; rfl)
theorem fmax {x0} : Statement (.fmax x0) := full rfl (by dsimp only; unfold opcInstr; rfl)
theorem fabs {x0} : Statement (.fabs x0) := full rfl (by dsimp only; unfold opcInstr; rfl)
theorem fneg {x0} : Statement (.fneg x0) := full rfl (by dsimp only; unfold opcInstr; rfl)
theorem frcp {x0} : Statement (.frcp x0) := full rfl (by dsimp only; unfold opcInstr; rfl)
theorem frsq {x0} : Statement (.frsq x0) := full rfl (by dsimp only; unfold opcInstr; rfl)
theorem fsqrt {x0} : Statement (.fsqrt x0) := full rfl (by dsimp only; unfold opcInstr; rfl)
theorem fexp2 {x0} : Statement (.fexp2 x0) := full rfl (by dsimp only; unfold opcInstr; rfl)
theorem flog2 {x0} : Statement (.flog2 x0) := full rfl (by dsimp only; unfold opcInstr; rfl)
theorem fsin {x0} : Statement (.fsin x0) := full rfl (by dsimp only; unfold opcInstr; rfl)
theorem fcos {x0} : Statement (.fcos x0) := full rfl (by dsimp only; unfold opcInstr; rfl)
theorem frnd {x0} : Statement (.frnd x0) := full rfl (by dsimp only; unfold opcInstr; rfl)
theorem fscl {x0} : Statement (.fscl x0) := full rfl (by dsimp only; unfold opcInstr; rfl)
theorem fcls {x0} : Statement (.fcls x0) := full rfl (by dsimp only; unfold opcInstr; rfl)
theorem fdot2 {x0} : Statement (.fdot2 x0) := full rfl (by dsimp only; unfold opcInstr; rfl)
theorem fsumv {x0} : Statement (.fsumv x0) := full rfl (by dsimp only; unfold opcInstr; rfl)
theorem cmul {x0} : Statement (.cmul x0) := full rfl (by dsimp only; unfold opcInstr; rfl)
theorem cfma {x0} : Statement (.cfma x0) := full rfl (by dsimp only; unfold opcInstr; rfl)
theorem cconj {x0} : Statement (.cconj x0) := full rfl (by dsimp only; unfold opcInstr; rfl)
theorem crcp {x0} : Statement (.crcp x0) := full rfl (by dsimp only; unfold opcInstr; rfl)
theorem cvt {x0} : Statement (.cvt x0) := full rfl (by dsimp only; unfold opcInstr; rfl)
theorem srnd {x0} : Statement (.srnd x0) := full rfl (by dsimp only; unfold opcInstr; rfl)
theorem pack {x0} : Statement (.pack x0) := full rfl (by dsimp only; unfold opcInstr; rfl)
theorem unpk {x0} : Statement (.unpk x0) := full rfl (by dsimp only; unfold opcInstr; rfl)
theorem icmp {x0} : Statement (.icmp x0) := full rfl (by dsimp only; unfold opcInstr; rfl)
theorem fcmp {x0} : Statement (.fcmp x0) := full rfl (by dsimp only; unfold opcInstr; rfl)
theorem sel {x0} : Statement (.sel x0) := full rfl (by dsimp only; unfold opcInstr; rfl)
theorem plog {x0} : Statement (.plog x0) := full rfl (by dsimp only; unfold opcInstr; rfl)
theorem pmov {x0} : Statement (.pmov x0) := full rfl (by dsimp only; unfold opcInstr; rfl)
theorem vote {x0} : Statement (.vote x0) := full rfl (by dsimp only; unfold opcInstr; rfl)
theorem lxb {x0} : Statement (.lxb x0) := full rfl (by dsimp only; unfold opcInstr; rfl)
theorem lxs {x0} : Statement (.lxs x0) := full rfl (by dsimp only; unfold opcInstr; rfl)
theorem lxbc {x0} : Statement (.lxbc x0) := full rfl (by dsimp only; unfold opcInstr; rfl)
theorem lxrd {x0} : Statement (.lxrd x0) := full rfl (by dsimp only; unfold opcInstr; rfl)
theorem mov {x0} : Statement (.mov x0) := full rfl (by dsimp only; unfold opcInstr; rfl)
theorem movi {x0} : Statement (.movi x0) := full rfl (by dsimp only; unfold opcInstr; rfl)
theorem movx {x0} : Statement (.movx x0) := full rfl (by dsimp only; unfold opcInstr; rfl)
theorem movxw {x0} : Statement (.movxw x0) := full rfl (by dsimp only; unfold opcInstr; rfl)
theorem setx {x0} : Statement (.setx x0) := full rfl (by dsimp only; unfold opcInstr; rfl)
theorem gets {x0} : Statement (.gets x0) := full rfl (by dsimp only; unfold opcInstr; rfl)
theorem sets {x0} : Statement (.sets x0) := full rfl (by dsimp only; unfold opcInstr; rfl)
theorem wmov {x0} : Statement (.wmov x0) := full rfl (by dsimp only; unfold opcInstr; rfl)
theorem win {x0} : Statement (.win x0) := full rfl (by dsimp only; unfold opcInstr; rfl)
theorem xget {x0} : Statement (.xget x0) := picked rfl (fun h => by
    have := (ok_form h).2.2
    simp only [Bool.and_eq_true] at this
    dsimp only; unfold opcInstr; exact congrArg some (if_pos this.1))
theorem xgetP {x0} : Statement (.xgetP x0) := picked rfl (fun h => by
    have := (ok_form h).2.2
    simp only [Bool.and_eq_true, beq_iff_eq] at this
    dsimp only; unfold opcInstr; exact congrArg some (if_neg (by rw [this.1]; decide)))
theorem xrel {x0} : Statement (.xrel x0) := full rfl (by dsimp only; unfold opcInstr; rfl)
theorem tag {x0} : Statement (.tag x0) := full rfl (by dsimp only; unfold opcInstr; rfl)
theorem setf {x0} : Statement (.setf x0) := full rfl (by dsimp only; unfold opcInstr; rfl)
theorem bra {x0} : Statement (.bra x0) := full rfl (by dsimp only; unfold opcInstr; rfl)
theorem brw {x0} : Statement (.brw x0) := full rfl (by dsimp only; unfold opcInstr; rfl)
theorem loopw {x0} : Statement (.loopw x0) := full rfl (by dsimp only; unfold opcInstr; rfl)
theorem brx {x0} : Statement (.brx x0) := full rfl (by dsimp only; unfold opcInstr; rfl)
theorem call {x0} : Statement (.call x0) := full rfl (by dsimp only; unfold opcInstr; rfl)
theorem ret {x0} : Statement (.ret x0) := full rfl (by dsimp only; unfold opcInstr; rfl)
theorem jpt {x0} : Statement (.jpt x0) := full rfl (by dsimp only; unfold opcInstr; rfl)
theorem join {x0} : Statement (.join x0) := full rfl (by dsimp only; unfold opcInstr; rfl)
theorem yield {x0} : Statement (.yield x0) := full rfl (by dsimp only; unfold opcInstr; rfl)
theorem exit {x0} : Statement (.exit x0) := full rfl (by dsimp only; unfold opcInstr; rfl)
theorem nop {x0} : Statement (.nop x0) := full rfl (by dsimp only; unfold opcInstr; rfl)
theorem trap {x0} : Statement (.trap x0) := full rfl (by dsimp only; unfold opcInstr; rfl)
theorem brk {x0} : Statement (.brk x0) := full rfl (by dsimp only; unfold opcInstr; rfl)
theorem tryTx {x0} : Statement (.tryTx x0) := full rfl (by dsimp only; unfold opcInstr; rfl)
theorem commit {x0} : Statement (.commit x0) := full rfl (by dsimp only; unfold opcInstr; rfl)
theorem abort {x0} : Statement (.abort x0) := full rfl (by dsimp only; unfold opcInstr; rfl)
theorem tstat {x0} : Statement (.tstat x0) := full rfl (by dsimp only; unfold opcInstr; rfl)
theorem ld {x0} : Statement (.ld x0) := full rfl (by dsimp only; unfold opcInstr; rfl)
theorem st {x0} : Statement (.st x0) := full rfl (by dsimp only; unfold opcInstr; rfl)
theorem lds {x0} : Statement (.lds x0) := full rfl (by dsimp only; unfold opcInstr; rfl)
theorem sts {x0} : Statement (.sts x0) := full rfl (by dsimp only; unfold opcInstr; rfl)
theorem ldp {x0} : Statement (.ldp x0) := full rfl (by dsimp only; unfold opcInstr; rfl)
theorem stp {x0} : Statement (.stp x0) := full rfl (by dsimp only; unfold opcInstr; rfl)
theorem ldro {x0} : Statement (.ldro x0) := full rfl (by dsimp only; unfold opcInstr; rfl)
theorem ldg {x0} : Statement (.ldg x0) := full rfl (by dsimp only; unfold opcInstr; rfl)
theorem stg {x0} : Statement (.stg x0) := full rfl (by dsimp only; unfold opcInstr; rfl)
theorem atom {x0} : Statement (.atom x0) := full rfl (by dsimp only; unfold opcInstr; rfl)
theorem atomt {x0} : Statement (.atomt x0) := full rfl (by dsimp only; unfold opcInstr; rfl)
theorem atomsReg {x0} : Statement (.atomsReg x0) := picked rfl (fun h => by have := (ok_form h).2.1 rfl; dsimp only; unfold opcInstr; exact congrArg some (if_neg (by rw [this]; decide)))
theorem atomsImm {x0} : Statement (.atomsImm x0) := picked rfl (fun h => by have := (ok_form h).1 rfl; dsimp only; unfold opcInstr; exact congrArg some (if_pos this))
theorem rsadd {x0} : Statement (.rsadd x0) := full rfl (by dsimp only; unfold opcInstr; rfl)
theorem ldt {x0} : Statement (.ldt x0) := full rfl (by dsimp only; unfold opcInstr; rfl)
theorem stt {x0} : Statement (.stt x0) := full rfl (by dsimp only; unfold opcInstr; rfl)
theorem lapr {x0} : Statement (.lapr x0) := full rfl (by dsimp only; unfold opcInstr; rfl)
theorem pref {x0} : Statement (.pref x0) := full rfl (by dsimp only; unfold opcInstr; rfl)
theorem tdef {x0} : Statement (.tdef x0) := full rfl (by dsimp only; unfold opcInstr; rfl)
theorem tstate {x0} : Statement (.tstate x0) := full rfl (by dsimp only; unfold opcInstr; rfl)
theorem twait {x0} : Statement (.twait x0) := full rfl (by dsimp only; unfold opcInstr; rfl)
theorem tld {x0} : Statement (.tld x0) := full rfl (by dsimp only; unfold opcInstr; rfl)
theorem tst {x0} : Statement (.tst x0) := full rfl (by dsimp only; unfold opcInstr; rfl)
theorem trd {x0} : Statement (.trd x0) := full rfl (by dsimp only; unfold opcInstr; rfl)
theorem twr {x0} : Statement (.twr x0) := full rfl (by dsimp only; unfold opcInstr; rfl)
theorem tzero {x0} : Statement (.tzero x0) := full rfl (by dsimp only; unfold opcInstr; rfl)
theorem regq {x0} : Statement (.regq x0) := full rfl (by dsimp only; unfold opcInstr; rfl)
theorem regpinPin {x0} : Statement (.regpinPin x0) := picked rfl (fun h => by dsimp only; unfold opcInstr; exact congrArg some (if_pos (ok_form h).2.2))
theorem regpinUnpin {x0} : Statement (.regpinUnpin x0) := picked rfl (fun h => by
    have : x0.md = 1 := by simpa using (ok_form h).2.2
    dsimp only; unfold opcInstr; exact congrArg some ((if_neg (by rw [this]; decide)).trans (if_pos (by rw [this]; decide))))
theorem regpinClear {x0} : Statement (.regpinClear x0) := picked rfl (fun h => by
    have : x0.md = 2 := by simpa using (ok_form h).2.2
    dsimp only; unfold opcInstr; exact congrArg some ((if_neg (by rw [this]; decide)).trans (if_neg (by rw [this]; decide))))
theorem regadv {x0} : Statement (.regadv x0) := full rfl (by dsimp only; unfold opcInstr; rfl)
theorem waitlReg {x0} : Statement (.waitlReg x0) := picked rfl (fun h => by have := (ok_form h).2.1 rfl; dsimp only; unfold opcInstr; exact congrArg some (if_neg (by rw [this]; decide)))
theorem waitlImm {x0} : Statement (.waitlImm x0) := picked rfl (fun h => by have := (ok_form h).1 rfl; dsimp only; unfold opcInstr; exact congrArg some (if_pos this))
theorem waitcReg {x0} : Statement (.waitcReg x0) := picked rfl (fun h => by have := (ok_form h).2.1 rfl; dsimp only; unfold opcInstr; exact congrArg some (if_neg (by rw [this]; decide)))
theorem waitcImm {x0} : Statement (.waitcImm x0) := picked rfl (fun h => by have := (ok_form h).1 rfl; dsimp only; unfold opcInstr; exact congrArg some (if_pos this))
theorem waitqReg {x0} : Statement (.waitqReg x0) := picked rfl (fun h => by have := (ok_form h).2.1 rfl; dsimp only; unfold opcInstr; exact congrArg some (if_neg (by rw [this]; decide)))
theorem waitqImm {x0} : Statement (.waitqImm x0) := picked rfl (fun h => by have := (ok_form h).1 rfl; dsimp only; unfold opcInstr; exact congrArg some (if_pos this))
theorem waitm {x0} : Statement (.waitm x0) := full rfl (by dsimp only; unfold opcInstr; rfl)
theorem mxrsv {x0} : Statement (.mxrsv x0) := full rfl (by dsimp only; unfold opcInstr; rfl)
theorem mxrel {x0} : Statement (.mxrel x0) := full rfl (by dsimp only; unfold opcInstr; rfl)
theorem mxgoImm {x0} : Statement (.mxgoImm x0) := picked rfl (fun h => by have := (ok_form h).1 rfl; dsimp only; unfold opcInstr; exact congrArg some (if_pos this))
theorem mxgoReg {x0} : Statement (.mxgoReg x0) := picked rfl (fun h => by have := (ok_form h).2.1 rfl; dsimp only; unfold opcInstr; exact congrArg some (if_neg (by rw [this]; decide)))
theorem mxprom {x0} : Statement (.mxprom x0) := full rfl (by dsimp only; unfold opcInstr; rfl)
theorem mxstat {x0} : Statement (.mxstat x0) := full rfl (by dsimp only; unfold opcInstr; rfl)
theorem ctail {x0} : Statement (.ctail x0) := full rfl (by dsimp only; unfold opcInstr; rfl)
theorem cseq {x0} : Statement (.cseq x0) := full rfl (by dsimp only; unfold opcInstr; rfl)
theorem barImm {x0} : Statement (.barImm x0) := picked rfl (fun h => by have := (ok_form h).1 rfl; dsimp only; unfold opcInstr; exact congrArg some (if_pos this))
theorem barReg {x0} : Statement (.barReg x0) := picked rfl (fun h => by have := (ok_form h).2.1 rfl; dsimp only; unfold opcInstr; exact congrArg some (if_neg (by rw [this]; decide)))
theorem barg {x0} : Statement (.barg x0) := full rfl (by dsimp only; unfold opcInstr; rfl)
theorem fetchwImm {x0} : Statement (.fetchwImm x0) := picked rfl (fun h => by have := (ok_form h).1 rfl; dsimp only; unfold opcInstr; exact congrArg some (if_pos this))
theorem fetchwReg {x0} : Statement (.fetchwReg x0) := picked rfl (fun h => by have := (ok_form h).2.1 rfl; dsimp only; unfold opcInstr; exact congrArg some (if_neg (by rw [this]; decide)))
theorem elect {x0} : Statement (.elect x0) := full rfl (by dsimp only; unfold opcInstr; rfl)
theorem rth {x0} : Statement (.rth x0) := full rfl (by dsimp only; unfold opcInstr; rfl)
theorem hget {x0} : Statement (.hget x0) := full rfl (by dsimp only; unfold opcInstr; rfl)
/-- HSET never names OLOGD: that selector has a constructor of its own. -/
theorem hset_sel {f : Full} (h : hsetOk f = true) : ¬ (f.imm16 == 0x61) = true := by
  intro e
  have : f.imm16 = 0x61 := by simpa using e
  unfold hsetOk at h
  rw [this] at h
  have hs : Sel.of (0x61 : BitVec 16).toNat = some .ologd := by decide
  rw [hs] at h
  simp at h

theorem hset {x0} : Statement (.hset x0) := picked rfl (fun h => by
    have := (ok_form h).2.2
    dsimp only; unfold opcInstr; exact congrArg some (if_neg (hset_sel this)))
theorem ologdDrop {x0} : Statement (.ologdDrop x0) := picked rfl (fun h => by
    have := (ok_form h).2.2
    simp only [Bool.and_eq_true] at this
    dsimp only; unfold opcInstr; exact congrArg some (if_pos this.2))
theorem park {x0} : Statement (.park x0) := full rfl (by dsimp only; unfold opcInstr; rfl)
theorem replay {x0} : Statement (.replay x0) := full rfl (by dsimp only; unfold opcInstr; rfl)
theorem cinv {x0} : Statement (.cinv x0) := full rfl (by dsimp only; unfold opcInstr; rfl)
theorem xlinv {x0} : Statement (.xlinv x0) := full rfl (by dsimp only; unfold opcInstr; rfl)
theorem deadm {x0} : Statement (.deadm x0) := full rfl (by dsimp only; unfold opcInstr; rfl)
theorem apset {x0} : Statement (.apset x0) := full rfl (by dsimp only; unfold opcInstr; rfl)
theorem iaddHalf {x0} {x1} : Statement (.iaddHalf x0 x1) := half rfl rfl rfl
theorem isubHalf {x0} {x1} : Statement (.isubHalf x0 x1) := half rfl rfl rfl
theorem imulHalf {x0} {x1} : Statement (.imulHalf x0 x1) := half rfl rfl rfl
theorem iminHalf {x0} {x1} : Statement (.iminHalf x0 x1) := half rfl rfl rfl
theorem imaxHalf {x0} {x1} : Statement (.imaxHalf x0 x1) := half rfl rfl rfl
theorem andHalf {x0} {x1} : Statement (.andHalf x0 x1) := half rfl rfl rfl
theorem orHalf {x0} {x1} : Statement (.orHalf x0 x1) := half rfl rfl rfl
theorem xorHalf {x0} {x1} : Statement (.xorHalf x0 x1) := half rfl rfl rfl
theorem shlHalf {x0} {x1} : Statement (.shlHalf x0 x1) := half rfl rfl rfl
theorem shrHalf {x0} {x1} : Statement (.shrHalf x0 x1) := half rfl rfl rfl
theorem sarHalf {x0} {x1} : Statement (.sarHalf x0 x1) := half rfl rfl rfl
theorem faddHalf {x0} {x1} : Statement (.faddHalf x0 x1) := half rfl rfl rfl
theorem fsubHalf {x0} {x1} : Statement (.fsubHalf x0 x1) := half rfl rfl rfl
theorem fmulHalf {x0} {x1} : Statement (.fmulHalf x0 x1) := half rfl rfl rfl
theorem fminHalf {x0} {x1} : Statement (.fminHalf x0 x1) := half rfl rfl rfl
theorem fmaxHalf {x0} {x1} : Statement (.fmaxHalf x0 x1) := half rfl rfl rfl
theorem fabsHalf {x0} {x1} : Statement (.fabsHalf x0 x1) := half rfl rfl rfl
theorem fnegHalf {x0} {x1} : Statement (.fnegHalf x0 x1) := half rfl rfl rfl
theorem movHalf {x0} {x1} : Statement (.movHalf x0 x1) := half rfl rfl rfl
theorem cvtHalf {x0} {x1} : Statement (.cvtHalf x0 x1) := half rfl rfl rfl
theorem illegalWord {x0} : Statement (.illegalWord x0) := device rfl rfl
theorem textOverrun : Statement (.textOverrun) := device rfl rfl
theorem registerWriteback {x0} {x1} {x2} {x3} : Statement (.registerWriteback x0 x1 x2 x3) := device rfl rfl
theorem readErrorReturn {x0} {x1} {x2} {x3} : Statement (.readErrorReturn x0 x1 x2 x3) := device rfl rfl
theorem oplogResume {x0} {x1} : Statement (.oplogResume x0 x1) := device rfl rfl
theorem pageDeliver {x0} {x1} : Statement (.pageDeliver x0 x1) := device rfl rfl
theorem growDeny {x0} {x1} : Statement (.growDeny x0 x1) := device rfl rfl
theorem ownershipFlip {x0} {x1} {x2} : Statement (.ownershipFlip x0 x1 x2) := device rfl rfl
theorem waveSwap {x0} : Statement (.waveSwap x0) := device rfl rfl
theorem quantumExpire {x0} {x1} : Statement (.quantumExpire x0 x1) := device rfl rfl
theorem pendingWaveEnter {x0} : Statement (.pendingWaveEnter x0) := device rfl rfl
theorem xgetGrant {x0} : Statement (.xgetGrant x0) := device rfl rfl
theorem waitConditionMet {x0} : Statement (.waitConditionMet x0) := device rfl rfl
theorem barrierComplete {x0} {x1} : Statement (.barrierComplete x0 x1) := device rfl rfl
theorem gangBarrierComplete {x0} {x1} : Statement (.gangBarrierComplete x0 x1) := device rfl rfl
theorem teamRetire {x0} : Statement (.teamRetire x0) := device rfl rfl
theorem storeOrderPoint {x0} : Statement (.storeOrderPoint x0) := device rfl rfl
theorem storePerformed {x0} {x1} {x2} : Statement (.storePerformed x0 x1 x2) := device rfl rfl
theorem storeAck {x0} {x1} : Statement (.storeAck x0 x1) := device rfl rfl
theorem transactionConflict {x0} : Statement (.transactionConflict x0) := device rfl rfl
theorem commitStep {x0} : Statement (.commitStep x0) := device rfl rfl
theorem monitorSignature {x0} : Statement (.monitorSignature x0) := device rfl rfl
theorem parcelStaged {x0} {x1} : Statement (.parcelStaged x0 x1) := device rfl rfl
theorem parcelWriteout {x0} {x1} {x2} : Statement (.parcelWriteout x0 x1 x2) := device rfl rfl
theorem parcelNew {x0} {x1} : Statement (.parcelNew x0 x1) := device rfl rfl
theorem descriptorWrite {x0} {x1} {x2} : Statement (.descriptorWrite x0 x1 x2) := device rfl rfl
theorem tldComplete {x0} {x1} {x2} : Statement (.tldComplete x0 x1 x2) := device rfl rfl
theorem tstComplete {x0} {x1} {x2} : Statement (.tstComplete x0 x1 x2) := device rfl rfl
theorem mxOpStart {x0} : Statement (.mxOpStart x0) := device rfl rfl
theorem mxOpComplete {x0} : Statement (.mxOpComplete x0) := device rfl rfl
theorem mxReservationReacquire {x0} : Statement (.mxReservationReacquire x0) := device rfl rfl
theorem steppeAdmit {x0} : Statement (.steppeAdmit x0) := device rfl rfl
theorem steppeRowApply {x0} {x1} {x2} : Statement (.steppeRowApply x0 x1 x2) := device rfl rfl
theorem lapEnd {x0} {x1} {x2} : Statement (.lapEnd x0 x1 x2) := device rfl rfl
theorem lapDoneToken {x0} {x1} {x2} {x3} : Statement (.lapDoneToken x0 x1 x2 x3) := device rfl rfl
theorem infuserDecode {x0} {x1} {x2} : Statement (.infuserDecode x0 x1 x2) := device rfl rfl
theorem engineTailRecord {x0} : Statement (.engineTailRecord x0) := device rfl rfl
theorem engineNop {x0} : Statement (.engineNop x0) := device rfl rfl
theorem engineCopy {x0} {x1} {x2} : Statement (.engineCopy x0 x1 x2) := device rfl rfl
theorem engineFill {x0} {x1} {x2} : Statement (.engineFill x0 x1 x2) := device rfl rfl
theorem chainFault {x0} : Statement (.chainFault x0) := device rfl rfl
theorem engineChunkDone {x0} : Statement (.engineChunkDone x0) := device rfl rfl
theorem deadlinePromote {x0} : Statement (.deadlinePromote x0) := device rfl rfl
theorem deadlineExpire {x0} : Statement (.deadlineExpire x0) := device rfl rfl
theorem engineTailDoorbell {x0} {x1} : Statement (.engineTailDoorbell x0 x1) := device rfl rfl
theorem launchDoorbell {x0} {x1} : Statement (.launchDoorbell x0 x1) := device rfl rfl
theorem launchRecordRead {x0} : Statement (.launchRecordRead x0) := device rfl rfl
theorem launchStartable {x0} {x1} : Statement (.launchStartable x0 x1) := device rfl rfl
theorem teamPlace : Statement (.teamPlace) := device rfl rfl
theorem argCopyDone {x0} : Statement (.argCopyDone x0) := device rfl rfl
theorem argCopyFault {x0} {x1} : Statement (.argCopyFault x0 x1) := device rfl rfl
theorem fetchwAnswer {x0} : Statement (.fetchwAnswer x0) := device rfl rfl
theorem preemptDeliver {x0} : Statement (.preemptDeliver x0) := device rfl rfl
theorem saveTimeoutKill {x0} : Statement (.saveTimeoutKill x0) := device rfl rfl
theorem launchKill {x0} {x1} : Statement (.launchKill x0 x1) := device rfl rfl
theorem killDeliver {x0} : Statement (.killDeliver x0) := device rfl rfl
theorem launchComplete {x0} : Statement (.launchComplete x0) := device rfl rfl
theorem watchdogExpire {x0} {x1} : Statement (.watchdogExpire x0 x1) := device rfl rfl
theorem shootdownReceive {x0} {x1} : Statement (.shootdownReceive x0 x1) := device rfl rfl
theorem shootdownAck {x0} {x1} : Statement (.shootdownAck x0 x1) := device rfl rfl
theorem fenceTimeout {x0} {x1} : Statement (.fenceTimeout x0 x1) := device rfl rfl
theorem peerRequest {x0} : Statement (.peerRequest x0) := device rfl rfl
theorem linkFlitReceive {x0} {x1} {x2} {x3} : Statement (.linkFlitReceive x0 x1 x2 x3) := device rfl rfl
theorem refreshDue {x0} {x1} {x2} : Statement (.refreshDue x0 x1 x2) := device rfl rfl
theorem refreshRepay {x0} {x1} : Statement (.refreshRepay x0 x1) := device rfl rfl
theorem rowAlert {x0} {x1} {x2} {x3} : Statement (.rowAlert x0 x1 x2 x3) := device rfl rfl
theorem backoffEnd {x0} {x1} : Statement (.backoffEnd x0 x1) := device rfl rfl
theorem selfRefreshEnter {x0} : Statement (.selfRefreshEnter x0) := device rfl rfl
theorem selfRefreshExit {x0} : Statement (.selfRefreshExit x0) := device rfl rfl
theorem uncorrectableError {x0} : Statement (.uncorrectableError x0) := device rfl rfl
theorem clockLower {x0} {x1} : Statement (.clockLower x0 x1) := device rfl rfl
theorem keyLoad {x0} {x1} {x2} : Statement (.keyLoad x0 x1 x2) := device rfl rfl
theorem keyClear {x0} {x1} : Statement (.keyClear x0 x1) := device rfl rfl
theorem quoteRequest {x0} : Statement (.quoteRequest x0) := device rfl rfl
theorem measurementAppend {x0} : Statement (.measurementAppend x0) := device rfl rfl
theorem sliceStatusClear {x0} {x1} : Statement (.sliceStatusClear x0 x1) := device rfl rfl
theorem registerWrite {x0} {x1} : Statement (.registerWrite x0 x1) := device rfl rfl
theorem coreReset {x0} : Statement (.coreReset x0) := device rfl rfl
theorem sliceReset {x0} : Statement (.sliceReset x0) := device rfl rfl
theorem engineReset {x0} : Statement (.engineReset x0) := device rfl rfl
theorem linkReset {x0} : Statement (.linkReset x0) := device rfl rfl
theorem coldReset {x0} : Statement (.coldReset x0) := device rfl rfl
theorem registerSoftError {x0} {x1} {x2} : Statement (.registerSoftError x0 x1 x2) := device rfl rfl
theorem engineCauseTaken {x0} : Statement (.engineCauseTaken x0) := device rfl rfl
theorem clockRaise {x0} {x1} : Statement (.clockRaise x0 x1) := device rfl rfl
theorem recoveryNewImage {x0} : Statement (.recoveryNewImage x0) := device rfl rfl

end Sys2Proof.Laws.OpcMap
end

