-- ==== Sys2Proof/Laws/Traps.lean ====
section
/-!
SUPPORT. Taking an exception, said once: causes of one kind in some lanes of a calm wave put these lanes into
handler mode.
-/
namespace Sys2Proof.Machine

theorem maskOf_bit (ls : List Nat) (h : ∀ l ∈ ls, l < 64) (j : Nat) :
    (maskOf ls).getLsbD j = decide (j ∈ ls) := by
  have key : ∀ (ls : List Nat) (m : Mask), (∀ l ∈ ls, l < 64) →
      (ls.foldl (fun m i => m ||| bitM i) m).getLsbD j = (m.getLsbD j || decide (j ∈ ls)) := by
    intro ls
    induction ls with
    | nil => intro m _; simp
    | cons a ls ih =>
      intro m h
      rw [List.foldl_cons, ih _ (fun l hl => h l (List.mem_cons_of_mem _ hl))]
      have ha := h a (by simp)
      have hb : (bitM a).getLsbD j = decide (j = a) := by
        unfold bitM
        rw [BitVec.getLsbD_ofNat]
        by_cases hj : j = a
        · subst hj; simp [ha]
        · have : Nat.testBit (2 ^ a) j = false := by
            rw [Nat.testBit_two_pow]; simpa using fun h => hj h.symm
          simp [this, hj]
      rw [BitVec.getLsbD_or, hb]
      by_cases hj : j = a <;> simp [hj]
  have := key ls 0 h
  simpa [maskOf] using this

theorem maskOf_lanesOf (m : Mask) : maskOf (lanesOf m) = m := by
  apply BitVec.eq_of_getLsbD_eq
  intro j hj
  rw [maskOf_bit _ (fun l hl => by have := (mem_lanesOf _ _).1 hl; exact BitVec.lt_of_getLsbD this)]
  by_cases h : m.getLsbD j = true
  · simp [h, (mem_lanesOf _ _).2 h]
  · have : j ∉ lanesOf m := fun h' => h ((mem_lanesOf _ _).1 h')
    simp [this]; simpa using h

theorem oneEach_nodup (ts : List Trap) : (ts.map (·.lane)).Nodup → oneEach ts = ts := by
  induction ts with
  | nil => intro _; rfl
  | cons t ts ih =>
    intro h
    rw [List.map_cons, List.nodup_cons] at h
    unfold oneEach
    rw [ih h.2]
    have : ts.find? (fun u => u.lane == t.lane) = none := by
      rw [List.find?_eq_none]
      intro x hx
      simp only [beq_iff_eq]
      intro e
      exact h.1 (List.mem_map.2 ⟨x, hx, e⟩)
    simp only [this]

theorem trapsOf_lanes (k : Cause) (lanes : Mask) (tval : Nat → DWord) :
    (trapsOf k lanes tval).map (·.lane) = lanesOf lanes := by
  unfold trapsOf
  rw [List.map_map]
  exact List.map_id' _

theorem oneEach_trapsOf (k : Cause) (lanes : Mask) (tval : Nat → DWord) :
    oneEach (trapsOf k lanes tval) = trapsOf k lanes tval :=
  oneEach_nodup _ (by rw [trapsOf_lanes]; exact lanesOf_nodup _)

theorem groupTraps_one (k : Cause) (ts : List Trap) (hne : ts ≠ []) (hk : ∀ t ∈ ts, t.cause = k) :
    groupTraps ts = [(k, ts)] := by
  have hc : ∀ (ts : List Trap) (cs : List Cause), (∀ t ∈ ts, t.cause = k) → cs = [] ∨ cs = [k] →
      ts.foldl (fun (cs : List Cause) t => if cs.contains t.cause then cs else cs ++ [t.cause]) cs =
        (if ts.isEmpty then cs else [k]) := by
    intro ts
    induction ts with
    | nil => intro cs _ _; rfl
    | cons t ts ih =>
      intro cs h hcs
      have ht := h t (by simp)
      rw [List.foldl_cons, ht]
      have : (if cs.contains k then cs else cs ++ [k]) = [k] := by
        rcases hcs with h | h <;> subst h <;> simp
      rw [this, ih [k] (fun t ht => h t (List.mem_cons_of_mem _ ht)) (.inr rfl)]
      simp
  have hf : ts.filter (fun t => t.cause == k) = ts := by
    rw [List.filter_eq_self]; intro t ht; simp [hk t ht]
  have he : ts.isEmpty = false := by cases ts with | nil => exact absurd rfl hne | cons => rfl
  unfold groupTraps
  simp only [hc ts [] hk (.inl rfl), he, Bool.false_eq_true, if_false, List.foldl_cons, List.foldl_nil,
    List.filter_nil, List.nil_append, hf, List.append_nil]

/-- The first of a list of pairs with a key, when each is a function of its key. -/
theorem find_keyed {β : Type} (f : Nat → β) (ls : List Nat) (l : Nat) (h : l ∈ ls) :
    (ls.map (fun l => (l, f l))).find? (fun x => x.1 == l) = some (l, f l) := by
  induction ls with
  | nil => cases h
  | cons a ls ih =>
    rw [List.map_cons, List.find?_cons]
    by_cases ha : a = l
    · subst ha; simp
    · have hb : (a == l) = false := by simpa using ha
      simp only [hb]
      rcases List.mem_cons.1 h with h | h
      · exact absurd h.symm ha
      · exact ih h

theorem mapLanes_congr (w : Wave) (m : Mask) (f g : Nat → Thread → Thread) (h : ∀ l, m.getLsbD l = true → f l = g l) :
    w.mapLanes m f = w.mapLanes m g := by
  unfold Wave.mapLanes
  congr 1
  apply mapIdx_congr
  intro i a
  by_cases hi : m.getLsbD i = true
  · simp [hi, h i hi]
  · simp [hi]

/-- Join slots keep a wave's own registers. -/
theorem joinTest_keeps (w : Wave) (j : Nat) :
    ∃ ts js, w.joinTest j = { w with threads := ts, joins := js } := by
  unfold Wave.joinTest
  simp only
  split
  · exact ⟨_, _, rfl⟩
  · exact ⟨w.threads, w.joins, rfl⟩

theorem leaveJoins_keeps (w : Wave) (m : Mask) :
    ∃ ts js, w.leaveJoins m = { w with threads := ts, joins := js } := by
  unfold Wave.leaveJoins
  generalize List.range 8 = ns
  have : ∀ (ns : List Nat) (w : Wave), ∃ ts js, ns.foldl (fun w j =>
      let x := w.join? j
      if x.valid && (x.exp ||| x.arr) &&& m != 0 then
        (w.setJoin j { x with exp := x.exp &&& ~~~ m, arr := x.arr &&& ~~~ m }).joinTest j
      else w) w = { w with threads := ts, joins := js } := by
    intro ns
    induction ns with
    | nil => intro w; exact ⟨w.threads, w.joins, rfl⟩
    | cons n ns ih =>
      intro w
      rw [List.foldl_cons]
      simp only
      split
      · obtain ⟨ts, js, h⟩ := joinTest_keeps (w.setJoin n { w.join? n with exp := (w.join? n).exp &&& ~~~ m, arr := (w.join? n).arr &&& ~~~ m }) n
        obtain ⟨ts', js', h'⟩ := ih ((w.setJoin n { w.join? n with exp := (w.join? n).exp &&& ~~~ m, arr := (w.join? n).arr &&& ~~~ m }).joinTest n)
        refine ⟨ts', js', ?_⟩
        rw [h', h]; rfl
      · exact ih w
  exact this ns w

section
variable (w : Wave) (m : Mask)
theorem leaveJoins_uid : (w.leaveJoins m).uid = w.uid := by obtain ⟨_, _, h⟩ := leaveJoins_keeps w m; rw [h]
theorem leaveJoins_parkq : (w.leaveJoins m).parkq = w.parkq := by obtain ⟨_, _, h⟩ := leaveJoins_keeps w m; rw [h]
theorem leaveJoins_handling : (w.leaveJoins m).handling = w.handling := by
  obtain ⟨_, _, h⟩ := leaveJoins_keeps w m; rw [h]
theorem leaveJoins_handler : (w.leaveJoins m).handler = w.handler := by
  obtain ⟨_, _, h⟩ := leaveJoins_keeps w m; rw [h]
theorem leaveJoins_preempt : (w.leaveJoins m).preempt = w.preempt := by
  obtain ⟨_, _, h⟩ := leaveJoins_keeps w m; rw [h]
theorem leaveJoins_code : (w.leaveJoins m).code = w.code := by obtain ⟨_, _, h⟩ := leaveJoins_keeps w m; rw [h]
end

/-- The wave whose lanes have left normal issue. -/
def Wave.left (lanes : Mask) (tval : Nat → DWord) (v : Wave) : Wave :=
  (v.mapLanes lanes (fun l t => { t with wait := .none, parkPc := t.pc, tval := tval l })).leaveJoins lanes

theorem parkLanes_eq (v : Wave) (p : Parked) (tval : Nat → DWord) :
    parkLanes v p ((lanesOf p.lanes).map (fun l => (l, tval l))) =
      { v.left p.lanes tval with parkq := (v.left p.lanes tval).parkq ++ [p] } := by
  unfold parkLanes Wave.left
  simp only
  rw [mapLanes_congr v p.lanes _ (fun l t => { t with wait := .none, parkPc := t.pc, tval := tval l })]
  intro l hl
  funext t
  rw [find_keyed tval _ l ((mem_lanesOf _ _).2 hl)]

theorem left_uid (m : Mask) (tv : Nat → DWord) (v : Wave) : (v.left m tv).uid = v.uid := by
  unfold Wave.left; rw [leaveJoins_uid]; rfl
theorem left_handling (m : Mask) (tv : Nat → DWord) (v : Wave) : (v.left m tv).handling = v.handling := by
  unfold Wave.left; rw [leaveJoins_handling]; rfl
theorem left_handler (m : Mask) (tv : Nat → DWord) (v : Wave) : (v.left m tv).handler = v.handler := by
  unfold Wave.left; rw [leaveJoins_handler]; rfl
theorem left_preempt (m : Mask) (tv : Nat → DWord) (v : Wave) : (v.left m tv).preempt = v.preempt := by
  unfold Wave.left; rw [leaveJoins_preempt]; rfl
theorem left_code (m : Mask) (tv : Nat → DWord) (v : Wave) : (v.left m tv).code = v.code := by
  unfold Wave.left; rw [leaveJoins_code]; rfl
theorem left_parkq (m : Mask) (tv : Nat → DWord) (v : Wave) : (v.left m tv).parkq = v.parkq := by
  unfold Wave.left; rw [leaveJoins_parkq]; rfl
theorem parkLanes_uid (v : Wave) (p : Parked) (tv : List (Nat × DWord)) : (parkLanes v p tv).uid = v.uid := by
  unfold parkLanes; simp only; rw [leaveJoins_uid]; rfl
theorem parkLanes_handling (v : Wave) (p : Parked) (tv : List (Nat × DWord)) : (parkLanes v p tv).handling = v.handling := by
  unfold parkLanes; simp only; rw [leaveJoins_handling]; rfl
theorem parkLanes_handler (v : Wave) (p : Parked) (tv : List (Nat × DWord)) : (parkLanes v p tv).handler = v.handler := by
  unfold parkLanes; simp only; rw [leaveJoins_handler]; rfl
theorem parkLanes_preempt (v : Wave) (p : Parked) (tv : List (Nat × DWord)) : (parkLanes v p tv).preempt = v.preempt := by
  unfold parkLanes; simp only; rw [leaveJoins_preempt]; rfl
theorem parkLanes_code (v : Wave) (p : Parked) (tv : List (Nat × DWord)) : (parkLanes v p tv).code = v.code := by
  unfold parkLanes; simp only; rw [leaveJoins_code]; rfl
theorem parkLanes_parkq (v : Wave) (p : Parked) (tv : List (Nat × DWord)) :
    (parkLanes v p tv).parkq = v.parkq ++ [p] := by
  unfold parkLanes; simp only; rw [leaveJoins_parkq]; rfl

/-- Delivery of the only parked sub-wave. -/
theorem deliver_one {s : State} {u : Nat} {w : Wave} {p : Parked} (tval : Nat → DWord) (hw : s.wave? u = some w)
    (h1 : w.handling = false) (h2 : w.parkq = []) (h3 : w.preempt = false) (h4 : w.handler ≠ defaultHandler s w)
    (h5 : p.cause.getLsbD 13 = false) :
    deliver (s.mapWave u (fun w => parkLanes w p ((lanesOf p.lanes).map (fun l => (l, tval l))))) u =
      s.mapWave u (fun v =>
        let x := v.left p.lanes tval
        { x with parkq := [], handling := true, cause := p.cause, entry := p.cause, epc := p.epc, subw := p.lanes,
                 retm := p.lanes,
                 threads := x.threads.mapIdx (fun l t =>
                   if p.lanes.getLsbD l then { t with hpc := w.handler, wait := .none } else t) }) := by
  generalize hF : (fun w => parkLanes w p ((lanesOf p.lanes).map (fun l => (l, tval l)))) = F
  have hp : ∀ v : Wave, v.uid = u → (F v).uid = u := by
    intro v hv; rw [← hF]; exact (parkLanes_uid ..).trans hv
  have hw2 : (s.mapWave u F).wave? u = some (F w) := by
    rw [State.mapWave_wave (hf := hp), if_pos rfl, hw]
    rfl
  have e1 : (F w).handling = false := by rw [← hF]; exact (parkLanes_handling ..).trans h1
  have e2 : (F w).parkq = [p] := by rw [← hF]; exact (parkLanes_parkq ..).trans (by rw [h2]; rfl)
  have e3 : (F w).preempt = false := by rw [← hF]; exact (parkLanes_preempt ..).trans h3
  have e4 : (F w).handler = w.handler := by rw [← hF]; exact parkLanes_handler ..
  have e5 : (F w).code = w.code := by rw [← hF]; exact parkLanes_code ..
  have hd : defaultHandler (s.mapWave u F) (F w) = defaultHandler s w := by
    unfold defaultHandler State.code?
    rw [e5]; rfl
  unfold deliver
  rw [hw2]
  simp only [preemptFree, e3, Bool.false_and, Bool.false_eq_true, if_false, e1, e2, h5, e4, hd]
  rw [if_neg (by intro h; exact h4 h.1)]
  rw [State.mapWave_mapWave (hf := hp)]
  refine congrArg (fun f => s.mapWave u f) (funext fun v => ?_)
  rw [← hF]
  simp only [parkLanes_eq]
  generalize v.left p.lanes tval = x
  rfl

theorem takeTraps_calm {s : State} {u : Nat} {w : Wave} {lanes : Mask} (k : Cause) (pc : Word) (tval : Nat → DWord)
    (hw : s.wave? u = some w) (C : Calm s w lanes) (h0 : lanes ≠ 0) (hk13 : k.word.getLsbD 13 = false) :
    takeTraps s u pc (trapsOf k lanes tval) =
      s.mapWave u (Wave.enter k (if isAfter k then pc + 8 else pc) lanes tval w.handler) := by
  have hl : lanesOf lanes ≠ [] := by
    intro e
    apply h0
    rw [← maskOf_lanesOf lanes, e]; rfl
  have hne : trapsOf k lanes tval ≠ [] := by
    unfold trapsOf; simpa using hl
  have hk : ∀ t ∈ trapsOf k lanes tval, t.cause = k := by
    intro t ht
    obtain ⟨l, -, rfl⟩ := List.mem_map.1 ht
    rfl
  have hm : maskOf ((trapsOf k lanes tval).map (·.lane)) = lanes := by
    rw [trapsOf_lanes, maskOf_lanesOf]
  have hin : ∀ l, w.inHandler l = false := by
    intro l; unfold Wave.inHandler Wave.handlerMask; simp [C.idle]
  have htv : (trapsOf k lanes tval).map (fun t => (t.lane, t.tval)) = (lanesOf lanes).map (fun l => (l, tval l)) := by
    unfold trapsOf
    rw [List.map_map]; rfl
  unfold takeTraps
  simp only [hw, oneEach_trapsOf]
  cases hts : trapsOf k lanes tval with
  | nil => exact absurd hts hne
  | cons t0 ts =>
    simp only
    rw [← hts]
    simp only [hin, Bool.false_eq_true, if_false, hm, C.out]
    rw [if_neg (by simp)]
    rw [groupTraps_one k _ hne hk]
    simp only [List.foldl_cons, List.foldl_nil, hm, htv]
    exact deliver_one (p := ⟨lanes, k.word, if isAfter k then pc + 8 else pc, false, false, false⟩) tval hw C.idle C.none C.quiet
      C.custom hk13

/-- Moving PCs leaves what a cause looks at. -/
theorem leaveWord_thread (i : Issue) (g st : Mask) (go : Nat → Option Word) (v : Wave) (l : Nat) :
    ((leaveWord i g st go v).thread l).depth = (v.thread l).depth ∧
    ((leaveWord i g st go v).thread l).exited = (v.thread l).exited := by
  unfold leaveWord Wave.thread
  simp only [List.getD_eq_getElem?_getD, List.getElem?_mapIdx]
  cases v.threads[l]? with
  | none => exact ⟨rfl, rfl⟩
  | some t =>
    simp only [Option.map_some, Option.getD_some]
    split
    · unfold Thread.moveOn
      repeat' split
      all_goals exact ⟨rfl, rfl⟩
    · exact ⟨rfl, rfl⟩

theorem leaveWord_members (i : Issue) (g st : Mask) (go : Nat → Option Word) (v : Wave) :
    (leaveWord i g st go v).members = v.members := by
  unfold Wave.members
  have : ∀ l, (((leaveWord i g st go v).thread l).depth != 0 && !((leaveWord i g st go v).thread l).exited) =
      ((v.thread l).depth != 0 && !(v.thread l).exited) := by
    intro l; obtain ⟨h1, h2⟩ := leaveWord_thread i g st go v l; rw [h1, h2]
  have e1 : (leaveWord i g st go v).kettle = v.kettle := rfl
  have e2 : (leaveWord i g st go v).width = v.width := rfl
  simp only [this, e1, e2]

theorem Calm.leave {s t : State} {w v : Wave} {lanes : Mask} (C : Calm s w lanes) (hc : t.codes = s.codes)
    (hs : ∀ n, standsBy t n v.uid = false)
    (h1 : v.handling = w.handling) (h2 : v.parkq = w.parkq) (h3 : v.preempt = w.preempt) (h4 : v.members = w.members)
    (h5 : v.handler = w.handler) (h6 : v.code = w.code) : Calm t v lanes := by
  refine ⟨h1.trans C.idle, h2.trans C.none, h3.trans C.quiet, hs, by rw [h4]; exact C.out, ?_⟩
  have : defaultHandler t v = defaultHandler s w := by
    unfold defaultHandler State.code?
    rw [h6, hc]
  rw [this, h5]; exact C.custom

/-- With no second word of its cycle to wait for, a cause is taken at once (R284). -/
theorem takeInOrder_traps {s : State} {qn u : Nat} (pc : Word) (ts : List Trap) (h : standsBy s qn u = false) :
    takeInOrder s qn [] ⟨u, pc, ts, none⟩ = takeTraps s u pc ts := by
  unfold takeInOrder
  simp only [h, Bool.and_false, Bool.false_eq_true, if_false, List.filter_nil, List.isEmpty_nil, if_true,
    takeEffects]

/-- A word whose body raises one cause. -/
theorem issue_traps {m : Sem} {s : State} {i : Issue} {w : Wave} {g : Mask} {r : Res} {k : Cause} {lanes : Mask}
    {tval : Nat → DWord} (I : Issues s i w g) (C : Clear m s i w g) (h0 : activeLanes m.grd w g ≠ 0)
    (hr : m.body (countHits m s w g) (soloCtx s i m.grd w g) = r) (r1 : r.traps = trapsOf k lanes tval)
    (r2 : r.abort = none) (r3 : r.flags = []) (r4 : r.stay = 0)
    (hs : standsBy r.st (i.core * 4 + i.quad) w.uid = false) :
    issueFull m s = takeTraps (r.st.mapWave w.uid (leaveWord i g (if isAfter k then 0 else lanes) r.goTo)) w.uid
      i.key.pc (trapsOf k lanes tval) := by
  have h0' : (m.active w g == 0) = false := by
    have h : m.active w g ≠ 0 := h0
    simpa using h
  have hgo : nextPc i r.go = fun l => (r.goTo l).getD (pcNext i.key.pc) := by
    funext l
    unfold nextPc Res.goTo
    cases r.go.find? (·.1 == l) <;> rfl
  have hx : (if m.fpx then fpxTraps w.fxe r.flags else []) = [] := by
    split
    · exact fpxTraps_nil _ _ (by rw [r3]; intro p hp; cases hp)
    · rfl
  have hb : maskOf (((trapsOf k lanes tval).filter (fun t =>
      !(t.cause == .break || t.cause == .fpx || t.cause == .watch))).map (·.lane)) =
      if isAfter k then 0 else lanes := by
    have hk : ∀ t ∈ trapsOf k lanes tval, t.cause = k := by
      intro t ht
      obtain ⟨l, -, rfl⟩ := List.mem_map.1 ht
      rfl
    cases ha : isAfter k with
    | true =>
      have : (trapsOf k lanes tval).filter (fun t => !(t.cause == .break || t.cause == .fpx || t.cause == .watch)) = [] := by
        rw [List.filter_eq_nil_iff]
        intro t ht
        rw [hk t ht]
        have : (k == .break || k == .fpx || k == .watch) = true := ha
        simp only [this, Bool.not_true, Bool.false_eq_true, not_false_eq_true]
      rw [this]; rfl
    | false =>
      have : (trapsOf k lanes tval).filter (fun t => !(t.cause == .break || t.cause == .fpx || t.cause == .watch)) =
          trapsOf k lanes tval := by
        rw [List.filter_eq_self]
        intro t ht
        rw [hk t ht]
        have : (k == .break || k == .fpx || k == .watch) = false := ha
        simp only [this, Bool.not_false]
      rw [this, trapsOf_lanes, maskOf_lanesOf]; rfl
  rw [issueFull_clear I C, h0']
  simp only [Bool.false_eq_true, if_false]
  rw [hr]
  unfold settleShare
  simp only [r1, r2, r3, r4, raiseFlags_nil, List.nil_append, and_not_zero, I.late]
  have hx' : (if m.fpx then fpxTraps w.fxe [] else []) = [] := by rw [← r3]; exact hx
  simp only [hx', List.append_nil, oneEach_trapsOf, hb]
  refine (takeInOrder_traps (s := r.st.mapWave w.uid _) _ _ hs).trans ?_
  show takeTraps (r.st.mapWave w.uid (fun v => v.advance i.hm _ i.key.pc (nextPc i r.go))) _ _ _ = _
  rw [hgo]
  rfl

theorem trapWord_of {ins : Instr} {m : Sem} {ops : State → Wave → Nat → List Opnd} {ok : State → Ctx → Prop} {k : Cause}
    {lanes : Ctx → Mask} {tval : State → Ctx → Nat → DWord}
    (hex : ∀ s, exec ins s = execX m s) (hops : ∀ s w l, m.ops s w l = ops s w l)
    (hlegal : ∀ s u n c, ok (counted s u n) c → m.legal s c.rd c.hm = true)
    (hhold : ∀ s u n c, ok (counted s u n) c → m.hold s c.rd c.act = false)
    (htile : ∀ s u n c, ok (counted s u n) c → m.tile s c.rd c.act = none)
    (hfmt : ∀ s u n c, ok (counted s u n) c → m.fmt s c.rd c.act = none)
    (hk : k.word.getLsbD 13 = false)
    (hbody : ∀ s c, ok s c → c.act ≠ 0 → (∃ x, s.wave? c.u = some { c.rd with winhit := x }) → c.u = c.rd.uid →
      c.tx = false → m.body s c = { st := s, traps := trapsOf k (lanes c) (tval s c) }) :
    TrapWord ins m.grd ops ok k lanes tval := by
  intro s i w g A R h0 c s1 hcalm hl hok
  have hk0 : ok (counted s w.uid (hitsOf (ops s) w (activeLanes m.grd w g))) c := hok
  have C : Clear m s i w g :=
    clear_of_ready (hops s w) R (hlegal _ _ _ _ hk0) (fun h => by rw [A.mode] at h; cases h) (hhold _ _ _ _ hk0) (.inr (htile _ _ _ _ hk0))
      (hfmt _ _ _ _ hk0)
  have hc : countHits m s w g = s1 := counted_eq m s w g (ops s) (hops s w)
  have hw : s1.wave? w.uid = some { w with winhit := w.winhit + BitVec.ofNat 64 (hitsOf (ops s) w (activeLanes m.grd w g)) } := by
    show (counted s w.uid _).wave? w.uid = _
    unfold counted
    rw [State.mapWave_wave (hf := by intro v h; exact h), if_pos rfl, A.found]
    rfl
  have hb := hbody s1 c hok h0 ⟨_, hw⟩ rfl A.mode
  have hb' : m.body (countHits m s w g) (soloCtx s i m.grd w g) = { st := s1, traps := trapsOf k (lanes c) (tval s1 c) } := by
    rw [hc]; exact hb
  have hi := issue_traps A.toIssues C h0 hb' rfl rfl rfl rfl (hcalm.single _)
  have hw2 : (s1.mapWave w.uid (leaveWord i g (if isAfter k then 0 else lanes c) (fun _ => none))).wave? w.uid =
      some (leaveWord i g (if isAfter k then 0 else lanes c) (fun _ => none)
        { w with winhit := w.winhit + BitVec.ofNat 64 (hitsOf (ops s) w (activeLanes m.grd w g)) }) := by
    rw [State.mapWave_wave (hf := by intro v h; exact h), if_pos rfl, hw]
    rfl
  have hcalm2 : Calm (s1.mapWave w.uid (leaveWord i g (if isAfter k then 0 else lanes c) (fun _ => none)))
      (leaveWord i g (if isAfter k then 0 else lanes c) (fun _ => none)
        { w with winhit := w.winhit + BitVec.ofNat 64 (hitsOf (ops s) w (activeLanes m.grd w g)) }) (lanes c) :=
    hcalm.leave rfl hcalm.single rfl rfl rfl (leaveWord_members ..) rfl rfl
  have ht := takeTraps_calm k i.key.pc (tval s1 c) hw2 hcalm2 hl hk
  have hst : issueFull m s = (s1.mapWave w.uid (leaveWord i g (if isAfter k then 0 else lanes c) (fun _ => none))).mapWave w.uid
      (Wave.enter k (if isAfter k then i.key.pc + 8 else i.key.pc) (lanes c) (tval s1 c) w.handler) := by
    rw [hi]; exact ht
  have hbad : s1.bad = none := A.sound
  rw [hex, ← hst]
  apply finish_next
  rw [hst]
  exact hbad

end Sys2Proof.Machine
end

