-- ==== Sys2Proof/Tests/Slice0.lean ====
section
/-!
SUPPORT. Tests: words written out from the encoding tables, ill-formed terms, results of single steps taken from
the specification's rules and worked cases, and for each statement a state that meets its hypotheses.
-/
namespace Sys2Proof.Tests
open Sys2Proof Sys2Proof.Machine

-- One theorem at a time: their kernel checks side by side would only take more memory.
set_option Elab.async false

/-! ## Decoding (R223 to R252) -/

/-- A full-form word of the register form, guard always, FEM 000. -/
def fr (t : Ety) (d a b : BitVec 11) (md : BitVec 8) : Full := ⟨t, ⟨false, 0⟩, false, false, false, d, a, .reg b md⟩
/-- The same in the immediate form. -/
def fi (t : Ety) (d a : BitVec 11) (v : BitVec 16) (m : BitVec 3) : Full := ⟨t, ⟨false, 0⟩, false, false, false, d, a, .imm v m⟩
/-- A half 1: MOV of V201 from the immediate 100 under P1. -/
def mate : HalfWord := ⟨.mov, ⟨.n32, 1, 200, 100, 8⟩⟩
def reads (w : DWord) : Option Instr := (decode w).toOption

/-- Words of the integer class (R245). -/
theorem test_decode_integer : [
    0x00182C0200601010,
    0x0036000200601000,
    0x0044000200601000,
    0x0062000200601000,
    0x0081740200601010,
    0x00C0000200601000,
    0x00E6000200601000,
    0x0104000200600010,
    0x0136000200600010,
    0x015C02020067F800,
    0x0166000200601000,
    0x0180000200601000,
    0x01A2000200601000,
    0x01DC000200600000,
    0x01E4000200601100,
    0x02020202006000F8,
    0x0220000200601100,
    0x025C000200601100,
    0x0262000200601101,
    0x0286000200600000,
    0x02BC000200600000,
    0x02C2000200600000,
    0x02E2000200600000,
    0x0304000200601100,
    0x0322020200604020,
    0x0346000200601103,
    0x0360000240681110,
    0x03BC0202406BB2A0].map reads = [
    .iadd ⟨.s16, ⟨false, 1⟩, false, true, true, 8, 12, (.reg 16 16)⟩,
    .isub (fr .s8 8 12 16 0),
    .imul (fr .s64 8 12 16 0),
    .imulh (fr .n32 8 12 16 0),
    .imad ⟨.s32, ⟨true, 3⟩, true, false, true, 8, 12, (.reg 16 16)⟩,
    .imin (fr .s32 8 12 16 0),
    .imax (fr .n64 8 12 16 0),
    .iabs (fr .s64 8 12 0 0x10),
    .ineg (fr .s8 8 12 0 0x10),
    .and (fi .bits 8 12 0xff00 0),
    .or (fr .n64 8 12 16 0),
    .xor (fr .s32 8 12 16 0),
    .andn (fr .n32 8 12 16 0),
    .not (fr .bits 8 12 0 0),
    .shl (fr .s64 8 12 17 0),
    .shr (fi .n32 8 12 31 0),
    .sar (fr .s32 8 12 17 0),
    .rot (fr .bits 8 12 17 0),
    .fshf (fr .n32 8 12 17 1),
    .popc (fr .n64 8 12 0 0),
    .clz (fr .bits 8 12 0 0),
    .ctz (fr .n32 8 12 0 0),
    .brev (fr .n32 8 12 0 0),
    .bfx (fr .s64 8 12 17 0),
    .bfi (fi .n32 8 12 0x804 0),
    .lea (fr .n64 8 12 17 3),
    .idot4 (fr .s32 9 13 17 0x10),
    .bpick (fi .bits 9 13 0x7654 0)].map some := by decide

/-- Words of the float class (R246). -/
theorem test_decode_float : [
    0x0808000240681138,
    0x082A000200601000,
    0x084E0002406811C0,
    0x086C02024069E000,
    0x0888000240681160,
    0x098A000200601000,
    0x08A8000240681108,
    0x08CE000240681100,
    0x08EA000200600000,
    0x090C000200600000,
    0x0928000200600000,
    0x094A000200600000,
    0x0968000200600000,
    0x09A8000200600000,
    0x09C8000200600000,
    0x09E8000200600000,
    0x0A08000200600000,
    0x0A28000200600000,
    0x0A48000240681100,
    0x0A6A000240600000,
    0x0A88000240681101,
    0x0B2A000200600000,
    0x0ABA000200601003,
    0x0ADA000200601000,
    0x0AFA000200600000,
    0x0B1A000200600000].map reads = [
    .fadd (fr .f32 9 13 17 0x38),
    .fsub (fr .f64 8 12 16 0),
    .fmul (fr .f16 9 13 17 0xc0),
    .fma (fi .bf16 9 13 0x3c00 0),
    .fnma (fr .f32 9 13 17 0x60),
    .fdiv (fr .f64 8 12 16 0),
    .fmin (fr .f32 9 13 17 8),
    .fmax (fr .f16 9 13 17 0),
    .fabs (fr .f64 8 12 0 0),
    .fneg (fr .bf16 8 12 0 0),
    .frcp (fr .f32 8 12 0 0),
    .frsq (fr .f64 8 12 0 0),
    .fsqrt (fr .f32 8 12 0 0),
    .fexp2 (fr .f32 8 12 0 0),
    .flog2 (fr .f32 8 12 0 0),
    .fsin (fr .f32 8 12 0 0),
    .fcos (fr .f32 8 12 0 0),
    .frnd (fr .f32 8 12 0 0),
    .fscl (fr .f32 9 13 17 0),
    .fcls (fr .f64 9 12 0 0),
    .fdot2 (fr .f32 9 13 17 1),
    .fsumv (fr .f64 8 12 0 0),
    .cmul (fr .c64 8 12 16 3),
    .cfma (fr .c64 8 12 16 0),
    .cconj (fr .c64 8 12 0 0),
    .crcp (fr .c64 8 12 0 0)].map some := by decide

/-- Words of the move class (R247). -/
theorem test_decode_move : [
    0x1008000240680000,
    0x10300002406011A0,
    0x1056000240681101,
    0x1068000200680700,
    0x10A00000C0681102,
    0x10C80000C0681104,
    0x10F400024068110B,
    0x11000000C0080208,
    0x1120000240180000,
    0x1140000240180002,
    0x1168000240680001,
    0x1182000240681101,
    0x11A0000240680005,
    0x11C0000240680008,
    0x11FC000240680000,
    0x1202020240010001,
    0x1228000240680002,
    0x1240000240680003,
    0x126002004007FEB8,
    0x1282020240000080,
    0x12A20200006800C0,
    0x12C2000240280000,
    0x12E0020000C00100,
    0x1300020000000200,
    0x13000200C0000201,
    0x1320020000000200,
    0x134E000240000000,
    0x1360000000280000].map reads = [
    .cvt (fr .f32 9 13 0 0),
    .srnd (fr .e4m3 9 12 17 0xa0),
    .pack (fr .s8 9 13 17 1),
    .unpk (fr .f32 8 13 7 0),
    .icmp (fr .s32 3 13 17 2),
    .fcmp (fr .f32 3 13 17 4),
    .sel (fr .ts8 9 13 17 0xb),
    .plog (fr .s32 3 1 2 8),
    .pmov (fr .s32 9 3 0 0),
    .vote (fr .s32 9 3 0 2),
    .lxb (fr .f32 9 13 0 1),
    .lxs (fr .n32 9 13 17 1),
    .lxbc (fr .s32 9 13 0 5),
    .lxrd (fr .s32 9 13 0 8),
    .mov (fr .bits 9 13 0 0),
    .movi (fi .n32 9 0 0x2000 1),
    .movx (fr .f32 9 13 0 2),
    .movxw (fr .s32 9 13 0 3),
    .setx (fi .s32 1 0 0xffd7 0),
    .gets (fi .n32 9 0 16 0),
    .sets (fi .n32 0 13 24 0),
    .wmov (fr .n32 9 5 0 0),
    .win (fi .s32 0 24 32 0),
    .xget (fi .s32 0 0 64 0),
    .xgetP (fi .s32 3 0 64 1),
    .xrel (fi .s32 0 0 64 0),
    .tag (fr .f16 9 0 0 0),
    .setf (fr .s32 0 5 0 0)].map some := by decide

/-- Words of the control class (R248). -/
theorem test_decode_control : [
    0x180002000007FFF0,
    0x19C0020000280019,
    0x19A002014007FFE0,
    0x1820000000680000,
    0x1840020240000080,
    0x1860000000680000,
    0x18A0020000000027,
    0x1880020000000007,
    0x18C0000000000000,
    0x18E1400000000000,
    0x1900000000000000,
    0x19E00200000091A0,
    0x1A00020000000038,
    0x1920020000000029,
    0x1940000000000000,
    0x1960020000000150,
    0x1980000780000000].map reads = [
    .bra (fi .s32 0 0 0xfffe 0),
    .brw (fi .s32 0 5 3 1),
    .loopw (fi .s32 5 0 0xfffc 0),
    .brx (fr .s32 0 13 0 0),
    .call (fi .s32 9 0 16 0),
    .ret (fr .s32 0 13 0 0),
    .jpt (fi .s32 0 0 4 7),
    .join (fi .s32 0 0 0 7),
    .yield (fr .s32 0 0 0 0),
    .exit ⟨.s32, ⟨true, 2⟩, false, false, false, 0, 0, (.reg 0 0)⟩,
    .nop (fr .s32 0 0 0 0),
    .trap (fi .s32 0 0 0x1234 0),
    .brk (fi .s32 0 0 7 0),
    .tryTx (fi .s32 0 0 5 1),
    .commit (fr .s32 0 0 0 0),
    .abort (fi .s32 0 0 42 0),
    .tstat (fr .s32 30 0 0 0)].map some := by decide

/-- Words of the memory class (R249). -/
theorem test_decode_memory : [
    0x2006020080000000,
    0x202202024067FFC0,
    0x2102000240681148,
    0x2136020240680018,
    0x2188000240681108,
    0x21AA020200680040,
    0x21C8020240600020,
    0x20C2000240601103,
    0x20E200024060110F,
    0x204200024064000B,
    0x20A00002406C0524,
    0x21420002406C00E4,
    0x2142020240680080,
    0x2168000240600000,
    0x2062000240680500,
    0x2082000240680500,
    0x21E0000000600000].map reads = [
    .ld (fi .n64 2 0 0 0),
    .st (fi .n32 9 12 0xfff8 0),
    .lds (fr .n32 9 13 17 0x48),
    .sts (fi .s8 9 13 3 0),
    .ldp (fr .f32 9 13 17 8),
    .stp (fi .f64 8 13 8 0),
    .ldro (fi .f32 9 12 4 0),
    .ldg (fr .n32 9 12 17 3),
    .stg (fr .n32 9 12 17 0xf),
    .atom (fr .n32 9 12 0x400 0xb),
    .atomt (fr .s32 9 13 0x405 0x24),
    .atomsReg (fr .n32 9 13 0x400 0xe4),
    .atomsImm (fi .n32 9 13 16 0),
    .rsadd (fr .f32 9 12 0 0),
    .ldt (fr .n32 9 13 5 0),
    .stt (fr .n32 9 13 5 0),
    .pref (fr .s32 0 12 0 0)].map some := by decide

/-- Words of the tile class (R249). -/
theorem test_decode_tile : [
    0x2960000200680500,
    0x28480000C0600000,
    0x2860000200180000,
    0x28800000C0000000,
    0x28000000C0A00471,
    0x28200000C0A00400,
    0x28A8000240181100,
    0x28C80000C0681100,
    0x28E00000C0000000,
    0x2900000200280006,
    0x29200000C0280000,
    0x29200000C0280001,
    0x29200000C0280002,
    0x29400000C0281100,
    0x2980000000280600,
    0x2980020000080018,
    0x29A000000028000C,
    0x29A0020000000001,
    0x29C0000000200600,
    0x29C0020000200038,
    0x29E0000000500005].map reads = [
    .lapr (fr .s32 8 13 5 0),
    .tdef (fr .f32 3 12 0 0),
    .tstate (fr .s32 8 3 0 0),
    .twait (fr .s32 3 0 0 0),
    .tld (fr .s32 3 20 4 0x71),
    .tst (fr .s32 3 20 4 0),
    .trd (fr .f32 9 3 17 0),
    .twr (fr .f32 3 13 17 0),
    .tzero (fr .s32 3 0 0 0),
    .regq (fr .s32 8 5 0 6),
    .regpinPin (fr .s32 3 5 0 0),
    .regpinUnpin (fr .s32 3 5 0 1),
    .regpinClear (fr .s32 3 5 0 2),
    .regadv (fr .s32 3 5 17 0),
    .waitlReg (fr .s32 0 5 6 0),
    .waitlImm (fi .s32 0 1 3 0),
    .waitcReg (fr .s32 0 5 0 0xc),
    .waitcImm (fi .s32 0 0 0 1),
    .waitqReg (fr .s32 0 4 6 0),
    .waitqImm (fi .s32 0 4 7 0),
    .waitm (fr .s32 0 10 0 5)].map some := by decide

/-- Words of the cooperation class (R250). -/
theorem test_decode_cooperation : [
    0x30000000C0000000,
    0x3020000000000000,
    0x3040020000000400,
    0x3040000000680000,
    0x306A000200181100,
    0x3080000240000000,
    0x30A0000000100600,
    0x30C0000200280000,
    0x30E0020000000108,
    0x30E0000000280000,
    0x3100000000000003,
    0x3120020000000200,
    0x3120000000680000,
    0x3140000080000000].map reads = [
    .mxrsv (fr .s32 3 0 0 0),
    .mxrel (fr .s32 0 0 0 0),
    .mxgoImm (fi .s32 0 0 0x80 0),
    .mxgoReg (fr .s32 0 13 0 0),
    .mxprom (fr .f64 8 3 17 0),
    .mxstat (fr .s32 9 0 0 0),
    .ctail (fr .s32 0 2 6 0),
    .cseq (fr .s32 8 5 0 0),
    .barImm (fi .s32 0 0 33 0),
    .barReg (fr .s32 0 5 0 0),
    .barg (fr .s32 0 0 0 3),
    .fetchwImm (fi .s32 0 0 64 0),
    .fetchwReg (fr .s32 0 13 0 0),
    .elect (fr .s32 2 0 0 0)].map some := by decide

/-- Words of the system class (R250). -/
theorem test_decode_system : [
    0x3800000000000000,
    0x3842020100000080,
    0x3866020000100018,
    0x3862020000100308,
    0x3880000000280000,
    0x38A0000000000000,
    0x38C0000000200001,
    0x38E0000000200600,
    0x3900000000200600,
    0x3920000140600000].map reads = [
    .rth (fr .s32 0 0 0 0),
    .hget (fi .n32 4 0 16 0),
    .hset (fi .n64 0 2 3 0),
    .ologdDrop (fi .n32 0 2 97 0),
    .park (fr .s32 0 5 0 0),
    .replay (fr .s32 0 0 0 0),
    .cinv (fr .s32 0 4 0 1),
    .xlinv (fr .s32 0 4 6 0),
    .deadm (fr .s32 0 4 6 0),
    .apset (fr .s32 5 12 0 0)].map some := by decide

/-- Words of the pair form (R237, R239): half 0 of each opcode, beside MOV. -/
theorem test_decode_pair : [
    0x40000810305C8648,
    0x40882038305C8648,
    0x41103860305C8648,
    0x43185088305C8648,
    0x438068B0305C8648,
    0x450880D8305C8648,
    0x45909900305C8648,
    0x4618B128305C8648,
    0x4780C950305C8648,
    0x4828E178305C8648,
    0x4890F9A0305C8648,
    0x505911C8305C8648,
    0x50C129F0305C8648,
    0x51494218305C8648,
    0x52D15A40305C8648,
    0x53597268305C8648,
    0x53C18A90305C8648,
    0x5449A2B8305C8648,
    0x5871BAE0305C8648,
    0x58D9D308305C8648].map reads = [
    .iaddHalf ⟨.s32, 0, 1, 2, 0⟩ mate,
    .isubHalf ⟨.s32, 1, 4, 7, 0⟩ mate,
    .imulHalf ⟨.s32, 2, 7, 12, 0⟩ mate,
    .iminHalf ⟨.s32, 3, 10, 17, 0⟩ mate,
    .imaxHalf ⟨.s32, 0, 13, 22, 0⟩ mate,
    .andHalf ⟨.s32, 1, 16, 27, 0⟩ mate,
    .orHalf ⟨.s32, 2, 19, 32, 0⟩ mate,
    .xorHalf ⟨.s32, 3, 22, 37, 0⟩ mate,
    .shlHalf ⟨.s32, 0, 25, 42, 0⟩ mate,
    .shrHalf ⟨.n32, 1, 28, 47, 0⟩ mate,
    .sarHalf ⟨.s32, 2, 31, 52, 0⟩ mate,
    .faddHalf ⟨.f32, 3, 34, 57, 0⟩ mate,
    .fsubHalf ⟨.f32, 0, 37, 62, 0⟩ mate,
    .fmulHalf ⟨.f32, 1, 40, 67, 0⟩ mate,
    .fminHalf ⟨.f32, 2, 43, 72, 0⟩ mate,
    .fmaxHalf ⟨.f32, 3, 46, 77, 0⟩ mate,
    .fabsHalf ⟨.f32, 0, 49, 82, 0⟩ mate,
    .fnegHalf ⟨.f32, 1, 52, 87, 0⟩ mate,
    .movHalf ⟨.bits, 2, 55, 92, 0⟩ mate,
    .cvtHalf ⟨.f32, 3, 58, 97, 0⟩ mate].map some := by decide
/-- Each check refuses a term: the type, the form, the guard 0b1000, the classes of the three fields, FEM of a field
that is not read, the modifier; and in a half the ET2 and MD4 (R244, R229, R227, R230, R233, R239, R240, R252). -/
theorem test_ill_formed :
    [Instr.fadd (fr .s32 9 13 17 0), .iabs (fi .s32 9 13 0 0), .movi (fr .n32 9 0 0 0),
     .iadd { fr .s32 9 13 17 0 with grd := ⟨true, 0⟩ }, .iadd (fr .s64 9 12 16 0), .iadd (fr .s64 8 13 16 0),
     .iadd (fr .s64 8 12 17 0), .cmul (fr .c64 8 10 16 0), .iadd { fr .s32 9 13 17 0 with femD := true },
     .iadd { fi .s32 9 13 1 0 with femB := true }, .fadd (fr .f32 9 13 17 0xE0), .fadd (fr .f32 9 13 17 0xA0),
     .nop (fr .s32 1 0 0 0), .wmov (fr .n32 9 64 0 0), .waitcReg (fr .s32 0 5 0 0xC0),
     .faddHalf ⟨.s32, 0, 1, 2, 0⟩ mate, .iaddHalf ⟨.s32, 0, 1, 2, 2⟩ mate, .movHalf ⟨.n32, 0, 1, 2, 1⟩ mate].map
       Instr.wellFormed = List.replicate 18 false := by decide

/-- Every change of the worked word of R252 that the specification calls illegal. -/
theorem test_illegal_words :
    [0x0809440280580CE0, 0x0809440280580CA0, 0x0809540280580C00, 0x081F440280580C00, 0x0801440280580C00,
     0x0809040280580C00].map reads = List.replicate 6 none ∧
    reads 0x08094402BFF80C00 = some (.fadd ⟨.f32, ⟨true, 2⟩, false, false, true, 10, 2047, .reg 12 0⟩) := by decide

/-- Worked words of R332, R240, and of the chapters on tiles and waits. -/
theorem test_worked_words :
    [0x2006020080000000, 0x2006020100000040, 0x2002020180000080, 0x2000020200100000, 0x2008020240100020, 0x2028020300200000,
     0x121C020040010001, 0x28000000C0A00471, 0x29A000000028000C, 0x29C0020000200038].map reads =
    [.ld (fi .n64 2 0 0 0), .ld (fi .n64 4 0 8 0), .ld (fi .n32 6 0 16 0), .ld (fi .s32 8 2 0 0), .ld (fi .f32 9 2 4 0),
     .st (fi .f32 12 4 0 0), .movi (fi .bits 1 0 0x2000 1), .tld (fr .s32 3 20 4 0x71), .waitcReg (fr .s32 0 5 0 0x0C),
     .waitqImm (fi .s32 0 4 7 0)].map some := by decide

/-- The bytes of the worked word stand little-endian in the text (R252). -/
theorem test_bytes :
    (decodeBytes [0x00, 0x0C, 0x58, 0x80, 0x02, 0x44, 0x09, 0x08, 0xFF]).toOption.map (·.2) = some [0xFF] ∧
    ((decodeBytes [0x00, 0x0C]).toOption.isNone) = true := by decide

/-! ## The small machine of the tests -/

/-- A team whose descriptor declares everything, with shares of 4 KiB. -/
def tm : Team :=
  { State.fetchTeam 2 1 with
    desc := { State.fetchDesc with pers := true, umx := true, ust := true, utry := true, tiles := 4, maxe := 512, privH := 4096 }
    spSize := 4096, asSize := 4096, asBase := [8192] }
/-- Its one wave: one live thread at PC 0, handler at 0. -/
def wv : Wave := State.fetchWave 3 2 1 4 0
def cd : Code := { id := 1, ctx := 0, base := 0x10000000, size := 16, dh := 8, kdescs := [] }
/-- The wave with registers of its thread. -/
def regs (w : Wave) (l : List (Nat × Word)) : Wave := w.mapThread 0 (fun t => { t with v := l })
/-- The issue group of its thread in a mode. -/
def group (m : Mode) : Issue :=
  { core := 0, quad := 0, num := 0, key := ⟨1, 0, m⟩, parts := [⟨3, 1⟩], word := 7, snap := [], raised := [], late := [], cut := none }
def iss : Issue := group .normal
/-- The machine about to issue for the wave. -/
def mk (w : Wave) (i : Issue) : State :=
  { State.reset with
    waves := [w], teams := [tm], codes := [cd], cur := some i, nextId := 5
    quads := [(0, { Quad.reset with active := [3] })], cores := [(0, { Core.reset with part := 192 })] }
/-- The wave in handler mode, and in a transaction of its thread. -/
def wh : Wave := { wv with handling := true, subw := 1, retm := 1 }
def wt : Wave := (openTx wv 1 false 64 5).mapThread 0 (fun t => { t with depth := 1 })

theorem issues_of (w : Wave) (i : Issue) (hu : w.uid = 3) (hp : i.parts = [⟨3, 1⟩])
    (hs : (i.snap, i.late, i.cut) = ([], [], none)) (hm : i.inTx = true → (1 : Mask) &&& w.members = 1)
    (hr : (w.retired, w.wsoft) = (false, [])) (hf : ∀ t ∈ w.threads, ∀ n ∈ t.soft, n < 16384 := by decide) :
    Issues (mk w i) i w 1 where
  cur := rfl
  parts := by rw [hu]; exact hp
  first := (Prod.mk.inj hs).1
  late := (Prod.mk.inj (Prod.mk.inj hs).2).1
  whole := (Prod.mk.inj (Prod.mk.inj hs).2).2
  member := hm
  found := by
    show [w].find? (fun v => v.uid == w.uid) = some w
    simp
  live := (Prod.mk.inj hr).1
  lanes := by decide
  steady := (Prod.mk.inj hr).2
  firm := hf
  sound := rfl

theorem alone_of (w : Wave) (i : Issue) (hu : w.uid = 3) (hp : i.parts = [⟨3, 1⟩])
    (hs : (i.snap, i.late, i.cut) = ([], [], none)) (ht : i.inTx = false) (hr : (w.retired, w.wsoft) = (false, []))
    (hf : ∀ t ∈ w.threads, ∀ n ∈ t.soft, n < 16384 := by decide) : Alone (mk w i) i w 1 where
  toIssues := issues_of w i hu hp hs (fun h => by rw [ht] at h; cases h) hr hf
  mode := ht

/-- The operands are ready, as a computation. -/
def readyB (grd : Guard) (ops : Wave → Nat → List Opnd) (w : Wave) (g : Mask) : Bool :=
  (lanesOf (activeLanes grd w g)).all (fun l =>
    (waitsFor w (liveOps (ops w l) (w.thread l))).isEmpty && (operandTrap w l (liveOps (ops w l) (w.thread l))).isNone &&
    (ops w l).all (fun o => !o.idx || (o.format w).isNone)) &&
  (ops w ((lowest g).getD 0)).all (fun o => o.idx || (o.format w).isNone)

theorem ready_of {grd : Guard} {ops : Wave → Nat → List Opnd} {w : Wave} {g : Mask} (h : readyB grd ops w g = true) :
    OpsReady grd ops w g := by
  simp only [readyB, Bool.and_eq_true, List.all_eq_true, List.isEmpty_iff, Option.isNone_iff_eq_none, Bool.or_eq_true,
    Bool.not_eq_true'] at h
  obtain ⟨h1, h2⟩ := h
  refine ⟨fun l hl => (h1 l hl).1.1, fun l hl => (h1 l hl).1.2, fun o ho hi => ?_, fun l hl o ho hi => ?_⟩
  · rcases h2 o ho with h | h
    · rw [hi] at h; cases h
    · exact h
  · rcases (h1 l hl).2 o ho with h | h
    · rw [hi] at h; cases h
    · exact h

/-- The hypotheses of a word that issues alone for the thread of `w`: the group, the operands, an Active lane, no
flag enabled. -/
def Meets (w : Wave) (i : Issue) (grd : Guard) (ops : Wave → Nat → List Opnd) : Prop :=
  Alone (mk w i) i w 1 ∧ Group (mk w i) i [⟨w.uid, w, 1⟩] ∧ OpsReady grd ops w 1 ∧ activeLanes grd w 1 ≠ 0 ∧ w.fxe = 0

theorem meets (grd : Guard) (ops : Wave → Nat → List Opnd) (w : Wave := wv) (h : readyB grd ops w 1 = true)
    (h0 : activeLanes grd w 1 ≠ 0) (hu : w.uid = 3 ∧ (w.retired, w.wsoft) = (false, []) ∧ w.fxe = 0)
    (hf : ∀ t ∈ w.threads, ∀ n ∈ t.soft, n < 16384 := by decide) : Meets w iss grd ops :=
  ⟨alone_of w iss hu.1 rfl rfl rfl hu.2.1 hf, (alone_of w iss hu.1 rfl rfl rfl hu.2.1 hf).group, ready_of h, h0, hu.2.2⟩

/-- What the body of a word learns there. -/
def ctx (w : Wave) (i : Issue) (f : Full) : Ctx := soloCtx (mk w i) i f.grd w 1

/-! ## States that meet the hypotheses -/

theorem wit_IntegerResults : Meets wv iss (fr .s32 8 12 16 0).grd (shapeBin (fr .s32 8 12 16 0)) ∧
    Meets wv iss (fi .s32 8 12 5 0).grd (shapeAcc (fi .s32 8 12 5 0)) ∧
    Meets wv iss (fr .s64 8 12 0 0).grd (shapeUn (fr .s64 8 12 0 0)) :=
  ⟨meets _ _ wv (by decide) (by decide) (by decide), meets _ _ wv (by decide) (by decide) (by decide),
   meets _ _ wv (by decide) (by decide) (by decide)⟩

/-- A second wave of the team, in the next lane, and the machine about to issue for both: as the first word of the
cycle, or as the second with the waves as the cycle began. -/
def wv2 : Wave := { wv with uid := 4, num := 1, lane := 1 }
def issPair (second : Bool) : Issue := { iss with parts := [⟨3, 1⟩, ⟨4, 1⟩], snap := if second then [wv, wv2] else [] }
def mkPair (second : Bool) : State :=
  { mk wv (issPair second) with waves := if second then [regs wv [(12, 1)], wv2] else [wv, wv2] }
def both : List Share := [⟨3, wv, 1⟩, ⟨4, wv2, 1⟩]
theorem group_pair (second : Bool) : Group (mkPair second) (issPair second) both where
  cur := rfl
  parts := rfl
  found p hp := by
    simp only [both, List.mem_cons, List.not_mem_nil, or_false] at hp
    rcases hp with rfl | rfl <;> cases second
    · exact ⟨wv, rfl, rfl, (fun h => by cases h), rfl⟩
    · exact ⟨regs wv [(12, 1)], rfl, rfl, (fun h => by cases h), rfl⟩
    · exact ⟨wv2, rfl, rfl, (fun h => by cases h), rfl⟩
    · exact ⟨wv2, rfl, rfl, (fun h => by cases h), rfl⟩
  apart := by decide
  lanes := by decide
  late := rfl
  whole := by cases second <;> rfl
  steady := by decide
  firm := by decide
  sound := by cases second <;> rfl

/-- IADD for two waves, as the first word of a cycle and as the second. -/
theorem wit_GroupCourse : let f := fr .s32 9 12 13 0
    let m := (semOf (.iadd f)).get rfl
    (∀ b, Group (mkPair b) (issPair b) both) ∧ (both.all (fun p => readyB m.grd (m.ops (mkPair true)) p.rd p.grp &&
      m.legal (mkPair true) p.rd false && !m.hold (mkPair true) p.rd 1 && (m.tile (mkPair true) p.rd 1).isNone &&
      (m.fmt (mkPair true) p.rd 1).isNone && activeLanes m.grd p.rd p.grp == 1)) = true ∧
    (∀ s t w l, m.ops s w l = m.ops t w l) ∧ (both.foldl (fun t p => settleShare (issPair true) m p.u p.rd p.grp []
      (m.body (counted t p.u (hitsOf (m.ops t) p.rd 1)) (shareCtx t (issPair true) m.grd p))) (mkPair true)).bad = none :=
  ⟨group_pair, by decide +kernel, fun _ _ _ _ => rfl, by decide +kernel⟩
theorem wit_ShiftResults : Meets wv iss (fr .n32 8 12 17 0).grd (shapeBinB (fr .n32 8 12 17 0) .n32) ∧
    Meets wv iss (fr .n32 8 12 17 1).grd (shapeAccB (fr .n32 8 12 17 1) .n32) :=
  ⟨meets _ _ wv (by decide) (by decide) (by decide), meets _ _ wv (by decide) (by decide) (by decide)⟩
theorem wit_FieldResults : let f := fr .n64 8 12 17 3
    Meets wv iss f.grd (fun _ l => [.dst l f.dn 2, opA f l .n64] ++ opB f l .s32) :=
  meets _ _ wv (by decide) (by decide) (by decide)
theorem wit_FloatResults : Meets wv iss (fr .f32 8 12 16 0).grd (shapeBin (fr .f32 8 12 16 0)) :=
  meets _ _ wv (by decide) (by decide) (by decide)
theorem wit_ComplexResults : let f := fr .c64 8 12 16 0
    Meets wv iss f.grd (fun _ l => [opDacc f l, opA f l .c64] ++ opB f l .c64) :=
  meets _ _ wv (by decide) (by decide) (by decide)
theorem wit_ConversionResults : let f := fr .f32 9 13 1 0
    Meets wv iss f.grd (fun _ l => [opD f l, opA f l .n32]) :=
  meets _ _ wv (by decide) (by decide) (by decide)
/-- PMOV in both directions. -/
theorem wit_PredicateResults : Meets wv iss (fr .s32 9 3 0 0).grd (fun _ l => [.dst l (fr .s32 9 3 0 0).dn 1]) ∧
    (fr .s32 9 3 0 0).lo3 = 0 ∧ Meets wv iss (fr .s32 3 9 0 1).grd (fun _ l => [opA (fr .s32 3 9 0 1) l .bits]) ∧
    (fr .s32 3 9 0 1).lo3 ≠ 0 :=
  ⟨meets _ _ wv (by decide) (by decide) (by decide), by decide, meets _ _ wv (by decide) (by decide) (by decide), by decide⟩
theorem wit_ExchangeResults : let f := fr .f32 9 13 0 0
    Meets wv iss f.grd (fun w l => [opD f l, { opA f (l ^^^ (f.md.toNat % 64 &&& (w.width - 1))) f.ety with part := true }] ++ []) :=
  meets _ _ wv (by decide) (by decide) (by decide)
/-- MOVI, SETX of each kind, and TAG and WMOV of the forms that write V. -/
theorem wit_MoveResults : Meets wv iss (fi .n32 9 0 5 1).grd (fun _ l => [opDacc (fi .n32 9 0 5 1) l]) ∧
    (fr .s32 9 1 0 2).lo3 % 4 = 2 ∧ Meets wv iss (fr .s32 9 1 0 2).grd (fun _ l => [.dst l (fr .s32 9 1 0 2).dn 1]) ∧
    (fi .s32 1 0 5 1).lo3 % 4 ≠ 2 ∧ Meets wv iss (fi .s32 1 0 5 1).grd (fun _ _ => []) ∧
    (fr .n32 9 12 0 1).lo3 ≠ 0 ∧ (fr .n32 9 5 0 0).lo3 % 4 = 0 ∧ (fr .n32 9 5 0 0).md.getLsbD 2 = false :=
  ⟨meets _ _ wv (by decide) (by decide) (by decide), by decide, meets _ _ wv (by decide) (by decide) (by decide), by decide,
   meets _ _ wv (by decide) (by decide) (by decide), by decide, by decide, by decide⟩
/-- LOOPW at 1 and above, and BRX to an aligned PC. -/
theorem wit_BranchResults : Meets wv iss (fi .s32 5 0 4 0).grd shapeNone ∧
    (ctx (wv.setW 5 1) iss (fi .s32 5 0 4 0)).rd.wreg 5 = 1 ∧ (ctx (wv.setW 5 2) iss (fi .s32 5 0 4 0)).rd.wreg 5 ≠ 1 ∧
    (∀ l ∈ (ctx (regs wv [(13, 8)]) iss (fr .s32 0 13 0 0)).lanes,
      (((ctx (regs wv [(13, 8)]) iss (fr .s32 0 13 0 0)).rd.thread l).reg 13).toNat % 8 = 0) :=
  ⟨meets _ _ wv (by decide) (by decide) (by decide), by decide, by decide, by decide⟩
/-- JPT on an invalid slot, and on a valid one with the same join PC; EXIT in both modes. -/
theorem wit_ControlResults : Meets wv iss (fi .s32 0 0 4 7).grd shapeNone ∧
    ((ctx wv iss (fi .s32 0 0 4 7)).rd.join? 7).valid = false ∧
    (let c := ctx (wv.setJoin 7 ⟨true, 40, 1, 0⟩) iss (fi .s32 0 0 4 7)
     (c.rd.join? 7).valid = true ∧ (c.rd.join? 7).pc = c.pc + 8 + 8 * (4 : BitVec 16).signExtend 32) ∧
    (ctx wh (group (.handler 3)) (fr .s32 0 0 0 0)).hm = true ∧ (ctx wv iss (fr .s32 0 0 0 0)).hm = false :=
  ⟨meets _ _ wv (by decide) (by decide) (by decide), by decide, by decide, by decide, by decide⟩
/-- WMOV into W and between W, SETS of a mode that exists, WIN to the last register. -/
theorem wit_WaveRegisterResults : Meets wv iss (fr .n32 5 13 0 1).grd (fun w l =>
      [opWave (fr .n32 5 13 0 1) (opA (fr .n32 5 13 0 1) · .n32) (mk wv iss) w l]) ∧
    (fr .n32 5 13 0 1).lo3 % 4 = 1 ∧ 2 ≤ (fr .n32 5 6 0 2).lo3 % 4 ∧ badMode 0x18 0 = false ∧
    (∀ b, specialReg 0x18 ≠ some (b, 2)) ∧ (fi .s32 0 224 32 0).an + 32 ≤ wv.top ∧ (fr .f16 9 0 0 0).lo3 = 0 :=
  ⟨meets _ _ wv (by decide) (by decide) (by decide), by decide, by decide, by decide, by decide, by decide, by decide⟩
/-- XGET with room and without, to the limit of the quota; XREL of all of the extended block. -/
theorem wit_AcquisitionResults : Meets wv iss (fi .s32 0 0 512 0).grd shapeNone ∧
    wv.top + 512 ≤ 2048 ∧ (mk wv iss).team? wv.team = some tm ∧ wv.ext + 512 ≤ tm.desc.maxe ∧
    (regsFree (mk wv iss) wv.qn wv.lane wv.width 512 && !heldBack (mk wv iss) wv ((mk wv iss).quad wv.qn).xq) = true ∧
    64 ≤ { wv with ext := 64 }.ext :=
  ⟨meets _ _ wv (by decide) (by decide) (by decide), by decide, rfl, by decide, by decide, by decide⟩

/-! ## A machine with memory

A context entry, page tables that map the lowest 8 GiB of context 0 to region 0, the engine and queue blocks, and a
buffer table of eight descriptors: 0 linear, 1 tiled, 2 Steppe, the others invalid. -/

def dLin : Desc := BitVec.ofNat 512 (2 ^ 61 + 7 * 2 ^ 49 + 0x10000 * 2 ^ 64 + 0x100000 * 2 ^ 128)
/-- Rank 1, 512 elements of F32 in two parcels of 256, order 0. -/
def dTil : Desc := BitVec.ofNat 512
  (2 ^ 62 + 2 ^ 61 + 2 ^ 56 + 4 * 2 ^ 52 + 7 * 2 ^ 49 + 0x800 * 2 ^ 64 + 0x110000 * 2 ^ 128 + 512 * 2 ^ 192 + 8 * 2 ^ 376)
def dStp : Desc := dSet (dSet dTil 62 2 2) 128 48 0x112000
/-- The bytes: the context entry, two table entries, the descriptors, the block of engine 1 open to context 0 with SEQ 5. -/
def ram : Memory :=
  [(0x1001, 0x20), (0x1007, 0xC0), (0x2007, 0x80), (0x2009, 0x30), (0x3006, 0x80), (0x3007, 0xFB)] ++
  [(0x4006, 0x0E), (0x4007, 0x20), (0x400A, 0x01), (0x4012, 0x10)] ++
  [(0x4046, 0x4E), (0x4047, 0x61), (0x4049, 0x08), (0x4052, 0x11), (0x4059, 0x02), (0x406F, 0x08)] ++
  [(0x4086, 0x4E), (0x4087, 0xA1), (0x4089, 0x08), (0x4091, 0x20), (0x4092, 0x11), (0x4099, 0x02), (0x40AF, 0x08)] ++
  [(0x8065, 0x80), (0x8078, 0x05)]
/-- W6 a handle of region 1 and W7 of region 2 with all rights, W8 a path 2 address, W10 an engine, W12 a tail. -/
def wr : Wave := (((wv.setW 6 0xE0000001).setW 7 0xE0000002).setW 10 1).setW 12 5
def withRam (s : State) : State :=
  { s with mem := ram, host := { s.host with boot := .normal, bases := ⟨0x9000, 0x8000, 0x1000, [(0, 0x4000, 8)], []⟩ } }
def rich (w : Wave) : State := withRam (mk w iss)

theorem test_ram : ram.wf = true ∧ (walk (rich wr) 0 0x40 matches .leaf 3 ..) = true ∧ validDesc (rich wr) 0 0 = some dLin ∧
    validDesc (rich wr) 0 1 = some dTil ∧ validDesc (rich wr) 0 2 = some dStp ∧ engOpen (rich wr) 1 0 = true := by
  decide +kernel

theorem alone_in (s : State) (w : Wave) (h : s.cur = some iss ∧ s.waves = [w] ∧ s.bad = none ∧ w.uid = 3 ∧ w.retired = false ∧ w.wsoft = [])
    (hf : ∀ t ∈ w.threads, ∀ n ∈ t.soft, n < 16384 := by decide) :
    Alone s iss w 1 where
  cur := h.1
  parts := by rw [h.2.2.2.1]; rfl
  first := rfl
  late := rfl
  whole := rfl
  member := fun h => by cases h
  found := by rw [State.wave?, h.2.1]; simp
  live := h.2.2.2.2.1
  lanes := by decide
  steady := h.2.2.2.2.2
  firm := hf
  sound := h.2.2.1
  mode := rfl

/-- `meets` in a state of its own, with `ok` at the state and the context of the body. -/
def At (s : State) (w : Wave) (grd : Guard) (ops : State → Wave → Nat → List Opnd) (ok : State → Ctx → Prop) : Prop :=
  Alone s iss w 1 ∧ OpsReady grd (ops s) w 1 ∧ activeLanes grd w 1 ≠ 0 ∧
    ok (counted s w.uid (hitsOf (ops s) w (activeLanes grd w 1))) (soloCtx s iss grd w 1)

def atB (s : State) (w : Wave) (grd : Guard) (ops : State → Wave → Nat → List Opnd) : Bool :=
  s.cur == some iss && s.waves == [w] && s.bad == none && w.uid == 3 && !w.retired && w.wsoft == [] && readyB grd (ops s) w 1 &&
    activeLanes grd w 1 != 0
theorem at_ {s : State} {w : Wave} {grd : Guard} {ops : State → Wave → Nat → List Opnd} {ok : State → Ctx → Prop}
    (h : atB s w grd ops = true)
    (h' : ok (counted s w.uid (hitsOf (ops s) w (activeLanes grd w 1))) (soloCtx s iss grd w 1))
    (hf : ∀ t ∈ w.threads, ∀ n ∈ t.soft, n < 16384 := by decide) : At s w grd ops ok := by
  simp only [atB, Bool.and_eq_true, beq_iff_eq, bne_iff_ne, Bool.not_eq_true'] at h
  obtain ⟨⟨⟨⟨⟨⟨⟨h1, h2⟩, h3⟩, h4⟩, h5⟩, h8⟩, h6⟩, h7⟩ := h
  exact ⟨alone_in s w ⟨h1, h2, h3, h4, h5, h8⟩ hf, ready_of h6, h7, h'⟩

def okB (a : Acc) : Bool := (match a.chk with | .ok _ => true | _ => false) && !a.ragged
theorem ok_of {a : Acc} (h : okB a = true) : (∃ l, a.chk = .ok l) ∧ a.ragged = false := by
  simp only [okB, Bool.and_eq_true, Bool.not_eq_true'] at h
  refine ⟨?_, h.2⟩
  have := h.1
  split at this
  · exact ⟨_, by assumption⟩
  · cases this
def accsB (c : Ctx) (wants : List Want) (as hs : List Acc) : Bool :=
  !as.isEmpty && as.all (fun a => okB a && a.gen.all (fun g => !watchHit c.rd g a.size wants)) && hs.all okB
theorem accs_of {c : Ctx} {wants : List Want} {as hs : List Acc} (h : accsB c wants as hs = true) : AccsReady c wants as hs := by
  simp only [accsB, Bool.and_eq_true, Bool.not_eq_true', List.isEmpty_eq_false_iff, List.all_eq_true,
    Option.all_eq_true] at h
  exact ⟨h.1.1, fun a ha => ⟨(ok_of (h.1.2 a ha).1).1, (ok_of (h.1.2 a ha).1).2, (h.1.2 a ha).2⟩, fun a ha => ok_of (h.2 a ha)⟩

/-- V12 and V13 hold an address on path 0 that translates, V14 the offset 0. -/
def w0 : Wave := { regs wr [(12, 0x40)] with hwm := 4096 }
/-- The same on path 2. -/
def w2 : Wave := regs wr [(12, 0x40), (13, 0x20000000)]

/-- The hypotheses of a memory word in the machine with memory. -/
abbrev Mem (w : Wave) (f : Full) (ks : List Nat) (want : Want) (ops : State → Wave → Nat → List Opnd) (accs : State → Ctx → List Acc)
    (ok : State → Ctx → Prop) : Prop :=
  At (rich w) w f.grd ops (fun s c => memHold ks s c.rd c.act = false ∧ AccsReady c [want] (accs s c) (splitHalves s c (if want = .read then .read else .write) (accs s c)) ∧ ok s c)

theorem wit_LoadResults :
    (let f := fi .f32 9 12 0 0
     Mem w0 f [0] .read (fun _ _ l => ldOps f true l) (fun s c => c.lanes.map (fun l => genAcc s c f .read (ldAddr f c.rd l) l))
      (fun _ c => isQ f = true → c.hm = true)) ∧
    (let f := fi .n64 8 12 4024 0
     Mem w0 f [0] .read (fun _ _ l => offOps f true l)
      (fun _ c => c.lanes.map (fun l => scratchAcc c f (offAddr f (c.rd.thread l)) l)) (fun _ _ => True)) ∧
    (let f := fi .n32 8 12 0 0
     Mem w0 f [0] .read (fun _ _ l => offOps f true l)
      (fun _ c => c.lanes.map (fun l => privAcc c f (offAddr f (c.rd.thread l)) l)) (fun _ _ => True)) ∧
    (let f := fi .n32 8 20 0 0
     Mem w0 f [0] .read (fun _ _ l => [opD f l] ++ opOff f l) (fun s c => c.lanes.map (roAcc s c f)) (fun _ _ => True)) ∧
    (let f := fr .n32 8 12 16 1
     Mem w0 f [0] .read (fun _ _ l => gatherOps f true l) (fun s c => gatherAccs s c f .read none) (fun _ _ => True)) ∧
    (let f := fr .f32 8 14 6 0
     Mem w0 f [0] .read (fun s w l => [opD f l, opCoords s w f l])
      (fun s c => c.lanes.map (coordAcc s c f .read (· == 1) false)) (fun s c => coordFmt f s c.rd c.act = none)) :=
  ⟨at_ (by decide +kernel) ⟨(by decide +kernel), accs_of (by decide +kernel), (by decide +kernel)⟩, at_ (by decide +kernel) ⟨(by decide +kernel), accs_of (by decide +kernel), trivial⟩, at_ (by decide +kernel) ⟨(by decide +kernel), accs_of (by decide +kernel), trivial⟩, at_ (by decide +kernel) ⟨(by decide +kernel), accs_of (by decide +kernel), trivial⟩,
   at_ (by decide +kernel) ⟨(by decide +kernel), accs_of (by decide +kernel), trivial⟩, at_ (by decide +kernel) ⟨(by decide +kernel), accs_of (by decide +kernel), (by decide +kernel)⟩⟩

theorem wit_StoreResults :
    (let f := fi .f32 9 12 0 0
     Mem w0 f [1, 2] .write (fun _ _ l => ldOps f false l) (fun s c => c.lanes.map (fun l => genAcc s c f .write (ldAddr f c.rd l) l))
      (fun _ c => isQ f = true → c.hm = true)) ∧
    (let f := fi .n64 8 12 4024 0
     Mem w0 f [1, 2] .write (fun _ _ l => offOps f false l)
      (fun _ c => c.lanes.map (fun l => scratchAcc c f (offAddr f (c.rd.thread l)) l)) (fun _ _ => True)) ∧
    (let f := fi .n32 8 12 0 0
     Mem w0 f [1, 2] .write (fun _ _ l => offOps f false l)
      (fun _ c => c.lanes.map (fun l => privAcc c f (offAddr f (c.rd.thread l)) l)) (fun _ _ => True)) ∧
    (let f := fr .n32 8 12 16 1
     Mem w0 f [1, 2] .write (fun _ _ l => gatherOps f false l) (fun s c => gatherAccs s c f .write none) (fun _ _ => True)) ∧
    (let f := fr .f32 8 14 6 0
     Mem w0 f [1, 2] .write (fun s w l => [opStored f l f.ety.regs, opCoords s w f l])
      (fun s c => c.lanes.map (coordAcc s c f .write (fun k => k == 1 || k == 2) (f.ety == .bits)))
      (fun s c => coordFmt f s c.rd c.act = none)) ∧
    (let f := fr .s32 8 12 0 0
     Mem w2 f [1, 2] .atomic (fun _ _ l => [opStored f l 1, opA f l .n64]) (fun s c => c.lanes.map (rsAcc s c f))
      (fun _ _ => True)) :=
  ⟨at_ (by decide +kernel) ⟨(by decide +kernel), accs_of (by decide +kernel), (by decide +kernel)⟩, at_ (by decide +kernel) ⟨(by decide +kernel), accs_of (by decide +kernel), trivial⟩, at_ (by decide +kernel) ⟨(by decide +kernel), accs_of (by decide +kernel), trivial⟩, at_ (by decide +kernel) ⟨(by decide +kernel), accs_of (by decide +kernel), trivial⟩,
   at_ (by decide +kernel) ⟨(by decide +kernel), accs_of (by decide +kernel), (by decide +kernel)⟩, at_ (by decide +kernel) ⟨(by decide +kernel), accs_of (by decide +kernel), trivial⟩⟩

/-- An exchange of ATOM and of ATOMS in both forms with the old value, ATOMT on a tiled and on a Steppe region. -/
theorem wit_AtomicResults :
    (let f := fr .n32 8 12 0x400 0
     Mem w0 f (if atomRet f then [0, 1, 2] else [1, 2]) .atomic (fun _ _ l => opAtom f l ++ [opA f l .n64])
      (fun s c => c.lanes.map (atomAcc s c f)) (fun _ c => c.rd.members &&& c.act = 0)) ∧
    (let f := fr .n32 8 12 0 0
     Mem w0 f (if atomRet f then [0, 1, 2] else [1, 2]) .atomic (fun _ _ l => opAtom f l ++ [opA f l .n32])
      (fun _ c => c.lanes.map (atomsAcc c f)) (fun _ c => c.rd.members &&& c.act = 0)) ∧
    (let f := fi .n32 8 12 0 0
     Mem w0 f (if atomRet f then [0, 1, 2] else [1, 2]) .atomic (fun _ _ l => opAtom f l ++ [opA f l .n32])
      (fun _ c => c.lanes.map (atomsAcc c f)) (fun _ c => c.rd.members &&& c.act = 0)) ∧
    (let ask (f : Full) (on : Bool) : Prop :=
       Mem w0 f (if atomRet f then [0, 1, 2] else [1, 2]) .atomic (fun s w l => opAtom f l ++ [opCoords s w f l])
        (fun s c => c.lanes.map (coordAcc s c f .atomic (fun k => k == 1 || (k == 2 && !atomRet f))
          (atomCode f == 6 || atomCode f == 7)))
        (fun s c => c.rd.members &&& c.act = 0 ∧ coordFmt f s c.rd c.act = none ∧ onSteppe s c f = on)
     ask (fr .f32 8 14 6 0) false ∧ ask (fr .f32 8 14 7 0) true) :=
  ⟨at_ (by decide +kernel) ⟨(by decide +kernel), accs_of (by decide +kernel), (by decide +kernel)⟩, at_ (by decide +kernel) ⟨(by decide +kernel), accs_of (by decide +kernel), (by decide +kernel)⟩, at_ (by decide +kernel) ⟨(by decide +kernel), accs_of (by decide +kernel), (by decide +kernel)⟩, at_ (by decide +kernel) ⟨(by decide +kernel), accs_of (by decide +kernel), (by decide +kernel)⟩,
   at_ (by decide +kernel) ⟨(by decide +kernel), accs_of (by decide +kernel), (by decide +kernel)⟩⟩

theorem wit_LapResults :
    (let f := fr .f32 8 14 7 0
     Mem w0 f [0] .read (fun s w l => [.dst l f.dn (f.ety.regs + 1), opCoords s w f l])
      (fun s c => c.lanes.map (coordAcc s c f .read (· == 2) false))
      (fun s c => declares (·.ust) s c.rd c.hm = true ∧ coordFmt f s c.rd c.act = none)) ∧
    (let f := fi .s32 0 12 0 0
     At (rich w0) w0 f.grd (fun _ _ l => [opA f l .n64] ++ (if f.imm? then [] else [.src l 2 f.bn 1 f.femB (some .s32)]))
      (fun s c => memHold [] s c.rd c.act = false)) :=
  ⟨at_ (by decide +kernel) ⟨(by decide +kernel), accs_of (by decide +kernel), (by decide +kernel)⟩, at_ (by decide +kernel) (by decide +kernel)⟩

/-! ## Memory words of members -/

def itx : Issue := group (.tx 1)
/-- The wave as a member of its open transaction, and the machine about to issue for it. -/
def member (w : Wave) : Wave := openTx w 1 false 64 5
def richTx (w : Wave) : State := withRam (mk w itx)
/-- The same with a full register log, a full store buffer, a full read set. -/
def logFullOf (w : Wave) : Wave := { w with kettle := { w.kettle with log := List.replicate 512 ⟨300, .f32, [0], 1⟩ } }
def held : StPart :=
  { lane := 0, path := 2, loc := .bytes [0] .plain, size := 1, ety := .n32, op := .store, val := 0, ret := none, want := .write, va := 0,
    shared := false, done := false }
def buffered (w : Wave) : Wave := { w with kettle := { w.kettle with buf := List.replicate 256 held } }
def readFull (w : Wave) : Wave := { w with kettle := { w.kettle with reads := List.replicate 512 ⟨2 ^ 90, 1, 0, []⟩ } }
def wm : Wave := member w0

/-- The hypotheses of a memory word that the thread of `w` issues as a member. -/
def AtTx (w : Wave) (grd : Guard) (ops : State → Wave → Nat → List Opnd) (ok : State → Ctx → Prop) : Prop :=
  Issues (richTx w) itx w 1 ∧ (∀ n, standsBy (richTx w) n w.uid = false) ∧ OpsReady grd (ops (richTx w)) w 1 ∧
    activeLanes grd w 1 ≠ 0 ∧
    ok (counted (richTx w) w.uid (hitsOf (ops (richTx w)) w (activeLanes grd w 1))) (soloCtx (richTx w) itx grd w 1)
theorem at_tx {w : Wave} {grd : Guard} {ops : State → Wave → Nat → List Opnd} {ok : State → Ctx → Prop} (hu : w.uid = 3)
    (hm : (1 : Mask) &&& w.members = 1) (hr : (w.retired, w.wsoft) = (false, []))
    (h : readyB grd (ops (richTx w)) w 1 = true) (h0 : activeLanes grd w 1 ≠ 0)
    (h' : ok (counted (richTx w) w.uid (hitsOf (ops (richTx w)) w (activeLanes grd w 1))) (soloCtx (richTx w) itx grd w 1))
    (hf : ∀ t ∈ w.threads, ∀ n ∈ t.soft, n < 16384 := by decide) : AtTx w grd ops ok := by
  have I := issues_of w itx hu rfl rfl (fun _ => hm) hr hf
  have quiet : ∀ n, standsBy (richTx w) n w.uid = false := by
    intro n
    have h : ((richTx w).quad n).second = none := by
      by_cases h : 0 = n <;> simp [richTx, withRam, mk, State.quad, fget, h, Quad.reset]
    rw [standsBy, h]
  exact ⟨⟨I.cur, I.parts, I.first, I.late, I.whole, I.member, I.found, I.live, I.lanes, I.steady, I.firm, I.sound⟩, quiet,
    ready_of h, h0, h'⟩

/-- LD by a member: with room, with a full read set, with a full register log. -/
theorem wit_LoadResults_member : let f := fi .f32 9 12 0 0
    let accs (s : State) (c : Ctx) : List Acc := c.lanes.map (fun l => genAcc s c f .read (ldAddr f c.rd l) l)
    let ready (s : State) (c : Ctx) : Prop := memHold [0] s c.rd c.act = false ∧
      AccsReady c [.read] (accs s c) (splitHalves s c .read (accs s c)) ∧ (isQ f = true → c.hm = true)
    AtTx wm f.grd (fun _ _ l => ldOps f true l)
      (fun s c => ready s c ∧ (recordReads s c (accs s c)).2 = true ∧ (loadLog f (accs s c) s c).2 = true) ∧
    AtTx (readFull wm) f.grd (fun _ _ l => ldOps f true l) (fun s c => ready s c ∧ (recordReads s c (accs s c)).2 = false) ∧
    AtTx (logFullOf wm) f.grd (fun _ _ l => ldOps f true l)
      (fun s c => ready s c ∧ (recordReads s c (accs s c)).2 = true ∧ (loadLog f (accs s c) s c).2 = false) :=
  ⟨at_tx rfl (by decide) rfl (by decide +kernel) (by decide)
     ⟨⟨(by decide +kernel), accs_of (by decide +kernel), (by decide +kernel)⟩, (by decide +kernel), (by decide +kernel)⟩,
   at_tx rfl (by decide) rfl (by decide +kernel) (by decide)
     ⟨⟨(by decide +kernel), accs_of (by decide +kernel), (by decide +kernel)⟩, (by decide +kernel)⟩,
   at_tx rfl (by decide) rfl (by decide +kernel) (by decide)
     ⟨⟨(by decide +kernel), accs_of (by decide +kernel), (by decide +kernel)⟩, (by decide +kernel), (by decide +kernel)⟩⟩

/-- ST by a member: with room and with a full store buffer. -/
theorem wit_StoreResults_member : let f := fi .f32 9 12 0 0
    let accs (s : State) (c : Ctx) : List Acc := c.lanes.map (fun l => genAcc s c f .write (ldAddr f c.rd l) l)
    let ready (s : State) (c : Ctx) : Prop := memHold [1, 2] s c.rd c.act = false ∧
      AccsReady c [.write] (accs s c) (splitHalves s c .write (accs s c)) ∧ (isQ f = true → c.hm = true)
    AtTx wm f.grd (fun _ _ l => ldOps f false l) (fun s c => ready s c ∧ c.rd.kettle.buf.length + (accs s c).length ≤ 256) ∧
    AtTx (buffered wm) f.grd (fun _ _ l => ldOps f false l)
      (fun s c => ready s c ∧ c.rd.kettle.buf.length + (accs s c).length > 256) :=
  ⟨at_tx rfl (by decide) rfl (by decide +kernel) (by decide)
     ⟨⟨(by decide +kernel), accs_of (by decide +kernel), (by decide +kernel)⟩, (by decide +kernel)⟩,
   at_tx rfl (by decide) rfl (by decide +kernel) (by decide)
     ⟨⟨(by decide +kernel), accs_of (by decide +kernel), (by decide +kernel)⟩, (by decide +kernel)⟩⟩

/-- A relaxed ATOM with the old value by a member: with room, with each structure full. -/
theorem wit_AtomicResults_member : let f := fr .n32 8 12 0x400 0
    let accs (s : State) (c : Ctx) : List Acc := c.lanes.map (atomAcc s c f)
    let inTx (s : State) (c : Ctx) : Prop :=
      (memHold [0, 1, 2] s c.rd c.act = false ∧ AccsReady c [.atomic] (accs s c) []) ∧ (atomAcq f || atomRel f) = false ∧
      memberHold s c.rd c.act = false ∧ memberAsleep accs s c.rd c.act = false
    let sound (s : State) (c : Ctx) : Prop :=
      (recordReads s c (accs s c)).2 = true ∧ ∀ a ∈ accs s c, (coreRead (memberReads (accs s c) s c) c.rd.core a.loc).2 = false
    let room (s : State) (c : Ctx) : Prop := c.rd.kettle.buf.length + (accs s c).length ≤ 256
    let ask (w : Wave) (ok : State → Ctx → Prop) : Prop :=
      AtTx w f.grd (fun _ _ l => opAtom f l ++ [opA f l .n64]) (fun s c => inTx s c ∧ ok s c)
    atomRet f = true ∧
    ask wm (fun s c => sound s c ∧ room s c ∧ (retLog f (atomCode f) (atomArg f c) (accs s c) s c).2 = true) ∧
    ask (readFull wm) (fun s c => (recordReads s c (accs s c)).2 = false) ∧
    ask (buffered wm) (fun s c => sound s c ∧ ¬ room s c) ∧
    ask (logFullOf wm) (fun s c => sound s c ∧ room s c ∧ (retLog f (atomCode f) (atomArg f c) (accs s c) s c).2 = false) :=
  ⟨by decide,
   at_tx rfl (by decide) rfl (by decide +kernel) (by decide)
     ⟨⟨⟨(by decide +kernel), accs_of (by decide +kernel)⟩, (by decide +kernel)⟩, (by decide +kernel)⟩,
   at_tx rfl (by decide) rfl (by decide +kernel) (by decide)
     ⟨⟨⟨(by decide +kernel), accs_of (by decide +kernel)⟩, (by decide +kernel)⟩, (by decide +kernel)⟩,
   at_tx rfl (by decide) rfl (by decide +kernel) (by decide)
     ⟨⟨⟨(by decide +kernel), accs_of (by decide +kernel)⟩, (by decide +kernel)⟩, (by decide +kernel)⟩,
   at_tx rfl (by decide) rfl (by decide +kernel) (by decide)
     ⟨⟨⟨(by decide +kernel), accs_of (by decide +kernel)⟩, (by decide +kernel)⟩, (by decide +kernel)⟩⟩

/-- A word that works lane by lane, by a member: the register log has room, or is full. -/
theorem wit_IntegerResults_member : let f := fr .s32 9 12 13 0
    AtTx wm f.grd (fun _ => shapeBin f) (fun s c => (logRegs s c.u [9]).2 = true ∧ c.act ≠ 0) ∧
    AtTx (logFullOf wm) f.grd (fun _ => shapeBin f) (fun s c => (logRegs s c.u [9]).2 = false ∧ c.act ≠ 0) :=
  ⟨at_tx rfl (by decide) rfl (by decide +kernel) (by decide) (by decide +kernel),
   at_tx rfl (by decide) rfl (by decide +kernel) (by decide) (by decide +kernel)⟩

/-! ## Causes -/

/-- The handler's wave in handler mode issues alone. -/
theorem alone_wh : Alone (mk wh (group (.handler 0))) (group (.handler 0)) wh 1 := alone_of _ _ rfl rfl rfl rfl rfl
theorem issues_wt : Issues (mk wt (group (.tx 1))) (group (.tx 1)) wt 1 :=
  issues_of _ _ rfl rfl rfl (fun _ => by decide) rfl
theorem single_mk (w : Wave) (i : Issue) (n u : Nat) : standsBy (mk w i) n u = false := by
  have h : ((mk w i).quad n).second = none := by
    by_cases h : 0 = n <;> simp [mk, State.quad, fget, h, Quad.reset]
  rw [standsBy, h]
theorem calm_wv : Calm (mk wv iss) wv 1 where
  idle := rfl
  none := rfl
  quiet := rfl
  single := fun n => single_mk _ _ n _
  out := by decide
  custom := by decide +kernel

theorem wit_BreakEntry : Alone (mk wv iss) iss wv 1 ∧ OpsReady (fi .s32 0 0 7 0).grd shapeNone wv 1 ∧ Calm (mk wv iss) wv 1 ∧
    activeLanes (fi .s32 0 0 7 0).grd wv 1 ≠ 0 ∧ Alone (mk wh (group (.handler 0))) (group (.handler 0)) wh 1 ∧
    wh.handling = true ∧ (1 : Mask) &&& ~~~ wh.subw = 0 ∧ (encode (.brk (fi .s32 0 0 7 0))).isSome = true ∧
    ∀ n, standsBy (mk wh (group (.handler 0))) n wh.uid = false :=
  ⟨alone_of _ _ rfl rfl rfl rfl rfl, ready_of (by decide), calm_wv, by decide, alone_wh, rfl, by decide, by decide,
   fun n => single_mk _ _ n _⟩
theorem wit_IllegalEntry : Alone (mk wv iss) iss wv 1 ∧ Calm (mk wv iss) wv 1 ∧
    Issues (mk wt (group (.tx 1))) (group (.tx 1)) wt 1 ∧ wt.handling = false ∧ wt.members &&& 1 ≠ 0 ∧
    Alone (mk wh (group (.handler 0))) (group (.handler 0)) wh 1 ∧ (1 : Mask) &&& ~~~ wh.subw = 0 ∧
    ∀ w i n, standsBy (mk w i) n w.uid = false :=
  ⟨alone_of _ _ rfl rfl rfl rfl rfl, calm_wv, issues_wt, rfl, by decide, alone_wh, by decide, fun w i n => single_mk w i n _⟩
/-- HGET in normal issue, and APSET in a context that is not privileged. -/
theorem wit_WhereLegal : ∃ m, semOf (.hget (fr .n32 8 0 0 0)) = some m ∧ Alone (mk wv iss) iss wv 1 ∧ Calm (mk wv iss) wv 1 ∧
    m.legal (mk wv iss) wv iss.hm = false ∧ (∃ p ∈ shares (mk wv iss) iss, m.legal (mk wv iss) p.rd iss.hm = false) ∧
    ctxPriv (mk wv iss) (waveCtx (mk wv iss) wv) = false ∧ ctxPriv (rich wr) (waveCtx (rich wr) wr) = true :=
  ⟨_, rfl, alone_of _ _ rfl rfl rfl rfl rfl, calm_wv, by decide, ⟨_, List.mem_singleton.mpr rfl, by decide⟩,
   by decide +kernel, by decide +kernel⟩

/-- The premises that the entries of the operands' causes share. -/
def sound (m : Sem) (w : Wave) : Bool :=
  m.legal (mk w iss) w false && !m.hold (mk w iss) w 1 && (m.tile (mk w iss) w 1).isNone &&
    (waitsFor w (liveOps (m.ops (mk w iss) w 0) (w.thread 0))).isEmpty
/-- V20 has the tag F32, V21 is empty for no producer, V22 holds a soft error. -/
def wb : Wave :=
  { wv.mapThread 0 (fun t => { t with pend := [(21, 0)], soft := [22] }) with tags := [(20, .f32)] }
theorem calm_wb : Calm (mk wb iss) wb 1 where
  idle := rfl
  none := rfl
  quiet := rfl
  single := fun n => single_mk _ _ n _
  out := by decide
  custom := by decide +kernel
/-- REGBOUND at the first register beyond the allocation, and a soft error. -/
theorem wit_OperandCauses : Calm (mk wb iss) wb 1 ∧
    (let m := (semOf (.iadd (fr .s32 9 13 256 0))).get rfl
     sound m wb = true ∧ m.formats (mk wb iss) wb 1 1 = [] ∧ m.valueIllegal (mk wb iss) (soloCtx (mk wb iss) iss m.grd wb 1) = [] ∧
     (operandTrap wb 0 (liveOps (m.ops (mk wb iss) wb 0) (wb.thread 0))).isSome = true) ∧
    (let m := (semOf (.iadd (fr .s32 9 13 22 0))).get rfl
     sound m wb = true ∧ m.formats (mk wb iss) wb 1 1 = [] ∧ m.valueIllegal (mk wb iss) (soloCtx (mk wb iss) iss m.grd wb 1) = [] ∧
     (operandTrap wb 0 (liveOps (m.ops (mk wb iss) wb 0) (wb.thread 0))).isSome = true) :=
  ⟨calm_wb, by decide +kernel, by decide +kernel⟩
theorem wit_FormatEntry : Calm (mk wb iss) wb 1 ∧
    (let m := (semOf (.iadd (fr .s32 9 20 12 0))).get rfl
     sound m wb = true ∧ m.valueIllegal (mk wb iss) (soloCtx (mk wb iss) iss m.grd wb 1) = [] ∧
     (firstFormat (m.formats (mk wb iss) wb 1 1)).isSome = true ∧
     operandTrap wb 0 (liveOps (m.ops (mk wb iss) wb 0) (wb.thread 0)) = none) :=
  ⟨calm_wb, by decide +kernel⟩
theorem wit_NoActiveLane : let f := { fr .s32 9 13 12 0 with grd := ⟨true, 0⟩ }
    let m := (semOf (.iadd { fr .s32 9 13 12 0 with grd := ⟨false, 1⟩ })).get rfl
    activeLanes m.grd wv 1 = 0 ∧ m.legal (mk wv iss) wv false = true ∧ m.hold (mk wv iss) wv 0 = false ∧
    m.formats (mk wv iss) wv 1 0 = [] ∧ (Instr.iadd f).wellFormed = false := by decide +kernel
/-- A register owed by a producer that is no memory operation. -/
def wp : Wave :=
  { wv.mapThread 0 (fun t => { t with pend := [(12, 4)] }) with
    flights := [{ Flight.start 4 0 .f32 with fpx := true, jobs := [Job.known 0 12 .f32 [0] 0] }] }
/-- The same owed by a load. -/
def wl : Wave := { wp with flights := wp.flights.map (fun f => { f with mem := true }) }
theorem wit_RegistersAwaited : Alone (mk wp iss) iss wp 1 ∧ (let m := (semOf (.iadd (fr .s32 9 12 13 0))).get rfl
    let need := waitsFor wp (liveOps (m.ops (mk wp iss) wp 0) (wp.thread 0))
    m.legal (mk wp iss) wp false = true ∧ m.hold (mk wp iss) wp 1 = false ∧ activeLanes m.grd wp 1 = 1 ∧ need ≠ [] ∧
    need.all (fun x => !wp.memProducer x.1 x.2) = true ∧ m.tile (mk wp iss) wp 1 = none) :=
  ⟨alone_of _ _ rfl rfl rfl rfl rfl, by decide +kernel⟩
theorem wit_ThreadsWait : Alone (mk wl iss) iss wl 1 ∧ (let m := (semOf (.iadd (fr .s32 9 12 13 0))).get rfl
    let need := waitsFor wl (liveOps (m.ops (mk wl iss) wl 0) (wl.thread 0))
    activeLanes m.grd wl 1 = 1 ∧ m.legal (mk wl iss) wl false = true ∧ m.hold (mk wl iss) wl 1 = false ∧ need ≠ [] ∧
    need.all (fun x => wl.memProducer x.1 x.2) = true) :=
  ⟨alone_of _ _ rfl rfl rfl rfl rfl, by decide +kernel⟩
/-- XGET of a member. -/
theorem wit_ForbiddenAborts : Issues (mk wt (group (.tx 1))) (group (.tx 1)) wt 1 ∧
    (let m := (semOf (.xget (fi .s32 0 0 1 0))).get rfl
     activeLanes m.grd wt 1 ≠ 0 ∧ m.forbid wt = true ∧ m.legal (mk wt (group (.tx 1))) wt false = true ∧
     m.hold (mk wt (group (.tx 1))) wt 1 = false ∧ m.tile (mk wt (group (.tx 1))) wt 1 = none ∧
     readyB m.grd (m.ops (mk wt (group (.tx 1)))) wt 1 = true ∧ m.fmt (mk wt (group (.tx 1))) wt 1 = none) ∧
    ∀ n, standsBy (mk wt (group (.tx 1))) n wt.uid = false :=
  ⟨issues_wt, by decide +kernel, fun n => single_mk _ _ n _⟩
def wd : Wave := { wv with handler := 8 }
theorem wit_DefaultHandlerEndsTeam : Alone (mk wd iss) iss wd 1 ∧ wd.handling = false ∧ wd.parkq = [] ∧ wd.preempt = false ∧
    wd.members &&& 1 = 0 ∧ wd.handler = defaultHandler (mk wd iss) wd ∧ ((mk wd iss).team? wd.team).isSome = true ∧
    (∀ l ∈ lanesOf 1, l < wd.threads.length) ∧ ∀ n, standsBy (mk wd iss) n wd.uid = false :=
  ⟨alone_of _ _ rfl rfl rfl rfl rfl, rfl, rfl, rfl, by decide, by decide +kernel, by decide +kernel, by decide,
   fun n => single_mk _ _ n _⟩

/-! ## Transactions, long-latency words, tiles, pairs -/

/-- TRY with no transaction open and with one open, COMMIT in handler mode, TSTAT. -/
theorem wit_TransactionResults : Alone (mk wv iss) iss wv 1 ∧ declares (·.utry) (mk wv iss) wv false = true ∧
    wv.kettle.isOpen = false ∧ wt.kettle.isOpen = true ∧
    (ctx wh (group (.handler 0)) (fr .s32 0 0 0 0)).hm = true ∧ readyB .always (fun _ l => [.dst l 9 1]) wv 1 = true :=
  ⟨alone_of _ _ rfl rfl rfl rfl rfl, by decide +kernel⟩
/-- A member at depths 1, 2 and 7. -/
def wn (n : Nat) : Wave := wt.mapThread 0 (fun t => { t with depth := n })
theorem wit_MemberResults : Issues (mk (wn 7) (group (.tx 1))) (group (.tx 1)) (wn 7) 1 ∧
    Issues (mk (wn 2) (group (.tx 1))) (group (.tx 1)) (wn 2) 1 ∧ (wn 7).kettle.isOpen = true ∧
    activeLanes (fi .s32 0 0 7 0).grd (wn 7) 1 ≠ 0 ∧ declares (·.utry) (mk (wn 7) (group (.tx 1))) (wn 7) false = true ∧
    (∀ l ∈ lanesOf 1, ((wn 7).thread l).depth = 7) ∧ (∀ l ∈ lanesOf 1, ((wn 1).thread l).depth ≤ 1) ∧
    (∀ l ∈ lanesOf 1, ((wn 2).thread l).depth ≠ 7 ∧ ((wn 2).thread l).depth > 1) ∧
    ∀ k n, standsBy (mk (wn k) (group (.tx 1))) n (wn k).uid = false :=
  ⟨issues_of _ _ rfl rfl rfl (fun _ => by decide) rfl, issues_of _ _ rfl rfl rfl (fun _ => by decide) rfl, rfl, by decide,
   by decide +kernel, by decide +kernel, by decide +kernel, by decide +kernel, fun k n => single_mk _ _ n _⟩

/-- FDIV, CRCP, FSUMV, and LXRD with a segment still to sum. -/
theorem wit_LongLatencyResults : Meets wv iss (fr .f32 8 12 16 0).grd (shapeBin (fr .f32 8 12 16 0)) ∧
    Meets wv iss (fr .c64 8 12 0 0).grd (fun _ l => [opD (fr .c64 8 12 0 0) l, opA (fr .c64 8 12 0 0) l .c64]) ∧
    Meets wv iss (fr .f32 8 12 0 0).grd (shapeUn (fr .f32 8 12 0 0)) ∧
    (let f := fr .f32 8 12 0 0
     let c := ctx wv iss f
     readyB f.grd (fun w l => [opD f l] ++ ((lanesOf (curMask (mk wv iss) w.uid)).filter (fun p =>
       p / segSize f w == l / segSize f w && f.grd.holds (w.thread p))).map (fun p => { opA f p f.ety with part := true })) wv 1 = true ∧
     ∃ l ∈ c.lanes, (if c.rd.resumes then c.rd.progIndex else 0) ≤ l / segSize f c.rd) :=
  ⟨meets _ _ wv (by decide) (by decide) (by decide), meets _ _ wv (by decide) (by decide) (by decide),
   meets _ _ wv (by decide) (by decide) (by decide), by decide +kernel, 0, by decide +kernel, by decide +kernel⟩

theorem wit_PairResults : Alone (mk wv iss) iss wv 1 ∧
    readyB .always (fun _ l => (HalfOps.of ⟨.iadd, ⟨.s32, 0, 4, 6, 1⟩⟩ 0).ops l ++ (HalfOps.of mate 1).ops l) wv 1 = true :=
  ⟨alone_of _ _ rfl rfl rfl rfl rfl, by decide +kernel⟩

/-! ## Tiles and matrix units -/

/-- Tiles of 1 by 8 elements of F32: 0 READY, 1 READY and compressed, 2 READY in the accumulator share, 3 FILLING. -/
def tileDesc : DWord := 0x8400007000010000
def tileZip : DWord := 0xA400007000110001
def tileAcc : DWord := 0x9400007000010000
/-- With the block at offset 1024 of the share, M = 1, N = 8, K = 1, F32, accumulator 2; the team holds the unit. -/
def tiled (w : Wave) : State :=
  let s := rich w
  let s := { s with mem := s.mem ++ [(0x4000000000400, 0xC0), (0x4000000000401, 1), (0x4000000000403, 0x44), (0x400000000040C, 2)] }
  { s with
    cores := [(0, { Core.reset with
      part := 192, tiles := [(0, tileDesc), (1, tileZip), (2, tileAcc), (3, 0x4400007000010000)] })]
    quads := [(0, { Quad.reset with active := [3], mx := { Quad.reset.mx with holder := some (2, 1) } })] }

/-- `at_` in the state `tiled w`. -/
abbrev OnTiles (w : Wave) (f : Full) (ops : State → Wave → Nat → List Opnd) (ok : State → Ctx → Prop) : Prop :=
  At (tiled w) w f.grd ops ok
theorem onTiles {w f ops ok} (h : atB (tiled w) w f.grd ops = true)
    (h' : ok (counted (tiled w) w.uid (hitsOf (ops (tiled w)) w (activeLanes f.grd w 1))) (soloCtx (tiled w) iss f.grd w 1))
    (hf : ∀ t ∈ w.threads, ∀ n ∈ t.soft, n < 16384 := by decide) : OnTiles w f ops ok := at_ h h' hf

/-- V12 holds the fields of a tile for TDEF. -/
def wtd : Wave := regs wr [(12, 2 ^ 16), (13, 7 * 2 ^ 4)]
theorem wit_TileResults :
    (let f := fr .f32 0 12 0 0
     OnTiles wtd f (fun s w l => [opWave f (opA f · .n64) s w l]) (fun s c => tileWait 0 true true s c.rd c.act = none ∧
      (namedTile s c.rd 0 true).isSome = true ∧
      c.team.any (fun t => tdefOk t (BitVec.ofNat 64 ((c.rd.thread 0).val f.an 2)) f.ety) = true)) ∧
    (let f := fr .s32 8 1 0 0
     OnTiles wr f (fun _ _ l => [.dst l f.dn 2]) (fun s c => (namedTile s c.rd (f.an % 256) true).isSome = true)) ∧
    (let f := fr .s32 0 0 0 0
     OnTiles wr f (fun _ => shapeNone) (fun s c => tileWait 0 false false s c.rd c.act = none ∧
      tileWait 0 false true s c.rd c.act = none ∧ tileBusy 0 s c.rd c.act = false ∧
      (namedTile s c.rd 0 false).isSome = true ∧ c.team = some tm)) ∧
    (let f := fr .f32 0 12 16 0
     OnTiles w0 f (fun _ _ l => [opA f l f.ety, opIdx f l]) (fun s c => tileWait 0 false true s c.rd c.act = none ∧
      tileBusy 0 s c.rd c.act = false ∧ namedTile s c.rd 0 false = some tileDesc ∧ tCmp tileDesc = false ∧ c.team = some tm ∧
      ∀ l ∈ c.lanes, ((c.rd.thread l).reg f.bn).toNat * regBytes f + regBytes f ≤ tLen tileDesc)) :=
  ⟨onTiles (by decide +kernel) (by decide +kernel), onTiles (by decide +kernel) (by decide +kernel), onTiles (by decide +kernel) (by decide +kernel), onTiles (by decide +kernel) (by decide +kernel)⟩

/-- TRD of a plain and of a compressed tile, TLD and TST from a pitched place. -/
theorem wit_TileTransfers :
    (let trd (f : Full) (e : DWord) (cmp : Bool) : Prop :=
       OnTiles w0 f (fun _ _ l => [opD f l, opIdx f l]) (fun s c => tileWait f.an false false s c.rd c.act = none ∧
        memHold [0] s c.rd c.act = false ∧ tileFormat f.an f.ety s c.rd c.act = none ∧ c.team = some tm ∧
        tileBusy f.an s c.rd c.act = false ∧ namedTile s c.rd f.an false = some e ∧ tCmp e = cmp ∧
        (cmp = true → (tileImage s c.rd.core tm e).isSome = true) ∧
        ∀ l ∈ c.lanes, ((c.rd.thread l).reg f.bn).toNat * regBytes f + regBytes f ≤ tLen e)
     trd (fr .f32 8 0 16 0) tileDesc false ∧ trd (fr .f32 8 1 16 0) tileZip true) ∧
    (let f := fr .s32 0 12 20 0x80
     OnTiles w0 f (fun s w l => xferOps f s w l) (fun s c => tileWait 0 false true s c.rd c.act = none ∧
      memHold [3] s c.rd c.act = false ∧ fetchFull s c.rd = false ∧ c.team = some tm ∧
      namedTile s c.rd 0 false = some tileDesc ∧ xferTrap f s c tileDesc (xferOf f true 0 s c tileDesc) = none ∧
      xferWatch c (xferOf f true 0 s c tileDesc) = [])) ∧
    (let f := fr .s32 0 12 20 0x80
     OnTiles w0 f (fun s w l => xferOps f s w l) (fun s c => tileWait 0 false false s c.rd c.act = none ∧
      memHold [1, 2] s c.rd c.act = false ∧ tileBusy 0 s c.rd c.act = false ∧ tstFormat f s c.rd c.act = none ∧
      c.team = some tm ∧ namedTile s c.rd 0 false = some tileDesc ∧ (tileImage s c.rd.core tm tileDesc).isSome = true ∧
      xferTrap f s c tileDesc (xferOf f false 0 s c tileDesc) = none ∧
      xferWatch c (xferOf f false 0 s c tileDesc) = [])) :=
  ⟨⟨onTiles (by decide +kernel) (by decide +kernel), onTiles (by decide +kernel) (by decide +kernel)⟩, onTiles (by decide +kernel) (by decide +kernel), onTiles (by decide +kernel) (by decide +kernel)⟩

theorem wit_ThreadsWaitTile : let m := (semOf (.twait (fr .s32 3 0 0 0))).get rfl
    Alone (tiled wr) iss wr 1 ∧ activeLanes m.grd wr 1 = 1 ∧ m.legal (tiled wr) wr false = true ∧
    m.hold (tiled wr) wr 1 = false ∧ m.tile (tiled wr) wr 1 = some (.tile 3) ∧
    waitsFor wr (liveOps (m.ops (tiled wr) wr 0) (wr.thread 0)) = [] :=
  ⟨alone_in _ _ (by decide +kernel), (by decide +kernel)⟩

/-- MXRSV, MXREL by the holder, both forms of MXGO, MXPROM, MXSTAT. -/
theorem wit_MatrixResults :
    (let f := fr .s32 0 0 0 0
     OnTiles wr f (fun _ => shapeNone) (fun s c => c.qn = c.rd.qn ∧ (s.quad c.rd.qn).mx.heldBy c.rd.team = true ∧
      ∀ x ∈ (s.quad c.rd.qn).mx.ops, x.team ≠ c.rd.team)) ∧
    (let f := fi .s32 0 0 8 0
     OnTiles wr f (fun _ => shapeNone) (fun s c => declares (·.umx) s c.rd c.hm = true ∧ c.team = some tm ∧
      (mxPlan f s c.rd c.act matches .go 1024 ..) = true)) ∧
    (let f := fr .s32 0 12 0 0
     OnTiles (regs wr [(12, 1024)]) f (fun s w l => [opWave f (opA f · .n32) s w l]) (fun s c => declares (·.umx) s c.rd c.hm = true ∧
      c.team = some tm ∧ (mxPlan f s c.rd c.act matches .go 1024 ..) = true)) ∧
    (let f := fr .f32 8 2 16 0
     OnTiles wr f (fun _ _ l => [.dst l f.dn (promCount f * f.ety.regs), opIdx f l]) (fun s c =>
      tileWait 2 false false s c.rd c.act = none ∧ tileBusy 2 s c.rd c.act = false ∧
      tileFormat 2 f.ety s c.rd c.act = none ∧ c.team = some tm ∧ namedTile s c.rd 2 false = some tileAcc ∧
      (tileImageWith s c.rd.core tm tileAcc (lostCells s c.rd.core tm tileAcc 0)).isSome = true ∧
      ∀ l ∈ c.lanes, (promOff f tileAcc (promCount f) (c.rd.thread l)).isSome = true)) ∧
    (let f := fr .s32 8 0 0 0
     OnTiles wr f (fun _ _ l => [.dst l f.dn 1]) (fun _ _ => True)) :=
  ⟨onTiles (by decide +kernel) (by decide +kernel), onTiles (by decide +kernel) (by decide +kernel), onTiles (by decide +kernel) (by decide +kernel), onTiles (by decide +kernel) (by decide +kernel), onTiles (by decide +kernel) trivial⟩

/-! ## Regions, waits, cooperation -/

/-- `at_` in the state `rich w`. -/
abbrev OnRam (w : Wave) (f : Full) (ops : State → Wave → Nat → List Opnd) (ok : State → Ctx → Prop) : Prop := At (rich w) w f.grd ops ok

theorem wit_RegionResults :
    (let f := fr .n64 8 6 0 0
     OnRam wr f (fun _ _ l => [.dst l f.dn 2]) (fun s c => memHold [] s c.rd c.act = false ∧
      regqDesc s c.ctxNo (c.rd.wreg (f.an % 64)) = some dTil)) ∧
    (let f := fr .s32 1 6 12 0
     OnRam wr f (fun s w l => [opWave f (.src · 2 f.bn 1 f.femB (some .n32)) s w l]) (fun s c => (memHold [] s c.rd c.act = false ∧
      handleDesc s c.ctxNo (c.rd.wreg (f.an % 64)) = some dTil) ∧ hasRight (hRights (c.rd.wreg (f.an % 64))) .write = true ∧
      hasRight (dRights dTil) .write = true ∧
      descAddr s (ctxComp s c.ctxNo) (hIdx (c.rd.wreg (f.an % 64))) + 64 ≤ deviceBytes)) :=
  ⟨at_ (by decide +kernel) (by decide +kernel), at_ (by decide +kernel) (by decide +kernel)⟩

/-- Each wait at the value that just meets its condition and at the next one, which does not: WAITC on LDQ = 1,
WAITQ on SEQ = 5, WAITL on LAP = 0, WAITM on a word of 0. -/
theorem wit_WaitResults :
    (let w1 := { (wr.setW 5 1).setW 4 0 with cnt := { wr.cnt with ldq := 1 } }
     w1.cnt.get 0 ≤ ((ctx w1 iss (fr .s32 0 5 0 0)).rd.wreg 5).toNat ∧
     ((ctx w1 iss (fr .s32 0 4 0 0)).rd.wreg 4).toNat < w1.cnt.get 0) ∧
    engOpen (rich wr) 1 (soloCtx (rich wr) iss ⟨false, 0⟩ wr 1).ctxNo = true ∧ (wr.wpair 12).toNat ≤ engSeq (rich wr) 1 ∧
    engSeq (rich wr) 1 < ((wr.setW 12 6).wpair 12).toNat ∧
    (let c := soloCtx (rich wr) iss ⟨false, 0⟩ wr 1
     declares (·.ust) (rich wr) c.rd c.hm = true ∧ hasRight (hRights (c.rd.wreg 7)) .read = true ∧
     handleDesc (rich wr) c.ctxNo (c.rd.wreg 7) = some dStp ∧ dClass dStp = 2 ∧
     lapReached (rich wr) (ctxComp (rich wr) c.ctxNo) 2 0 = true ∧
     lapReached (rich wr) (ctxComp (rich wr) c.ctxNo) 2 1 = false) ∧
    (let s := rich wr
     let c := soloCtx s iss ⟨false, 0⟩ wr 1
     let a := 0x2000000000000040
     memHold [] s c.rd c.act = false ∧ (match waitmChk s c.who a with
       | .ok l => waitmRead s c.rd a l == some 0 && condHolds 0 0 0 && !condHolds 0 0 1
       | _ => false) = true) ∧ Alone (rich wr) iss wr 1 :=
  ⟨(by decide +kernel), (by decide +kernel), (by decide +kernel), (by decide +kernel), (by decide +kernel), (by decide +kernel), alone_in _ _ (by decide +kernel)⟩

/-- BAR at the last wave and with an open barrier of the same count, BARG, FETCHW at the end of the share, CTAIL, CSEQ. -/
theorem wit_CooperationResults :
    (let c := ctx wv iss (fi .s32 0 0 16 0)
     c.hm = false ∧ (mk wv iss).team? c.rd.team = some tm ∧ 16 / 16 % 64 ≤ teamNW tm ∧ (fget Bar.idle tm.bars 0).isOpen = false ∧
     ((wv.setW 3 1023).wreg 3).toNat < 1024) ∧ (ctx wh (group (.handler 0)) (fi .s32 0 0 16 0)).hm = true ∧
    declares (·.pers) (mk wv iss) wv false = true ∧ 4080 % 16 = 0 ∧ 4080 + 16 ≤ tm.spTotal ∧
    readyB ⟨false, 0⟩ (fun w l => [opWave (fr .s32 0 12 0 0) (opA (fr .s32 0 12 0 0) · .n32) (mk wv iss) w l]) wv 1 = true ∧
    (let w := (wr.setW 12 64).setW 10 1
     let c := soloCtx (rich w) iss ⟨false, 0⟩ w 1
     w.cnt.stq = 0 ∧ readsDone (rich w) c.rd (rich w).nextId (fun _ => true) = true ∧ counterFull c.rd [5] = false ∧ (c.rd.wreg 10).toNat < 64 ∧ (c.rd.wpair 12).toNat % 64 = 0 ∧
     (c.rd.wpair 12).toNat < 2 ^ 60 ∧ engOpen (rich w) 1 c.ctxNo = true) ∧
    readyB ⟨false, 0⟩ (fun _ l => [.dst l 8 2]) wr 1 = true ∧ Alone (rich wr) iss wr 1 :=
  ⟨(by decide +kernel), (by decide +kernel), (by decide +kernel), by decide, (by decide +kernel), (by decide +kernel), (by decide +kernel), (by decide +kernel), alone_in _ _ (by decide +kernel)⟩

/-! ## Handler mode and privilege -/

def hi : Issue := group (.handler 0)
def hctx (w : Wave) (f : Full) : Ctx := soloCtx (mk w hi) hi f.grd w 1
/-- A wave in its restore, whose team must take its unit back; another team holds it. -/
def wre : Wave := { wh with entry := 0x2000, restore := true }
def lost : State :=
  { mk wre hi with
    teams := [{ tm with holders := [wre.num] }]
    quads := [(0, { Quad.reset with active := [3], mx := { Quad.reset.mx with holder := some (9, 1) } })] }

/-- RTH that needs no unit and one that waits for its unit; HGET and HSET in both forms; PARK beside another thread. -/
theorem wit_HandlerResults : Alone (mk wh hi) hi wh 1 ∧
    (let c := hctx wh (fr .s32 0 0 0 0)
     c.hm = true ∧ (reacquire (mk wh hi) c.rd).2 = true ∧ (returnNow (reacquire (mk wh hi) c.rd).1 c.u).bad = none) ∧
    (reacquire lost wre).2 = false ∧
    (let c := hctx wh (fi .n64 8 0 2 0)
     selOf (fi .n64 8 0 2 0) = .subw ∧ hiddenIndexOk (mk wh hi) c.rd .subw 0 = true ∧
     ∀ l ∈ c.lanes, hiddenRead (mk wh hi) c.rd l 0 .subw = 1) ∧ readyB ⟨false, 0⟩ (fun _ l => [opD (fi .n64 8 0 2 0) l]) wh 1 = true ∧
    (selOf (fi .n32 0 12 1 0) = .repeat ∧ selPerLane .repeat = false ∧ Sel.repeat.atRestore = false ∧
     readyB ⟨false, 0⟩ (fun w l => [opWave (fi .n32 0 12 1 0) (opA (fi .n32 0 12 1 0) · .n32) (mk wh hi) w l]) wh 1 = true) ∧
    (selOf (fi .n32 0 12 0x10 0) = .lpc ∧ selPerLane .lpc = true ∧ Sel.lpc.atRestore = false) ∧
    (selOf (fi .n64 0 12 0x50 0) = .tent ∧ hiddenIndexOk (mk wre hi) wre .tent 3 = true ∧ wre.restore = true) ∧
    (dropFor (mk wh hi) 3 0 wh.subw).bad = none ∧
    (resumeEntries (mk wh hi) 0 (OpEntry.heldFor 3 wh.subw)).bad = none ∧
    (let w := { wh.setW 2 1 with subw := 3 }
     w.wreg 2 ≠ 0 ∧ w.wreg 2 &&& 0xFFE22000 = 0 ∧ w.subw &&& ~~~ (1 : Mask) ≠ 0) :=
  ⟨alone_wh, (by decide +kernel), (by decide +kernel), (by decide +kernel), (by decide +kernel), (by decide +kernel), (by decide +kernel), (by decide +kernel), (by decide +kernel), (by decide +kernel), (by decide +kernel)⟩
theorem wit_HandlerReturn : Alone (mk wh hi) hi wh 1 ∧ activeLanes ⟨false, 0⟩ wh 1 ≠ 0 ∧ wh.subw &&& ~~~ (wh.retm &&& ~~~ restoredExited wh) = 0 ∧
    wh.parkq = [] ∧ wh.preempt = false ∧ wh.entry.getLsbD 13 = false ∧ wh.cause &&& ~~~ wh.entry = 0 ∧ wh.repeatB = 0 ∧
    wh.alive ≠ 0 ∧ ∀ e ∈ ((mk wh hi).quad wh.qn).oplog, e.wave ≠ wh.uid :=
  ⟨alone_wh, (by decide +kernel)⟩

/-- The context is privileged; CINV of a page, XLINV of the highest context, DEADM to the end of device memory, APSET of
the last word. -/
theorem wit_PrivilegedResults : Alone (rich wr) iss wr 1 ∧ ctxPriv (rich wr) (waveCtx (rich wr) wr) = true ∧
    logFull (rich wr) wr = false ∧ cinvShut (fr .s32 0 4 0 1) (rich wr) wr = false ∧ (cinvPage (rich wr) 0 0x40 matches .ok (.bytes [_] _)) = true ∧
    ((wr.setW 2 65535).wreg 2).toNat < 65536 ∧ wr.cnt.stq = 0 ∧ deviceBytes % 2 ^ 21 = 0 ∧
    (deviceBytes - 2 ^ 21) % 2 ^ 21 = 0 ∧ (deviceBytes - 2 ^ 21) + 1 * 2 ^ 21 ≤ deviceBytes ∧ ((wr.setW 2 127).wreg 2).toNat < 128 ∧
    readyB ⟨false, 0⟩ (fun w l => [opWave (fr .s32 0 12 0 0) (opA (fr .s32 0 12 0 0) · .n64) (rich wr) w l]) wr 1 = true :=
  ⟨alone_in _ _ (by decide +kernel), (by decide +kernel), (by decide +kernel), (by decide +kernel), (by decide +kernel), (by decide +kernel), (by decide +kernel), (by decide +kernel), (by decide +kernel), (by decide +kernel), (by decide +kernel)⟩

/-! ## Steps beside the instructions -/

/-- The step is taken: no address of its effect is missing. -/
abbrev Runs (ins : Instr) (s : State) : Prop := (exec ins s matches .next _) = true

/-- A wave whose register V12 waits for one job. -/
def flying (j : Job) : Wave :=
  { wr.mapThread 0 (fun t => { t with pend := [(12, 4)] }) with
    flights := [{ Flight.start 4 0 .f32 with mem := true, jobs := [j] }] }
def jb (src : JobSrc) : Job := Job.read 0 12 1 .f32 src 2 0
def jobIs (j : Job) : Bool := ((jobOf (rich (flying j)) 3 4 0).map (·.2.2)) == some j && !j.landed
def jobReady (j : Job) : Bool :=
  let w := flying j
  jobIs j && readReady (rich w) w ((w.flights.head?).getD (Flight.start 0 0 .f32)) 0 j && !jobAsleep (rich w) w 4 j false
theorem wit_ReadEvents :
    (let j := { jb .ready with val := some [7] }
     let fl : Flight := { Flight.start 4 0 .f32 with mem := true, jobs := [j] }
     jobIs j = true ∧ j.err = none ∧ j.path ≠ pathSteppe ∧ fl.whole j = true ∧ fl.halfLost j = false ∧
     Runs (.registerWriteback 3 4 0 (.land false)) (rich (flying j))) ∧
    (jobReady (jb (.regq 0 1 2)) = true ∧ Runs (.registerWriteback 3 4 0 .stage) (rich (flying (jb (.regq 0 1 2))))) ∧
    (jobReady (jb (.cseq 1)) = true ∧ Runs (.registerWriteback 3 4 0 .stage) (rich (flying (jb (.cseq 1))))) ∧
    (let l : Loc := .bytes (rangeFrom 0x4000000000000 4) .plain
     let w := flying (jb (.mem l 4))
     jobReady (jb (.mem l 4)) = true ∧ forward (rich w) w 4 2 0 (l.addrs (rich w)) = none ∧ cachedPath 2 = false ∧
     (coreRead (askPeer (useLoc (rich w) false 0 0 2 0 l) 0 2 0 4 .read) w.core l).2 = false ∧ Runs (.registerWriteback 3 4 0 .stage) (rich w)) ∧
    (let j := { jb .await with err := some .uncorr }
     jobIs j = true ∧ j.path ≠ pathSteppe ∧ Runs (.readErrorReturn 3 4 0 false) (rich (flying j))) ∧
    (let j := jb (.mem (.infuse ⟨0x100000, 64, 16, 0⟩) 4)
     let w := flying j
     jobIs j = true ∧ blockReady (rich w) w ((w.flights.head?).getD (Flight.start 0 0 .f32)) 0 j ⟨0x100000, 64, 16, 0⟩ = true ∧
     Runs (.infuserDecode 3 4 0) (rich w)) ∧
    ((rich wr).wave? 3 = some wr ∧ wr.retired = false ∧ 0 < wr.width ∧ 255 < wr.top ∧ wr.top < 2048 ∧
     ∀ n ∈ [255, 8192 + 79, 16384 + 11], Runs (.registerSoftError 3 0 n) (rich wr)) := by decide +kernel

/-- An entry of one part on path 2, and the machine with it at the head of the queue, past the order point, on its
way out. -/
def part1 (op : MemOp) : StPart :=
  ⟨0, 2, .bytes (rangeFrom 0x4000000000000 4) .plain, 4, .n32, op, 7, none, .write, 0x2000000000000000, false, false⟩
def ent (op : MemOp) : StEntry :=
  { id := 4, wave := 3, pc := 0, word := 7, kind := .plain, parts := [part1 op], scope := 0, acq := false, rel := false, flight := none,
    xfer := none, stq := true, syq := true }
def queued : Wave := { wr with sq := [ent .store], cnt := { wr.cnt with stq := 1, syq := 1 } }
def past (op : MemOp) : State := (rich wr).mapCore 0 (fun k => { k with outs := [ent op] })
theorem wit_StoreEvents :
    ((rich queued).wave? 3 = some queued ∧ queued.sq = ent .store :: [] ∧ orderReady (rich queued) queued (ent .store) = true ∧
     (∀ p ∈ (ent .store).parts, relocate (rich queued) queued p = .ok p.loc ∧ p.waits = false) ∧ Runs (.storeOrderPoint 3) (rich queued)) ∧
    (let entry (op : MemOp) : Prop := ((past op).core 0).outs.find? (·.id == 4) = some (ent op) ∧
       performReady (past op) 0 (ent op) = true ∧ (part1 op).done = false ∧ (part1 op).path ≠ pathSteppe ∧
       partAsleep (past op) (ent op) (part1 op) = false ∧ Runs (.storePerformed 0 4 1) (past op)
     entry .store ∧ entry (.rmw 0 0) ∧ (rawBytes (past (.rmw 0 0)) (part1 .store).loc).2 = false) ∧
    (let s := (rich wr).mapCore 0 (fun k => { k with egress := [ent .store] })
     (s.core 0).egress.find? (·.id == 4) = some (ent .store) ∧ (ent .store).queued s = false ∧
     (s.core 0).outs ++ (s.core 0).egress.erase (ent .store) = [] ∧ Runs (.storeAck 0 4) s) ∧
    (let s := (past .store).mapCore 0 (fun k => { k with egress := [ent .store] })
     (∃ x ∈ (s.core 0).outs, x.id = 4) ∧ Runs (.storeAck 0 4) s) := by decide +kernel

/-- WAITM at a word that an older store of its wave still holds. -/
theorem wit_WaitResults_unread :
    (let s := rich queued
     let c := soloCtx s iss ⟨false, 0⟩ queued 1
     memHold [] s c.rd c.act = false ∧ (match waitmChk s c.who 0x2000000000000000 with
       | .ok l => (waitmRead s c.rd 0x2000000000000000 l).isNone
       | _ => false) = true) ∧ Alone (rich queued) iss queued 1 := ⟨(by decide +kernel), alone_in _ _ (by decide +kernel)⟩

/-- A log entry of one read; the page is mapped by now. -/
def logged (grow : Bool) : OpEntry :=
  { wave := 3, pc := 0, word := 7, grow := grow, items := [(0, .job 4 0, 0, 0x40)], delivered := false, num := 0 }
def withLog (grow : Bool) : State :=
  (rich (flying { jb (.mem (.virt 0 0x40) 4) with held := true, path := 0, va := 0x40 })).mapQuad 0 (fun q => { q with oplog := [logged grow] })
/-- A store that met PAGE with no leaf (R200). -/
def stored : OpEntry := { logged false with items := [(0, .part 4 0, 0, 0x40)] }
def withStore : State :=
  let w := { queued with sq := [{ ent .store with parts := [{ part1 .store with path := 0, va := 0x40, loc := .virt 0 0x40 }] }] }
  (rich w).mapQuad 0 (fun q => { q with oplog := [stored] })
theorem wit_LogEvents_store :
    (withStore.quad 0).oplog[0]? = some stored ∧ partJob withStore 3 4 0 = none ∧
    (match (withStore).wave? 3 with
      | some w => let x := itemAccess (askAgain withStore stored) w (.part 4 0)
        w.uid == 3 && (recheck (askAgain withStore stored) w 0 0 0x40 x.1 x.2 matches .ok _) &&
          !watchHit w (onPathAddr 0 0x40) x.1 [x.2]
      | none => false) = true ∧ Runs (.oplogResume 0 0) withStore := by decide +kernel
theorem wit_LogEvents :
    ((withLog false).quad 0).oplog[0]? = some (logged false) ∧
    (match (withLog false).wave? 3 with
      | some w => (recheck (withLog false) w 0 0 0x40 (itemAccess (withLog false) w (.job 4 0)).1
          (itemAccess (withLog false) w (.job 4 0)).2 matches .ok _)
      | none => false) = true ∧
    (match (withLog false).wave? 3 with
      | some w => watchHit w (onPathAddr 0 0x40) (itemAccess (withLog false) w (.job 4 0)).1
          [(itemAccess (withLog false) w (.job 4 0)).2]
      | none => true) = false ∧
    Runs (.oplogResume 0 0) (withLog false) ∧ Runs (.pageDeliver 0 0) (withLog false) ∧
    ((withLog true).quad 0).oplog[0]? = some (logged true) ∧ Runs (.growDeny 0 0) (withLog true) ∧
    (match walk (rich wr) 0 0x40 with
      | .leaf lvl leaf _ => leaf.getLsbD 59 && !pageBusy (rich wr) 0 0 (pageSize lvl)
      | _ => false) = true ∧ Runs (.ownershipFlip 0 0x40 false) (rich wr) := by decide +kernel

/-- The wave waits in one of the ways; the wave of number 6 is ready and pending. -/
def waits (x : Wait) : Wave := { wr with threads := wr.threads.map (fun t => { t with wait := x }) }
def pair (x : Wait) (act : List Nat) (q : Quad → Quad) : State :=
  { rich (waits x) with
    waves := [waits x, { wr with uid := 6, lane := 1 }]
    quads := [(0, q { Quad.reset with active := act, pending := [6] })] }
theorem wit_QuadrantEvents :
    (let s := pair (.waitc 0 0 5) [3] (fun q => { q with blocked := [3] })
     ((trackBlocked s 0).quad 0).blocked = [3] ∧ nextReady (trackBlocked s 0) 0 = some 6 ∧
     (s.quad 0).swapped = false ∧ Runs (.waveSwap 0) s ∧
     Runs (.waveSwap 0) (pair .none [3] (fun q => { q with swapped := true }))) ∧
    (let w := { wr with quantum := 2 ^ 20 }
     let s := { pair .none [3] (fun q => { q with yieldDue := [3] }) with waves := [w, { wr with uid := 6, lane := 1 }] }
     s.wave? 3 = some w ∧ quantumOut s 0 w = true ∧ (s.quad 0).yieldDue ≠ []) ∧
    (let s := pair .none [3] id
     (s.quad 0).active.length < 8 ∧ nextReady s 0 = some 6 ∧ Runs (.pendingWaveEnter 0) s) ∧
    (let s := pair (.xget 9) [3] (fun q => { q with xq := [(9, 3, 2)] })
     grantable s 0 = some (9, 3, 2) ∧ lowest (xgetLanes (waits (.xget 9)) 9) = some 0 ∧ overQuota s (waits (.xget 9)) 2 = false ∧
     Runs (.xgetGrant 0) s) := by decide +kernel

/-- A quantum that has run out with nothing before it (R61). -/
theorem wit_QuadrantEvents_direct :
    (let w := { wr with quantum := 2 ^ 20 }
     let s := { pair .none [3] id with waves := [w, { wr with uid := 6, lane := 1 }] }
     s.wave? 3 = some w ∧ quantumOut s 0 w = true ∧ (s.quad 0).yieldDue = [] ∧ (s.quad 0).quantumDue = [] ∧
     ((trackBlocked s 0).quad 0).blocked = [] ∧ (s.quad 0).swapped = false ∧ (s.quad 0).second = none ∧
     nextReady s 0 = some 6 ∧ Runs (.quantumExpire 0 3) s) := by decide +kernel

theorem wit_WaitEvents :
    (let w := waits (.waitc 1 0 5)
     (rich w).wave? 3 = some w ∧ (∀ l ∈ lanesOf w.running, (w.thread l).wait = .waitc 1 0 5) ∧ Runs (.waitConditionMet 3) (rich w)) ∧
    (let t := { tm with bars := [(1, { Bar.idle with isOpen := true, c := 1, arr := [0] })] }
     let s := { rich (waits (.bar 1 1)) with teams := [t] }
     t.saddle = false ∧ barFull s t 1 = true ∧ Runs (.barrierComplete 2 1) s ∧
     ∀ w ∈ liveWaves s t, w.num ∈ (fget Bar.idle t.bars 1).arr → releasedAt s w false = true) ∧
    (let t := { tm with bargArrived := [4096 * 3] }
     let s := { rich (waits (.barg 3)) with teams := [t] }
     ((gangOf s t).map (liveWaves s)).flatten ≠ [] ∧ Runs (.gangBarrierComplete 2 3) s ∧
     ∀ p ∈ gangOf s t, bargArrived s p 3 = true ∧ ∀ w ∈ liveWaves s p, releasedAt s w true = true) ∧
    (let w := { wre with threads := wre.threads.map (fun t => { t with wait := .reacquire }) }
     let s := { rich w with teams := [{ tm with holders := [w.num] }] }
     (∀ l ∈ lanesOf w.running, (w.thread l).wait = .reacquire) ∧ lanesOf w.running ≠ [] ∧ mustReacquire s w = true ∧
     (s.quad 0).mx.holder = none ∧ Runs (.mxReservationReacquire 3) s) := by decide +kernel

/-- A member at the commit step, with these buffered stores, and with a conflict. -/
def closing (buf : List StPart) (hit : Mask) : Wave :=
  let w := openTx wr 1 false 64 5
  { w.mapThread 0 (fun t => { t with depth := 1, wait := .commit }) with
    kettle := { w.kettle with commitAt := some 6, buf := buf, hit := hit } }
theorem wit_TransactionEvents :
    (let w := closing [] 1
     (rich w).wave? 3 = some w ∧ w.kettle.hit &&& w.members ≠ 0 ∧ Runs (.transactionConflict 3) (rich w)) ∧
    (let ready (w : Wave) : Prop := (rich w).wave? 3 = some w ∧ w.kettle.commitAt = some 6 ∧ commitReady (rich w) w 6 = true ∧
       w.kettle.hit &&& w.members = 0 ∧ aliasLanes (rich w) w w.members = 0 ∧ lowest w.members = some 0 ∧ Runs (.commitStep 3) (rich w)
     ready (closing [] 0) ∧ ready (closing [part1 .store] 0)) := by decide +kernel

/-- One byte changed. -/
def State.poke (s : State) (a : Nat) (b : Byte) : State := { s with mem := s.mem.write a b }
def withRegion (idx : Nat) (r : Region) (s : State) : State := { s with regions := [(idx, r)] }
/-- Region 1 on the way to another order, at parcel p. -/
def dMov (p : Nat) : Desc := dSet (dSet dTil 355 1 1) 322 24 p
def moving (p : Byte) (r : Region) : State :=
  withRegion 1 r (State.poke (State.poke (rich wr) 0x406C 8) 0x4068 (4 * p))
theorem wit_RegionEvents :
    (let at_ (sig : Option Nat) (n : Nat) : State := withRegion 1 { Region.fresh with n := n } { rich wr with sigs := [⟨0, 1, sig⟩] }
     validDesc (at_ none 0) 0 1 = some dTil ∧ dEcnt dTil ≠ 65535 ∧ dMvb (dSet dTil 432 16 1) = false ∧ isSteppe dTil = false ∧
     Runs (.monitorSignature 0) (at_ none 0) ∧ ((at_ (some 0) 62).region 0 1).n + 1 < 64 ∧ Runs (.monitorSignature 0) (at_ (some 0) 62) ∧
     ((at_ (some 0) 63).region 0 1).n = 63 ∧ Runs (.monitorSignature 0) (at_ (some 0) 63)) ∧
    (let at_ (sig : Option Nat) : State := { State.poke (State.poke (rich wr) 0x4076 0xFF) 0x4077 0xFF with sigs := [⟨0, 1, sig⟩] }
     validDesc (at_ none) 0 1 = some (dSet dTil 432 16 65535) ∧ dEcnt (dSet dTil 432 16 65535) = 65535 ∧
     dMvb (dSet (dSet (dSet dTil 432 16 0) 356 2 0) 358 1 0) = false ∧ Runs (.monitorSignature 0) (at_ none) ∧
     Runs (.monitorSignature 0) (at_ (some 0))) ∧
    (parcelShut (moving 0 Region.fresh) (dMov 0) 0 = false ∧
     (let d := dMov 0
      let s := moving 0 { Region.fresh with moving := true }
      (linesOf (rangeFrom (parcelAddr d (dOrder d) 0 255) 4)).any (lineAsleep s
        ⟨some (granuleSlice d ((parcelAddr d (dOrder d) 0 255 - dPbase d) / 1024)), sealOf s d⟩) = false)) ∧
    (let s := rich wr
     let y := dWritten s 0 2 dStp
     (s.region 0 2).old = none ∧ 2 < (bufTable s 0).2 ∧ dValid dStp = true ∧ isSteppe dStp = true ∧ validDesc s 0 2 = some dStp ∧
     dValid y = true ∧ isSteppe y = true ∧ descOk y = true ∧ rowsFit s 0 2 y = true ∧ sameRows dStp y = true ∧
     Runs (.descriptorWrite 0 2 dStp) s) ∧
    (validDesc (moving 0 Region.fresh) 0 1 = some (dMov 0) ∧ dMvb (dMov 0) = true ∧ asleep (moving 0 Region.fresh) (dMov 0) = false ∧
     ((moving 0 Region.fresh).region 0 1).moving = false ∧ stagingSlices (moving 0 Region.fresh) = []) ∧
    (let s := moving 0 { Region.fresh with moving := true }
     (s.region 0 1).moving = true ∧ elemIn (dMov 0) 0 255 = true ∧ 255 < dPh (dMov 0) * dPw (dMov 0) ∧ 255 ∉ (s.region 0 1).written ∧
     Runs (.parcelWriteout 0 1 255) s) ∧
    (let all : Region := { Region.fresh with moving := true, written := List.range 256 }
     validDesc (moving 1 all) 0 1 = some (dMov 1) ∧ dMvp (dMov 0) + 1 < parcelCount dTil ∧ parcelCount dTil = dMvp (dMov 1) + 1 ∧
     (parcelElems (dMov 1) 1).all (fun n => ((moving 1 all).region 0 1).written.contains n) = true ∧
     dAdvv (dSet (dSet (dMov 1) 355 1 0) 322 24 2) = false ∧ Runs (.parcelNew 0 1) (moving 0 all) ∧ Runs (.parcelNew 0 1) (moving 1 all)) ∧
    (let s := rich wr
     (s.region 0 7).old = none ∧ 7 < (bufTable s 0).2 ∧ validDesc s 0 7 = none ∧
     dValid dStp = true ∧ descOk (dSet dStp 52 4 0) = true ∧ rowsFit s 0 7 (dSet dStp 52 4 0) = true ∧
     dValid dLin = true ∧ descOk dLin = true ∧ isSteppe dLin = false ∧ descOk (dSet dLin 52 4 15) = false ∧
     dValid (0 : Desc) = false ∧ validDesc s 0 1 = some dTil ∧ dMvb dTil = false ∧ Runs (.descriptorWrite 0 7 dLin) s ∧
     isSteppe dTil = false ∧ (dWritten s 0 1 dLin |> fun y => dValid y && descOk y && !isSteppe y) = true ∧
     Runs (.descriptorWrite 0 1 0) s) ∧
    (let s := moving 0 Region.fresh
     (s.region 0 1).old = none ∧ 1 < (bufTable s 0).2 ∧ isSteppe (dMov 0) = false ∧ Runs (.descriptorWrite 0 1 0) s) :=
  ⟨(by decide +kernel), (by decide +kernel), (by decide +kernel), (by decide +kernel), (by decide +kernel), (by decide +kernel),
   (by decide +kernel), (by decide +kernel), (by decide +kernel)⟩

/-- A Steppe region's two slices, 0 the home; a request of lap 1 for the row of slice 0. -/
def lap0 (st : Sweep) (cursor : Nat) (tokens : List Nat) : SliceLap := ⟨0, st, cursor, tokens, false⟩
def steppe (x0 x1 : SliceLap) : State := withRegion 2 { Region.fresh with laps := [(0, x0), (1, x1)] } (rich wr)
def req (op : Option MemOp) : SReq := ⟨3, 0, 2, [0], 4, .f32, op, 0, 0, 4, 0, 0⟩
theorem wit_SteppeEvents :
    (let at_ (op : Option MemOp) : State := { steppe (lap0 .sweep 0 []) (lap0 .sweep 0 []) with fabric := [req op] }
     ∀ op ∈ [none, some (MemOp.rmw 0 0)], (at_ op).fabric[0]? = some (req op) ∧ admitReady (at_ op) 0 (req op) = true ∧
       reqSlice (at_ op) (req op) = 0 ∧ (lapOf (at_ op) 0 2 0).isSome = true ∧ Runs (.steppeAdmit 0) (at_ op)) ∧
    (let s := steppe (lap0 .sweep 0 []) (lap0 .sweep 0 [])
     lapOf s 0 2 0 = some (lap0 .sweep 0 []) ∧ (sliceRows (regionDesc s 0 2) 0)[0]? = some 0 ∧ (s.slice 0).selfRefresh = false ∧
     Runs (.steppeRowApply 0 2 0) s) ∧
    (let s := steppe (lap0 .sweep 1 []) (lap0 .sweep 0 [])
     (sliceRows (regionDesc s 0 2) 0).length = 1 ∧ (s.region 0 2).old = none ∧ Runs (.lapEnd 0 2 0) s) ∧
    (let s := steppe (lap0 .sweep 0 []) (lap0 .wait 1 [])
     tokenSent s 0 2 1 0 = true ∧ dHome (regionDesc s 0 2) = 0 ∧ Runs (.lapDoneToken 0 2 0 1) s) ∧
    (let s := steppe ⟨1, .sweep, 0, [], false⟩ (lap0 .wait 1 [])
     tokenSent s 0 2 0 0 = true ∧ ((s.region 0 2).laps.map (·.1)).filter (· != 1) = [0] ∧ Runs (.lapDoneToken 0 2 1 0) s) ∧
    (let s := steppe (lap0 .wait 1 []) (lap0 .wait 1 [])
     tokenSent s 0 2 1 0 = true ∧ ((s.region 0 2).laps.map (·.1)).filter (· != 0) = [1] ∧ (s.region 0 2).old = none ∧
     Runs (.lapDoneToken 0 2 0 1) s) ∧
    (let s := steppe (lap0 .sweep 0 []) (lap0 .sweep 0 [])
     (s.region 0 2).old = none ∧ 2 < (bufTable s 0).2 ∧ (validDesc s 0 2).map isSteppe = some true ∧ Runs (.descriptorWrite 0 2 0) s) :=
  ⟨(by decide +kernel), (by decide +kernel), (by decide +kernel), (by decide +kernel), (by decide +kernel), (by decide +kernel), (by decide +kernel)⟩

/-- Engine 1 open to context 0, enabled, not done, HEAD 0x200, SEQ 5; an entry of operation `op` there, and a view of one
element of F32 at 0x300. -/
def engRam (op : Byte) : Memory :=
  (ram.write 0x8069 2).write 0x100200 op |>.write 0x100301 5 |>.write 0x100308 2 |>.write 0x100312 2 |>.write 0x10033A 0x42
def engS (op : Byte) (x : Engine → Engine) : State :=
  let s := { rich wr with mem := engRam op }
  s.mapEngine 1 x
/-- A command under way: its operation, SQN, with both views at 0x300 and the progress word RUNNING. -/
def cmdOf (op sqn : Nat) : Cmd :=
  ⟨0x200, 0x100200, BitVec.ofNat 512 (op + 5 * 2 ^ 96 + 2 ^ 190 + 0x300 * 2 ^ 256 + 0x300 * 2 ^ 320 + sqn * 2 ^ 384), 0, false, 0⟩
def doing (c : Cmd) : State := engS 1 (fun x => { x with cmd := some c })
/-- The entry accepted, each way a command ends, one position, the last and an earlier chunk, the fault and the classes. -/
theorem wit_EngineEvents :
    (∀ op ∈ [(0 : Byte), 1, 2], let s := engS op id
     (s.engine 1).cmd = none ∧ (match engFetch (engAdvance s 1) 1 with | some (0x200, .got _ b) => dn b 0 8 == op.toNat | _ => false) = true) ∧
    (cmdPlan (doing (cmdOf 0 6)) 1 (cmdOf 0 6) = .nop ∧ Runs (.engineNop 1) (doing (cmdOf 0 6))) ∧
    (cmdPlan (doing (cmdOf 3 6)) 1 (cmdOf 3 6) = .fail 1 ∧ cmdPlan (doing (cmdOf 1 7)) 1 (cmdOf 1 7) = .fail 3 ∧
     cmdPlan (doing (cmdOf 0 5)) 1 (cmdOf 0 5) = .skip ∧ Runs (.engineNop 1) (doing (cmdOf 3 6))) ∧
    (∀ op ∈ [1, 2], let s := doing (cmdOf op 6)
     (match cmdPlan s 1 (cmdOf op 6) with
      | .run src dst => ((cmdOf op 6).places src dst 0 == [([0], if op == 1 then some [0] else none)]) &&
          (match posChk s 1 dst [0] .write, posChk s 1 src [0] .read with
           | .ok l, .ok m => !posAsleep s 1 dst [0] l && !posAsleep s 1 src [0] m && (sourceBytes s m (vEs src)).isSome
           | _, _ => false)
      | _ => false) = true) ∧
    (Runs (.engineFill 1 1 false) (doing (cmdOf 2 6)) ∧ Runs (.engineCopy 1 1 false) (doing (cmdOf 1 6))) :=
  ⟨(by decide +kernel), (by decide +kernel), (by decide +kernel), (by decide +kernel), (by decide +kernel)⟩
theorem wit_EngineEvents_chunks :
    (let c := { cmdOf 2 6 with pos := 1 }
     (match chunkLeft (doing c) 1 with | some (x, dst, 0) => x == c && decide (x.total dst ≤ x.chunks + 1) | _ => false) = true ∧
     Runs (.engineChunkDone 1) (doing c)) ∧
    (let s := State.poke (State.poke (doing { cmdOf 2 6 with pos := 64 }) 0x100308 0x82) 0x100330 0x7E
     (match chunkLeft s 1 with | some (x, dst, 0) => decide (x.chunks + 1 < x.total dst) | _ => false) = true) :=
  ⟨(by decide +kernel), (by decide +kernel)⟩
theorem wit_EngineEvents_sides :
    (let s := State.poke (engS 1 id) 0x8069 0
     let s := State.poke s 0x806F 0x10
     (engFetch s 1 matches some (_, .bad _)) = true ∧ Runs (.chainFault 1) s) ∧
    ((cmdOf 2 6).deadline ≠ 0 ∧ (cmdOf 2 6).late = false ∧ Runs (.deadlinePromote 1) (doing (cmdOf 2 6)) ∧
     Runs (.deadlineExpire 1) (doing (cmdOf 2 6))) ∧
    (let s := engS 1 (fun x => { x with tails := [(0x240, some 3, some 2)] })
     (s.engine 1).tails = [(0x240, some 3, some 2)] ∧ engDone s 1 = false ∧ Runs (.engineTailRecord 1) s ∧ s.host.boot = .normal) ∧
    (let w := { wh with engine := [5] }
     (rich w).wave? 3 = some w ∧ w.handling = true ∧ w.retired = false ∧ Runs (.engineCauseTaken 3) (rich w)) ∧
    (let w := { wr with engine := [5] }
     (rich w).wave? 3 = some w ∧ (∀ v ∈ (rich w).waves, v.uid = 3 → v = w) ∧ w.running ≠ 0 ∧ w.members = 0 ∧ w.handling = false ∧
     w.parkq = [] ∧ w.preempt = false ∧ w.handler ≠ defaultHandler (rich w) w ∧ Runs (.engineCauseTaken 3) (rich w)) :=
  ⟨(by decide +kernel), (by decide +kernel), (by decide +kernel), (by decide +kernel), (by decide +kernel)⟩

/-- The operation of the block at offset 1024, queued and performed; a transfer of one row from 0x40. -/
def mop : MxOp :=
  { id := 4, wave := 3, team := 2, core := 0, quad := 0, off := 1024, kb0 := 0, again := false
    pb := BitVec.ofNat 128 (7 * 2 ^ 6 + 4 * 2 ^ 24 + 4 * 2 ^ 28 + 2 * 2 ^ 96), quarter := [], flight := none, formed := false, result := none }
def onUnit (o : MxOp) : State := (tiled wr).mapQuad 0 (fun q => { q with mx := { q.mx with ops := [o] } })
def row (load : Bool) : Xfer :=
  ⟨4, 3, 2, load, 0, 0, 7, 1, true, false, false, false, false, 0, 0x40, 32, 0, 0, [], 1, 8, 4, 7, [], false, none, if load then none else some 5, []⟩
def onXfer (load : Bool) : State := (tiled wr).mapCore 0 (fun k => { k with xfers := [row load] })
theorem wit_UnitEvents :
    (let s := onUnit mop
     (s.quad 0).mx.head = some mop ∧ (∀ y ∈ (s.quad 0).mx.ops, y.result = none) ∧ mbBsh mop.pb = false ∧ mbAcq mop.pb = false ∧
     s.team? 2 = some tm ∧ mxBehind s mop false = false) ∧
    (let o := { mop with result := some ([[0, 0, 0, 0, 0, 0, 0, 0]], 0) }
     let s := onUnit o
     (s.quad 0).mx.ops.find? (·.result.isSome) = some o ∧ mxReleased s o = true ∧ mxBehind s o true = false ∧ o.flight = none ∧
     Runs (.mxOpComplete 0) s) ∧
    (∀ load ∈ [true, false], let s := onXfer load
     let x := row load
     (s.core 0).xfers.find? (·.id == 4) = some x ∧ xferReady s x = true ∧ x.done < x.total ∧ xferAsleep s 0 x = false ∧
     s.tileEnt tm 0 0 = tileDesc ∧ (xferChk s x 7 matches some (.ok (.bytes ..))) = true ∧ (storedElem s 0 x tm tileDesc).2 = none) ∧
    (Runs (.tldComplete 0 4 8) (onXfer true) ∧ Runs (.tstComplete 0 4 8) (onXfer false)) :=
  ⟨(by decide +kernel), (by decide +kernel), (by decide +kernel), (by decide +kernel)⟩

/-! ## Scheduling, device, host -/

/-- A launch of queue 0, record 4, one team of one wave, nothing placed of it yet. -/
def ln : Launch :=
  { q := 0, k := 4, ctx := 0, comp := 0, prio := 0, gx := 1, gy := 1, gz := 1, irq := true, args := 0x40, arglen := 8, deps := [],
    desc := { State.fetchDesc with part := 192 }, code := 1, reject := none, startable := true, next := 0, gone := 0, nfail := 0, owed := [], first := none,
    killed := false, esc := false, saved := [], wd := false }
def tl (p : Phase) : Team := { tm with lk := 4, phase := p }
/-- Queue 0 enabled, with four slots at 0x200000, TAIL 1, a watchdog; one launch; a team in a phase with its wave. -/
def sched (l : Launch) (ts : List Team) (w : Wave) : State :=
  let s := rich w
  { s with
    mem := s.mem ++ [(0x9002, 0x20), (0x9010, 1), (0x9020, 1), (0x9026, 2), (0x9027, 0x80)]
    launches := [l], teams := ts, waves := if ts.isEmpty then [] else [w]
    host := { s.host with bases := { s.host.bases with mask := [(0, 1)] } } }
theorem wit_ScheduleEvents :
    (let s := sched ln [] wr
     s.host.boot = .normal ∧ qTail (qcb s 0) = 1 ∧ qSeq (qcb s 0) + qSlots (qcb s 0) = 4 ∧ Runs (.launchDoorbell 0 1) s ∧
     Runs (.launchDoorbell 0 4) s ∧ Runs (.launchDoorbell 0 0) s ∧ Runs (.launchDoorbell 0 5) s) ∧
    (let s := sched ln [] wr
     qEn (qcb s 0) = true ∧ qHead (qcb s 0) < qTail (qcb s 0) ∧ recAddr (qcb s 0) (qHead (qcb s 0)) + 128 ≤ deviceBytes ∧
     kdescLoc s (qCtx (qcb s 0)) 0 = none ∧ Runs (.launchRecordRead 0) s ∧
     (let s := { s with codes := [{ cd with kdescs := [0] }] }
      (match kdescLoc s (qCtx (qcb s 0)) 0 with | some p => !sliceAsleep s (qCtx (qcb s 0)) 0 0 0 p.2 | none => false) = true ∧
      Runs (.launchRecordRead 0) s)) ∧
    (let l := { ln with startable := false, deps := [0x8100000000000005] }
     let s := sched l [] wr
     s.launch? 0 4 = some l ∧ depHolds s 0x8100000000000005 = true ∧ Runs (.launchStartable 0 4) s) ∧
    (let s := sched ln [] wr
     s.host.noPlace = false ∧ served s = some ln ∧ nextSet { s with stuck := [(0, (0, 4))] } ln = some [(0, none)] ∧
     (placeSet { s with stuck := [(0, (0, 4))] } ln [(0, none)]).isSome = true) ∧
    (let s := sched ln [tl .placing] wr
     argFault s (tl .placing) 0x40 8 = none ∧ argAsleep s (tl .placing) 0x40 8 = false ∧
     argAsleep s (tl .placing) (2 ^ 33) 8 = false ∧ (argBytes s (tl .placing) 0x40 8).2 = none ∧ Runs (.argCopyDone 2) s ∧
     (argFault s (tl .placing) 0x1000000000000000 8).isSome = true ∧ (argFault s (tl .placing) (2 ^ 33) 8 matches some (.page, _)) = true ∧
     Runs (.argCopyFault 2 .page) (sched { ln with args := 2 ^ 33 } [tl .placing] wr) ∧
     Runs (.argCopyDone 2) (sched ln [{ tl .placing with restored := true }] { wr with preempt := true })) :=
  ⟨(by decide +kernel), (by decide +kernel), (by decide +kernel), (by decide +kernel), (by decide +kernel)⟩
/-- LDG of two elements stands at PC 0 of a wave that PREEMPT stops: it begins, and stops before its second element. -/
def atLong : State :=
  let s := sched ln [tl .saving] { w0 with preempt := true }
  { s with
    mem := s.mem.writeN 0x10000000 (leBytes 8 ((encode (.ldg (fr .n32 8 12 16 1))).getD 0).toNat)
    quads := [(0, { Quad.reset with active := [3], table := [(0, ⟨⟨1, 0, .normal⟩, [⟨3, 1⟩], 0⟩)] })] }
theorem wit_ScheduleEvents_long : atLong.wave? 3 = some { w0 with preempt := true } ∧
    ((stepFour atLong { w0 with preempt := true }).bind (fun r => (r.wave? 3).map (fun v => (v.progKind, v.progIndex)))) =
      some (1, 1) := ⟨rfl, by decide +kernel⟩
theorem wit_ScheduleEvents_run :
    (let t := { tl .running with fetchw := [(64, 3, 5)] }
     mailboxBusy (sched ln [t] wr) 3 5 = false ∧ ln.next < ln.total ∧ Runs (.fetchwAnswer 2) (sched ln [t] wr) ∧
     (let l := { ln with next := 1 }
      l.total ≤ l.next ∧ Runs (.fetchwAnswer 2) (sched l [t] wr))) ∧
    (let w := { wr with preempt := true }
     saveReady (sched ln [tl .saving] w) w = true ∧ (stepFour (sched ln [tl .saving] w) w).isNone = true ∧ Runs (.preemptDeliver 3) (sched ln [tl .saving] w)) ∧
    (Runs (.saveTimeoutKill 2) (sched ln [tl .saving] wr) ∧ Runs (.launchKill 0 4) (sched ln [tl .running] wr) ∧
     Runs (.launchKill 0 4) (sched { ln with reject := some 2 } [] wr)) ∧
    (let w := { wr with kill := true }
     let s := sched ln [tl .running] w
     w ∈ s.waves ∧ w.retired = false ∧ (∀ v ∈ s.waves, v.killEsc = false) ∧ Runs (.killDeliver 2) s ∧
     Runs (.killDeliver 2) (sched ln [tl .running] { w with killEsc := true })) ∧
    (let s := sched ln [tl .running] { wr with retired := true }
     teamDone s (tl .running) = true ∧ teamSaved s (tl .running) = false ∧ Runs (.teamRetire 2) s) ∧
    (let l := { ln with next := 1, gone := 1 }
     firstLaunch (sched l [] wr) 0 = some l ∧ l.over (sched l [] wr) = true ∧ l.record = none ∧ Runs (.launchComplete 0) (sched l [] wr)) ∧
    (let s := sched ln [tl .running] wr
     ln.wd = false ∧ qWdog (qcb s 0) ≠ 0 ∧ (∃ t ∈ s.teams, t.lq = 0 ∧ t.lk = 4) ∧ Runs (.watchdogExpire 0 4) s) :=
  ⟨(by decide +kernel), (by decide +kernel), (by decide +kernel), (by decide +kernel), (by decide +kernel), (by decide +kernel), (by decide +kernel)⟩

/-- A shoot-down on its way to core 5, engine 192 and device 300; the engine has received it. -/
def shot : State := { rich wr with shoots := [⟨9, 0, 0x40, [5, 300], [5, 192, 300]⟩], domain := [0, 44, 45] }
/-- A row that stands in the bank and the place `bank` and `row` of the configuration has come to the threshold. -/
def alert (debt : Nat) : State :=
  (rich wr).mapSlice 383 (fun z => { z with debt := [(Config.bankOf 9, debt)], acts := [(9, 1024)] })
theorem wit_DeviceEvents :
    (let x : Shoot := ⟨9, 0, 0x40, [5, 300], [5, 192, 300]⟩
     shootOf shot 9 = some x ∧ 300 ∈ x.toReceive ∧ 5 ∈ x.toReceive ∧ 192 ∉ x.toReceive ∧ 192 ∈ x.toCount ∧ 300 ∈ x.toCount ∧
     300 - 256 ∉ shot.fenced ∧ (let p := pageAround shot 0 0x40
      coreQuiet shot 5 0 p.1 p.2 = true) ∧
     ∀ ins ∈ [Instr.shootdownReceive 9 300, .shootdownReceive 9 5, .shootdownAck 9 192, .fenceTimeout 9 300], Runs ins shot) ∧
    (let r : PeerReq := { device := 44, ctx := 0, va := 0x40, size := 8, act := .write 7 }
     r.device ∈ shot.domain ∧ r.device ∉ shot.fenced ∧ r.device ≠ shot.devId ∧ r.va % r.size = 0 ∧
     (match checkVirtual shot 0 0 0x40 (0x40 % 2 ^ 52) 8 .write with | .ok l => !sliceAsleep shot 0 0 0 (0x40 % 2 ^ 52) l | _ => false) = true ∧
     Runs (.peerRequest r) shot ∧ 46 ∉ shot.domain ∧ 46 ≠ shot.devId ∧ Runs (.peerRequest { r with device := 46 }) shot) ∧
    (∀ a ∈ [PeerAct.read, .atomic .s64 0 7 0],
     (match checkVirtual shot 0 0 0x40 (0x40 % 2 ^ 52) 8 (peerWant a) with
      | .ok l => !sliceAsleep shot 0 0 0 (0x40 % 2 ^ 52) l && !(rawBytes (useLoc shot true 0 0 0 (0x40 % 2 ^ 52) l) l).2
      | _ => false) = true ∧ Runs (.peerRequest { device := 44, ctx := 0, va := 0x40, size := 8, act := a }) shot) ∧
    ((fget Link.reset shot.links 11).next = Link.reset.next ∧ 
     (∀ b ∈ [Flit.ack 0 4, .token 0 2 0 1], Runs (.linkFlitReceive 11 Link.reset.next true b) shot) ∧
     Runs (.linkFlitReceive 11 0 false (.ack 0 4)) shot) ∧
    (let debt (d : Nat) : State := (rich wr).mapSlice 383 (fun z => { z with debt := [(2, d)] })
     ((debt 7).slice 383).selfRefresh = false ∧ bankWanted (debt 7) 383 2 = false ∧ flook ((debt 7).slice 383).windows 2 = none ∧ fget 0 ((debt 7).slice 383).debt 2 = 7 ∧ fget 0 ((debt 8).slice 383).debt 2 = 8 ∧
     (let s := (rich wr).mapSlice 383 (fun z => { z with selfRefresh := true })
      (s.slice 383).selfRefresh = true ∧ Runs (.backoffEnd 383 2) s) ∧
     (match checkVirtual shot 0 0 0x40 (0x40 % 2 ^ 52) 0x20000 .read with | .trap .. => true | _ => false) = true ∧
     ∀ ins ∈ [Instr.refreshDue 383 2 true, .refreshDue 383 2 false, .refreshRepay 383 2, .selfRefreshEnter 11,
       .selfRefreshExit 11, .clockLower 1 849, .clockRaise 1 850], Runs ins (debt 7)) ∧
    (Runs (.backoffEnd 383 2) ((rich wr).mapSlice 383 (fun z => { z with windows := [(2, (2, 5))] })) ∧
     clockOf (rich wr) 1 = 850 ∧ clockOf { rich wr with clocks := [(1, 700)] } 1 = 700) :=
  ⟨(by decide +kernel), (by decide +kernel), (by decide +kernel), (by decide +kernel), (by decide +kernel), (by decide +kernel)⟩
/-- An admitted Steppe request wants the bank of its row. -/
theorem wit_DeviceEvents_wanted :
    let s := (rich wr).mapSlice 383 (fun z => { z with admitted := [⟨3, 0, 2, [0], 4, .f32, none, 0, 0, 4, 0, 0⟩] })
    bankWanted s 383 (Config.bankOf (rowOf (lineOf (dPbase dStp)))) = true ∧ (s.slice 383).selfRefresh = false ∧
      ∀ b, fget 0 (s.slice 383).debt b < 8 := by
  intro s
  have h : (s.slice 383).admitted = [⟨3, 0, 2, [0], 4, .f32, none, 0, 0, 4, 0, 0⟩] := rfl
  have d : regionDesc s 0 2 = dStp := by decide +kernel
  have e : elemGranule dStp [0] = 0 := by decide +kernel
  refine ⟨?_, rfl, fun b => (by decide : (0 : Nat) < 8)⟩
  rw [bankWanted, h]
  simp [d, e]
/-- An alert of that row, the last of its bank, with the debt d. -/
theorem wit_DeviceEvents_alert (d : Nat) : let z := (alert d).slice 383
    z.selfRefresh = false ∧ Config.rowIn 9 < Config.rowIn 9 + 1 ∧ flook z.windows (Config.bankOf 9) = none ∧
    (∃ e ∈ z.acts, 1024 ≤ e.2 ∧ Config.bankOf e.1 = Config.bankOf 9 ∧ Config.rowIn e.1 = Config.rowIn 9) ∧
    fget 0 z.debt (Config.bankOf 9) = d := by
  have h : (alert d).slice 383 = { Slice.reset with debt := [(Config.bankOf 9, d)], acts := [(9, 1024)] } := rfl
  simp [h, Slice.reset, fget]
/-- An error in a team's memory, in a buffer found at write-back (owned and shared), in a structure of the device. -/
theorem wit_DeviceEvents_errors :
    (let e (o : ErrOwner) (wb : Bool) : ErrSite := ⟨.store, 0x4000, o, wb, false⟩
     let s := sched ln [] wr
     errLevel s (e (.team 2) false) = .team ∧ errLevel s (e (.buffer 0 0) true) = .context 0 ∧
     errLevel (State.poke s 0x4002 0x80) (e (.buffer 0 0) true) = .compartment 0 ∧ errLevel s (e .deviceStructure false) = .device ∧
     rowLive { s with seals := [(16 * rowOf 0x4000, none)] } (rowOf 0x4000) = true ∧ holderOf s 0x4000 = none ∧
     Runs (.uncorrectableError (e (.buffer 0 0) true)) { s with seals := [(16 * rowOf 0x4000, none)] } ∧
     rowLive s (rowOf 0x4000) = false ∧ 64 * 0x4000 < deviceBytes ∧ Runs (.uncorrectableError (e (.buffer 0 0) true)) s ∧
     Runs (.uncorrectableError { e (.team 2) false with place := .l1 0 }) s ∧
     (∀ dirty ∈ [false, true], let s := s.mapSlice 383 (fun z => { z with cache := [(0x4000, ⟨dirty, none, 0, false⟩)] })
      holderOf s 0x4000 = some 383 ∧ flook (s.slice 383).cache 0x4000 = some ⟨dirty, none, 0, false⟩ ∧
      Runs (.uncorrectableError { e (.buffer 0 0) true with place := .slice }) s) ∧ Runs (.uncorrectableError (e .deviceStructure false)) s) := by
  decide +kernel

def img (ok : Bool) : Image := { digest := 5, sigOk := ok }
theorem wit_HostEvents :
    (let s := rich wr
     s.host.boot = .normal ∧ (s.slice 3).admitted = [] ∧ writeBackShut s (fun k _ => k == 3) = false ∧
     writeBackShut (s.mapSlice 3 (fun z => { z with cache := [(0x4000, ⟨true, none, 0, false⟩)], selfRefresh := true }))
       (fun k _ => k == 3) = true ∧ (0x1000000000000005 : DWord).extractLsb' 60 2 = 1 ∧ (0x1000000000000005 : DWord).extractLsb' 13 47 = 0 ∧
     (0x2000000000000005 : DWord).extractLsb' 60 2 = 2 ∧ (0x1000000000002005 : DWord).extractLsb' 13 47 ≠ 0 ∧
     slotNamed s 5 = false ∧ flook s.host.keys 5 = none ∧ slotNamed (State.poke (State.poke s 0x4007 0x28) 0x4004 0x50) 5 = true ∧
     (0x50000000000 : BitVec 512).extractLsb' 40 8 = 5 ∧ (0x50000000000 : BitVec 512).extractLsb' 48 16 = 0 ∧
     (0x50000000000 : BitVec 512).extractLsb' 32 8 = 0) ∧
    (∀ ins ∈ [Instr.keyLoad ⟨1, true⟩ 0x1000000000000005 9, .keyLoad ⟨0, false⟩ 0x1000000000000005 9,
       .keyLoad ⟨1, true⟩ 0x1000000000002005 9, .keyLoad ⟨1, true⟩ 0x3000000000000005 9, .keyClear ⟨1, true⟩ 0x2000000000000005,
       .keyClear ⟨0, false⟩ 0x2000000000000005, .measurementAppend 0x50000000000, .sliceStatusClear 383 (-1),
       .registerWrite 0x50FF8 7, .registerWrite 0x51000 7, .registerWrite 0x4FFF8 7, .coreReset 0, .sliceReset 3, .engineReset 1,
       .linkReset 2, .coldReset (img true), .coldReset (img false), .recoveryNewImage (img true)], Runs ins (rich wr)) :=
  ⟨(by decide +kernel), (by decide +kernel)⟩

/-! ## Storage, reset, fetch -/

/-- Right after reset the machine runs a word that is placed for it: here NOP, and MOVI of an upper half (R312). -/
def first (w : Nat) : State := State.reset.withFetchWord 64 w
def after? (w : Nat) (f : Thread → Bool) : Bool :=
  match step (first w) with
  | .next t => (t.waves.head?.map (fun v => f (v.thread 0))).getD false
  | _ => false
theorem test_first_word : after? 0x1900000000000000 (·.pc == 8) = true ∧
    after? 0x121C020040010001 (fun t => t.pc == 8 && t.reg 1 == 0x20000000) = true ∧ decodeTableWord 64 0x1900000000000000 = some (.nop (fr .s32 0 0 0 0)) := by
  decide +kernel

theorem wit_MemInvariant : (first 0x1900000000000000).mem.wf = true ∧ (step (first 0x1900000000000000) matches .next _) = true := by
  decide +kernel
theorem wit_RoundTrip : ∃ i, decode 0x0809440280580C00 = .ok i ∧ i.wellFormed = true ∧ encode i = some 0x0809440280580C00 ∧
    (0x8000000000000000 : DWord).getLsbD 63 = true := ⟨.fadd ⟨.f32, ⟨true, 2⟩, false, false, true, 10, 11, .reg 12 0⟩, rfl, (by decide +kernel), (by decide +kernel), (by decide +kernel)⟩
theorem wit_StepRunsDecoded :
    (let s := first 0x1900000000000000
     standby s = none ∧ firstDue s = none ∧ s.agenda = [] ∧ s.place < ownFrom ∧ turnOrder s = [0] ∧
     (choose (leaveAll (tick s 0) 0) 0).isSome = true ∧ (∀ c ∈ s.codes, 0 < c.size)) ∧
    (let s := (first 0x1900000000000000).mapQuad 0 (fun q => { q with second := some iss })
     standby s = some (0, iss)) := ⟨(by decide +kernel), (by decide +kernel)⟩

/-! ## Results of single words, by hand calculation from the rules named -/

/-- V8 after an instruction on these registers, the flags, and the tag of V8. -/
def res (i : Instr) (l : List (Nat × Word)) : Option (Word × Word × Ety) :=
  match exec i (mk (regs wv l) iss) with
  | .next t => t.waves.head?.map (fun v => ((v.thread 0).reg 8, v.fpstat, v.tag 8))
  | _ => none
/-- R82, R286: the sum wraps, or clamps with `.sat`. -/
theorem test_iadd : res (.iadd (fr .s32 8 12 13 0)) [(12, 0x7FFFFFFF), (13, 1)] = some (0x80000000, 0, .s32) ∧
    res (.iadd (fr .s32 8 12 13 0x10)) [(12, 0x7FFFFFFF), (13, 1)] = some (0x7FFFFFFF, 0, .s32) := by
  decide +kernel
/-- R286: the high half of (-1) · (-1) for S32 and of the greatest N32 squared. -/
theorem test_imulh : res (.imulh (fr .s32 8 12 13 0)) [(12, -1), (13, -1)] = some (0, 0, .s32) ∧
    res (.imulh (fr .n32 8 12 13 0)) [(12, -1), (13, -1)] = some (0xFFFFFFFE, 0, .n32) := by
  decide +kernel
/-- R288: a count of 33 shifts by 1; SAR keeps the sign. -/
theorem test_shifts : res (.shl (fr .n32 8 12 13 0)) [(12, 0x80000001), (13, 33)] = some (2, 0, .n32) ∧
    res (.sar (fr .s32 8 12 13 0)) [(12, 0x80000000), (13, 31)] = some (-1, 0, .s32) := by
  decide +kernel
/-- R95, R292: 1 + 2^-24 is a tie that goes to even, and inexact; the greatest F32 doubled overflows to infinity. -/
theorem test_fadd : res (.fadd (fr .f32 8 12 13 0)) [(12, 0x3F800000), (13, 0x33800000)] = some (0x3F800000, 1, .f32) ∧
    res (.fadd (fr .f32 8 12 13 0)) [(12, 0x7F7FFFFF), (13, 0x7F7FFFFF)] = some (0x7F800000, 5, .f32) := by
  decide +kernel
/-- R93, R292: infinity times zero is invalid, and gives the canonical NaN. -/
theorem test_fmul : (res (.fmul (fr .f32 8 12 13 0)) [(12, 0x7F800000), (13, 0)]).map (·.1) = some 0x7FC00000 := by
  decide +kernel
/-- R300: -1.5 to S32 in the rounding mode nearest-even is -2. -/
theorem test_cvt : (res (.cvt (fr .s32 8 12 4 0)) [(12, 0xBFC00000)]).map (·.1) = some (-2) := by
  decide +kernel
/-- R320: BRA lands at PC + 8 + 8 · imm16, here on itself. -/
theorem test_bra : (match exec (.bra (fi .s32 0 0 (-1) 0)) (mk wv iss) with
    | .next t => t.waves.head?.map (fun v => (v.thread 0).pc) | _ => none) = some 0 := by
  decide +kernel

end Sys2Proof.Tests
end

