-- ==== Sys2Proof/Proofs/Storage.lean ====
section
/-!
PROOF. Reads after writes of memory, of a thread's registers and of its predicates.
-/
namespace Sys2Proof.Machine

/-! ## Bytes and numbers in memory (R7) -/

/-- A map without some keys reads as its default there, and as before elsewhere. -/
theorem fget_filter_keys {β : Type} (d : β) (m : FMap β) (p : Nat → Bool) (k : Nat) :
    fget d (m.filter (fun e => p e.1)) k = if p k then fget d m k else d := by
  induction m with
  | nil => simp
  | cons e m ih =>
    by_cases he : e.1 = k
    · subst he
      cases hp : p e.1 <;> simp [fget_cons, ih, hp]
    · cases hp : p e.1 <;> simp [fget_cons, ih, hp, he]

theorem Memory.read_clear (m : Memory) (a n x : Nat) :
    (m.clear a n).read x = if a ≤ x ∧ x < a + n then 0 else m.read x := by
  have h : (m.clear a n).read x = if decide (x < a) || decide (a + n ≤ x) then m.read x else 0 :=
    fget_filter_keys Memory.background m (fun k => decide (k < a) || decide (a + n ≤ k)) x
  rw [h]
  by_cases hx : a ≤ x ∧ x < a + n
  · rw [if_pos hx, if_neg (by simp only [Bool.or_eq_true, decide_eq_true_eq]; omega)]
  · rw [if_neg hx, if_pos (by simp only [Bool.or_eq_true, decide_eq_true_eq]; omega)]

/-- A run of bytes reads back as it was written. -/
theorem Memory.readN_writeN (bs : List Byte) : ∀ (m : Memory) (a : Nat), (m.writeN a bs).readN a bs.length = bs := by
  induction bs with
  | nil => intro m a; rfl
  | cons b bs ih =>
    intro m a
    have first : ((m.write a b).writeN (a + 1) bs).read a = b := by
      rw [Memory.read_writeN, if_neg (by omega), Memory.read_write, if_pos rfl]
    show ((m.write a b).writeN (a + 1) bs).read a :: _ = _
    rw [first]
    exact congrArg (b :: ·) (ih (m.write a b) (a + 1))

theorem leBytes_length (n : Nat) : ∀ v, (leBytes n v).length = n := by
  induction n with
  | zero => intro v; rfl
  | succ n ih => intro v; exact congrArg (· + 1) (ih (v / 256))

/-- Little-endian bytes keep a number up to its size. -/
theorem leNat_leBytes (n : Nat) : ∀ v, leNat (leBytes n v) = v % 2 ^ (8 * n) := by
  induction n with
  | zero => intro v; simp [leBytes, leNat, Nat.mod_one]
  | succ n ih =>
    intro v
    have split : 2 ^ (8 * (n + 1)) = 256 * 2 ^ (8 * n) := by rw [Nat.mul_succ, Nat.pow_add, Nat.mul_comm]
    rw [leBytes, leNat, ih, split, Nat.mod_mul, BitVec.toNat_ofNat]

/-- A number written at a device address changes the memory at its bytes alone, whatever lines and rows it reaches. -/
theorem devWrite_mem (s : State) (a n v : Nat) : (devWrite s a n v).mem = s.mem.writeN a (leBytes n v) := by
  obtain ⟨p, q, z, h⟩ : SameAbove s (useLines s true ⟨none, none⟩ (rangeFrom a n)) :=
    SameAbove.fold _ (fun _ _ => SameAbove.useLine ..) _ s
  unfold devWrite
  simp only [State.touch_mem]
  rw [h]
  rfl

theorem devNat_devWrite (s : State) (a n v : Nat) : devNat (devWrite s a n v) a n = v % 2 ^ (8 * n) := by
  unfold devNat
  rw [devWrite_mem]
  have h := Memory.readN_writeN (leBytes n v) s.mem a
  rw [leBytes_length] at h
  rw [h, leNat_leBytes]

theorem devWrite_read_outside (s : State) (a n v x : Nat) (h : ¬ (a ≤ x ∧ x < a + n)) :
    (devWrite s a n v).mem.read x = s.mem.read x := by
  rw [devWrite_mem, Memory.read_writeN, leBytes_length, if_neg h]

/-! ## Registers of a thread (R69, R73) -/

namespace Thread

/-- `u` is `t` but for its V registers: their words, what they wait for and their soft errors. -/
def SameBesideV (t u : Thread) : Prop := u = { t with v := u.v, pend := u.pend, soft := u.soft }

theorem SameBesideV.refl (t : Thread) : SameBesideV t t := rfl
theorem SameBesideV.setReg {t u : Thread} (h : SameBesideV t u) (n : Nat) (w : Word) : SameBesideV t (u.setReg n w) := by
  unfold SameBesideV at h ⊢
  rw [h]
  rfl

theorem reg_setReg (t : Thread) (n : Nat) (w : Word) (r : Nat) :
    (t.setReg n w).reg r = if r = n then w else t.reg r := fget_fset _ _ _ _ _
theorem pend_setReg (t : Thread) (n : Nat) (w : Word) (r : Nat) :
    flook (t.setReg n w).pend r = if r = n then none else flook t.pend r := flook_fdel _ _ _
theorem empty_setReg (t : Thread) (n : Nat) (w : Word) (r : Nat) :
    (t.setReg n w).empty r = if r = n then false else t.empty r := by
  unfold Thread.empty
  rw [pend_setReg]
  split <;> rfl

/-- What holds register `r` after the words from `n` up: the first word at `n`, the others behind it. -/
theorem run_cons {β : Type} (n r : Nat) (w : Word) (ws : List Word) (g : Word → β) (x : β) :
    (if n + 1 ≤ r ∧ r < n + 1 + ws.length then g (ws.getD (r - (n + 1)) 0) else if r = n then g w else x) =
      if n ≤ r ∧ r < n + (w :: ws).length then g ((w :: ws).getD (r - n) 0) else x := by
  rw [List.length_cons]
  by_cases h : r = n
  · subst h
    rw [if_neg (by omega), if_pos rfl, if_pos (by omega), Nat.sub_self, List.getD_cons_zero]
  · by_cases hr : n + 1 ≤ r ∧ r < n + 1 + ws.length
    · rw [if_pos hr, if_pos (by omega), show r - n = r - (n + 1) + 1 by omega, List.getD_cons_succ]
    · rw [if_neg hr, if_neg h, if_neg (by omega)]

theorem reg_setRegs (ws : List Word) : ∀ (t : Thread) (n r : Nat),
    (t.setRegs n ws).reg r = if n ≤ r ∧ r < n + ws.length then ws.getD (r - n) 0 else t.reg r := by
  induction ws with
  | nil => intro t n r; rw [if_neg (by rw [List.length_nil]; omega)]; rfl
  | cons w ws ih => intro t n r; rw [Thread.setRegs, ih, reg_setReg]; exact run_cons n r w ws id (t.reg r)

theorem empty_setRegs (ws : List Word) : ∀ (t : Thread) (n r : Nat),
    (t.setRegs n ws).empty r = if n ≤ r ∧ r < n + ws.length then false else t.empty r := by
  induction ws with
  | nil => intro t n r; rw [if_neg (by rw [List.length_nil]; omega)]; rfl
  | cons w ws ih =>
    intro t n r; rw [Thread.setRegs, ih, empty_setReg]; exact run_cons n r w ws (fun _ => false) (t.empty r)

theorem SameBesideV.setRegs {t : Thread} (ws : List Word) : ∀ {u : Thread}, SameBesideV t u → ∀ n,
    SameBesideV t (u.setRegs n ws) := by
  induction ws with
  | nil => intro u h n; exact h
  | cons w ws ih => intro u h n; exact ih (h.setReg n w) (n + 1)

/-- The first register of a landing, where it still waits for flight `k`. -/
def landOne (t : Thread) (k n : Nat) (w : Word) : Thread := if flook t.pend n = some k then t.setReg n w else t

theorem land_cons (t : Thread) (k n : Nat) (w : Word) (ws : List Word) :
    t.land k n (w :: ws) = (t.landOne k n w).land k (n + 1) ws := rfl

theorem landOne_due (t : Thread) (k n : Nat) (w : Word) (h : flook t.pend n = some k) :
    t.landOne k n w = t.setReg n w := if_pos h
theorem landOne_not_due (t : Thread) (k n : Nat) (w : Word) (h : flook t.pend n ≠ some k) :
    t.landOne k n w = t := if_neg h

/-- The first register of a landing is the only one it can change. -/
theorem landOne_other (t : Thread) (k n : Nat) (w : Word) {r : Nat} (h : r ≠ n) :
    (t.landOne k n w).reg r = t.reg r ∧ flook (t.landOne k n w).pend r = flook t.pend r := by
  by_cases hd : flook t.pend n = some k
  · rw [landOne_due t k n w hd, reg_setReg, pend_setReg, if_neg h, if_neg h]
    exact ⟨rfl, rfl⟩
  · rw [landOne_not_due t k n w hd]
    exact ⟨rfl, rfl⟩

/-- Registers of a landing that still wait for its flight take their words; every other one stays as it is. -/
theorem reg_land (k : Nat) (ws : List Word) : ∀ (t : Thread) (n r : Nat),
    (t.land k n ws).reg r = if n ≤ r ∧ r < n + ws.length ∧ flook t.pend r = some k then ws.getD (r - n) 0 else t.reg r := by
  induction ws with
  | nil => intro t n r; rw [if_neg (by rw [List.length_nil]; omega)]; rfl
  | cons w ws ih =>
    intro t n r
    rw [land_cons, ih, List.length_cons]
    by_cases h : r = n
    · subst h
      rw [if_neg (by omega)]
      by_cases hd : flook t.pend r = some k
      · rw [landOne_due t k r w hd, reg_setReg, if_pos rfl, if_pos ⟨by omega, by omega, hd⟩, Nat.sub_self, List.getD_cons_zero]
      · rw [landOne_not_due t k r w hd, if_neg (fun hc => hd hc.2.2)]
    · obtain ⟨hreg, hpend⟩ := landOne_other t k n w h
      rw [hreg, hpend]
      by_cases hr : n + 1 ≤ r
      · have hlen : n ≤ r ∧ r < n + (ws.length + 1) ∧ flook t.pend r = some k ↔
            n + 1 ≤ r ∧ r < n + 1 + ws.length ∧ flook t.pend r = some k := by
          rw [show n + (ws.length + 1) = n + 1 + ws.length by omega]
          exact ⟨fun ⟨_, hb, hc⟩ => ⟨hr, hb, hc⟩, fun ⟨_, hb, hc⟩ => ⟨by omega, hb, hc⟩⟩
        simp only [hlen, show r - n = r - (n + 1) + 1 by omega, List.getD_cons_succ]
      · rw [if_neg (fun hc => hr hc.1), if_neg (by omega)]

theorem pend_land (k : Nat) (ws : List Word) : ∀ (t : Thread) (n r : Nat),
    flook (t.land k n ws).pend r =
      if n ≤ r ∧ r < n + ws.length ∧ flook t.pend r = some k then none else flook t.pend r := by
  induction ws with
  | nil => intro t n r; rw [if_neg (by rw [List.length_nil]; omega)]; rfl
  | cons w ws ih =>
    intro t n r
    rw [land_cons, ih, List.length_cons]
    by_cases h : r = n
    · subst h
      rw [if_neg (by omega)]
      by_cases hd : flook t.pend r = some k
      · rw [landOne_due t k r w hd, pend_setReg, if_pos rfl, if_pos ⟨by omega, by omega, hd⟩]
      · rw [landOne_not_due t k r w hd, if_neg (fun hc => hd hc.2.2)]
    · obtain ⟨-, hpend⟩ := landOne_other t k n w h
      rw [hpend]
      have hlen : n + 1 ≤ r ∧ r < n + 1 + ws.length ↔ n ≤ r ∧ r < n + (ws.length + 1) := by omega
      simp only [← and_assoc, hlen]

theorem SameBesideV.land {t : Thread} (k : Nat) (ws : List Word) : ∀ {u : Thread}, SameBesideV t u → ∀ n,
    SameBesideV t (u.land k n ws) := by
  induction ws with
  | nil => intro u h n; exact h
  | cons w ws ih =>
    intro u h n
    rw [land_cons]
    refine ih ?_ (n + 1)
    by_cases hd : flook u.pend n = some k
    · rw [landOne_due u k n w hd]; exact h.setReg n w
    · rw [landOne_not_due u k n w hd]; exact h

/-! ## Predicates (R227) -/

theorem pred_zero (t : Thread) : t.pred 0 = true := rfl
theorem setPred_zero (t : Thread) (b : Bool) : t.setPred 0 b = t := if_pos rfl

theorem pred_setPred (t : Thread) (p : Nat) (b : Bool) (q : Nat) (h0 : 0 < p) (hp : p < 8) (hq : q < 8) :
    (t.setPred p b).pred q = if q = p then b else t.pred q := by
  have bit : (BitVec.ofNat 8 (2 ^ p)).getLsbD q = decide (p = q) := by
    rw [BitVec.getLsbD_ofNat, Nat.testBit_two_pow, decide_eq_true hq, Bool.true_and]
  have raised : (t.p ||| BitVec.ofNat 8 (2 ^ p)).getLsbD q = (t.p.getLsbD q || decide (p = q)) := by
    rw [BitVec.getLsbD_or, bit]
  have cleared : (t.p &&& ~~~ BitVec.ofNat 8 (2 ^ p)).getLsbD q = (t.p.getLsbD q && !decide (p = q)) := by
    rw [BitVec.getLsbD_and, BitVec.getLsbD_not, bit, decide_eq_true hq, Bool.true_and]
  unfold Thread.setPred Thread.pred
  rw [if_neg (Nat.ne_of_gt h0)]
  by_cases h : q = p
  · subst h
    cases b <;> simp only [Bool.false_eq_true, if_true, if_false, raised, cleared] <;> simp [Nat.ne_of_gt h0]
  · cases b <;> simp only [Bool.false_eq_true, if_true, if_false, raised, cleared] <;> simp [h, Ne.symm h]

end Thread

end Sys2Proof.Machine

namespace Sys2Proof.Proofs
open Sys2Proof.Machine

/-- Settles O55, by induction on the bytes or words that are written. -/
theorem storageLaws : Obligations.StorageLaws := by
  unfold Obligations.StorageLaws
  refine ⟨Memory.read_write, fun m a bs => Memory.read_writeN bs m a, Memory.read_clear, devNat_devWrite,
    devWrite_read_outside, ?_, ?_, fun t b => ⟨t.pred_zero, t.setPred_zero b⟩, Thread.pred_setPred⟩
  · intro t n ws r
    exact ⟨Thread.reg_setRegs ws t n r, Thread.empty_setRegs ws t n r, (Thread.SameBesideV.refl t).setRegs ws n⟩
  · intro t k n ws r
    exact ⟨Thread.reg_land k ws t n r, Thread.pend_land k ws t n r, (Thread.SameBesideV.refl t).land k ws n⟩

end Sys2Proof.Proofs
end

