-- ==== Sys2Proof/Proofs/Privileged.lean ====
section
/-!
PROOF. CINV, XLINV, DEADM and APSET: what their bodies do where no check fails.
-/
namespace Sys2Proof.Machine

/-! ## CINV (R390) -/

theorem cinvBody_l1 {f : Full} (h : f.lo3 % 2 = 0) (s : State) (c : Ctx) :
    cinvBody f s c = { st := s.mapCore c.rd.core (fun k => { k with l1 := [] }) } := if_pos h

theorem cinvBody_page {f : Full} (h : f.lo3 % 2 = 1) {s : State} {c : Ctx} {b : Nat} {w : Post}
    (hp : cinvPage s c.ctxNo (c.rd.wpair (f.an % 64)).toNat = .ok (.bytes [b] w)) :
    cinvBody f s c = { st := cleanPage s b } := by
  unfold cinvBody
  rw [if_neg (by omega)]
  simp only [hp]

/-- Lines that leave the slice caches change nothing above their rows. -/
theorem SameAbove.cleanPage (s : State) (b : Nat) : SameAbove s (cleanPage s b) := by
  unfold Machine.cleanPage
  exact SameAbove.fold _ (fun s _ => SameAbove.fold _ (fun _ _ => SameAbove.evict ..) _ s) _ s

theorem SameAbove.bad {s t : State} (h : SameAbove s t) : t.bad = s.bad := by
  obtain ⟨p, q, z, rfl⟩ := h
  rfl

/-- A CINV of L1 lines is never held. -/
theorem semCinv_hold_l1 {f : Full} (h : f.lo3 % 2 = 0) (s : State) (w : Wave) (a : Mask) : (semCinv f).hold s w a = false := by
  simp [semCinv, h]

/-- A CINV of a page is not held where the operand log has room and no write-back of it waits (R186, R444, R446). -/
theorem semCinv_hold_page {f : Full} {s : State} {w : Wave} (hlog : logFull s w = false) (hshut : cinvShut f s w = false)
    (a : Mask) : (semCinv f).hold s w a = false := by
  simp [semCinv, hlog, hshut]

/-! ## XLINV (R391) -/

theorem xlinvBody_ok {f : Full} {s : State} {c : Ctx} (h : (c.rd.wreg (f.bn % 64)).toNat < 65536) :
    xlinvBody f s c =
      { st := waiting (.shoot s.nextId) (startShoot s (c.rd.wreg (f.bn % 64)).toNat (c.rd.wpair (f.an % 64)).toNat
          (f.lo3 % 2 == 1)).2 c
        stay := c.act } := by
  unfold xlinvBody
  simp only
  rw [if_neg (by omega)]
  rfl

theorem waiting_bad (x : Wait) (s : State) (c : Ctx) : (waiting x s c).bad = s.bad := by
  unfold waiting
  exact foldl_bad (fun t l => startWait t c.u l x) (fun _ _ => rfl) c.lanes s

/-! ## DEADM (R392) -/

theorem deadmBody_ok {f : Full} {s : State} {c : Ctx} (ha : (c.rd.wpair (f.an % 64)).toNat % 2 ^ 21 = 0)
    (hn : (c.rd.wpair (f.an % 64)).toNat + (c.rd.wreg (f.bn % 64)).toNat * 2 ^ 21 ≤ deviceBytes) :
    deadmBody f s c = { st := makeDead s (c.rd.wpair (f.an % 64)).toNat ((c.rd.wreg (f.bn % 64)).toNat * 2 ^ 21) } := by
  unfold deadmBody
  simp only
  rw [if_neg (fun h => h ha), if_neg (by omega)]

/-- A DEADM of a wave without queued stores is not held. -/
theorem semDeadm_hold (f : Full) (s : State) {w : Wave} (h : w.cnt.stq = 0) (a : Mask) : (semDeadm f).hold s w a = false := by
  simp [semDeadm, h]

/-! ## APSET (R393, R438) -/

/-- A mask of the low `k` bits keeps the low `k` bits. -/
theorem and_lowBits (x : DWord) (k : Nat) : x &&& (BitVec.allOnes k).setWidth 64 = (x.extractLsb' 0 k).setWidth 64 := by
  ext i hi
  simp only [BitVec.getElem_and, BitVec.getElem_setWidth, BitVec.getLsbD_allOnes, BitVec.getLsbD_extractLsb', Nat.zero_add]
  rw [BitVec.getLsbD_eq_getElem hi, Bool.and_comm]

theorem apWritten_eq (n : Nat) (x : DWord) :
    apWritten n x = if n = 0 then x &&& ~~~ 0xFFFFFFFF else if n = 2 then (x.extractLsb' 0 52).setWidth 64
      else if n = 3 then (x.extractLsb' 0 48).setWidth 64 else x := by
  match n with
  | 0 => rfl
  | 1 => rfl
  | 2 => exact and_lowBits x 52
  | 3 => exact and_lowBits x 48
  | k + 4 => rw [if_neg (by omega), if_neg (by omega), if_neg (by omega)]; rfl

theorem apsetBody_ok {f : Full} {s : State} {c : Ctx} {n : Nat} (hn : (c.rd.wreg (f.dn % 64)).toNat = n) (h : n < 128) :
    apsetBody f s c = { st := { s with
      apertures := fset 0 s.apertures (n / 16 % 2 * 64 + n % 16 * 4 + n / 32)
        (apWritten (n / 32) (BitVec.ofNat 64 ((c.rd.thread ((lowest c.act).getD 0)).val f.an 2))) } } := by
  have hl : (lowest c.act).getD 0 = c.lanes.headD 0 := List.headD_eq_head?_getD.symm
  unfold apsetBody
  simp only [hn]
  rw [if_neg (by omega), hl]

end Sys2Proof.Machine

namespace Sys2Proof.Proofs
open Sys2Proof.Machine

/-- Settles O41: each word is its body, and its body is what the statement says where no check fails. -/
theorem privilegedResults : Obligations.PrivilegedResults := by
  unfold Obligations.PrivilegedResults
  intro f
  refine ⟨fun h => ?_, fun h b w => ?_, ?_, ?_, ?_⟩
  · exact soloWord_of (m := semCinv f) (fun _ => rfl) (fun _ _ _ => rfl) (fun _ _ may => may)
      (fun s c _ => semCinv_hold_l1 h s c.rd c.act) (fun _ _ _ => rfl) (fun _ _ _ => rfl)
      (fun s c _ _ _ _ _ => cinvBody_l1 h s c) (fun _ _ _ hb => hb)
  · exact soloWord_of (m := semCinv f) (fun _ => rfl) (fun _ _ _ => rfl) (fun _ _ ⟨may, _⟩ => may)
      (fun _ c ⟨_, hlog, hshut, _⟩ => semCinv_hold_page hlog hshut c.act) (fun _ _ _ => rfl) (fun _ _ _ => rfl)
      (fun _ _ ⟨_, _, _, hpage⟩ _ _ _ _ => cinvBody_page h hpage)
      (fun s _ _ hb => (SameAbove.cleanPage s b).bad.trans hb)
  · exact soloWord_of (m := semXlinv f) (fun _ => rfl) (fun _ _ _ => rfl) (fun _ _ ⟨may, _⟩ => may)
      (fun _ _ _ => rfl) (fun _ _ _ => rfl) (fun _ _ _ => rfl)
      (fun _ _ ⟨_, hctx⟩ _ _ _ _ => xlinvBody_ok hctx) (fun _ c _ hb => (waiting_bad _ _ c).trans hb)
  · exact soloWord_of (m := semDeadm f) (fun _ => rfl) (fun _ _ _ => rfl) (fun _ _ ⟨may, _⟩ => may)
      (fun s c ⟨_, hstq, _⟩ => semDeadm_hold f s hstq c.act) (fun _ _ _ => rfl) (fun _ _ _ => rfl)
      (fun _ _ ⟨_, _, ha, hn⟩ _ _ _ _ => deadmBody_ok ha hn) (fun _ _ _ hb => hb)
  · refine waveWord_of (m := semApset f) (fun _ => rfl) (fun _ _ _ => rfl) (fun _ _ _ _ ⟨may, _⟩ => may)
      (fun _ _ _ _ _ => rfl) (fun _ _ _ _ _ => rfl) (fun _ _ _ _ _ => rfl) ?_ (fun _ _ _ hb => hb)
    rintro s c ⟨-, hv⟩ - - - -
    refine ⟨_, apsetBody_ok rfl hv, rfl, rfl, rfl, rfl, ?_, fun _ => rfl⟩
    simp only [apWritten_eq]

end Sys2Proof.Proofs
end

