-- ==== Sys2Proof/Proofs/Regions.lean ====
section
/-!
PROOF. What a region's steps do: the monitor, the move of a parcel and the driver's write of a descriptor.
-/
namespace Sys2Proof.Machine

/-- A step that is a function of the state has the effect to which that function comes. -/
theorem happens_of {ins : Instr} {ok : State → Prop} {eff : State → State} (g : State → State)
    (hex : ∀ s, exec ins s = finish (g s)) (h : ∀ s, ok s → g s = eff s) : Happens ins ok eff := by
  intro s hk hb
  rw [hex, h s hk]
  exact finish_next _ hb

section
variable {ok : State → Prop} {eff : State → State}

theorem happens_monitorSignature {k : Nat} (h : ∀ s, ok s → monitorSignature k s = eff s) :
    Happens (.monitorSignature k) ok eff := happens_of _ (fun _ => rfl) h
theorem happens_parcelStaged {comp idx : Nat} (h : ∀ s, ok s → parcelStaged comp idx s = eff s) :
    Happens (.parcelStaged comp idx) ok eff := happens_of _ (fun _ => rfl) h
theorem happens_parcelWriteout {comp idx n : Nat} (h : ∀ s, ok s → parcelWriteout comp idx n s = eff s) :
    Happens (.parcelWriteout comp idx n) ok eff := happens_of _ (fun _ => rfl) h
theorem happens_parcelNew {comp idx : Nat} (h : ∀ s, ok s → parcelNew comp idx s = eff s) :
    Happens (.parcelNew comp idx) ok eff := happens_of _ (fun _ => rfl) h
theorem happens_descriptorWrite {comp idx : Nat} {x : Desc} (h : ∀ s, ok s → descriptorWrite comp idx x s = eff s) :
    Happens (.descriptorWrite comp idx x) ok eff := happens_of _ (fun _ => rfl) h

end

/-! ## The monitor (R118) -/

/-- What a signature does to its region once ECNT has counted it. -/
def markSig (d : Desc) (r : Region) (sig : Option Nat) : Desc × Region :=
  match sig with
  | none => (d, r)
  | some k =>
    if dMvb d then (d, r)
    else
      let r := { r with cnt := fset 0 r.cnt k (fget 0 r.cnt k + 1), n := r.n + 1 }
      if r.n < 64 then (d, r) else (if isSteppe d then d else propose d r.cnt, r.clearWindow)

theorem monitorStep_within {d : Desc} (h : dEcnt d ≠ 65535) (r : Region) (sig : Option Nat) :
    monitorStep d r sig = markSig (dSet d 432 16 (dEcnt d + 1)) r sig := by
  have lt : dEcnt d < 65536 := (d.extractLsb' 432 16).isLt
  have e : (dEcnt d + 1) % 65536 = dEcnt d + 1 := Nat.mod_eq_of_lt (by omega)
  unfold monitorStep
  simp only [e, if_neg (Nat.succ_ne_zero (dEcnt d))]
  cases sig <;> rfl

/-- The signature that ends an epoch clears RCNT, CONT and the window first. -/
theorem monitorStep_wraps {d : Desc} (h : dEcnt d = 65535) (r : Region) (sig : Option Nat) :
    monitorStep d r sig = markSig (dSet (dSet (dSet d 432 16 0) 356 2 0) 358 1 0) r.clearWindow sig := by
  unfold monitorStep
  simp only [h, Nat.reduceAdd, Nat.mod_self, if_true]
  cases sig <;> rfl

theorem markSig_ignored {d : Desc} {sig : Option Nat} (h : sig = none ∨ dMvb d = true) (r : Region) :
    markSig d r sig = (d, r) := by
  cases sig with
  | none => rfl
  | some k => exact if_pos (h.resolve_left (Option.some_ne_none k))

theorem markSig_counted {d : Desc} {r : Region} (hd : dMvb d = false) (hn : r.n + 1 < 64) (k : Nat) :
    markSig d r (some k) = (d, { r with cnt := fset 0 r.cnt k (fget 0 r.cnt k + 1), n := r.n + 1 }) := by
  unfold markSig
  simp only [hd, Bool.false_eq_true, if_false, if_pos hn]

theorem markSig_full {d : Desc} {r : Region} (hd : dMvb d = false) (hn : r.n = 63) (hs : isSteppe d = false) (k : Nat) :
    markSig d r (some k) = (propose d (fset 0 r.cnt k (fget 0 r.cnt k + 1)), r.clearWindow) := by
  unfold markSig
  simp only [hd, hn, hs, Bool.false_eq_true, if_false, Nat.reduceAdd, Nat.lt_irrefl]
  rfl

/-- A signature that arrives at a valid region leaves there what one step of the monitor answers. -/
theorem monitorSignature_step {s : State} {k : Nat} {m : SigMsg} {d : Desc} {e : Desc} {r : Region} (hm : s.sigs[k]? = some m)
    (hd : validDesc s m.comp m.idx = some d) (h : monitorStep d (s.region m.comp m.idx) m.sig = (e, r)) :
    monitorSignature k s =
      (putDesc { s with sigs := s.sigs.eraseIdx k } m.comp m.idx e).mapRegion m.comp m.idx (fun _ => r) := by
  have hv : validDesc { s with sigs := s.sigs.eraseIdx k } m.comp m.idx = some d := hd
  have hs : monitorStep d (State.region { s with sigs := s.sigs.eraseIdx k } m.comp m.idx) m.sig = (e, r) := h
  unfold monitorSignature
  simp only [hm, hv, hs]

/-! ## Re-tiling (R119 to R121, R125) -/

theorem parcelStaged_moves {s : State} {comp idx : Nat} {d : Desc} (hd : validDesc s comp idx = some d)
    (hmvb : dMvb d = true) (hmov : (s.region comp idx).moving = false) (hawake : asleep s d = false)
    (hopen : parcelShut s d (dMvp d) = false) (hfree : ∀ z ∈ parcelSlices d (dMvp d), z ∉ stagingSlices s) :
    parcelStaged comp idx s =
      (let t := stageLines s d (dMvp d)
       let oldAt (n : Nat) : List Nat := rangeFrom (parcelAddr d (dPrior d) (dMvp d) n) (dEs d)
       (noteWrite t none (fun _ => true) ((parcelElems d (dMvp d)).map oldAt).flatten).mapRegion comp idx (fun r =>
        { r with
          moving := true, written := []
          staged := (parcelElems d (dMvp d)).foldl (fun m n => fput m n
            (t.mem.readN (parcelAddr d (dPrior d) (dMvp d) n) (dEs d))) []
          poisoned := (parcelElems d (dMvp d)).foldl (fun m n => fset .clean m n (readMark t (oldAt n))) [] })) := by
  have hany : (parcelSlices d (dMvp d)).any (stagingSlices s).contains = false := by
    rw [List.any_eq_false]
    intro z hz
    simpa using hfree z hz
  unfold parcelStaged
  simp only [hd, hmvb, hmov, hawake, hopen, hany, Bool.not_true, Bool.or_self, Bool.false_eq_true, if_false]

theorem parcelWriteout_element {s : State} {comp idx n : Nat} {d : Desc} (hd : validDesc s comp idx = some d)
    (hawake : asleep s d = false) (hmov : (s.region comp idx).moving = true) (hin : elemIn d (dMvp d) n = true)
    (hn : n < dPh d * dPw d) (hnew : n ∉ (s.region comp idx).written)
    (hlines : (linesOf (rangeFrom (parcelAddr d (dOrder d) (dMvp d) n) (dEs d))).any (lineAsleep s
      ⟨some (granuleSlice d ((parcelAddr d (dOrder d) (dMvp d) n - dPbase d) / 1024)), sealOf s d⟩) = false) :
    parcelWriteout comp idx n s =
      (let newAt := rangeFrom (parcelAddr d (dOrder d) (dMvp d) n) (dEs d)
       let home : Home := ⟨some (granuleSlice d ((parcelAddr d (dOrder d) (dMvp d) n - dPbase d) / 1024)), sealOf s d⟩
       (markBytes (writeAddrs (useLines s true home newAt) newAt
          (fget (List.replicate (dEs d) 0) (s.region comp idx).staged n)) newAt
          (fget .clean (s.region comp idx).poisoned n)).mapRegion comp idx (fun r => { r with written := r.written ++ [n] })) := by
  have hcont : (s.region comp idx).written.contains n = false := by simpa using hnew
  have hlt : decide (n ≥ dPh d * dPw d) = false := decide_eq_false (Nat.not_le.2 hn)
  unfold parcelWriteout
  simp only [hd, hmov, hin, hlt, hcont, hawake, hlines, Bool.not_true, Bool.or_self, Bool.false_eq_true, if_false]

/-- A parcel all of whose elements are written gives its staged bytes up (R121). -/
def parcelSettled (comp idx : Nat) (d : Desc) (s : State) : State :=
  (pinLines s d (dMvp d) false).mapRegion comp idx (fun r => { r with moving := false, staged := [], poisoned := [], written := [] })

section
variable {s : State} {comp idx : Nat} {d : Desc} (hd : validDesc s comp idx = some d) (hawake : asleep s d = false)
  (hmov : (s.region comp idx).moving = true) (hall : ∀ n ∈ parcelElems d (dMvp d), n ∈ (s.region comp idx).written)
include hd hawake hmov hall

theorem parcelNew_next (hp : dMvp d + 1 < parcelCount d) :
    parcelNew comp idx s = putDesc (parcelSettled comp idx d s) comp idx (dSet d 322 24 (dMvp d + 1)) := by
  have hw : (parcelElems d (dMvp d)).all (s.region comp idx).written.contains = true := by
    simpa [List.all_eq_true] using hall
  unfold parcelNew
  simp only [hd, hmov, hw, hawake, Bool.not_true, Bool.or_self, Bool.false_eq_true, if_false, if_pos hp]
  rfl

theorem parcelNew_last (hp : parcelCount d = dMvp d + 1)
    (hadv : dAdvv (dSet (dSet d 355 1 0) 322 24 (dMvp d + 1)) = false) :
    parcelNew comp idx s = (putDesc (parcelSettled comp idx d s) comp idx
      (dSet (dSet d 355 1 0) 322 24 (dMvp d + 1))).mapRegion comp idx Region.clearWindow := by
  have hw : (parcelElems d (dMvp d)).all (s.region comp idx).written.contains = true := by
    simpa [List.all_eq_true] using hall
  have hlast : ¬ dMvp d + 1 < parcelCount d := by omega
  unfold parcelNew
  simp only [hd, hmov, hw, hawake, Bool.not_true, Bool.or_self, Bool.false_eq_true, if_false, if_neg hlast, hadv]
  rfl

end

/-! ## What a written descriptor holds (R8, R108, R114) -/

/-- The driver's word with the device's fields of the entry before it. -/
def keepHeld (x o : Desc) : Desc := (x &&& ~~~ dHeld) ||| (o &&& dHeld)

theorem keepHeld_bit (x o : Desc) {n : Nat} (hn : n < 512) (h : dHeld.getLsbD n = false) :
    (keepHeld x o).getLsbD n = x.getLsbD n := by
  unfold keepHeld
  rw [BitVec.getLsbD_or, BitVec.getLsbD_and, BitVec.getLsbD_and, BitVec.getLsbD_not, h, decide_eq_true hn]
  simp only [Bool.not_false, Bool.and_true, Bool.and_false, Bool.or_false]

/-- VALID and CLASS are the driver's. -/
theorem keepHeld_valid (x o : Desc) : dValid (keepHeld x o) = dValid x := keepHeld_bit x o (by omega) (by decide +kernel)

theorem keepHeld_steppe (x o : Desc) : isSteppe (keepHeld x o) = isSteppe x := by
  have h : (keepHeld x o).extractLsb' 62 2 = x.extractLsb' 62 2 := by
    apply BitVec.eq_of_getLsbD_eq
    intro i hi
    have hclear : dHeld.getLsbD (62 + i) = false := by
      obtain rfl | rfl : i = 0 ∨ i = 1 := by omega
      · decide +kernel
      · decide +kernel
    rw [BitVec.getLsbD_extractLsb', BitVec.getLsbD_extractLsb', keepHeld_bit x o (by omega) hclear]
  unfold isSteppe dClass dn
  rw [h]

/-- A Steppe descriptor as an entry that was not valid takes it: ORDER 0x00, PIN 1 and lap 0. -/
def steppeFresh (x : Desc) : Desc := dSet (dSet (dSet x 368 8 0) 359 1 1) 384 32 0

theorem dWritten_fresh {s : State} {comp idx : Nat} {x : Desc} (h : validDesc s comp idx = none)
    (hx : isSteppe x = false) : dWritten s comp idx x = x := by
  unfold dWritten
  simp only [h, Option.isSome_none, Bool.false_eq_true, if_false, hx, Bool.and_false]

theorem dWritten_steppe {s : State} {comp idx : Nat} {x : Desc} (h : validDesc s comp idx = none) (hv : dValid x = true)
    (hx : isSteppe x = true) : dWritten s comp idx x = steppeFresh x := by
  unfold dWritten
  simp only [h, Option.isSome_none, Bool.false_eq_true, if_false, hv, hx, Bool.and_self, if_true]
  rfl

theorem dWritten_over {s : State} {comp idx : Nat} {x o : Desc} (h : validDesc s comp idx = some o)
    (hx : (dValid x && isSteppe x) = false) : dWritten s comp idx x = keepHeld x (descOf s comp idx) := by
  have hk : (dValid (keepHeld x (descOf s comp idx)) && isSteppe (keepHeld x (descOf s comp idx))) = false := by
    rw [keepHeld_valid, keepHeld_steppe, hx]
  unfold keepHeld at hk
  unfold dWritten
  simp only [h, Option.isSome_some, if_true, hk, Bool.false_eq_true, if_false]
  rfl

/-- A write that clears VALID leaves an entry with VALID 0. -/
theorem dWritten_clears {s : State} {comp idx : Nat} {x o : Desc} (h : validDesc s comp idx = some o)
    (hx : dValid x = false) : dValid (dWritten s comp idx x) = false := by
  rw [dWritten_over h (by rw [hx]; rfl), keepHeld_valid, hx]

/-! ## Descriptor writes (R109, R414, R416, R426) -/

/-- A descriptor that the device takes as valid: R109, and the rows of a Steppe region fit (R414). -/
def accepted (s : State) (comp idx : Nat) (d : Desc) : Bool :=
  dValid d && descOk d && (!isSteppe d || rowsFit s comp idx d)

theorem accepted_plain {s : State} {comp idx : Nat} {d : Desc} (hv : dValid d = true) (hok : descOk d = true)
    (hs : isSteppe d = false) : accepted s comp idx d = true := by
  simp [accepted, hv, hok, hs]

theorem accepted_steppe {s : State} {comp idx : Nat} {d : Desc} (hv : dValid d = true) (hok : descOk d = true)
    (hr : rowsFit s comp idx d = true) : accepted s comp idx d = true := by
  simp [accepted, hv, hok, hr]

theorem not_accepted {s : State} {comp idx : Nat} {d : Desc}
    (h : descOk d = false ∨ isSteppe d = true ∧ rowsFit s comp idx d = false) : accepted s comp idx d = false := by
  obtain hok | ⟨hs, hr⟩ := h
  · simp [accepted, hok]
  · simp [accepted, hs, hr]

/-- An entry that the driver may write: its region does not close any more (R426). -/
def Writable (s : State) (comp idx : Nat) : Prop := (s.region comp idx).old = none ∧ idx < (bufTable s comp).2

section
variable {s : State} {comp idx : Nat} {x : Desc} (hw : Writable s comp idx)
include hw

/-- The guard of a descriptor write is open. -/
theorem Writable.guard : ((s.region comp idx).old.isSome || decide (idx ≥ (bufTable s comp).2)) = false := by
  obtain ⟨hold, hidx⟩ := hw
  simpa [hold] using hidx

theorem descriptorWrite_opens (hn : validDesc s comp idx = none) (ha : accepted s comp idx (dWritten s comp idx x) = true) :
    descriptorWrite comp idx x s =
      (putDesc s comp idx (dWritten s comp idx x)).mapRegion comp idx (fun _ => Region.opened (dWritten s comp idx x)) := by
  have hg := hw.guard
  unfold accepted at ha
  unfold descriptorWrite
  simp only [hg, ha, hn, Bool.false_eq_true, if_false, if_true]

/-- Where the region stays of its kind, and a Steppe one keeps its rows, it goes on as it was. -/
theorem descriptorWrite_keeps {o : Desc} (ho : validDesc s comp idx = some o)
    (ha : accepted s comp idx (dWritten s comp idx x) = true) (hk : isSteppe o = isSteppe (dWritten s comp idx x))
    (hr : isSteppe o = true → sameRows o (dWritten s comp idx x) = true) :
    descriptorWrite comp idx x s =
      (putDesc s comp idx (dWritten s comp idx x)).mapRegion comp idx (fun r => { r with refused := false }) := by
  have hg := hw.guard
  have hkind : (isSteppe o == isSteppe (dWritten s comp idx x)) = true := beq_iff_eq.2 hk
  have hlay : (isSteppe (dWritten s comp idx x) && isSteppe o && !sameRows o (dWritten s comp idx x)) = false := by
    cases hs : isSteppe o with
    | false => simp
    | true => simp [hr hs]
  unfold accepted at ha
  unfold descriptorWrite
  simp only [hg, ha, ho, hlay, hkind, Bool.false_eq_true, if_false, if_true]

theorem descriptorWrite_closes (ha : accepted s comp idx (dWritten s comp idx x) = false) :
    descriptorWrite comp idx x s =
      closeRegion (putDesc s comp idx (dWritten s comp idx x)) comp idx (validDesc s comp idx)
        (dValid (dWritten s comp idx x)) := by
  have hg := hw.guard
  unfold accepted at ha
  unfold descriptorWrite
  simp only [hg, ha, Bool.false_eq_true, if_false]

/-- A write that clears VALID closes the region. -/
theorem descriptorWrite_clears {o : Desc} (ho : validDesc s comp idx = some o) (hx : dValid x = false) :
    descriptorWrite comp idx x s = closeRegion (putDesc s comp idx (dWritten s comp idx x)) comp idx (some o) false := by
  have hv := dWritten_clears ho hx
  rw [descriptorWrite_closes hw (by simp [accepted, hv]), ho, hv]

end

/-- A region without laps and without a move is gone at once. -/
theorem closeRegion_quiet {old : Option Desc} (h : ∀ o, old = some o → isSteppe o = false ∧ dMvb o = false) (s : State)
    (comp idx : Nat) (b : Bool) :
    closeRegion s comp idx old b = s.mapRegion comp idx (fun _ => { Region.fresh with refused := b }) := by
  cases old with
  | none => rfl
  | some o =>
    obtain ⟨hs, hm⟩ := h o rfl
    unfold closeRegion
    simp only [hs, hm, Bool.false_eq_true, if_false]

/-- A move that stops leaves the buffer undefined (R122). -/
theorem closeRegion_moving {o : Desc} (hs : isSteppe o = false) (hm : dMvb o = true) (s : State) (comp idx : Nat) (b : Bool) :
    closeRegion s comp idx (some o) b =
      scramble (s.mapRegion comp idx (fun _ => { Region.fresh with refused := b })) o := by
  unfold closeRegion
  simp only [hs, hm, Bool.false_eq_true, if_false, if_true]

/-- The slices of a Steppe region go to CLOSE (R426). -/
theorem closeRegion_steppe {o : Desc} (hs : isSteppe o = true) (s : State) (comp idx : Nat) (b : Bool) :
    closeRegion s comp idx (some o) b = releaseRows (s.mapRegion comp idx (fun r =>
      { r with old := some o, refused := b, laps := r.laps.map (fun e => (e.1, { e.2 with closing := true })) })) comp idx := by
  unfold closeRegion
  simp only [hs, if_true]

theorem opened_plain {d : Desc} (h : isSteppe d = false) : Region.opened d = Region.fresh := by
  unfold Region.opened lapsAt
  simp only [h, Bool.false_eq_true, if_false]
  rfl

theorem opened_steppe {d : Desc} (h : isSteppe d = true) :
    Region.opened d = { Region.fresh with laps := (regionSlices d).foldl (fun m n => fput m n ⟨0, .sweep, 0, [], false⟩) [] } := by
  unfold Region.opened lapsAt
  simp only [h, if_true]
  rfl

end Sys2Proof.Machine

namespace Sys2Proof.Proofs
open Sys2Proof.Machine

/-- Settles O48: each step of a region is a function of the state, and the rules above say to what it comes in each case. -/
theorem regionEvents : Obligations.RegionEvents := by
  unfold Obligations.RegionEvents
  intro k comp idx n dim m d x r arrives message taken counts moves oldAt newAt
  refine ⟨?_, ?_, ?_, ⟨?_, ?_⟩, ?_, fun bs => ?_, ⟨?_, ?_⟩, ?_⟩
  -- the monitor, within an epoch and at its end
  · refine happens_monitorSignature ?_
    rintro s ⟨⟨⟨hm, rfl, rfl, hd⟩, hecnt⟩, hsig⟩
    exact monitorSignature_step hm hd ((monitorStep_within hecnt _ _).trans (markSig_ignored hsig _))
  · refine happens_monitorSignature ?_
    rintro s ⟨⟨⟨hm, rfl, rfl, hd⟩, hecnt⟩, hsig, hmvb, hn⟩
    exact monitorSignature_step hm hd (by rw [monitorStep_within hecnt, hsig]; exact markSig_counted hmvb hn dim)
  · refine happens_monitorSignature ?_
    rintro s ⟨⟨⟨hm, rfl, rfl, hd⟩, hecnt⟩, hsig, hmvb, hn, hst⟩
    exact monitorSignature_step hm hd (by rw [monitorStep_within hecnt, hsig]; exact markSig_full hmvb hn hst dim)
  · refine happens_monitorSignature ?_
    rintro s ⟨⟨hm, rfl, rfl, hd⟩, hecnt, hsig⟩
    exact monitorSignature_step hm hd ((monitorStep_wraps hecnt _ _).trans (markSig_ignored hsig _))
  · refine happens_monitorSignature ?_
    rintro s ⟨⟨hm, rfl, rfl, hd⟩, hecnt, hsig, hmvb⟩
    exact monitorSignature_step hm hd (by
      rw [monitorStep_wraps hecnt, hsig]; exact markSig_counted hmvb (by decide : 0 + 1 < 64) dim)
  -- the move of a parcel
  · refine happens_parcelStaged ?_
    rintro s ⟨⟨hd, hmvb, hawake⟩, hmov, hopen, hfree⟩
    exact parcelStaged_moves hd hmvb hmov hawake hopen hfree
  · refine happens_parcelWriteout ?_
    rintro s ⟨⟨hd, -, hawake⟩, hmov, hin, hn, hnew, hlines, rfl⟩
    exact parcelWriteout_element hd hawake hmov hin hn hnew hlines
  · refine happens_parcelNew ?_
    rintro s ⟨⟨⟨hd, -, hawake⟩, hmov, hall⟩, hp⟩
    exact parcelNew_next hd hawake hmov hall hp
  · refine happens_parcelNew ?_
    rintro s ⟨⟨⟨hd, -, hawake⟩, hmov, hall⟩, hp, hadv⟩
    exact parcelNew_last hd hawake hmov hall hp hadv
  -- the driver's writes
  intro writable y z quiet
  refine ⟨?_, ?_, ?_, ?_, ?_, ?_, ?_, ?_⟩ <;> apply happens_descriptorWrite
  · rintro s ⟨hw, hq, hv, hbad⟩
    rw [descriptorWrite_closes hw (not_accepted hbad), closeRegion_quiet hq, hv]
  · rintro s ⟨hw, -, hx, hd, hsd, hv, hok, hsy⟩
    have hy : dWritten s comp idx x = keepHeld x (descOf s comp idx) := dWritten_over hd (by rw [hx, Bool.and_false])
    rw [descriptorWrite_keeps hw hd (accepted_plain hv hok hsy) (hsd.trans hsy.symm) (by rw [hsd]; intro h; cases h), hy]
    rfl
  · rintro s ⟨hw, hv, hok, hx, hn⟩
    have hy := dWritten_fresh hn hx
    rw [descriptorWrite_opens hw hn (by rw [hy]; exact accepted_plain hv hok hx), hy, opened_plain hx]
  · rintro s ⟨hw, hv, hx, hvz, hsz, hok, hr, hn⟩
    have hy : dWritten s comp idx x = z := dWritten_steppe hn hv hx
    rw [descriptorWrite_opens hw hn (by rw [hy]; exact accepted_steppe hvz hok hr), hy, opened_steppe hsz]
  · rintro s ⟨hw, -, -, hd, hsd, hv, hsy, hok, hr, hrows⟩
    exact descriptorWrite_keeps hw hd (accepted_steppe hv hok hr) (hsd.trans hsy.symm) (fun _ => hrows)
  · rintro s ⟨hw, hx, hd, hs, hm⟩
    rw [descriptorWrite_clears hw hd hx, closeRegion_quiet (by rintro o ⟨rfl⟩; exact ⟨hs, hm⟩)]
    rfl
  · rintro s ⟨hw, hx, hd, hs, hm⟩
    rw [descriptorWrite_clears hw hd hx, closeRegion_moving hs hm]
    rfl
  · rintro s ⟨hw, hx, hd, hs⟩
    rw [descriptorWrite_clears hw hd hx, closeRegion_steppe hs]

end Sys2Proof.Proofs
end

