-- ==== Sys2Proof/Proofs/Acquisition.lean ====
section
/-!
PROOF. Register acquisition: what XGET, its predicate form and XREL do within the quota.
-/
namespace Sys2Proof.Machine

/-- The request of `w` for `n` registers stays within the quota of its team (R66). -/
def WithinQuota (s : State) (w : Wave) (n : Nat) : Prop :=
  w.top + n ≤ 2048 ∧ ∃ t, s.team? w.team = some t ∧ w.ext + n ≤ t.desc.maxe

theorem overQuota_within {s : State} {w : Wave} {n : Nat} (h : WithinQuota s w n) : overQuota s w n = false := by
  obtain ⟨htop, t, ht, hext⟩ := h
  unfold overQuota
  rw [ht, Bool.or_eq_false_iff]
  exact ⟨decide_eq_false (Nat.not_lt.2 htop), decide_eq_false (Nat.not_lt.2 hext)⟩

/-- The registers are free and no earlier request whose lanes overlap waits (R66, R74). -/
def grantRoom (s : State) (w : Wave) (n : Nat) : Bool :=
  regsFree s w.qn w.lane w.width n && !heldBack s w (s.quad w.qn).xq

/-- A word of register acquisition has no operand and no check of its own: it is its body (R317). -/
theorem acquisitionWord_of {ins : Instr} {f : Full} {body : State → Ctx → Res} {ok : State → Ctx → Prop}
    {eff : State → Ctx → State} {stay : Ctx → Mask}
    (hex : ∀ s, exec ins s = execX { Sem.plain f with forbid := fun _ => true, body := body } s)
    (hbody : ∀ s c, ok s c → s.wave? c.u = some c.rd → body s c = { st := eff s c, stay := stay c })
    (hbad : ∀ s c, (eff s c).bad = s.bad) : SoloWord ins f.grd ok eff stay :=
  soloWord_of hex (fun _ _ _ => rfl) (fun _ _ _ => rfl) (fun _ _ _ => rfl) (fun _ _ _ => rfl) (fun _ _ _ => rfl)
    (fun s c hk _ hw _ _ => hbody s c hk hw) (fun s c _ hb => (hbad s c).trans hb)

section
variable {f : Full} {s : State} {c : Ctx} (hw : s.wave? c.u = some c.rd)
include hw

theorem xgetBody_grants (hq : WithinQuota s c.rd f.imm16.toNat) (hr : grantRoom s c.rd f.imm16.toNat = true) :
    xgetBody f s c = { st := markGrant (s.mapWave c.u (fun w => grantRegs w f.imm16.toNat)) c.rd } := by
  unfold grantRoom at hr
  unfold xgetBody
  simp only [hw, overQuota_within hq, hr, Bool.false_eq_true, if_false, if_true]

theorem xgetBody_waits (hq : WithinQuota s c.rd f.imm16.toNat) (hr : grantRoom s c.rd f.imm16.toNat = false) :
    xgetBody f s c =
      { st := c.lanes.foldl (fun t l => startWait t c.u l (.xget s.nextId))
          ({ s with nextId := s.nextId + 1 }.mapQuad c.rd.qn (fun q => { q with xq := q.xq ++ [(s.nextId, c.u, f.imm16.toNat)] }))
        stay := c.act } := by
  unfold grantRoom at hr
  unfold xgetBody
  simp only [hw, overQuota_within hq, hr, Bool.false_eq_true, if_false]
  rfl

theorem xgetPBody_answers (hq : WithinQuota s c.rd f.imm16.toNat) :
    xgetPBody f s c =
      { st := (if grantRoom s c.rd f.imm16.toNat then markGrant (s.mapWave c.u (fun w => grantRegs w f.imm16.toNat)) c.rd
          else s).mapWave c.u (fun w => w.mapLanes c.act (fun _ t => t.setPred f.dn (grantRoom s c.rd f.imm16.toNat))) } := by
  unfold xgetPBody
  simp only [hw, overQuota_within hq, Bool.false_eq_true, if_false]
  rfl

theorem xrelBody_releases (h : f.imm16.toNat ≤ c.rd.ext) : xrelBody f s c = { st := releaseRegs s c.u f.imm16.toNat } := by
  unfold xrelBody
  simp only [hw, if_neg (Nat.not_lt.2 h)]

end

/-! ## No address is reached -/

theorem markGrant_bad (s : State) (w : Wave) : (markGrant s w).bad = s.bad := by
  unfold markGrant
  split
  · rfl
  · rfl

theorem startWaits_bad (u : Nat) (x : Wait) (ls : List Nat) (s : State) :
    (ls.foldl (fun t l => startWait t u l x) s).bad = s.bad :=
  foldl_bad (fun t l => startWait t u l x) (fun _ _ => rfl) ls s

theorem releaseRegs_bad (s : State) (u n : Nat) : (releaseRegs s u n).bad = s.bad := by
  unfold releaseRegs
  split
  · rfl
  · rfl

end Sys2Proof.Machine

namespace Sys2Proof.Proofs
open Sys2Proof.Machine

/-- Settles O14: each word is its body, and its body within the quota is a grant, a wait or a release. -/
theorem acquisitionResults : Obligations.AcquisitionResults := by
  unfold Obligations.AcquisitionResults
  intro f n within room
  refine ⟨acquisitionWord_of (body := xgetBody f) (fun _ => rfl) (fun _ _ ⟨hq, hr⟩ hw => xgetBody_grants hw hq hr) ?_,
    acquisitionWord_of (body := xgetBody f) (fun _ => rfl) (fun _ _ ⟨hq, hr⟩ hw => xgetBody_waits hw hq hr) ?_,
    acquisitionWord_of (body := xgetPBody f) (fun _ => rfl) (fun _ _ hq hw => xgetPBody_answers hw hq) ?_,
    acquisitionWord_of (body := xrelBody f) (fun _ => rfl) (fun _ _ h hw => xrelBody_releases hw h) ?_⟩
  · intro s c
    exact markGrant_bad _ _
  · intro s c
    exact startWaits_bad _ _ _ _
  · intro s c
    rw [State.mapWave_bad]
    cases room s c with
    | true => exact markGrant_bad _ _
    | false => rfl
  · intro s c
    exact releaseRegs_bad _ _ _

end Sys2Proof.Proofs
end

