-- ==== Sys2Proof/Proofs/Quadrants.lean ====
section
/-!
PROOF. Moves between the active and the pending set, and the grant of a waiting XGET.
-/
namespace Sys2Proof.Machine

/-! ## Two updates of one quadrant -/

theorem fdel_fdel {β : Type} (m : FMap β) (k : Nat) : fdel (fdel m k) k = fdel m k := by
  unfold fdel
  rw [List.filter_filter]
  simp only [Bool.and_self]

/-- Of two writes to one key the later one stays. -/
theorem fput_fput {β : Type} (m : FMap β) (k : Nat) (v w : β) : fput (fput m k v) k w = fput m k w := by
  induction m with
  | nil => simp [fput]
  | cons e m ih =>
    obtain ⟨j, u⟩ := e
    by_cases hj : j = k
    · simp only [fput, if_pos hj, ih]
    · by_cases hk : k < j
      · simp only [fput, if_neg hj, if_pos hk, if_true, fdel_cons, fdel_fdel]
      · simp only [fput, if_neg hj, if_neg hk, ih]

theorem mapQuad_mapQuad (s : State) (n : Nat) (f g : Quad → Quad) :
    (s.mapQuad n f).mapQuad n g = s.mapQuad n (fun q => g (f q)) := by
  show ({ s with quads := fput (fput s.quads n _) n _ } : State) = _
  rw [fput_fput, State.mapQuad_quad, if_pos rfl]
  rfl

/-- An update is what it does to the quadrant as it stands. -/
theorem mapQuad_congr {s : State} {n : Nat} {f g : Quad → Quad} (h : f (s.quad n) = g (s.quad n)) :
    s.mapQuad n f = s.mapQuad n g := by
  unfold State.mapQuad
  rw [h]

/-! ## The cycle's swap (R59, R61, R464) -/

/-- Looking for blocked waves changes the list of them alone. -/
theorem trackBlocked_quad (s : State) (qn : Nat) :
    (trackBlocked s qn).quad qn = { s.quad qn with blocked := ((trackBlocked s qn).quad qn).blocked } := by
  unfold trackBlocked
  simp only [State.mapQuad_quad, if_true]

theorem trackBlocked_swapped (s : State) (qn : Nat) : ((trackBlocked s qn).quad qn).swapped = (s.quad qn).swapped := by
  rw [trackBlocked_quad]
theorem trackBlocked_second (s : State) (qn : Nat) : ((trackBlocked s qn).quad qn).second = (s.quad qn).second := by
  rw [trackBlocked_quad]
theorem trackBlocked_yieldDue (s : State) (qn : Nat) : ((trackBlocked s qn).quad qn).yieldDue = (s.quad qn).yieldDue := by
  rw [trackBlocked_quad]
theorem trackBlocked_quantumDue (s : State) (qn : Nat) :
    ((trackBlocked s qn).quad qn).quantumDue = (s.quad qn).quantumDue := by
  rw [trackBlocked_quad]
theorem trackBlocked_pending (s : State) (qn : Nat) : ((trackBlocked s qn).quad qn).pending = (s.quad qn).pending := by
  rw [trackBlocked_quad]

/-- Only the pending set and the waves say which pending wave is ready. -/
theorem nextReady_congr {s t : State} {qn : Nat} (hw : t.waves = s.waves) (hp : (t.quad qn).pending = (s.quad qn).pending) :
    nextReady t qn = nextReady s qn := by
  unfold nextReady State.wave?
  rw [hw, hp]

theorem nextReady_trackBlocked (s : State) (qn : Nat) : nextReady (trackBlocked s qn) qn = nextReady s qn :=
  nextReady_congr rfl (trackBlocked_pending s qn)

theorem exchangeWave_ready {s : State} {qn p : Nat} (h : nextReady s qn = some p) (u : Nat) :
    exchangeWave s qn u = (toActive (toPending s qn u) qn p, true) := by
  unfold exchangeWave
  rw [h]

/-- A blocked wave comes before every other move. -/
theorem firstMove_blocked {s : State} {qn u p : Nat} {us : List Nat} (hb : ((trackBlocked s qn).quad qn).blocked = u :: us)
    (hp : nextReady (trackBlocked s qn) qn = some p) :
    firstMove s qn = toActive (toPending (trackBlocked s qn) qn u) qn p := by
  unfold firstMove
  simp only [hb, hp, exchangeWave_ready hp]

/-- A quantum that has run out moves its wave where neither a blocked wave nor a YIELD comes before it. -/
theorem firstMove_quantum {s : State} {qn u p : Nat} {us : List Nat} (hb : ((trackBlocked s qn).quad qn).blocked = [])
    (hy : (s.quad qn).yieldDue = []) (hq : (s.quad qn).quantumDue = u :: us) (hp : nextReady s qn = some p) :
    firstMove s qn =
      toActive (toPending ((trackBlocked s qn).mapQuad qn (fun q => { q with quantumDue := us })) qn u) qn p := by
  have hn : nextReady ((trackBlocked s qn).mapQuad qn (fun q => { q with quantumDue := us })) qn = some p := by
    rw [← hp, ← nextReady_trackBlocked s qn]
    exact nextReady_congr rfl (by rw [State.mapQuad_quad, if_pos rfl])
  unfold firstMove
  simp only [hb, trackBlocked_yieldDue, hy, trackBlocked_quantumDue, hq, exchangeWave_ready hn, if_true]

theorem waveSwap_blocked {s : State} {qn u p : Nat} {us : List Nat} (hb : ((trackBlocked s qn).quad qn).blocked = u :: us)
    (hp : nextReady (trackBlocked s qn) qn = some p) (hs : (s.quad qn).swapped = false) :
    waveSwap qn s =
      (toActive (toPending (trackBlocked s qn) qn u) qn p).mapQuad qn (fun q => { q with swapped := true }) := by
  have hdue : swapDue s qn = true := by
    unfold swapDue
    simp only [trackBlocked_swapped, hs, hb, hp, Bool.not_false, List.isEmpty_cons, Option.isSome_some, Bool.and_self,
      Bool.true_or]
  unfold waveSwap swapMove
  rw [if_pos hdue, firstMove_blocked hb hp]

theorem waveSwap_taken {s : State} {qn : Nat} (hs : (s.quad qn).swapped = true) : waveSwap qn s = s := by
  have hdue : swapDue s qn = false := by
    unfold swapDue
    simp only [trackBlocked_swapped, hs, Bool.not_true, Bool.false_and]
  unfold waveSwap
  rw [hdue]
  rfl

/-! ## The quantum (R61) -/

/-- The move of a wave whose quantum has run out is due. -/
def quantumMarked (s : State) (qn u : Nat) : State :=
  s.mapQuad qn (fun q => { q with quantumDue := q.quantumDue ++ [u] })

theorem quantumMarked_quad (s : State) (qn u : Nat) :
    (quantumMarked s qn u).quad qn = { s.quad qn with quantumDue := (s.quad qn).quantumDue ++ [u] } := by
  unfold quantumMarked
  rw [State.mapQuad_quad, if_pos rfl]

/-- Whether its move is due does not make a wave blocked. -/
theorem trackBlocked_quantumMarked (s : State) (qn u : Nat) :
    trackBlocked (quantumMarked s qn u) qn = quantumMarked (trackBlocked s qn) qn u := by
  unfold trackBlocked
  simp only [quantumMarked_quad]
  unfold quantumMarked
  rw [mapQuad_mapQuad, mapQuad_mapQuad]
  rfl

theorem quantumExpire_marks {s : State} {qn u : Nat} {w : Wave} (hw : s.wave? u = some w) (hq : quantumOut s qn w = true) :
    quantumExpire qn u s = if standsFirst (quantumMarked s qn u) qn false u then swapMove (quantumMarked s qn u) qn
      else quantumMarked s qn u := by
  have hc : ((quantumMarked s qn u).quad qn).quantumDue.contains u = true := by
    rw [quantumMarked_quad]
    simp
  unfold quantumExpire
  simp only [hw, hq, if_true]
  show (if ((quantumMarked s qn u).quad qn).quantumDue.contains u && _ then _ else _) = _
  rw [hc, Bool.true_and]
  rfl

/-- Behind a YIELD that is due the quantum waits. -/
theorem quantumExpire_behind {s : State} {qn u : Nat} {w : Wave} (hw : s.wave? u = some w) (hq : quantumOut s qn w = true)
    (hy : (s.quad qn).yieldDue ≠ []) : quantumExpire qn u s = quantumMarked s qn u := by
  have hfirst : standsFirst (quantumMarked s qn u) qn false u = false := by
    have hye : (s.quad qn).yieldDue.isEmpty = false := by simpa using hy
    unfold standsFirst
    simp only [trackBlocked_yieldDue, quantumMarked_quad, hye, Bool.false_and, Bool.and_false, Bool.false_eq_true, if_false]
  rw [quantumExpire_marks hw hq, hfirst]
  rfl

/-- Where nothing stands before it, the wave leaves at once. -/
theorem quantumExpire_leaves {s : State} {qn u p : Nat} {w : Wave} (hw : s.wave? u = some w) (hq : quantumOut s qn w = true)
    (hy : (s.quad qn).yieldDue = []) (hd : (s.quad qn).quantumDue = []) (hb : ((trackBlocked s qn).quad qn).blocked = [])
    (hs : (s.quad qn).swapped = false) (h2 : (s.quad qn).second = none) (hp : nextReady s qn = some p) :
    quantumExpire qn u s =
      (toActive (toPending (trackBlocked s qn) qn u) qn p).mapQuad qn (fun q => { q with swapped := true }) := by
  have hquad := quantumMarked_quad s qn u
  have hb' : ((trackBlocked (quantumMarked s qn u) qn).quad qn).blocked = [] := by
    rw [trackBlocked_quantumMarked, quantumMarked_quad, hb]
  have hy' : ((quantumMarked s qn u).quad qn).yieldDue = [] := by rw [hquad, hy]
  have hd' : ((quantumMarked s qn u).quad qn).quantumDue = [u] := by rw [hquad, hd]; rfl
  have hp' : nextReady (quantumMarked s qn u) qn = some p := by
    rw [← hp]
    exact nextReady_congr rfl (by rw [hquad])
  have hfirst : standsFirst (quantumMarked s qn u) qn false u = true := by
    unfold standsFirst
    simp only [trackBlocked_swapped, trackBlocked_second, trackBlocked_yieldDue, trackBlocked_quantumDue, hb', hy', hd']
    simp [hquad, hs, h2]
  have hleave : toPending ((trackBlocked (quantumMarked s qn u) qn).mapQuad qn (fun q => { q with quantumDue := [] })) qn u =
      toPending (trackBlocked s qn) qn u := by
    rw [trackBlocked_quantumMarked]
    unfold toPending quantumMarked
    rw [mapQuad_mapQuad, mapQuad_mapQuad]
    apply mapQuad_congr
    rw [trackBlocked_quantumDue, hd]
  rw [quantumExpire_marks hw hq, hfirst, if_pos rfl]
  unfold swapMove
  rw [firstMove_quantum hb' hy' hd' hp', hleave]

/-! ## Entry and grant (R62, R66, R74) -/

theorem pendingWaveEnter_takes {s : State} {qn p : Nat} (ha : (s.quad qn).active.length < 8)
    (hp : nextReady s qn = some p) : pendingWaveEnter qn s = toActive s qn p := by
  unfold pendingWaveEnter
  simp only [if_pos ha, hp]

/-- Only the teams say whether a request passes its quota. -/
theorem overQuota_congr {s t : State} (ht : t.teams = s.teams) (w : Wave) (n : Nat) : overQuota t w n = overQuota s w n := by
  unfold overQuota State.team?
  rw [ht]

theorem xgetGrant_grants {s : State} {qn id u n l : Nat} {w : Wave} (hg : grantable s qn = some (id, u, n))
    (hw : s.wave? u = some w) (hl : lowest (xgetLanes w id) = some l) (hq : overQuota s w n = false) :
    xgetGrant qn s = markGrant (((s.mapQuad qn (fun q => { q with xq := q.xq.filter (·.1 != id) })).mapWave u (fun v =>
      v.setWait (xgetLanes w id) .none)).mapWave u (fun v =>
        (grantRegs v n).setPc (xgetLanes w id) (fun _ => w.pcOf l + 8))) w := by
  have hm : (xgetLanes w id == 0) = false := by
    rw [beq_eq_false_iff_ne]
    intro h0
    have hnone : lowest 0 = none := by decide
    rw [h0, hnone] at hl
    cases hl
  unfold xgetGrant
  simp only [hg, State.mapQuad_wave_at, hw, hm, hl, Bool.false_eq_true, if_false]
  refine if_neg ?_
  rw [overQuota_congr (s := s) (by rfl), hq]
  exact Bool.false_ne_true

end Sys2Proof.Machine

namespace Sys2Proof.Proofs
open Sys2Proof.Machine

/-- Settles O45: each step is a function of the state, and the lemmas above say to what it comes in each case. -/
theorem quadrantEvents : Obligations.QuadrantEvents := by
  unfold Obligations.QuadrantEvents
  intro qn u p w enter leave
  refine ⟨fun us => ?_, ?_, ?_, ?_, ?_, fun id n l => ?_⟩
  · exact happens_of (waveSwap qn) (fun _ => rfl) (fun s ⟨hb, hp, hs⟩ => waveSwap_blocked hb hp hs)
  · exact happens_of (waveSwap qn) (fun _ => rfl) (fun s hs => waveSwap_taken hs)
  · exact happens_of (quantumExpire qn u) (fun _ => rfl) (fun s ⟨hw, hq, hy⟩ => quantumExpire_behind hw hq hy)
  · exact happens_of (quantumExpire qn u) (fun _ => rfl)
      (fun s ⟨hw, hq, hy, hd, hb, hs, h2, hp⟩ => quantumExpire_leaves hw hq hy hd hb hs h2 hp)
  · exact happens_of (pendingWaveEnter qn) (fun _ => rfl) (fun s ⟨ha, hp⟩ => pendingWaveEnter_takes ha hp)
  · exact happens_of (xgetGrant qn) (fun _ => rfl) (fun s ⟨hg, hw, hl, hq⟩ => xgetGrant_grants hg hw hl hq)

end Sys2Proof.Proofs
end

