-- ==== Sys2Proof/Proofs/Host.lean ====
section
/-!
PROOF. The host function: the key mailbox, quotes, measurements, registers, resets and bring-up.
-/
namespace Sys2Proof.Machine

theorem hostUp_normal {s : State} (h : s.host.boot = .normal) : hostUp s = true := by
  unfold hostUp
  rw [h]
  rfl

/-- A mailbox acts for a port of a device that is up. -/
theorem mailbox_open {s : State} {port : Nat} (hu : s.host.boot = .normal) (hp : port < 2) :
    (!hostUp s || decide (2 ≤ port)) = false := by
  rw [hostUp_normal hu, decide_eq_false (Nat.not_le.2 hp)]
  rfl

/-! ## The key mailbox (R452, R455) -/

/-- A mailbox refuses no operation of an IDE stream whose reserved bits are 0 and whose slot no descriptor or leaf names. -/
theorem keyRefused_eq_false {s : State} {ide : Bool} {cmd : DWord} :
    keyRefused s ide cmd = false ↔
      ide = true ∧ cmd.extractLsb' 13 47 = 0 ∧ slotNamed s (cmd.extractLsb' 0 10).toNat = false := by
  unfold keyRefused dwn
  simp [and_assoc]

theorem keyRefused_iff {s : State} {ide : Bool} {cmd : DWord} :
    keyRefused s ide cmd = true ↔
      ide = false ∨ cmd.extractLsb' 13 47 ≠ 0 ∨ slotNamed s (cmd.extractLsb' 0 10).toNat = true := by
  unfold keyRefused dwn
  simp [or_assoc]

section
variable {s : State} {port : Nat} {cmd : DWord} (hu : s.host.boot = .normal) (hp : port < 2)
include hu hp

theorem keyLoad_loads {ide : Bool} {key : BitVec 512} (hk : cmd.extractLsb' 60 2 = 1) (hr : keyRefused s ide cmd = false)
    (he : flook s.host.keys (dwn cmd 0 10) = none) :
    keyLoad port ide cmd key s =
      (let s := setBox s port (boxAfter cmd 1 key)
       { s with host := { s.host with keys := fput s.host.keys (dwn cmd 0 10) ⟨dwn cmd 10 3, key⟩ } }) := by
  have hopen := mailbox_open hu hp
  unfold keyLoad
  simp [hopen, hk, hr, he]

theorem keyLoad_refused {ide : Bool} {key : BitVec 512} (hk : cmd.extractLsb' 60 2 ≠ 2)
    (hr : cmd.extractLsb' 60 2 ≠ 1 ∨ keyRefused s ide cmd = true ∨ (flook s.host.keys (dwn cmd 0 10)).isSome = true) :
    keyLoad port ide cmd key s = setBox s port (boxAfter cmd 2 key) := by
  have hopen := mailbox_open hu hp
  unfold keyLoad
  rw [hopen, Bool.false_or, if_neg (by simpa using hk)]
  exact if_pos hr

/-- OPK 00 and 11 are no operation of the mailbox. -/
theorem keyLoad_noOperation {ide : Bool} {key : BitVec 512}
    (hk : cmd.extractLsb' 60 2 = 0 ∨ cmd.extractLsb' 60 2 = 3) :
    keyLoad port ide cmd key s = setBox s port (boxAfter cmd 2 key) := by
  obtain h | h := hk
  · exact keyLoad_refused hu hp (by rw [h]; decide) (.inl (by rw [h]; decide))
  · exact keyLoad_refused hu hp (by rw [h]; decide) (.inl (by rw [h]; decide))

theorem keyClear_clears {ide : Bool} (hk : cmd.extractLsb' 60 2 = 2) (hr : keyRefused s ide cmd = false) :
    keyClear port ide cmd s =
      (let s := setBox s port (boxAfter cmd 1 0)
       { s with host := { s.host with keys := fdel s.host.keys (dwn cmd 0 10) } }) := by
  have hopen := mailbox_open hu hp
  unfold keyClear
  simp [hopen, hk, hr]

theorem keyClear_refused {ide : Bool} (hk : cmd.extractLsb' 60 2 = 2) (hr : keyRefused s ide cmd = true) :
    keyClear port ide cmd s = setBox s port (boxAfter cmd 2 (s.port port).box.key) := by
  have hopen := mailbox_open hu hp
  unfold keyClear
  simp [hopen, hk, hr]

/-! ## Attestation (R457) -/

/-- What a quote signs: the digest of the nonce and the log. -/
def quoteDigest (s : State) (nonce : BitVec 256) : BitVec 256 :=
  Config.sha3 (leBytes 32 nonce.toNat ++ (s.host.log.map (fun e => leBytes 64 e.toNat)).flatten)

theorem quoteRequest_answers (nonce : BitVec 256) :
    quoteRequest port nonce s = s.mapPort port (fun p => { p with
      quote := leBytes 32 (quoteDigest s nonce).toNat ++ leBytes 2420 (Config.signQuote (quoteDigest s nonce)).toNat }) := by
  have hopen := mailbox_open hu hp
  unfold quoteRequest
  rw [hopen]
  rfl

end

section
variable {s : State} (hu : s.host.boot = .normal)
include hu

theorem measurementAppend_appends {entry : BitVec 512} (hkind : entry.extractLsb' 40 8 = 5)
    (hlen : entry.extractLsb' 48 16 = 0) (hzero : entry.extractLsb' 32 8 = 0) :
    measurementAppend entry s =
      { s with host := { s.host with log := s.host.log ++ [dSet entry 0 32 s.host.log.length] } } := by
  unfold measurementAppend dn
  simp [hostUp_normal hu, hkind, hlen, hzero]

/-! ## Registers of the host function (R454) -/

theorem sliceStatusClear_clears {n : Nat} (hn : n < 384) (v : DWord) :
    sliceStatusClear n v s = s.mapSlice n (fun z => { z with
      paid := if v.getLsbD 47 then 0 else z.paid, alerts := if v.getLsbD 31 then 0 else z.alerts }) := by
  unfold sliceStatusClear
  rw [hostUp_normal hu, decide_eq_false (Nat.not_le.2 hn)]
  rfl

theorem registerWrite_sets {off : Nat} (hlo : 0x50000 ≤ off) (hhi : off < 0x51000) (h8 : off % 8 = 0) (v : DWord) :
    registerWrite off v s = { s with host := { s.host with
      bases := setBase s.host.bases (off - 0x50000) v.toNat, regs := fset 0 s.host.regs off v } } := by
  unfold registerWrite
  rw [hostUp_normal hu, decide_eq_true hlo, decide_eq_true hhi, h8]
  rfl

theorem recoveryNewImage_ignored (im : Image) : recoveryNewImage im s = s := by
  unfold recoveryNewImage
  rw [hu]
  rfl

end

/-- Beside the register page a write does nothing. -/
theorem registerWrite_outside {off : Nat} (h : off < 0x50000 ∨ 0x51000 ≤ off) (v : DWord) (s : State) :
    registerWrite off v s = s := by
  unfold registerWrite
  refine if_neg ?_
  simp only [Bool.and_eq_true, decide_eq_true_eq]
  omega

/-! ## Resets and bring-up (R462, R463) -/

theorem sliceReset_empties {n : Nat} {s : State} (ha : (s.slice n).admitted = [])
    (hw : writeBackShut s (fun k _ => k == n) = false) :
    sliceReset n s = (s.slice n).cache.foldl (fun s x => evict s n x.1) s := by
  unfold sliceReset
  rw [ha, hw]
  rfl

/-- A slice does not reset while an admitted entry is not served or a dirty line cannot be written back. -/
theorem sliceReset_waits {n : Nat} {s : State}
    (h : (s.slice n).admitted ≠ [] ∨ writeBackShut s (fun k _ => k == n) = true) : sliceReset n s = s := by
  unfold sliceReset
  refine if_neg ?_
  simp only [Bool.and_eq_true, List.isEmpty_iff, Bool.not_eq_true']
  rintro ⟨ha, hw⟩
  obtain hne | hshut := h
  · exact hne ha
  · rw [hw] at hshut; cases hshut

/-- The machine as bring-up leaves it: what the host function holds is what the image gives it. -/
def broughtUp (s : State) (h : HostFn) : State :=
  { State.reset with
    devId := s.devId, domain := [s.devId], agenda := s.agenda, nextId := s.nextId, free := s.free, now := s.now
    host := h }

theorem bringUp_signed {im : Image} (h : im.sigOk = true) (s : State) :
    bringUp im s = broughtUp s { HostFn.reset with ident := s.host.ident, log := bootLog im.digest, boot := .normal } := by
  unfold bringUp
  simp only [h, if_true]
  rfl

theorem bringUp_unsigned {im : Image} (h : im.sigOk = false) (s : State) :
    bringUp im s = broughtUp s { HostFn.reset with ident := s.host.ident, log := [], boot := .recovery } := by
  unfold bringUp
  simp only [h, Bool.false_eq_true, if_false]
  rfl

theorem recoveryNewImage_boots {s : State} (hb : s.host.boot = .recovery) (im : Image) :
    recoveryNewImage im s = bringUp im s := by
  unfold recoveryNewImage
  rw [hb]
  rfl

end Sys2Proof.Machine

namespace Sys2Proof.Proofs
open Sys2Proof.Machine

/-- Settles O54: each step is a function of the state, and the lemmas above say to what it comes in each case. -/
theorem hostEvents : Obligations.HostEvents := by
  unfold Obligations.HostEvents
  intro n cmd v key entry nonce im port hp up slot comp kind at_ box
  refine ⟨?_, ?_, fun ide => ?_, ?_, fun ide => ?_, ?_, ?_, ?_, ?_, ?_, ?_, ?_, ?_, ?_, ?_, ?_⟩
  -- the key mailbox
  · exact happens_of (keyLoad port true cmd key) (fun _ => rfl) (fun s ⟨hu, hk, hz, hs, he⟩ =>
      keyLoad_loads hu hp hk (keyRefused_eq_false.2 ⟨rfl, hz, hs⟩) he)
  · refine happens_of (keyLoad port true cmd key) (fun _ => rfl) ?_
    rintro s ⟨hu, hk, hr⟩
    refine keyLoad_refused hu hp (by rw [hk]; decide) (.inr ?_)
    obtain hz | hs | he := hr
    · exact .inl (keyRefused_iff.2 (.inr (.inl hz)))
    · exact .inl (keyRefused_iff.2 (.inr (.inr hs)))
    · exact .inr he
  · refine happens_of (keyLoad port ide cmd key) (fun _ => rfl) ?_
    rintro s ⟨hu, hk | hk | ⟨hk, hide⟩⟩
    · exact keyLoad_noOperation hu hp (.inl hk)
    · exact keyLoad_noOperation hu hp (.inr hk)
    · exact keyLoad_refused hu hp (by rw [hk]; decide) (.inr (.inl (keyRefused_iff.2 (.inl hide))))
  · exact happens_of (keyClear port true cmd) (fun _ => rfl) (fun s ⟨hu, hk, hz, hs⟩ =>
      keyClear_clears hu hp hk (keyRefused_eq_false.2 ⟨rfl, hz, hs⟩))
  · exact happens_of (keyClear port ide cmd) (fun _ => rfl) (fun s ⟨hu, hk, hr⟩ =>
      keyClear_refused hu hp hk (keyRefused_iff.2 hr))
  -- attestation and registers
  · exact happens_of (quoteRequest port nonce) (fun _ => rfl) (fun s hu => quoteRequest_answers hu hp nonce)
  · exact happens_of (measurementAppend entry) (fun _ => rfl) (fun s ⟨hu, hkind, hlen, hzero⟩ =>
      measurementAppend_appends hu hkind hlen hzero)
  · exact happens_of (sliceStatusClear n v) (fun _ => rfl) (fun s ⟨hu, hn⟩ => sliceStatusClear_clears hu hn v)
  · exact happens_of (registerWrite n v) (fun _ => rfl) (fun s ⟨hu, hlo, hhi, h8⟩ => registerWrite_sets hu hlo hhi h8 v)
  · exact happens_of (registerWrite n v) (fun _ => rfl) (fun s ⟨_, h⟩ => registerWrite_outside h v s)
  -- resets
  · exact happens_of (coreReset n) (fun _ => rfl) (fun _ _ => rfl)
  · exact happens_of (sliceReset n) (fun _ => rfl) (fun s ⟨ha, hw⟩ => sliceReset_empties ha hw)
  · exact happens_of (sliceReset n) (fun _ => rfl) (fun s h => sliceReset_waits h)
  · exact happens_of (engineReset n) (fun _ => rfl) (fun _ _ => rfl)
  · exact happens_of (linkReset n) (fun _ => rfl) (fun _ _ => rfl)
  -- bring-up
  intro fresh log
  refine ⟨fun hsig => ?_, fun hsig => ?_, fun hsig => ?_, ?_⟩
  · exact happens_of (coldReset im) (fun _ => rfl) (fun s _ => bringUp_signed hsig s)
  · exact happens_of (coldReset im) (fun _ => rfl) (fun s _ => bringUp_unsigned hsig s)
  · exact happens_of (recoveryNewImage im) (fun _ => rfl) (fun s hb =>
      (recoveryNewImage_boots hb im).trans (bringUp_signed hsig s))
  · exact happens_of (recoveryNewImage im) (fun _ => rfl) (fun s hu => recoveryNewImage_ignored hu im)

end Sys2Proof.Proofs
end

