-- ==== Sys2Proof/Proofs/Device.lean ====
section
/-!
PROOF. The device and what surrounds it: shoot-downs, fencing, peers, links, refresh, lost granules and clocks.
-/
namespace Sys2Proof.Machine

/-! ## Shoot-downs and fencing (R198, R199, R447) -/

section
variable {s : State} {id m : Nat} {x : Shoot} (hx : shootOf s id = some x)
include hx

/-- A member that is no core has no access under way. -/
theorem shootdownReceive_other (hm : m ∈ x.toReceive) (hother : 192 ≤ m) :
    shootdownReceive id m s = mapShoot s id (fun x => { x with toReceive := x.toReceive.filter (· != m) }) := by
  have hc : x.toReceive.contains m = true := by simpa using hm
  unfold shootdownReceive
  simp only [hx, hc, decide_eq_false (Nat.not_lt.2 hother), Bool.not_true, Bool.false_and, Bool.or_self,
    Bool.false_eq_true, if_false, if_neg (Nat.not_lt.2 hother)]

/-- A core that is quiet has received it, and its transactions on the page are in conflict. -/
theorem shootdownReceive_core {lo len : Nat} (hm : m ∈ x.toReceive) (hcore : m < 192)
    (hp : pageAround s x.ctx x.va = (lo, len)) (hq : coreQuiet s m x.ctx lo len = true) :
    shootdownReceive id m s = conflictPage (mapShoot s id (fun x => { x with toReceive := x.toReceive.filter (· != m) }))
      x.ctx lo len (· == m) := by
  have hc : x.toReceive.contains m = true := by simpa using hm
  unfold shootdownReceive
  simp only [hx, hp, hc, hq, Bool.not_true, Bool.and_false, Bool.or_self, Bool.false_eq_true, if_false, if_pos hcore]

theorem shootdownAck_counts (hr : m ∉ x.toReceive) (hm : m ∈ x.toCount) :
    shootdownAck id m s = endShoot (mapShoot s id (fun x => { x with toCount := x.toCount.filter (· != m) })) id := by
  have hrc : x.toReceive.contains m = false := by simpa using hr
  have hmc : x.toCount.contains m = true := by simpa using hm
  unfold shootdownAck
  simp only [hx, hrc, hmc, Bool.not_true, Bool.or_self, Bool.false_eq_true, if_false]

/-- A silent device is fenced and no shoot-down waits for it. -/
theorem fenceTimeout_fences (hm : m ∈ x.toCount) (hdev : 256 ≤ m) (hnew : m - 256 ∉ s.fenced) :
    fenceTimeout id m s =
      (let s := fenceStores (fenceLoads { s with fenced := s.fenced ++ [m - 256] } (m - 256)) (m - 256)
       let s : State := { s with shoots := s.shoots.map (fun x =>
         { x with toReceive := x.toReceive.filter (· != m), toCount := x.toCount.filter (· != m) }) }
       (s.shoots.map (·.id)).foldl endShoot s) := by
  have hmc : x.toCount.contains m = true := by simpa using hm
  have hfc : s.fenced.contains (m - 256) = false := by simpa using hnew
  unfold fenceTimeout
  simp only [hx, hmc, hfc, decide_eq_false (Nat.not_lt.2 hdev), Bool.not_true, Bool.or_self, Bool.false_eq_true, if_false]

end

/-! ## Requests of peers (R450, R460) -/

/-- A request of another device of the domain, aligned to its size, whose checks pass and which no slice holds back. -/
def PeerAsks (s : State) (r : PeerReq) (l : Loc) (k : Want) : Prop :=
  r.device ∈ s.domain ∧ r.device ∉ s.fenced ∧ r.device ≠ s.devId ∧ r.size ≠ 0 ∧ r.va % r.size = 0 ∧
    checkVirtual s r.ctx 0 r.va (r.va % 2 ^ 52) r.size k = .ok l ∧ sliceAsleep s r.ctx 0 0 (r.va % 2 ^ 52) l = false

/-- The request as its slices see it: its lines are in use there. -/
def peerUsed (s : State) (write : Bool) (r : PeerReq) (l : Loc) : State := useLoc s write r.ctx 0 0 (r.va % 2 ^ 52) l

/-- An atomic is of 4 or 8 bytes, the size of its element. -/
def peerSized (size : Nat) : PeerAct → Bool
  | .atomic ty .. => ty.esize == size && (size == 4 || size == 8)
  | _ => true

theorem peerServed_of {s : State} {r : PeerReq} {l : Loc} {k : Want} (h : PeerAsks s r l k)
    (hsize : peerSized r.size r.act = true) : peerServed s r = true := by
  obtain ⟨hdom, hfen, hdev, hz, hal, -, -⟩ := h
  show (s.domain.contains r.device && !s.fenced.contains r.device && r.device != s.devId && r.size != 0 &&
    r.va % r.size == 0 && peerSized r.size r.act) = true
  rw [hsize]
  simp [hdom, hfen, hdev, hz, hal]

/-- A request that is served acts at its location, and its answer goes back. -/
theorem peerRequest_served {s : State} {r : PeerReq} {l : Loc} {a : PeerAct} (ha : r.act = a)
    (h : PeerAsks s r l (peerWant a)) (hsize : peerSized r.size a = true) :
    peerRequest r s =
      (let e := peerAct (peerUsed s (peerWant a != .read) r l) r.size l a
       peerReply r e.1 e.2) := by
  subst ha
  have hserved := peerServed_of h hsize
  obtain ⟨-, -, hdev, -, -, hchk, hawake⟩ := h
  unfold peerRequest
  simp only [beq_eq_false_iff_ne.2 hdev, hserved, hchk, hawake, Bool.not_true, Bool.false_eq_true, if_false]
  rfl

/-- The bytes of a location after a request has written a number there. -/
def peerPut (s : State) (size : Nat) (l : Loc) (n : Nat) : State :=
  noteWrite (writeLoc s l (leBytes size n)) none (fun _ => true) (l.addrs s)

theorem peerAct_read {s : State} {l : Loc} {bs : List Byte} {bad : Bool} (h : rawBytes s l = (bs, bad)) (size : Nat) :
    peerAct s size l .read = (s, if bad then .poisoned else .done (BitVec.ofNat 128 (leNat bs))) := by
  simp only [peerAct, h]

theorem peerAct_write (s : State) (size : Nat) (l : Loc) (v : DWord) :
    peerAct s size l (.write v) = (peerPut s size l v.toNat, .done 0) := rfl

/-- An atomic whose bytes are sound. -/
theorem peerAct_atomic {s : State} {l : Loc} {bs : List Byte} (h : rawBytes s l = (bs, false)) (size : Nat) (ty : Ety)
    (op : BitVec 3) (v cmp : DWord) :
    peerAct s size l (.atomic ty op v cmp) =
      (peerPut s size l (atomicNew ty op.toNat (leNat bs) v.toNat cmp.toNat), .done (BitVec.ofNat 128 (leNat bs))) := by
  simp only [peerAct, h, Bool.false_eq_true, if_false]
  rfl

section
variable {s : State} {r : PeerReq} {l : Loc} {v : DWord} {bs : List Byte}

theorem peerRequest_reads {bad : Bool} (h : PeerAsks s r l .read) (ha : r.act = .read)
    (hb : rawBytes (peerUsed s false r l) l = (bs, bad)) :
    peerRequest r s =
      peerReply r (peerUsed s false r l) (if bad then .poisoned else .done (BitVec.ofNat 128 (leNat bs))) := by
  have hact := peerAct_read hb r.size
  rw [peerRequest_served ha h rfl]
  exact congrArg (fun e => peerReply r e.1 e.2) hact

theorem peerRequest_writes (h : PeerAsks s r l .write) (ha : r.act = .write v) :
    peerRequest r s = peerReply r (peerPut (peerUsed s true r l) r.size l v.toNat) (.done 0) := by
  rw [peerRequest_served ha h rfl, peerAct_write]
  rfl

theorem peerRequest_atomic {ty : Ety} {op : BitVec 3} {cmp : DWord} (h : PeerAsks s r l .atomic)
    (ha : r.act = .atomic ty op v cmp) (ht : ty.esize = r.size) (hs : r.size = 4 ∨ r.size = 8)
    (hb : rawBytes (peerUsed s true r l) l = (bs, false)) :
    peerRequest r s =
      peerReply r (peerPut (peerUsed s true r l) r.size l (atomicNew ty op.toNat (leNat bs) v.toNat cmp.toNat))
        (.done (BitVec.ofNat 128 (leNat bs))) := by
  have hact := peerAct_atomic hb r.size ty op v cmp
  rw [peerRequest_served ha h (by simpa [peerSized, ht] using hs)]
  exact congrArg (fun e => peerReply r e.1 e.2) hact

end

/-- A device outside the domain and a fenced one are refused. -/
theorem peerRequest_stranger {s : State} {r : PeerReq} (hdev : r.device ≠ s.devId)
    (h : r.device ∉ s.domain ∨ r.device ∈ s.fenced) : peerRequest r s = peerReply r s .refused := by
  have hserved : peerServed s r = false := by
    unfold peerServed
    obtain hdom | hfen := h
    · simp [hdom]
    · simp [hfen]
  unfold peerRequest
  simp only [beq_eq_false_iff_ne.2 hdev, hserved, Bool.not_false, Bool.false_eq_true, if_false, if_true]

/-- A request whose check fails is refused. -/
theorem peerRequest_trapped {s : State} {r : PeerReq} {c : Cause} {tv pos : Nat} (hdev : r.device ≠ s.devId)
    (h : checkVirtual s r.ctx 0 r.va (r.va % 2 ^ 52) r.size (peerWant r.act) = .trap c tv pos) :
    peerRequest r s = peerReply r s .refused := by
  unfold peerRequest
  simp only [beq_eq_false_iff_ne.2 hdev, h, Bool.false_eq_true, if_false]
  split
  · rfl
  · rfl

/-! ## Links (R461) -/

theorem linkFlitReceive_takes {s : State} {p q : Nat} (hp : p < 12) (hq : q = (fget Link.reset s.links p).next) (b : Flit) :
    linkFlitReceive p q true b s =
      (let k := fget Link.reset s.links p
       takeFlit b { s with links := fput s.links p { k with next := k.next + 1, delivered := k.delivered ++ [b] } }) := by
  unfold linkFlitReceive
  simp only [decide_eq_true hp, hq, beq_self_eq_true, Bool.and_self, if_true]

theorem linkFlitReceive_again {s : State} {p q : Nat} (hq : q ≠ (fget Link.reset s.links p).next) (crcOk : Bool) (b : Flit) :
    linkFlitReceive p q crcOk b s = s := by
  unfold linkFlitReceive
  simp only [beq_eq_false_iff_ne.2 hq, Bool.and_false, Bool.false_eq_true, if_false]

theorem linkFlitReceive_bad (p q : Nat) (b : Flit) (s : State) : linkFlitReceive p q false b s = s := by
  unfold linkFlitReceive
  simp only [Bool.and_false, Bool.false_and, Bool.false_eq_true, if_false]

/-! ## Refresh (R441, R442, R446) -/

/-- An update is what it does to the slice as it stands. -/
theorem mapSlice_congr {s : State} {n : Nat} {f g : Slice → Slice} (h : f (s.slice n) = g (s.slice n)) :
    s.mapSlice n f = s.mapSlice n g := by
  unfold State.mapSlice
  rw [h]

section
variable {s : State} {n bank : Nat}

/-- A refresh is postponed while requests to the bank wait and its debt is below 8. -/
theorem refreshDue_postpones (hn : n < 384) (hr : (s.slice n).selfRefresh = false) (hd : fget 0 (s.slice n).debt bank < 8)
    (hw : bankWanted s n bank = true) :
    refreshDue n bank true s =
      s.mapSlice n (fun z => { z with debt := fset 0 z.debt bank (fget 0 (s.slice n).debt bank + 1) }) := by
  unfold refreshDue
  simp only [decide_eq_false (Nat.not_le.2 hn), hr, decide_eq_true hd, hw, Bool.or_self, Bool.and_self, Bool.false_eq_true,
    if_false, if_true]

theorem refreshDue_issues {postpone : Bool} (hn : n < 384) (hr : (s.slice n).selfRefresh = false)
    (h : postpone = false ∨ 8 ≤ fget 0 (s.slice n).debt bank ∨ bankWanted s n bank = false) :
    refreshDue n bank postpone s = s.mapSlice n (fun z => { z with acts := refreshRows (8 * s.now) bank z.acts }) := by
  have hno : (postpone && decide (fget 0 (s.slice n).debt bank < 8) && bankWanted s n bank) = false := by
    obtain hp | hd | hw := h
    · rw [hp]; rfl
    · rw [decide_eq_false (Nat.not_lt.2 hd), Bool.and_false, Bool.false_and]
    · rw [hw, Bool.and_false]
  unfold refreshDue
  simp only [decide_eq_false (Nat.not_le.2 hn), hr, hno, Bool.or_self, Bool.false_eq_true, if_false]
  rfl

theorem refreshDue_asleep (hr : (s.slice n).selfRefresh = true) (postpone : Bool) : refreshDue n bank postpone s = s := by
  unfold refreshDue
  simp only [hr, Bool.or_true, if_true]

theorem refreshRepay_repays (hr : (s.slice n).selfRefresh = false) (hd : fget 0 (s.slice n).debt bank ≠ 0)
    (hwin : flook (s.slice n).windows bank = none) (hw : bankWanted s n bank = false) :
    refreshRepay n bank s = s.mapSlice n (fun z => { z with
      debt := fset 0 z.debt bank (fget 0 (s.slice n).debt bank - 1), acts := refreshRows (8 * s.now) bank z.acts }) := by
  unfold refreshRepay
  simp only [hr, decide_eq_false hd, hwin, hw, Option.isSome_none, Bool.or_self, Bool.false_eq_true, if_false]
  rfl

/-! ## Activation counters and back-off (R441, R443) -/

variable {row rows : Nat}

/-- A counter of the row has come to the threshold, and no window of its bank is open. -/
def AlertReady (s : State) (n bank row rows : Nat) : Prop :=
  n < 384 ∧ (s.slice n).selfRefresh = false ∧ row < rows ∧ flook (s.slice n).windows bank = none ∧
    ∃ e ∈ (s.slice n).acts, 1024 ≤ e.2 ∧ Config.bankOf e.1 = bank ∧ Config.rowIn e.1 = row

/-- The window that an alert opens, and the refreshes that a full debt is paid with. -/
def alerted (now bank row rows : Nat) (z : Slice) : Slice :=
  let full := fget 0 z.debt bank == 8
  { z with
    alerts := (z.alerts + 1) % 2 ^ 32
    paid := if full then (z.paid + 1) % 2 ^ 16 else z.paid
    debt := if full then fset 0 z.debt bank 0 else z.debt
    acts := if full then refreshes now bank 8 z.acts else z.acts
    windows := fput z.windows bank (row, rows) }

theorem rowAlert_opens (h : AlertReady s n bank row rows) :
    rowAlert n bank row rows s = s.mapSlice n (alerted s.now bank row rows) := by
  obtain ⟨hn, hr, hrow, hwin, e, he, hcount, hbank, hin⟩ := h
  have hdue : alertDue (s.slice n) bank row = true := by
    unfold alertDue
    rw [List.any_eq_true]
    refine ⟨e, he, ?_⟩
    rw [hbank, hin, beq_self_eq_true, beq_self_eq_true, Bool.and_true, Bool.and_true]
    exact decide_eq_true hcount
  unfold rowAlert
  simp only [decide_eq_false (Nat.not_le.2 hn), hr, decide_eq_false (Nat.not_le.2 hrow), hwin, hdue, Option.isSome_none,
    Bool.not_true, Bool.or_self, Bool.false_eq_true, if_false]
  rfl

theorem alerted_within {z : Slice} (h : fget 0 z.debt bank ≠ 8) (now : Nat) :
    alerted now bank row rows z =
      { z with alerts := (z.alerts + 1) % 2 ^ 32, windows := fput z.windows bank (row, rows) } := by
  unfold alerted
  simp only [beq_eq_false_iff_ne.2 h, Bool.false_eq_true, if_false]

theorem alerted_full {z : Slice} (h : fget 0 z.debt bank = 8) (now : Nat) :
    alerted now bank row rows z =
      { z with
        alerts := (z.alerts + 1) % 2 ^ 32, windows := fput z.windows bank (row, rows)
        paid := (z.paid + 1) % 2 ^ 16, debt := fset 0 z.debt bank 0, acts := refreshes now bank 8 z.acts } := by
  unfold alerted
  simp only [h, beq_self_eq_true, if_true]

theorem backoffEnd_asleep (hr : (s.slice n).selfRefresh = true) : backoffEnd n bank s = s := by
  unfold backoffEnd
  split
  · rfl
  · rw [if_pos hr]

/-- Away from the edges of its bank the alerting row has four victims. -/
theorem windowRows_inner (hlo : 2 ≤ row) (hhi : row + 2 < rows) :
    windowRows row rows = [row - 1, row + 1, row - 2, row + 2, row] := by
  unfold windowRows
  rw [if_pos (by omega), if_pos (by omega), if_pos hlo, if_pos hhi]
  rfl

theorem backoffEnd_closes (hwin : flook (s.slice n).windows bank = some (row, rows))
    (hr : (s.slice n).selfRefresh = false) :
    backoffEnd n bank s = s.mapSlice n (fun z => { z with
      windows := fdel z.windows bank, acts := resetRows bank (windowRows row rows) z.acts }) := by
  unfold backoffEnd
  simp only [hwin, hr, Bool.false_eq_true, if_false]

end

theorem stackSlices_eq {k : Nat} (h : k < 12) : stackSlices k = rangeFrom (32 * k) 32 := if_pos h

/-! ## Lost granules (R445, R448, R449, R450) -/

/-- A granule is lost where it lies: in HBM or a pool plot, or in a dirty line of a slice cache. -/
def GranuleLost (s : State) (e : ErrSite) : Prop :=
  (e.place = .store ∧ (deviceBytes ≤ 64 * e.granule ∨ rowLive s (rowOf e.granule) = true ∧ holderOf s e.granule = none)) ∨
    e.place = .slice ∧ ∃ m z, holderOf s e.granule = some m ∧ flook (s.slice m).cache e.granule = some z ∧ z.dirty = true

section
variable {s : State} {e : ErrSite}

theorem uncorrectableError_lost (h : GranuleLost s e) : uncorrectableError e s = loseGranule e s := by
  unfold uncorrectableError
  obtain ⟨hp, hat⟩ | ⟨hp, m, z, hm, hz, hd⟩ := h
  · simp only [hp]
    refine if_neg ?_
    obtain hpool | ⟨hlive, hnone⟩ := hat
    · simp [Nat.not_lt.2 hpool]
    · simp [hlive, hnone]
  · simp only [hp, hm, hz, Option.map_some, hd, Option.getD_some, if_true]

/-- A clean line of an L1 is dropped. -/
theorem uncorrectableError_l1 {k : Nat} (hp : e.place = .l1 k) :
    uncorrectableError e s = s.mapCore k (fun c => { c with l1 := fdel c.l1 e.granule }) := by
  unfold uncorrectableError
  simp only [hp]

/-- So is a clean line of a slice cache. -/
theorem uncorrectableError_clean {k : Nat} {z : SlcLine} (hp : e.place = .slice) (hm : holderOf s e.granule = some k)
    (hz : flook (s.slice k).cache e.granule = some z) (hd : z.dirty = false) :
    uncorrectableError e s = s.mapSlice k (fun z => { z with cache := fdel z.cache e.granule }) := by
  unfold uncorrectableError
  simp only [hp, hm, hz, Option.map_some, hd, Option.getD_some, Bool.false_eq_true, if_false]

/-- A dead row is not read. -/
theorem uncorrectableError_dead (hp : e.place = .store) (hdev : 64 * e.granule < deviceBytes)
    (hdead : rowLive s (rowOf e.granule) = false) : uncorrectableError e s = s := by
  unfold uncorrectableError
  simp only [hp, decide_eq_true hdev, hdead, Bool.not_false, Bool.true_or, Bool.and_self, if_true]

/-- The bytes of the granule are poisoned, whatever the level. -/
def poisoned (e : ErrSite) (s : State) : State :=
  markBytes s (rangeFrom (64 * e.granule) 64) (if e.carry then .check else .uncorr)

theorem loseGranule_team (h : errLevel s e = .team) : loseGranule e s = poisoned e s := by
  unfold loseGranule
  simp only [h]
  rfl

theorem loseGranule_context {c : Nat} (h : errLevel s e = .context c) :
    loseGranule e s = escalate (poisoned e s) (·.ctx == c) (·.ctx == c) := by
  unfold loseGranule
  simp only [h]
  rfl

theorem loseGranule_compartment {c : Nat} (h : errLevel s e = .compartment c) :
    loseGranule e s = escalate (poisoned e s) (·.comp == c) (·.comp == c) := by
  unfold loseGranule
  simp only [h]
  rfl

theorem loseGranule_device (h : errLevel s e = .device) :
    loseGranule e s =
      (let s := escalate (poisoned e s) (fun _ => true) (fun _ => true)
       { s with host := { s.host with noPlace := true, fatal := true } }) := by
  unfold loseGranule
  simp only [h]
  rfl

end

/-! ## Clocks (R37) -/

theorem clockLower_lowers {s : State} {die mhz : Nat} (hd : die < 2) (h : mhz < clockOf s die) :
    clockLower die mhz s = { s with clocks := fset 850 s.clocks die mhz } := by
  unfold clockLower
  rw [decide_eq_true hd, decide_eq_true h]
  rfl

theorem clockRaise_raises {s : State} {die mhz : Nat} (hd : die < 2) (h : clockOf s die < mhz) (hmax : mhz ≤ 850) :
    clockRaise die mhz s = { s with clocks := fset 850 s.clocks die mhz } := by
  unfold clockRaise
  rw [decide_eq_true hd, decide_eq_true h, decide_eq_true hmax]
  rfl

end Sys2Proof.Machine

namespace Sys2Proof.Proofs
open Sys2Proof.Machine

/-- Settles O53: each step is a function of the state, and the lemmas above say to what it comes in each case. -/
theorem deviceEvents : Obligations.DeviceEvents := by
  unfold Obligations.DeviceEvents
  intro id m n bank row rows p q die mhz x r l v b e shoot received count gone debt poison lost row1 refreshed every
  refine ⟨?_, fun lo len => ?_, ?_, ?_, ?_⟩
  -- shoot-downs and fencing
  · exact happens_of (shootdownReceive id m) (fun _ => rfl) (fun s ⟨hx, hm, h⟩ => shootdownReceive_other hx hm h)
  · exact happens_of (shootdownReceive id m) (fun _ => rfl) (fun s ⟨hx, hm, h, hp, hq⟩ => shootdownReceive_core hx hm h hp hq)
  · exact happens_of (shootdownAck id m) (fun _ => rfl) (fun s ⟨hx, hr, hm⟩ => shootdownAck_counts hx hr hm)
  · exact happens_of (fenceTimeout id m) (fun _ => rfl) (fun s ⟨hx, hm, h, hnew⟩ => fenceTimeout_fences hx hm h hnew)
  intro asked used put reply
  refine ⟨fun bs bad => ?_, ?_, fun ty op cmp bs => ?_, ?_, fun c tv pos => ?_, ?_, ?_, ?_, ?_, ?_, ?_, ?_, ?_, ⟨?_, ?_⟩, ?_, ?_,
    ?_, ?_, fun k => ?_, fun k z => ?_, ?_, ?_, fun c => ?_, fun c => ?_, ?_, ?_, ?_⟩
  -- requests of peers
  · exact happens_of (peerRequest r) (fun _ => rfl) (fun s ⟨h, ha, hb⟩ => peerRequest_reads h ha hb)
  · exact happens_of (peerRequest r) (fun _ => rfl) (fun s ⟨h, ha⟩ => peerRequest_writes h ha)
  · exact happens_of (peerRequest r) (fun _ => rfl) (fun s ⟨h, ha, ht, hs, hb⟩ => peerRequest_atomic h ha ht hs hb)
  · exact happens_of (peerRequest r) (fun _ => rfl) (fun s ⟨hdev, h⟩ => peerRequest_stranger hdev h)
  · exact happens_of (peerRequest r) (fun _ => rfl) (fun s ⟨hdev, h⟩ => peerRequest_trapped hdev h)
  -- links
  · exact happens_of (linkFlitReceive p q true b) (fun _ => rfl) (fun s ⟨hp, hq⟩ => linkFlitReceive_takes hp hq b)
  · exact happens_of (linkFlitReceive p q true b) (fun _ => rfl) (fun s hq => linkFlitReceive_again hq true b)
  · exact happens_of (linkFlitReceive p q false b) (fun _ => rfl) (fun s _ => linkFlitReceive_bad p q b s)
  -- refresh
  · exact happens_of (refreshDue n bank true) (fun _ => rfl) (fun s ⟨hn, hr, hd, hw⟩ => refreshDue_postpones hn hr hd hw)
  · refine happens_of (refreshDue n bank true) (fun _ => rfl) ?_
    rintro s ⟨hn, hr, hd⟩
    exact refreshDue_issues hn hr (.inr (hd.imp_left (fun h => Nat.le_of_eq h.symm)))
  · exact happens_of (refreshDue n bank false) (fun _ => rfl) (fun s ⟨hn, hr⟩ => refreshDue_issues hn hr (.inl rfl))
  · exact happens_of (refreshDue n bank false) (fun _ => rfl) (fun s hr => refreshDue_asleep hr false)
  · exact happens_of (refreshRepay n bank) (fun _ => rfl) (fun s ⟨hr, hd, hwin, hw⟩ => refreshRepay_repays hr hd hwin hw)
  -- back-off
  · refine happens_of (rowAlert n bank row rows) (fun _ => rfl) ?_
    rintro s ⟨ha, hd⟩
    exact (rowAlert_opens ha).trans (mapSlice_congr (alerted_within hd s.now))
  · refine happens_of (rowAlert n bank row rows) (fun _ => rfl) ?_
    rintro s ⟨ha, hd⟩
    exact (rowAlert_opens ha).trans (mapSlice_congr (alerted_full hd s.now))
  · exact happens_of (backoffEnd n bank) (fun _ => rfl) (fun s hr => backoffEnd_asleep hr)
  · refine happens_of (backoffEnd n bank) (fun _ => rfl) ?_
    rintro s ⟨hwin, hr, hlo, hhi⟩
    rw [backoffEnd_closes hwin hr, windowRows_inner hlo hhi]
    rfl
  -- self-refresh
  · refine happens_of (selfRefreshEnter n) (fun _ => rfl) (fun s hn => ?_)
    unfold selfRefreshEnter
    rw [stackSlices_eq hn]
  · refine happens_of (selfRefreshExit n) (fun _ => rfl) (fun s hn => ?_)
    unfold selfRefreshExit
    rw [stackSlices_eq hn]
  -- lost granules
  · exact happens_of (uncorrectableError e) (fun _ => rfl) (fun s hp => uncorrectableError_l1 hp)
  · exact happens_of (uncorrectableError e) (fun _ => rfl) (fun s ⟨hp, hm, hz, hd⟩ => uncorrectableError_clean hp hm hz hd)
  · exact happens_of (uncorrectableError e) (fun _ => rfl) (fun s ⟨hp, hdev, hdead⟩ => uncorrectableError_dead hp hdev hdead)
  · exact happens_of (uncorrectableError e) (fun _ => rfl)
      (fun s ⟨hl, h⟩ => (uncorrectableError_lost hl).trans (loseGranule_team h))
  · exact happens_of (uncorrectableError e) (fun _ => rfl)
      (fun s ⟨hl, h⟩ => (uncorrectableError_lost hl).trans (loseGranule_context h))
  · exact happens_of (uncorrectableError e) (fun _ => rfl)
      (fun s ⟨hl, h⟩ => (uncorrectableError_lost hl).trans (loseGranule_compartment h))
  · exact happens_of (uncorrectableError e) (fun _ => rfl)
      (fun s ⟨hl, h⟩ => (uncorrectableError_lost hl).trans (loseGranule_device h))
  -- clocks
  · exact happens_of (clockLower die mhz) (fun _ => rfl) (fun s ⟨hd, h⟩ => clockLower_lowers hd h)
  · exact happens_of (clockRaise die mhz) (fun _ => rfl) (fun s ⟨hd, h, hmax⟩ => clockRaise_raises hd h hmax)

end Sys2Proof.Proofs
end

