-- ==== Sys2Proof/Proofs/Issue.lean ====
section
/-!
PROOF. The common course before and around the effect of a word: every share of a group (R49, R284), the registers it
waits for (R69, R308), and the causes of its operands (R68, R69, R173).
-/
namespace Sys2Proof.Machine

/-- Every word runs through the common course: one arm of `exec` for each of its descriptions. -/
theorem exec_of_semOf {ins : Instr} {m : Sem} (h : semOf ins = some m) (s : State) : exec ins s = execX m s := by
  cases ins <;> cases h <;> rfl

theorem exec_next {ins : Instr} {m : Sem} {s t : State} (h : semOf ins = some m) (hi : issueFull m s = t)
    (hb : t.bad = none) : exec ins s = .next t := by
  rw [exec_of_semOf h, execX, hi]
  exact finish_next _ hb

/-! ## Every share of a group (R49, R284) -/

/-- Two folds agree that take the same step wherever the second one stands. -/
theorem foldl_congr_along {α β : Type} (f g : β → α → β) (ps : List α) : ∀ s : β,
    (∀ done p rest, ps = done ++ p :: rest → f (done.foldl g s) p = g (done.foldl g s) p) →
    ps.foldl f s = ps.foldl g s := by
  induction ps with
  | nil => intro s _; rfl
  | cons p ps ih =>
    intro s h
    rw [List.foldl_cons, List.foldl_cons, show f s p = g s p from h [] p ps rfl]
    exact ih _ (fun done q rest e => h (p :: done) q rest (congrArg (p :: ·) e))

theorem hitsOf_zero (ops : Wave → Nat → List Opnd) (w : Wave) : hitsOf ops w 0 = 0 := rfl

/-- A share that nothing holds up, with its operands as they were for `ops`. -/
theorem runShare_ready {m : Sem} {t : State} {i : Issue} {p : Share} {ops : Wave → Nat → List Opnd} (C : Free m t i p)
    (hops : ∀ l, m.ops t p.rd l = ops p.rd l) :
    runShare m i none t p (m.clearReady p) = settleShare i m p.u p.rd p.grp []
      (if activeLanes m.grd p.rd p.grp = 0 then { st := t }
       else m.body (counted t p.u (hitsOf ops p.rd (activeLanes m.grd p.rd p.grp))) (shareCtx t i m.grd p)) := by
  rw [runShare_free C, counted_eq m t p.rd p.grp ops hops, C.uid, active_eq]
  by_cases h : activeLanes m.grd p.rd p.grp = 0
  · rw [h, hitsOf_zero, counted_zero]
    rfl
  · rw [if_neg h, if_neg (by simpa using h)]

/-! ## How one wave stands before issue (R69) -/

section
variable {m : Sem} {s : State} {i : Issue} {w : Wave} {g : Mask}

/-- While one share alone issues, no other share's partners keep it waiting. -/
theorem readyAll_one (p : Share) : m.readyAll s [p] = [(p, m.ready s p)] := by
  unfold Sem.readyAll
  by_cases h : (m.ready s p).away.isEmpty
  · simp [h]
  · simp only [List.map_cons, List.map_nil, List.find?_cons, h, Bool.not_false, Bool.false_eq_true, if_false]

/-- No thread leaves a share that nothing holds up. -/
theorem leaveWaiters_clear (p : Share) : leaveWaiters s p (m.clearReady p) = s := rfl

/-- A word of one wave that is legal and not held: its waiting threads leave; unless some thread waits for another
producer, the rest run. -/
theorem issueFull_one {r : Ready} (I : Issues s i w g) (hlegal : m.legal s w i.hm = true)
    (hhold : m.hold s w (activeLanes m.grd w g) = false) (hr : m.ready s ⟨w.uid, w, g⟩ = r) :
    issueFull m s =
      if r.stall then leaveWaiters s ⟨w.uid, w, g⟩ r
      else runShare m i
        (firstFormat (if r.left ⟨w.uid, w, g⟩ == 0 then []
          else m.formats (leaveWaiters s ⟨w.uid, w, g⟩ r) w g r.act))
        (leaveWaiters s ⟨w.uid, w, g⟩ r) ⟨w.uid, w, g⟩ r := by
  have hj : r.judged i = r := by unfold Ready.judged; rw [I.first]; rfl
  have hh : m.hold s w (m.active w g) = false := hhold
  unfold issueFull
  simp only [I.cur, shares_alone I, List.any_cons, List.any_nil, hlegal, hh, readyAll_one, hr, hj, List.map_cons,
    List.map_nil, List.foldl_cons, List.foldl_nil, List.flatten_cons, List.flatten_nil, List.append_nil, Bool.or_false,
    Bool.and_false, Bool.not_true, Bool.false_eq_true, if_false]

/-- Where all threads of a share wait, nothing runs. -/
theorem runShare_left_zero {p : Share} {r : Ready} (h : r.left p = 0) (bad : Option DWord) (t : State) :
    runShare m i bad t p r = t := by
  unfold runShare
  simp only [h, beq_self_eq_true, if_true]

/-- A lane with the empty registers that it waits for; only lanes that wait. -/
def Sem.needs (m : Sem) (s : State) (p : Share) : List (Nat × List (Nat × Nat)) :=
  ((lanesOf (m.active p.rd p.grp)).map (fun l => (l, waitsFor p.rd (m.live s p.rd l)))).filter (fun x => !x.2.isEmpty)

/-- The registers of its threads' partners, or of the wave's operand, for which a share waits together (R308, R324). -/
def Sem.sharedNeeds (m : Sem) (s : State) (p : Share) : List (Nat × Nat) :=
  ((lanesOf (m.active p.rd p.grp)).map (fun l => partnersFor p.rd (m.live s p.rd l))).flatten.eraseDups

/-- The partners' registers alone. -/
def Sem.partnerNeeds (m : Sem) (s : State) (p : Share) : List (Nat × Nat) :=
  ((lanesOf (m.active p.rd p.grp)).map (fun l => waitsFor p.rd ((m.live s p.rd l).filter (·.part)))).flatten.eraseDups

/-- All registers that a lane waits for are owed by memory operations (R58). -/
def Wave.onMemory (w : Wave) (x : Nat × List (Nat × Nat)) : Bool := x.2.all (fun y => w.memProducer y.1 y.2)

/-- How a share stands, by what its lanes need. -/
theorem ready_eq (p : Share) : m.ready s p =
    (let need := m.needs s p
     let stall := need.any (fun x => !p.rd.onMemory x)
     let wait := if (m.sharedNeeds s p).isEmpty then need.filter p.rd.onMemory
       else if stall then []
       else (lanesOf p.grp).map (fun l => (l, m.sharedNeeds s p ++ ((need.filter (·.1 == l)).map (·.2)).flatten))
     let rest := m.active p.rd p.grp &&& ~~~ maskOf (need.map (·.1)) &&& ~~~ maskOf (wait.map (·.1))
     { wait := wait, stall := stall, tile := if rest == 0 then none else m.tile s p.rd rest, act := rest
       away := if stall then [] else m.partnerNeeds s p }) := rfl

theorem mem_needs {p : Share} {x : Nat × List (Nat × Nat)} :
    x ∈ m.needs s p ↔ x.1 ∈ lanesOf (m.active p.rd p.grp) ∧ x.2 = waitsFor p.rd (m.live s p.rd x.1) ∧ x.2 ≠ [] := by
  unfold Sem.needs
  rw [List.mem_filter, List.mem_map]
  constructor
  · rintro ⟨⟨l, hl, rfl⟩, hne⟩
    exact ⟨hl, rfl, by simpa using hne⟩
  · rintro ⟨hl, he, hne⟩
    exact ⟨⟨x.1, hl, by rw [← he]⟩, by simpa using hne⟩

theorem needs_ne_nil {p : Share} {l : Nat} (hl : l ∈ lanesOf (m.active p.rd p.grp))
    (hne : waitsFor p.rd (m.live s p.rd l) ≠ []) : m.needs s p ≠ [] :=
  List.ne_nil_of_mem ((mem_needs (x := (l, waitsFor p.rd (m.live s p.rd l)))).2 ⟨hl, rfl, hne⟩)

/-- Lanes that wait for nothing wait for nothing together. -/
theorem flatten_waits_nil {p : Share} (full : ∀ l ∈ lanesOf (m.active p.rd p.grp), waitsFor p.rd (m.live s p.rd l) = [])
    (q : Opnd → Bool) :
    ((lanesOf (m.active p.rd p.grp)).map (fun l => waitsFor p.rd ((m.live s p.rd l).filter q))).flatten = [] := by
  rw [List.flatten_eq_nil_iff]
  intro x hx
  obtain ⟨l, hl, rfl⟩ := List.mem_map.1 hx
  exact waitsFor_filter _ (full l hl)

/-- Without an empty register to wait for, a share stands ready but for what its Active threads wait for besides. -/
theorem ready_full {p : Share} (full : ∀ l ∈ lanesOf (m.active p.rd p.grp), waitsFor p.rd (m.live s p.rd l) = []) :
    m.ready s p = { m.clearReady p with
      tile := if m.active p.rd p.grp == 0 then none else m.tile s p.rd (m.active p.rd p.grp) } := by
  have hneeds : m.needs s p = [] := by
    refine List.eq_nil_iff_forall_not_mem.2 (fun x hx => ?_)
    obtain ⟨hl, he, hne⟩ := mem_needs.1 hx
    exact hne (he.trans (full x.1 hl))
  have hshared : m.sharedNeeds s p = [] := congrArg List.eraseDups (flatten_waits_nil full _)
  have hpartner : m.partnerNeeds s p = [] := congrArg List.eraseDups (flatten_waits_nil full _)
  rw [ready_eq]
  unfold Sem.clearReady
  simp only [hneeds, hshared, hpartner, List.isEmpty_nil, if_true, List.filter_nil, List.map_nil, maskOf_nil, List.any_nil,
    and_not_zero, ite_self]

/-- A lane that waits for another producer than memory holds the whole share, and no other thread leaves it. -/
theorem ready_stalled {p : Share} (hne : m.needs s p ≠ []) (hother : ∀ l ∈ lanesOf (m.active p.rd p.grp),
      ∀ y ∈ waitsFor p.rd (m.live s p.rd l), p.rd.memProducer y.1 y.2 = false) (htile : ∀ a, m.tile s p.rd a = none) :
    ∃ a, m.ready s p = ⟨[], true, none, a, []⟩ := by
  have hmem : ∀ x ∈ m.needs s p, p.rd.onMemory x = false := by
    intro x hx
    obtain ⟨hl, he, hx⟩ := mem_needs.1 hx
    obtain ⟨y, hy⟩ := List.exists_mem_of_ne_nil _ hx
    exact List.all_eq_false.2 ⟨y, hy, by simp [hother x.1 hl y (by rwa [← he])]⟩
  have hstall : (m.needs s p).any (fun x => !p.rd.onMemory x) = true := by
    obtain ⟨x, hx⟩ := List.exists_mem_of_ne_nil _ hne
    exact List.any_eq_true.2 ⟨x, hx, by simp [hmem x hx]⟩
  have hleave : (m.needs s p).filter p.rd.onMemory = [] := List.filter_eq_nil_iff.2 (fun x hx => by simp [hmem x hx])
  rw [ready_eq]
  simp only [hstall, hleave, htile, if_true, ite_self]
  exact ⟨_, rfl⟩

/-- Without a mask's own lanes none of it is left. -/
theorem and_not_self_and (a b : Mask) : a &&& ~~~ a &&& ~~~ b = 0 := by
  rw [BitVec.and_not_self]
  exact BitVec.zero_and

theorem maskOf_keyed {β : Type} (f : Nat → β) (a : Mask) :
    maskOf (((lanesOf a).map (fun l => (l, f l))).map (·.1)) = a := by
  rw [List.map_map]
  exact (congrArg maskOf (List.map_id' _)).trans (maskOf_lanesOf a)

theorem filter_keyed {β : Type} (f : Nat → β) {ls : List Nat} (hn : ls.Nodup) {l : Nat} (h : l ∈ ls) :
    (ls.map (fun l => (l, f l))).filter (fun x => x.1 == l) = [(l, f l)] := by
  rw [List.filter_map]
  have one : ls.filter (fun x => x == l) = [l] := by rw [List.filter_beq, hn.count, if_pos h]; rfl
  exact congrArg (List.map _) one

theorem filterMap_of_some {α β : Type} {f : α → Option β} {g : α → β} :
    ∀ {as : List α}, (∀ a ∈ as, f a = some (g a)) → as.filterMap f = as.map g
  | [], _ => rfl
  | a :: as, h => by
    rw [List.filterMap_cons_some (h a List.mem_cons_self),
      filterMap_of_some (fun b hb => h b (List.mem_cons_of_mem a hb)), List.map_cons]

/-- Every thread of a share is Active and waits for registers. -/
theorem needs_all {p : Share} (hall : m.active p.rd p.grp = p.grp)
    (hwait : ∀ l ∈ lanesOf p.grp, waitsFor p.rd (m.live s p.rd l) ≠ []) :
    m.needs s p = (lanesOf p.grp).map (fun l => (l, waitsFor p.rd (m.live s p.rd l))) := by
  unfold Sem.needs
  rw [hall, List.filter_eq_self]
  intro x hx
  obtain ⟨l, hl, rfl⟩ := List.mem_map.1 hx
  simpa using hwait l hl

/-- Where every thread of a share is Active and waits for a memory operation, each waits for its own registers and
for those that the share waits for together. -/
theorem ready_waiting {p : Share} (hall : m.active p.rd p.grp = p.grp)
    (hwait : ∀ l ∈ lanesOf p.grp, waitsFor p.rd (m.live s p.rd l) ≠ [] ∧
      ∀ x ∈ waitsFor p.rd (m.live s p.rd l), p.rd.memProducer x.1 x.2 = true) :
    m.ready s p = ⟨(lanesOf p.grp).map (fun l => (l, m.sharedNeeds s p ++ waitsFor p.rd (m.live s p.rd l))), false, none,
      0, m.partnerNeeds s p⟩ := by
  have hneeds := needs_all hall (fun l hl => (hwait l hl).1)
  have hmem : ∀ x ∈ m.needs s p, p.rd.onMemory x = true := by
    rw [hneeds]
    intro x hx
    obtain ⟨l, hl, rfl⟩ := List.mem_map.1 hx
    exact List.all_eq_true.2 (hwait l hl).2
  have hstall : (m.needs s p).any (fun x => !p.rd.onMemory x) = false :=
    List.any_eq_false.2 (fun x hx => by simp [hmem x hx])
  have hown : (lanesOf p.grp).map (fun l => (l, m.sharedNeeds s p ++
        (((m.needs s p).filter (fun x => x.1 == l)).map (·.2)).flatten)) =
      (lanesOf p.grp).map (fun l => (l, m.sharedNeeds s p ++ waitsFor p.rd (m.live s p.rd l))) := by
    refine List.map_congr_left (fun l hl => ?_)
    rw [hneeds, filter_keyed (fun l => waitsFor p.rd (m.live s p.rd l)) (lanesOf_nodup _) hl]
    simp
  have hleave : (if (m.sharedNeeds s p).isEmpty then m.needs s p
      else (lanesOf p.grp).map (fun l => (l, m.sharedNeeds s p ++ waitsFor p.rd (m.live s p.rd l)))) =
      (lanesOf p.grp).map (fun l => (l, m.sharedNeeds s p ++ waitsFor p.rd (m.live s p.rd l))) := by
    split
    · rename_i h
      rw [hneeds, List.isEmpty_iff.1 h]
      rfl
    · rfl
  have hlanes : maskOf ((m.needs s p).map (·.1)) = p.grp := by rw [hneeds]; exact maskOf_keyed ..
  rw [ready_eq]
  simp only [hstall, List.filter_eq_self.2 hmem, hown, hleave, hlanes, hall, Bool.false_eq_true, if_false,
    and_not_self_and, beq_self_eq_true, if_true]

end

/-! ## Causes of operands (R68, R69, R173) -/

/-- The operands of a lane raise no other causes than these. -/
theorem operandTrap_cause {w : Wave} {l : Nat} {os : List Opnd} {t : Trap} (h : operandTrap w l os = some t) :
    t.cause = .regbound ∨ t.cause = .empty ∨ t.cause = .soft := by
  unfold operandTrap at h
  split at h
  · cases h; exact .inl rfl
  · split at h
    · cases h; exact .inr (.inl rfl)
    · simp only at h
      split at h
      · cases h; exact .inr (.inr rfl)
      · cases h

/-- The end of a share whose threads raise one cause before the effect, where no second word of the cycle stands by. -/
theorem settleShare_early {s : State} {i : Issue} {m : Sem} {u : Nat} {rd : Wave} {g : Mask} {k : Cause} {lanes : Mask}
    {tval : Nat → DWord} (hl : i.late = []) (hk : isAfter k = false)
    (hs : standsBy s (i.core * 4 + i.quad) u = false) :
    settleShare i m u rd g (trapsOf k lanes tval) { st := s } =
      takeTraps (s.mapWave u (leaveWord i g lanes (fun _ => none))) u i.key.pc (trapsOf k lanes tval) := by
  have hkept : (trapsOf k lanes tval).filter (fun t => !(t.cause == .break || t.cause == .fpx || t.cause == .watch)) =
      trapsOf k lanes tval := by
    rw [List.filter_eq_self]
    intro t ht
    obtain ⟨l, -, rfl⟩ := List.mem_map.1 ht
    exact congrArg (!·) hk
  have hback : maskOf ((trapsOf k lanes tval).map (·.lane)) = lanes := by rw [trapsOf_lanes, maskOf_lanesOf]
  have hfpx : (if m.fpx then fpxTraps rd.fxe [] else []) = [] := by split <;> rfl
  unfold settleShare
  simp only [hl, hfpx, raiseFlags_nil, List.append_nil, oneEach_trapsOf, hkept, hback, and_not_zero]
  exact takeInOrder_traps (s := s.mapWave u _) _ _ hs

section
variable {m : Sem} {s : State} {i : Issue} {w : Wave} {g : Mask} {k : Cause} {tval : Nat → DWord}

/-- A share whose Active lanes all raise one cause of their operands acts in none of them. -/
theorem runShare_trapped {p : Share} (hg : p.grp ≠ 0)
    (hops : ∀ l ∈ lanesOf (m.active p.rd p.grp), operandTrap p.rd l (m.live s p.rd l) = some ⟨l, k, tval l, 0⟩)
    (hill : m.valueIllegal s (shareCtx s i m.grd p) = []) :
    runShare m i none s p (m.clearReady p) =
      settleShare i m p.u p.rd p.grp (trapsOf k (m.active p.rd p.grp) tval) { st := s } := by
  have hearly : ((lanesOf (m.active p.rd p.grp)).map (fun l => (l, m.live s p.rd l))).filterMap
      (fun x => laneTrap m.wsrc p.rd x.1 x.2) = trapsOf k (m.active p.rd p.grp) tval := by
    rw [List.filterMap_map]
    refine filterMap_of_some (g := fun l => (⟨l, k, tval l, 0⟩ : Trap)) (fun l hl => ?_)
    show laneTrap _ _ l _ = _
    unfold laneTrap
    rw [hops l hl]
  have hworse : m.worseIllegal s (shareCtx s i m.grd p) (trapsOf k (m.active p.rd p.grp) tval) = [] := by
    unfold Sem.worseIllegal
    split
    · rfl
    · exact hill
  have hrest : m.active p.rd p.grp &&& ~~~ maskOf ((trapsOf k (m.active p.rd p.grp) tval).map (·.lane)) = 0 := by
    rw [trapsOf_lanes, maskOf_lanesOf, BitVec.and_not_self]
  have hnone : ((lanesOf (m.active p.rd p.grp)).map (fun l => (l, m.live s p.rd l))).filter
      (fun x => (0 : Mask).getLsbD x.1) = [] := by
    rw [List.filter_eq_nil_iff]
    intro x _
    simp
  unfold shareCtx at hworse
  unfold runShare Sem.clearReady
  simp only [Ready.left, List.map_nil, maskOf_nil, and_not_zero, Option.isSome_none, Bool.false_eq_true, if_false,
    beq_eq_false_iff_ne.2 hg, hearly, hrest, hnone, bne_self_eq_false, Bool.and_false, beq_self_eq_true, if_true]
  have hhits : windowHits p.rd [] = 0 := rfl
  simp only [hhits, if_true]
  exact congrArg (fun ts => settleShare i m p.u p.rd p.grp ts { st := s })
    ((congrArg (trapsOf k (m.active p.rd p.grp) tval ++ ·) hworse).trans (List.append_nil _))

/-- The waves' lanes enter handler mode, the other threads of the word having gone on. -/
theorem takeTraps_left (I : Issues s i w g) {lanes : Mask} (C : Calm s w lanes) (h0 : lanes ≠ 0)
    (hk : isAfter k = false) (hk13 : k.word.getLsbD 13 = false) :
    takeTraps (s.mapWave w.uid (leaveWord i g lanes (fun _ => none))) w.uid i.key.pc (trapsOf k lanes tval) =
      (s.mapWave w.uid (leaveWord i g lanes (fun _ => none))).mapWave w.uid
        (Wave.enter k i.key.pc lanes tval w.handler) := by
  have hw : (s.mapWave w.uid (leaveWord i g lanes (fun _ => none))).wave? w.uid =
      some (leaveWord i g lanes (fun _ => none) w) := by
    rw [State.mapWave_wave (hf := by intro v h; exact h), if_pos rfl, I.found]
    rfl
  have C' : Calm (s.mapWave w.uid (leaveWord i g lanes (fun _ => none))) (leaveWord i g lanes (fun _ => none) w) lanes :=
    C.leave rfl C.single rfl rfl rfl (leaveWord_members ..) rfl rfl
  have h := takeTraps_calm k i.key.pc tval hw C' h0 hk13
  rw [hk] at h
  exact h

theorem exists_lane {a : Mask} (h : a ≠ 0) : ∃ l, l ∈ lanesOf a := by
  refine List.exists_mem_of_ne_nil _ (fun hn => h ?_)
  rw [← maskOf_lanesOf a, hn]
  rfl

/-- Where all Active lanes raise one cause of their operands, they enter handler mode with it, and the others go on. -/
theorem issueFull_trapped (I : Issues s i w g) (h0 : m.active w g ≠ 0) (C : Calm s w (m.active w g))
    (hlegal : m.legal s w i.hm = true) (hhold : m.hold s w (m.active w g) = false)
    (htile : m.tile s w (m.active w g) = none) (hfmt : m.formats s w g (m.active w g) = [])
    (hill : m.valueIllegal s (soloCtx s i m.grd w g) = [])
    (hfull : ∀ l ∈ lanesOf (m.active w g), waitsFor w (m.live s w l) = [])
    (htrap : ∀ l ∈ lanesOf (m.active w g), operandTrap w l (m.live s w l) = some ⟨l, k, tval l, 0⟩) :
    issueFull m s = (s.mapWave w.uid (leaveWord i g (m.active w g) (fun _ => none))).mapWave w.uid
      (Wave.enter k i.key.pc (m.active w g) tval w.handler) := by
  obtain ⟨l, hl⟩ := exists_lane h0
  have hk : isAfter k = false ∧ k.word.getLsbD 13 = false := by
    obtain rfl | rfl | rfl := operandTrap_cause (htrap l hl) <;> decide
  have hready : m.ready s ⟨w.uid, w, g⟩ = m.clearReady ⟨w.uid, w, g⟩ := by
    rw [ready_full (p := ⟨w.uid, w, g⟩) hfull]
    simp only [htile, ite_self]
    rfl
  have hbad : firstFormat (if (m.clearReady ⟨w.uid, w, g⟩).left ⟨w.uid, w, g⟩ == 0 then []
      else m.formats s w g (m.clearReady ⟨w.uid, w, g⟩).act) = none := by
    simp only [Sem.clearReady, hfmt, ite_self]
    rfl
  rw [issueFull_one I hlegal hhold hready, leaveWaiters_clear, hbad]
  calc runShare m i none s ⟨w.uid, w, g⟩ (m.clearReady ⟨w.uid, w, g⟩)
    _ = settleShare i m w.uid w g (trapsOf k (m.active w g) tval) { st := s } :=
      runShare_trapped (p := ⟨w.uid, w, g⟩) I.lanes htrap hill
    _ = takeTraps (s.mapWave w.uid (leaveWord i g (m.active w g) (fun _ => none))) w.uid i.key.pc
        (trapsOf k (m.active w g) tval) := settleShare_early I.late hk.1 (C.single _)
    _ = _ := takeTraps_left I C h0 hk.1 hk.2

end

end Sys2Proof.Machine

namespace Sys2Proof.Proofs
open Sys2Proof.Machine

/-- Settles O2: the shares run one after the other, each as its operands were when the cycle began. -/
theorem groupCourse : Obligations.GroupCourse := by
  unfold Obligations.GroupCourse
  intro ins m s i ps hsem G active share hready hsame hbad
  have hclear : ∀ p ∈ ps, Clear m s i p.rd p.grp := by
    intro p hp
    obtain ⟨hops, hlegal, hforbid, hhold, htile, hfmt⟩ := hready p hp
    exact clear_of_ready (fun _ => rfl) hops hlegal hforbid hhold (.inr htile) hfmt
  refine exec_next hsem ?_ hbad
  rw [issueFull_group G hclear]
  refine foldl_congr_along _ share ps s fun done p rest hps => ?_
  have hp : p ∈ ps := by rw [hps]; simp
  have hops := hsame done p rest hps
  have hlive : ∀ l, m.live (done.foldl share s) p.rd l = m.live s p.rd l := by
    intro l; unfold Sem.live; rw [hops]
  refine runShare_ready ⟨(hclear p hp).forbid, fun l hl => ?_, G.lanes p hp, G.steady p hp, G.firm p hp, G.uid hp⟩ hops
  rw [hlive]
  exact (hclear p hp).sound l hl

/-- Settles O22: the lanes' causes leave no lane in which the word acts, and are taken at once. -/
theorem operandCauses : Obligations.OperandCauses := by
  unfold Obligations.OperandCauses
  intro ins m k tval s i w g hsem A act live h0 hcalm hlegal hhold htile hfmt hill hfull htrap
  exact exec_next hsem (issueFull_trapped A.toIssues h0 hcalm hlegal hhold htile hfmt hill hfull htrap) A.sound

/-- Settles O25: the share is stalled, and no thread leaves it. -/
theorem registersAwaited : Obligations.RegistersAwaited := by
  unfold Obligations.RegistersAwaited
  intro ins m s i w g hsem I act need hlegal hhold hsome hother htile
  obtain ⟨l, hl, hne⟩ := hsome
  obtain ⟨a, hready⟩ := ready_stalled (p := ⟨w.uid, w, g⟩) (needs_ne_nil hl hne) hother htile
  refine exec_next hsem ?_ I.sound
  exact (issueFull_one I hlegal hhold hready).trans (if_pos rfl)

/-- Settles O33: the threads leave the group, and no thread is left to run. -/
theorem threadsWait : Obligations.ThreadsWait := by
  unfold Obligations.ThreadsWait
  intro ins m s i w g hsem I need shared hall hlegal hhold
  have hhold' : m.hold s w (activeLanes m.grd w g) = false := by rw [hall]; exact hhold
  have hsound : ∀ (f : Nat → Wait), ((lanesOf g).foldl (fun t l => startWait t w.uid l (f l)) s).bad = none :=
    fun f => (foldl_bad (fun t l => startWait t w.uid l (f l)) (fun _ _ => rfl) _ s).trans I.sound
  have hg : (g == 0) = false := beq_eq_false_iff_ne.2 I.lanes
  constructor
  · intro x hx hfull
    have hready : m.ready s ⟨w.uid, w, g⟩ = ⟨[], false, some x, g, []⟩ := by
      have ha : m.active w g = g := hall
      rw [ready_full (p := ⟨w.uid, w, g⟩) (by rw [ha]; exact hfull)]
      unfold Sem.clearReady
      simp only [ha, hg, hx, Bool.false_eq_true, if_false]
    refine exec_next hsem ?_ (hsound _)
    rw [issueFull_one I hlegal hhold' hready]
    refine runShare_left_zero ?_ _ _
    simp only [Ready.left, List.map_nil, maskOf_nil, and_not_zero, Option.isSome_some, if_true, BitVec.and_not_self]
  · intro hwait
    have hready := ready_waiting (m := m) (s := s) (p := ⟨w.uid, w, g⟩) hall hwait
    have hshared : m.sharedNeeds s ⟨w.uid, w, g⟩ = shared := by
      unfold Sem.sharedNeeds
      rw [show m.active w g = g from hall]
      rfl
    rw [hshared] at hready
    refine exec_next hsem ?_ (hsound _)
    rw [issueFull_one I hlegal hhold' hready]
    refine (runShare_left_zero ?_ _ _).trans (List.foldl_map ..)
    simp only [Ready.left, maskOf_keyed, and_not_self_and]

end Sys2Proof.Proofs
end

