-- ==== Sys2Proof/Proofs/Words.lean ====
section
/-!
PROOF. Words that act on the wave as a whole: joins and the other control words, wave registers and special registers,
and the waits.
-/
namespace Sys2Proof.Machine

/-- A word without a V operand, which nothing holds and which names no tile. -/
structure Sem.Bare (m : Sem) : Prop where
  ops  : ∀ s w l, m.ops s w l = []
  hold : ∀ s w a, m.hold s w a = false
  tile : ∀ s w a, m.tile s w a = none
  fmt  : ∀ s w a, m.fmt s w a = none

theorem Sem.bare_of_plain {m : Sem} {f : Full} (h : m = { Sem.plain f with
    wsrc := m.wsrc, legal := m.legal, forbid := m.forbid, fpx := m.fpx, body := m.body }) : m.Bare := by
  rw [h]
  exact ⟨fun _ _ _ => rfl, fun _ _ _ => rfl, fun _ _ _ => rfl, fun _ _ _ => rfl⟩

/-- Such a word is its body. -/
theorem soloWord_bare {ins : Instr} {m : Sem} {ok : State → Ctx → Prop} {eff : State → Ctx → State} {stay : Ctx → Mask}
    (B : m.Bare) (hex : ∀ s, exec ins s = execX m s) (hlegal : ∀ s c, ok s c → m.legal s c.rd c.hm = true)
    (hbody : ∀ s c, ok s c → s.wave? c.u = some c.rd → m.body s c = { st := eff s c, stay := stay c })
    (hbad : ∀ s c, (eff s c).bad = s.bad) : SoloWord ins m.grd ok eff stay :=
  soloWord_of hex B.ops hlegal (fun s c _ => B.hold s c.rd c.act) (fun s c _ => B.tile s c.rd c.act)
    (fun s c _ => B.fmt s c.rd c.act) (fun s c hk _ hw _ _ => hbody s c hk hw) (fun s c _ hb => (hbad s c).trans hb)

/-! ## Control words (R53, R54, R60, R63, R181, R322) -/

/-- The slot that a JPT names, once its Active threads are expected there (R53). -/
def jptSlot (f : Full) (c : Ctx) : Join :=
  let x := c.rd.join? f.lo3
  if x.valid then { x with exp := x.exp ||| c.act } else ⟨true, relTarget c.pc f.imm16, c.act, 0⟩

/-- A JPT on a free slot, or on one that already stands at its target. -/
theorem jptBody_expects {f : Full} {s : State} {c : Ctx} (hw : s.wave? c.u = some c.rd)
    (hslot : (c.rd.join? f.lo3).valid = true → (c.rd.join? f.lo3).pc = relTarget c.pc f.imm16) :
    jptBody f s c = { st := if c.hm then s else s.mapWave c.u (fun w => w.setJoin f.lo3 (jptSlot f c)) } := by
  have hsame : ((c.rd.join? f.lo3).valid && (c.rd.join? f.lo3).pc != relTarget c.pc f.imm16) = false := by
    cases hv : (c.rd.join? f.lo3).valid with
    | false => rfl
    | true => rw [hslot hv]; simp
  unfold jptBody
  cases c.hm with
  | true => rfl
  | false =>
    simp only [hw, hsame, Bool.false_eq_true, if_false]
    rfl

/-- The Active threads that a JOIN makes arrive: those that its slot expects (R54). -/
def joinArrives (f : Full) (c : Ctx) : Mask :=
  if c.hm = false ∧ (c.rd.join? f.lo3).valid then c.act &&& (c.rd.join? f.lo3).exp else 0

theorem joinBody_arrives {f : Full} {s : State} {c : Ctx} (hw : s.wave? c.u = some c.rd) :
    joinBody f s c =
      { st := if joinArrives f c = 0 then s else s.mapWave c.u (fun w =>
          ((w.setWait (joinArrives f c) (.join f.lo3)).setJoin f.lo3
            { c.rd.join? f.lo3 with arr := (c.rd.join? f.lo3).arr ||| joinArrives f c }).joinTest f.lo3)
        stay := joinArrives f c } := by
  unfold joinBody joinArrives
  cases c.hm with
  | true => rfl
  | false =>
    simp only [hw, true_and, Bool.false_eq_true, if_false, beq_iff_eq]
    generalize (if (c.rd.join? f.lo3).valid = true then c.act &&& (c.rd.join? f.lo3).exp else 0) = a
    by_cases h : a = 0
    · simp only [h, if_true]
    · simp only [h, if_false]

theorem semYield_body (f : Full) (s : State) (c : Ctx) :
    (semYield f).body s c = { st := if c.hm then s else yieldWave s c.iss c.u } := by
  show (if c.hm then _ else _ : Res) = _
  split <;> rfl

/-! ## Wave registers, special registers, the window, flags and tags (R71, R95, R96, R242, R315 to R319) -/

/-- The lowest Active lane, which supplies a V operand of the wave. -/
theorem headD_lanes (c : Ctx) : c.lanes.headD 0 = (lowest c.act).getD 0 := by
  unfold Ctx.lanes lowest
  cases lanesOf c.act <;> rfl

theorem wmov_legal {f : Full} {hm : Bool} (h : f.md.getLsbD 2 = true → hm = true) (s : State) (w : Wave) :
    (semWmov f).legal s w hm = true := by
  show (!(f.md.getLsbD 2) || hm) = true
  cases hq : f.md.getLsbD 2 with
  | false => rfl
  | true => rw [h hq]; rfl

theorem sets_legal {f : Full} {hm : Bool} (h : hm = true ∨ ∀ b, specialReg f.imm16.toNat ≠ some (b, 2)) (s : State)
    (w : Wave) : (semSets f).legal s w hm = true := by
  show (hm || _) = true
  obtain rfl | h := h
  · rfl
  · rw [Bool.or_eq_true]
    right
    split
    · rename_i b hb; exact absurd hb (h b)
    · rfl

theorem semWmov_ops_V {f : Full} (h : f.lo3 % 4 = 1) (s : State) (w : Wave) (l : Nat) :
    (semWmov f).ops s w l = [opWave f (opA f · f.ety) s w l] := by
  unfold semWmov
  simp only [h]

theorem semWmov_ops_W {f : Full} (h : 2 ≤ f.lo3 % 4) (s : State) (w : Wave) (l : Nat) : (semWmov f).ops s w l = [] := by
  unfold semWmov
  simp only
  split
  · omega
  · omega
  · rfl

/-- WMOV into the wave, of the lowest Active lane's V register. -/
theorem semWmov_body_V {f : Full} (h : f.lo3 % 4 = 1) (s : State) (c : Ctx) :
    (semWmov f).body s c = { st := s.mapWave c.u (fun w =>
      writeWQ (f.md.getLsbD 2) w f.dn ((c.rd.thread ((lowest c.act).getD 0)).reg f.an)) } := by
  rw [← headD_lanes]
  show (if f.lo3 % 4 = 0 then _ else _ : Res) = _
  rw [if_neg (by omega)]
  simp only [h, if_true]
  rfl

/-- WMOV between registers of the wave. -/
theorem semWmov_body_W {f : Full} (h : 2 ≤ f.lo3 % 4) (s : State) (c : Ctx) :
    (semWmov f).body s c = { st := s.mapWave c.u (fun w =>
      writeWQ (f.md.getLsbD 2) w f.dn (readWQ (f.md.getLsbD 2) c.rd f.an)) } := by
  show (if f.lo3 % 4 = 0 then _ else _ : Res) = _
  rw [if_neg (by omega)]
  simp only [show f.lo3 % 4 ≠ 1 by omega, if_false]
  rfl

theorem setsBody_writes {f : Full} {s : State} {c : Ctx}
    (h : badMode f.imm16.toNat ((c.rd.thread ((lowest c.act).getD 0)).reg f.an) = false) :
    setsBody f s c = { st := s.mapWave c.u (fun w => writeSpecial w f.imm16.toNat
      ((c.rd.thread ((lowest c.act).getD 0)).reg f.an) (allFlags (c.iss.raised.filter (·.1 == c.u)))) } := by
  unfold setsBody
  simp only [headD_lanes, h, Bool.false_eq_true, if_false]

theorem semWin_loads {f : Full} {s : State} {c : Ctx} (h : f.an + f.imm16.toNat ≤ c.rd.top) :
    (semWin f).body s c = { st := s.mapWave c.u (fun w => loadWindow w f.an f.imm16.toNat) } :=
  if_neg (Nat.not_lt.2 h)

theorem semTag_sets {f : Full} (h : f.lo3 = 0) :
    semTag f = { Sem.plain f with ops := fun _ _ l => [opD f l], body := tagBody f } := if_pos h

theorem tagBody_alone {f : Full} {s : State} {c : Ctx} (h : c.tx = false) :
    tagBody f s c = { st := s.mapWave c.u (fun w => w.setTags f.dn f.ety f.ety.regs) } := by
  unfold tagBody
  rw [h]
  rfl

theorem raiseFlags_bad (s : State) (u qn : Nat) (fs : List (Nat × BitVec 5)) : (raiseFlags s u qn fs).bad = s.bad :=
  (OnlyWave.raiseFlags s u qn fs).bad

/-! ## Waits (R373 to R377) -/

theorem acquireAt_bad (s : State) (u scope : Nat) : (acquireAt s u scope).bad = s.bad := by
  unfold acquireAt
  split
  · split <;> rfl
  · rfl

/-- A word that is a wait: with its condition it goes on, without it its Active threads wait. -/
theorem waits_of {ins : Instr} {m : Sem} {ok met unmet : State → Ctx → Prop} {cond : State → Ctx → Bool}
    {eff : State → Ctx → State} {run : State → Ctx → State → State} {x : State → Ctx → Wait} (B : m.Bare)
    (hex : ∀ s, exec ins s = execX m s) (hlegal : ∀ s c, ok s c → m.legal s c.rd c.hm = true)
    (hbody : ∀ s c, ok s c → s.wave? c.u = some c.rd → m.body s c = waitOr s c (cond s c) (run s c) (x s c))
    (hmet : ∀ s c, met s c → cond s c = true) (hunmet : ∀ s c, unmet s c → cond s c = false)
    (hrun : ∀ s c, run s c s = eff s c) (hbad : ∀ s c, (eff s c).bad = s.bad) :
    SoloWord ins m.grd (fun s c => ok s c ∧ met s c) eff (fun _ => 0) ∧
    SoloWord ins m.grd (fun s c => ok s c ∧ unmet s c) (fun s c => waiting (x s c) s c) (fun c => c.act) := by
  constructor
  · refine soloWord_bare B hex (fun s c hk => hlegal s c hk.1) (fun s c hk hw => ?_) hbad
    rw [hbody s c hk.1 hw, hmet s c hk.2, ← hrun]
    rfl
  · refine soloWord_bare B hex (fun s c hk => hlegal s c hk.1) (fun s c hk hw => ?_) (fun s c => waiting_bad _ s c)
    rw [hbody s c hk.1 hw, hunmet s c hk.2]
    rfl

theorem waitcBody_found {k v scope : Nat} {s : State} {c : Ctx} (hw : s.wave? c.u = some c.rd) :
    waitcBody k v scope s c = waitOr s c (counterOk c.rd k v) (endWaitc c.u k v scope) (.waitc k v scope) := by
  unfold waitcBody
  rw [hw]

theorem endWaitc_bad (u k v scope : Nat) (s : State) : (endWaitc u k v scope s).bad = s.bad := by
  unfold endWaitc
  split
  · exact acquireAt_bad ..
  · rfl

theorem engNumber_some {v : Word} (h : v.toNat < 64) : engNumber v = some v.toNat := if_pos h

theorem waitqBody_open {n e : Nat} {s : State} {c : Ctx} (h : engOpen s e c.ctxNo = true) :
    waitqBody n e s c = waitOr s c (n ≤ engSeq s e) (acquireNow · c.u) (.waitq e n) := by
  unfold waitqBody
  rw [h]
  rfl

theorem semWaitqReg_body_open {f : Full} {s : State} {c : Ctx} (hn : (c.rd.wreg (f.bn % 64)).toNat < 64)
    (h : engOpen s (c.rd.wreg (f.bn % 64)).toNat c.ctxNo = true) :
    (semWaitqReg f).body s c =
      waitOr s c ((c.rd.wpair (f.an % 64)).toNat ≤ engSeq s (c.rd.wreg (f.bn % 64)).toNat) (acquireNow · c.u)
        (.waitq (c.rd.wreg (f.bn % 64)).toNat (c.rd.wpair (f.an % 64)).toNat) := by
  unfold semWaitqReg
  simp only [engNumber_some hn]
  exact waitqBody_open h

theorem waitlBody_allowed {h : Word} {v : Nat} {s : State} {c : Ctx} (hr : hasRight (hRights h) .read = true)
    (hd : ∃ d, handleDesc s c.ctxNo h = some d ∧ dClass d = 2) :
    waitlBody h v s c = waitOr s c (lapReached s (ctxComp s c.ctxNo) (hIdx h) v) id
      (.waitl (ctxComp s c.ctxNo) (hIdx h) v) := by
  obtain ⟨d, hd, hc⟩ := hd
  unfold waitlBody
  simp only [hd, hr, hc, Bool.not_true, bne_self_eq_false, Bool.or_self, Bool.false_eq_true, if_false]

/-- A WAITM outside a transaction enters nothing into a read set. -/
theorem endWaitm_alone (s : State) (u scope addr : Nat) (l : Loc) :
    endWaitm s u 0 scope addr l = (acquireAt s u scope, true) := by
  unfold endWaitm
  simp only
  split
  · rfl
  · rename_i w _
    rw [show w.members &&& 0 = 0 from BitVec.and_zero]
    rfl

section
variable {f : Full} {s : State} {c : Ctx} {l : Loc} (hw : s.wave? c.u = some c.rd)
  (hchk : waitmChk s c.who (c.rd.wpair (f.an % 64)).toNat = .ok l)
include hw hchk

/-- WAITM of a word that may be read: it ends, or its threads wait, as the word says. -/
theorem waitmBody_read {n : Nat} (htx : c.tx = false) (hr : waitmRead s c.rd (c.rd.wpair (f.an % 64)).toNat l = some n) :
    waitmBody f s c = waitOr (waitmUse s c.rd (c.rd.wpair (f.an % 64)).toNat l) c
      (condHolds (f.lo3 % 4) n (c.rd.wreg (f.bn % 64)).toNat) (acquireAt · c.u f.scope)
      (.waitm ((c.rd.wpair (f.an % 64)).toNat / 2 ^ 60) (c.rd.wpair (f.an % 64)).toNat (f.lo3 % 4)
        (c.rd.wreg (f.bn % 64)).toNat f.scope) := by
  unfold waitmBody
  simp only [hchk, hw, hr, htx, endWaitm_alone, Bool.false_eq_true, if_false]
  cases condHolds (f.lo3 % 4) n (c.rd.wreg (f.bn % 64)).toNat <;> rfl

/-- WAITM of a word that may not be read yet: its threads wait. -/
theorem waitmBody_unread (hr : waitmRead s c.rd (c.rd.wpair (f.an % 64)).toNat l = none) :
    waitmBody f s c = waitOr s c false id
      (.waitm ((c.rd.wpair (f.an % 64)).toNat / 2 ^ 60) (c.rd.wpair (f.an % 64)).toNat (f.lo3 % 4)
        (c.rd.wreg (f.bn % 64)).toNat f.scope) := by
  unfold waitmBody
  simp only [hchk, hw, hr]

end

theorem waitmUse_bad (s : State) (w : Wave) (a : Nat) (l : Loc) : (waitmUse s w a l).bad = s.bad :=
  (SameAbove.useLoc ..).bad

/-- A WAITM is held by the operand log alone; with room there it is its body. -/
theorem waitm_of {f : Full} {at_ : State → Ctx → Prop} {eff : State → Ctx → State} {stay : Ctx → Mask}
    (hhold : ∀ s c, at_ s c → memHold [] s c.rd c.act = false)
    (hbody : ∀ s c, at_ s c → s.wave? c.u = some c.rd → c.tx = false →
      waitmBody f s c = { st := eff s c, stay := stay c })
    (hbad : ∀ s c, (eff s c).bad = s.bad) : SoloWord (.waitm f) f.grd at_ eff stay :=
  soloWord_of (m := semWaitm f) (fun _ => rfl) (fun _ _ _ => rfl) (fun _ _ _ => rfl) hhold (fun _ _ _ => rfl)
    (fun _ _ _ => rfl) (fun s c hk _ hw _ htx => hbody s c hk hw htx) (fun s c _ hb => (hbad s c).trans hb)

end Sys2Proof.Machine

namespace Sys2Proof.Proofs
open Sys2Proof.Machine

/-- Settles O12: each word is its body, in handler mode and out of it. -/
theorem controlResults : Obligations.ControlResults := by
  unfold Obligations.ControlResults
  intro f target slot arrive
  refine ⟨?_, ?_, ?_, ?_, ?_, ?_⟩
  · exact soloWord_bare (m := semNop f) (Sem.bare_of_plain rfl) (fun _ => rfl) (fun _ _ _ => rfl)
      (fun _ _ _ _ => rfl) (fun _ _ => rfl)
  · refine soloWord_bare (m := semJpt f) (Sem.bare_of_plain rfl) (fun _ => rfl) (fun _ _ _ => rfl)
      (fun _ _ hslot hw => jptBody_expects hw hslot) (fun s c => ?_)
    split <;> rfl
  · refine soloWord_bare (m := semJoin f) (Sem.bare_of_plain rfl) (fun _ => rfl) (fun _ _ _ => rfl)
      (fun _ _ _ hw => joinBody_arrives hw) (fun s c => ?_)
    split <;> rfl
  · refine soloWord_bare (m := semYield f) (Sem.bare_of_plain rfl) (fun _ => rfl) (fun _ _ _ => rfl)
      (fun s c _ _ => semYield_body f s c) (fun s c => ?_)
    split
    · rfl
    · exact yieldWave_bad ..
  · exact soloWord_bare (m := semExit f) (Sem.bare_of_plain rfl) (fun _ => rfl) (fun _ _ _ => rfl)
      (fun _ _ hm _ => if_pos hm) (fun _ _ => rfl)
  · exact soloWord_bare (m := semExit f) (Sem.bare_of_plain rfl) (fun _ => rfl) (fun _ _ _ => rfl)
      (fun _ _ hm _ => if_neg (by rw [hm]; exact Bool.false_ne_true)) (fun _ _ => retireIfDone_bad ..)

/-- Settles O13: each word is its body; the lowest Active lane is the first of the Active lanes. -/
theorem waveRegisterResults : Obligations.WaveRegisterResults := by
  unfold Obligations.WaveRegisterResults
  intro f low put q
  refine ⟨fun h => ?_, fun h => ?_, ?_, ?_, fun h => ?_, ?_⟩
  · refine waveWord_of (m := semWmov f) (fun _ => rfl) (semWmov_ops_V h) (fun _ _ _ _ hq => wmov_legal hq ..)
      (fun _ _ _ _ _ => rfl) (fun _ _ _ _ _ => rfl) (fun _ _ _ _ _ => rfl) ?_ (fun _ _ _ hb => hb)
    intro s c _ _ _ _ _
    exact ⟨_, semWmov_body_V h s c, rfl, rfl, rfl, rfl, rfl, fun _ => rfl⟩
  · exact soloWord_of (m := semWmov f) (fun _ => rfl) (semWmov_ops_W h) (fun _ _ hq => wmov_legal hq ..)
      (fun _ _ _ => rfl) (fun _ _ _ => rfl) (fun _ _ _ => rfl) (fun s c _ _ _ _ _ => semWmov_body_W h s c)
      (fun _ _ _ hb => hb)
  · refine waveWord_of (m := semSets f) (fun _ => rfl) (fun _ _ _ => rfl) (fun _ _ _ _ hk => sets_legal hk.2 ..)
      (fun _ _ _ _ _ => rfl) (fun _ _ _ _ _ => rfl) (fun _ _ _ _ _ => rfl) ?_ (fun _ _ _ hb => hb)
    intro s c hk _ _ _ _
    exact ⟨_, setsBody_writes hk.1, rfl, rfl, rfl, rfl, rfl, fun _ => rfl⟩
  · exact soloWord_bare (m := semWin f) (Sem.bare_of_plain rfl) (fun _ => rfl) (fun _ _ _ => rfl)
      (fun _ _ hk _ => semWin_loads hk) (fun _ _ => rfl)
  · refine waveWord_of (m := { Sem.plain f with ops := fun _ _ l => [opD f l], body := tagBody f })
      (fun s => congrArg (fun m => execX m s) (semTag_sets h)) (fun _ _ _ => rfl) (fun _ _ _ _ _ => rfl)
      (fun _ _ _ _ _ => rfl) (fun _ _ _ _ _ => rfl) (fun _ _ _ _ _ => rfl) ?_ (fun _ _ _ hb => hb)
    intro s c _ _ _ _ htx
    exact ⟨_, tagBody_alone htx, rfl, rfl, rfl, rfl, rfl, fun _ => rfl⟩
  · exact soloWord_bare (m := semSetf f) (Sem.bare_of_plain rfl) (fun _ => rfl) (fun _ _ _ => rfl)
      (fun _ _ _ _ => rfl) (fun _ _ => raiseFlags_bad ..)

/-- Settles O36: each word is a wait for its condition; only WAITM has an effect where it does not end. -/
theorem waitResults : Obligations.WaitResults := by
  unfold Obligations.WaitResults
  intro f waits counter tail engine lap word
  refine ⟨?_, ?_, ?_, ?_, ?_, ?_, fun l => ⟨?_, ?_, ?_⟩⟩
  -- WAITC
  · exact waits_of (m := semWaitcReg f) (Sem.bare_of_plain rfl) (fun _ => rfl) (fun _ _ _ => rfl)
      (fun _ _ _ hw => waitcBody_found hw) (fun _ _ h => decide_eq_true h)
      (fun _ _ h => decide_eq_false (Nat.not_le.2 h)) (fun _ _ => rfl) (fun _ _ => endWaitc_bad ..)
  · exact waits_of (m := semWaitcImm f) (Sem.bare_of_plain rfl) (fun _ => rfl) (fun _ _ _ => rfl)
      (fun _ _ _ hw => waitcBody_found hw) (fun _ _ h => decide_eq_true h)
      (fun _ _ h => decide_eq_false (Nat.not_le.2 h)) (fun _ _ => rfl) (fun _ _ => endWaitc_bad ..)
  -- WAITQ
  · exact waits_of (m := semWaitqReg f) (Sem.bare_of_plain rfl) (fun _ => rfl) (fun _ _ _ => rfl)
      (fun _ _ hk _ => semWaitqReg_body_open hk.1 hk.2)
      (fun _ _ h => decide_eq_true h) (fun _ _ h => decide_eq_false (Nat.not_le.2 h)) (fun _ _ => rfl) (fun _ _ => rfl)
  · exact waits_of (m := semWaitqImm f) (Sem.bare_of_plain rfl) (fun _ => rfl) (fun _ _ _ => rfl)
      (fun _ _ hk _ => waitqBody_open hk.2) (fun _ _ h => decide_eq_true h)
      (fun _ _ h => decide_eq_false (Nat.not_le.2 h)) (fun _ _ => rfl) (fun _ _ => rfl)
  -- WAITL
  · exact waits_of (m := semWaitlReg f) (Sem.bare_of_plain rfl) (fun _ => rfl) (fun _ _ hk => hk.1)
      (fun s c hk hw => waitlBody_allowed hk.2.1 hk.2.2) (fun _ _ h => h)
      (fun _ _ h => Bool.eq_false_iff.2 h) (fun _ _ => rfl) (fun _ _ => rfl)
  · exact waits_of (m := semWaitlImm f) (Sem.bare_of_plain rfl) (fun _ => rfl) (fun _ _ hk => hk.1)
      (fun s c hk hw => waitlBody_allowed hk.2.1 hk.2.2) (fun _ _ h => h)
      (fun _ _ h => Bool.eq_false_iff.2 h) (fun _ _ => rfl) (fun _ _ => rfl)
  -- WAITM
  · refine waitm_of (fun _ _ hk => hk.1.1) ?_ (fun _ _ => (acquireAt_bad ..).trans (waitmUse_bad ..))
    rintro s c ⟨⟨-, hchk⟩, n, hr, hc⟩ hw htx
    rw [waitmBody_read hw hchk htx hr, hc]
    rfl
  · refine waitm_of (fun _ _ hk => hk.1.1) ?_ (fun _ _ => (waiting_bad ..).trans (waitmUse_bad ..))
    rintro s c ⟨⟨-, hchk⟩, n, hr, hc⟩ hw htx
    rw [waitmBody_read hw hchk htx hr, hc]
    rfl
  · refine waitm_of (fun _ _ hk => hk.1.1) ?_ (fun _ _ => waiting_bad ..)
    rintro s c ⟨⟨-, hchk⟩, hr⟩ hw _
    rw [waitmBody_unread hw hchk hr]
    rfl

end Sys2Proof.Proofs
end

