-- ==== Sys2Proof/Proofs/Reads.lean ====
section
/-!
PROOF. What the steps of a read producer do: its value is performed, lands or fails; and soft errors of registers.
-/
namespace Sys2Proof.Machine

section
variable {s : State} {u fid k : Nat} {w : Wave} {fl : Flight} {j : Job}

/-- A job is one of a flight of its wave. -/
theorem jobOf_found (h : jobOf s u fid k = some (w, fl, j)) :
    s.wave? u = some w ∧ w.flights.find? (·.id == fid) = some fl ∧ fl.jobs[k]? = some j := by
  unfold jobOf at h
  split at h
  · cases h
  · rename_i v hv
    split at h
    · cases h
    · rename_i f hf
      obtain ⟨x, hx, he⟩ := Option.map_eq_some_iff.1 h
      cases he
      exact ⟨hv, hf, hx⟩

/-! ## Performing (R69, R355, R384) -/

theorem registerWriteback_stage (h : jobOf s u fid k = some (w, fl, j)) (hl : j.landed = false)
    (hr : readReady s w fl k j = true) (ha : jobAsleep s w fid j false = false) :
    registerWriteback u fid k .stage s = performJob s u fid k j false := by
  unfold registerWriteback
  simp only [h, hl, hr, ha, Bool.not_false, Bool.and_self, Bool.false_eq_true, if_false, if_true]

theorem performJob_regq {comp idx sel : Nat} (h : j.src = .regq comp idx sel) (hit : Bool) :
    performJob s u fid k j hit = s.mapWave u (fun v => { v with flights := v.flights.map (fun x =>
      if x.id = fid then { x with jobs := x.jobs.map (fun j => if j.src == .regq comp idx sel then
        { j with val := some (natWords 2 (regWord (regionDesc s comp idx) sel)) } else j) } else x) }) := by
  unfold performJob
  simp only [h]

theorem performJob_cseq {e : Nat} (h : j.src = .cseq e) (hit : Bool) :
    performJob s u fid k j hit =
      s.mapWave u (fun v => v.setJob fid k (fun j => { j with val := some (natWords 2 (engSeq s e)) })) := by
  unfold performJob
  simp only [h]

/-- A read of memory that neither the store queue nor the L1 answers takes the bytes of its location, once its request
has left. -/
theorem performMem_uncached {l : Loc} {size : Nat} {bs : List Byte} {t : State} (hw : s.wave? u = some w)
    (hf : forward s w fid j.path j.va (l.addrs s) = none) (hc : cachedPath j.path = false)
    (ht : askPeer (useLoc s false (waveCtx s w) (w.core / 96) j.path j.va l) (waveCtx s w) j.path j.va size .read = t)
    (hr : coreRead t w.core l = (bs, false)) :
    performMem s u fid k j l size false = setValue t u fid k j l size bs false := by
  unfold performMem
  simp only [hw, hf, Bool.false_eq_true, if_false, ht, hr, hc, Bool.false_and]
  split <;> rfl

theorem setValue_read (t : State) (l : Loc) (size : Nat) (bs : List Byte) :
    setValue t u fid k j l size bs false = t.mapWave u (fun v => seeRead (v.setJob fid k (fun x =>
      { x with val := some (natWords x.n (leNat (finishBytes size l (layFwd j.fwd bs)))) })) j.lane fid l (l.addrs t)) := rfl

theorem performJob_mem {l : Loc} {size : Nat} (h : j.src = .mem l size) (hit : Bool) :
    performJob s u fid k j hit = performMem s u fid k j l size hit := by
  unfold performJob
  simp only [h]

/-! ## Landing (R69, R73, R80, R96) -/

/-- A value that is there is not performed again. -/
theorem readReady_performed {ws : List Word} (h : j.val = some ws) : readReady s w fl k j = false := by
  have hp : j.performed = true := by unfold Job.performed; rw [h]; simp
  unfold readReady
  rw [hp]
  simp

theorem landValue_plain (h : j.path ≠ pathSteppe) (ws : List Word) :
    landValue s u fid k fl j ws = landJob s u fid k ws j.tag := by
  unfold landValue
  rw [if_neg (fun hc => h hc.1)]

theorem registerWriteback_lands {ws : List Word} (h : jobOf s u fid k = some (w, fl, j)) (hl : j.landed = false)
    (hv : j.val = some ws) (he : j.err = none) (hp : j.path ≠ pathSteppe) (hwhole : fl.whole j = true)
    (hlost : fl.halfLost j = false) (hit : Bool) :
    registerWriteback u fid k (.land hit) s = landJob s u fid k ws j.tag := by
  unfold registerWriteback
  simp only [h, hl, readReady_performed hv, hv, he, hwhole, hlost, Bool.false_and, Bool.not_true, Bool.false_eq_true, if_false]
  exact landValue_plain hp ws

/-- What landing does: the registers that still wait for the flight take the words, with their tags; then the
quarantined ones are free, and the flight may end. -/
theorem landJob_lands (h : jobOf s u fid k = some (w, fl, j)) (hl : j.landed = false) (ws : List Word) (tag : Ety) :
    landJob s u fid k ws tag =
      (let owed := (w.thread j.lane).owed fid j.dst j.n
       endFlight (releaseQuar (s.mapWave u (fun v =>
        let v := owed.foldl (fun v r => { v with tags := fset .bits v.tags r tag }) v
        let v := v.mapThread j.lane (fun t => t.land fid j.dst ws)
        let v := v.setJob fid k (fun j => { j with landed := true, flags := if owed.isEmpty then 0 else j.flags })
        if fl.fpx && !owed.isEmpty then v.orFlags j.flags else v)) w.qn (w.lane + j.lane) fid (rangeFrom j.dst j.n)) u fid) := by
  obtain ⟨hw, hf, hj⟩ := jobOf_found h
  unfold landJob
  simp only [hw, hf, hj, hl, Bool.false_eq_true, if_false]

/-! ## Failing (R180, R188) -/

theorem landLost_plain (h : j.path ≠ pathSteppe) :
    landLost s u fid k w fl j =
      if w.inHandler j.lane then returnUnwritten s u fid k w j else landJob s u fid k (List.replicate j.n 0) j.tag := by
  unfold landLost
  simp only [h, if_false, landValue_plain h]

theorem readErrorReturn_fails {c : Cause} (h : jobOf s u fid k = some (w, fl, j)) (hl : j.landed = false)
    (he : j.err = some c) (hp : j.path ≠ pathSteppe) (uncorr : Bool) :
    readErrorReturn u fid k uncorr s =
      (let s := s.mapWave u (fun v => v.setJob fid k (fun y => { y with err := some c }))
       let s := if w.inHandler j.lane then returnUnwritten s u fid k w j
         else landJob s u fid k (List.replicate j.n 0) j.tag
       s.mapWave u (fun v => addDefer v ⟨bitM j.lane, c, fl.pc, [(j.lane, j.errTval c)]⟩)) := by
  unfold readErrorReturn
  simp only [h, hl, he, Option.isSome_some, Bool.true_or, Bool.not_true, Bool.or_self, Bool.false_eq_true, if_false,
    Option.getD_some, landLost_plain hp]
  rfl

/-! ## Infuser blocks (R440) -/

theorem infuserDecode_decodes {b : Block} {size : Nat} (h : jobOf s u fid k = some (w, fl, j))
    (hsrc : j.src = .mem (.infuse b) size) (hb : blockReady s w fl k j b = true) :
    infuserDecode u fid k s =
      (let s := useLoc s false (waveCtx s w) (w.core / 96) j.path j.va (.infuse b)
       let ad := codedBytes s b
       s.mapWave u (fun v => v.setJob fid k (fun x =>
        if (coreRead s w.core (.bytes ad .plain)).2 then { x with err := some (poisonCause s ad) }
        else match decodeBlock (coreBytes s w.core (rangeFrom b.hdr b.slot)) b with
          | some raw => { x with val := some (natWords x.n (leNat (layFwd j.fwd ((raw.drop b.off).take size)))) }
          | none => { x with err := some .check }))) := by
  unfold infuserDecode
  simp only [h, hsrc, hb, Bool.not_true, Bool.false_eq_true, if_false]
  split
  · rfl
  · generalize decodeBlock _ b = raw?
    cases raw? with
    | none => rfl
    | some raw => rfl

end

/-! ## Soft errors (R64, R173) -/

section
variable {s : State} {u l n : Nat} {w : Wave} (hw : s.wave? u = some w) (hr : w.retired = false) (hl : l < w.width)
include hw hr hl

/-- A V register of the allocation. -/
theorem registerSoftError_V (htop : n < w.top) (hn : n < 2048) :
    registerSoftError u l n s = s.mapWave u (fun v => v.mapThread l (fun t =>
      if t.soft.contains n then t else { t with soft := t.soft ++ [n] })) := by
  unfold registerSoftError
  simp only [hw, hr, hn, htop, Nat.not_le.2 hl, decide_true, decide_false, Bool.not_true, Bool.or_self, Bool.false_eq_true,
    if_true, if_false]
  rw [if_neg (by omega)]

/-- A W or Q register. -/
theorem registerSoftError_wave (hn : n < 80) :
    registerSoftError u l (8192 + n) s =
      s.mapWave u (fun v => { v with wsoft := n :: v.wsoft.filter (· != n) }) := by
  unfold registerSoftError
  simp only [hw, hr, Nat.not_le.2 hl, show ¬ 8192 + n < 2048 by omega, show ¬ 8192 + n < 4096 by omega,
    show ¬ 8192 + n < 8192 by omega, show 8192 + n < 8192 + 80 by omega, decide_true, decide_false, Bool.true_or, Bool.not_true,
    Bool.or_self, Bool.false_eq_true, if_false, Nat.add_sub_cancel_left]
  rw [if_pos (by omega)]

/-- A P or X register of the thread. -/
theorem registerSoftError_thread (h0 : 0 < n) (hn : n < 12) :
    registerSoftError u l (16384 + n) s = s.mapWave u (fun v => v.mapThread l (fun t =>
      if t.soft.contains (16384 + n) then t else { t with soft := t.soft ++ [16384 + n] })) := by
  unfold registerSoftError
  simp only [hw, hr, Nat.not_le.2 hl, show ¬ 16384 + n < 2048 by omega, show ¬ 16384 + n < 4096 by omega,
    show ¬ 16384 + n < 8192 by omega, show 16384 < 16384 + n by omega, show 16384 + n < 16392 + 4 by omega, decide_true,
    decide_false, Bool.and_self, Bool.or_true, Bool.not_true, Bool.or_self, Bool.false_eq_true, if_false]
  rw [if_neg (by omega)]

end

end Sys2Proof.Machine

namespace Sys2Proof.Proofs
open Sys2Proof.Machine

/-- Settles O42: each step is a function of the state, and the lemmas above say to what it comes. -/
theorem readEvents : Obligations.ReadEvents := by
  unfold Obligations.ReadEvents
  intro u fid k w fl j job ready value used asked
  refine ⟨fun ws hit => ?_, fun comp idx sel => ?_, fun e => ?_, fun l size bs => ?_, fun c x => ?_, fun b size => ?_,
    fun l n => ?_, fun l n => ?_, fun l n => ?_⟩
  · refine happens_of (registerWriteback u fid k (.land hit)) (fun _ => rfl) ?_
    rintro s ⟨⟨hj, hl⟩, hv, he, hp, hwhole, hlost⟩
    rw [registerWriteback_lands hj hl hv he hp hwhole hlost, landJob_lands hj hl]
  · refine happens_of (registerWriteback u fid k .stage) (fun _ => rfl) ?_
    rintro s ⟨⟨⟨hj, hl⟩, hr, ha⟩, hsrc⟩
    rw [registerWriteback_stage hj hl hr ha, performJob_regq hsrc]
  · refine happens_of (registerWriteback u fid k .stage) (fun _ => rfl) ?_
    rintro s ⟨⟨⟨hj, hl⟩, hr, ha⟩, hsrc⟩
    rw [registerWriteback_stage hj hl hr ha, performJob_cseq hsrc]
  · refine happens_of (registerWriteback u fid k .stage) (fun _ => rfl) ?_
    rintro s ⟨⟨⟨hj, hl⟩, hr, ha⟩, hsrc, hf, hc, hread⟩
    rw [registerWriteback_stage hj hl hr ha, performJob_mem hsrc,
      performMem_uncached (jobOf_found hj).1 hf hc rfl hread, setValue_read]
  · refine happens_of (readErrorReturn u fid k x) (fun _ => rfl) ?_
    rintro s ⟨⟨hj, hl⟩, he, hp⟩
    exact readErrorReturn_fails hj hl he hp x
  · refine happens_of (infuserDecode u fid k) (fun _ => rfl) ?_
    rintro s ⟨⟨hj, -⟩, hsrc, hb⟩
    exact infuserDecode_decodes hj hsrc hb
  · exact happens_of (registerSoftError u l n) (fun _ => rfl)
      (fun s ⟨hw, hr, hl, htop, hn⟩ => registerSoftError_V hw hr hl htop hn)
  · exact happens_of (registerSoftError u l (8192 + n)) (fun _ => rfl)
      (fun s ⟨hw, hr, hl, hn⟩ => registerSoftError_wave hw hr hl hn)
  · exact happens_of (registerSoftError u l (16384 + n)) (fun _ => rfl)
      (fun s ⟨hw, hr, hl, h0, hn⟩ => registerSoftError_thread hw hr hl h0 hn)

end Sys2Proof.Proofs
end

