-- ==== Sys2Proof/Proofs/Step.lean ====
section
/-!
PROOF. A step runs the word at the program counter of the entry that it chooses, or of the word that stands by.
-/
namespace Sys2Proof.Machine

/-! ## Fetch (R223, R252) -/

section
variable {s : State} {k : Key} {c : Code} (hc : s.code? k.code = some c)
include hc

theorem fetch_inside (h : k.pc.toNat < c.size) :
    (fetch s k).2 = decodeFetched (BitVec.ofNat 64 (devNat s (c.base + k.pc.toNat) 8)) := by
  unfold fetch
  simp only [hc, if_neg (Nat.not_le.2 h)]

theorem fetch_outside (h : c.size ≤ k.pc.toNat) : (fetch s k).2 = .textOverrun := by
  unfold fetch
  simp only [hc, if_pos h]

end

theorem decodeFetched_ok {w : DWord} {i : Instr} (h : decode w = .ok i) : decodeFetched w = i := by
  unfold decodeFetched
  rw [h]

theorem decodeFetched_error {w : DWord} {x : Reject} (h : decode w = .error x) : decodeFetched w = .illegalWord w := by
  unfold decodeFetched
  rw [h]

/-- What holds of the fetched instruction holds of the word at the PC as it decodes, of ILLEGAL where it decodes to
nothing, and of the end of the text. -/
theorem fetch_reads {s : State} {k : Key} {run : Instr → Prop} (h : run (fetch s k).2) (c : Code)
    (hc : s.code? k.code = some c) :
    (∀ w i, k.pc.toNat < c.size → w = BitVec.ofNat 64 (devNat s (c.base + k.pc.toNat) 8) → decode w = .ok i → run i) ∧
    (∀ w x, k.pc.toNat < c.size → w = BitVec.ofNat 64 (devNat s (c.base + k.pc.toNat) 8) → decode w = .error x →
      run (.illegalWord w)) ∧
    (c.size ≤ k.pc.toNat → run .textOverrun) := by
  refine ⟨?_, ?_, fun hpc => fetch_outside hc hpc ▸ h⟩
  · rintro w i hpc rfl hw
    rw [fetch_inside hc hpc, decodeFetched_ok hw] at h
    exact h
  · rintro w x hpc rfl hw
    rw [fetch_inside hc hpc, decodeFetched_error hw] at h
    exact h

/-! ## The first word of a cycle (R51) -/

/-- The state in which the first word of a cycle is executed, with the second one standing by (R284). -/
def firstBegun (t : State) (qn n : Nat) (e : Entry) (b : Option (Nat × Entry)) : State :=
  { (t.mapQuad qn (fun q => { q with
      second := b.map (fun x => { issueOf t qn x.1 x.2 with snap := t.waves })
      recent := (b.getD (n, e)).2.parts.map (·.wave)
      table := q.table.map (fun x =>
        if x.1 = n ∨ (b.map (·.1)) = some x.1 then (x.1, { x.2 with age := 0 }) else x) })) with
    cur := some (issueOf t qn n e), turn := qn + 1 }

theorem issueAt_first (t : State) (qn n : Nat) (e : Entry) (b : Option (Nat × Entry)) :
    issueAt t qn (n, e) b =
      followedBy (exec (fetch t e.key).2 (firstBegun t qn n e b)) (fun r => settle r (some (qn, n))) := by
  unfold issueAt firstBegun
  cases b with
  | none => simp only [Option.map_none, Option.getD_none, Bool.or_false, beq_iff_eq, reduceCtorEq, or_false]
  | some y =>
    simp only [Option.map_some, Option.getD_some, Bool.or_eq_true, beq_iff_eq, Option.some.injEq, eq_comm (a := y.1)]

theorem runStep_free {s : State} (h1 : standby s = none) (h2 : firstDue s = none) (h3 : s.agenda = []) :
    runStep s = runFree s := by
  unfold runStep
  simp only [h1, h2, h3]

/-- In the issue part of a round the first quadrant in turn issues the entry that it chooses. -/
theorem runFree_issues {s t : State} {qn : Nat} {qs : List Nat} {a : Nat × Entry} {b : Option (Nat × Entry)}
    (hplace : s.place < ownFrom) (hturn : turnOrder s = qn :: qs) (ht : leaveAll (tick s qn) qn = t)
    (hc : choose t qn = some (a, b)) : runFree s = issueAt t qn a b := by
  unfold runFree
  rw [if_pos hplace, hturn]
  unfold issueNext
  simp only [ht, hc]

/-! ## The second word of a cycle (R284) -/

theorem runStep_second {s : State} {qn : Nat} {j : Issue} (h : standby s = some (qn, j)) :
    runStep s = secondAt s qn j := by
  unfold runStep
  simp only [h]

end Sys2Proof.Machine

namespace Sys2Proof.Proofs
open Sys2Proof.Machine

/-- Settles O59: the step comes to the issue of the chosen entry, or of the second word, and this runs what is fetched. -/
theorem stepRunsDecoded : Obligations.StepRunsDecoded := by
  unfold Obligations.StepRunsDecoded
  intro reads around
  constructor
  · intro s t qn qs n e b h1 h2 h3 hplace hturn ht hc begun
    refine fetch_reads ?_
    show followedBy (runStep s) advanceNow = _
    rw [runStep_free h1 h2 h3, runFree_issues hplace hturn ht hc, issueAt_first]
    rfl
  · intro s qn j h begun
    refine fetch_reads ?_
    show followedBy (runStep s) advanceNow = _
    rw [runStep_second h]
    rfl

end Sys2Proof.Proofs
end

