-- ==== Sys2Proof/Proofs/Format.lean ====
section
/-!
PROOF. FORMAT stops the whole word: no issuing thread acts, and all of them take it together (R81, R182, R231).
-/
namespace Sys2Proof.Machine

/-- A word whose issuing threads all stay moves none of them. -/
theorem leaveWord_all_stay (i : Issue) (g : Mask) (go : Nat → Option Word) (v : Wave) : leaveWord i g g go v = v := by
  unfold leaveWord
  rw [mapIdx_self v.threads _ (fun l t => by simp)]

section
variable {m : Sem} {s : State} {i : Issue} {w : Wave} {g : Mask} {tv : DWord}

/-- A share whose Active lanes wait neither for registers nor for a tile stands ready. -/
theorem ready_unhindered {p : Share}
    (hfull : ∀ l ∈ lanesOf (m.active p.rd p.grp), waitsFor p.rd (m.live s p.rd l) = [])
    (htile : m.active p.rd p.grp = 0 ∨ m.tile s p.rd (m.active p.rd p.grp) = none) :
    m.ready s p = m.clearReady p := by
  rw [ready_full hfull]
  obtain h0 | hnone := htile
  · simp only [h0, beq_self_eq_true, if_true]
    rw [Sem.clearReady, h0]
  · simp only [hnone, ite_self]
    rfl

/-- Where FORMAT stops a word of which no thread raises an earlier cause, every thread of a share raises it. -/
theorem runShare_format {p : Share} (hg : p.grp ≠ 0)
    (hsound : ∀ l ∈ lanesOf (m.active p.rd p.grp), laneTrap m.wsrc p.rd l (m.live s p.rd l) = none)
    (hill : m.valueIllegal s (shareCtx s i m.grd p) = []) :
    runShare m i (some tv) s p (m.clearReady p) =
      settleShare i m p.u p.rd p.grp (trapsOf .format p.grp (fun _ => tv)) { st := s } := by
  have hearly : ((lanesOf (m.active p.rd p.grp)).map (fun l => (l, m.live s p.rd l))).filterMap
      (fun x => laneTrap m.wsrc p.rd x.1 x.2) = [] := by
    rw [List.filterMap_map, List.filterMap_eq_nil_iff]
    exact hsound
  have hill' : m.valueIllegal s ⟨i, p.rd, p.u, p.grp, m.active p.rd p.grp, s.team? p.rd.team⟩ = [] := hill
  unfold runShare Sem.clearReady trapsOf
  simp only [Ready.left, List.map_nil, maskOf_nil, and_not_zero, Option.isSome_none, Bool.false_eq_true, if_false,
    beq_eq_false_iff_ne.2 hg, hearly, hill', List.nil_append]

/-- Where FORMAT stops the word of one wave, and no earlier cause, all its issuing threads enter handler mode with it. -/
theorem issueFull_format (I : Issues s i w g) (C : Calm s w g) (hlegal : m.legal s w i.hm = true)
    (hhold : m.hold s w (m.active w g) = false) (htile : m.active w g = 0 ∨ m.tile s w (m.active w g) = none)
    (hill : m.valueIllegal s (soloCtx s i m.grd w g) = [])
    (hfmt : firstFormat (m.formats s w g (m.active w g)) = some tv)
    (hfull : ∀ l ∈ lanesOf (m.active w g), waitsFor w (m.live s w l) = [])
    (hsound : ∀ l ∈ lanesOf (m.active w g), operandTrap w l (m.live s w l) = none) :
    issueFull m s = s.mapWave w.uid (Wave.enter .format i.key.pc g (fun _ => tv) w.handler) := by
  have hbad : firstFormat (if (m.clearReady ⟨w.uid, w, g⟩).left ⟨w.uid, w, g⟩ == 0 then []
      else m.formats s w g (m.clearReady ⟨w.uid, w, g⟩).act) = some tv := by
    simp only [Sem.clearReady, Ready.left, List.map_nil, maskOf_nil, and_not_zero, Option.isSome_none,
      Bool.false_eq_true, if_false, beq_eq_false_iff_ne.2 I.lanes, hfmt]
  have hstay : s.mapWave w.uid (leaveWord i g g (fun _ => none)) = s := by
    rw [funext (leaveWord_all_stay i g _), State.mapWave_id]
  rw [issueFull_one I hlegal hhold (ready_unhindered (p := ⟨w.uid, w, g⟩) hfull htile), leaveWaiters_clear, hbad]
  calc runShare m i (some tv) s ⟨w.uid, w, g⟩ (m.clearReady ⟨w.uid, w, g⟩)
    _ = settleShare i m w.uid w g (trapsOf .format g (fun _ => tv)) { st := s } :=
      runShare_format (p := ⟨w.uid, w, g⟩) I.lanes
        (fun l hl => (laneTrap_steady I.steady I.firm _ l _).trans (hsound l hl)) hill
    _ = takeTraps (s.mapWave w.uid (leaveWord i g g (fun _ => none))) w.uid i.key.pc (trapsOf .format g (fun _ => tv)) :=
      settleShare_early I.late rfl (C.single _)
    _ = (s.mapWave w.uid (leaveWord i g g (fun _ => none))).mapWave w.uid
        (Wave.enter .format i.key.pc g (fun _ => tv) w.handler) := takeTraps_left I C I.lanes rfl (by decide)
    _ = s.mapWave w.uid (Wave.enter .format i.key.pc g (fun _ => tv) w.handler) := by rw [hstay]

end

end Sys2Proof.Machine

namespace Sys2Proof.Proofs
open Sys2Proof.Machine

/-- Settles O23: no lane acts, so that the word is the FORMAT of all its issuing threads, which they take at once. -/
theorem formatEntry : Obligations.FormatEntry := by
  unfold Obligations.FormatEntry
  intro ins m tv s i w g hsem A act live hcalm hlegal hhold htile hill hfmt hfull hsound
  exact exec_next hsem (issueFull_format A.toIssues hcalm hlegal hhold htile hill hfmt hfull hsound) A.sound

end Sys2Proof.Proofs
end

