-- ==== Sys2Proof/Proofs/Tiles.lean ====
section
/-!
PROOF. Words on tiles that act at once: TDEF, TSTATE, TWAIT, TZERO and TWR (R126 to R130, R346, R347, R352, R353).
-/
namespace Sys2Proof.Machine

/-- The law of a word whose body comes to a new state and nothing else. -/
theorem waveWord_body {ins : Instr} {m : Sem} {ops : State → Wave → Nat → List Opnd} {ok : State → Ctx → Prop}
    {eff : State → Ctx → State} (hex : ∀ s, exec ins s = execX m s) (hops : ∀ s w l, m.ops s w l = ops s w l)
    (hlegal : ∀ s w hm, m.legal s w hm = true)
    (hhold : ∀ s u n c, ok (counted s u n) c → m.hold s c.rd c.act = false)
    (htile : ∀ s u n c, ok (counted s u n) c → m.tile s c.rd c.act = none)
    (hfmt : ∀ s u n c, ok (counted s u n) c → m.fmt s c.rd c.act = none)
    (hbody : ∀ s c, ok s c → c.act ≠ 0 → c.tx = false → m.body s c = { st := eff s c })
    (hbad : ∀ s c, ok s c → (eff s c).bad = s.bad) : WaveWord ins m.grd ops ok eff (fun _ => 0) (fun _ _ => none) :=
  waveWord_of hex hops (fun s _ _ c _ => hlegal s c.rd c.hm) hhold htile hfmt
    (fun s c hk h0 _ _ htx => ⟨_, hbody s c hk h0 htx, rfl, rfl, rfl, rfl, rfl, fun _ => rfl⟩)
    (fun s c hk hb => (hbad s c hk).trans hb)

/-! ## Registers of a tile (R352) -/

/-- The byte offset that a thread's index names in a tile. -/
def regOff (f : Full) (t : Thread) : Nat := (t.reg f.bn).toNat * regBytes f

/-- Every Active lane names registers inside the tile's image. -/
def InTile (f : Full) (e : DWord) (c : Ctx) : Prop := ∀ l ∈ c.lanes, regOff f (c.rd.thread l) + regBytes f ≤ tLen e

theorem tileOff_inside {f : Full} {e : DWord} {t : Thread} (h : regOff f t + regBytes f ≤ tLen e) :
    tileOff f e t = some (regOff f t) := if_neg (Nat.not_lt.2 h)

/-- Lanes inside the image have their offsets. -/
theorem InTile.offsets {f : Full} {e : DWord} {c : Ctx} (h : InTile f e c) :
    c.lanes.map (fun l => (l, tileOff f e (c.rd.thread l))) = c.lanes.map (fun l => (l, some (regOff f (c.rd.thread l)))) :=
  List.map_congr_left (fun l hl => by rw [tileOff_inside (h l hl)])

/-- Where each lane has its value, no lane is without one. -/
theorem filter_isNone_some {α β : Type} (g : α → β) (ls : List α) :
    (ls.map (fun l => (l, some (g l)))).filter (fun p => p.2.isNone) = [] := by
  rw [List.filter_eq_nil_iff]
  intro p hp
  obtain ⟨l, -, rfl⟩ := List.mem_map.1 hp
  exact Bool.false_ne_true

theorem filterMap_some {α β γ : Type} (g : α → β) (k : α → β → γ) (ls : List α) :
    (ls.map (fun l => (l, some (g l)))).filterMap (fun p => p.2.map (fun o => k p.1 o)) = ls.map (fun l => k l (g l)) := by
  rw [List.filterMap_map]
  exact filterMap_of_some (fun _ _ => rfl)

theorem lanes_ne_nil {c : Ctx} (h : c.act ≠ 0) : c.lanes ≠ [] := by
  obtain ⟨l, hl⟩ := exists_lane h
  exact List.ne_nil_of_mem hl

theorem isEmpty_map_lanes {c : Ctx} {α : Type} (h : c.act ≠ 0) (g : Nat → α) : (c.lanes.map g).isEmpty = false := by
  rw [List.isEmpty_map]
  simpa using lanes_ne_nil h

/-! ## Bodies -/

section
variable {f : Full} {s : State} {c : Ctx} {e : DWord} {t : Team}

/-- TDEF of an entry that it takes. -/
theorem tdefBody_defines (hn : (namedTile s c.rd (f.dst.toNat % 256) true).isSome = true) (ht : c.team = some t)
    (hok : tdefOk t (BitVec.ofNat 64 ((c.rd.thread ((lowest c.act).getD 0)).val f.an 2)) f.ety = true) :
    tdefBody f s c = { st := s.setTile t (f.dst.toNat % 256) (fun _ =>
      setTileState (setFmt (BitVec.ofNat 64 ((c.rd.thread ((lowest c.act).getD 0)).val f.an 2)) f.ety) 2) } := by
  obtain ⟨x, hx⟩ := Option.isSome_iff_exists.1 hn
  unfold tdefBody
  simp only [hx, ht, headD_lanes, hok, if_true]

/-- TSTATE spreads the named entry over the Active lanes. -/
theorem tstateBody_reads (hn : namedTile s c.rd (f.an % 256) true = some e) (htx : c.tx = false) :
    (semTstate f).body s c =
      { st := s.mapWave c.u (Wave.spread c.act f.dn .n64 e.toNat), flags := c.lanes.map (fun l => (l, 0)) } := by
  have h := lanewise_spread (fun _ _ _ => LaneOut.val f.dn .n64 e.toNat) s c f.dn .n64 e.toNat htx (fun _ _ => rfl)
  unfold semTstate
  simp only [hn]
  exact h

theorem twaitBody_ready (hn : (namedTile s c.rd (f.dst.toNat % 256) false).isSome = true) :
    (semTwait f).body s c = { st := s } := if_pos hn

theorem tzeroBody_writes {i : Nat} (hn : namedTile s c.rd i false = some e) (ht : c.team = some t) :
    tzeroBody i s c =
      (let z := List.replicate (tLen e) (0 : Byte)
       let bs := if tCmp e then codeTile z else z
       { st := poolWrite s (tileWriter s c) (tAddrs t e 0 bs.length) bs }) := by
  unfold tzeroBody
  simp only [hn, ht]

/-- The image of a tile after TWR: the Active lanes' registers, written in lane order. -/
def twrWritten (f : Full) (e : DWord) (t : Team) (s : State) (c : Ctx) : State :=
  c.lanes.foldl (fun st l => poolWrite st (tileWriter s c) (tAddrs t e (regOff f (c.rd.thread l)) (regBytes f))
    (leBytes (regBytes f) (f.valA (c.rd.thread l) f.ety))) s

theorem twrBody_writes (hn : namedTile s c.rd (f.dst.toNat % 256) false = some e) (ht : c.team = some t)
    (hcmp : tCmp e = false) (hin : InTile f e c) (h0 : c.act ≠ 0) :
    twrBody f s c = { st :=
      if f.ety == .bits then twrWritten f e t s c
      else (twrWritten f e t s c).setTile t (f.dst.toNat % 256) (fun e => setFmt e f.ety) } := by
  unfold twrBody
  simp only [hn, ht, hcmp, Bool.false_eq_true, if_false, hin.offsets, filter_isNone_some, filterMap_some,
    isEmpty_map_lanes h0, List.map_nil, List.foldl_map]
  rfl

theorem twrWritten_bad : (twrWritten f e t s c).bad = s.bad :=
  foldl_bad _ (fun _ _ => poolWrite_bad _ _ _ _ (tAddrs_ok _ _ _ _)) _ s

end

end Sys2Proof.Machine

namespace Sys2Proof.Proofs
open Sys2Proof.Machine

/-- Settles O31: each word is its body, and its body is what the statement says where no check fails. -/
theorem tileResults : Obligations.TileResults := by
  unfold Obligations.TileResults
  intro f i low
  refine ⟨?_, fun e => ?_, ?_, fun e t => ?_, fun e t => ?_⟩
  · refine waveWord_body (m := semTdef f) (fun _ => rfl) (fun _ _ _ => rfl) (fun _ _ _ => rfl) (fun _ _ _ _ _ => rfl)
      (fun _ _ _ _ hk => hk.1) (fun _ _ _ _ _ => rfl) ?_ ?_
    · rintro s c ⟨-, hn, t, ht, hok⟩ - -
      rw [ht]
      exact tdefBody_defines hn ht hok
    · rintro s c ⟨-, -, t, ht, -⟩
      rw [ht]
      exact setTile_bad ..
  · refine waveWord_zero (m := semTstate f) (fun _ => rfl) (fun _ _ _ => rfl) (fun _ _ _ _ _ => rfl)
      (fun _ _ _ _ _ => rfl) (fun _ _ _ _ _ => rfl) (fun _ _ _ _ _ => rfl) ?_ (fun _ _ _ hb => hb)
    intro s c hn _ _ _ htx
    refine ⟨_, tstateBody_reads hn htx, rfl, rfl, fun p hp => ?_, rfl, rfl, fun _ => rfl⟩
    obtain ⟨l, -, rfl⟩ := List.mem_map.1 hp
    rfl
  · exact soloWord_of (m := semTwait f) (fun _ => rfl) (fun _ _ _ => rfl) (fun _ _ _ => rfl) (fun _ _ _ => rfl)
      (fun _ _ hk => hk.1) (fun _ _ _ => rfl) (fun _ _ hk _ _ _ _ => twaitBody_ready hk.2) (fun _ _ _ hb => hb)
  · refine soloWord_of (m := semTzero f) (fun _ => rfl) (fun _ _ _ => rfl) (fun _ _ _ => rfl) ?_
      (fun _ _ hk => hk.1) (fun _ _ _ => rfl) ?_ (fun _ _ _ hb => (poolWrite_bad _ _ _ _ (tAddrs_ok _ _ _ _)).trans hb)
    · rintro s c ⟨-, hbusy, hread, -⟩
      exact Bool.or_eq_false_iff.2 ⟨hbusy, hread⟩
    · rintro s c ⟨-, -, -, hn, ht⟩ - - - -
      exact tzeroBody_writes hn ht
  · refine waveWord_body (m := semTwr f) (fun _ => rfl) (fun _ _ _ => rfl) (fun _ _ _ => rfl) ?_
      (fun _ _ _ _ hk => hk.1) (fun _ _ _ _ _ => rfl) ?_ ?_
    · rintro s u n c ⟨-, hbusy, hread, -⟩
      exact Bool.or_eq_false_iff.2 ⟨hbusy, hread⟩
    · rintro s c ⟨-, -, -, hn, ht, hcmp, hin⟩ h0 -
      exact twrBody_writes hn ht hcmp hin h0
    · intro s c _
      show State.bad (if f.ety == .bits then twrWritten f e t s c
        else (twrWritten f e t s c).setTile t i (fun e => setFmt e f.ety)) = s.bad
      split
      · exact twrWritten_bad
      · exact (setTile_bad ..).trans twrWritten_bad

end Sys2Proof.Proofs
end

