-- ==== Sys2Proof/Proofs/Transfers.lean ====
section
/-!
PROOF. Words on tiles that end later: the read of TRD (R129, R131, R352) and the transfers of TLD and TST (R348 to R351).
-/
namespace Sys2Proof.Machine

/-! ## TRD of an image as it stands (R352) -/

/-- Accesses without a generic address are not split. -/
theorem splitHalves_own {as : List Acc} (h : ∀ a ∈ as, a.gen = none) (s : State) (c : Ctx) (w : Want) :
    splitHalves s c w as = as := by
  have one : splitHalves s c w as = (as.map (fun a => [a])).flatten := by
    unfold splitHalves
    exact congrArg List.flatten (List.map_congr_left (fun a ha => by rw [h a ha]))
  rw [one, ← List.flatMap_def, List.flatMap_singleton']

section
variable {f : Full} {s : State} {c : Ctx} {e : DWord} {t : Team}

/-- An access of TRD reads pool bytes that are there, fills its registers and has no address to watch. -/
theorem mem_tileAccs {a : Acc} (ha : a ∈ tileAccs f t e c) : (∃ l, a.chk = .ok l) ∧ a.ragged = false ∧ a.gen = none := by
  obtain ⟨l, -, rfl⟩ := List.mem_map.1 ha
  exact ⟨⟨_, rfl⟩, rfl, rfl⟩

theorem tileAccs_ready (h0 : c.act ≠ 0) :
    AccsReady c [.read] (tileAccs f t e c) (splitHalves s c .read (tileAccs f t e c)) := by
  rw [splitHalves_own (fun a ha => (mem_tileAccs ha).2.2)]
  refine ⟨fun h => lanes_ne_nil h0 (List.map_eq_nil_iff.1 h), fun a ha => ?_, fun a ha => ?_⟩
  · obtain ⟨hchk, hrag, hgen⟩ := mem_tileAccs ha
    exact ⟨hchk, hrag, fun g hg => by rw [hgen] at hg; cases hg⟩
  · obtain ⟨hchk, hrag, -⟩ := mem_tileAccs ha
    exact ⟨hchk, hrag⟩

theorem trdBody_plain (hn : namedTile s c.rd (f.an % 256) false = some e) (ht : c.team = some t) (hcmp : tCmp e = false)
    (hin : InTile f e c) (h0 : c.act ≠ 0) (htx : c.tx = false) :
    trdBody f s c = { st := countReader s (loadBegun f (tileAccs f t e c) s c) c t (f.an % 256) } := by
  have haccs : (c.lanes.map (fun l => (l, some (regOff f (c.rd.thread l))))).filterMap (fun p => p.2.map (fun o =>
      ({ lane := p.1, chk := .ok (.bytes (tAddrs t e o (regBytes f)) .plain), gen := none, adr := tileVa e o,
         path := pathTile, size := regBytes f, dst := f.dn, n := f.ety.regs } : Acc))) = tileAccs f t e c :=
    List.filterMap_map.trans (filterMap_of_some (fun _ _ => rfl))
  unfold trdBody
  simp only [hn, ht, hcmp, Bool.not_false, if_true, hin.offsets, filter_isNone_some, haccs,
    loadAccs_ok f s (tileAccs_ready h0) htx, List.map_nil, List.append_nil]

/-! ## TRD of a compressed image (R131) -/

/-- The jobs of a TRD that has read the logical image at issue: bytes of it that are lost land as an error of their lane
(R326). -/
def imageJobs (f : Full) (e : DWord) (t : Team) (img : List Byte) (s : State) (c : Ctx) : List Job :=
  c.lanes.map (fun l =>
    { Job.known l f.dn f.ety (natWords f.ety.regs (leNat ((img.drop (regOff f (c.rd.thread l))).take (regBytes f)))) 0 with
      va := tileVa e (regOff f (c.rd.thread l))
      err := tileLost s c.rd.core t e [] (regOff f (c.rd.thread l)) (regBytes f) })

/-- A TRD of a compressed tile has issued. -/
def imageBegun (f : Full) (e : DWord) (t : Team) (img : List Byte) (s : State) (c : Ctx) : State :=
  ({ s with nextId := s.nextId + 1 }.mapWave c.u (Wave.begin
    { Flight.start s.nextId c.pc f.ety with mem := true, ldq := true, jobs := imageJobs f e t img s c })).mapWave c.u (fun w =>
      c.lanes.foldl (fun w l => noteSeen w l s.nextId (tAddrs t e 0 (tSize e))) w)

/-- A test that no element passes. -/
theorem filter_no {α : Type} (ls : List α) : ls.filter (fun _ => false) = [] :=
  List.filter_eq_nil_iff.2 (fun _ _ => Bool.false_ne_true)

/-- Outside a transaction no read is recorded. -/
theorem recordReads_alone {s : State} {c : Ctx} (htx : c.tx = false) (as : List Acc) : recordReads s c as = (s, true) := by
  unfold recordReads
  rw [htx]
  rfl

/-- Outside a transaction a producer begins, without the register log (R363). -/
theorem startFlight_alone {s : State} {c : Ctx} (htx : c.tx = false) (fl : Flight) :
    startFlight s c fl = (s.mapWave c.u (Wave.begin fl), true) := by
  unfold startFlight
  rw [htx]
  rfl

theorem trdBody_compressed {img : List Byte} (hn : namedTile s c.rd (f.an % 256) false = some e) (ht : c.team = some t)
    (hcmp : tCmp e = true) (himg : tileImage s c.rd.core t e = some img) (hin : InTile f e c) (h0 : c.act ≠ 0)
    (htx : c.tx = false) :
    trdBody f s c = { st := countReader s (imageBegun f e t img s c) c t (f.an % 256) } := by
  have himg : tileImageWith s c.rd.core t e [] = some img := himg
  unfold trdBody
  simp only [hn, ht, hcmp, Bool.not_true, Bool.false_eq_true, if_false, hin.offsets, htx, himg, List.map_map,
    List.filterMap_map, List.filter_map, Function.comp_def, List.filterMap_eq_map', Option.isNone_some, Bool.or_self,
    filter_no, List.map_nil, recordReads_alone htx, isEmpty_map_lanes h0, startFlight_alone htx, List.foldl_map]
  rfl

theorem imageBegun_bad (img : List Byte) : (imageBegun f e t img s c).bad = s.bad := rfl

/-- TRD is held neither by the operand log or LDQ nor, of a compressed tile, by earlier stores or loads (R161, R164, R186). -/
theorem semTrd_hold {w : Wave} {a : Mask} (hmem : memHold [0] s w a = false)
    (hn : namedTile s w (f.an % 256) false = some e)
    (hfree : tCmp e = true → tileBusy (f.an % 256) s w a = false ∧ loadsAhead s w a = false) :
    (semTrd f).hold s w a = false := by
  unfold semTrd
  simp only [hmem, hn, Bool.false_or, Bool.and_eq_false_imp, Bool.or_eq_false_iff]
  exact hfree

/-! ## TLD and TST (R348 to R351) -/

theorem semTld_hold {w : Wave} {a : Mask} (hmem : memHold [3] s w a = false) (hfull : fetchFull s w = false) :
    (semTld f).hold s w a = false := by
  unfold semTld
  simp only [hmem, hfull, Bool.and_false, Bool.false_and, Bool.or_self]

/-- Which name a transfer has does not bear on what it watches. -/
theorem xferWatch_name (load : Bool) (id : Nat) (s' : State) :
    xferWatch c (xferOf f load id s' c e) = xferWatch c (xferOf f load 0 s c e) := rfl

/-- A TLD has issued: the tile is FILLING, the transfer stands with its core, TLQ has risen. -/
def tldBegun (f : Full) (e : DWord) (t : Team) (s : State) (c : Ctx) : State :=
  let x := xferOf f true s.nextId { s with nextId := s.nextId + 1 } c e
  let s := xferSig ({ s with nextId := s.nextId + 1 }.setTile t (f.dst.toNat % 256) (fun e => setTileState e 1)) x
  (s.mapCore c.rd.core (fun k => { k with xfers := k.xfers ++ [x] })).mapWave c.u (·.raise 3)

/-- A TST has issued: the tile is DRAINING, and an entry of the store queue stands for the transfer. -/
def tstBegun (f : Full) (e : DWord) (t : Team) (s : State) (c : Ctx) : State :=
  let x := xferOf f false s.nextId { s with nextId := s.nextId + 1 } c e
  let s1 := xferSig ({ s with nextId := s.nextId + 1 }.setTile t (f.dst.toNat % 256) (fun e => setTileState e 3)) x
  let eid := s1.nextId
  let s2 := { s1 with nextId := eid + 1 }.mapCore c.rd.core (fun k =>
    { k with xfers := k.xfers ++ [{ x with entry := some eid }] })
  s2.mapWave c.u (Wave.queue { StEntry.make eid c .tst [] with xfer := some s.nextId, rel := x.rel, scope := x.scope })

section
variable (hn : namedTile s c.rd (f.dst.toNat % 256) false = some e) (ht : c.team = some t)
include hn ht

theorem xferBody_load (htrap : xferTrap f s c e (xferOf f true 0 s c e) = none)
    (hwatch : xferWatch c (xferOf f true 0 s c e) = []) : xferBody f true s c = { st := tldBegun f e t s c } := by
  unfold xferBody
  simp only [hn, ht, htrap, xferWatch_name (s := s), hwatch, Bool.not_true, Bool.false_and, Bool.false_eq_true, if_false,
    if_true]
  rfl

theorem xferBody_store (himg : (tileImage s c.rd.core t e).isSome = true)
    (htrap : xferTrap f s c e (xferOf f false 0 s c e) = none) (hwatch : xferWatch c (xferOf f false 0 s c e) = []) :
    xferBody f false s c = { st := tstBegun f e t s c } := by
  have hsome : (tileImage s c.rd.core t e).isNone = false := by rw [Option.isNone_eq_false_iff]; exact himg
  unfold xferBody
  simp only [hn, ht, hsome, htrap, xferWatch_name (s := s), hwatch, Bool.and_false, Bool.false_eq_true, if_false]
  rfl

end

theorem tldBegun_bad : (tldBegun f e t s c).bad = s.bad := by
  show (xferSig _ _).bad = _
  rw [xferSig_bad, setTile_bad]

theorem tstBegun_bad : (tstBegun f e t s c).bad = s.bad := by
  show (xferSig _ _).bad = _
  rw [xferSig_bad, setTile_bad]

end

end Sys2Proof.Machine

namespace Sys2Proof.Proofs
open Sys2Proof.Machine

/-- Settles O32: each word is its body; TRD begins a producer that counts as a reader, TLD and TST a transfer. -/
theorem tileTransfers : Obligations.TileTransfers := by
  unfold Obligations.TileTransfers
  intro f e t i j
  refine ⟨?_, fun img => ?_, ?_, ?_⟩
  -- TRD
  · refine waveWord_body (m := semTrd f) (fun _ => rfl) (fun _ _ _ => rfl) (fun _ _ _ => rfl) ?_
      (fun _ _ _ _ hk => hk.1) (fun _ _ _ _ ⟨_, _, hfmt, _⟩ => hfmt) ?_
      (fun _ _ _ => (countReader_bad ..).trans (loadBegun_bad ..))
    · rintro s u n c ⟨-, hmem, -, hn, -, hcmp, -⟩
      exact semTrd_hold hmem hn (fun h => by rw [hcmp] at h; cases h)
    · rintro s c ⟨-, -, -, hn, ht, hcmp, hin⟩ h0 htx
      exact trdBody_plain hn ht hcmp hin h0 htx
  · refine waveWord_body (m := semTrd f) (fun _ => rfl) (fun _ _ _ => rfl) (fun _ _ _ => rfl) ?_
      (fun _ _ _ _ hk => hk.1) (fun _ _ _ _ ⟨_, _, hfmt, _⟩ => hfmt) ?_
      (fun _ _ _ => (countReader_bad ..).trans (imageBegun_bad img))
    · rintro s u n c ⟨-, hmem, -, hn, -, -, hbusy, hloads, -⟩
      exact semTrd_hold hmem hn (fun _ => ⟨hbusy, hloads⟩)
    · rintro s c ⟨-, -, -, hn, ht, hcmp, -, -, himg, hin⟩ h0 htx
      exact trdBody_compressed hn ht hcmp himg hin h0 htx
  -- TLD and TST
  · refine waveWord_body (m := semTld f) (fun _ => rfl) (fun _ _ _ => rfl) (fun _ _ _ => rfl) ?_
      (fun _ _ _ _ hk => hk.1) (fun _ _ _ _ _ => rfl) ?_ (fun _ _ _ => tldBegun_bad)
    · rintro s u n c ⟨-, hmem, hfull, -⟩
      exact semTld_hold hmem hfull
    · rintro s c ⟨-, -, -, hn, ht, htrap, hwatch⟩ - -
      exact xferBody_load hn ht htrap hwatch
  · refine waveWord_body (m := semTst f) (fun _ => rfl) (fun _ _ _ => rfl) (fun _ _ _ => rfl) ?_
      (fun _ _ _ _ hk => hk.1) (fun _ _ _ _ ⟨_, _, _, hfmt, _⟩ => hfmt) ?_ (fun _ _ _ => tstBegun_bad)
    · rintro s u n c ⟨-, hmem, hbusy, -⟩
      exact Bool.or_eq_false_iff.2 ⟨hmem, hbusy⟩
    · rintro s c ⟨-, -, -, -, hn, ht, himg, htrap, hwatch⟩ - -
      exact xferBody_store hn ht himg htrap hwatch

end Sys2Proof.Proofs
end

