-- ==== Sys2Proof/Proofs/RegionWords.lean ====
section
/-!
PROOF. Words on regions: the question REGQ (R355, R426) and the requests REGPIN and REGADV (R124, R125, R356, R357).
-/
namespace Sys2Proof.Machine

/-! ## REGQ (R355) -/

/-- Outside a transaction registers wait for an answer from elsewhere in the device. -/
theorem askFlight_asks {s : State} {c : Ctx} (h0 : c.act ≠ 0) (htx : c.tx = false) (n dst : Nat) (tag : Ety)
    (src : JobSrc) : askFlight n dst tag src s c = { st := asked n dst tag src s c } := by
  unfold askFlight
  simp only [beq_eq_false_iff_ne.2 h0, startFlight_alone htx, Bool.false_eq_true, if_false, if_true]
  rfl

theorem semRegq_body {f : Full} {s : State} {c : Ctx} {d : Desc}
    (hd : regqDesc s c.ctxNo (c.rd.wreg (f.an % 64)) = some d) (h0 : c.act ≠ 0) (htx : c.tx = false) :
    (semRegq f).body s c =
      { st := asked 2 f.dn .n64 (.regq (ctxComp s c.ctxNo) (hIdx (c.rd.wreg (f.an % 64))) f.lo3) s c } := by
  unfold semRegq memSem
  simp only [hd, askFlight_asks h0 htx]

/-! ## A descriptor in device memory (R107, R108) -/

/-- Reaching lines changes nothing above their rows. -/
theorem SameAbove.useLines (s : State) (w : Bool) (h : Home) (ad : List Nat) : SameAbove s (useLines s w h ad) :=
  SameAbove.fold _ (fun _ _ => SameAbove.useLine ..) _ s

/-- A write inside device memory reaches addresses that exist. -/
theorem devWrite_bad {a n : Nat} (h : a + n ≤ deviceBytes) (s : State) (v : Nat) : (devWrite s a n v).bad = s.bad := by
  unfold devWrite State.touch
  rw [decide_eq_true h]
  exact (SameAbove.useLines s true ⟨none, none⟩ (rangeFrom a n)).bad

theorem devWrite_regions (s : State) (a n v : Nat) : (devWrite s a n v).regions = s.regions := by
  obtain ⟨p, q, z, h⟩ := SameAbove.useLines s true ⟨none, none⟩ (rangeFrom a n)
  unfold devWrite
  simp only [State.touch_regions]
  rw [h]
  rfl

/-- What the device keeps of a region beside its descriptor stays as it is when the descriptor is written. -/
theorem putDesc_region (s : State) (comp idx : Nat) (d : Desc) (comp' idx' : Nat) :
    (putDesc s comp idx d).region comp' idx' = s.region comp' idx' := by
  unfold State.region putDesc
  rw [devWrite_regions]

/-! ## REGPIN and REGADV (R124, R125, R356, R357) -/

/-- A request of a wave to region `h`, with the descriptor `d'` and the hidden state `win` if it is accepted. -/
def regionAsked (f : Full) (d' : Desc) (win : Region → Region) (yes : Bool) (s : State) (c : Ctx) : State :=
  let comp := ctxComp s c.ctxNo
  let idx := hIdx (c.rd.wreg (f.an % 64))
  let s := if yes then (putDesc s comp idx d').mapRegion comp idx win else s
  s.mapWave c.u (fun w => w.mapLanes c.act (fun _ t => t.setPred f.dn yes))

/-- A request that handle and descriptor permit is accepted, with the new descriptor and state, or refused. -/
theorem regionAsk_answers {f : Full} {g : Ctx → Desc → Region → Desc × Region × Bool} {s : State} {c : Ctx} {d d' : Desc}
    {win : Region → Region} {yes : Bool} (hd : handleDesc s c.ctxNo (c.rd.wreg (f.an % 64)) = some d)
    (hh : hasRight (hRights (c.rd.wreg (f.an % 64))) .write = true) (hr : hasRight (dRights d) .write = true)
    (hyes : ∀ r, (g c d r).2.2 = yes) (hnew : yes = true → ∀ r, (g c d r).1 = d' ∧ (g c d r).2.1 = win r) :
    regionAsk f g s c = { st := regionAsked f d' win yes s c } := by
  unfold regionAsk regionAsked
  simp only [hd, hh, hr, hyes, Bool.not_true, Bool.or_self, Bool.false_eq_true, if_false]
  cases yes with
  | false => simp only [Bool.false_eq_true, if_false]
  | true =>
    obtain ⟨hdesc, hwin⟩ := hnew rfl (s.region (ctxComp s c.ctxNo) (hIdx (c.rd.wreg (f.an % 64))))
    simp only [if_true, hdesc, hwin, State.mapRegion, putDesc_region]

theorem regionAsked_bad {f : Full} {d' : Desc} {win : Region → Region} {yes : Bool} {s : State} {c : Ctx}
    (h : descAddr s (ctxComp s c.ctxNo) (hIdx (c.rd.wreg (f.an % 64))) + 64 ≤ deviceBytes) :
    (regionAsked f d' win yes s c).bad = s.bad := by
  unfold regionAsked
  simp only [State.mapWave_bad]
  cases yes with
  | false => rfl
  | true => exact devWrite_bad h s _

/-- A request word: its operands are ready, the operand log has room, and handle and descriptor permit it. -/
theorem regionWord_of {ins : Instr} {f : Full} {ops : State → Wave → Nat → List Opnd} {d : Desc} {new : Ctx → Desc}
    {win : Region → Region} {yes : Ctx → Bool} {g : Ctx → Desc → Region → Desc × Region × Bool}
    (hex : ∀ s, exec ins s = execX (regionSem f ops g) s) (hyes : ∀ c r, (g c d r).2.2 = yes c)
    (hnew : ∀ c, yes c = true → ∀ r, (g c d r).1 = new c ∧ (g c d r).2.1 = win r) :
    WaveWord ins f.grd ops
      (fun s c => (memHold [] s c.rd c.act = false ∧ handleDesc s c.ctxNo (c.rd.wreg (f.an % 64)) = some d) ∧
        hasRight (hRights (c.rd.wreg (f.an % 64))) .write = true ∧ hasRight (dRights d) .write = true ∧
        descAddr s (ctxComp s c.ctxNo) (hIdx (c.rd.wreg (f.an % 64))) + 64 ≤ deviceBytes)
      (fun s c => regionAsked f (new c) win (yes c) s c) (fun _ => 0) (fun _ _ => none) :=
  waveWord_body (m := regionSem f ops g) hex (fun _ _ _ => rfl) (fun _ _ _ => rfl) (fun _ _ _ _ ⟨⟨hmem, _⟩, _⟩ => hmem)
    (fun _ _ _ _ _ => rfl) (fun _ _ _ _ _ => rfl)
    (fun _ c ⟨⟨_, hd⟩, hh, hr, _⟩ _ _ => regionAsk_answers hd hh hr (hyes c) (hnew c))
    (fun _ _ ⟨_, _, _, haddr⟩ => regionAsked_bad haddr)

/-- An advice is accepted where the region is not pinned and the order is one that it can have (R125). -/
theorem adopt_accepts (d : Desc) (a : Nat) : (adopt d a).2 = (!dPin d && orderOk d a) := by
  unfold adopt
  simp only [apply_ite Prod.snd, ite_self]
  cases dPin d <;> cases orderOk d a <;> rfl

/-- What an accepted advice leaves: the order that holds, a waiting advice during a move, or a move (R119, R125). -/
theorem adopt_desc {d : Desc} {a : Nat} (h : (!dPin d && orderOk d a) = true) :
    (adopt d a).1 =
      if a = dOrder d ∧ dMvb d = false then dSet d 358 1 0
      else if dMvb d = true then dSet (dSet d 354 1 1) 346 8 a
      else dSet (retile d a) 358 1 0 := by
  obtain ⟨hpin, hord⟩ := Bool.and_eq_true_iff.1 h
  have hpin : dPin d = false := by simpa using hpin
  unfold adopt
  simp only [hpin, hord, Bool.not_true, Bool.or_self, Bool.false_eq_true, if_false, Bool.not_eq_true', apply_ite Prod.fst]

end Sys2Proof.Machine

namespace Sys2Proof.Proofs
open Sys2Proof.Machine

/-- Settles O35: REGQ begins a producer that asks the home slice; each other word is a request to the region. -/
theorem regionResults : Obligations.RegionResults := by
  unfold Obligations.RegionResults
  intro f d h idle request a
  refine ⟨?_, ?_, ?_, ?_, ?_⟩
  · exact waveWord_body (m := semRegq f) (fun _ => rfl) (fun _ _ _ => rfl) (fun _ _ _ => rfl) (fun _ _ _ _ hk => hk.1)
      (fun _ _ _ _ _ => rfl) (fun _ _ _ _ _ => rfl) (fun _ _ hk h0 htx => semRegq_body hk.2 h0 htx) (fun _ _ _ => rfl)
  · exact regionWord_of (fun _ => rfl) (fun _ _ => rfl) (fun _ _ _ => ⟨rfl, rfl⟩)
  · exact regionWord_of (fun _ => rfl) (fun _ _ => rfl) (fun _ _ _ => ⟨rfl, rfl⟩)
  · exact regionWord_of (fun _ => rfl) (fun _ _ => rfl) (fun _ _ _ => ⟨rfl, rfl⟩)
  · refine regionWord_of (fun _ => rfl) (fun c _ => ?_) (fun c hyes _ => ⟨?_, rfl⟩)
    · show (decide _ && isTiled d && (adopt d _).2) = _
      rw [adopt_accepts, headD_lanes, ← Bool.and_assoc]
      rfl
    · have hadopt : (!dPin d && orderOk d (a c)) = true := by
        rw [Bool.and_assoc] at hyes
        exact (Bool.and_eq_true_iff.1 hyes).2
      show (adopt d _).1 = _
      rw [headD_lanes]
      exact adopt_desc hadopt

end Sys2Proof.Proofs
end

