-- ==== Sys2Proof/Proofs/OperandLog.lean ====
section
/-!
PROOF. The operand log: a resumed access goes on, a delivered one parks its lanes (R134, R185, R187); a page goes back to
the host (R197).
-/
namespace Sys2Proof.Machine

/-! ## Resuming (R185) -/

section
variable {s : State} {u lane path a : Nat} {w : Wave} {h : Held} {epc : Word}

/-- A resumed access that meets no watch range raises no WATCH. -/
theorem watchLate_unwatched {size : Nat} {want : Want} (hw : s.wave? u = some w)
    (hwatch : path < 8 → watchHit w (onPathAddr path a) size [want] = false) :
    watchLate s u lane h epc path a size want = s := by
  have hquiet : (decide (path < 8) && watchHit w (onPathAddr path a) size [want]) = false := by
    rw [Bool.and_eq_false_imp]
    exact fun hp => hwatch (of_decide_eq_true hp)
  unfold watchLate
  cases h with
  | job fid k => simp only [hw, hquiet, Bool.false_eq_true, if_false]
  | part eid k => simp only [hw, hquiet, Bool.false_eq_true, if_false]
  | xfer id => rfl
  | wait => rfl

/-- A store without a register to return to stands where it is resumed, under the leaf that it finds there (R200). -/
theorem releaseItem_part {eid k core : Nat} {l : Loc} (hw : s.wave? u = some w) (hjob : partJob s u eid k = none) :
    releaseItem s u (.part eid k) core l =
      setPart s u eid k (fun p => { p with loc := l, shared := dupLeaf s (waveCtx s w) p.path p.va }) := by
  unfold releaseItem
  simp only [hjob, hw]

/-- The wave that an update names is found updated. -/
theorem mapWave_found {F : Wave → Wave} (hw : s.wave? u = some w) (hF : ∀ v, (F v).uid = v.uid) :
    (s.mapWave u F).wave? u = some (F w) := by
  rw [State.mapWave_wave (hf := fun v hv => (hF v).trans hv), if_pos rfl, hw]
  rfl

/-- An entry of one item whose checks now pass is gone from the log, and its access goes on: where that updates the wave
but for its watch ranges and meets none of them, nothing else happens (R185, R190). -/
theorem resumeEntry_passes {e : OpEntry} {l : Loc} {F : Wave → Wave} (hitems : e.items = [(lane, h, path, a)])
    (hw : s.wave? e.wave = some w) (huid : w.uid = e.wave)
    (hchk : recheck s w lane path a (itemAccess s w h).1 (itemAccess s w h).2 = .ok l)
    (hwatch : path < 8 → watchHit w (onPathAddr path a) (itemAccess s w h).1 [(itemAccess s w h).2] = false)
    (hgo : releaseItem s e.wave h w.core l = s.mapWave e.wave F) (hF : ∀ v, (F v).uid = v.uid ∧ (F v).watch = v.watch) :
    resumeEntry s e = (s.mapWave e.wave F, none) := by
  have hseen : path < 8 → watchHit (F w) (onPathAddr path a) (itemAccess s w h).1 [(itemAccess s w h).2] = false := by
    unfold watchHit at hwatch ⊢
    rw [(hF w).2]
    exact hwatch
  unfold resumeEntry
  simp only [hw, hitems, List.foldl_cons, List.foldl_nil, hchk, huid, hgo, List.isEmpty_nil, if_true,
    watchLate_unwatched (mapWave_found hw (fun v => (hF v).1)) hseen]

end

section
variable {s t : State} {qn idx : Nat} {e : OpEntry} (hlog : (s.quad qn).oplog[idx]? = some e) (hnew : e.delivered = false)
include hlog hnew

/-- The driver maps the page of an entry that is no GROW, and all its items go on (R185). -/
theorem oplogResume_empties (hgrow : e.grow = false) (hres : resumeEntry (askAgain s e) e = (t, none)) :
    oplogResume qn idx s = t.mapQuad qn (fun q => { q with oplog := q.oplog.take idx ++ q.oplog.drop (idx + 1) }) := by
  have hmap : growFor (askAgain s e) e = askAgain s e := by
    unfold growFor
    rw [hgrow]
    rfl
  unfold oplogResume
  simp only [hlog, hnew, hmap, hres, Option.toList_none, List.append_nil, Bool.false_eq_true, if_false]

/-! ## Delivering (R134, R187) -/

theorem pageDeliver_gives (hgrow : e.grow = false) : pageDeliver qn idx s = deliverEntry s qn idx e .page := by
  unfold pageDeliver
  simp only [hlog, hnew, hgrow, Bool.or_self, Bool.false_eq_true, if_false]

theorem growDeny_gives (hgrow : e.grow = true) : growDeny qn idx s = deliverEntry s qn idx e .bounds := by
  unfold growDeny
  simp only [hlog, hnew, hgrow, Bool.not_true, Bool.or_self, Bool.false_eq_true, if_false]

end

/-! ## Ownership (R197) -/

/-- A page of the device that no access holds goes back to the host. -/
theorem ownershipFlip_toHost {s : State} {ctx va lvl at_ : Nat} {leaf : BitVec 128} (hwalk : walk s ctx va = .leaf lvl leaf at_)
    (hdev : leaf.getLsbD 59 = true)
    (hidle : pageBusy s ctx (va % 2 ^ 57 / pageSize lvl * pageSize lvl) (pageSize lvl) = false) :
    ownershipFlip ctx va false s = conflictPage (devWrite s at_ 16 (leaf &&& ~~~ (1#128 <<< 59)).toNat) ctx
      (va % 2 ^ 57 / pageSize lvl * pageSize lvl) (pageSize lvl) (fun _ => true) := by
  unfold ownershipFlip
  simp only [hwalk, hdev, hidle, Bool.true_beq, Bool.false_eq_true, if_false]

end Sys2Proof.Machine

namespace Sys2Proof.Proofs
open Sys2Proof.Machine

/-- Settles O44: each step is a function of the state, and the rules above say to what it comes. -/
theorem logEvents : Obligations.LogEvents := by
  unfold Obligations.LogEvents
  intro qn idx e held given resumes leaves
  refine ⟨fun lane fid k path a w l => ?_, fun lane eid k path a w l => ?_, ?_, ?_, fun ctx va lvl leaf at_ => ?_⟩
  · refine happens_of (oplogResume qn idx) (fun _ => rfl) ?_
    rintro s ⟨⟨hlog, hnew⟩, hgrow, hitems, hw, huid, hchk, hwatch⟩
    exact oplogResume_empties hlog hnew hgrow
      (resumeEntry_passes (s := askAgain s e) hitems hw huid hchk hwatch rfl (fun _ => ⟨rfl, rfl⟩))
  · refine happens_of (oplogResume qn idx) (fun _ => rfl) ?_
    rintro s ⟨⟨⟨hlog, hnew⟩, hgrow, hitems, hw, huid, hchk, hwatch⟩, hjob⟩
    exact oplogResume_empties hlog hnew hgrow (resumeEntry_passes (s := askAgain s e) hitems hw huid hchk hwatch
      (releaseItem_part (s := askAgain s e) hw hjob) (fun _ => ⟨rfl, rfl⟩))
  · exact happens_of (pageDeliver qn idx) (fun _ => rfl) (fun s ⟨⟨hlog, hnew⟩, hgrow⟩ => pageDeliver_gives hlog hnew hgrow)
  · exact happens_of (growDeny qn idx) (fun _ => rfl) (fun s ⟨⟨hlog, hnew⟩, hgrow⟩ => growDeny_gives hlog hnew hgrow)
  · exact happens_of (ownershipFlip ctx va false) (fun _ => rfl)
      (fun s ⟨hwalk, hdev, hidle⟩ => ownershipFlip_toHost hwalk hdev hidle)

end Sys2Proof.Proofs
end

