-- ==== Sys2Proof/Proofs/Loads.lean ====
section
/-!
PROOF. The loads: each is its accesses in lane order, outside a transaction and by members (R327 to R334, R340, R363).
-/
namespace Sys2Proof.Machine

/-! ## Memory words (R327, R363) -/

/-- A vector long operation that nothing cuts short is the whole of it, and %prog ends at 0 (R192, R333). -/
theorem longOp_whole {c : Ctx} (h : c.iss.cut = none) (pts : List Nat) (run : Option Nat → Res) (s : State) :
    longOp true pts run s c = { run none with st := setProg (run none).st c 0 } := by
  unfold longOp
  rw [h]
  rfl

/-- What a memory word asks for: room in the operand log and the counters `ks`, accesses that may all go ahead at once, and
`ok`. -/
def MemReady (ks : List Nat) (want half : Want) (accs : State → Ctx → List Acc) (ok : State → Ctx → Prop) (s : State)
    (c : Ctx) : Prop :=
  memHold ks s c.rd c.act = false ∧ AccsReady c [want] (accs s c) (splitHalves s c half (accs s c)) ∧ ok s c

section
variable {ins : Instr} {f : Full} {ks : List Nat} {ops : State → Wave → Nat → List Opnd} {want half : Want}
  {accs : State → Ctx → List Acc} {ok p : State → Ctx → Prop} {body : State → Ctx → Res} {wsrc : List Nat}
  {legal : State → Wave → Bool → Bool} {fmt : State → Wave → Mask → Option DWord} {eff : State → Ctx → State}
  (hex : ∀ s, exec ins s = execX { memSem f ks ops body with wsrc := wsrc, legal := legal, fmt := fmt } s)
  (hlegal : ∀ s u n c, ok (counted s u n) c → legal s c.rd c.hm = true)
  (hfmt : ∀ s u n c, ok (counted s u n) c → fmt s c.rd c.act = none)
include hex hlegal hfmt

/-- A memory word outside a transaction; PREEMPT does not cut a word short that issues (R192). -/
theorem memWave_of
    (hbody : ∀ s c, MemReady ks want half accs ok s c → c.iss.cut = none → c.tx = false → body s c = { st := eff s c })
    (hbad : ∀ s c, (eff s c).bad = s.bad) :
    WaveWord ins f.grd ops (MemReady ks want half accs ok) eff (fun _ => 0) (fun _ _ => none) := by
  intro s i w g A R h0 c s1 hk
  refine waveWord_of (stay := fun _ => 0) (go := fun _ _ => none)
    (ok := fun s c => MemReady ks want half accs ok s c ∧ c.iss.cut = none) hex (fun _ _ _ => rfl)
    (fun s u n c ⟨⟨_, _, hok⟩, _⟩ => hlegal s u n c hok) (fun _ _ _ _ ⟨⟨hhold, _⟩, _⟩ => hhold) (fun _ _ _ _ _ => rfl)
    (fun s u n c ⟨⟨_, _, hok⟩, _⟩ => hfmt s u n c hok) ?_ (fun s c _ hs => (hbad s c).trans hs) s i w g A R h0 ⟨hk, A.whole⟩
  exact fun s c ⟨hk, hcut⟩ _ _ _ htx => ⟨_, hbody s c hk hcut htx, rfl, rfl, rfl, rfl, rfl, fun _ => rfl⟩

/-- A memory word of members that finds room. -/
theorem memMember_of
    (hbody : ∀ s c, MemReady ks want half accs ok s c → p s c → c.iss.cut = none →
      (∃ x, s.wave? c.u = some { c.rd with winhit := x }) → c.tx = true → body s c = { st := eff s c })
    (hbad : ∀ s c, (eff s c).bad = s.bad) :
    MemberWord ins f.grd ops (fun s c => MemReady ks want half accs ok s c ∧ p s c) eff := by
  intro s i w g I ht R h0 c s1 hk
  exact memberWord_of (ok := fun s c => (MemReady ks want half accs ok s c ∧ p s c) ∧ c.iss.cut = none) hex
    (fun _ _ _ => rfl) (fun s u n c _ ⟨⟨⟨_, _, hok⟩, _⟩, _⟩ => hlegal s u n c hok) (fun _ _ _ => rfl)
    (fun _ _ _ _ _ ⟨⟨⟨hhold, _⟩, _⟩, _⟩ => hhold) (fun _ _ _ => rfl) (fun s u n c ⟨⟨⟨_, _, hok⟩, _⟩, _⟩ => hfmt s u n c hok)
    (fun s c ⟨⟨hk, hp⟩, hcut⟩ _ hw _ htx => hbody s c hk hp hcut hw htx) (fun s c _ hs => (hbad s c).trans hs)
    s i w g I ht R h0 ⟨hk, I.whole⟩

/-- A memory word of members that finds a structure of the transaction full. -/
theorem memFull_of {code : Nat}
    (hbody : ∀ s c, MemReady ks want half accs ok s c → p s c → c.iss.cut = none →
      (∃ x, s.wave? c.u = some { c.rd with winhit := x }) → c.tx = true →
      body s c = { st := eff s c, abort := some (c.act, code, 0) })
    (hquads : ∀ s c, (eff s c).quads = s.quads) (hbad : ∀ s c, (eff s c).bad = s.bad) :
    MemberFull ins f.grd ops (fun s c => MemReady ks want half accs ok s c ∧ p s c) eff code := by
  intro s i w g I ht R h0 hs c s1 hk
  exact memberFull_of (ok := fun s c => (MemReady ks want half accs ok s c ∧ p s c) ∧ c.iss.cut = none) hex
    (fun _ _ _ => rfl) (fun s u n c _ ⟨⟨⟨_, _, hok⟩, _⟩, _⟩ => hlegal s u n c hok) (fun _ _ _ => rfl)
    (fun _ _ _ _ _ ⟨⟨⟨hhold, _⟩, _⟩, _⟩ => hhold) (fun _ _ _ => rfl) (fun s u n c ⟨⟨⟨_, _, hok⟩, _⟩, _⟩ => hfmt s u n c hok)
    (fun s c ⟨⟨hk, hp⟩, hcut⟩ _ hw _ htx => hbody s c hk hp hcut hw htx)
    (fun s c n _ => congrArg (fget Quad.reset · n) (hquads s c)) (fun s c _ hs => (hbad s c).trans hs)
    s i w g I ht R h0 hs ⟨hk, I.whole⟩

end

/-! ## What a load leaves alone -/

theorem recordReads_quads (s : State) (c : Ctx) (as : List Acc) : (recordReads s c as).1.quads = s.quads := by
  unfold recordReads
  split
  · rfl
  · split
    · rfl
    · simp only
      split <;> rfl

theorem recordReads_bad (s : State) (c : Ctx) (as : List Acc) : (recordReads s c as).1.bad = s.bad := by
  unfold recordReads
  split
  · rfl
  · split
    · rfl
    · simp only
      split <;> rfl

theorem logRegs_quads (s : State) (u : Nat) (rs : List Nat) : (logRegs s u rs).1.quads = s.quads := by
  unfold logRegs
  split
  · rfl
  · simp only
    split
    · rfl
    · split <;> rfl

theorem loadLog_quads (f : Full) (as : List Acc) (s : State) (c : Ctx) : (loadLog f as s c).1.quads = s.quads :=
  (logRegs_quads ..).trans (recordReads_quads s c as)

theorem loadLog_bad (f : Full) (as : List Acc) (s : State) (c : Ctx) : (loadLog f as s c).1.bad = s.bad :=
  (logRegs_bad ..).trans (recordReads_bad s c as)

theorem loadLogged_bad (f : Full) (as : List Acc) (s : State) (c : Ctx) : (loadLogged f as s c).bad = s.bad := by
  unfold loadLogged
  rw [sendSigs_bad, State.mapWave_bad, loadLog_bad]

/-! ## The law of a load (R327, R363) -/

/-- A load of the accesses `accs` that ends with `fin`: outside a transaction; by members; and by members whose read set or
register log is full. -/
def LoadWord (ins : Instr) (f : Full) (ops : State → Wave → Nat → List Opnd) (accs : State → Ctx → List Acc)
    (fin : State → Ctx → State) (ok : State → Ctx → Prop) : Prop :=
  let ready := MemReady [0] .read .read accs ok
  WaveWord ins f.grd ops ready (fun s c => fin (loadBegun f (accs s c) s c) c) (fun _ => 0) (fun _ _ => none) ∧
  MemberWord ins f.grd ops
    (fun s c => ready s c ∧ (recordReads s c (accs s c)).2 = true ∧ (loadLog f (accs s c) s c).2 = true)
    (fun s c => fin (loadLogged f (accs s c) s c) c) ∧
  MemberFull ins f.grd ops (fun s c => ready s c ∧ (recordReads s c (accs s c)).2 = false) fin 5 ∧
  MemberFull ins f.grd ops
    (fun s c => ready s c ∧ (recordReads s c (accs s c)).2 = true ∧ (loadLog f (accs s c) s c).2 = false)
    (fun s c => fin (loadLog f (accs s c) s c).1 c) 4

/-- A memory word is a load where its body is the common end of a load's issue and then `fin`. -/
theorem loadWord_of {ins : Instr} {f : Full} {ops : State → Wave → Nat → List Opnd} {accs : State → Ctx → List Acc}
    {fin : State → Ctx → State} {ok : State → Ctx → Prop} {body : State → Ctx → Res} {wsrc : List Nat}
    {legal : State → Wave → Bool → Bool} {fmt : State → Wave → Mask → Option DWord}
    (hex : ∀ s, exec ins s = execX { memSem f [0] ops body with wsrc := wsrc, legal := legal, fmt := fmt } s)
    (hlegal : ∀ s u n c, ok (counted s u n) c → legal s c.rd c.hm = true)
    (hfmt : ∀ s u n c, ok (counted s u n) c → fmt s c.rd c.act = none)
    (hbody : ∀ s c, c.iss.cut = none →
      body s c = { loadAccs f true (accs s c) s c with st := fin (loadAccs f true (accs s c) s c).st c })
    (hbad : ∀ s c, (fin s c).bad = s.bad) (hquads : ∀ s c, (fin s c).quads = s.quads) :
    LoadWord ins f ops accs fin ok := by
  refine ⟨memWave_of hex hlegal hfmt ?_ (fun s c => (hbad _ c).trans (loadBegun_bad ..)),
    memMember_of hex hlegal hfmt ?_ (fun s c => (hbad _ c).trans (loadLogged_bad ..)),
    memFull_of hex hlegal hfmt ?_ hquads hbad,
    memFull_of hex hlegal hfmt ?_ (fun s c => (hquads _ c).trans (loadLog_quads ..))
      (fun s c => (hbad _ c).trans (loadLog_bad ..))⟩
  · rintro s c ⟨-, hr, -⟩ hcut htx
    rw [hbody s c hcut, loadAccs_ok f s hr htx]
  · rintro s c ⟨-, hr, -⟩ ⟨hreads, hlog⟩ hcut hw htx
    rw [hbody s c hcut, loadAccs_member f s hr htx hw hreads, hlog, if_pos rfl]
  · rintro s c ⟨-, hr, -⟩ hreads hcut - htx
    rw [hbody s c hcut, loadAccs_full f s hr htx hreads]
  · rintro s c ⟨-, hr, -⟩ ⟨hreads, hlog⟩ hcut hw htx
    rw [hbody s c hcut, loadAccs_member f s hr htx hw hreads, hlog, if_neg Bool.false_ne_true]

/-- A load that ends with nothing more. -/
theorem loadWord_plain {ins : Instr} {f : Full} {ops : State → Wave → Nat → List Opnd} {accs : State → Ctx → List Acc}
    {ok : State → Ctx → Prop} {wsrc : List Nat} {legal : State → Wave → Bool → Bool}
    {fmt : State → Wave → Mask → Option DWord}
    (hex : ∀ s, exec ins s = execX { memSem f [0] ops (fun s c => loadAccs f true (accs s c) s c) with
      wsrc := wsrc, legal := legal, fmt := fmt } s)
    (hlegal : ∀ s u n c, ok (counted s u n) c → legal s c.rd c.hm = true)
    (hfmt : ∀ s u n c, ok (counted s u n) c → fmt s c.rd c.act = none) :
    LoadWord ins f ops accs (fun s _ => s) ok :=
  loadWord_of hex hlegal hfmt (fun _ _ _ => rfl) (fun _ _ => rfl) (fun _ _ => rfl)

/-- A gather that nothing cuts short reads all its elements, and %prog ends at 0 (R333). -/
theorem semLdg_body {f : Full} {c : Ctx} (h : c.iss.cut = none) (s : State) :
    (semLdg f).body s c = { loadAccs f true (gatherAccs s c f .read none) s c with
      st := setProg (loadAccs f true (gatherAccs s c f .read none) s c).st c 0 } :=
  longOp_whole h (elemPoints f c) (fun upto => loadAccs f true (gatherAccs s c f .read upto) s c) s

end Sys2Proof.Machine

namespace Sys2Proof.Proofs
open Sys2Proof.Machine

/-- Settles O15: each word is the common end of a load's issue for its accesses; LDG then sets %prog. -/
theorem loadResults : Obligations.LoadResults := by
  unfold Obligations.LoadResults
  intro f loads same
  refine ⟨loadWord_plain (fun _ => rfl) ?_ (fun _ _ _ _ _ => rfl),
    loadWord_plain (fun _ => rfl) (fun _ _ _ _ _ => rfl) (fun _ _ _ _ _ => rfl),
    loadWord_plain (fun _ => rfl) (fun _ _ _ _ _ => rfl) (fun _ _ _ _ _ => rfl),
    loadWord_plain (fun _ => rfl) (fun _ _ _ _ _ => rfl) (fun _ _ _ _ _ => rfl), ?_,
    loadWord_plain (fun _ => rfl) (fun _ _ _ _ _ => rfl) (fun _ _ _ _ hk => hk)⟩
  · intro s u n c hq
    cases h : isQ f with
    | false => rfl
    | true => exact hq h
  · exact loadWord_of (accs := fun s c => gatherAccs s c f .read none) (fin := fun s c => setProg s c 0) (fun _ => rfl)
      (fun _ _ _ _ _ => rfl) (fun _ _ _ _ _ => rfl) (fun s c hcut => semLdg_body hcut s) (fun _ _ => rfl) (fun _ _ => rfl)

end Sys2Proof.Proofs
end

