-- ==== Sys2Proof/Proofs/Stores.lean ====
section
/-!
PROOF. The stores: a store of 16 bytes in two halves gives each half its own part of the value (R139), where the statement
gives both halves the whole of it.
-/
namespace Sys2Proof.Machine

/-! ## A store in two halves -/

namespace SplitStore

/-- ST of a C64 value in V8 to V11, at the address in V12 and V13. -/
def word : Full := ⟨.c64, .always, false, false, false, 8, 12, .imm 0 0⟩

/-- A wave of one thread, with the value 2^64 and an address in the window of device 1 (path 7). -/
def wave : Wave := (State.fetchWave 3 2 1 4 0).mapThread 0 (fun t => { t with v := [(10, 1), (13, 0x70100000)] })

def issue : Issue :=
  { core := 0, quad := 0, num := 0, key := ⟨1, 0, .normal⟩, parts := [⟨3, 1⟩], word := 0, snap := [], raised := [],
    late := [], cut := none }

/-- A device of a domain of two, about to issue the word for the thread. -/
def state : State :=
  { State.reset with waves := [wave], teams := [State.fetchTeam 2 1], cur := some issue, domain := [0, 1] }

theorem alone : Alone state issue wave 1 where
  cur := rfl
  parts := rfl
  first := rfl
  late := rfl
  whole := rfl
  member := fun h => by cases h
  found := rfl
  live := rfl
  lanes := by decide
  steady := rfl
  firm := by decide
  sound := rfl
  mode := rfl

theorem opsReady : OpsReady word.grd (fun _ l => ldOps word false l) wave 1 where
  full := by decide
  sound := by decide
  tags := by decide
  named := by decide

/-- What the word knows when its body runs, and the state then. -/
def context : Ctx := soloCtx state issue word.grd wave 1
def begun : State := counted state wave.uid (hitsOf (fun _ l => ldOps word false l) wave 1)

/-- The access of the thread, and the halves in which it is performed. -/
def accs : List Acc := context.lanes.map (fun l => genAcc begun context word .write (ldAddr word context.rd l) l)

/-- The check of an access is passed, as a computation. -/
def passed (a : Acc) : Bool := match a.chk with | .ok _ => true | _ => false

theorem chk_of_passed {a : Acc} (h : passed a = true) : ∃ l, a.chk = .ok l := by
  unfold passed at h
  split at h
  · exact ⟨_, ‹_›⟩
  · cases h

theorem accsReady : AccsReady context [.write] accs (splitHalves begun context .write accs) := by
  have whole : ∀ a ∈ accs, passed a = true ∧ a.ragged = false ∧
      a.gen.all (fun g => !watchHit context.rd g a.size [.write]) = true := by decide +kernel
  have halves : ∀ a ∈ splitHalves begun context .write accs, passed a = true ∧ a.ragged = false := by decide +kernel
  refine ⟨by decide +kernel, fun a ha => ?_, fun a ha => ⟨chk_of_passed (halves a ha).1, (halves a ha).2⟩⟩
  obtain ⟨hp, hr, hg⟩ := whole a ha
  exact ⟨chk_of_passed hp, hr, fun g h => by simpa [h] using hg⟩

/-- The values that stand in the store queues. -/
def queued (o : Out) : List Nat := match o with
  | .next t => ((t.waves.map (·.sq)).flatten.map (·.parts)).flatten.map (·.val)
  | _ => []

/-- The word queues the low eight bytes, 0, and the high eight bytes, 1. -/
theorem queued_st : queued (exec (.st word) state) = [0, 1] := by decide +kernel

end SplitStore

end Sys2Proof.Machine

namespace Sys2Proof.Proofs
open Sys2Proof.Machine

/-- Refutes O16: of an ST of 16 bytes to a peer (path 7) the statement queues two halves that both hold the whole value; the
word queues the low and the high eight bytes (R139). -/
theorem not_storeResults : ¬ Obligations.StoreResults := by
  unfold Obligations.StoreResults
  intro h
  obtain ⟨⟨hst, -, -⟩, -⟩ := h SplitStore.word
  have hexec := hst SplitStore.state SplitStore.issue SplitStore.wave 1 SplitStore.alone SplitStore.opsReady (by decide)
    ⟨by decide +kernel, SplitStore.accsReady, fun hq => absurd hq (by decide)⟩
  have whole : SplitStore.queued (exec (.st SplitStore.word) SplitStore.state) = [2 ^ 64, 2 ^ 64] := by
    rw [hexec]
    decide +kernel
  rw [SplitStore.queued_st] at whole
  exact absurd whole (by decide)

end Sys2Proof.Proofs
end

