-- ==== Sys2Proof/Proofs/StoreEvents.lean ====
section
/-!
PROOF. The way of a store: it leaves its queue at the order point (R142), is performed (R137, R140, R141) and acknowledged
(R147).
-/
namespace Sys2Proof.Machine

/-! ## The order point (R142, R200) -/

section
variable {s : State} {u : Nat} {w : Wave} {e : StEntry} {rest : List StEntry}

/-- A part that stays at its location is placed where it is. -/
theorem placed_same (p : StPart) : p.placed (.ok p.loc) = p := rfl

/-- Where every part of an entry is found where it was, each goes with that answer. -/
theorem relocated_same (h : ∀ p ∈ e.parts, relocate s w p = .ok p.loc) (go : StPart × Nat → Bool) :
    e.parts.zipIdx.map (fun x => (x.1, if go x then relocate s w x.1 else .ok x.1.loc)) =
      e.parts.map (fun p => (p, .ok p.loc)) := by
  calc e.parts.zipIdx.map (fun x => (x.1, if go x then relocate s w x.1 else .ok x.1.loc))
    _ = e.parts.zipIdx.map ((fun p => (p, Chk.ok p.loc)) ∘ Prod.fst) :=
      List.map_congr_left (fun x hx => by rw [h x.1 (List.fst_mem_of_mem_zipIdx hx), ite_self]; rfl)
    _ = e.parts.map (fun p => (p, .ok p.loc)) := by rw [← List.map_map, List.zipIdx_map_fst]

theorem lateCauses_ok (pc : Word) (ps : List StPart) : lateCauses pc (ps.map (fun p => (p, .ok p.loc))) = [] := by
  unfold lateCauses
  rw [List.filterMap_map]
  exact List.filterMap_eq_nil_iff.2 (fun _ _ => rfl)

/-- The entry as it passes is the entry as it stood. -/
theorem placed_all_same (ps : List StPart) :
    (ps.map (fun p => (p, Chk.ok p.loc))).map (fun x => if x.1.done then x.1 else x.1.placed x.2) = ps := by
  rw [List.map_map]
  exact (List.map_congr_left (fun p _ => ite_self p)).trans (List.map_id' ps)

theorem orderPoint_passes (hw : s.wave? u = some w) (hsq : w.sq = e :: rest) (hr : orderReady s w e = true)
    (hp : ∀ p ∈ e.parts, relocate s w p = .ok p.loc ∧ p.waits = false) :
    orderPoint s u = passOrder (s.mapWave u (fun v => { v with sq := rest })) w e := by
  have hlate : ∀ go : StPart × Nat → Bool, e.parts.zipIdx.any (fun x => go x && x.1.waits) = false := fun go =>
    List.any_eq_false.2 (fun x hx => by simp [(hp x.1 (List.fst_mem_of_mem_zipIdx hx)).2])
  have hwait : e.parts.any (fun p => !p.done && p.waits) = false :=
    List.any_eq_false.2 (fun p hx => by simp [(hp p hx).2])
  unfold orderPoint
  simp only [hw, hsq, hr, relocated_same (fun p hx => (hp p hx).1), lateCauses_ok, placed_all_same, hlate, hwait,
    List.append_nil, State.mapWave_id, Bool.not_true, Bool.false_and, Bool.false_eq_true, if_false]

end

/-! ## Performing (R137, R140, R141, R336) -/

section
variable {s : State} {core id : Nat} {e : StEntry} {p : StPart}

/-- An entry of one part that is not done is that part, then the end of the entry. -/
theorem performEntry_one (he : (s.core core).outs.find? (·.id == id) = some e) (hr : performReady s core e = true)
    (hparts : e.parts = [p]) (hdone : p.done = false) (hpath : p.path ≠ pathSteppe) (hawake : partAsleep s e p = false)
    (n : Nat) :
    performEntry s core id (n + 1) = finishEntry (markDone (performPart s core e p) core id (· == 0)) core id := by
  have hps : (e.parts.zipIdx.filter (fun x => x.2 < n + 1 && !x.1.done && x.1.path != pathSteppe)).takeWhile
      (fun x => !partAsleep s e x.1) = [(p, 0)] := by
    simp [hparts, hdone, hpath, hawake]
  unfold performEntry
  simp only [he, hr, hps, Bool.not_true, Bool.false_eq_true, if_false]
  rfl

/-- The lines of a part are used and, on path 7, its request leaves. -/
def partUsed (s : State) (core : Nat) (e : StEntry) (p : StPart) : State :=
  let ctx := match s.wave? e.wave with | some w => waveCtx s w | none => 0
  askPeer (useLoc s true ctx (core / 96) p.path p.va p.loc) ctx p.path p.va p.size p.asks

theorem performPart_store (h : p.op = .store) :
    performPart s core e p =
      (let t := writeLoc (partUsed s core e p) p.loc (leBytes p.size p.val)
       noteWrite t (some (e.wave, e.id)) (· != core) (p.addrs t)) := by
  unfold performPart
  simp only [h]
  rfl

/-- An atomic has read `bs` in `t`: the new value is written, in the L1 only where no younger store of the core stands, and
the old one given (R141, R336). -/
def exchanged (t : State) (core : Nat) (e : StEntry) (p : StPart) (op cmp : Nat) (bs : List Byte) : State :=
  let new := leBytes p.size (atomicNew p.ety op (leNat bs) p.val cmp)
  let t := writeLoc t p.loc new
  let younger := ((((t.core core).outs.dropWhile (·.id != e.id)).drop 1).map (·.cells t)).flatten
  let t := l1Update t core (((p.addrs t).zip new).filter (fun x => !younger.any (·.1 == x.1)))
  giveOld (noteWrite t (some (e.wave, e.id)) (fun _ => true) (p.addrs t)) e p (leNat bs) false

theorem performPart_rmw {op cmp : Nat} (h : p.op = .rmw op cmp) :
    performPart s core e p =
      (let r := rawBytes (partUsed s core e p) p.loc
       if r.2 then giveOld (partUsed s core e p) e p 0 true else exchanged (partUsed s core e p) core e p op cmp r.1) := by
  unfold performPart
  simp only [h]
  rfl

theorem performPart_rmw_sound {op cmp : Nat} {bs : List Byte} (h : p.op = .rmw op cmp)
    (hb : rawBytes (partUsed s core e p) p.loc = (bs, false)) :
    performPart s core e p = exchanged (partUsed s core e p) core e p op cmp bs := by
  rw [performPart_rmw h, hb]
  rfl

end

/-! ## Acknowledgement (R147) -/

section
variable {s : State} {core id : Nat} {e : StEntry} (he : (s.core core).egress.find? (·.id == id) = some e)
include he

/-- The host or the peer has acknowledged the entry. -/
def acked (s : State) (core : Nat) (e : StEntry) : State :=
  s.mapCore core (fun k => { k with egress := k.egress.erase e })

/-- Whether a part of the instruction is still to be acknowledged. -/
theorem ackEntry_eq :
    ackEntry s core id = if e.queued s || ((s.core core).outs ++ (s.core core).egress.erase e).any (·.id == id) then
      acked s core e else (acked s core e).mapWave e.wave (fun v => { v with cnt := { v.cnt with syq := v.cnt.syq - 1 } }) := by
  unfold ackEntry
  simp only [he, State.mapCore_core, if_true]
  rfl

/-- With the last part of an instruction SYQ falls. -/
theorem ackEntry_last (hq : e.queued s = false)
    (hx : ∀ x ∈ (s.core core).outs ++ (s.core core).egress.erase e, x.id ≠ id) :
    ackEntry s core id =
      (acked s core e).mapWave e.wave (fun v => { v with cnt := { v.cnt with syq := v.cnt.syq - 1 } }) := by
  have hnone : ((s.core core).outs ++ (s.core core).egress.erase e).any (·.id == id) = false :=
    List.any_eq_false.2 (fun x hm => by simpa using hx x hm)
  rw [ackEntry_eq he, hq, hnone]
  rfl

theorem ackEntry_more
    (h : e.queued s = true ∨ ∃ x ∈ (s.core core).outs ++ (s.core core).egress.erase e, x.id = id) :
    ackEntry s core id = acked s core e := by
  rw [ackEntry_eq he]
  obtain hq | ⟨x, hm, hid⟩ := h
  · rw [hq, Bool.true_or, if_pos rfl]
  · have hsome : ((s.core core).outs ++ (s.core core).egress.erase e).any (·.id == id) = true :=
      List.any_eq_true.2 ⟨x, hm, beq_iff_eq.2 hid⟩
    rw [hsome, Bool.or_true, if_pos rfl]

end

end Sys2Proof.Machine

namespace Sys2Proof.Proofs
open Sys2Proof.Machine

/-- Settles O43: each step is a function of the state, and the rules above say to what it comes. -/
theorem storeEvents : Obligations.StoreEvents := by
  unfold Obligations.StoreEvents
  intro u core id w e p entry done used
  refine ⟨fun rest => ?_, fun n => ?_, fun n op cmp bs => ?_, ?_, ?_⟩
  · exact happens_of (fun s => orderPoint s u) (fun _ => rfl) (fun s ⟨hw, hsq, hr, hp⟩ => orderPoint_passes hw hsq hr hp)
  · refine happens_of (fun s => performEntry s core id (n + 1)) (fun _ => rfl) ?_
    rintro s ⟨⟨he, hr, hparts, hdone, hpath, hawake⟩, hop⟩
    rw [performEntry_one he hr hparts hdone hpath hawake, performPart_store hop]
    rfl
  · refine happens_of (fun s => performEntry s core id (n + 1)) (fun _ => rfl) ?_
    rintro s ⟨⟨he, hr, hparts, hdone, hpath, hawake⟩, hop, hb⟩
    rw [performEntry_one he hr hparts hdone hpath hawake, performPart_rmw_sound hop hb]
    rfl
  · exact happens_of (fun s => ackEntry s core id) (fun _ => rfl) (fun s ⟨he, hq, hx⟩ => ackEntry_last he hq hx)
  · exact happens_of (fun s => ackEntry s core id) (fun _ => rfl) (fun s ⟨he, h⟩ => ackEntry_more he h)

end Sys2Proof.Proofs
end

