-- ==== Sys2Proof/Proofs/Transactions.lean ====
section
/-!
PROOF. Conflict and commit of a transaction (R365 to R368).
-/
namespace Sys2Proof.Machine

/-- A buffered store is performed in one part or two (R139). -/
theorem halves_ne_nil (p : StPart) : p.halves ≠ [] := by
  unfold StPart.halves
  split
  · split
    · exact List.cons_ne_nil _ _
    · exact List.cons_ne_nil _ _
  · exact List.cons_ne_nil _ _

/-- Who commits is in a transaction. -/
theorem commitReady_open {s : State} {w : Wave} {k : Nat} (h : commitReady s w k = true) : w.kettle.isOpen = true := by
  unfold commitReady allCommit at h
  simp only [Bool.and_eq_true, and_assoc] at h
  exact h.1

section
variable {s : State} {u k : Nat} {w : Wave} (hw : s.wave? u = some w)
include hw

/-! ## Conflicts (R365) -/

theorem transactionConflict_aborts (h : w.kettle.hit &&& w.members ≠ 0) :
    transactionConflict u s = retireIfDone (s.mapWave u (fun v => abortTx v (w.kettle.hit &&& w.members) 2 0)) u := by
  unfold transactionConflict
  simp only [hw, beq_eq_false_iff_ne.2 h, Bool.false_eq_true, if_false]

theorem transactionConflict_none (h : w.kettle.hit &&& w.members = 0) : transactionConflict u s = s := by
  unfold transactionConflict
  simp only [hw, h, beq_self_eq_true, if_true]

/-! ## The commit step (R366 to R368) -/

/-- Without a conflict, and in wave mode or where no lanes meet, all members drain (R367). -/
theorem commitStep_drains (hk : w.kettle.commitAt = some k) (hr : commitReady s w k = true)
    (hhit : w.kettle.hit &&& w.members = 0) (halias : w.kettle.whole = true ∨ aliasLanes s w w.members = 0) :
    commitStep u s = drainGroup s u k := by
  have hz : (if w.kettle.whole then 0 else aliasLanes s w w.members) = 0 := by
    obtain h | h := halias
    · rw [if_pos h]
    · rw [h, ite_self]
  unfold commitStep
  simp only [hw, hk, hr, transactionConflict_none hw hhit, hz, Bool.not_true, Bool.false_eq_true, if_false,
    beq_self_eq_true, if_true]

/-- The members leave the transaction and go on after their COMMIT (R368). -/
def leaveTx (members : Mask) (v : Wave) : Wave :=
  v.closeTx.mapLanes members (fun _ t => { t with wait := .none, pc := t.pc + 8 })

/-- Without a buffered store the members only leave. -/
theorem drainGroup_leaves (hopen : w.kettle.isOpen = true) (hb : w.kettle.buf = []) :
    drainGroup s u k = s.mapWave u (leaveTx w.members) := by
  unfold drainGroup
  simp only [hw, hopen, hb, List.map_nil, List.flatten_nil, List.isEmpty_nil, Bool.not_true, Bool.false_eq_true, if_false,
    if_true]
  rfl

/-- The buffered stores as one entry of the store queue, under the group's number and at the lowest member's PC (R366). -/
def commitEntry (s : State) (u k : Nat) (w : Wave) (l : Nat) : StEntry :=
  { id := k, wave := u, pc := (w.thread l).pc, word := (fetch s ⟨w.code, (w.thread l).pc, w.modeOf l⟩).1, kind := .commit,
    parts := (w.kettle.buf.map StPart.halves).flatten, scope := 0, acq := false, rel := false, flight := none, xfer := none,
    stq := true, syq := true }

/-- The entry stands at the head of the queue; STQ and SYQ have risen (R368). -/
def queueFirst (e : StEntry) (v : Wave) : Wave :=
  { v with sq := e :: v.sq, cnt := { v.cnt with stq := v.cnt.stq + 1, syq := v.cnt.syq + 1 } }

/-- With buffered stores the members leave, and their entry passes the order point. -/
theorem drainGroup_queues {l : Nat} (hopen : w.kettle.isOpen = true) (hb : w.kettle.buf ≠ [])
    (hl : lowest w.members = some l) :
    drainGroup s u k =
      orderPoint ((s.mapWave u (leaveTx w.members)).mapWave u (queueFirst (commitEntry s u k w l))) u := by
  have hparts : (w.kettle.buf.map StPart.halves).flatten.isEmpty = false := by
    obtain ⟨p, hp⟩ := List.exists_mem_of_ne_nil _ hb
    rw [List.isEmpty_eq_false_iff]
    exact fun h => halves_ne_nil p (List.flatten_eq_nil_iff.1 h _ (List.mem_map_of_mem hp))
  unfold drainGroup
  simp only [hw, hopen, hparts, hl, Bool.not_true, Bool.false_eq_true, if_false]
  rfl

end

end Sys2Proof.Machine

namespace Sys2Proof.Proofs
open Sys2Proof.Machine

/-- Settles O47: where nothing aborts the commit step drains the whole group. -/
theorem transactionEvents : Obligations.TransactionEvents := by
  unfold Obligations.TransactionEvents
  intro u k w leave ready
  refine ⟨happens_of (transactionConflict u) (fun _ => rfl) (fun s ⟨hw, hhit⟩ => transactionConflict_aborts hw hhit), ?_,
    fun l => ?_⟩
  · refine happens_of (commitStep u) (fun _ => rfl) ?_
    rintro s ⟨⟨hw, hk, hr, hhit, halias⟩, hb⟩
    rw [commitStep_drains hw hk hr hhit halias]
    exact drainGroup_leaves hw (commitReady_open hr) hb
  · refine happens_of (commitStep u) (fun _ => rfl) ?_
    rintro s ⟨⟨hw, hk, hr, hhit, halias⟩, hb, hl⟩
    rw [commitStep_drains hw hk hr hhit halias]
    exact drainGroup_queues hw (commitReady_open hr) hb hl

end Sys2Proof.Proofs
end

