-- ==== Sys2Proof/Proofs/Engines.lean ====
section
/-!
PROOF. Copy engines: tails, entries, commands, classes and the ENGINE cause (R427 to R436, R173, R174).
-/
namespace Sys2Proof.Machine

section
variable {s : State} {e : Nat} {c : Cmd}

/-! ## Tails (R427, R429) -/

theorem engineTailDoorbell_records {a : DWord} (he : e < 64) (hboot : s.host.boot = .normal) :
    engineTailDoorbell e a s = s.mapEngine e (fun x => { x with tails := x.tails ++ [(a.toNat, none, none)] }) := by
  unfold engineTailDoorbell
  simp only [he, hboot, decide_true, beq_self_eq_true, Bool.and_self, if_true]

/-- A wave's tail that is not the complete entry at HEAD becomes TAIL, and feeds the engine. -/
theorem engineTailRecord_feeds {a u : Nat} {t : Option Nat} {rest : List (Nat × Option Nat × Option Nat)}
    (htails : (s.engine e).tails = (a, some u, t) :: rest) (hbusy : ¬ (engDone s e = true ∧ engHead s e = a)) :
    engineTailRecord e s = ((setEng s e 384 64 a).mapEngine e (fun x =>
      { x with tails := rest, feeds := x.feeds ++ [(a, t)] })).mapWave u (·.lower 5) := by
  have hidle : (engDone s e && engHead s e == a) = false := by
    rw [Bool.eq_false_iff]
    simpa only [ne_eq, Bool.and_eq_true, beq_iff_eq] using hbusy
  unfold engineTailRecord
  simp only [htails, hidle, Bool.false_eq_true, if_false]

/-! ## An engine's step (R429, R432) -/

section
variable {takes : Nat → Bool} {work : State → Cmd → State}

/-- An engine without a command accepts the entry at HEAD whose operation is the step's. -/
theorem engineStep_accepts {a phys : Nat} {b : BitVec 512} (hcmd : (s.engine e).cmd = none)
    (hfetch : engFetch (engAdvance s e) e = some (a, .got phys b)) (hop : takes (dn b 0 8) = true) :
    engineStep e takes work s = engAccept (engAdvance s e) e a phys b := by
  unfold engineStep
  simp only [hcmd, hfetch, hop, if_true]

theorem engineStep_works (hcmd : (s.engine e).cmd = some c) (hop : takes c.op = true) :
    engineStep e takes work s = work s c := by
  unfold engineStep
  simp only [hcmd, hop, if_true]

end

/-- An entry whose operation is neither COPY's nor FILL's. -/
theorem other_op {op : Nat} (h : op ≠ 1 ∧ op ≠ 2) : (op != 1 && op != 2) = true := by
  simpa only [Bool.and_eq_true, bne_iff_ne] using h

section
variable {deny : Bool} {run : State → Cmd → BitVec 512 → BitVec 512 → State}

theorem cmdWork_skips (h : cmdPlan s e c = .skip) : cmdWork e deny run s c = endEntry s e c.addr := by
  unfold cmdWork
  simp only [h]

theorem cmdWork_fails {k : Nat} (h : cmdPlan s e c = .fail k) : cmdWork e deny run s c = failCmd s e c k := by
  unfold cmdWork
  simp only [h]

theorem cmdWork_nop (h : cmdPlan s e c = .nop) : cmdWork e deny run s c = completeCmd s e c 0 c.chunks := by
  unfold cmdWork
  simp only [h]

/-- A command that is performed has read its views (R433). -/
theorem cmdWork_runs {src dst : BitVec 512} (h : cmdPlan s e c = .run src dst) :
    cmdWork e deny run s c = run (useBlock e (useBlock e s c.viewAddrs.1) c.viewAddrs.2) c src dst := by
  unfold cmdWork
  simp only [h]

end

/-! ## Completing (R431, R432, R154) -/

/-- The progress word and the sequence number of a command that has ended. -/
def closeCmd (s : State) (e : Nat) (c : Cmd) (pst ecode chunks : Nat) : State :=
  setEng (putProg s e c pst ecode chunks) e 448 64 ((engSeq s e + 1) % 2 ^ 64)

theorem completeCmd_sound (chunks : Nat) : completeCmd s e c 0 chunks = endEntry (closeCmd s e c 2 0 chunks) e c.addr := rfl

/-- A command that fails raises ENGINE in the team that fed it. -/
theorem failCmd_raises (k : Nat) :
    failCmd s e c (k + 1) = endEntry (raiseEngine (setEng (closeCmd s e c 3 (k + 1) c.chunks) e 256 1 1)
      (engFeeder (closeCmd s e c 3 (k + 1) c.chunks) e) e ((engSeq s e + 1) % 2 ^ 64)) e c.addr := rfl

/-! ## Positions (R434) -/

/-- A command in progress: its progress word says so (R435). -/
def inProgress (s : State) (e : Nat) (c : Cmd) : State :=
  if c.word.extractLsb' 190 2 = 1#2 then s else putProg s e c 1 0 c.chunks

/-- The bytes at a destination position, written. -/
def putAt (s : State) (e : Nat) (dst : BitVec 512) (q : List Nat) (l : Loc) (bs : List Byte) : State :=
  noteWrite (writeLoc (posUse s true e dst q l) l bs) none (fun _ => true) (l.addrs s)

/-- The next position of the command. -/
def setPos (s : State) (e pos : Nat) : State :=
  s.mapEngine e (fun x => { x with cmd := x.cmd.map (fun c => { c with pos := pos }) })

section
variable {src dst : BitVec 512} {q p : List Nat} {l m : Loc} {bs : List Byte}

theorem putPos_writes (hchk : posChk s e dst q .write = .ok l) (hawake : posAsleep s e dst q l = false) :
    putPos s e dst q bs = .ok (putAt s e dst q l bs) := by
  unfold putPos
  simp only [hchk, hawake, Bool.false_eq_true, if_false]
  rfl

/-- A position without a source takes the command's value. -/
theorem posOne_fills (hchk : posChk s e dst q .write = .ok l) (hawake : posAsleep s e dst q l = false) :
    posOne s e c src dst (q, none) =
      .ok (putAt s e dst q l (leBytes (vEs dst) (dn c.word 192 64 % 2 ^ (8 * vEs dst)))) := putPos_writes hchk hawake

/-- A data position takes the bytes of its source position. -/
theorem posOne_copies (hread : posChk s e src p .read = .ok m) (hup : posAsleep s e src p m = false)
    (hbs : sourceBytes (posUse s false e src p m) m (vEs src) = some bs)
    (hchk : posChk (posUse s false e src p m) e dst q .write = .ok l)
    (hawake : posAsleep (posUse s false e src p m) e dst q l = false) :
    posOne s e c src dst (q, some p) = .ok (putAt (posUse s false e src p m) e dst q l bs) := by
  unfold posOne
  simp only [hread, hup, hbs, Bool.false_eq_true, if_false]
  exact putPos_writes hchk hawake

/-- A chunk of which one position is asked for: once this is performed, the command stands at the next. -/
theorem runChunk_one {n : Nat} {deny : Bool} {x : List Nat × Option (List Nat)} {t : State}
    (hx : ((c.places src dst c.chunks).take n).drop c.pos = [x])
    (hone : posOne (inProgress s e c) e c src dst x = .ok t) :
    runChunk e n deny s c src dst = setPos t e (c.pos + 1) := by
  have hgo : runChunk e n deny s c src dst =
      posAll (inProgress s e c) e c src dst deny (((c.places src dst c.chunks).take n).drop c.pos) c.pos := rfl
  rw [hgo, hx]
  unfold posAll
  rw [hone]
  rfl

end

/-! ## Chunks (R435) -/

theorem engineChunkDone_last {dst : BitVec 512} (h : chunkLeft s e = some (c, dst, 0)) (hlast : c.total dst ≤ c.chunks + 1) :
    engineChunkDone e s = completeCmd s e c 0 (c.total dst) := by
  unfold engineChunkDone
  simp only [h, Nat.min_eq_right hlast, if_true]

theorem engineChunkDone_more {dst : BitVec 512} (h : chunkLeft s e = some (c, dst, 0)) (hmore : c.chunks + 1 < c.total dst) :
    engineChunkDone e s = setPos (putProg s e c 1 0 (c.chunks + 1)) e 0 := by
  unfold engineChunkDone
  simp only [h, Nat.min_eq_left (Nat.le_of_lt hmore), if_neg (Nat.ne_of_lt hmore)]
  rfl

/-! ## Chains (R430) and classes (R436) -/

/-- An entry that cannot be read stops the engine and raises ENGINE. -/
theorem chainFault_stops {a : Nat} {p : Bool} (h : engFetch (engAdvance s e) e = some (a, .bad p)) :
    chainFault e s = (raiseEngine (setEng (engAdvance s e) e 257 1 1) (engFeeder (setEng (engAdvance s e) e 257 1 1) e) e
      (engSeq (setEng (engAdvance s e) e 257 1 1) e + 1)).mapEngine e (fun x => { x with stopped := true }) := by
  unfold chainFault
  simp only [h]

theorem deadlinePromote_raises (hcmd : (s.engine e).cmd = some c) (hd : c.deadline ≠ 0) :
    deadlinePromote e s =
      s.mapEngine e (fun x => { x with cmd := some { c with cls := max c.cls (min 3 (dn c.word 62 3 + 1)) } }) := by
  unfold deadlinePromote
  simp only [hcmd, if_neg hd]

theorem deadlineExpire_marks (hcmd : (s.engine e).cmd = some c) (hd : c.deadline ≠ 0) (hnew : c.late = false) :
    deadlineExpire e s = putProg (s.mapEngine e (fun x => { x with cmd := some { c with cls := 3, late := true } })) e
      { c with cls := 3, late := true } (dn c.word 190 2) 0 c.chunks := by
  have hon : ¬ (c.deadline = 0 ∨ c.late = true) := by
    rw [hnew]
    simpa using hd
  unfold deadlineExpire
  simp only [hcmd, if_neg hon]
  rfl

end

/-! ## The ENGINE cause (R173, R174, R180) -/

/-- No thread of a wave without members aborts. -/
theorem abortTx_none {w : Wave} (code own : Nat) (h : w.members = 0) : abortTx w w.members code own = w := by
  have hand (m : Mask) : m &&& 0 = 0 := BitVec.and_zero
  unfold abortTx
  split
  · rfl
  · simp only [h, hand, beq_self_eq_true, if_true, ite_self]

/-- An update that leaves each wave of the number as it is changes nothing. -/
theorem mapWave_fixed {s : State} {u : Nat} {f : Wave → Wave} (h : ∀ v ∈ s.waves, v.uid = u → f v = v) :
    s.mapWave u f = s := by
  have hsame : s.waves.map (fun v => if v.uid = u then f v else v) = s.waves.map id :=
    List.map_congr_left (fun v hv => ite_eq_right_iff.2 (h v hv))
  unfold State.mapWave
  rw [hsame, List.map_id]

section
variable {s : State} {u : Nat} {w : Wave} {k : Cause} {tv : DWord} (hw : s.wave? u = some w)
include hw

theorem asyncCause_records (hh : w.handling = true) : asyncCause s u k tv = s.mapWave u (fun v => v.recordCause k) := by
  unfold asyncCause
  simp only [hw, hh, if_true]

/-- Without a transaction or an earlier cause, all running threads of the wave enter handler mode. -/
theorem asyncCause_enters (honly : ∀ v ∈ s.waves, v.uid = u → v = w) (hmem : w.members = 0) (hidle : w.handling = false)
    (hnone : w.parkq = []) (hquiet : w.preempt = false) (hcustom : w.handler ≠ defaultHandler s w)
    (hk : k.word.getLsbD 13 = false) :
    asyncCause s u k tv = s.mapWave u (Wave.enter k 0 w.running (fun _ => tv) w.handler) := by
  have habort : s.mapWave u (fun v => abortTx v v.members (abortCode k) 0) = s :=
    mapWave_fixed (fun v hv huid => by rw [honly v hv huid]; exact abortTx_none _ _ hmem)
  unfold asyncCause
  simp only [hw, hidle, habort, Bool.false_eq_true, if_false]
  exact deliver_one (p := ⟨w.running, k.word, 0, false, true, false⟩) (fun _ => tv) hw hidle hnone hquiet hcustom hk

/-- The cause leaves the wave's list as it is taken. -/
theorem engineCauseTaken_takes {rest : List DWord} (heng : w.engine = tv :: rest) (hlive : w.retired = false)
    (hrun : w.handling = true ∨ w.running ≠ 0) :
    engineCauseTaken u s = asyncCause (s.mapWave u (fun v => { v with engine := rest })) u .engine tv := by
  have hgo : (w.retired || (!w.handling && w.running == 0)) = false := by
    rw [hlive, Bool.false_or]
    obtain h | h := hrun
    · rw [h]; rfl
    · rw [beq_eq_false_iff_ne.2 h, Bool.and_false]
  unfold engineCauseTaken
  simp only [hw, heng, hgo, Bool.false_eq_true, if_false]

theorem engineCauseTaken_records {rest : List DWord} (heng : w.engine = tv :: rest) (hlive : w.retired = false)
    (hh : w.handling = true) :
    engineCauseTaken u s = s.mapWave u (fun v => Wave.recordCause { v with engine := rest } .engine) := by
  have hfound := mapWave_found (F := fun v => { v with engine := rest }) hw (fun _ => rfl)
  rw [engineCauseTaken_takes hw heng hlive (.inl hh), asyncCause_records hfound hh,
    State.mapWave_mapWave (hf := by intro v h; exact h)]

theorem engineCauseTaken_enters {rest : List DWord} (honly : ∀ v ∈ s.waves, v.uid = u → v = w)
    (heng : w.engine = tv :: rest) (hlive : w.retired = false) (hrun : w.running ≠ 0) (hmem : w.members = 0)
    (C : Calm s w w.running) :
    engineCauseTaken u s =
      s.mapWave u (fun v => Wave.enter .engine 0 w.running (fun _ => tv) w.handler { v with engine := rest }) := by
  have hfound := mapWave_found (F := fun v => { v with engine := rest }) hw (fun _ => rfl)
  have honly' : ∀ v ∈ (s.mapWave u (fun v => { v with engine := rest })).waves, v.uid = u →
      v = { w with engine := rest } := by
    rw [State.mapWave_waves]
    rintro v hv huid
    obtain ⟨x, hx, rfl⟩ := List.mem_map.1 hv
    by_cases h : x.uid = u
    · rw [if_pos h, honly x hx h]
    · rw [if_neg h] at huid
      exact absurd huid h
  rw [engineCauseTaken_takes hw heng hlive (.inr hrun),
    asyncCause_enters hfound honly' hmem C.idle C.none C.quiet C.custom (by decide),
    State.mapWave_mapWave (hf := by intro v h; exact h)]
  rfl

end

end Sys2Proof.Machine

namespace Sys2Proof.Proofs
open Sys2Proof.Machine

/-- Settles O50: each step is a function of the state, and the rules above say to what it comes. -/
theorem engineEvents : Obligations.EngineEvents := by
  unfold Obligations.EngineEvents
  intro e u a phys n c b src dst deny w tv cmd works closed ended failed accepts viewed runs begun
  refine ⟨?_, fun t rest => ?_, ?_, ?_, ?_, ?_, fun k => ?_, ?_, fun q l => ?_, fun q p l m bs => ?_, fun k => ?_, ?_, ?_,
    fun p => ?_, ?_, ?_, fun rest => ?_, fun rest => ?_⟩
  · exact happens_of (engineTailDoorbell e tv) (fun _ => rfl) (fun s ⟨he, hboot⟩ => engineTailDoorbell_records he hboot)
  · exact happens_of (engineTailRecord e) (fun _ => rfl) (fun s ⟨htails, hbusy⟩ => engineTailRecord_feeds htails hbusy)
  · exact happens_of (engineCopy e n deny) (fun _ => rfl)
      (fun s ⟨hcmd, hfetch, hop⟩ => engineStep_accepts hcmd hfetch (beq_iff_eq.2 hop))
  · exact happens_of (engineFill e n deny) (fun _ => rfl)
      (fun s ⟨hcmd, hfetch, hop⟩ => engineStep_accepts hcmd hfetch (beq_iff_eq.2 hop))
  · exact happens_of (engineNop e) (fun _ => rfl)
      (fun s ⟨hcmd, hfetch, hop⟩ => engineStep_accepts hcmd hfetch (other_op hop))
  · refine happens_of (engineNop e) (fun _ => rfl) ?_
    rintro s ⟨⟨hcmd, hplan⟩, hop⟩
    exact (engineStep_works hcmd (by rw [hop]; rfl)).trans (cmdWork_nop hplan)
  · refine happens_of (engineNop e) (fun _ => rfl) ?_
    rintro s ⟨⟨hcmd, hplan⟩, hop⟩
    exact (engineStep_works hcmd (other_op hop)).trans ((cmdWork_fails hplan).trans (failCmd_raises k))
  · refine happens_of (engineNop e) (fun _ => rfl) ?_
    rintro s ⟨⟨hcmd, hplan⟩, hop⟩
    exact (engineStep_works hcmd (other_op hop)).trans (cmdWork_skips hplan)
  · refine happens_of (engineFill e n deny) (fun _ => rfl) ?_
    rintro s ⟨⟨⟨hcmd, hplan⟩, hop⟩, hplaces, hchk, hawake⟩
    exact (engineStep_works hcmd (by rw [hop]; rfl)).trans
      ((cmdWork_runs hplan).trans (runChunk_one hplaces (posOne_fills hchk hawake)))
  · refine happens_of (engineCopy e n deny) (fun _ => rfl) ?_
    rintro s ⟨⟨⟨hcmd, hplan⟩, hop⟩, hplaces, hread, hup, hbs, hchk, hawake⟩
    exact (engineStep_works hcmd (by rw [hop]; rfl)).trans
      ((cmdWork_runs hplan).trans (runChunk_one hplaces (posOne_copies hread hup hbs hchk hawake)))
  · refine happens_of (engineCopy e n deny) (fun _ => rfl) ?_
    rintro s ⟨⟨hcmd, hplan⟩, hop⟩
    exact (engineStep_works hcmd (by rw [hop]; rfl)).trans ((cmdWork_fails hplan).trans (failCmd_raises k))
  · exact happens_of (engineChunkDone e) (fun _ => rfl)
      (fun s ⟨h, hlast⟩ => (engineChunkDone_last h hlast).trans (completeCmd_sound _))
  · exact happens_of (engineChunkDone e) (fun _ => rfl) (fun s ⟨h, hmore⟩ => engineChunkDone_more h hmore)
  · exact happens_of (chainFault e) (fun _ => rfl) (fun s h => chainFault_stops h)
  · exact happens_of (deadlinePromote e) (fun _ => rfl) (fun s ⟨hcmd, hd⟩ => deadlinePromote_raises hcmd hd)
  · exact happens_of (deadlineExpire e) (fun _ => rfl) (fun s ⟨hcmd, hd, hnew⟩ => deadlineExpire_marks hcmd hd hnew)
  · exact happens_of (engineCauseTaken u) (fun _ => rfl)
      (fun s ⟨hw, heng, hlive, hh⟩ => engineCauseTaken_records hw heng hlive hh)
  · exact happens_of (engineCauseTaken u) (fun _ => rfl)
      (fun s ⟨hw, honly, heng, hlive, hrun, hmem, C⟩ => engineCauseTaken_enters hw honly heng hlive hrun hmem C)

end Sys2Proof.Proofs
end

