-- ==== Sys2Proof/Proofs/Illegal.lean ====
section
/-!
PROOF. ILLEGAL in every issuing thread (R183, R231, R252): taken at once by one wave, out of handler mode, by members and in
handler mode; and which words raise it where they issue.
-/
namespace Sys2Proof.Machine

/-! ## Causes that a whole group raises (R174, R180, R189) -/

section
variable {s : State} {u : Nat} {w : Wave} {k : Cause} {lanes : Mask} {tval : Nat → DWord}

theorem trapsOf_cause : ∀ t ∈ trapsOf k lanes tval, t.cause = k := by
  intro t ht
  obtain ⟨l, -, rfl⟩ := List.mem_map.1 ht
  rfl

/-- Some lane raises the cause first. -/
theorem trapsOf_cons (h0 : lanes ≠ 0) : ∃ l ∈ lanesOf lanes, ∃ ts, trapsOf k lanes tval = ⟨l, k, tval l, 0⟩ :: ts := by
  obtain ⟨m, hm⟩ := exists_lane h0
  unfold trapsOf
  cases h : lanesOf lanes with
  | nil => rw [h] at hm; cases hm
  | cons l ls => exact ⟨l, List.mem_cons_self, _, rfl⟩

/-- Without a sub-wave in handler mode no thread is there. -/
theorem inHandler_idle (hidle : w.handling = false) (l : Nat) : w.inHandler l = false := by
  unfold Wave.inHandler Wave.handlerMask
  rw [hidle, if_neg Bool.false_ne_true]
  exact BitVec.getLsbD_zero

/-- The lowest abort code of one cause is that of the cause. -/
theorem foldl_min_same {α : Type} (f : α → Nat) {n m : Nat} (hn : n ≤ m) : ∀ {as : List α}, as ≠ [] →
    (∀ a ∈ as, f a = n) → as.foldl (fun m a => min m (f a)) m = n := by
  intro as
  induction as generalizing m with
  | nil => intro h; exact absurd rfl h
  | cons a as ih =>
    intro _ h
    rw [List.foldl_cons, h a List.mem_cons_self, Nat.min_eq_right hn]
    by_cases hnil : as = []
    · rw [hnil]; rfl
    · exact ih (Nat.le_refl n) hnil (fun b hb => h b (List.mem_cons_of_mem a hb))

section
variable (hw : s.wave? u = some w) (h0 : lanes ≠ 0)
include hw h0

/-- Members that raise a cause abort with its code (R189). -/
theorem takeTraps_members (pc : Word) (hidle : w.handling = false) (hmem : w.members &&& lanes ≠ 0) :
    takeTraps s u pc (trapsOf k lanes tval) =
      retireIfDone (s.mapWave u (fun v => abortTx v lanes (abortCode k) 0)) u := by
  obtain ⟨l, -, ts, hts⟩ := trapsOf_cons (k := k) (tval := tval) h0
  have hout : w.inHandler l = false := inHandler_idle hidle l
  have hcode : (trapsOf k lanes tval).foldl (fun m t => min m (abortCode t.cause)) 255 = abortCode k :=
    foldl_min_same (fun t : Trap => abortCode t.cause) (by cases k <;> decide) (by rw [hts]; exact List.cons_ne_nil _ _)
      (fun t ht => by rw [trapsOf_cause t ht])
  have hne : (w.members &&& lanes != 0) = true := bne_iff_ne.2 hmem
  unfold takeTraps
  simp only [hw, oneEach_trapsOf]
  rw [hts]
  simp only [← hts, hout, trapsOf_lanes, maskOf_lanesOf, hne, hcode, Bool.false_eq_true, if_false, if_true]

/-- In handler mode a cause before the word is recorded once for each lane, and the lanes go on at the next word (R180). -/
theorem takeTraps_recorded (pc : Word) (hk : isAfter k = false) (hh : w.handling = true) (hsub : lanes &&& ~~~ w.subw = 0) :
    takeTraps s u pc (trapsOf k lanes tval) = s.mapWave u (fun v =>
      ((lanesOf lanes).foldl (fun v _ => v.recordCause k) v).setPc lanes (fun _ => pc + 8)) := by
  obtain ⟨l, hl, ts, hts⟩ := trapsOf_cons (k := k) (tval := tval) h0
  have hin : w.inHandler l = true := by
    have hz : (lanes &&& ~~~ w.subw).getLsbD l = false := by rw [hsub]; exact BitVec.getLsbD_zero
    have hg := (mem_lanesOf lanes l).1 hl
    have hlt := BitVec.lt_of_getLsbD hg
    unfold Wave.inHandler Wave.handlerMask
    rw [BitVec.getLsbD_and, BitVec.getLsbD_not, hg, decide_eq_true hlt, Bool.true_and, Bool.true_and,
      Bool.not_eq_false'] at hz
    rw [if_pos hh]
    exact hz
  have hkept : (trapsOf k lanes tval).filter (fun t => !(t.cause == .break || t.cause == .fpx || t.cause == .watch)) =
      trapsOf k lanes tval := by
    rw [List.filter_eq_self]
    intro t ht
    rw [trapsOf_cause t ht]
    exact congrArg (!·) hk
  have hfold : ∀ v : Wave, (trapsOf k lanes tval).foldl (fun v t => v.recordCause t.cause) v =
      (lanesOf lanes).foldl (fun v _ => v.recordCause k) v := fun v => List.foldl_map ..
  unfold takeTraps
  simp only [hw, oneEach_trapsOf]
  rw [hts]
  simp only [← hts, hin, if_true, hkept, trapsOf_lanes, maskOf_lanesOf, hfold]
  rfl

end

end

/-! ## ILLEGAL of one wave -/

section
variable {s : State} {i : Issue} {w : Wave} {g : Mask} (I : Issues s i w g) (hs : ∀ n, standsBy s n w.uid = false)
include I hs

/-- Where one wave issues, and no second word of it stands by, its threads take ILLEGAL at once. -/
theorem illegalAll_one (tv : DWord) :
    illegalAll s i tv = takeTraps s w.uid i.key.pc (trapsOf .illegal g (fun _ => tv)) := by
  unfold illegalAll
  rw [shares_alone I, List.foldl_cons, List.foldl_nil, I.late]
  exact takeInOrder_traps _ _ (hs _)

theorem exec_illegalWord {x : DWord} {t : State}
    (h : takeTraps s w.uid i.key.pc (trapsOf .illegal g (fun _ => x)) = t) (hb : t.bad = none) :
    exec (.illegalWord x) s = .next t := by
  have hgo : illegalWord x s = t := by
    unfold illegalWord
    rw [I.cur]
    exact (illegalAll_one I hs x).trans h
  exact (congrArg finish hgo).trans (finish_next _ hb)

theorem exec_textOverrun {t : State} (h : takeTraps s w.uid i.key.pc (trapsOf .illegal g (fun _ => 0)) = t)
    (hb : t.bad = none) : exec .textOverrun s = .next t := by
  have hgo : textOverrun s = t := by
    unfold textOverrun
    rw [I.cur]
    exact (illegalAll_one I hs 0).trans h
  exact (congrArg finish hgo).trans (finish_next _ hb)

end

/-! ## Words that are not permitted (R183, R251) -/

/-- A word that is not permitted in some share of its group does what a word that is no instruction does. -/
theorem exec_not_legal {ins : Instr} {m : Sem} {s : State} {i : Issue} (hsem : semOf ins = some m) (hcur : s.cur = some i)
    (h : ∃ p ∈ shares s i, m.legal s p.rd i.hm = false) : exec ins s = exec (.illegalWord i.word) s := by
  have hany : (shares s i).any (fun p => !m.legal s p.rd i.hm) = true := by
    obtain ⟨p, hp, hl⟩ := h
    exact List.any_eq_true.2 ⟨p, hp, by rw [hl]; rfl⟩
  have hgo : issueFull m s = illegalWord i.word s := by
    unfold issueFull illegalWord
    simp only [hcur, hany, if_true]
  exact (exec_of_semOf hsem s).trans (congrArg finish hgo)

end Sys2Proof.Machine

namespace Sys2Proof.Proofs
open Sys2Proof.Machine

/-- Settles O20: one wave's threads take the cause at once, and what it does there is what it does to a calm wave, to members
and in handler mode. -/
theorem illegalEntry : Obligations.IllegalEntry := by
  unfold Obligations.IllegalEntry
  intro s i w g x I hs taken
  refine ⟨fun _ C => ?_, fun hidle hmem => ?_, fun hh hsub => ?_⟩
  · have enters (tv : DWord) : takeTraps s w.uid i.key.pc (trapsOf .illegal g (fun _ => tv)) = taken tv :=
      takeTraps_calm .illegal i.key.pc (fun _ => tv) I.found C I.lanes (by decide)
    exact ⟨exec_illegalWord I hs (enters x) I.sound, exec_textOverrun I hs (enters 0) I.sound⟩
  · exact exec_illegalWord I hs (takeTraps_members I.found I.lanes _ hidle hmem) ((retireIfDone_bad ..).trans I.sound)
  · exact exec_illegalWord I hs (takeTraps_recorded I.found I.lanes _ rfl hh hsub) I.sound

/-- Settles O21: the description of each word says where it is permitted, and a word that is not raises ILLEGAL. -/
theorem whereLegal : Obligations.WhereLegal := by
  unfold Obligations.WhereLegal
  refine ⟨fun f s w hm => ?_, fun ins m s i hsem hcur h => exec_not_legal hsem hcur h, fun ins m s i w g hsem A C hl => ?_⟩
  · refine ⟨rfl, rfl, rfl, rfl, rfl, rfl, ?_⟩
    simp only [List.forall_mem_cons]
    exact ⟨rfl, rfl, rfl, rfl, fun _ h => absurd h List.not_mem_nil⟩
  · rw [exec_not_legal hsem A.cur ⟨⟨w.uid, w, g⟩, by rw [shares_alone A.toIssues]; exact List.mem_singleton_self _, hl⟩]
    exact ((illegalEntry s i w g i.word A.toIssues C.single).1 A.mode C).1

end Sys2Proof.Proofs
end

