-- ==== Sys2Proof/Proofs/DefaultHandler.lean ====
section
/-!
PROOF. At the default handler's entry a cause ends the team (R177, R179, R220): its record holds the %tval of the lowest lane
that raises it.
-/
namespace Sys2Proof.Machine

/-! ## Threads as they leave their join slots (R55) -/

section
variable {β : Type} (φ : Thread → β)

/-- What an update of lanes keeps of a thread. -/
theorem mapLanes_thread_keeps {f : Nat → Thread → Thread} (hf : ∀ l t, φ (f l t) = φ t) (v : Wave) (m : Mask) (l : Nat) :
    φ ((v.mapLanes m f).thread l) = φ (v.thread l) := by
  unfold Wave.mapLanes Wave.thread
  simp only [List.getD_eq_getElem?_getD, List.getElem?_mapIdx]
  cases v.threads[l]? with
  | none => rfl
  | some t =>
    simp only [Option.map_some, Option.getD_some]
    split
    · exact hf l t
    · rfl

/-- Join slots change the wait and the PC of a thread, and nothing else of it. -/
theorem joinTest_thread_keeps (hφ : ∀ t x pc, φ { t with wait := x, pc := pc } = φ t) (v : Wave) (j l : Nat) :
    φ ((v.joinTest j).thread l) = φ (v.thread l) := by
  unfold Wave.joinTest
  simp only
  split
  · refine mapLanes_thread_keeps φ (fun _ t => ?_) v _ l
    split
    · exact hφ t .none (pcNext t.pc)
    · rfl
  · rfl

theorem leaveJoins_thread_keeps (hφ : ∀ t x pc, φ { t with wait := x, pc := pc } = φ t) (v : Wave) (m : Mask) (l : Nat) :
    φ ((v.leaveJoins m).thread l) = φ (v.thread l) := by
  unfold Wave.leaveJoins
  refine List.foldlRecOn (motive := fun w : Wave => φ (w.thread l) = φ (v.thread l)) _ _ rfl (fun w ih j _ => ?_)
  simp only
  split
  · exact (joinTest_thread_keeps φ hφ _ j l).trans ih
  · exact ih

end

/-- A lane that is parked has its %tval (R174). -/
theorem left_tval {w : Wave} {lanes : Mask} {tval : Nat → DWord} {l : Nat} (hl : l ∈ lanesOf lanes)
    (hlen : l < w.threads.length) : ((w.left lanes tval).thread l).tval = tval l := by
  unfold Wave.left
  rw [leaveJoins_thread_keeps (·.tval) (fun _ _ _ => rfl)]
  unfold Wave.mapLanes Wave.thread
  simp only [List.getD_eq_getElem?_getD, List.getElem?_mapIdx, List.getElem?_eq_getElem hlen, Option.map_some,
    Option.getD_some, (mem_lanesOf lanes l).1 hl, if_true]

theorem left_team (lanes : Mask) (tval : Nat → DWord) (v : Wave) : (v.left lanes tval).team = v.team := by
  unfold Wave.left
  obtain ⟨_, _, h⟩ := leaveJoins_keeps
    (v.mapLanes lanes (fun l t => { t with wait := .none, parkPc := t.pc, tval := tval l })) lanes
  rw [h]
  rfl

theorem lowest_some {m : Mask} (h : m ≠ 0) : ∃ l, lowest m = some l ∧ l ∈ lanesOf m := by
  obtain ⟨k, hk⟩ := exists_lane h
  unfold lowest
  cases hm : lanesOf m with
  | nil => rw [hm] at hk; cases hk
  | cons l ls => exact ⟨l, rfl, List.mem_cons_self⟩

/-! ## The end of the team (R179) -/

section
variable {s : State} {u : Nat} {w : Wave} (hw : s.wave? u = some w) (hidle : w.handling = false)
include hw hidle

/-- Out of handler mode and of a transaction one cause parks its lanes, and the next sub-wave is delivered (R174, R178). -/
theorem takeTraps_parks {k : Cause} {lanes : Mask} {tval : Nat → DWord} (pc : Word) (h0 : lanes ≠ 0)
    (hout : w.members &&& lanes = 0) :
    takeTraps s u pc (trapsOf k lanes tval) = deliver (s.mapWave u (fun v => parkLanes v
      ⟨lanes, k.word, if isAfter k then pc + 8 else pc, false, false, false⟩
      ((lanesOf lanes).map (fun l => (l, tval l))))) u := by
  obtain ⟨l, -, ts, hts⟩ := trapsOf_cons (k := k) (tval := tval) h0
  have hin : w.inHandler l = false := inHandler_idle hidle l
  have hgroup : groupTraps (trapsOf k lanes tval) = [(k, trapsOf k lanes tval)] :=
    groupTraps_one k _ (by rw [hts]; exact List.cons_ne_nil _ _) trapsOf_cause
  have htv : (trapsOf k lanes tval).map (fun t => (t.lane, t.tval)) = (lanesOf lanes).map (fun l => (l, tval l)) :=
    List.map_map ..
  unfold takeTraps
  simp only [hw, oneEach_trapsOf]
  rw [hts]
  simp only [← hts, hin, hout, trapsOf_lanes, maskOf_lanesOf, hgroup, htv, bne_self_eq_false, Bool.false_eq_true, if_false,
    List.foldl_cons, List.foldl_nil]
  rfl

/-- Delivery of the only parked sub-wave where %handler is the default handler. -/
theorem deliver_ends {p : Parked} {tval : Nat → DWord} {t : Team} {l : Nat} (hnone : w.parkq = [])
    (hquiet : w.preempt = false) (hdefault : w.handler = defaultHandler s w) (ht : s.team? w.team = some t)
    (hsync : p.cause.getLsbD 13 = false) (hl : lowest p.lanes = some l) (hin : l ∈ lanesOf p.lanes)
    (hlen : l < w.threads.length) :
    deliver (s.mapWave u (fun v => parkLanes v p ((lanesOf p.lanes).map (fun l => (l, tval l))))) u =
      endTeam (s.mapWave u (fun v => parkLanes v p ((lanesOf p.lanes).map (fun l => (l, tval l))))) w.team
        ⟨p.cause, p.epc, tval l, t.x, t.y, t.z⟩ false := by
  have hfound := mapWave_found (F := fun v => parkLanes v p ((lanesOf p.lanes).map (fun l => (l, tval l)))) hw
    (fun v => parkLanes_uid v p _)
  have hparked := parkLanes_eq w p tval
  have htval := left_tval (tval := tval) hin hlen
  have hcode : defaultHandler (s.mapWave u (fun v => parkLanes v p ((lanesOf p.lanes).map (fun l => (l, tval l)))))
      (parkLanes w p ((lanesOf p.lanes).map (fun l => (l, tval l)))) = defaultHandler s w := by
    unfold defaultHandler State.code?
    rw [parkLanes_code]
    rfl
  unfold deliver
  simp only [hfound, preemptFree, parkLanes_preempt, hquiet, parkLanes_handling, hidle, parkLanes_parkq, hnone,
    List.nil_append, hsync, parkLanes_handler, hcode, hdefault, Bool.false_and, Bool.not_false, Bool.false_eq_true,
    if_false, and_self, if_true, hl]
  rw [hparked]
  unfold Wave.thread at htval ⊢
  simp only [left_team, htval]
  rw [show (s.mapWave u _).team? w.team = s.team? w.team from rfl, ht]

end

end Sys2Proof.Machine

namespace Sys2Proof.Proofs
open Sys2Proof.Machine

/-- Settles O27: ILLEGAL parks the group, and its delivery at the default handler ends the team. -/
theorem defaultHandlerEndsTeam : Obligations.DefaultHandlerEndsTeam := by
  unfold Obligations.DefaultHandlerEndsTeam
  intro x s i w g t A hidle hnone hquiet hs hout hdefault ht hlen
  obtain ⟨l, hl, hin⟩ := lowest_some A.lanes
  refine exec_illegalWord A.toIssues hs ?_ ((endTeam_bad ..).trans A.sound)
  exact (takeTraps_parks A.found hidle i.key.pc A.lanes hout).trans
    (deliver_ends (p := ⟨g, Cause.illegal.word, i.key.pc, false, false, false⟩) (tval := fun _ => x) A.found hidle hnone
      hquiet hdefault ht (show Cause.illegal.word.getLsbD 13 = false by decide) hl hin (hlen l hin))

end Sys2Proof.Proofs
end

