-- ==== Sys2Proof/Proofs/HandlerReturn.lean ====
section
/-!
PROOF. RTH of a sub-wave without a further cause (R181, R385): its threads go back to normal issue.
-/
namespace Sys2Proof.Machine

/-! ## What no lane does -/

theorem mapLanes_zero (v : Wave) (f : Nat → Thread → Thread) : v.mapLanes 0 f = v := by
  unfold Wave.mapLanes
  have hnone (l : Nat) : (0 : Mask).getLsbD l = false := BitVec.getLsbD_zero
  rw [mapIdx_self v.threads _ (fun l t => by rw [hnone, if_neg Bool.false_ne_true])]

theorem leaveJoins_zero (v : Wave) : v.leaveJoins 0 = v := by
  unfold Wave.leaveJoins
  refine List.foldlRecOn (motive := fun w : Wave => w = v) _ _ rfl (fun w ih j _ => ?_)
  have hnone (a : Mask) : (a &&& 0 != 0) = false := by rw [show a &&& 0 = 0 from BitVec.and_zero]; rfl
  simp only [hnone, Bool.and_false, Bool.false_eq_true, if_false]
  exact ih

theorem exitLanes_zero (v : Wave) : exitLanes v 0 = v := by
  unfold exitLanes
  rw [mapLanes_zero, leaveJoins_zero]

/-! ## The return (R55, R181) -/

/-- The lanes go back to normal issue, and what the entry set is 0. -/
def Wave.resumeIssue (v : Wave) (m : Mask) : Wave :=
  { v.mapLanes m (fun _ t => { t with wait := .none, lst := none }) with
    cause := 0, repeatB := 0, restore := false, entry := 0, epc := 0, handling := false, subw := 0, retm := 0 }

/-- A wave whose sub-wave has gone back to normal issue; threads whose PC the handler has changed have left their join
slots. -/
def Wave.backToIssue (v : Wave) : Wave := (v.leaveJoins (movedLanes v)).resumeIssue v.subw

theorem resumeIssue_thread_exited (v : Wave) (m : Mask) (l : Nat) :
    ((v.resumeIssue m).thread l).exited = (v.thread l).exited :=
  mapLanes_thread_keeps (f := fun _ t => { t with wait := .none, lst := none }) (·.exited) (fun _ _ => rfl) v m l

/-- Leaving the join slots and going back to normal issue keep what neither names. -/
theorem backToIssue_keeps {β : Type} (φ : Wave → β) (hjoins : ∀ v ts js, φ { v with threads := ts, joins := js } = φ v)
    (hissue : ∀ v m, φ (v.resumeIssue m) = φ v) (v : Wave) : φ v.backToIssue = φ v := by
  obtain ⟨ts, js, h⟩ := leaveJoins_keeps v (movedLanes v)
  exact (hissue _ _).trans ((congrArg φ h).trans (hjoins ..))

theorem backToIssue_uid (v : Wave) : v.backToIssue.uid = v.uid :=
  backToIssue_keeps (·.uid) (fun _ _ _ => rfl) (fun _ _ => rfl) v

theorem backToIssue_parkq (v : Wave) : v.backToIssue.parkq = v.parkq :=
  backToIssue_keeps (·.parkq) (fun _ _ _ => rfl) (fun _ _ => rfl) v

theorem backToIssue_preempt (v : Wave) : v.backToIssue.preempt = v.preempt :=
  backToIssue_keeps (·.preempt) (fun _ _ _ => rfl) (fun _ _ => rfl) v

theorem backToIssue_retired (v : Wave) : v.backToIssue.retired = v.retired :=
  backToIssue_keeps (·.retired) (fun _ _ _ => rfl) (fun _ _ => rfl) v

theorem backToIssue_handling (v : Wave) : v.backToIssue.handling = false := rfl

/-- The same threads are live. -/
theorem backToIssue_alive (v : Wave) : v.backToIssue.alive = v.alive := by
  have hex (l : Nat) : (v.backToIssue.thread l).exited = (v.thread l).exited :=
    (resumeIssue_thread_exited _ v.subw l).trans (leaveJoins_thread_keeps (·.exited) (fun _ _ _ => rfl) v _ l)
  have hwidth : v.backToIssue.width = v.width :=
    backToIssue_keeps (·.width) (fun _ _ _ => rfl) (fun _ _ => rfl) v
  unfold Wave.alive
  simp only [hex, hwidth]

theorem leaveJoins_subw (v : Wave) (m : Mask) : (v.leaveJoins m).subw = v.subw := by
  obtain ⟨_, _, h⟩ := leaveJoins_keeps v m
  rw [h]

/-- RTH of a sub-wave that RETM keeps whole, while nothing else waits: no pre-emption, no parked sub-wave, no cause recorded
in handler mode, and no entry of the operand log. -/
structure ReturnsClean (s : State) (w : Wave) : Prop where
  kept   : w.subw &&& ~~~ (w.retm &&& ~~~ restoredExited w) = 0
  none   : w.parkq = []
  quiet  : w.preempt = false
  entry  : w.entry.getLsbD 13 = false
  seen   : w.cause &&& ~~~ w.entry = 0
  once   : w.repeatB = 0
  alive  : w.alive ≠ 0
  unheld : ∀ e ∈ (s.quad w.qn).oplog, e.wave ≠ w.uid

/-- Without an entry that a test chooses, resuming changes no part of the log. -/
theorem resumeEntries_none {s : State} {qn : Nat} {which : OpEntry → Bool} (h : ∀ e ∈ (s.quad qn).oplog, which e = false) :
    resumeEntries s qn which = s.mapQuad qn id := by
  have hkeep : ∀ (es kept : List OpEntry), (∀ e ∈ es, which e = false) →
      es.foldl (fun (r : State × List OpEntry) e =>
        if which e then
          let (s, x) := resumeEntry r.1 e
          (s, r.2 ++ x.toList)
        else (r.1, r.2 ++ [e])) (s, kept) = (s, kept ++ es) := by
    intro es
    induction es with
    | nil => intro kept _; rw [List.append_nil]; rfl
    | cons e es ih =>
      intro kept h
      rw [List.foldl_cons, h e List.mem_cons_self]
      simp only [Bool.false_eq_true, if_false]
      rw [ih _ (fun x hx => h x (List.mem_cons_of_mem e hx)), List.append_assoc]
      rfl
  unfold resumeEntries
  simp only [hkeep _ [] h, List.nil_append]
  rfl

section
variable {s : State} {w : Wave} (hw : s.wave? w.uid = some w) (R : ReturnsClean s w)
include hw R

theorem returnHandler_returns : returnHandler s w.uid = s.mapWave w.uid Wave.backToIssue := by
  have hends : s.mapWave w.uid (fun v => { exitLanes v 0 with subw := (exitLanes v 0).subw &&& ~~~ 0 }) = s := by
    simp only [exitLanes_zero, and_not_zero]
    exact State.mapWave_id ..
  have hfound := mapWave_found (F := Wave.backToIssue) hw backToIssue_uid
  have hdeliver : deliver (s.mapWave w.uid Wave.backToIssue) w.uid = s.mapWave w.uid Wave.backToIssue := by
    unfold deliver
    simp only [hfound, preemptFree, backToIssue_preempt, backToIssue_parkq, backToIssue_handling, R.quiet, R.none,
      Bool.false_and, Bool.false_eq_true, if_false]
  have hlive : retireIfDone (s.mapWave w.uid Wave.backToIssue) w.uid = s.mapWave w.uid Wave.backToIssue := by
    unfold retireIfDone
    simp only [hfound, backToIssue_alive, beq_eq_false_iff_ne.2 R.alive, Bool.and_false, Bool.false_and,
      Bool.false_eq_true, if_false]
  have hgo : returnHandler s w.uid = retireIfDone (deliver (s.mapWave w.uid (fun v =>
      (v.leaveJoins (movedLanes v)).resumeIssue (v.leaveJoins (movedLanes v)).subw)) w.uid) w.uid := by
    unfold returnHandler
    simp only [hw, R.kept, hends, R.entry, R.seen, R.once, Bool.false_and, Bool.false_eq_true, if_false, BitVec.or_self,
      ne_eq, not_true_eq_false, false_and]
    rfl
  simp only [leaveJoins_subw] at hgo
  exact hgo.trans ((congrArg (retireIfDone · w.uid) hdeliver).trans hlive)

/-- Entries held for the sub-wave would be reissued; there are none (R185). -/
theorem returnNow_returns (hlive : w.retired = false) :
    OnlyWave s (returnNow s w.uid) w.uid Wave.backToIssue := by
  have hfound := mapWave_found (F := Wave.backToIssue) hw backToIssue_uid
  have hnone : ∀ e ∈ (s.quad w.qn).oplog, e.heldFor w.uid (w.subw &&& w.retm) = false := fun e he => by
    unfold OpEntry.heldFor
    rw [beq_eq_false_iff_ne.2 (R.unheld e he), Bool.false_and]
  have hgo : returnNow s w.uid = reissueFor (s.mapWave w.uid Wave.backToIssue) w.uid w.qn (w.subw &&& w.retm) := by
    unfold returnNow restoring
    simp only [hw, returnHandler_returns hw R, hfound, R.entry, backToIssue_retired, backToIssue_handling,
      hlive, Bool.false_and, Bool.false_eq_true, if_false]
  rw [hgo]
  unfold reissueFor
  rw [resumeEntries_none (s := s.mapWave w.uid Wave.backToIssue) hnone]
  refine ⟨rfl, fun n => ?_⟩
  have hlog : ((s.quad w.qn).oplog.map (fun e =>
      if e.heldFor w.uid (w.subw &&& w.retm) then { e with delivered := false } else e)) = (s.quad w.qn).oplog := by
    rw [List.map_congr_left (g := id) (fun e he => by rw [hnone e he]; rfl), List.map_id]
  rw [State.mapQuad_quad, State.mapQuad_quad, State.mapQuad_quad]
  by_cases h : n = w.qn
  · subst h
    simp only [if_true, id_eq]
    exact congrArg (fun l => { s.quad w.qn with oplog := l, second := none }) hlog
  · simp only [h, if_false]
    rfl

end

/-! ## RTH (R181, R398) -/

/-- RTH outside a restore needs no unit. -/
theorem reacquire_free {s : State} {w : Wave} (h : w.entry.getLsbD 13 = false) : reacquire s w = (s, true) := by
  unfold reacquire mustReacquire restoring
  simp only [h, Bool.false_and, Bool.not_false, if_true]

/-- RTH whose unit, if it needs one, is free is the return; no issuing thread moves on after it. -/
theorem rth_returns (f : Full) : SoloWord (.rth f) f.grd
    (fun s c => c.hm = true ∧ (reacquire s c.rd).2 = true ∧ (returnNow (reacquire s c.rd).1 c.u).bad = none)
    (fun s c => returnNow (reacquire s c.rd).1 c.u) (fun c => c.grp) := by
  refine soloWord_of (m := semRth f) (fun _ => rfl) (fun _ _ _ => rfl) (fun _ _ ⟨hm, _⟩ => hm) (fun _ _ _ => rfl)
    (fun _ _ _ => rfl) (fun _ _ _ => rfl) ?_ (fun _ _ ⟨_, _, hbad⟩ _ => hbad)
  rintro s c ⟨-, hfree, -⟩ - hw - -
  show rthBody s c = _
  unfold rthBody
  simp only [hw, hfree, if_true]

end Sys2Proof.Machine

namespace Sys2Proof.Proofs
open Sys2Proof.Machine

/-- Settles O40: RTH is the return, and where nothing else waits the return acts on the wave alone. -/
theorem handlerReturn : Obligations.HandlerReturn := by
  unfold Obligations.HandlerReturn
  intro f s i w g A hm h0 hkept hnone hquiet hentry hseen honce halive hunheld
  have R : ReturnsClean s w := ⟨hkept, hnone, hquiet, hentry, hseen, honce, halive, hunheld⟩
  have H : OnlyWave s (returnNow s w.uid) w.uid Wave.backToIssue := returnNow_returns A.found R A.live
  have hfree : reacquire s w = (s, true) := reacquire_free hentry
  have hexec : exec (.rth f) s = .next ((returnNow (reacquire s w).1 w.uid).mapWave w.uid
      (leaveWord i g g (fun _ => none))) :=
    rth_returns f s i w g A h0
      ⟨hm, congrArg Prod.snd hfree, by rw [show (soloCtx s i f.grd w g).rd = w from rfl, hfree]; exact H.bad.trans A.sound⟩
  rw [hfree, funext (leaveWord_all_stay i g _), State.mapWave_id] at hexec
  exact ⟨_, hexec, H⟩

end Sys2Proof.Proofs
end

