-- ==== Sys2Proof/Proofs/HandlerWords.lean ====
section
/-!
PROOF. The statement on HSET of OLOGD speaks of every full-form word, also of those whose selector is LPC or LST: these name a
register of each lane, where the statement reads one register for the wave.
-/
namespace Sys2Proof.Machine

/-! ## An OLOGD word with the selector LPC -/

namespace DropByLane

/-- HSET of OLOGD with the immediate 0x10 of LPC, from V12 of each lane. -/
def word : Full := ⟨.n32, .always, false, false, false, 0, 12, .imm 0x10 0⟩

/-- A wave in handler mode with two live threads; V12 of thread 1 is owed by a memory operation. -/
def wave : Wave :=
  { (State.fetchWave 3 2 1 4 0).mapThread 1 (fun t => { t with exited := false, pend := [(12, 9)] }) with
    handling := true, subw := 3, retm := 3 }

def issue : Issue :=
  { core := 0, quad := 0, num := 0, key := ⟨1, 0, .handler 3⟩, parts := [⟨3, 3⟩], word := 0, snap := [], raised := [],
    late := [], cut := none }

def state : State :=
  { State.reset with waves := [wave], teams := [State.fetchTeam 2 1], cur := some issue }

theorem alone : Alone state issue wave 3 where
  cur := rfl
  parts := rfl
  first := rfl
  late := rfl
  whole := rfl
  member := fun h => by cases h
  found := rfl
  live := rfl
  lanes := by decide
  steady := rfl
  firm := by decide
  sound := rfl
  mode := rfl

/-- The operand that the statement names: V12 of thread 0, for the wave. -/
def operand (s : State) (w : Wave) (l : Nat) : List Opnd := [opWave word (opA word · word.ety) s w l]

theorem opsReady : OpsReady word.grd (operand state) wave 3 where
  full := by decide
  sound := by decide
  tags := by decide
  named := by decide

/-- The PCs in handler mode of the two threads. -/
def handlerPcs (o : Out) : List Word := match o with
  | .next t => t.waves.flatMap (fun w => [(w.thread 0).hpc, (w.thread 1).hpc])
  | _ => []

/-- Thread 1 waits for its own V12, and only thread 0 goes on. -/
theorem handlerPcs_ologdDrop : handlerPcs (exec (.ologdDrop word) state) = [8, 0] := by decide +kernel

end DropByLane

end Sys2Proof.Machine

namespace Sys2Proof.Proofs
open Sys2Proof.Machine

/-- Refutes O39: its clause on OLOGD holds every full-form word to one operand of the wave, but a word with the selector LPC
reads a register of each lane. Of two threads the second waits for its own register and keeps its PC; by the statement both go
on. No word decodes so: the decoder gives OLOGD the selector 0x61 alone (R190). -/
theorem not_handlerResults : ¬ Obligations.HandlerResults := by
  unfold Obligations.HandlerResults
  intro h
  obtain ⟨-, -, -, -, -, -, hdrop, -⟩ := h DropByLane.word
  have hexec := hdrop DropByLane.state DropByLane.issue DropByLane.wave 3 DropByLane.alone DropByLane.opsReady (by decide)
    ⟨rfl, by decide +kernel⟩
  have both : DropByLane.handlerPcs (exec (.ologdDrop DropByLane.word) DropByLane.state) = [8, 8] := by
    rw [hexec]
    decide +kernel
  rw [DropByLane.handlerPcs_ologdDrop] at both
  exact absurd both (by decide)

end Sys2Proof.Proofs
end

