-- ==== Sys2Proof/Proofs/Scheduling.lean ====
section
/-!
PROOF. From launch to completion: queues and records (R202 to R207), placement and the argument copy (R209 to R215), FETCHW
(R217), saving (R193, R196), kills, the end of teams and launches (R218 to R220) and the watchdog (R222).
-/
namespace Sys2Proof.Machine

section
variable {s : State} {q k tu u : Nat} {t : Team} {l : Launch} {w : Wave}

/-! ## Queues and records (R202 to R207) -/

section
variable {tail : DWord} (hq : q < 64) (hboot : s.host.boot = .normal)
include hq hboot

/-- A tail between TAIL and the end of the queue becomes TAIL. -/
theorem launchDoorbell_accepts (hlo : qTail (qcb s q) ≤ tail.toNat)
    (hhi : tail.toNat ≤ qSeq (qcb s q) + qSlots (qcb s q)) :
    launchDoorbell q tail s = setQcb s q 128 64 tail.toNat := by
  have hin : ¬ (tail.toNat < qTail (qcb s q) ∨ qSeq (qcb s q) + qSlots (qcb s q) < tail.toNat) := by omega
  unfold launchDoorbell
  simp only [decide_eq_false (Nat.not_le.2 hq), hboot, bne_self_eq_false, Bool.or_self, Bool.false_eq_true, if_false,
    if_neg hin]

theorem launchDoorbell_refuses
    (hout : tail.toNat < qTail (qcb s q) ∨ qSeq (qcb s q) + qSlots (qcb s q) < tail.toNat) :
    launchDoorbell q tail s = setQcb s q 321 1 1 := by
  unfold launchDoorbell
  simp only [decide_eq_false (Nat.not_le.2 hq), hboot, bne_self_eq_false, Bool.or_self, Bool.false_eq_true, if_false,
    if_pos hout]

end

/-- The kernel descriptor that the record at HEAD names. -/
def headKdesc (s : State) (q : Nat) : Nat :=
  rn (BitVec.ofNat 1024 (devNat s (recAddr (qcb s q) (qHead (qcb s q))) 128)) 0 64

/-- The state once that descriptor, if there is one, has been read from its slice. -/
def kdescRead (s : State) (q : Nat) : State :=
  match kdescLoc s (qCtx (qcb s q)) (headKdesc s q) with
  | some p => useLoc s false (qCtx (qcb s q)) 0 0 (headKdesc s q) p.2
  | none => s

theorem launchRecordRead_reads (hq : q < 64) (hen : qEn (qcb s q) = true) (hmore : qHead (qcb s q) < qTail (qcb s q))
    (hin : recAddr (qcb s q) (qHead (qcb s q)) + 128 ≤ deviceBytes)
    (hawake : (kdescLoc s (qCtx (qcb s q)) (headKdesc s q)).any
      (fun p => sliceAsleep s (qCtx (qcb s q)) 0 0 (headKdesc s q) p.2) = false) :
    launchRecordRead q s =
      setQcb { kdescRead s q with
        launches := (kdescRead s q).launches ++ [readRecord s q (qcb s q) (qHead (qcb s q))] } q 64 64
        (qHead (qcb s q) + 1) := by
  unfold headKdesc at hawake
  unfold launchRecordRead
  simp only [decide_eq_false (Nat.not_le.2 hq), hen, decide_eq_false (Nat.not_le.2 hmore), Nat.not_lt.2 hin, hawake,
    Bool.not_true, Bool.or_self, Bool.false_eq_true, if_false]
  rfl

theorem launchStartable_starts (hl : s.launch? q k = some l) (hgood : l.reject = none) (hnew : l.startable = false)
    (hdeps : ∀ d ∈ l.deps, depHolds s d = true)
    (hfirst : ∀ o ∈ s.launches, o.q = q → o.k < k → o.total ≤ o.next) :
    launchStartable q k s = s.mapLaunch q k (fun l => { l with startable := true }) := by
  have hnone : s.launches.any (fun o => o.q == q && o.k < k && o.next < o.total) = false := by
    refine List.any_eq_false.2 (fun o ho h => ?_)
    simp only [Bool.and_eq_true, beq_iff_eq, decide_eq_true_eq] at h
    obtain ⟨⟨hoq, hok⟩, hnext⟩ := h
    exact Nat.not_le.2 hnext (hfirst o ho hoq hok)
  unfold launchStartable
  simp only [hl, hgood, hnew, List.all_eq_true.2 hdeps, hnone, Option.isSome_none, Bool.not_true, Bool.or_self,
    Bool.false_eq_true, if_false]

/-! ## Placement and the argument copy (R209 to R215) -/

/-- The served launch holds its priority until its team or gang is placed (R211). -/
theorem teamPlace_places {xs : List (Nat × Option Team)} {r : State} (hopen : s.host.noPlace = false)
    (hserved : served s = some l) (hnext : nextSet { s with stuck := fput s.stuck l.prio (l.q, l.k) } l = some xs)
    (hfits : placeSet { s with stuck := fput s.stuck l.prio (l.q, l.k) } l xs = some r) : teamPlace s = takeSet r l xs := by
  unfold teamPlace
  simp only [hopen, hserved, hnext, hfits, Bool.false_eq_true, if_false]

section
variable (ht : s.team? tu = some t)
include ht

section
variable (hphase : t.phase = .placing)
include hphase

theorem argCopyFault_ends {c : Cause} {a : Nat} (hnew : t.restored = false) (hl : s.launch? t.lq t.lk = some l)
    (hfault : argFault s t l.args l.arglen = some (c, a)) (hawake : argAsleep s t l.args l.arglen = false) :
    argCopyFault tu c s = endTeam s t.uid ⟨c.word, 0, BitVec.ofNat 64 a, t.x, t.y, t.z⟩ false := by
  unfold argCopyFault failPlacing
  simp only [ht, hphase, hnew, hl, hfault, hawake, bne_self_eq_false, Bool.or_self, Bool.false_eq_true, if_false,
    Bool.not_false, Bool.and_self, decide_true, if_true]

/-- The waves of a placed team enter; where PREEMPT was raised meanwhile, they go on to their save. -/
def teamStarts (tu : Nat) (t : Team) (r : State) : State :=
  (enterWaves r t).mapTeam tu (fun x =>
    { x with phase := if t.stays (enterWaves r t) then .running else .saving, saved := [] })

theorem argCopyDone_copies {bs : List Byte} (hnew : t.restored = false) (hl : s.launch? t.lq t.lk = some l)
    (hsound : argFault s t l.args l.arglen = none) (hawake : argAsleep s t l.args l.arglen = false)
    (hbs : argBytes (argUse s t l.args l.arglen) t l.args l.arglen = (bs, none)) :
    argCopyDone tu s =
      teamStarts tu t (writeAddrs (argUse s t l.args l.arglen) ((List.range bs.length).map t.spAddr) bs) := by
  unfold argCopyDone
  simp only [ht, hphase, hnew, hl, hsound, hawake, hbs, bne_self_eq_false, Bool.false_eq_true, if_false]
  rfl

/-- A restored team has its arguments already. -/
theorem argCopyDone_restored (hold : t.restored = true) : argCopyDone tu s = teamStarts tu t s := by
  unfold argCopyDone
  simp only [ht, hphase, hold, bne_self_eq_false, Bool.false_eq_true, if_false, if_true]
  rfl

end

/-! ## FETCHW (R217) -/

/-- The request has left the team's list. -/
def fetchTaken (s : State) (tu : Nat) (rest : List (Nat × Nat × Nat)) : State :=
  s.mapTeam tu (fun t => { t with fetchw := rest })

section
variable {o since : Nat} {rest : List (Nat × Nat × Nat)} (hfetch : t.fetchw = (o, u, since) :: rest)
  (hl : s.launch? t.lq t.lk = some l) (hidle : mailboxBusy s u since = false)
include hfetch hl hidle

/-- The next team's number goes into the mailbox, then the word that says so. -/
theorem fetchwAnswer_gives (hmore : l.next < l.total) (hlive : l.killed = false) :
    fetchwAnswer tu s = shareWrite (shareWrite ((fetchTaken s tu rest).mapLaunch l.q l.k (fun x =>
        { x with next := l.next + 1, gone := x.gone + 1, wd := false })) t o
      (leBytes 4 (l.next % l.gx % 2 ^ 32) ++ leBytes 4 (l.next / l.gx % l.gy % 2 ^ 32) ++
        leBytes 4 (l.next / (l.gx * l.gy) % 2 ^ 32))) t (o + 12) (leBytes 4 (1 % 2 ^ 32)) := by
  unfold fetchwAnswer
  simp only [ht, hfetch, hl, hidle, decide_eq_true hmore, hlive, Bool.not_false, Bool.and_self, Bool.false_eq_true,
    if_false, if_true]
  rfl

/-- Without a further team, or for a killed launch, the answer is 2. -/
theorem fetchwAnswer_ends (hend : l.total ≤ l.next ∨ l.killed = true) :
    fetchwAnswer tu s = shareWrite (fetchTaken s tu rest) t (o + 12) (leBytes 4 2) := by
  have hno : (l.next < l.total && !l.killed) = false := by
    obtain h | h := hend
    · rw [decide_eq_false (Nat.not_lt.2 h), Bool.false_and]
    · rw [h, Bool.not_true, Bool.and_false]
  unfold fetchwAnswer
  simp only [ht, hfetch, hl, hidle, hno, Bool.false_eq_true, if_false]
  rfl

end

end

/-! ## Saving (R193, R196) -/

section
variable (hw : s.wave? u = some w)
include hw

theorem preemptDeliver_stops {r : State} (hstep : stepFour s w = some r) : preemptDeliver u s = r := by
  unfold preemptDeliver
  simp only [hw, hstep]

/-- Once every earlier step of the save is done, the whole wave enters the default handler. -/
theorem preemptDeliver_delivers (hstep : stepFour s w = none) (hready : saveReady s w = true) :
    preemptDeliver u s = deliver ((mxSuspend (s.mapWave u unpark) u).mapWave u (fun w =>
      parkLanes { w with preempt := false } ⟨w.alive, Cause.preempt.word, 0, false, true, false⟩ [])) u := by
  unfold preemptDeliver
  simp only [hw, hstep, hready, Bool.not_true, Bool.false_eq_true, if_false]

end

/-! ## Kills (R179, R196, R220) -/

/-- KILL without an escalation marks the resident waves of the teams. -/
theorem killTeams_marks (p : Team → Bool) :
    killTeams s p false = { s with waves := s.waves.map (fun w =>
      if !w.retired && ((s.teams.filter p).map (·.uid)).contains w.team then { w with kill := true } else w) } := by
  unfold killTeams
  simp only [Bool.or_false]

theorem killRecord_plain (t : Team) : killRecord t false = ⟨Cause.kill.word, 0, 0, t.x, t.y, t.z⟩ := by
  unfold killRecord
  rw [if_neg Bool.false_ne_true]
  rfl

theorem killRecord_escalated (t : Team) :
    killRecord t true = ⟨Cause.kill.word ||| Cause.uncorr.word, 0, 0, t.x, t.y, t.z⟩ := rfl

section
variable (hl : s.launch? q k = some l)
include hl

theorem launchKill_kills : launchKill q k s = killLaunch false s l := by
  unfold launchKill
  simp only [hl]

/-- A launch that was rejected is not killed. -/
theorem launchKill_rejected (h : l.reject ≠ none) : launchKill q k s = s := by
  rw [launchKill_kills hl]
  unfold killLaunch
  rw [if_pos (Option.isSome_iff_ne_none.2 h)]

end

section
variable (ht : s.team? tu = some t)
include ht

/-- A team of which some resident wave has its KILL ends; the record tells an escalation. -/
theorem killDeliver_ends (hw : w ∈ s.waves) (hteam : w.team = tu) (hkill : w.kill = true) (hlive : w.retired = false)
    {esc : Bool} (hesc : (s.waves.filter (fun w => w.team == tu && w.kill && !w.retired)).any (·.killEsc) = esc) :
    killDeliver tu s = endTeam s tu (killRecord t esc) true := by
  have hsome : (s.waves.filter (fun w => w.team == tu && w.kill && !w.retired)).isEmpty = false := by
    rw [List.isEmpty_eq_false_iff]
    exact List.ne_nil_of_mem (List.mem_filter.2 ⟨hw, by rw [hteam, hkill, hlive, beq_self_eq_true]; rfl⟩)
  unfold killDeliver
  simp only [ht, hsome, hesc, Bool.false_eq_true, if_false]

/-! ## The end of teams and launches (R63, R171, R218 to R220) -/

/-- A team that has ended and not been saved leaves its cores. -/
theorem teamRetire_retires (hdone : teamDone s t = true) (hgone : teamSaved s t = false) :
    teamRetire tu s = (freeTeam s t).mapLaunch t.lq t.lk (fun l => { l with
      owed := l.owed ++ (t.cores.map (fun c => ((s.core c).egress.filter (fun e =>
        s.waves.any (fun w => w.uid == e.wave && w.team == t.uid))).map (·.id))).flatten
      gone := l.gone + 1, wd := false }) := by
  unfold teamRetire
  simp only [ht, hdone, hgone, Bool.not_true, Bool.not_false, Bool.false_eq_true, if_false, if_true]

end

/-- A launch without a fault record that asks for an interrupt: its status, its queue's sequence and the interrupt. -/
theorem launchComplete_signals (hl : firstLaunch s q = some l) (hover : l.over s = true) (hsound : l.record = none)
    (hirq : l.irq = true) :
    launchComplete q s =
      (let r := agentWrite s (recAddr (qcb s q) l.k + 120) 8 l.status
       let r := setQcb r q 192 64 (qSeq (qcb r q) + 1)
       { r with
         host := { r.host with irqs := r.host.irqs ++ [(l.q, l.k)] }
         launches := r.launches.filter (fun o => !(o.q == l.q && o.k == l.k)) }) := by
  unfold launchComplete
  simp only [hl, hover, hsound, hirq, Bool.not_true, Bool.false_eq_true, if_false, if_true]

/-! ## The watchdog (R222) -/

theorem watchdogExpire_reports (hl : s.launch? q k = some l) (hnew : l.wd = false) (hon : qWdog (qcb s q) ≠ 0)
    (hruns : ∃ t ∈ s.teams, t.lq = q ∧ t.lk = k) :
    watchdogExpire q k s =
      (let r := (setQcb s q 320 1 1).mapLaunch q k (fun l => { l with wd := true })
       { r with host := { r.host with errIrqs := r.host.errIrqs + 1 } }) := by
  have hany : s.teams.any (fun t => t.lq == q && t.lk == k) = true := by
    obtain ⟨t, ht, hq, hk⟩ := hruns
    exact List.any_eq_true.2 ⟨t, ht, by rw [hq, hk, beq_self_eq_true, beq_self_eq_true]; rfl⟩
  unfold watchdogExpire
  simp only [hl, hnew, decide_eq_false hon, hany, Bool.not_true, Bool.or_self, Bool.false_eq_true, if_false]

end

end Sys2Proof.Machine

namespace Sys2Proof.Proofs
open Sys2Proof.Machine

/-- Settles O52: each step is a function of the state, and the rules above say to what it comes. -/
theorem scheduleEvents : Obligations.ScheduleEvents := by
  unfold Obligations.ScheduleEvents
  intro q k tu u tail t l w team launch host
  refine ⟨?_, ?_, ?_, ?_, fun xs f => ?_, fun bs => ?_, ?_, fun c a => ?_, fun o since rest => ⟨?_, ?_⟩, ?_, fun r => ?_, ?_,
    ?_, ?_, ?_, ?_, ?_, ?_, ?_⟩
  · exact happens_of (launchDoorbell q tail) (fun _ => rfl)
      (fun s ⟨⟨hq, hboot⟩, hlo, hhi⟩ => launchDoorbell_accepts hq hboot hlo hhi)
  · exact happens_of (launchDoorbell q tail) (fun _ => rfl)
      (fun s ⟨⟨hq, hboot⟩, hout⟩ => launchDoorbell_refuses hq hboot hout)
  · exact happens_of (launchRecordRead q) (fun _ => rfl)
      (fun s ⟨hq, hen, hmore, hin, hawake⟩ => launchRecordRead_reads hq hen hmore hin hawake)
  · exact happens_of (launchStartable q k) (fun _ => rfl)
      (fun s ⟨hl, hgood, hnew, hdeps, hfirst⟩ => launchStartable_starts hl hgood hnew hdeps hfirst)
  · exact happens_of teamPlace (fun _ => rfl)
      (fun s ⟨hopen, hserved, hnext, hfits⟩ => teamPlace_places hopen hserved hnext hfits)
  · exact happens_of (argCopyDone tu) (fun _ => rfl)
      (fun s ⟨ht, hphase, hnew, hl, hsound, hawake, hbs⟩ => argCopyDone_copies ht hphase hnew hl hsound hawake hbs)
  · exact happens_of (argCopyDone tu) (fun _ => rfl) (fun s ⟨ht, hphase, hold⟩ => argCopyDone_restored ht hphase hold)
  · exact happens_of (argCopyFault tu c) (fun _ => rfl)
      (fun s ⟨ht, hphase, hnew, hl, hfault, hawake⟩ => argCopyFault_ends ht hphase hnew hl hfault hawake)
  · exact happens_of (fetchwAnswer tu) (fun _ => rfl)
      (fun s ⟨⟨ht, hfetch, hl, hidle⟩, hmore, hlive⟩ => fetchwAnswer_gives ht hfetch hl hidle hmore hlive)
  · exact happens_of (fetchwAnswer tu) (fun _ => rfl)
      (fun s ⟨⟨ht, hfetch, hl, hidle⟩, hend⟩ => fetchwAnswer_ends ht hfetch hl hidle hend)
  · exact happens_of (preemptDeliver u) (fun _ => rfl)
      (fun s ⟨hw, hstep, hready⟩ => preemptDeliver_delivers hw hstep hready)
  · exact happens_of (preemptDeliver u) (fun _ => rfl) (fun s ⟨hw, hstep⟩ => preemptDeliver_stops hw hstep)
  · exact happens_of (saveTimeoutKill tu) (fun _ => rfl) (fun s _ => killTeams_marks _)
  · exact happens_of (launchKill q k) (fun _ => rfl) (fun s ⟨hl, _⟩ => launchKill_kills hl)
  · exact happens_of (launchKill q k) (fun _ => rfl) (fun s ⟨hl, h⟩ => launchKill_rejected hl h)
  · refine happens_of (killDeliver tu) (fun _ => rfl) ?_
    rintro s ⟨ht, hw, hteam, hkill, hlive, hesc⟩
    rw [← killRecord_plain]
    exact killDeliver_ends ht hw hteam hkill hlive
      (List.any_eq_false.2 (fun v hv => by rw [hesc v (List.mem_filter.1 hv).1]; exact Bool.false_ne_true))
  · refine happens_of (killDeliver tu) (fun _ => rfl) ?_
    rintro s ⟨ht, hw, hteam, hkill, hlive, hesc⟩
    rw [← killRecord_escalated]
    exact killDeliver_ends ht hw hteam hkill hlive
      (List.any_eq_true.2 ⟨w, List.mem_filter.2 ⟨hw, by rw [hteam, hkill, hlive, beq_self_eq_true]; rfl⟩, hesc⟩)
  · exact happens_of (teamRetire tu) (fun _ => rfl) (fun s ⟨ht, hdone, hgone⟩ => teamRetire_retires ht hdone hgone)
  · exact happens_of (launchComplete q) (fun _ => rfl)
      (fun s ⟨hl, hover, hsound, hirq⟩ => launchComplete_signals hl hover hsound hirq)
  · exact happens_of (watchdogExpire q k) (fun _ => rfl)
      (fun s ⟨hl, hnew, hon, hruns⟩ => watchdogExpire_reports hl hnew hon hruns)

end Sys2Proof.Proofs
end

