-- ==== Sys2Proof/Proofs/Encoding.lean ====
section
/-!
PROOF. Decoding and encoding are inverse (R224 to R252): the fields of a word join to the word, the fields of an encoded
instruction are those of the instruction, and the opcode map names each instruction by its own OPC.
-/
namespace Sys2Proof

/-! ## Slices of a word -/

/-- A bit is a slice of one bit. -/
theorem ofBool_bit {n : Nat} (x : BitVec n) (k : Nat) : BitVec.ofBool (x.getLsbD k) = x.extractLsb' k 1 := by
  refine BitVec.eq_of_getLsbD_eq (fun j hj => ?_)
  obtain rfl : j = 0 := by omega
  simp

/-- Equal words are equal in their `v` high bits and in the `w` bits below. -/
theorem append_inj (v w : Nat) {x x' : BitVec v} {y y' : BitVec w} (h : x ++ y = x' ++ y') : x = x' ∧ y = y' := by
  constructor
  · rw [← BitVec.extractLsb'_append_eq_left (a := x) (b := y), h, BitVec.extractLsb'_append_eq_left]
  · rw [← BitVec.extractLsb'_append_eq_right (a := x) (b := y), h, BitVec.extractLsb'_append_eq_right]

/-! ## Codes of types and of half operations (R78, R237, R239) -/

theorem Ety.ofCode_code (t : Ety) : Ety.ofCode t.code = some t := by cases t <;> rfl

theorem Ety.code_of_ofCode {c : BitVec 4} {t : Ety} (h : Ety.ofCode c = some t) : t.code = c := by
  have all : ∀ c : BitVec 4, ∀ t ∈ Ety.ofCode c, t.code = c := by decide
  exact all c t h

theorem Et2.ofCode_code (t : Et2) : Et2.ofCode t.code = t := by cases t <;> rfl

theorem Et2.code_ofCode : ∀ c : BitVec 2, (Et2.ofCode c).code = c := by decide

theorem HalfOp.ofCode_code (o : HalfOp) : HalfOp.ofCode o.code = some o := by cases o <;> rfl

theorem HalfOp.code_of_ofCode {c : BitVec 7} {o : HalfOp} (h : HalfOp.ofCode c = some o) : o.code = c := by
  have all : ∀ c : BitVec 7, ∀ o ∈ HalfOp.ofCode c, o.code = c := by decide
  exact all c o h

/-! ## Fields of a full-form word (R225, R226) -/

theorem src_bits_of_word (w : DWord) (t : Ety) : (fullFields w t).src.bits = w.extractLsb' 0 19 := by
  unfold fullFields
  cases w.getLsbD 41 with
  | false => exact BitVec.extractLsb'_append_extractLsb'_eq_extractLsb' (len₁ := 8) (len₂ := 11) rfl
  | true => exact BitVec.extractLsb'_append_extractLsb'_eq_extractLsb' (len₁ := 3) (len₂ := 16) rfl

theorem imm_of_word (w : DWord) (t : Ety) : (fullFields w t).imm? = w.getLsbD 41 := by
  unfold Full.imm? fullFields
  cases w.getLsbD 41 <;> rfl

/-- FORM, OPC and the fields of a full-form word join to the word. -/
theorem full_slices (w : DWord) (t : Ety) :
    w.extractLsb' 62 2 ++ (w.extractLsb' 53 9 ++ (w.extractLsb' 49 4 ++ (BitVec.ofBool (w.getLsbD 48) ++
      (w.extractLsb' 45 3 ++ (BitVec.ofBool (w.getLsbD 44) ++ (BitVec.ofBool (w.getLsbD 43) ++
        (BitVec.ofBool (w.getLsbD 42) ++ (BitVec.ofBool (fullFields w t).imm? ++ (w.extractLsb' 30 11 ++
          (w.extractLsb' 19 11 ++ (fullFields w t).src.bits)))))))))) = w := by
  simp only [imm_of_word, src_bits_of_word, ofBool_bit, BitVec.extractLsb'_append_extractLsb'_eq_extractLsb']
  exact BitVec.extractLsb'_eq_self

/-- A full-form word is what its fields encode. -/
theorem encode_fullFields {w : DWord} {t : Ety} (hform : w.extractLsb' 62 2 = 0)
    (ht : Ety.ofCode (w.extractLsb' 49 4) = some t) : (fullFields w t).encode (w.extractLsb' 53 9) = w := by
  refine Eq.trans ?_ (full_slices w t)
  rw [hform, ← Ety.code_of_ofCode ht]
  rfl

/-- Two sources are equal where their form and their bits are. -/
theorem src_inj {x y : Src} (hi : x.isImm = y.isImm) (hb : x.bits = y.bits) : x = y := by
  cases x <;> cases y
  case reg.reg =>
    obtain ⟨rfl, rfl⟩ := append_inj 11 8 hb
    rfl
  case imm.imm =>
    obtain ⟨rfl, rfl⟩ := append_inj 16 3 hb
    rfl
  all_goals cases hi

/-- The fields of an encoded full-form word are those that it encodes. -/
theorem fields_of_encode {opc : BitVec 9} {f : Full} {w : DWord} (h : f.encode opc = w) :
    w.extractLsb' 62 2 = 0 ∧ w.extractLsb' 53 9 = opc ∧ w.extractLsb' 49 4 = f.ety.code ∧ fullFields w f.ety = f := by
  have h := (full_slices w f.ety).trans h.symm
  obtain ⟨hform, h⟩ := append_inj 2 62 h
  obtain ⟨hopc, h⟩ := append_inj 9 53 h
  obtain ⟨hety, h⟩ := append_inj 4 49 h
  obtain ⟨hneg, h⟩ := append_inj 1 48 h
  obtain ⟨hp, h⟩ := append_inj 3 45 h
  obtain ⟨hfemD, h⟩ := append_inj 1 44 h
  obtain ⟨hfemA, h⟩ := append_inj 1 43 h
  obtain ⟨hfemB, h⟩ := append_inj 1 42 h
  obtain ⟨himm, h⟩ := append_inj 1 41 h
  obtain ⟨hdst, h⟩ := append_inj 11 30 h
  obtain ⟨hsa, hsrc⟩ := append_inj 11 19 h
  rw [BitVec.ofBool_eq_iff_eq] at hneg hfemD hfemA hfemB himm
  refine ⟨hform, hopc, hety, ?_⟩
  have hsrc : (fullFields w f.ety).src = f.src := src_inj himm hsrc
  obtain ⟨ety, ⟨neg, p⟩, femD, femA, femB, dst, sa, src⟩ := f
  simp only [fullFields, Full.mk.injEq, Guard.mk.injEq, true_and] at hsrc ⊢
  exact ⟨⟨hneg, hp⟩, hfemD, hfemA, hfemB, hdst, hsa, hsrc⟩

/-! ## Fields of a pair-form word (R237) -/

/-- OPH and the fields of a half join to the half. -/
theorem half_slices (b : BitVec 31) :
    b.extractLsb' 24 7 ++ (b.extractLsb' 22 2 ++ (b.extractLsb' 20 2 ++ (b.extractLsb' 12 8 ++
      (b.extractLsb' 4 8 ++ b.extractLsb' 0 4)))) = b := by
  simp only [BitVec.extractLsb'_append_extractLsb'_eq_extractLsb']
  exact BitVec.extractLsb'_eq_self

theorem encode_halfFields {b : BitVec 31} {o : HalfOp} (ho : HalfOp.ofCode (b.extractLsb' 24 7) = some o) :
    (HalfWord.mk o (halfFields b)).encode = b := by
  refine Eq.trans ?_ (half_slices b)
  unfold HalfWord.encode
  rw [HalfOp.code_of_ofCode ho]
  unfold halfFields
  rw [Et2.code_ofCode]

theorem fields_of_half {x : HalfWord} {b : BitVec 31} (h : x.encode = b) :
    HalfOp.ofCode (b.extractLsb' 24 7) = some x.op ∧ halfFields b = x.h := by
  have h := (half_slices b).trans h.symm
  obtain ⟨hop, h⟩ := append_inj 7 24 h
  obtain ⟨het2, h⟩ := append_inj 2 22 h
  obtain ⟨hgd2, h⟩ := append_inj 2 20 h
  obtain ⟨hdst, h⟩ := append_inj 8 12 h
  obtain ⟨hsrc, hmd4⟩ := append_inj 8 4 h
  unfold halfFields
  rw [hop, het2, hgd2, hdst, hsrc, hmd4, HalfOp.ofCode_code, Et2.ofCode_code]
  exact ⟨rfl, rfl⟩

/-- FORM and the two halves join to the word. -/
theorem pair_slices (w : DWord) : w.extractLsb' 62 2 ++ (w.extractLsb' 31 31 ++ w.extractLsb' 0 31) = w := by
  simp only [BitVec.extractLsb'_append_extractLsb'_eq_extractLsb']
  exact BitVec.extractLsb'_eq_self

/-! ## The opcode map (R239, R243 to R251) -/

/-- The opcode map names an instruction by its own OPC: its class, its place there, and where several instructions share
it, I or the modifier. -/
theorem spec_of_opcInstr {opc : BitVec 9} {f : Full} {i : Instr} (h : opcInstr opc f = some i) :
    ∃ sp, i.spec = some (f, sp) ∧ sp.opc = opc := by
  unfold opcInstr at h
  generalize hn : opc.toNat = n at h
  -- the class of the OPC, then its place in the class
  split at h <;>
  · delta opcInt opcFloat opcMove opcControl opcMemory opcTile opcMatrix opcSystem at h
    split at h <;> cases h <;>
    · repeat' split
      all_goals exact ⟨_, rfl, BitVec.eq_of_toNat_eq hn.symm⟩

/-- The OPC of a well-formed full-form instruction names it, with I and the modifier where several share the OPC. -/
theorem opcInstr_of_spec {i : Instr} {f : Full} {sp : Spec} (hs : i.spec = some (f, sp)) (hi : i.wellFormed = true) :
    opcInstr sp.opc f = some i := by
  cases i with
  | xget => exact (Laws.OpcMap.xget hi).1 _ _ hs
  | xgetP => exact (Laws.OpcMap.xgetP hi).1 _ _ hs
  | atomsReg => exact (Laws.OpcMap.atomsReg hi).1 _ _ hs
  | atomsImm => exact (Laws.OpcMap.atomsImm hi).1 _ _ hs
  | regpinPin => exact (Laws.OpcMap.regpinPin hi).1 _ _ hs
  | regpinUnpin => exact (Laws.OpcMap.regpinUnpin hi).1 _ _ hs
  | regpinClear => exact (Laws.OpcMap.regpinClear hi).1 _ _ hs
  | waitlReg => exact (Laws.OpcMap.waitlReg hi).1 _ _ hs
  | waitlImm => exact (Laws.OpcMap.waitlImm hi).1 _ _ hs
  | waitcReg => exact (Laws.OpcMap.waitcReg hi).1 _ _ hs
  | waitcImm => exact (Laws.OpcMap.waitcImm hi).1 _ _ hs
  | waitqReg => exact (Laws.OpcMap.waitqReg hi).1 _ _ hs
  | waitqImm => exact (Laws.OpcMap.waitqImm hi).1 _ _ hs
  | mxgoImm => exact (Laws.OpcMap.mxgoImm hi).1 _ _ hs
  | mxgoReg => exact (Laws.OpcMap.mxgoReg hi).1 _ _ hs
  | barImm => exact (Laws.OpcMap.barImm hi).1 _ _ hs
  | barReg => exact (Laws.OpcMap.barReg hi).1 _ _ hs
  | fetchwImm => exact (Laws.OpcMap.fetchwImm hi).1 _ _ hs
  | fetchwReg => exact (Laws.OpcMap.fetchwReg hi).1 _ _ hs
  | hset => exact (Laws.OpcMap.hset hi).1 _ _ hs
  | ologdDrop => exact (Laws.OpcMap.ologdDrop hi).1 _ _ hs
  -- an OPC that one instruction has for itself; a pair or a device step has none
  | _ =>
    cases hs <;>
    · dsimp only
      unfold opcInstr
      rfl

theorem halfInstr_spec (o : HalfOp) (h : Half) (m : HalfWord) : (halfInstr o h m).spec = none := by cases o <;> rfl

theorem halfInstr_pair (o : HalfOp) (h : Half) (m : HalfWord) : (halfInstr o h m).pair = some (⟨o, h⟩, m) := by
  cases o <;> rfl

theorem halfInstr_of_pair {i : Instr} {a b : HalfWord} (hp : i.pair = some (a, b)) : halfInstr a.op a.h b = i := by
  cases i <;> cases hp <;> rfl

/-! ## The decoder by FORM (R224, R252) -/

section
variable {w : DWord} {i : Instr}

theorem checked_eq_ok {j : Instr} : checked j = .ok i ↔ j = i ∧ i.wellFormed = true := by
  unfold checked
  by_cases hj : j.wellFormed = true
  · rw [if_pos hj, Except.ok.injEq]
    exact ⟨fun e => ⟨e, e ▸ hj⟩, And.left⟩
  · rw [if_neg hj]
    exact ⟨fun e => (nomatch e), fun ⟨e, h⟩ => absurd (e ▸ h) hj⟩

theorem decodeFull_eq_ok : decodeFull w = .ok i ↔ ∃ t, Ety.ofCode (w.extractLsb' 49 4) = some t ∧
    opcInstr (w.extractLsb' 53 9) (fullFields w t) = some i ∧ i.wellFormed = true := by
  unfold decodeFull
  cases Ety.ofCode (w.extractLsb' 49 4) with
  | none => simp
  | some t =>
    cases h : opcInstr (w.extractLsb' 53 9) (fullFields w t) with
    | none => simp [h]
    | some j => simp [h, checked_eq_ok]

theorem decodePair_eq_ok : decodePair w = .ok i ↔ ∃ a b,
    HalfOp.ofCode ((w.extractLsb' 31 31).extractLsb' 24 7) = some a ∧
    HalfOp.ofCode ((w.extractLsb' 0 31).extractLsb' 24 7) = some b ∧
    halfInstr a (halfFields (w.extractLsb' 31 31)) ⟨b, halfFields (w.extractLsb' 0 31)⟩ = i ∧ i.wellFormed = true := by
  unfold decodePair
  dsimp only
  cases HalfOp.ofCode ((w.extractLsb' 31 31).extractLsb' 24 7) with
  | none => simp
  | some a =>
    cases HalfOp.ofCode ((w.extractLsb' 0 31).extractLsb' 24 7) with
    | none => simp
    | some b => simp [checked_eq_ok]

theorem decode_full (h : w.extractLsb' 62 2 = 0) : decode w = decodeFull w := by
  unfold decode
  rw [h]
  rfl

theorem decode_pair (h : w.extractLsb' 62 2 = 1) : decode w = decodePair w := by
  unfold decode
  rw [h]
  rfl

/-- Bit 63 is the high bit of FORM. -/
theorem form_high (w : DWord) : w.getLsbD 63 = (w.extractLsb' 62 2).getLsbD 1 := by simp

theorem decode_noForm (h : w.getLsbD 63 = true) : decode w = .error .form := by
  have none : ∀ x : BitVec 2, x.getLsbD 1 = true → x = 2 ∨ x = 3 := by decide
  rw [form_high] at h
  unfold decode
  obtain hx | hx := none _ h <;>
  · rw [hx]
    rfl

theorem form_cases (w : DWord) : w.extractLsb' 62 2 = 0 ∨ w.extractLsb' 62 2 = 1 ∨ w.getLsbD 63 = true := by
  have all : ∀ x : BitVec 2, x = 0 ∨ x = 1 ∨ x.getLsbD 1 = true := by decide
  rw [form_high]
  exact all _

/-- Only words of FORM 00 and 01 decode, by the decoder of their form. -/
theorem decode_eq_ok : decode w = .ok i ↔
    (w.extractLsb' 62 2 = 0 ∧ decodeFull w = .ok i) ∨ (w.extractLsb' 62 2 = 1 ∧ decodePair w = .ok i) := by
  obtain h | h | h := form_cases w
  · simp [h, decode_full h]
  · simp [h, decode_pair h]
  · constructor
    · rw [decode_noForm h]
      intro e
      cases e
    · rw [form_high] at h
      rintro (⟨e, -⟩ | ⟨e, -⟩) <;>
      · rw [e] at h
        cases h

/-! ## Decoding and encoding -/

/-- The word of two halves (R237). -/
def pairWord (a b : HalfWord) : DWord := (1 : BitVec 2) ++ (a.encode ++ b.encode)

theorem encode_eq_some : encode i = some w ↔ (∃ f sp, i.spec = some (f, sp) ∧ f.encode sp.opc = w) ∨
    (i.spec = none ∧ ∃ a b, i.pair = some (a, b) ∧ pairWord a b = w) := by
  unfold encode pairWord
  cases i.spec with
  | some x =>
    constructor
    · intro h
      exact .inl ⟨x.1, x.2, rfl, Option.some.inj h⟩
    · rintro (⟨f, sp, hs, hw⟩ | ⟨hn, -⟩)
      · cases hs
        exact congrArg some hw
      · cases hn
  | none =>
    cases i.pair with
    | some x =>
      constructor
      · intro h
        exact .inr ⟨rfl, x.1, x.2, rfl, Option.some.inj h⟩
      · rintro (⟨f, sp, hs, -⟩ | ⟨-, a, b, hp, hw⟩)
        · cases hs
        · cases hp
          exact congrArg some hw
    | none =>
      constructor
      · intro h
        cases h
      · rintro (⟨f, sp, hs, -⟩ | ⟨-, a, b, hp, -⟩)
        · cases hs
        · cases hp

/-- The full-form words are those of the well-formed full-form instructions. -/
theorem full_decodes_iff : (w.extractLsb' 62 2 = 0 ∧ decodeFull w = .ok i) ↔
    i.wellFormed = true ∧ ∃ f sp, i.spec = some (f, sp) ∧ f.encode sp.opc = w := by
  rw [decodeFull_eq_ok]
  constructor
  · rintro ⟨hform, t, ht, hi, hwf⟩
    obtain ⟨sp, hs, hopc⟩ := spec_of_opcInstr hi
    exact ⟨hwf, _, sp, hs, by rw [hopc, encode_fullFields hform ht]⟩
  · rintro ⟨hwf, f, sp, hs, hw⟩
    obtain ⟨hform, hopc, hety, hf⟩ := fields_of_encode hw
    refine ⟨hform, f.ety, ?_, ?_, hwf⟩
    · rw [hety, Ety.ofCode_code]
    · rw [hopc, hf, opcInstr_of_spec hs hwf]

/-- The pair words are those of the well-formed pairs. -/
theorem pair_decodes_iff : (w.extractLsb' 62 2 = 1 ∧ decodePair w = .ok i) ↔
    i.wellFormed = true ∧ i.spec = none ∧ ∃ a b, i.pair = some (a, b) ∧ pairWord a b = w := by
  rw [decodePair_eq_ok]
  constructor
  · rintro ⟨hform, a, b, ha, hb, rfl, hwf⟩
    refine ⟨hwf, halfInstr_spec .., _, _, halfInstr_pair .., ?_⟩
    unfold pairWord
    rw [encode_halfFields ha, encode_halfFields hb, ← hform]
    exact pair_slices w
  · rintro ⟨hwf, -, a, b, hp, hw⟩
    obtain ⟨hform, h⟩ := append_inj 2 62 ((pair_slices w).trans hw.symm)
    obtain ⟨ha, hb⟩ := append_inj 31 31 h
    obtain ⟨haop, hah⟩ := fields_of_half ha.symm
    obtain ⟨hbop, hbh⟩ := fields_of_half hb.symm
    refine ⟨hform, a.op, b.op, haop, hbop, ?_, hwf⟩
    rw [hah, hbh]
    exact halfInstr_of_pair hp

end

end Sys2Proof

namespace Sys2Proof.Proofs
open Sys2Proof.Machine

/-- Settles O58: the words of each form are those of its well-formed instructions, and a word of no form raises the ILLEGAL
of every word that is no instruction. -/
theorem roundTrip : Obligations.RoundTrip := by
  unfold Obligations.RoundTrip
  refine ⟨fun i w => ?_, fun i w h => ?_, fun w h => decode_noForm h, fun s i u g A C _ => ?_⟩
  · rw [decode_eq_ok, full_decodes_iff, pair_decodes_iff, ← and_or_left, encode_eq_some]
  · obtain hw | hw := decode_eq_ok.1 h
    · obtain ⟨-, f, sp, hs, -⟩ := full_decodes_iff.1 hw
      exact .inl ⟨hw.1, by rw [hs]; rfl⟩
    · obtain ⟨-, -, a, b, hp, -⟩ := pair_decodes_iff.1 hw
      exact .inr ⟨hw.1, by rw [hp]; rfl⟩
  · exact ((illegalEntry s i u g i.word A.toIssues C.single).1 A.mode C).1

/-- Settles O60: the decoder runs on each word. -/
theorem decodeWords : Obligations.DecodeWords := by
  unfold Obligations.DecodeWords
  exact ⟨rfl, rfl, rfl, rfl, rfl, rfl, rfl, rfl, rfl, rfl, rfl, rfl, rfl, rfl, rfl, rfl⟩

end Sys2Proof.Proofs
end

