-- ==== Sys2Proof/Proofs/Lanes.lean ====
section
/-!
PROOF. Words that work lane by lane without a cause: moves between V, X and special registers, pair words, and a word in
whose issue group no lane is Active (R229, R237 to R242, R312 to R315, R318).
-/
namespace Sys2Proof.Machine

/-! ## A word with no Active lane (R229) -/

section
variable {m : Sem} {s : State} {i : Issue} {w : Wave} {g : Mask}

/-- Without an Active lane the window serves no source. -/
theorem countHits_inactive (h0 : m.active w g = 0) : countHits m s w g = s := by
  unfold countHits
  rw [h0]
  rfl

/-- Without an Active lane only what concerns the whole word can stand in its way. -/
theorem clear_inactive (h0 : m.active w g = 0) (hlegal : m.legal s w i.hm = true) (hhold : m.hold s w 0 = false)
    (hfmt : m.formats s w g 0 = []) : Clear m s i w g where
  legal := hlegal
  forbid _ _ := h0
  hold := by rw [h0]; exact hhold
  tile := .inl h0
  full := by rw [h0, lanesOf_zero]; exact fun _ hl => absurd hl List.not_mem_nil
  sound := by rw [h0, lanesOf_zero]; exact fun _ hl => absurd hl List.not_mem_nil
  tags := by rw [h0, hfmt]; exact firstFormat_nil

/-- A word that nothing holds up and that has no Active lane moves its threads on. -/
theorem issueFull_inactive (I : Issues s i w g) (C : Clear m s i w g) (h0 : m.active w g = 0) :
    issueFull m s = s.mapWave w.uid (leaveWord i g 0 (fun _ => none)) := by
  rw [issueFull_clear I C, countHits_inactive h0, h0, beq_self_eq_true, if_pos rfl,
    settleShare_done i m w.uid w g { st := s } I.late rfl rfl (fun _ _ hp => absurd hp List.not_mem_nil), raiseFlags_nil]
  rfl

end

/-! ## Words that work lane by lane and raise no cause (R282) -/

/-- The law of a word that is permitted everywhere, that nothing holds up, and that raises no cause in a lane. -/
theorem laneWord_plain {ins : Instr} {m : Sem} {f : Full} {ops : Wave → Nat → List Opnd}
    {o : Ctx → Nat → Thread → LaneOut} {out : State → Ctx → Nat → LaneOut} (hsem : semOf ins = some m)
    (hm : m = { Sem.plain f with ops := fun _ => ops, wsrc := m.wsrc, body := lanewise o })
    (htrap : ∀ c l x, (o c l x).trap = none) (hout : ∀ s c l, out s c l = o c l (c.rd.thread l)) :
    LaneWord ins f.grd ops (fun _ => True) out := by
  obtain rfl : out = fun _ c l => o c l (c.rd.thread l) :=
    funext fun s => funext fun c => funext fun l => hout s c l
  have hex := exec_of_semOf hsem
  rw [hm] at hex
  exact laneWord_of (o := fun _ => o) hex (fun _ _ _ => rfl) (fun _ _ => rfl) (fun _ _ _ _ _ _ _ => rfl)
    (fun _ _ _ => rfl) (fun _ => rfl) (fun _ _ _ => rfl) (fun _ _ _ => rfl) (fun _ _ _ => rfl)
    (fun _ c _ l _ => htrap c l _)

/-! ## Special registers (R241, R242) -/

/-- What issues beside a word of a quadrant leaves the quadrant's cycle count. -/
theorem OnlyWaves.cyc {s t : State} {F : Wave → Wave} (h : OnlyWaves s t F) (n : Nat) : (t.quad n).cyc = (s.quad n).cyc := by
  have hn := congrArg Quad.cyc (h.2 n)
  exact hn

/-- A lane reads a special register of its wave as the cycle began. -/
theorem OnlyWaves.readSpecial {s t : State} {F : Wave → Wave} (h : OnlyWaves s t F) (c : Ctx) (l n : Nat) :
    readSpecial t c l n = readSpecial s c l n := by
  unfold Machine.readSpecial
  simp only [h.cyc]

/-! ## SETX, TAG and WMOV by their forms (R314, R315, R318) -/

theorem semSetx_reads {f : Full} (h : f.lo3 % 4 = 2) :
    semSetx f = { alu f (fun l => [.dst l f.dn 1]) (fun _ _ t =>
      .val f.dn .s32 (reduce .s32 false (sext16 (t.xreg f.an)))) with wsrc := [xSoft f.an] } := if_pos h

theorem semSetx_sets {f : Full} (h : f.lo3 % 4 ≠ 2) :
    semSetx f = { alu f (fun l => if f.imm? then [] else [opA f l .s32]) (fun _ _ t =>
      let v := if f.imm? then sext16 f.imm16 else intOf .s32 (f.valA t .s32)
      let old := if f.lo3 % 4 = 1 then sext16 (t.xreg f.dn) else 0
      { xw := [(f.dn, reduce16 (f.md.getLsbD 2) (old + v))] }) with
      wsrc := if f.lo3 % 4 = 1 then [xSoft f.dn] else [] } := if_neg h

theorem semTag_reads {f : Full} (h : f.lo3 ≠ 0) :
    semTag f = alu f (fun l => [.dst l f.dn 1, .src l 1 f.an 1 f.femA none]) (fun c _ _ =>
      .val f.dn .n32 (c.rd.tag f.an).code.toNat) := if_neg h

theorem semWmov_ops_D {f : Full} (h : f.lo3 % 4 = 0) (s : State) (w : Wave) (l : Nat) :
    (semWmov f).ops s w l = [opD f l] := by
  unfold semWmov
  simp only [h]

/-- WMOV out of the wave gives every Active lane the register. -/
theorem semWmov_body_D {f : Full} (h : f.lo3 % 4 = 0) (s : State) (c : Ctx) :
    (semWmov f).body s c =
      lanewise (fun c _ _ => .val f.dn f.ety (readWQ (f.md.getLsbD 2) c.rd f.an).toNat) s c := if_pos h

/-! ## Pair words (R237 to R240) -/

/-- A half writes its result where its own guard holds. -/
theorem halfOut_eq (x : HalfOps) (w : Wave) (t : Thread) :
    x.out w t =
      if x.grd.holds t then
        let r := x.result w (t.reg x.d).toNat (if x.h.imm? then imm8Value x.h.et2 x.h.src else (t.reg x.src).toNat)
        { vw := [(x.d, [BitVec.ofNat 32 r.1],
            if x.op = .mov ∧ x.h.et2 = .bits ∧ x.h.imm? = false then w.tag x.src else x.ety)], flags := r.2 }
      else {} := by
  unfold HalfOps.out
  cases x.grd.holds t with
  | false => rfl
  | true => simp only [Bool.not_true, Bool.false_eq_true, if_false, if_true, Bool.and_eq_true, beq_iff_eq,
      Bool.not_eq_true', and_assoc]

/-- Both halves of a pair word act side by side in a lane. -/
def pairOut (a b : HalfWord) (c : Ctx) (l : Nat) : LaneOut :=
  let p := (HalfOps.of a 0).out c.rd (c.rd.thread l)
  let q := (HalfOps.of b 1).out c.rd (c.rd.thread l)
  { vw := p.vw ++ q.vw, flags := p.flags ||| q.flags }

/-- Whatever the operation of its first half, a pair word is its two halves. -/
theorem exec_halfInstr (op : HalfOp) (h : Half) (b : HalfWord) (s : State) :
    exec (halfInstr op h b) s = execX (semPair ⟨op, h⟩ b) s := by
  cases op <;> rfl

/-- The law of a pair word. -/
theorem pairWord_of {ins : Instr} {a b : HalfWord} {out : Ctx → Nat → LaneOut}
    (hex : ∀ s, exec ins s = execX (semPair a b) s) (hout : ∀ c l, out c l = pairOut a b c l) :
    PairWord ins (fun _ l => (HalfOps.of a 0).ops l ++ (HalfOps.of b 1).ops l) out := by
  obtain rfl : out = pairOut a b := funext fun c => funext fun l => hout c l
  exact laneCourse_of (m := semPair a b) (o := fun _ c l _ => pairOut a b c l) hex (fun _ _ _ => rfl) (fun _ _ => rfl)
    (fun _ _ _ _ _ _ _ => rfl) (fun _ _ _ => rfl) (fun _ => rfl) (fun _ _ _ => rfl) (fun _ _ _ => rfl) (fun _ _ _ => rfl)
    (fun _ _ _ _ _ => rfl) (fun _ _ _ h => absurd h Bool.false_ne_true)

end Sys2Proof.Machine

namespace Sys2Proof.Proofs
open Sys2Proof.Machine

/-- Settles O24: without an Active lane nothing but its threads' PCs is left to change. -/
theorem noActiveLane : Obligations.NoActiveLane := by
  unfold Obligations.NoActiveLane
  intro ins m s i w g hsem I h0 hlegal hhold hfmt
  exact exec_next hsem (issueFull_inactive I (clear_inactive h0 hlegal hhold hfmt) h0) I.sound

/-- Settles O10: each word is permitted everywhere but the `.q` form of WMOV, and what it reads in a lane does not change
while the other shares of its group issue. -/
theorem moveResults : Obligations.MoveResults := by
  unfold Obligations.MoveResults
  intro f kept name odd
  refine ⟨?_, ?_, ?_, ?_, fun h => ?_, fun h => ?_, ?_, fun h => ?_, fun h => ?_⟩
  · exact alu_word (fun _ => rfl) (fun _ _ _ => rfl) (fun _ _ _ _ => rfl)
  · exact alu_word (fun _ => rfl) (fun _ _ _ => rfl) (fun _ _ _ _ => rfl)
  · exact laneWord_plain (m := semMovx f) rfl rfl (fun _ _ _ => rfl) (fun _ _ _ => rfl)
  · exact laneWord_plain (m := semMovxw f) rfl rfl (fun _ _ _ => rfl) (fun _ _ _ => rfl)
  · exact laneWord_plain (congrArg some (semSetx_reads h)) rfl (fun _ _ _ => rfl) (fun _ _ _ => rfl)
  · exact laneWord_plain (congrArg some (semSetx_sets h)) rfl (fun _ _ _ => rfl) (fun _ _ _ => rfl)
  · exact laneWord_of (m := semGets f) (o := fun s c l _ => .val f.dn f.ety (readSpecial s c l f.imm16.toNat))
      (fun _ => rfl) (fun _ _ _ => rfl) (fun _ _ => rfl) (fun _ _ _ c l _ O => by rw [O.readSpecial]) (fun _ _ _ => rfl)
      (fun _ => rfl) (fun _ _ _ => rfl) (fun _ _ _ => rfl) (fun _ _ _ => rfl) (fun _ _ _ _ _ => rfl)
  · exact laneWord_plain (congrArg some (semTag_reads h)) rfl (fun _ _ _ => rfl) (fun _ _ _ => rfl)
  · exact laneWord_of (m := semWmov f) (fun _ => rfl) (semWmov_ops_D h) (semWmov_body_D h) (fun _ _ _ _ _ _ _ => rfl)
      (fun s c hq => wmov_legal (fun hf => hq.resolve_left (by rw [hf]; exact Bool.noConfusion)) s c.rd) (fun _ => rfl)
      (fun _ _ _ => rfl) (fun _ _ _ => rfl) (fun _ _ _ => rfl) (fun _ _ _ _ _ => rfl)

/-- Settles O34: the first half's result is that of its operation, and the second half stands beside it. -/
theorem pairResults : Obligations.PairResults := by
  unfold Obligations.PairResults
  intro h m t d n word int bits float s
  have first {ins : Half → HalfWord → Instr} {op : HalfOp} {val : Wave → Nat → Nat → Nat × FFlags}
      (hins : ins h m = halfInstr op h m) (hval : ∀ w a b, val w a b = (HalfOps.of ⟨op, h⟩ 0).result w a b) :
      word ins op val := by
    refine pairWord_of (fun s => (congrArg (exec · s) hins).trans (exec_halfInstr op h m s)) (fun c l => ?_)
    unfold pairOut
    rw [halfOut_eq]
    simp only [hval]
    rfl
  clear_value word
  and_intros <;> exact first rfl (fun _ _ _ => rfl)

end Sys2Proof.Proofs
end

