-- ==== Sys2Proof/Proofs/Arithmetic.lean ====
section
/-!
PROOF. Integer, float and complex arithmetic, conversion, comparison, selection, votes and lane exchange (R286 to R310):
every such word has one of a few operand shapes and works lane by lane without a cause.
-/
namespace Sys2Proof.Machine

/-! ## One law for each operand shape (R281, R282) -/

section
variable {ins : Instr} {f : Full}

/-- Elements of a and b as integers. -/
theorem intBin_word {op : Int → Int → Int} (hex : ∀ s, exec ins s = execX (intBin f op) s) :
    LaneWord ins f.grd (shapeBin f) (fun _ => True) (fun _ c l => .val f.dn f.ety (intPairs f op (c.rd.thread l))) :=
  alu_word hex (fun _ _ _ => rfl) (fun _ _ _ _ => rfl)

/-- Elements of a as integers. -/
theorem intUn_word {op : Int → Int} (hex : ∀ s, exec ins s = execX (intUn f op) s) :
    LaneWord ins f.grd (shapeUn f) (fun _ => True) (fun _ c l => .val f.dn f.ety (intSingles f op (c.rd.thread l))) :=
  alu_word hex (fun _ _ _ => rfl) (fun _ _ _ _ => rfl)

/-- Elements of a as bit strings. -/
theorem natUn_word {op : Nat → Nat} (hex : ∀ s, exec ins s = execX (natUn f op) s) :
    LaneWord ins f.grd (shapeUn f) (fun _ => True) (fun _ c l => .val f.dn f.ety (bitSingles f op (c.rd.thread l))) :=
  alu_word hex (fun _ _ _ => rfl) (fun _ _ _ _ => rfl)

/-- The whole values of a and b. -/
theorem bitBin_word {op : Nat → Nat → Nat} (hex : ∀ s, exec ins s = execX (bitBin f op) s) :
    LaneWord ins f.grd (shapeBin f) (fun _ => True) (fun _ c l =>
      .val f.dn f.ety (op (f.valA (c.rd.thread l) f.ety) (f.valB (c.rd.thread l) f.ety))) :=
  alu_word hex (fun _ _ _ => rfl) (fun _ _ _ _ => rfl)

/-- The whole value of a and a count. -/
theorem shiftBin_word {op : Nat → Nat → Nat} (hex : ∀ s, exec ins s = execX (shiftBin f op) s) :
    LaneWord ins f.grd (shapeBinB f .n32) (fun _ => True) (fun _ c l =>
      .val f.dn f.ety (op (f.valA (c.rd.thread l) f.ety) (f.valB (c.rd.thread l) .n32 % f.ety.width))) :=
  alu_word hex (fun _ _ _ => rfl) (fun _ _ _ _ => rfl)

/-- Elements of a and b as floats. -/
theorem floatBin_word {op : Rnd → Nat → Nat → Nat × FFlags} (hex : ∀ s, exec ins s = execX (floatBin f op) s) :
    LaneWord ins f.grd (shapeBin f) (fun _ => True) (fun _ c l =>
      .fval f.dn f.ety (fBinVal f (op (rndOf f c)) (c.rd.thread l))) :=
  alu_word hex (fun _ _ _ => rfl) (fun _ _ _ _ => rfl)

/-- Elements of a as floats. -/
theorem floatUn_word {op : Rnd → Nat → Nat × FFlags} (hex : ∀ s, exec ins s = execX (floatUn f op) s) :
    LaneWord ins f.grd (shapeUn f) (fun _ => True) (fun _ c l =>
      .fval f.dn f.ety (fUnVal f (op (rndOf f c)) (c.rd.thread l))) :=
  alu_word hex (fun _ _ _ => rfl) (fun _ _ _ _ => rfl)

/-- Elements of a, b and d as floats. -/
theorem floatAcc_word {op : Rnd → Nat → Nat → Nat → Nat × FFlags} (hex : ∀ s, exec ins s = execX (floatAcc f op) s) :
    LaneWord ins f.grd (shapeAcc f) (fun _ => True) (fun _ c l =>
      .fval f.dn f.ety (joinElems f.ety (List.zipWith (fun p d => op (rndOf f c) p.1 p.2 d)
        ((elemsOf f.ety (f.valA (c.rd.thread l) f.ety)).zip (elemsOf f.ety (f.valB (c.rd.thread l) f.ety)))
        (elemsOf f.ety (f.valD (c.rd.thread l)))))) :=
  alu_word hex (fun _ _ _ => rfl) (fun _ _ _ _ => rfl)

end

/-! ## Counts (R287) -/

/-- POPC counts the set bits. -/
theorem popcount_eq (w a : Nat) : popcount w a = ((List.range w).filter a.testBit).length := by
  unfold popcount bitsUp
  rw [List.countP_map, List.countP_eq_length_filter]
  rfl

/-! ## Predicates (R306) -/

theorem semPmov_reads {f : Full} (h : f.lo3 = 0) :
    semPmov f = { alu f (fun l => [.dst l f.dn 1]) (fun _ _ t => .val f.dn .n32 (t.pred f.an).toNat) with
      wsrc := [pSoft f.an] } := if_pos h

theorem semPmov_sets {f : Full} (h : f.lo3 ≠ 0) :
    semPmov f = alu f (fun l => [opA f l .bits]) (fun _ _ t => { pw := [(f.dn, t.reg f.an != 0)] }) := if_neg h

/-! ## Lane exchange (R308 to R310) -/

/-- The operands of an exchange: the partner's a once the index is known, and before that its name and tag alone. -/
def exchangeOps (f : Full) (extra : Nat → List Opnd) (from_ : Wave → Nat → Nat) (w : Wave) (l : Nat) : List Opnd :=
  [opD f l, if (extra l).any (fun o => !(o.empties w).isEmpty) then { opA f l f.ety with part := true, rd := false }
    else { opA f (from_ w l) f.ety with part := true }] ++ extra l

theorem exchange_ops (f : Full) (extra : Nat → List Opnd) (from_ : Wave → Nat → Nat) :
    (exchange f extra from_).ops = fun _ => exchangeOps f extra from_ := by
  funext _ w l
  unfold exchange exchangeOps
  dsimp only
  cases (extra l).any (fun o => !(o.empties w).isEmpty) <;> rfl

/-- The law of an exchange. -/
theorem exchange_word {ins : Instr} {f : Full} {extra : Nat → List Opnd} {from_ : Wave → Nat → Nat}
    (hsem : semOf ins = some (exchange f extra from_)) :
    LaneWord ins f.grd (exchangeOps f extra from_) (fun _ => True)
      (fun _ c l => .val f.dn f.ety (f.valA (c.rd.thread (from_ c.rd l)) f.ety)) := by
  refine laneWord_plain (o := fun c l _ => .val f.dn f.ety (f.valA (c.rd.thread (from_ c.rd l)) f.ety)) hsem ?_
    (fun _ _ _ => rfl) (fun _ _ _ => rfl)
  rw [← exchange_ops]
  rfl

end Sys2Proof.Machine

namespace Sys2Proof.Proofs
open Sys2Proof.Machine

/-- Settles O1: each word has one of the integer shapes, with its operation on the elements or on the whole values. -/
theorem integerResults : Obligations.IntegerResults := by
  unfold Obligations.IntegerResults
  intro f ints bits single n
  have elements {ins : Full → Instr} {op : Int → Int → Int} (hex : ∀ s, exec (ins f) s = execX (intBin f op) s) : ints ins op :=
    intBin_word hex
  have bitwise {ins : Full → Instr} {op : Nat → Nat → Nat} (hex : ∀ s, exec (ins f) s = execX (bitBin f op) s) : bits ins op :=
    bitBin_word hex
  have unary {ins : Full → Instr} {op : Nat → Nat} (hex : ∀ s, exec (ins f) s = execX (natUn f op) s) : single ins op :=
    natUn_word hex
  clear_value ints bits single
  refine ⟨?_, ?_, ?_, ?_, ?_, ?_, ?_, ?_, ?_, ?_, ?_, ?_, ?_, ?_, ?_, ?_, ?_, ?_⟩
  -- IADD, ISUB, IMUL, IMULH, IMIN, IMAX
  iterate 6 exact elements (fun _ => rfl)
  -- AND, OR, XOR, ANDN
  iterate 4 exact bitwise (fun _ => rfl)
  -- IMAD
  · exact alu_word (fun _ => rfl) (fun _ _ _ => rfl) (fun _ _ _ _ => rfl)
  -- IABS, INEG
  iterate 2 exact intUn_word (fun _ => rfl)
  -- NOT
  · exact unary (fun _ => rfl)
  -- POPC
  · refine unary (fun s => congrArg (fun op => execX (natUn f op) s) ?_)
    exact funext (popcount_eq f.ety.width)
  -- CLZ, CTZ, BREV
  iterate 3 exact unary (fun _ => rfl)

/-- Settles O3: each word has a shift shape. -/
theorem shiftResults : Obligations.ShiftResults := by
  unfold Obligations.ShiftResults
  intro f n shift
  have shifts {ins : Full → Instr} {op : Nat → Nat → Nat} (hex : ∀ s, exec (ins f) s = execX (shiftBin f op) s) : shift ins op :=
    shiftBin_word hex
  clear_value shift
  refine ⟨?_, ?_, ?_, ?_, ?_⟩
  -- SHL, SHR, SAR, ROT
  iterate 4 exact shifts (fun _ => rfl)
  -- FSHF
  · exact alu_word (fun _ => rfl) (fun _ _ _ => rfl) (fun _ _ _ _ => rfl)

/-- Settles O4: each word works lane by lane on its operands and raises no cause. -/
theorem fieldResults : Obligations.FieldResults := by
  unfold Obligations.FieldResults
  intro f n
  refine ⟨?_, ?_, ?_, ?_, ?_⟩
  -- BFX, BFI, LEA, IDOT4, BPICK
  iterate 5 exact alu_word (fun _ => rfl) (fun _ _ _ => rfl) (fun _ _ _ _ => rfl)

/-- Settles O5: each word has one of the float shapes, or like FSCL, FCLS and FDOT2 one of its own. -/
theorem floatResults : Obligations.FloatResults := by
  unfold Obligations.FloatResults
  intro f bin un acc m
  have binary {ins : Full → Instr} {op : Rnd → Nat → Nat → Nat × FFlags}
      (hex : ∀ s, exec (ins f) s = execX (floatBin f op) s) : bin ins op := floatBin_word hex
  have unary {ins : Full → Instr} {op : Rnd → Nat → Nat × FFlags}
      (hex : ∀ s, exec (ins f) s = execX (floatUn f op) s) : un ins op := floatUn_word hex
  have accumulating {ins : Full → Instr} {op : Rnd → Nat → Nat → Nat → Nat × FFlags}
      (hex : ∀ s, exec (ins f) s = execX (floatAcc f op) s) : acc ins op := floatAcc_word hex
  clear_value bin un acc
  refine ⟨?_, ?_, ?_, ?_, ?_, ?_, ?_, ?_, ?_, ?_, ?_, ?_, ?_⟩
  -- FADD, FSUB, FMUL
  iterate 3 exact binary (fun _ => rfl)
  -- FMA, FNMA
  iterate 2 exact accumulating (fun _ => rfl)
  -- FMIN, FMAX
  iterate 2 exact binary (fun _ => rfl)
  -- FABS, FNEG, FRND
  iterate 3 exact unary (fun _ => rfl)
  -- FSCL, FCLS, FDOT2
  iterate 3 exact alu_word (fun _ => rfl) (fun _ _ _ => rfl) (fun _ _ _ _ => rfl)

/-- Settles O6: each word works lane by lane; its conjugate flags are those of the model. -/
theorem complexResults : Obligations.ComplexResults := by
  unfold Obligations.ComplexResults
  intro f a b
  refine ⟨?_, ?_, ?_⟩
  -- CMUL, CFMA, CCONJ
  iterate 3 exact alu_word (fun _ => rfl) (fun _ _ _ => rfl) (fun _ _ _ _ => rfl)

/-- Settles O7: each word works lane by lane on its operands and raises no cause. -/
theorem conversionResults : Obligations.ConversionResults := by
  unfold Obligations.ConversionResults
  intro f sty one
  refine ⟨?_, ?_, ?_, ?_⟩
  -- CVT, SRND, PACK, UNPK
  iterate 4 exact alu_word (fun _ => rfl) (fun _ _ _ => rfl) (fun _ _ _ _ => rfl)

/-- Settles O8: each word works lane by lane; those that read predicates also name them to the soft-error check (R64),
which finds none. -/
theorem predicateResults : Obligations.PredicateResults := by
  unfold Obligations.PredicateResults
  intro f m ab cmp
  refine ⟨?_, ?_, ?_, ?_, fun h => ?_, fun h => ?_, ?_⟩
  -- ICMP, FCMP
  · exact alu_word (fun _ => rfl) (fun _ _ _ => rfl) (fun _ _ _ _ => rfl)
  · exact alu_word (fun _ => rfl) (fun _ _ _ => rfl) (fun _ _ _ _ => rfl)
  -- SEL, PLOG
  · exact laneWord_plain (m := semSel f) rfl rfl (fun _ _ _ => rfl) (fun _ _ _ => rfl)
  · exact laneWord_plain (m := semPlog f) rfl rfl (fun _ _ _ => rfl) (fun _ _ _ => rfl)
  -- PMOV
  · exact laneWord_plain (congrArg some (semPmov_reads h)) rfl (fun _ _ _ => rfl) (fun _ _ _ => rfl)
  · exact laneWord_plain (congrArg some (semPmov_sets h)) rfl (fun _ _ _ => rfl) (fun _ _ _ => rfl)
  -- VOTE
  · refine laneWord_plain (m := semVote f) rfl rfl (fun c l x => ?_) (fun _ _ _ => rfl)
    dsimp only
    split <;> rfl

/-- Settles O9: each word is an exchange with its own partners. -/
theorem exchangeResults : Obligations.ExchangeResults := by
  unfold Obligations.ExchangeResults
  intro f take
  refine ⟨?_, ?_, ?_⟩
  -- LXB, LXS, LXBC
  · exact exchange_word (from_ := lxbFrom f) rfl
  · exact exchange_word (from_ := lxsFrom f) rfl
  · exact exchange_word (from_ := lxbcFrom f) rfl

end Sys2Proof.Proofs
end

