-- ==== Sys2Proof/Proofs/Branches.lean ====
section
/-!
PROOF. Branches, calls, returns and LOOPW (R320, R321), and BREAK, which TRAP and BRK raise after the word (R323).
-/
namespace Sys2Proof.Machine

/-! ## Some lanes of a mask -/

/-- The lanes of a mask that meet `p`, as a mask and back. -/
theorem lanesOf_maskOf_filter (m : Mask) (p : Nat → Bool) :
    lanesOf (maskOf ((lanesOf m).filter p)) = (lanesOf m).filter p := by
  have hlt : ∀ l ∈ (lanesOf m).filter p, l < 64 := fun l hl => by
    obtain ⟨hm, -⟩ := List.mem_filter.1 hl
    exact BitVec.lt_of_getLsbD ((mem_lanesOf m l).1 hm)
  have hbit : ∀ l, (maskOf ((lanesOf m).filter p)).getLsbD l = (p l && m.getLsbD l) := fun l => by
    rw [maskOf_bit _ hlt, Bool.eq_iff_iff, decide_eq_true_iff, List.mem_filter, mem_lanesOf, Bool.and_eq_true, and_comm]
  show (List.range 64).filter _ = ((List.range 64).filter _).filter p
  rw [List.filter_filter]
  exact List.filter_congr (fun l _ => hbit l)

/-- An Active lane is an issuing lane. -/
theorem issuing_of_active {grd : Guard} {w : Wave} {g : Mask} {l : Nat} (h : l ∈ lanesOf (activeLanes grd w g)) :
    l ∈ lanesOf g := by
  unfold activeLanes at h
  rw [lanesOf_maskOf_filter] at h
  exact (List.mem_filter.1 h).1

/-! ## Targets (R320, R321) -/

/-- A computed target that is a multiple of 8 is taken. -/
theorem jumpTo_aligned {a : Word} (h : a.toNat % 8 = 0) : jumpTo a = { go := some a } := if_pos h

/-- A word that jumps to the target in register a of each lane, where all targets are aligned. -/
theorem jump_word {ins : Instr} {f : Full}
    (hex : ∀ s, exec ins s = execX (alu f (fun l => [opA f l .n32]) (fun _ _ t => jumpTo (t.reg f.an))) s) :
    LaneWord ins f.grd (fun _ l => [opA f l .n32]) (fun c => ∀ l ∈ c.lanes, ((c.rd.thread l).reg f.an).toNat % 8 = 0)
      (fun _ c l => { go := some ((c.rd.thread l).reg f.an) }) := by
  have law := alu_word (out := fun _ c l => jumpTo ((c.rd.thread l).reg f.an)) hex (fun _ _ _ => rfl)
    (fun c (hok : ∀ l ∈ c.lanes, ((c.rd.thread l).reg f.an).toNat % 8 = 0) l hl => by rw [jumpTo_aligned (hok l hl)])
  exact law.congr (fun _ _ hok l hl => jumpTo_aligned (hok l hl))

/-- LOOPW at 1 falls to 0 and goes on. -/
theorem semLoopw_last {f : Full} {c : Ctx} (h : c.rd.wreg f.dn = 1) (s : State) :
    (semLoopw f).body s c = { st := s.mapWave c.u (·.setW f.dn 0) } := by
  unfold semLoopw
  simp only [h, show (1 : Word) - 1 = 0 from rfl, if_true]

/-- LOOPW at another value falls by 1 and sends its Active lanes to the target. -/
theorem semLoopw_again {f : Full} {c : Ctx} (h : c.rd.wreg f.dn ≠ 1) (s : State) :
    (semLoopw f).body s c = {
      st := s.mapWave c.u (·.setW f.dn (c.rd.wreg f.dn - 1))
      go := c.lanes.map (fun l => (l, relTarget c.pc f.imm16)) } := by
  have hne : c.rd.wreg f.dn - 1 ≠ 0 := fun e => h (by bv_omega)
  unfold semLoopw
  simp only [hne, if_false]

/-- Where one target is named for some lanes, these go there and the others to the next word. -/
theorem nextPc_target (i : Issue) (act : Mask) (target : Word) (l : Nat) :
    nextPc i ((lanesOf act).map (fun l => (l, target))) l =
      (if act.getLsbD l then some target else none).getD (pcNext i.key.pc) := by
  have h := nextPc_lanes i (fun _ => some target) l (lanesOf act)
  simp only [Option.map_some, List.filterMap_eq_map', Option.getD_some, mem_lanesOf] at h
  rw [h]
  split <;> rfl

/-! ## The words of BREAK (R227, R323) -/

/-- A field of no operand is zero. -/
theorem Cls.none_ok {x : BitVec 11} (h : Cls.none.ok x = true) : x = 0 := beq_iff_eq.1 h

/-- A well-formed word of the immediate form without operands and modifier holds its immediate alone. -/
theorem ok_immediate {f : Full} {sp : Spec} (hform : sp.form = .imm) (hdst : sp.dst = .none) (hsa : sp.sa = .none)
    (hmd : sp.md = noMod f) (h : sp.ok f = true) : f.imm? = true ∧ f.dst = 0 ∧ f.sa = 0 ∧ f.lo3 = 0 := by
  obtain ⟨himm, -, hmod⟩ := Laws.OpcMap.ok_form h
  rw [hmd] at hmod
  have hzero : f.md = 0 := beq_iff_eq.1 hmod
  unfold Spec.ok at h
  simp only [Bool.and_eq_true, hdst, hsa] at h
  obtain ⟨⟨⟨⟨⟨⟨⟨-, hd⟩, ha⟩, -⟩, -⟩, -⟩, -⟩, -⟩ := h
  refine ⟨himm hform, Cls.none_ok hd, Cls.none_ok ha, ?_⟩
  unfold Full.lo3
  rw [hzero]
  rfl

/-- What is well formed has passed the checks of its description. -/
theorem ok_of_wellFormed {ins : Instr} {f : Full} {sp : Spec} (hs : ins.spec = some (f, sp)) (h : ins.wellFormed = true) :
    sp.ok f = true := by
  unfold Instr.wellFormed at h
  rwa [hs] at h

/-- The word of a full-form instruction holds its OPC. -/
theorem encode_opc {ins : Instr} {f : Full} {sp : Spec} {w : DWord} (hs : ins.spec = some (f, sp))
    (h : encode ins = some w) : w.extractLsb' 53 9 = sp.opc := by
  obtain ⟨g, sq, hs', hw⟩ | ⟨hn, -⟩ := encode_eq_some.1 h
  · obtain ⟨rfl, rfl⟩ := Prod.mk.inj (Option.some.inj (hs.symm.trans hs'))
    obtain ⟨-, hopc, -, -⟩ := fields_of_encode hw
    exact hopc
  · rw [hs] at hn
    cases hn

/-! ## BREAK (R174, R180, R323) -/

/-- The immediate, with bit 16 for TRAP. -/
def breakTval (f : Full) (trap : Bool) : DWord := BitVec.ofNat 64 (f.imm16.toNat + (if trap then 2 ^ 16 else 0))

/-- A word that is BREAK of its Active lanes. -/
theorem break_word {ins : Instr} {f : Full} {trap : Bool} {tval : DWord}
    (hex : ∀ s, exec ins s = execX { Sem.plain f with body := breakBody f trap } s) (htv : breakTval f trap = tval) :
    TrapWord ins f.grd (fun _ => shapeNone) (fun _ _ => True) .break (fun c => c.act) (fun _ _ _ => tval) :=
  trapWord_of hex (fun _ _ _ => rfl) (fun _ _ _ _ _ => rfl) (fun _ _ _ _ _ => rfl) (fun _ _ _ _ _ => rfl)
    (fun _ _ _ _ _ => rfl) (by decide) (fun s c _ _ _ _ _ => by rw [← htv]; rfl)

section
variable {s : State} {u : Nat} {w : Wave} {k : Cause} {lanes : Mask} {tval : Nat → DWord}

/-- A lane of the sub-wave that runs in handler mode is there. -/
theorem inHandler_of_subw (hh : w.handling = true) (hsub : lanes &&& ~~~ w.subw = 0) {l : Nat} (hl : l ∈ lanesOf lanes) :
    w.inHandler l = true := by
  have hz : (lanes &&& ~~~ w.subw).getLsbD l = false := by rw [hsub]; exact BitVec.getLsbD_zero
  have hg := (mem_lanesOf lanes l).1 hl
  rw [BitVec.getLsbD_and, BitVec.getLsbD_not, hg, decide_eq_true (BitVec.lt_of_getLsbD hg), Bool.true_and, Bool.true_and,
    Bool.not_eq_false'] at hz
  unfold Wave.inHandler Wave.handlerMask
  rw [if_pos hh]
  exact hz

theorem setPc_zero (v : Wave) (f : Nat → Word) : v.setPc 0 f = v := mapLanes_zero v _

/-- In handler mode a cause after the word is recorded once for each lane, and the PCs stay as the word left them
(R180, R323). -/
theorem takeTraps_recorded_after (pc : Word) (hw : s.wave? u = some w) (h0 : lanes ≠ 0) (hk : isAfter k = true)
    (hin : ∀ l ∈ lanesOf lanes, w.inHandler l = true) :
    takeTraps s u pc (trapsOf k lanes tval) =
      s.mapWave u (fun v => (lanesOf lanes).foldl (fun v _ => v.recordCause k) v) := by
  obtain ⟨l, hl, ts, hts⟩ := trapsOf_cons (k := k) (tval := tval) h0
  have hnone : (trapsOf k lanes tval).filter (fun t => !(t.cause == .break || t.cause == .fpx || t.cause == .watch)) = [] := by
    rw [List.filter_eq_nil_iff]
    intro t ht
    have hafter : (t.cause == .break || t.cause == .fpx || t.cause == .watch) = true := by
      rw [trapsOf_cause t ht]
      exact hk
    rw [hafter]
    exact Bool.false_ne_true
  have hfold : ∀ v : Wave, (trapsOf k lanes tval).foldl (fun v t => v.recordCause t.cause) v =
      (lanesOf lanes).foldl (fun v _ => v.recordCause k) v := fun v => List.foldl_map ..
  unfold takeTraps
  simp only [hw, oneEach_trapsOf]
  rw [hts]
  simp only [← hts, hin l hl, if_true, hnone, List.map_nil, maskOf_nil, setPc_zero, hfold]

end

/-- A word that is BREAK of its Active lanes, issued in handler mode by one wave of which no second word stands by. -/
theorem break_recorded {ins : Instr} {f : Full} {trap : Bool} {s : State} {i : Issue} {w : Wave} {g : Mask}
    (hsem : semOf ins = some { Sem.plain f with body := breakBody f trap }) (I : Issues s i w g)
    (hh : w.handling = true) (hsub : g &&& ~~~ w.subw = 0) (h0 : activeLanes f.grd w g ≠ 0)
    (hs : ∀ n, standsBy s n w.uid = false) :
    exec ins s = .next ((s.mapWave w.uid (leaveWord i g 0 (fun _ => none))).mapWave w.uid (fun v =>
      (lanesOf (activeLanes f.grd w g)).foldl (fun v _ => v.recordCause .break) v)) := by
  let m : Sem := { Sem.plain f with body := breakBody f trap }
  have clear : Clear m s i w g :=
    clear_of_ready (fun _ => rfl) (opsReady_none ..) rfl (fun _ => rfl) rfl (.inr rfl) rfl
  have hcount : countHits m s w g = s := by
    rw [countHits_counted (ops := fun _ => shapeNone) (fun _ => rfl), hitsOf_none, counted_zero]
  have hissue := issue_traps (r := { st := s, traps := trapsOf .break (activeLanes f.grd w g) (fun _ => breakTval f trap) })
    I clear h0 (by rw [hcount]; rfl) rfl rfl rfl rfl (hs _)
  have hw : (s.mapWave w.uid (leaveWord i g 0 (fun _ => none))).wave? w.uid = some (leaveWord i g 0 (fun _ => none) w) := by
    rw [State.mapWave_wave (hf := by intro v h; exact h), if_pos rfl, I.found]
    rfl
  have htaken := takeTraps_recorded_after (k := .break) (tval := fun _ => breakTval f trap) i.key.pc hw h0 rfl
    (fun _ hl => inHandler_of_subw hh hsub (issuing_of_active hl))
  exact exec_next hsem (hissue.trans htaken) I.sound

end Sys2Proof.Machine

namespace Sys2Proof.Proofs
open Sys2Proof.Machine

/-- Settles O11: each word names where its Active lanes go; LOOPW has its two cases. -/
theorem branchResults : Obligations.BranchResults := by
  unfold Obligations.BranchResults
  intro f target
  refine ⟨?_, ?_, ?_, ⟨?_, ?_⟩, ?_, ?_⟩
  -- BRA, BRW, CALL
  · exact alu_word (fun _ => rfl) (fun _ _ _ => rfl) (fun _ _ _ _ => rfl)
  · exact laneWord_plain (m := semBrw f) rfl rfl (fun _ _ _ => rfl) (fun _ _ _ => rfl)
  · exact alu_word (fun _ => rfl) (fun _ _ _ => rfl) (fun _ _ _ _ => rfl)
  -- BRX, RET
  · exact jump_word (fun _ => rfl)
  · exact jump_word (fun _ => rfl)
  -- LOOPW
  · exact soloWord_bare (m := semLoopw f) (Sem.bare_of_plain rfl) (fun _ => rfl) (fun _ _ _ => rfl)
      (fun s _ h _ => semLoopw_last h s) (fun _ _ => rfl)
  · refine waveWord_of (m := semLoopw f) (fun _ => rfl) (fun _ _ _ => rfl) (fun _ _ _ _ _ => rfl) (fun _ _ _ _ _ => rfl)
      (fun _ _ _ _ _ => rfl) (fun _ _ _ _ _ => rfl) (fun s c h _ _ _ _ => ?_) (fun _ _ _ hb => hb)
    exact ⟨_, semLoopw_again h s, rfl, rfl, rfl, rfl, rfl, nextPc_target c.iss c.act (relTarget c.pc f.imm16)⟩

/-- Settles O19: the fields are those of the encoding, and the words are BREAK of their Active lanes, which a calm wave takes
after the word and a wave in handler mode records. -/
theorem breakEntry : Obligations.BreakEntry := by
  unfold Obligations.BreakEntry
  intro f shape recorded
  refine ⟨⟨fun h => ?_, fun w hw => encode_opc rfl hw⟩, ⟨fun h => ?_, fun w hw => encode_opc rfl hw⟩, ?_, ?_, ?_, ?_⟩
  · exact ok_immediate rfl rfl rfl rfl (ok_of_wellFormed rfl h)
  · exact ok_immediate rfl rfl rfl rfl (ok_of_wellFormed rfl h)
  · exact break_word (trap := true) (fun _ => rfl) rfl
  · exact break_word (trap := false) (fun _ => rfl) rfl
  · exact fun s i w g I _ hh hsub h0 hs => break_recorded (trap := true) rfl I hh hsub h0 hs
  · exact fun s i w g I _ hh hsub h0 hs => break_recorded (trap := false) rfl I hh hsub h0 hs

end Sys2Proof.Proofs
end

