-- ==== Sys2Proof/Proofs/LongLatency.lean ====
section
/-!
PROOF. Long-latency instructions (R283, R293 to R299, R311): issue begins a producer that already knows each lane's value
and flags; FSUMV and LXRD that resumed end with %prog = 0 (R192).
-/
namespace Sys2Proof.Machine

/-! ## Beginning a producer (R69, R283) -/

/-- The jobs of a producer of this chapter: `g` gives each lane's destination, tag, value and flags. -/
def knownJobs (g : Ctx → Nat → Thread → Nat × Ety × Nat × BitVec 5) (c : Ctx) : List Job :=
  c.lanes.map (fun l =>
    let r := g c l (c.rd.thread l)
    Job.known l r.1 r.2.1 (natWords r.2.1.regs r.2.2.1) r.2.2.2)

/-- Outside a transaction a producer begins, without the register log (R363). -/
theorem produce_alone (g : Ctx → Nat → Thread → Nat × Ety × Nat × BitVec 5) (f : Full) (s : State) {c : Ctx}
    (h0 : c.act ≠ 0) (htx : c.tx = false) : produce g f s c = { st := produced f (knownJobs g c) s c } := by
  unfold produce
  simp only [beq_eq_false_iff_ne.2 h0, startFlight_alone htx, Bool.false_eq_true, if_false, if_true]
  rfl

/-- A word of this chapter outside a transaction; PREEMPT does not cut a word short that issues (R192). -/
theorem longWord_of {ins : Instr} {f : Full} {m : Sem} {ops : State → Wave → Nat → List Opnd} {ok : State → Ctx → Prop}
    {eff : State → Ctx → State} (hex : ∀ s, exec ins s = execX m s)
    (hm : m = { Sem.plain f with ops := ops, fpx := m.fpx, body := m.body })
    (hbody : ∀ s c, ok s c → c.act ≠ 0 → c.iss.cut = none → c.tx = false → m.body s c = { st := eff s c })
    (hbad : ∀ s c, (eff s c).bad = s.bad) : WaveWord ins f.grd ops ok eff (fun _ => 0) (fun _ _ => none) := by
  rw [hm] at hex
  intro s i w g A R h0 c s1 hk
  refine waveWord_of (stay := fun _ => 0) (go := fun _ _ => none) (ok := fun s c => ok s c ∧ c.iss.cut = none) hex
    (fun _ _ _ => rfl) (fun _ _ _ _ _ => rfl) (fun _ _ _ _ _ => rfl) (fun _ _ _ _ _ => rfl) (fun _ _ _ _ _ => rfl) ?_
    (fun s c _ hs => (hbad s c).trans hs) s i w g A R h0 ⟨hk, A.whole⟩
  exact fun s c ⟨hk, hcut⟩ h0 _ _ htx => ⟨_, hbody s c hk h0 hcut htx, rfl, rfl, rfl, rfl, rfl, fun _ => rfl⟩

/-- A word whose body is a producer of one register value for each lane. -/
theorem produceWord_of {ins : Instr} {f : Full} {ops : Wave → Nat → List Opnd} {t : Ety}
    {g : Ctx → Nat → Thread → Nat × Ety × Nat × BitVec 5} {out : Ctx → Nat → Nat × FFlags}
    (hex : ∀ s, exec ins s = execX { Sem.plain f with ops := fun _ => ops, body := produce g f } s)
    (hout : ∀ c l, g c l (c.rd.thread l) = (f.dn, t, (out c l).1, (out c l).2)) :
    WaveWord ins f.grd (fun _ => ops) (fun _ _ => True) (fun s c => produced f (c.lanes.map (fun l =>
      Job.known l f.dn t (natWords t.regs (out c l).1) (out c l).2)) s c) (fun _ => 0) (fun _ _ => none) := by
  refine longWord_of hex rfl (fun s c _ h0 _ htx => ?_) (fun _ _ => rfl)
  have hjobs : knownJobs g c = c.lanes.map (fun l => Job.known l f.dn t (natWords t.regs (out c l).1) (out c l).2) := by
    unfold knownJobs
    simp only [hout]
  exact hjobs ▸ produce_alone g f s h0 htx

/-! ## Vector long words (R192) -/

/-- %prog ends at 0 where the word resumed. -/
def resumedDone (c : Ctx) (s : State) : State := if c.rd.resumes then setProg s c 0 else s

theorem resumedDone_bad (c : Ctx) (s : State) : (resumedDone c s).bad = s.bad := by
  unfold resumedDone
  split <;> rfl

/-- A vector long word that nothing cuts short is the whole of it. -/
theorem longOp_resumed {c : Ctx} {s t : State} {pts : List Nat} {run : Option Nat → Res} (hcut : c.iss.cut = none)
    (hrun : run none = { st := t }) : longOp false pts run s c = { st := resumedDone c t } := by
  unfold longOp resumedDone
  simp only [hcut, hrun, Bool.false_or]
  split <;> rfl

/-- FSUMV gives every Active lane the sum, and each lane the flags of its step (R298). -/
theorem semFsumv_body {f : Full} {s : State} {c : Ctx} (h0 : c.act ≠ 0) (hcut : c.iss.cut = none) (htx : c.tx = false) :
    (semFsumv f).body s c = { st := resumedDone c (produced f (c.lanes.map (fun l =>
      Job.known l f.dn f.ety (natWords f.ety.regs (fsumv f c none).1) (laneFlags (fsumv f c none).2 l))) s c) } := by
  unfold semFsumv
  dsimp only
  refine longOp_resumed hcut ?_
  simp only [Option.isSome_none, Bool.false_eq_true, if_false]
  exact produce_alone _ f s h0 htx

/-- The lowest segment that a LXRD still has to reduce (R192). -/
def lxrdFirst (c : Ctx) : Nat := if c.rd.resumes then c.rd.progIndex else 0

/-- The results of a lane's segment (R311). -/
def lxrdOf (f : Full) (c : Ctx) (l : Nat) : Nat × List (Nat × FFlags) :=
  ((List.range (c.rd.width / segSize f c.rd)).map (fun g =>
    lxrdSeg f c (c.lanes.filter (fun l => l / segSize f c.rd == g)))).getD (l / segSize f c.rd) (0, [])

/-- LXRD gives every Active lane of a segment that is left the reduction of the segment, and each lane the flags of its
step. -/
theorem semLxrd_body {f : Full} {s : State} {c : Ctx} (hleft : ∃ l ∈ c.lanes, lxrdFirst c ≤ l / segSize f c.rd)
    (hcut : c.iss.cut = none) (htx : c.tx = false) :
    (semLxrd f).body s c = { st := resumedDone c (produced f
      ((c.lanes.filter (fun l => lxrdFirst c ≤ l / segSize f c.rd)).map (fun l =>
        Job.known l f.dn f.ety (natWords f.ety.regs (lxrdOf f c l).1) (laneFlags (lxrdOf f c l).2 l))) s c) } := by
  let left : Ctx := { c with act := maskOf (c.lanes.filter (fun l => lxrdFirst c ≤ l / segSize f c.rd)) }
  have hlanes : left.lanes = c.lanes.filter (fun l => lxrdFirst c ≤ l / segSize f c.rd) := lanesOf_maskOf_filter ..
  have h0 : left.act ≠ 0 := by
    intro h
    obtain ⟨l, hl, hle⟩ := hleft
    have hmem : l ∈ left.lanes := by
      rw [hlanes]
      exact List.mem_filter.2 ⟨hl, decide_eq_true hle⟩
    unfold Ctx.lanes at hmem
    rw [h] at hmem
    cases hmem
  rw [← hlanes]
  unfold semLxrd
  dsimp only
  refine longOp_resumed hcut ?_
  exact produce_alone _ f s (c := left) h0 htx

end Sys2Proof.Machine

namespace Sys2Proof.Proofs
open Sys2Proof.Machine

/-- Settles O30: each word begins a producer of its lanes' values; FSUMV and LXRD are the whole of a vector long word. -/
theorem longLatencyResults : Obligations.LongLatencyResults := by
  unfold Obligations.LongLatencyResults
  intro f m long un firstLane finished
  have unary {ins : Full → Instr} {op : Rnd → Nat → Nat × FFlags}
      (hex : ∀ s, exec (ins f) s = execX (floatLong f op) s) : un ins op := produceWord_of hex (fun _ _ => rfl)
  clear_value un
  refine ⟨?_, ?_, ?_, ?_, ?_, ?_, ?_, ?_, ?_, ?_, ?_⟩
  -- FDIV
  · exact produceWord_of (fun _ => rfl) (fun _ _ => rfl)
  -- FRCP, FRSQ, FSQRT, FEXP2, FLOG2, FSIN, FCOS
  iterate 7 exact unary (fun _ => rfl)
  -- CRCP
  · exact produceWord_of (fun _ => rfl) (fun _ _ => rfl)
  -- FSUMV
  · exact longWord_of (m := semFsumv f) (fun _ => rfl) rfl (fun _ _ _ h0 hcut htx => semFsumv_body h0 hcut htx)
      (fun _ _ => resumedDone_bad ..)
  -- LXRD
  · exact longWord_of (m := semLxrd f) (fun _ => rfl) rfl (fun _ _ hleft _ hcut htx => semLxrd_body hleft hcut htx)
      (fun _ _ => resumedDone_bad ..)

end Sys2Proof.Proofs
end

