-- ==== Sys2Proof/Proofs/Atomics.lean ====
section
/-!
PROOF. The atomics: each queues a read-modify-write for each lane, and a relaxed one of members reads at issue (R335 to R337,
R341, R363).
-/
namespace Sys2Proof.Machine

/-! ## What stays as a word issues -/

/-- What each step of a fold keeps, the fold keeps. -/
theorem foldl_keeps {α β : Type} (p : State → β) {g : State → α → State} (h : ∀ s a, p (g s a) = p s) (l : List α) (s : State) :
    p (l.foldl g s) = p s := by
  induction l generalizing s with
  | nil => rfl
  | cons a l ih => rw [List.foldl_cons, ih, h]

theorem SameAbove.quads {s t : State} (h : SameAbove s t) : t.quads = s.quads := by
  obtain ⟨p, q, z, rfl⟩ := h
  rfl

theorem sendSig_quads (s : State) (u l comp idx : Nat) (co : List Nat) : (sendSig s u l comp idx co).quads = s.quads := by
  unfold sendSig
  split <;> rfl

theorem sendSigs_quads (s : State) (c : Ctx) (as : List Acc) : (sendSigs s c as).quads = s.quads := by
  refine foldl_keeps State.quads (fun s a => ?_) as s
  split
  · exact sendSig_quads ..
  · rfl

section
variable (as : List Acc) (s : State) (c : Ctx)

/-- After its lines are recorded, an atomic by members changes what stands below its addresses alone. -/
theorem SameAbove.memberReads : SameAbove (recordReads s c as).1 (memberReads as s c) :=
  SameAbove.fold _ (fun _ _ => SameAbove.useLoc ..) as _

theorem memberReads_bad : (memberReads as s c).bad = s.bad := (SameAbove.memberReads as s c).bad.trans (recordReads_bad s c as)

theorem memberReads_quads : (memberReads as s c).quads = s.quads :=
  (SameAbove.memberReads as s c).quads.trans (recordReads_quads s c as)

variable (f : Full) (op : Nat) (arg : Nat → AtomArgs)

theorem atomicSeen_bad : (atomicSeen f op arg as s c).bad = s.bad := (sendSigs_bad ..).trans (memberReads_bad as s c)

theorem atomicSeen_quads : (atomicSeen f op arg as s c).quads = s.quads := (sendSigs_quads ..).trans (memberReads_quads as s c)

theorem retLog_bad : (retLog f op arg as s c).1.bad = s.bad := (logRegs_bad ..).trans (atomicSeen_bad as s c f op arg)

theorem retLog_quads : (retLog f op arg as s c).1.quads = s.quads :=
  (logRegs_quads ..).trans (atomicSeen_quads as s c f op arg)

theorem atomicBuffered_bad (ret : Bool) : (atomicBuffered f op ret arg as s c).bad = s.bad := by
  cases ret with
  | false => exact atomicSeen_bad as s c f op arg
  | true => exact retLog_bad as s c f op arg

end

/-! ## The count of window reads bears on no access (R71) -/

theorem checkGeneric_counted (s : State) (u n : Nat) : checkGeneric (counted s u n) = checkGeneric s :=
  checkGeneric_waves s _ s.nextId (fun k => retired_map s.waves u k _ (fun _ => ⟨rfl, rfl⟩))

theorem genAcc_counted (s : State) (u n : Nat) : genAcc (counted s u n) = genAcc s := by
  unfold genAcc
  rw [checkGeneric_counted]
  rfl

theorem atomAcc_counted (s : State) (u n : Nat) : atomAcc (counted s u n) = atomAcc s := by
  unfold atomAcc
  rw [genAcc_counted, checkGeneric_counted]

theorem coordAcc_counted (s : State) (u n : Nat) : coordAcc (counted s u n) = coordAcc s := rfl

theorem memberAsleep_counted {accs : State → Ctx → List Acc} {s : State} {u n : Nat}
    (h : accs (counted s u n) = accs s) : memberAsleep accs (counted s u n) = memberAsleep accs s := by
  unfold memberAsleep
  rw [h]
  rfl

/-! ## Atomic words (R335 to R337, R341, R363) -/

/-- The counters that an atomic raises (R146). -/
def atomCounters (f : Full) : List Nat := if atomRet f then [0, 1, 2] else [1, 2]

/-- An atomic whose accesses may all go ahead at once, where the operand log and its counters have room. -/
def AtomReady (f : Full) (accs : State → Ctx → List Acc) (ok : State → Ctx → Prop) (s : State) (c : Ctx) : Prop :=
  memHold (atomCounters f) s c.rd c.act = false ∧ AccsReady c [.atomic] (accs s c) [] ∧ ok s c

/-- The same of members: the order is relaxed, and neither earlier accesses of the wave nor a sleeping slice hold it. -/
def MemberReady (f : Full) (accs : State → Ctx → List Acc) (ok : State → Ctx → Prop) (s : State) (c : Ctx) : Prop :=
  AtomReady f accs ok s c ∧ (atomAcq f || atomRel f) = false ∧ memberHold s c.rd c.act = false ∧
    memberAsleep accs s c.rd c.act = false

/-- The lines enter the read set, and what is read there is not lost. -/
def ReadsSound (accs : State → Ctx → List Acc) (s : State) (c : Ctx) : Prop :=
  (recordReads s c (accs s c)).2 = true ∧ ∀ a ∈ accs s c, (coreRead (memberReads (accs s c) s c) c.rd.core a.loc).2 = false

/-- The store buffer has room for the new values. -/
def BufferRoom (accs : State → Ctx → List Acc) (s : State) (c : Ctx) : Prop :=
  c.rd.kettle.buf.length + (accs s c).length ≤ 256

/-- The law of an atomic of the accesses `accs`: outside a transaction; by members; by members that find the read set, the
store buffer or the register log full. -/
def AtomicWord (ins : Instr) (f : Full) (scope : Nat) (ops : State → Wave → Nat → List Opnd) (accs : State → Ctx → List Acc)
    (ok : State → Ctx → Prop) : Prop :=
  let ready := MemberReady f accs ok
  let log (s : State) (c : Ctx) := retLog f (atomCode f) (atomArg f c) (accs s c) s c
  WaveWord ins f.grd ops (fun s c => AtomReady f accs ok s c ∧ c.rd.members &&& c.act = 0)
    (fun s c => atomicBegun f (atomCode f) scope (atomAcq f) (atomRel f) (atomRet f) (atomArg f c) (accs s c) s c)
    (fun _ => 0) (fun _ _ => none) ∧
  MemberWord ins f.grd ops
    (fun s c => ready s c ∧ ReadsSound accs s c ∧ BufferRoom accs s c ∧ (atomRet f = true → (log s c).2 = true))
    (fun s c => atomicBuffered f (atomCode f) (atomRet f) (atomArg f c) (accs s c) s c) ∧
  MemberFull ins f.grd ops (fun s c => ready s c ∧ (recordReads s c (accs s c)).2 = false) (fun s _ => s) 5 ∧
  MemberFull ins f.grd ops (fun s c => ready s c ∧ ReadsSound accs s c ∧ ¬ BufferRoom accs s c)
    (fun s c => memberReads (accs s c) s c) 3 ∧
  MemberFull ins f.grd ops
    (fun s c => ready s c ∧ ReadsSound accs s c ∧ BufferRoom accs s c ∧ atomRet f = true ∧ (log s c).2 = false)
    (fun s c => (log s c).1) 4

/-- What an atomic is but for its FORMAT, its W operands and its body. -/
def atomShape (f : Full) (ops : State → Wave → Nat → List Opnd) (accs : State → Ctx → List Acc) (wsrc : List Nat)
    (fmt : State → Wave → Mask → Option DWord) (body : State → Ctx → Res) : Sem :=
  { atomSem f ops accs with wsrc := wsrc, fmt := fmt, body := body }

section
variable {ins : Instr} {f : Full} {ops : State → Wave → Nat → List Opnd} {accs : State → Ctx → List Acc}
  {ok p : State → Ctx → Prop} {body : State → Ctx → Res} {wsrc : List Nat} {fmt : State → Wave → Mask → Option DWord}
  {eff : State → Ctx → State}

theorem atomSem_hold_apart {s : State} {w : Wave} {a : Mask} (hhold : memHold (atomCounters f) s w a = false)
    (hout : w.members &&& a = 0) : (atomSem f ops accs).hold s w a = false := by
  have hmem : memberHold s w a = false := by simp [memberHold, hout]
  have hslice : memberAsleep accs s w a = false := by simp [memberAsleep, hout]
  exact Bool.or_eq_false_iff.2 ⟨Bool.or_eq_false_iff.2 ⟨hhold, hmem⟩, hslice⟩

theorem atomSem_hold_member {s : State} {u n : Nat} {c : Ctx} (haccs : accs (counted s u n) = accs s)
    (h : MemberReady f accs ok (counted s u n) c) :
    (atomSem f ops accs).hold s c.rd c.act = false := by
  obtain ⟨⟨hhold, -, -⟩, -, hmem, hslice⟩ := h
  rw [memberAsleep_counted haccs] at hslice
  exact Bool.or_eq_false_iff.2 ⟨Bool.or_eq_false_iff.2 ⟨hhold, hmem⟩, hslice⟩

variable (hex : ∀ s, exec ins s = execX (atomShape f ops accs wsrc fmt body) s)
include hex

/-- An atomic word outside a transaction. -/
theorem atomWave_of (hfmt : ∀ s u n c, ok (counted s u n) c → fmt s c.rd c.act = none)
    (hhold : ∀ s c, ok s c → memHold (atomCounters f) s c.rd c.act = false ∧ c.rd.members &&& c.act = 0)
    (hbody : ∀ s c, ok s c → c.tx = false → body s c = { st := eff s c }) (hbad : ∀ s c, (eff s c).bad = s.bad) :
    WaveWord ins f.grd ops ok eff (fun _ => 0) (fun _ _ => none) :=
  waveWord_body hex (fun _ _ _ => rfl) (fun _ _ _ => rfl)
    (fun s _ _ c hk => atomSem_hold_apart (ops := ops) (s := s) (hhold _ c hk).1 (hhold _ c hk).2) (fun _ _ _ _ _ => rfl) hfmt
    (fun s c hk _ htx => hbody s c hk htx) (fun s c _ => hbad s c)

variable (hfmt : ∀ s u n c, ok (counted s u n) c → fmt s c.rd c.act = none)
  (haccs : ∀ s u n, accs (counted s u n) = accs s)
include hfmt haccs

/-- An atomic word of members that finds room. -/
theorem atomMember_of
    (hbody : ∀ s c, MemberReady f accs ok s c → p s c → (∃ x, s.wave? c.u = some { c.rd with winhit := x }) →
      c.tx = true → body s c = { st := eff s c })
    (hbad : ∀ s c, (eff s c).bad = s.bad) :
    MemberWord ins f.grd ops (fun s c => MemberReady f accs ok s c ∧ p s c) eff :=
  memberWord_of hex (fun _ _ _ => rfl) (fun _ _ _ _ _ _ => rfl) (fun _ _ ⟨⟨_, hrelaxed, _⟩, _⟩ => hrelaxed)
    (fun s u n _ _ hk => atomSem_hold_member (ops := ops) (haccs s u n) hk.1) (fun _ _ _ => rfl)
    (fun s u n c ⟨⟨⟨_, _, hok⟩, _⟩, _⟩ => hfmt s u n c hok) (fun s c hk _ hw _ htx => hbody s c hk.1 hk.2 hw htx)
    (fun s c _ hs => (hbad s c).trans hs)

/-- An atomic word of members that finds a structure of the transaction full. -/
theorem atomFull_of {code : Nat}
    (hbody : ∀ s c, MemberReady f accs ok s c → p s c → (∃ x, s.wave? c.u = some { c.rd with winhit := x }) →
      c.tx = true → body s c = { st := eff s c, abort := some (c.act, code, 0) })
    (hquads : ∀ s c, (eff s c).quads = s.quads) (hbad : ∀ s c, (eff s c).bad = s.bad) :
    MemberFull ins f.grd ops (fun s c => MemberReady f accs ok s c ∧ p s c) eff code :=
  memberFull_of hex (fun _ _ _ => rfl) (fun _ _ _ _ _ _ => rfl) (fun _ _ ⟨⟨_, hrelaxed, _⟩, _⟩ => hrelaxed)
    (fun s u n _ _ hk => atomSem_hold_member (ops := ops) (haccs s u n) hk.1) (fun _ _ _ => rfl)
    (fun s u n c ⟨⟨⟨_, _, hok⟩, _⟩, _⟩ => hfmt s u n c hok) (fun s c hk _ hw _ htx => hbody s c hk.1 hk.2 hw htx)
    (fun s c n _ => congrArg (fget Quad.reset · n) (hquads s c)) (fun s c _ hs => (hbad s c).trans hs)

end

/-- Members whose lines find no room in the read set abort before they read. -/
theorem atomicAccs_full {as hs : List Acc} {c : Ctx} {s : State} (f : Full) (op scope : Nat) (acq rel ret : Bool)
    (arg : Nat → AtomArgs) (h : AccsReady c [.atomic] as hs) (htx : c.tx = true) (hr : (recordReads s c as).2 = false) :
    atomicAccs f op scope acq rel ret arg as s c = { st := s, abort := some (c.act, 5, 0) } := by
  have hfull : recordReads s c as = (s, false) := by
    have hpair : recordReads s c as = ((recordReads s c as).1, false) := Prod.ext rfl hr
    rw [hpair, recordReads_full hpair]
  unfold atomicAccs memberAtomic
  simp only [touchAccs_ok s h.chk, htx, splitAccs_ok true h.chk, nonempty h, hfull, Bool.false_eq_true, if_false, if_true,
    Bool.not_false]
  rfl

/-- A word is an atomic where its body is the common end of an atomic's issue. -/
theorem atomicWord_of {ins : Instr} {f : Full} {scope : Nat} {ops : State → Wave → Nat → List Opnd}
    {accs : State → Ctx → List Acc} {ok : State → Ctx → Prop} {body : State → Ctx → Res} {wsrc : List Nat}
    {fmt : State → Wave → Mask → Option DWord}
    (hex : ∀ s, exec ins s = execX (atomShape f ops accs wsrc fmt body) s)
    (hfmt : ∀ s u n c, ok (counted s u n) c → fmt s c.rd c.act = none)
    (haccs : ∀ s u n, accs (counted s u n) = accs s)
    (hbody : ∀ s c, ok s c → body s c =
      atomicAccs f (atomCode f) scope (atomAcq f) (atomRel f) (atomRet f) (atomArg f c) (accs s c) s c) :
    AtomicWord ins f scope ops accs ok := by
  refine ⟨atomWave_of hex (fun s u n c ⟨⟨_, _, hok⟩, _⟩ => hfmt s u n c hok) (fun _ _ ⟨⟨hhold, _⟩, hout⟩ => ⟨hhold, hout⟩)
      ?_ (fun _ _ => atomicBegun_bad ..),
    atomMember_of hex hfmt haccs ?_ (fun _ _ => atomicBuffered_bad ..),
    atomFull_of hex hfmt haccs ?_ (fun _ _ => rfl) (fun _ _ => rfl),
    atomFull_of hex hfmt haccs ?_ (fun _ _ => memberReads_quads ..) (fun _ _ => memberReads_bad ..),
    atomFull_of hex hfmt haccs ?_ (fun _ _ => retLog_quads ..) (fun _ _ => retLog_bad ..)⟩
  · rintro s c ⟨⟨-, hr, hok⟩, -⟩ htx
    rw [hbody s c hok, atomicAccs_ok f _ _ _ _ _ _ s hr htx]
  · rintro s c ⟨⟨-, hr, hok⟩, -⟩ ⟨⟨hreads, hsound⟩, hroom, hlog⟩ hw htx
    rw [hbody s c hok, atomicAccs_member f _ _ _ _ _ _ s hr htx hw hreads hsound, if_neg (Nat.not_lt.2 hroom)]
    cases hret : atomRet f with
    | false => rfl
    | true => rw [hlog hret]; rfl
  · rintro s c ⟨⟨-, hr, hok⟩, -⟩ hreads - htx
    rw [hbody s c hok, atomicAccs_full f _ _ _ _ _ _ hr htx hreads]
  · rintro s c ⟨⟨-, hr, hok⟩, -⟩ ⟨⟨hreads, hsound⟩, hroom⟩ hw htx
    rw [hbody s c hok, atomicAccs_member f _ _ _ _ _ _ s hr htx hw hreads hsound, if_pos (Nat.not_le.1 hroom)]
  · rintro s c ⟨⟨-, hr, hok⟩, -⟩ ⟨⟨hreads, hsound⟩, hroom, hret, hlog⟩ hw htx
    rw [hbody s c hok, atomicAccs_member f _ _ _ _ _ _ s hr htx hw hreads hsound, if_neg (Nat.not_lt.2 hroom), hret, hlog]
    rfl

/-- The accesses of ATOMT: STEPPE where old values, exchanges or compares meet a Steppe region (R341). -/
def atomtAccs (f : Full) (s : State) (c : Ctx) : List Acc :=
  c.lanes.map (coordAcc s c f .atomic (fun k => k == 1 || (k == 2 && !atomRet f)) (atomCode f == 6 || atomCode f == 7))

end Sys2Proof.Machine

namespace Sys2Proof.Proofs
open Sys2Proof.Machine

/-- Settles O17: each word is the common end of an atomic's issue for its accesses; ATOMT on a Steppe region is the issue of
remote adds. -/
theorem atomicResults : Obligations.AtomicResults := by
  unfold Obligations.AtomicResults
  intro f op ret atomics coords
  refine ⟨atomicWord_of (fun _ => rfl) (fun _ _ _ _ _ => rfl) ?_ (fun _ _ _ => rfl),
    atomicWord_of (fun _ => rfl) (fun _ _ _ _ _ => rfl) (fun _ _ _ => rfl) (fun _ _ _ => rfl),
    atomicWord_of (fun _ => rfl) (fun _ _ _ _ _ => rfl) (fun _ _ _ => rfl) (fun _ _ _ => rfl), ?_, ?_⟩
  · intro s u n
    rw [atomAcc_counted]
  · exact atomicWord_of (accs := atomtAccs f) (fun _ => rfl) (fun _ _ _ _ hk => hk.1) (fun _ _ _ => rfl)
      (fun _ _ hk => if_neg (by simp [hk.2]))
  · refine atomWave_of (accs := atomtAccs f) (fun _ => rfl) (fun _ _ _ _ ⟨_, _, _, hfmt, _⟩ => hfmt)
      (fun _ _ ⟨hhold, hout, _⟩ => ⟨hhold, hout⟩) ?_ (fun _ _ => storeBegun_bad ..)
    rintro s c ⟨-, -, hr, -, hsteppe⟩ htx
    exact (if_pos hsteppe).trans (storeAccs_ok _ _ _ _ _ s hr htx)

end Sys2Proof.Proofs
end

