-- ==== Sys2Proof/Proofs/Laps.lean ====
section
/-!
PROOF. LAPR, whose requests go to the home slices through the fabric (R343), and PREF (R344).
-/
namespace Sys2Proof.Machine

/-! ## LAPR (R343) -/

/-- The accesses of LAPR. -/
def laprAccs (f : Full) (s : State) (c : Ctx) : List Acc := c.lanes.map (coordAcc s c f .read (· == 2) false)

/-- A LAPR has issued: its registers wait for a new producer, and its requests stand in the fabric in the order of lanes. -/
def laprBegun (f : Full) (as : List Acc) (s : State) (c : Ctx) : State :=
  let jobs := as.map (fun a => Job.read a.lane a.dst (a.n + 1) f.ety .await pathSteppe a.adr)
  let s1 := { s with nextId := s.nextId + 1, fabric := s.fabric ++ laprRequests c f s.nextId as }
  sendSigs (s1.mapWave c.u (Wave.begin { Flight.start s.nextId c.pc f.ety with mem := true, ldq := true, jobs := jobs })) c as

theorem laprBegun_bad (f : Full) (as : List Acc) (s : State) (c : Ctx) : (laprBegun f as s c).bad = s.bad := sendSigs_bad ..

theorem laprBody_begins {f : Full} {s : State} {c : Ctx} {hs : List Acc} (hr : AccsReady c [.read] (laprAccs f s c) hs)
    (htx : c.tx = false) : laprBody f s c = { st := laprBegun f (laprAccs f s c) s c } := by
  have hsplit : splitAccs false (c.lanes.map (coordAcc s c f .read (· == 2) false)) = ([], laprAccs f s c) :=
    splitAccs_ok false hr.chk
  unfold laprBody
  simp only [htx, hsplit, nonempty hr, startFlight_alone htx, Bool.not_true, Bool.false_eq_true, if_false]
  rfl

/-! ## PREF (R344) -/

/-- A prefetch reaches rows that exist, and fills lines. -/
theorem prefLane_bad (f : Full) (s : State) (c : Ctx) (l : Nat) : (prefLane f s c l).bad = s.bad := by
  unfold prefLane
  extract_lets t off a path
  split
  · rfl
  · split
    · extract_lets byte reached
      split
      · rfl
      · have hreached : reached.bad = s.bad := (SameAbove.useLoc ..).bad
        split <;> exact hreached
    · rfl

end Sys2Proof.Machine

namespace Sys2Proof.Proofs
open Sys2Proof.Machine

/-- Settles O18: LAPR is the issue of its accesses, and PREF is its lanes' prefetches in order. -/
theorem lapResults : Obligations.LapResults := by
  unfold Obligations.LapResults
  intro f
  constructor
  · refine waveWord_of (m := semLapr f) (fun _ => rfl) (fun _ _ _ => rfl) (fun _ _ _ _ ⟨_, hdecl, _⟩ => hdecl)
      (fun _ _ _ _ hk => hk.1) (fun _ _ _ _ _ => rfl) (fun _ _ _ _ ⟨_, _, hfmt, _⟩ => hfmt) ?_
      (fun s c _ hb => (laprBegun_bad f (laprAccs f s c) s c).trans hb)
    rintro s c ⟨-, -, -, hr⟩ - - - htx
    exact ⟨_, laprBody_begins hr htx, rfl, rfl, rfl, rfl, rfl, fun _ => rfl⟩
  · exact waveWord_body (m := semPref f) (fun _ => rfl) (fun _ _ _ => rfl) (fun _ _ _ => rfl) (fun _ _ _ _ hk => hk)
      (fun _ _ _ _ _ => rfl) (fun _ _ _ _ _ => rfl) (fun _ _ _ _ _ => rfl)
      (fun s c _ => foldl_bad _ (fun s l => prefLane_bad f s c l) c.lanes s)

end Sys2Proof.Proofs
end

