-- ==== Sys2Proof/Proofs/Units.lean ====
section
/-!
PROOF. What the units do by themselves: the matrix unit starts an operation and writes its result (R404, R405), and a transfer
moves its next element (R350, R351).
-/
namespace Sys2Proof.Machine

/-! ## The matrix unit (R404, R405) -/

section
variable {s : State} {qn : Nat} {o : MxOp} {t : Team}

/-- An operation without an acquire has its result, from its sources as they stand, and then draws the free values. -/
theorem mxRun_plain (ht : s.team? o.team = some t) (hacq : mbAcq o.pb = false) (quarters : List (List (List Word))) :
    mxRun quarters s o = (mxDraw s t o).mapQuad (o.core * 4 + o.quad) (fun q => { q with mx := { q.mx with
      ops := q.mx.ops.map (fun y => if y.id = o.id then { y with result := some (mxCompute s t o (mbNb o.pb) quarters) }
        else y) } }) := by
  unfold mxRun
  simp only [ht, hacq, Bool.false_eq_true, if_false]

/-- The head of a queue of which no operation runs starts alone where it takes no B-share. -/
theorem mxStart_alone (hhead : (s.quad qn).mx.head = some o) (hidle : ∀ y ∈ (s.quad qn).mx.ops, y.result = none)
    (hbsh : mbBsh o.pb = false) (hclear : mxBehind s o false = false) : mxStart qn s = mxRun [] s o := by
  have hnone : (s.quad qn).mx.ops.any (·.result.isSome) = false :=
    List.any_eq_false.2 (fun y hy => by simp [hidle y hy])
  unfold mxStart
  simp only [hhead, hnone, hbsh, hclear, Bool.not_false, Bool.false_eq_true, if_false, if_true]

/-- An operation that promotes nothing writes its rows, lets go of its sources and leaves the queue. -/
theorem mxComplete_stores {rows : List (List Nat)} {fl : FFlags}
    (hrun : (s.quad qn).mx.ops.find? (·.result.isSome) = some o) (hres : o.result = some (rows, fl))
    (ht : s.team? o.team = some t) (hrel : mxReleased s o = true) (hclear : mxBehind s o true = false)
    (hprom : o.flight = none) :
    mxComplete qn s = ((((mxSources o.pb).foldl (fun s i => s.addReaders t i false)
        (mxStore s t o rows ((mbAcc o.pb).getD .f32))).setTile t (mxAcc o.pb) (fun e =>
          setTileState (setFmt e ((mbAcc o.pb).getD .f32)) 2)).mapQuad qn (fun q =>
        { q with mx := { q.mx with ops := q.mx.ops.filter (·.id != o.id) } })).mapWave o.wave (fun w =>
          (w.lower 4).orFlags fl) := by
  unfold mxComplete
  simp only [hrun, hres, ht, hrel, hclear, hprom, Bool.not_true, Bool.or_self, Bool.false_eq_true, if_false]

end

/-! ## What a transfer's access leaves alone -/

theorem SameAbove.cores {s t : State} (h : SameAbove s t) : t.cores = s.cores := by
  obtain ⟨p, q, z, rfl⟩ := h
  rfl

theorem sendFlit_cores (s : State) (dev : Nat) (x : Flit) : (sendFlit s dev x).cores = s.cores := by
  unfold sendFlit
  split
  · split <;> rfl
  · rfl

theorem askPeer_cores (s : State) (ctx path va size : Nat) (a : PeerAct) : (askPeer s ctx path va size a).cores = s.cores := by
  unfold askPeer
  split
  · exact sendFlit_cores ..
  · rfl

theorem writeAddrs_cores (ad : List Nat) (bs : List Byte) (s : State) : (writeAddrs s ad bs).cores = s.cores := by
  induction ad generalizing bs s with
  | nil => cases bs <;> rfl
  | cons a ad ih =>
    cases bs with
    | nil => rfl
    | cons b bs =>
      unfold writeAddrs
      rw [ih, State.touch_cores]

theorem poolWrite_cores (s : State) (by_ : Option (Nat × Nat)) (ad : List Nat) (bs : List Byte) :
    (poolWrite s by_ ad bs).cores = s.cores := writeAddrs_cores ad bs s

/-! ## One element of a transfer (R350, R351) -/

/-- The transfer of a name, as its core holds it. -/
def xferAt (s : State) (core id : Nat) : Option Xfer := (s.core core).xfers.find? (·.id == id)

theorem xferAt_congr {s t : State} (h : t.cores = s.cores) (core id : Nat) : xferAt t core id = xferAt s core id := by
  unfold xferAt State.core
  rw [h]

/-- An update of a transfer that keeps its name is found there. -/
theorem xferAt_mapXfer {f : Xfer → Xfer} (hf : ∀ y, (f y).id = y.id) (s : State) (core id : Nat) :
    xferAt (mapXfer s core id f) core id = (xferAt s core id).map f := by
  have hid : ∀ y : Xfer, ((if y.id = id then f y else y).id == id) = (y.id == id) := by
    intro y
    split
    · rw [hf]
    · rfl
  unfold xferAt mapXfer
  rw [State.mapCore_core, if_pos rfl, List.find?_map]
  simp only [Function.comp_def, hid]
  cases h : (s.core core).xfers.find? (·.id == id) with
  | none => rfl
  | some y =>
    have hy : y.id = id := by simpa using List.find?_some h
    simp [hy]

section
variable {s : State} {core : Nat} {x : Xfer} {t : Team} {e : DWord} {l : Loc}

theorem mapXfer_next {f : Xfer → Xfer} (hf : ∀ y, (f y).id = y.id) (hdone : (f x).done = x.done + 1)
    (hx : xferAt s core x.id = some x) :
    ∃ y, xferAt (mapXfer s core x.id f) core x.id = some y ∧ y.done = x.done + 1 :=
  ⟨f x, by rw [xferAt_mapXfer hf, hx]; rfl, hdone⟩

/-- The state in which a transfer's next element moves: an acquire comes before the first (R351). -/
def xferBegun (s : State) (x : Xfer) : State := if x.acq && x.done == 0 then acquireAt s x.wave x.scope else s

theorem acquireAt_waves (s : State) (u scope : Nat) : ∃ ws, acquireAt s u scope = { s with waves := ws } := by
  unfold acquireAt
  split
  · split <;> exact ⟨_, rfl⟩
  · exact ⟨_, rfl⟩

/-- An acquire changes waves alone. -/
theorem xferBegun_waves (s : State) (x : Xfer) : ∃ ws, xferBegun s x = { s with waves := ws } := by
  unfold xferBegun
  split
  · exact acquireAt_waves ..
  · exact ⟨_, rfl⟩

theorem xferBegun_cores (s : State) (x : Xfer) : (xferBegun s x).cores = s.cores := by
  obtain ⟨ws, hws⟩ := xferBegun_waves s x
  rw [hws]

theorem moveElems_stops {id n : Nat} (k : Nat) (h : ∀ y, xferAt s core id = some y → n ≤ y.done) :
    moveElems core id n k s = s := by
  cases k with
  | zero => rfl
  | succ k =>
    unfold moveElems
    split
    · rfl
    · rename_i y hy
      have hdone : min n y.total ≤ y.done := (Nat.min_le_left ..).trans (h y hy)
      split
      · rfl
      · simp [hdone]

/-- A transfer that may move one element more moves that one. -/
theorem moveElems_one {r : State} (hx : xferAt s core x.id = some x) (ht : s.team? x.team = some t) (hheld : x.held = false)
    (hleft : x.done < x.total) (hawake : xferAsleep s core x = false)
    (hr : (if x.load then loadElem s core x t (s.tileEnt t core x.ent)
      else storeElem s core x t (s.tileEnt t core x.ent)) = r)
    (hnext : ∃ y, xferAt r core x.id = some y ∧ y.done = x.done + 1) :
    moveElems core x.id (x.done + 1) x.total s = r := by
  obtain ⟨k, hk⟩ : ∃ k, x.total = k + 1 := ⟨x.total - 1, by omega⟩
  have hgo : ¬ (x.done ≥ min (x.done + 1) x.total) := by omega
  have hx : (s.core core).xfers.find? (·.id == x.id) = some x := hx
  obtain ⟨y, hy, hdone⟩ := hnext
  calc moveElems core x.id (x.done + 1) x.total s
    _ = moveElems core x.id (x.done + 1) k r := by
      rw [hk]
      simp only [moveElems, hx, ht, hheld, hawake, hgo, decide_false, Bool.or_self, Bool.false_eq_true, if_false, hr]
    _ = r := moveElems_stops k (fun z hz => by
      rw [hy] at hz
      obtain rfl := Option.some.inj hz
      exact hdone.ge)

/-- A step of one element: the element, then the end of the transfer; the release of a load comes before that end. -/
theorem runXfer_one {load : Bool} {r : State} (hx : xferAt s core x.id = some x) (hload : x.load = load)
    (hready : xferReady s x = true) (ht : s.team? x.team = some t) (hheld : x.held = false) (hleft : x.done < x.total)
    (hawake : xferAsleep (xferBegun s x) core x = false) (he : s.tileEnt t core x.ent = e)
    (hr : (if load then loadElem (xferBegun s x) core x t e else storeElem (xferBegun s x) core x t e) = r)
    (hnext : ∃ y, xferAt r core x.id = some y ∧ y.done = x.done + 1) :
    runXfer load core x.id (x.done + 1) s =
      if load && x.rel && !unitReleased r x.wave x.id x.scope then r else endXfer r core x.id := by
  obtain ⟨ws, hws⟩ := xferBegun_waves s x
  have hacq : (if x.acq && x.done == 0 && 0 < x.done + 1 then acquireAt s x.wave x.scope else s) = xferBegun s x := by
    simp only [Nat.succ_pos, decide_true, Bool.and_true]
    rfl
  have hmoved : moveElems core x.id (x.done + 1) x.total (xferBegun s x) = r := by
    refine moveElems_one (t := t) ?_ ?_ hheld hleft hawake ?_ hnext
    · rw [hws]; exact hx
    · rw [hws]; exact ht
    · rw [hload, show (xferBegun s x).tileEnt t core x.ent = e by rw [hws]; exact he]
      exact hr
  have hx : (s.core core).xfers.find? (·.id == x.id) = some x := hx
  unfold runXfer
  simp only [hx, hload, hready, hacq, hmoved, bne_self_eq_false, Bool.not_true, Bool.or_self, Bool.false_eq_true, if_false]

/-- A load's element has been reached: its lines are used, and of a peer its request has left (R460). -/
def xferReached (s : State) (core : Nat) (x : Xfer) (t : Team) (l : Loc) : State :=
  let a := servedAs s (x.addrAt x.done)
  let r := xferUse s x core l
  if x.lin then askPeer r t.ctx (a / 2 ^ 60) a x.es .read else r

theorem xferReached_cores : (xferReached s core x t l).cores = s.cores := by
  have huse : (xferUse s x core l).cores = s.cores := (SameAbove.fold _ (fun _ _ => SameAbove.useLine ..) _ s).cores
  unfold xferReached
  dsimp only
  split
  · exact (askPeer_cores ..).trans huse
  · exact huse

/-- An element that memory holds goes to the tile. -/
theorem loadElem_fills {bs : List Byte} (hchk : xferChk s x x.done = some (.ok l)) (hplain : ∀ b, l ≠ .infuse b)
    (hread : coreRead (xferReached s core x t l) core l = (bs, false)) :
    loadElem s core x t e = fillElem (xferReached s core x t l) core x t e (finishBytes x.es l bs) := by
  unfold xferReached at hread
  unfold loadElem xferReached
  cases l with
  | infuse b => exact absurd rfl (hplain b)
  | _ => simp only [hchk, hread, Bool.false_eq_true, if_false]

/-- A load's transfer counts the element that it has filled. -/
theorem fillElem_next (hx : xferAt s core x.id = some x) (bs : List Byte) :
    ∃ y, xferAt (fillElem s core x t e bs) core x.id = some y ∧ y.done = x.done + 1 := by
  refine mapXfer_next (fun _ => rfl) rfl ((xferAt_congr ?_ core x.id).trans hx)
  split
  · rfl
  · exact poolWrite_cores ..

/-- The part of a store's queue entry for the element that moves. -/
def xferPart (s : State) (x : Xfer) (t : Team) (e : DWord) (l : Loc) (img : List Byte) : StPart :=
  let a := servedAs s (x.addrAt x.done)
  let path := if x.lin then a / 2 ^ 60 else pathTiled
  let va := if x.lin then a else 0
  { lane := (lowest x.lanes).getD 0, path := path, loc := l, size := x.es, ety := tFmt e, op := .store, val := leNat img,
    ret := none, want := .write, va := va, done := false, shared := dupLeaf s t.ctx path va }

/-- A part joins the entry of its transfer. -/
def xferStored (s : State) (core : Nat) (x : Xfer) (p : StPart) : State :=
  mapXfer (s.mapWave x.wave (fun w => { w with sq := w.sq.map (fun y =>
    if some y.id = x.entry then { y with parts := y.parts ++ [p] } else y) })) core x.id (fun x => { x with done := x.done + 1 })

theorem storeElem_stores {img : List Byte} (ht : s.team? x.team = some t) (hchk : xferChk s x x.done = some (.ok l))
    (hread : storedElem s core x t e = (img, none)) :
    storeElem s core x t e = xferStored s core x (xferPart s x t e l img) := by
  unfold storeElem
  simp only [hread, hchk, ht]
  rfl

/-- What an acquire changes does not bear on the part of its element. -/
theorem storeElem_begun {img : List Byte} (ht : s.team? x.team = some t)
    (hchk : xferChk (xferBegun s x) x x.done = some (.ok l))
    (hread : storedElem (xferBegun s x) core x t e = (img, none)) :
    storeElem (xferBegun s x) core x t e = xferStored (xferBegun s x) core x (xferPart s x t e l img) := by
  obtain ⟨ws, hws⟩ := xferBegun_waves s x
  have hteam : (xferBegun s x).team? x.team = some t := by
    rw [hws]
    exact ht
  have hpart : xferPart (xferBegun s x) x t e l img = xferPart s x t e l img := by
    rw [hws]
    rfl
  rw [storeElem_stores hteam hchk hread, hpart]

theorem xferStored_next (hx : xferAt s core x.id = some x) (p : StPart) :
    ∃ y, xferAt (xferStored s core x p) core x.id = some y ∧ y.done = x.done + 1 :=
  mapXfer_next (fun _ => rfl) rfl hx

end

end Sys2Proof.Machine

namespace Sys2Proof.Proofs
open Sys2Proof.Machine

/-- Settles O51: the unit's steps are those of an operation without a B-share, and a transfer's step of one element is that
element and then the end that is due. -/
theorem unitEvents : Obligations.UnitEvents := by
  unfold Obligations.UnitEvents
  intro qn core o t x e l unit begun moves used va path
  refine ⟨happens_of (mxStart qn) (fun _ => rfl) ?_, fun rows fl => happens_of (mxComplete qn) (fun _ => rfl) ?_,
    fun bs => happens_of (runXfer true core x.id (x.done + 1)) (fun _ => rfl) ?_,
    fun img => happens_of (runXfer false core x.id (x.done + 1)) (fun _ => rfl) ?_⟩
  · rintro s ⟨hhead, hidle, hbsh, ht, hacq, hclear⟩
    exact (mxStart_alone hhead hidle hbsh hclear).trans (mxRun_plain ht hacq [])
  · rintro s ⟨hrun, hres, ht, hrel, hclear, hprom⟩
    exact mxComplete_stores hrun hres ht hrel hclear hprom
  · rintro s ⟨⟨hx, hload, hready, ht, hheld, hleft, hawake, he, hchk⟩, hplain, hread⟩
    exact runXfer_one hx hload hready ht hheld hleft hawake he (loadElem_fills hchk hplain hread)
      (fillElem_next ((xferAt_congr (xferReached_cores.trans (xferBegun_cores s x)) core x.id).trans hx) _)
  · rintro s ⟨⟨hx, hload, hready, ht, hheld, hleft, hawake, he, hchk⟩, hread⟩
    exact runXfer_one hx hload hready ht hheld hleft hawake he (storeElem_begun ht hchk hread)
      (xferStored_next ((xferAt_congr (xferBegun_cores s x) core x.id).trans hx) _)

end Sys2Proof.Proofs
end

