-- ==== Sys2Proof/Proofs/TransactionWords.lean ====
section
/-!
PROOF. The words of transactions: TRY, COMMIT, ABORT and TSTAT, by members and by other threads, and the words that R364
forbids to members (R361 to R371).
-/
namespace Sys2Proof.Machine

/-! ## Words without a V operand, in any mode -/

section
variable {ins : Instr} {m : Sem} {s : State} {i : Issue} {w : Wave} {g : Mask} (B : m.Bare)
  (hsem : semOf ins = some m) (I : Issues s i w g) (h0 : activeLanes m.grd w g ≠ 0)
  (hlegal : m.legal s w i.hm = true) (hforbid : m.forbid w = false)

include B in
/-- The window serves none of their sources. -/
theorem countHits_bare (s : State) (w : Wave) (g : Mask) : countHits m s w g = s := by
  rw [counted_eq m s w g shapeNone (B.ops s w), hitsOf_none, counted_zero]

include B hlegal hforbid in
/-- Legality alone stands in their way. -/
theorem clear_bare : Clear m s i w g :=
  clear_of_ready (B.ops s w) (opsReady_none ..) hlegal (fun _ => hforbid) (B.hold ..) (.inr (B.tile ..)) (B.fmt ..)

include B hsem I h0 hlegal hforbid

/-- Such a word is its body's answer. -/
theorem exec_bare {t : State} {stay : Mask} (hbody : m.body s (soloCtx s i m.grd w g) = { st := t, stay := stay })
    (hbad : t.bad = s.bad) : exec ins s = .next (t.mapWave w.uid (leaveWord i g stay (fun _ => none))) :=
  exec_next hsem (issue_done (r := { st := t, stay := stay }) I (clear_bare B hlegal hforbid) h0
    (by rw [countHits_bare B]; exact hbody) rfl rfl rfl) (hbad.trans I.sound)

/-- Where its body aborts members, they abort once its threads have moved on (R369). -/
theorem exec_bare_aborts {lanes : Mask} {code own : Nat}
    (hbody : m.body s (soloCtx s i m.grd w g) = { st := s, abort := some (lanes, code, own) })
    (hs : ∀ n, standsBy s n w.uid = false) :
    exec ins s = .next (retireIfDone ((s.mapWave w.uid (leaveWord i g 0 (fun _ => none))).mapWave w.uid
      (fun v => abortTx v lanes code own)) w.uid) :=
  exec_next hsem
    (issue_abort (r := { st := s, abort := some (lanes, code, own) }) I (clear_bare B hlegal hforbid) h0
      (by rw [countHits_bare B]; exact hbody) rfl rfl rfl (hs _))
    ((retireIfDone_bad ..).trans I.sound)

end

/-! ## Words that members may not issue (R364) -/

/-- A word that is forbidden to members, as what it does to them: they abort. -/
def Sem.forbidden (m : Sem) : Sem :=
  { m with forbid := fun _ => false, body := fun s c => { st := s, abort := some (c.act, 9, 0) } }

section
variable {m : Sem} {s : State} {i : Issue}

/-- A share of members whose operands are ready aborts at a word that is forbidden to them. -/
theorem runShare_forbidden {p : Share} (htx : i.inTx = true) (hforbid : m.forbid p.rd = true)
    (h0 : m.active p.rd p.grp ≠ 0) (hsteady : p.rd.wsoft = []) (hfirm : ∀ t ∈ p.rd.threads, ∀ n ∈ t.soft, n < 16384)
    (hsound : ∀ l ∈ lanesOf (m.active p.rd p.grp), operandTrap p.rd l (m.live s p.rd l) = none) :
    runShare m i none s p (m.clearReady p) = runShare m.forbidden i none s p (m.forbidden.clearReady p) := by
  have hearly : ((lanesOf (m.active p.rd p.grp)).map (fun l => (l, m.live s p.rd l))).filterMap
      (fun x => laneTrap m.wsrc p.rd x.1 x.2) = [] := by
    rw [List.filterMap_map, List.filterMap_eq_nil_iff]
    intro l hl
    exact (laneTrap_steady hsteady hfirm ..).trans (hsound l hl)
  have h0 : (m.active p.rd p.grp == 0) = false := beq_eq_false_iff_ne.2 h0
  have hact : m.forbidden.active p.rd p.grp = m.active p.rd p.grp := rfl
  have hlive : m.forbidden.live s p.rd = m.live s p.rd := rfl
  have hbody : ∀ t c, m.forbidden.body t c = { st := t, abort := some (c.act, 9, 0) } := fun _ _ => rfl
  unfold runShare Sem.clearReady
  simp only [hact, hlive, hbody, show m.forbidden.wsrc = m.wsrc from rfl, show m.forbidden.forbid p.rd = false from rfl,
    hearly, htx, hforbid, bne, h0, Option.isSome_none, List.map_nil, maskOf_nil, and_not_zero, Bool.and_false,
    Bool.not_false, Bool.and_self, Bool.false_eq_true, if_false, if_true]
  rfl

variable {w : Wave} {g : Mask}

/-- So does the whole word, once nothing else holds it up. -/
theorem issueFull_forbidden (I : Issues s i w g) (htx : i.inTx = true) (hforbid : m.forbid w = true)
    (h0 : m.active w g ≠ 0) (C : Clear m.forbidden s i w g) : issueFull m s = issueFull m.forbidden s := by
  have hready : m.ready s ⟨w.uid, w, g⟩ = m.clearReady ⟨w.uid, w, g⟩ := ready_clear (m := m.forbidden) C
  have hformats : m.formats s w g (m.active w g) = [] := firstFormat_none C.tags
  calc issueFull m s
    _ = runShare m i none s ⟨w.uid, w, g⟩ (m.clearReady ⟨w.uid, w, g⟩) := by
      rw [issueFull_one (m := m) I C.legal C.hold hready, leaveWaiters_clear]
      simp only [Sem.clearReady, hformats, ite_self, firstFormat_nil, Bool.false_eq_true, if_false]
    _ = runShare m.forbidden i none s ⟨w.uid, w, g⟩ (m.forbidden.clearReady ⟨w.uid, w, g⟩) :=
      runShare_forbidden htx hforbid h0 I.steady I.firm C.sound
    _ = issueFull m.forbidden s := (issueFull_group I.group fun p hp => by
      obtain rfl := List.mem_singleton.1 hp
      exact C).symm

end

/-! ## Lanes of a mask that all answer the same -/

theorem maskOf_filter_all {a : Mask} {p : Nat → Bool} (h : ∀ l ∈ lanesOf a, p l = true) :
    maskOf ((lanesOf a).filter p) = a := by
  rw [List.filter_eq_self.2 h, maskOf_lanesOf]

theorem maskOf_filter_none {a : Mask} {p : Nat → Bool} (h : ∀ l ∈ lanesOf a, p l = false) :
    maskOf ((lanesOf a).filter p) = 0 := by
  rw [List.filter_eq_nil_iff.2 (fun l hl => by rw [h l hl]; exact Bool.false_ne_true), maskOf_nil]

/-! ## TRY (R362) -/

section
variable {f : Full} {s : State} {c : Ctx} {w : Wave}

theorem tryBody_handler (hm : c.hm = true) : tryBody f s c = { st := s } := if_pos hm

theorem tryBody_opens (hm : c.hm = false) (hw : s.wave? c.u = some w) (hopen : w.kettle.isOpen = false) :
    tryBody f s c = { st := s.mapWave c.u (fun w =>
      openTx w c.act (f.lo3 % 2 == 1) (relTarget c.pc f.imm16) s.nextId) } := by
  unfold tryBody
  simp only [hm, hw, hopen, Bool.not_false, Bool.false_eq_true, if_false, if_true]

/-- Threads outside wait for the transaction of others to close. -/
theorem tryBody_waits (hm : c.hm = false) (hw : s.wave? c.u = some w) (hopen : w.kettle.isOpen = true)
    (htx : c.tx = false) :
    tryBody f s c = { st := s.mapWave c.u (fun w => w.setWait c.act .openTx), stay := c.act } := by
  unfold tryBody
  simp only [hm, hw, hopen, htx, Bool.not_true, Bool.false_eq_true, if_false]

section
variable (hm : c.hm = false) (hw : s.wave? c.u = some w) (hopen : w.kettle.isOpen = true) (htx : c.tx = true)
include hm hw hopen htx

/-- Members whose depth is below 7 nest. -/
theorem tryBody_nests (hd : ∀ l ∈ c.lanes, (w.thread l).depth ≠ 7) :
    tryBody f s c =
      { st := s.mapWave c.u (fun v => v.mapLanes c.act (fun _ t => { t with depth := t.depth + 1 })) } := by
  have hdeep : maskOf (c.lanes.filter (fun l => (w.thread l).depth == 7)) = 0 :=
    maskOf_filter_none (fun l hl => beq_eq_false_iff_ne.2 (hd l hl))
  unfold tryBody
  simp only [hm, hw, hopen, htx, hdeep, and_not_zero, Bool.not_true, Bool.false_eq_true, if_false, beq_self_eq_true, if_true]

/-- Members at depth 7 abort. -/
theorem tryBody_tooDeep (h0 : c.act ≠ 0) (hd : ∀ l ∈ c.lanes, (w.thread l).depth = 7) :
    tryBody f s c = { st := s, abort := some (c.act, 0x0B, 0) } := by
  have hdeep : maskOf (c.lanes.filter (fun l => (w.thread l).depth == 7)) = c.act :=
    maskOf_filter_all (fun l hl => beq_iff_eq.2 (hd l hl))
  unfold tryBody
  simp only [hm, hw, hopen, htx, hdeep, BitVec.and_not_self, mapLanes_zero, State.mapWave_id, beq_eq_false_iff_ne.2 h0,
    Bool.not_true, Bool.false_eq_true, if_false, if_true]

end

/-! ## COMMIT, ABORT (R366, R370) -/

theorem commitBody_handler (hm : c.hm = true) : commitBody s c = { st := s } := if_pos hm

theorem setWait_zero (v : Wave) (x : Wait) : v.setWait 0 x = v := mapLanes_zero v _

/-- Members of a depth above 1 leave one level. -/
theorem commitBody_leaves (hm : c.hm = false) (hd : ∀ l ∈ c.lanes, (c.rd.thread l).depth > 1) :
    commitBody s c =
      { st := s.mapWave c.u (fun v => v.mapLanes c.act (fun _ t => { t with depth := t.depth - 1 })) } := by
  have hdeep : maskOf (c.lanes.filter (fun l => (c.rd.thread l).depth > 1)) = c.act :=
    maskOf_filter_all (fun l hl => decide_eq_true (hd l hl))
  unfold commitBody
  simp only [hm, hdeep, BitVec.and_not_self, setWait_zero, Bool.false_eq_true, if_false]

/-- Members at depth 1 wait for the others. -/
theorem commitBody_waits (hm : c.hm = false) (hd : ∀ l ∈ c.lanes, (c.rd.thread l).depth ≤ 1) :
    commitBody s c = { st := s.mapWave c.u (fun v => v.setWait c.act .commit), stay := c.act } := by
  have hdeep : maskOf (c.lanes.filter (fun l => (c.rd.thread l).depth > 1)) = 0 :=
    maskOf_filter_none (fun l hl => decide_eq_false (Nat.not_lt.2 (hd l hl)))
  unfold commitBody
  simp only [hm, hdeep, and_not_zero, mapLanes_zero, Bool.false_eq_true, if_false]

/-- Only members may commit outside handler mode, and they may. -/
theorem memberIssue_member {i : Issue} (hcur : s.cur = some i) (htx : i.inTx = true) (w : Wave) (hm : Bool) :
    memberIssue s w hm = true := by
  unfold memberIssue
  simp only [hcur, htx, Bool.or_true]

theorem semAbort_idle (htx : c.tx = false) : (semAbort f).body s c = { st := s } :=
  if_neg (by rw [htx]; exact Bool.false_ne_true)

theorem semAbort_aborts (htx : c.tx = true) :
    (semAbort f).body s c = { st := s, abort := some (c.act, 1, f.imm16.toNat % 256) } := if_pos htx

end

/-- A transaction's issue is in no handler. -/
theorem Issue.hm_of_inTx {i : Issue} (h : i.inTx = true) : i.hm = false := by
  unfold Issue.inTx at h
  unfold Issue.hm
  split at h
  · rename_i u hu; rw [hu]
  · cases h

end Sys2Proof.Machine

namespace Sys2Proof.Proofs
open Sys2Proof.Machine

/-- Settles O26: the word's effect is an abort of its Active members. -/
theorem forbiddenAborts : Obligations.ForbiddenAborts := by
  unfold Obligations.ForbiddenAborts
  intro ins m s i w g hsem I htx act h0 hforbid hlegal hhold htile R hfmt hs
  have C : Clear m.forbidden s i w g :=
    clear_of_ready (fun _ => rfl) R hlegal (fun _ => rfl) hhold (.inr htile) hfmt
  have hcount : countHits m.forbidden s w g = counted s w.uid (hitsOf (m.ops s) w act) :=
    counted_eq m.forbidden s w g (m.ops s) (fun _ => rfl)
  have habort := issue_abort (r := { st := counted s w.uid (hitsOf (m.ops s) w act), abort := some (act, 9, 0) }) I C h0
    (by rw [hcount]; rfl) rfl rfl rfl (hs _)
  exact exec_next hsem ((issueFull_forbidden I htx hforbid h0 C).trans habort) ((retireIfDone_bad ..).trans I.sound)

/-- Settles O28: TRY of threads outside a transaction opens one or waits; the others are their bodies. -/
theorem transactionResults : Obligations.TransactionResults := by
  unfold Obligations.TransactionResults
  intro f busy
  refine ⟨?_, ?_, ?_, ?_⟩
  · refine soloWord_of (m := semTry f) (fun _ => rfl) (fun _ _ _ => rfl) (fun _ _ hk => hk) (fun _ _ _ => rfl)
      (fun _ _ _ => rfl) (fun _ _ _ => rfl) (fun s c _ _ hw _ htx => ?_) (fun s c _ hb => ?_)
    · show tryBody f s c = _
      cases hm : c.hm with
      | true =>
        have hbusy : busy c = false := by simp only [busy, hm, Bool.not_true, Bool.false_and]
        rw [tryBody_handler hm, hbusy]
        rfl
      | false =>
        have hbusy : busy c = c.rd.kettle.isOpen := by simp only [busy, hm, Bool.not_false, Bool.true_and]
        cases hopen : c.rd.kettle.isOpen with
        | false =>
          rw [tryBody_opens hm hw hopen, hbusy, hopen]
          rfl
        | true =>
          rw [tryBody_waits hm hw hopen htx, hbusy, hopen]
          rfl
    · split
      · exact hb
      · split
        · exact hb
        · exact hb
  · exact soloWord_bare (m := semCommit f) (Sem.bare_of_plain rfl) (fun _ => rfl)
      (fun _ _ hm => Bool.or_eq_true_iff.2 (.inl hm)) (fun _ _ hm _ => commitBody_handler hm) (fun _ _ => rfl)
  · exact soloWord_of (m := semAbort f) (fun _ => rfl) (fun _ _ _ => rfl) (fun _ _ _ => rfl) (fun _ _ _ => rfl)
      (fun _ _ _ => rfl) (fun _ _ _ => rfl) (fun _ _ _ _ _ _ htx => semAbort_idle htx) (fun _ _ _ hb => hb)
  · exact laneWord_plain (m := semTstat f) rfl rfl (fun _ _ _ => rfl) (fun _ _ _ => rfl)

/-- Settles O29: each word is its body, whose members all stand at one side of the depth it asks for. -/
theorem memberResults : Obligations.MemberResults := by
  unfold Obligations.MemberResults
  intro f s i w g I htx hopen hs act on h0
  have hm : i.hm = false := Issue.hm_of_inTx htx
  have htry : (semTry f).Bare := Sem.bare_of_plain rfl
  have hcommit : (semCommit f).Bare := Sem.bare_of_plain rfl
  have habort : (semAbort f).Bare := Sem.bare_of_plain rfl
  have hmember : memberIssue s w i.hm = true := memberIssue_member I.cur htx w i.hm
  refine ⟨fun hlegal => ?_, fun hd => ?_, fun hd => ?_, ?_⟩
  · rw [← hm] at hlegal
    exact ⟨fun hd => exec_bare htry rfl I h0 hlegal rfl (tryBody_nests hm I.found hopen htx hd) rfl,
      fun hd => exec_bare_aborts htry rfl I h0 hlegal rfl (tryBody_tooDeep hm I.found hopen htx h0 hd) hs⟩
  · exact exec_bare hcommit rfl I h0 hmember rfl (commitBody_leaves hm hd) rfl
  · exact exec_bare hcommit rfl I h0 hmember rfl (commitBody_waits hm hd) rfl
  · exact exec_bare_aborts habort rfl I h0 rfl rfl (semAbort_aborts htx) hs

end Sys2Proof.Proofs
end

