-- ==== Sys2Proof/Proofs/Cooperation.lean ====
section
/-!
PROOF. Words with which waves work together (R378 to R384), and the ends of waits and barriers (R373 to R381, R398).
-/
namespace Sys2Proof.Machine

section
variable {f : Full} {s : State} {c : Ctx} {t : Team}

/-! ## ELECT and the barriers (R378 to R381) -/

/-- One Active thread is elected, the lowest. -/
theorem semElect_body (h0 : c.act ≠ 0) : (semElect f).body s c = { st := s.mapWave c.u (fun w =>
    w.mapLanes c.act (fun i t => t.setPred f.dn (some i == lowest c.act))) } := by
  obtain ⟨l, hl⟩ : ∃ l, lowest c.act = some l := by
    obtain ⟨k, hk⟩ := exists_lane h0
    exact Option.ne_none_iff_exists'.1 (fun hn => List.ne_nil_of_mem hk (List.head?_eq_none_iff.1 hn))
  have hlow : c.lanes.headD 0 = l := by rw [headD_lanes, hl]; rfl
  have hsome : ∀ i : Nat, (some i == some l) = (i == l) := fun _ => rfl
  unfold semElect
  simp only [hlow, hl, hsome]

theorem barBody_handler {b k : Nat} (hm : c.hm = true) : barBody b k s c = { st := s } := if_pos hm

/-- A barrier that is open for as many waves, or not open, takes the threads in. -/
theorem barBody_waits {b k : Nat} (hm : c.hm = false) (ht : s.team? c.rd.team = some t) (hk : k ≤ teamNW t)
    (hc : (fget Bar.idle t.bars b).isOpen = true → (fget Bar.idle t.bars b).c = k) :
    barBody b k s c =
      { st := waiting (.bar b k) (s.mapTeam t.uid (fun u =>
          { u with bars := fset Bar.idle u.bars b { fget Bar.idle t.bars b with isOpen := true, c := k } })) c
        stay := c.act } := by
  have hfits : (decide (k > teamNW t) || (fget Bar.idle t.bars b).isOpen && (fget Bar.idle t.bars b).c != k) = false := by
    rw [decide_eq_false (Nat.not_lt.2 hk), Bool.false_or]
    cases ho : (fget Bar.idle t.bars b).isOpen with
    | false => rfl
    | true => rw [hc ho, bne_self_eq_false, Bool.and_false]
  unfold barBody
  simp only [hm, ht, hfits, Bool.false_eq_true, if_false]
  rfl

/-- The register form reads the number and the count from a W register; in handler mode any value will do. -/
theorem semBarReg_body (h : c.hm = true ∨ (c.rd.wreg (f.an % 64)).toNat < 1024) :
    (semBarReg f).body s c =
      barBody ((c.rd.wreg (f.an % 64)).toNat % 16) ((c.rd.wreg (f.an % 64)).toNat / 16) s c := by
  refine if_neg ?_
  obtain h | h := h
  · rw [h]; simp
  · simpa using fun hn => absurd hn (Nat.not_le.2 h)

/-- A barrier word, from its body. -/
theorem barWord_of {ins : Instr} {m : Sem} {ok : Ctx → Prop} {b k : Ctx → Nat} {t : Team} (B : m.Bare)
    (hex : ∀ s, exec ins s = execX m s) (hlegal : ∀ s w hm, m.legal s w hm = true)
    (hbody : ∀ s c, c.hm = true ∨ ok c → m.body s c = barBody (b c) (k c) s c) :
    SoloWord ins m.grd (fun _ c => c.hm = true) (fun s _ => s) (fun _ => 0) ∧
    SoloWord ins m.grd
      (fun s c => c.hm = false ∧ ok c ∧ s.team? c.rd.team = some t ∧ k c ≤ teamNW t ∧
        ((fget Bar.idle t.bars (b c)).isOpen = true → (fget Bar.idle t.bars (b c)).c = k c))
      (fun s c => waiting (.bar (b c) (k c)) (s.mapTeam t.uid (fun u =>
        { u with bars := fset Bar.idle u.bars (b c) { fget Bar.idle t.bars (b c) with isOpen := true, c := k c } })) c)
      (fun c => c.act) := by
  constructor
  · exact soloWord_bare B hex (fun s c _ => hlegal s c.rd c.hm)
      (fun s c hm _ => (hbody s c (.inl hm)).trans (barBody_handler hm)) (fun _ _ => rfl)
  · exact soloWord_bare B hex (fun s c _ => hlegal s c.rd c.hm)
      (fun s c ⟨hm, hok, ht, hk, hc⟩ _ => (hbody s c (.inr hok)).trans (barBody_waits hm ht hk hc))
      (fun _ _ => waiting_bad ..)

/-! ## FETCHW, CTAIL, CSEQ (R382 to R384) -/

/-- A fetch of a window that lies in the team's scratchpad is asked for. -/
theorem fetchwBody_asks {o : Nat} (ht : s.team? c.rd.team = some t) (ha : o % 16 = 0) (hb : o + 16 ≤ t.spTotal) :
    fetchwBody o s c = { st := s.mapTeam t.uid (fun u => { u with fetchw := u.fetchw ++ [(o, c.u, s.nextId)] }) } := by
  unfold fetchwBody
  simp only [ht, ha, ne_eq, not_true_eq_false, if_false, Nat.not_lt.2 hb]

theorem ctailTraps_none (he : (c.rd.wreg (f.bn % 64)).toNat < 64) (ha : (c.rd.wpair (f.an % 64)).toNat % 64 = 0)
    (hp : (c.rd.wpair (f.an % 64)).toNat < 2 ^ 60) (ho : engOpen s (c.rd.wreg (f.bn % 64)).toNat c.ctxNo = true) :
    ctailTraps f s c = [] := by
  unfold ctailTraps
  simp only [engNumber_some he, ha, Nat.div_eq_of_lt hp, ho, ne_eq, not_true_eq_false, if_false, Bool.not_true,
    Bool.false_eq_true]

/-- CTAIL gives an open engine a new tail. -/
theorem ctailBody_gives (he : (c.rd.wreg (f.bn % 64)).toNat < 64) (ha : (c.rd.wpair (f.an % 64)).toNat % 64 = 0)
    (hp : (c.rd.wpair (f.an % 64)).toNat < 2 ^ 60) (ho : engOpen s (c.rd.wreg (f.bn % 64)).toNat c.ctxNo = true) :
    ctailBody f s c =
      { st := (s.mapWave c.u (·.raise 5)).mapEngine (c.rd.wreg (f.bn % 64)).toNat (fun x =>
          { x with tails := x.tails ++ [((c.rd.wpair (f.an % 64)).toNat, some c.u, some c.rd.team)] }) } := by
  unfold ctailBody
  simp only [ctailTraps_none he ha hp ho, Nat.mod_eq_of_lt he, List.isEmpty_nil, Bool.not_true, Bool.false_eq_true, if_false]

/-- CTAIL goes on once the wave's stores have left the queue and its loads are performed. -/
theorem semCtail_hold {w : Wave} (hq : w.cnt.stq = 0) (hr : readsDone s w s.nextId (fun _ => true) = true)
    (hc : counterFull w [5] = false) (a : Mask) : (semCtail f).hold s w a = false := by
  show (_ && _ && (w.cnt.stq != 0 || counterFull w [5] || !readsDone s w s.nextId (fun _ => true))) = false
  rw [hq, hr, hc]
  exact Bool.and_false _

theorem semCseq_body (he : (c.rd.wreg (f.an % 64)).toNat < 64)
    (ho : engOpen s (c.rd.wreg (f.an % 64)).toNat c.ctxNo = true) (h0 : c.act ≠ 0) (htx : c.tx = false) :
    (semCseq f).body s c = { st := asked 2 f.dn .n64 (.cseq (c.rd.wreg (f.an % 64)).toNat) s c } := by
  unfold semCseq
  simp only [engNumber_some he, ho, askFlight_asks h0 htx, Bool.not_true, Bool.false_eq_true, if_false]

end

/-! ## Waits that end without an effect of their own (R373, R374, R376) -/

/-- Waits whose end, if they have one, only lets the thread go on: WAITC on another counter than LDQ, and WAITL. -/
def Wait.Plain : Wait → Prop
  | .waitc k _ _ => k ≠ 0
  | .waitl .. | .none | .join _ | .bar .. | .barg _ => True
  | _ => False

/-- The condition of such a wait holds. -/
def Wait.over (s : State) (w : Wave) : Wait → Bool
  | .waitc k v _ => decide (w.cnt.get k ≤ v)
  | .waitl comp idx v => lapReached s comp idx v
  | _ => false

section
variable {s : State} {u : Nat} {w : Wave} {x : Wait}

theorem waitEnd_plain (h : x.Plain) : waitEnd s w x = if x.over s w then .done else .still := by
  cases x with
  | waitc k v scope => rfl
  | waitl comp idx v => rfl
  | none | join _ | bar _ _ | barg _ => rfl
  | _ => exact h.elim

/-- The end of such a wait lets its thread go on and does nothing else. -/
theorem endWait_plain (h : x.Plain) (ho : x.over s w = true) {t : State} {v : Wave} {l : Nat}
    (hv : t.wave? u = some v) (hl : (v.thread l).wait = x) : endWait t u l w x = resumeNext t u l := by
  have heff : waitEffect t u l w x = t := by
    cases x with
    | waitc k n scope => exact if_neg (fun hk => h hk.1)
    | waitl comp idx n => rfl
    | _ => cases ho
  unfold endWait
  simp only [heff, hv, hl, Option.any_some, beq_self_eq_true, if_true]

/-- A thread that waits no more goes on at the next word (R373). -/
def goOn (l : Nat) (v : Wave) : Wave :=
  (v.mapThread l (fun t => { t with wait := .none })).setPc (bitM l) (fun _ => pcNext (v.pcOf l))

theorem resumeNext_wave {t : State} {v : Wave} (hv : t.wave? u = some v) (l : Nat) :
    (resumeNext t u l).wave? u = some (goOn l v) := by
  show (t.mapWave u (goOn l)).wave? u = _
  rw [State.mapWave_wave t u (goOn l) u (fun _ h => h), if_pos rfl, hv]
  rfl

theorem bitM_getLsbD {l : Nat} (hl : l < 64) (k : Nat) : (bitM l).getLsbD k = decide (k = l) := by
  have h := maskOf_bit [l] (by simpa using hl) k
  simpa [maskOf] using h

/-- Another thread stays where it is. -/
theorem goOn_thread {l : Nat} (hl : l < 64) {k : Nat} (hk : k ≠ l) (v : Wave) : (goOn l v).thread k = v.thread k := by
  have hbit : (bitM l).getLsbD k = false := by rw [bitM_getLsbD hl, decide_eq_false hk]
  unfold goOn Wave.setPc Wave.mapLanes Wave.mapThread Wave.thread
  simp only [List.getD_eq_getElem?_getD, List.getElem?_mapIdx, hbit, if_neg hk, Bool.false_eq_true, if_false]
  cases v.threads[k]? <;> rfl

/-- Threads whose waits end one after the other: each finds its wait as the first of them did. -/
theorem foldl_endWaits {f : State → Nat → State} {wait : Nat → Wait} {due : Nat → Bool} {ls : List Nat} :
    (∀ l ∈ ls, due l = true → ∀ t v, t.wave? u = some v → (v.thread l).wait = wait l → f t l = resumeNext t u l) →
    (∀ l ∈ ls, due l = false → ∀ t, f t l = t) → ls.Nodup → (∀ l ∈ ls, l < 64) →
    ∀ (t : State) (v : Wave), t.wave? u = some v → (∀ l ∈ ls, (v.thread l).wait = wait l) →
      ls.foldl f t = (ls.filter due).foldl (fun t l => resumeNext t u l) t := by
  induction ls with
  | nil => intro _ _ _ _ t v _ _; rfl
  | cons l ls ih =>
    intro hdue hstill hn hlt t v hv hw
    obtain ⟨hl, hlt'⟩ := List.forall_mem_cons.1 hlt
    obtain ⟨hnot, hn⟩ := List.nodup_cons.1 hn
    have ih := ih (List.forall_mem_cons.1 hdue).2 (List.forall_mem_cons.1 hstill).2 hn hlt'
    obtain ⟨hwl, hw⟩ := List.forall_mem_cons.1 hw
    rw [List.foldl_cons]
    cases hd : due l with
    | false =>
      rw [hstill l List.mem_cons_self hd, List.filter_cons_of_neg (by rw [hd]; exact Bool.false_ne_true)]
      exact ih t v hv hw
    | true =>
      rw [hdue l List.mem_cons_self hd t v hv hwl, List.filter_cons_of_pos hd, List.foldl_cons]
      refine ih _ _ (resumeNext_wave hv l) (fun k hk => ?_)
      rw [goOn_thread hl (ne_of_mem_of_not_mem hk hnot)]
      exact hw k hk

theorem logWaits_nil (s : State) (w : Wave) : logWaits s w [] = s := rfl

/-- Where all threads wait so, those whose conditions hold go on, and nothing else happens. -/
theorem waitConditionMet_plain (hw : s.wave? u = some w) (hp : ∀ l ∈ lanesOf w.running, (w.thread l).wait.Plain) :
    waitConditionMet u s = ((lanesOf w.running).filter (fun l => (w.thread l).wait.over s w)).foldl
      (fun t l => resumeNext t u l) s := by
  have hends : ∀ l ∈ lanesOf w.running, waitEnd s w (w.thread l).wait =
      if (w.thread l).wait.over s w then .done else .still := fun l hl => waitEnd_plain (hp l hl)
  have hpages : ((lanesOf w.running).map (fun l => (l, (w.thread l).wait, waitEnd s w (w.thread l).wait))).filterMap
      (fun p => match p.2.2 with
        | .page path va => if w.members.getLsbD p.1 then none else some (p.1, path, va)
        | _ => none) = [] := by
    rw [List.filterMap_map, List.filterMap_eq_nil_iff]
    intro l hl
    simp only [Function.comp_apply, hends l hl]
    cases (w.thread l).wait.over s w <;> rfl
  unfold waitConditionMet
  simp only [hw, List.foldl_map]
  refine (congrArg (logWaits _ w) hpages).trans ((logWaits_nil _ w).trans ?_)
  refine foldl_endWaits (wait := fun l => (w.thread l).wait) (fun l hl hd t v hv hwait => ?_) (fun l hl hd t => ?_)
    (lanesOf_nodup _) (fun l hl => BitVec.lt_of_getLsbD ((mem_lanesOf _ l).1 hl)) s w hw (fun _ _ => rfl)
  · rw [hends l hl, hd]
    exact endWait_plain (hp l hl) hd hv hwait
  · rw [hends l hl, hd]
    rfl

end

/-! ## Barriers complete (R380, R381) -/

/-- At a full barrier of a team in one core, whose waves' releases are done, all that wait go on. -/
theorem barrierComplete_releases {s : State} {t : Team} {b : Nat} (ht : s.team? t.uid = some t) (hs : t.saddle = false)
    (hf : barFull s t b = true)
    (hr : ∀ w ∈ liveWaves s t, w.num ∈ (fget Bar.idle t.bars b).arr → releasedAt s w false = true) :
    barrierComplete t.uid b s = (releaseWaits s ((liveWaves s t).map (·.uid)) (Wait.atBar b)).mapTeam t.uid (fun t =>
      { t with bars := fset Bar.idle t.bars b Bar.idle }) := by
  have hall : ((liveWaves s t).filter (fun w => (fget Bar.idle t.bars b).arr.contains w.num)).all
      (fun w => releasedAt s w false) = true := by
    refine List.all_eq_true.2 (fun w hw => ?_)
    obtain ⟨hw, harr⟩ := List.mem_filter.1 hw
    exact hr w hw (List.contains_iff_mem.1 harr)
  unfold barrierComplete
  simp only [ht, hs, hf, hall, Bool.not_true, Bool.or_self, Bool.false_eq_true, if_false]

/-- At a gang barrier at which all waves of the gang have arrived, and whose releases are done, all go on. -/
theorem gangBarrierComplete_releases {s : State} {t : Team} {n : Nat} (ht : s.team? t.uid = some t) (hn : n < 4)
    (hw : ((gangOf s t).map (liveWaves s)).flatten ≠ [])
    (hr : ∀ p ∈ gangOf s t, bargArrived s p n = true ∧ ∀ w ∈ liveWaves s p, releasedAt s w true = true) :
    gangBarrierComplete t.uid n s =
      (gangOf s t).foldl (fun s p => s.mapTeam p.uid (fun p =>
          { p with bargArrived := p.bargArrived.filter (fun k => k / 4096 != n) }))
        (releaseWaits (((gangOf s t).map (liveWaves s)).flatten.foldl (fun s w => acquireNow s w.uid) s)
          (((gangOf s t).map (liveWaves s)).flatten.map (·.uid)) (Wait.atBarg n)) := by
  have harr : (gangOf s t).all (bargArrived s · n) = true := List.all_eq_true.2 (fun p hp => (hr p hp).1)
  have hrel : ((gangOf s t).map (liveWaves s)).flatten.all (releasedAt s · true) = true := by
    refine List.all_eq_true.2 (fun w hw => ?_)
    obtain ⟨ws, hws, hw⟩ := List.mem_flatten.1 hw
    obtain ⟨p, hp, rfl⟩ := List.mem_map.1 hws
    exact (hr p hp).2 w hw
  have hsome : ((gangOf s t).map (liveWaves s)).flatten.isEmpty = false := List.isEmpty_eq_false_iff.2 hw
  unfold gangBarrierComplete
  simp only [ht, harr, hrel, hsome, ge_iff_le, Nat.not_le.2 hn, decide_false, Bool.not_true, Bool.or_self,
    Bool.false_eq_true, if_false]

/-! ## A waiting RTH takes its unit back (R398) -/

theorem mxReservationReacquire_returns {s : State} {u : Nat} {w : Wave} (hw : s.wave? u = some w)
    (hwait : ∃ l ∈ lanesOf w.running, (w.thread l).wait = .reacquire) (hmust : mustReacquire s w = true)
    (hfree : (s.quad w.qn).mx.holder = none) :
    mxReservationReacquire u s = returnNow ((s.mapQuad w.qn (fun q =>
      { q with mx := { q.mx with holder := some (w.team, w.num) } })).mapTeam w.team (fun t =>
        { t with holders := t.holders.filter (· != w.num) })) u := by
  have hany : (lanesOf w.running).any (fun l => (w.thread l).wait == .reacquire) = true := by
    obtain ⟨l, hl, hx⟩ := hwait
    exact List.any_eq_true.2 ⟨l, hl, beq_iff_eq.2 hx⟩
  unfold mxReservationReacquire reacquire
  simp only [hw, hany, hmust, hfree, Option.isSome_none, Bool.not_true, Bool.false_and, Bool.false_eq_true, if_false, if_true]

end Sys2Proof.Machine

namespace Sys2Proof.Proofs
open Sys2Proof.Machine

/-- Settles O37: each word is its body, and the operands of the V forms are those of the lowest Active lane. -/
theorem cooperationResults : Obligations.CooperationResults := by
  unfold Obligations.CooperationResults
  intro f t bar v fetches fetched low e a
  refine ⟨?_, ?_, ?_, ?_, ?_, ?_, ?_, ?_, ?_⟩
  -- ELECT
  · exact soloWord_of (m := semElect f) (fun _ => rfl) (fun _ _ _ => rfl) (fun _ _ _ => rfl) (fun _ _ _ => rfl)
      (fun _ _ _ => rfl) (fun _ _ _ => rfl) (fun _ _ _ h0 _ _ _ => semElect_body h0) (fun _ _ _ hb => hb)
  -- BAR
  · exact barWord_of (m := semBarImm f) (Sem.bare_of_plain rfl) (fun _ => rfl) (fun _ _ _ => rfl) (fun _ _ _ => rfl)
  · exact barWord_of (m := semBarReg f) (Sem.bare_of_plain rfl) (fun _ => rfl) (fun _ _ _ => rfl)
      (fun _ _ h => semBarReg_body h)
  -- BARG
  · exact soloWord_bare (m := semBarg f) (Sem.bare_of_plain rfl) (fun _ => rfl) (fun _ _ _ => rfl)
      (fun _ _ hm _ => if_pos hm) (fun _ _ => rfl)
  · exact soloWord_bare (m := semBarg f) (Sem.bare_of_plain rfl) (fun _ => rfl) (fun _ _ _ => rfl)
      (fun _ _ hm _ => if_neg (by rw [hm]; exact Bool.false_ne_true)) (fun _ _ => waiting_bad ..)
  -- FETCHW
  · exact soloWord_bare (m := semFetchwImm f) (Sem.bare_of_plain rfl) (fun _ => rfl) (fun _ _ hk => hk.1)
      (fun s c ⟨_, ht, ha, hb⟩ _ => fetchwBody_asks ht ha hb) (fun _ _ => rfl)
  · refine waveWord_of (m := semFetchwReg f) (fun _ => rfl) (fun _ _ _ => rfl) (fun _ _ _ _ hk => hk.1)
      (fun _ _ _ _ _ => rfl) (fun _ _ _ _ _ => rfl) (fun _ _ _ _ _ => rfl) ?_ (fun _ _ _ hb => hb)
    rintro s c ⟨_, ht, ha, hb⟩ _ _ _ _
    refine ⟨{ st := fetched s c (low c) }, ?_, rfl, rfl, rfl, rfl, rfl, fun _ => rfl⟩
    show fetchwBody ((c.rd.thread (c.lanes.headD 0)).reg f.an).toNat s c = _
    rw [headD_lanes]
    exact fetchwBody_asks ht ha hb
  -- CTAIL
  · exact soloWord_of (m := semCtail f) (fun _ => rfl) (fun _ _ _ => rfl) (fun _ _ _ => rfl)
      (fun s c ⟨hq, hr, hc, _⟩ => semCtail_hold hq hr hc c.act) (fun _ _ _ => rfl) (fun _ _ _ => rfl)
      (fun s c ⟨_, _, _, he, ha, hp, ho⟩ _ _ _ _ => ctailBody_gives he ha hp ho) (fun _ _ _ hb => hb)
  -- CSEQ
  · exact waveWord_body (m := semCseq f) (fun _ => rfl) (fun _ _ _ => rfl) (fun _ _ _ => rfl) (fun _ _ _ _ _ => rfl)
      (fun _ _ _ _ _ => rfl) (fun _ _ _ _ _ => rfl) (fun _ _ ⟨he, ho⟩ h0 htx => semCseq_body he ho h0 htx)
      (fun _ _ _ => rfl)

/-- Settles O46: such a wait's end lets its thread go on alone, and a barrier's lets all go on that wait there. -/
theorem waitEvents : Obligations.WaitEvents := by
  unfold Obligations.WaitEvents
  intro u w t go
  refine ⟨happens_of (waitConditionMet u) (fun _ => rfl) ?_, fun b => happens_of (barrierComplete t.uid b) (fun _ => rfl) ?_,
    fun n => happens_of (gangBarrierComplete t.uid n) (fun _ => rfl) ?_,
    happens_of (mxReservationReacquire u) (fun _ => rfl) ?_⟩
  · rintro s ⟨hw, hp⟩
    exact waitConditionMet_plain hw hp
  · rintro s ⟨ht, hs, hf, hr⟩
    exact barrierComplete_releases ht hs hf hr
  · rintro s ⟨ht, hn, hws, hr⟩
    exact gangBarrierComplete_releases ht hn hws hr
  · rintro s ⟨hw, hwait, hmust, hfree⟩
    exact mxReservationReacquire_returns hw hwait hmust hfree

end Sys2Proof.Proofs
end

