-- ==== Sys2Proof/Proofs/MemoryKept.lean ====
section
/-!
PROOF. What leaves the bytes of memory alone: every operation of a word, an event or a unit that does not write them.
-/
namespace Sys2Proof.Machine

@[simp] theorem foldl_memory {α : Type} {g : State → α → State} (hg : ∀ t a, (g t a).mem = t.mem) (l : List α) :
    ∀ s : State, (l.foldl g s).mem = s.mem := by
  induction l with
  | nil => exact fun _ => rfl
  | cons a l ih => exact fun s => (ih _).trans (hg s a)

theorem foldl_fst_memory {α β : Type} {g : State × β → α → State × β} (hg : ∀ r a, (g r a).1.mem = r.1.mem)
    (l : List α) :
    ∀ r : State × β, (l.foldl g r).1.mem = r.1.mem := by
  induction l with
  | nil => exact fun _ => rfl
  | cons a l ih => exact fun r => (ih _).trans (hg r a)

@[simp] theorem ite_memory {p : Prop} [Decidable p] (a b : State) :
    (if p then a else b).mem = if p then a.mem else b.mem :=
  apply_ite ..
@[simp] theorem ite_st {p : Prop} [Decidable p] (a b : Res) :
    (if p then a else b).st = if p then a.st else b.st := apply_ite ..
@[simp] theorem ite_fst {p : Prop} [Decidable p] {α : Type} (a b : State × α) :
    (if p then a else b).1 = if p then a.1 else b.1 :=
  apply_ite ..

/-- A state taken from a pair. -/
theorem fst_memory {α : Type} {p : State × α} {t : State} {a : α} {m : Memory} (e : p = (t, a)) (h : p.1.mem = m) :
    t.mem = m := by
  rw [← h, e]

theorem SameAbove.memory {s t : State} (h : SameAbove s t) : t.mem = s.mem := by
  obtain ⟨_, _, _, rfl⟩ := h
  rfl

/-! ## The named operations over the state -/

@[simp] theorem retireWave_memory (s : State) (u : Nat) : (retireWave s u).mem = s.mem := by
  unfold retireWave
  split <;> simp

@[simp] theorem setTile_memory (s : State) (t : Team) (i : Nat) (f : DWord → DWord) :
    (State.setTile s t i f).mem = s.mem :=
  foldl_memory (fun _ _ => by simp) _ _

@[simp] theorem addReaders_memory (s : State) (t : Team) (i : Nat) (up : Bool) :
    (State.addReaders s t i up).mem = s.mem :=
  foldl_memory (fun _ _ => by simp) _ _

@[simp] theorem freeMxTiles_memory (s : State) (o : MxOp) : (freeMxTiles s o).mem = s.mem := by
  unfold freeMxTiles
  split <;> simp

@[simp] theorem dropPromotion_memory (s : State) (o : MxOp) : (dropPromotion s o).mem = s.mem := by
  unfold dropPromotion
  split <;> rfl

@[simp] theorem dropMxOps_memory (s : State) (qn : Nat) (p : MxOp → Bool) : (dropMxOps s qn p).mem = s.mem := by
  simp [dropMxOps]

@[simp] theorem retireAndCancel_memory (s : State) (u : Nat) : (retireAndCancel s u).mem = s.mem := by
  unfold retireAndCancel
  split <;> simp

@[simp] theorem retireIfDone_memory (s : State) (u : Nat) : (retireIfDone s u).mem = s.mem := by
  unfold retireIfDone
  split <;> simp

@[simp] theorem recordFail_memory (s : State) (t : Team) (r : FaultRec) : (recordFail s t r).mem = s.mem := by
  simp [recordFail]

@[simp] theorem endTeam_memory (s : State) (tu : Nat) (r : FaultRec) (kill : Bool) :
    (endTeam s tu r kill).mem = s.mem := by
  unfold endTeam
  split <;> simp

@[simp] theorem deliver_memory (s : State) (u : Nat) : (deliver s u).mem = s.mem := by
  unfold deliver
  (repeat' split) <;> simp

@[simp] theorem takeTraps_memory (s : State) (u : Nat) (pc : Word) (ts : List Trap) :
    (takeTraps s u pc ts).mem = s.mem := by
  unfold takeTraps
  split
  · rfl
  · extract_lets +onlyGivenNames os
    clear_value os
    split
    · rfl
    · extract_lets +onlyGivenNames lanes isAfter
      split
      · rfl
      · split
        · simp
        · exact (deliver_memory ..).trans (foldl_memory (fun _ _ => State.mapWave_mem ..) _ _)

@[simp] theorem takeDefer_memory (s : State) (u : Nat) (d : Defer) : (takeDefer s u d).mem = s.mem := by
  unfold takeDefer
  split <;> simp

@[simp] theorem saveWave_memory (s : State) (u : Nat) : (saveWave s u).mem = s.mem := by
  unfold saveWave
  split <;> simp

@[simp] theorem returnHandler_memory (s : State) (u : Nat) : (returnHandler s u).mem = s.mem := by
  unfold returnHandler
  split
  · rfl
  · extract_lets +onlyGivenNames ends t
    have ht : t.mem = s.mem := rfl
    clear_value t
    split
    · exact ht
    · split
      · simp [ht]
      · (repeat' split) <;> simp [ht]

/-! ## The device's memory below addresses -/

@[simp] theorem markBytes_memory (s : State) (ad : List Nat) (m : Mark) : (markBytes s ad m).mem = s.mem :=
  (rfl)

@[simp] theorem activate_memory (s : State) (n row : Nat) : (activate s n row).mem = s.mem :=
  (SameAbove.activate ..).memory

@[simp] theorem sealRow_memory (s : State) (row : Nat) (k : Seal) : (sealRow s row k).mem = s.mem :=
  (SameAbove.sealRow ..).memory

@[simp] theorem checkSeal_memory (s : State) (line : Nat) (k : Seal) : (checkSeal s line k).mem = s.mem :=
  (SameAbove.checkSeal ..).memory

@[simp] theorem evict_memory (s : State) (n line : Nat) : (evict s n line).mem = s.mem :=
  (SameAbove.evict ..).memory

@[simp] theorem useLine_memory (write : Bool) (h' : Home) (s : State) (line : Nat) :
    (useLine write h' s line).mem = s.mem :=
  (SameAbove.useLine ..).memory

@[simp] theorem useLines_memory (s : State) (write : Bool) (h' : Home) (ad : List Nat) :
    (useLines s write h' ad).mem = s.mem := by
  simp [useLines]

@[simp] theorem openRow_memory (s : State) (n row : Nat) (k : Seal) : (openRow s n row k).mem = s.mem := by
  simp [openRow]

/-! ## From an access to its DRAM rows -/

@[simp] theorem useLoc_memory (s : State) (write : Bool) (ctx die path va : Nat) (l : Loc) :
    (useLoc s write ctx die path va l).mem = s.mem := by
  simp [useLoc]

@[simp] theorem sendFlit_memory (s : State) (dev : Nat) (x : Flit) : (sendFlit s dev x).mem = s.mem := by
  unfold sendFlit
  split <;> simp

@[simp] theorem askPeer_memory (s : State) (ctx path va size : Nat) (a : PeerAct) :
    (askPeer s ctx path va size a).mem = s.mem := by
  simp [askPeer]

/-! ## Float flags and FPX -/

@[simp] theorem raiseFlags_memory (s : State) (u qn : Nat) (fs : List (Nat × BitVec 5)) :
    (raiseFlags s u qn fs).mem = s.mem := by
  simp [raiseFlags]

/-! ## Operand forms and the common course of an instruction -/

@[simp] theorem logRegs_memory (s : State) (u : Nat) (rs : List Nat) : (logRegs s u rs).1.mem = s.mem := by
  unfold logRegs
  split <;> simp

@[simp] theorem writeV_memory (s : State) (c : Ctx) (ws : List VWrite) : (writeV s c ws).1.mem = s.mem := by
  simp [writeV]

@[simp] theorem lanewise_memory (g : Ctx → Nat → Thread → LaneOut) (s : State) (c : Ctx) :
    (lanewise g s c).st.mem = s.mem := by
  simp [lanewise]

@[simp] theorem takeEffects_memory (s : State) (e : Late) : (takeEffects s e).mem = s.mem := by
  unfold takeEffects
  split <;> simp

@[simp] theorem takeBoth_memory (s : State) (u : Nat) (es : List Late) : (takeBoth s u es).mem = s.mem := by
  unfold takeBoth
  split <;> simp

@[simp] theorem takeInOrder_memory (s : State) (qn : Nat) (late : List Late) (e : Late) :
    (takeInOrder s qn late e).mem = s.mem := by
  simp [takeInOrder]

@[simp] theorem illegalAll_memory (s : State) (i : Issue) (tval : DWord) : (illegalAll s i tval).mem = s.mem := by
  simp [illegalAll]

@[simp] theorem startWait_memory (s : State) (u l : Nat) (x : Wait) : (startWait s u l x).mem = s.mem :=
  (rfl)

@[simp] theorem leaveWaiters_memory (s : State) (p : Share) (r : Ready) : (leaveWaiters s p r).mem = s.mem := by
  unfold leaveWaiters
  split <;> simp

/-! ## Long-latency producers -/

@[simp] theorem startFlight_memory (s : State) (c : Ctx) (fl : Flight) : (startFlight s c fl).1.mem = s.mem := by
  simp [startFlight]

@[simp] theorem produce_memory (g : Ctx → Nat → Thread → Nat × Ety × Nat × BitVec 5) (f : Full) (s : State) (c : Ctx) :
    (produce g f s c).st.mem = s.mem := by
  simp [produce]

@[simp] theorem releaseQuar_memory (s : State) (qn lane fid : Nat) (regs : List Nat) :
    (releaseQuar s qn lane fid regs).mem = s.mem :=
  (rfl)

@[simp] theorem endFlight_memory (s : State) (u fid : Nat) : (endFlight s u fid).mem = s.mem := by
  unfold endFlight
  split
  · rfl
  · split
    · rfl
    · split
      · rfl
      · extract_lets t r
        have hr : r.mem = s.mem := by
          unfold r
          split <;> simp [t]
        clear_value r
        split <;> simp [hr]

@[simp] theorem landJob_memory (s : State) (u fid k : Nat) (ws : List Word) (tag : Ety) :
    (landJob s u fid k ws tag).mem = s.mem := by
  unfold landJob
  (repeat' split) <;> simp

/-! ## Float and complex instructions -/

@[simp] theorem setProg_memory (s : State) (c : Ctx) (v : Nat) : (setProg s c v).mem = s.mem :=
  (rfl)

@[simp] theorem writePart_memory (f : Full) (ls : Nat → Bool) (v : Nat → Nat) (fl : Nat → FFlags) (s : State)
    (c : Ctx) : (writePart f ls v fl s c).st.mem = s.mem := by
  simp [writePart]

/-! ## Register movement, index registers, special registers, the operand window and register acquisition -/

@[simp] theorem setsBody_memory (f : Full) (s : State) (c : Ctx) : (setsBody f s c).st.mem = s.mem := by
  simp [setsBody]

@[simp] theorem releaseRegs_memory (s : State) (u n : Nat) : (releaseRegs s u n).mem = s.mem := by
  unfold releaseRegs
  split <;> rfl

@[simp] theorem xrelBody_memory (f : Full) (s : State) (c : Ctx) : (xrelBody f s c).st.mem = s.mem := by
  unfold xrelBody
  split <;> simp

@[simp] theorem tagBody_memory (f : Full) (s : State) (c : Ctx) : (tagBody f s c).st.mem = s.mem := by
  simp [tagBody]

/-! ## The active and the pending set of a quadrant -/

@[simp] theorem exchangeWave_memory (s : State) (qn u : Nat) : (exchangeWave s qn u).1.mem = s.mem := by
  unfold exchangeWave
  split <;> rfl

@[simp] theorem trackBlocked_memory (s : State) (qn : Nat) : (trackBlocked s qn).mem = s.mem :=
  (rfl)

@[simp] theorem firstMove_memory (s : State) (qn : Nat) : (firstMove s qn).mem = s.mem := by
  unfold firstMove
  extract_lets +onlyGivenNames t q
  have ht : t.mem = s.mem := trackBlocked_memory ..
  clear_value t q
  split
  · simp [ht]
  · split
    · simp [ht]
    · split
      · extract_lets v
        split
        next r ok e =>
        have hr : r.mem = s.mem := fst_memory e (by simp [v, ht])
        split <;> simp [hr]
      · exact ht

@[simp] theorem swapMove_memory (s : State) (qn : Nat) : (swapMove s qn).mem = s.mem := by
  simp [swapMove]

@[simp] theorem yieldWave_memory (s : State) (i : Issue) (u : Nat) : (yieldWave s i u).mem = s.mem := by
  simp [yieldWave]

/-! ## Control instructions -/

@[simp] theorem jptBody_memory (f : Full) (s : State) (c : Ctx) : (jptBody f s c).st.mem = s.mem := by
  unfold jptBody
  (repeat' split) <;> simp

@[simp] theorem joinBody_memory (f : Full) (s : State) (c : Ctx) : (joinBody f s c).st.mem = s.mem := by
  unfold joinBody
  (repeat' split) <;> simp

@[simp] theorem breakBody_memory (f : Full) (trap : Bool) (s : State) (c : Ctx) :
    (breakBody f trap s c).st.mem = s.mem :=
  (rfl)

/-! ## Memory as a core sees it -/

@[simp] theorem l1Fill_memory (s : State) (core line : Nat) : (l1Fill s core line).mem = s.mem :=
  (rfl)

@[simp] theorem l1Update_memory (s : State) (core : Nat) (cs : List (Nat × Byte)) : (l1Update s core cs).mem = s.mem :=
  (rfl)

@[simp] theorem noteWrite_memory (s : State) (by_ : Option (Nat × Nat)) (cores : Nat → Bool) (ad : List Nat) :
    (noteWrite s by_ cores ad).mem = s.mem :=
  (rfl)

@[simp] theorem setValue_memory (s : State) (u fid k : Nat) (j : Job) (l : Loc) (size : Nat) (bs : List Byte)
    (bad : Bool) : (setValue s u fid k j l size bs bad).mem = s.mem :=
  (rfl)

@[simp] theorem performMem_memory (s : State) (u fid k : Nat) (j : Job) (l : Loc) (size : Nat) (hit : Bool) :
    (performMem s u fid k j l size hit).mem = s.mem := by
  unfold performMem
  split
  · rfl
  · extract_lets ad
    split
    · simp
    · split
      · simp
      next t _ _ _ _ =>
      split
      next bs bad _ =>
      extract_lets r
      have hr : r.mem = s.mem := by
        unfold r
        clear_value ad
        split
        · split <;> simp [t]
        · simp [t]
      simp [hr]

@[simp] theorem sendSig_memory (s : State) (u lane comp idx : Nat) (co : List Nat) :
    (sendSig s u lane comp idx co).mem = s.mem := by
  unfold sendSig
  split <;> rfl

@[simp] theorem logEntry_memory (s : State) (c : Ctx) (grow : Bool) (items : List (Nat × Held × Nat × Nat)) :
    (logEntry s c grow items).mem = s.mem := by
  simp [logEntry]

@[simp] theorem drawFree_memory (s : State) (as : List Acc) : (drawFree s as).mem = s.mem := by
  simp [drawFree]

@[simp] theorem touchAccs_memory (s : State) (as : List Acc) : (touchAccs s as).mem = s.mem :=
  foldl_memory (fun _ _ => by split <;> simp) _ _

@[simp] theorem recordReads_memory (s : State) (c : Ctx) (as : List Acc) : (recordReads s c as).1.mem = s.mem := by
  unfold recordReads
  (repeat' split) <;> simp

@[simp] theorem sendSigs_memory (s : State) (c : Ctx) (as : List Acc) : (sendSigs s c as).mem = s.mem :=
  foldl_memory (fun _ _ => by split <;> simp) _ _

@[simp] theorem loadAccs_memory (f : Full) (counted : Bool) (as : List Acc) (s : State) (c : Ctx) :
    (loadAccs f counted as s c).st.mem = s.mem := by
  simp [loadAccs]

/-! ## Stores, atomics and remote adds -/

@[simp] theorem enqueue_memory (s : State) (u : Nat) (e : StEntry) : (enqueue s u e).mem = s.mem :=
  (rfl)

@[simp] theorem bufferParts_memory (s : State) (u : Nat) (ps : List StPart) : (bufferParts s u ps).1.mem = s.mem := by
  unfold bufferParts
  split <;> simp

@[simp] theorem storeAccs_memory (kind : StKind) (scope : Nat) (acq rel : Bool) (wants : List Want) (as : List Acc)
    (mk : Acc → StPart) (s : State) (c : Ctx) : (storeAccs kind scope acq rel wants as mk s c).st.mem = s.mem := by
  simp [storeAccs]

@[simp] theorem memberAtomic_memory (f : Full) (op : Nat) (ret : Bool) (arg : Nat → AtomArgs) (as : List Acc)
    (ts : List Trap) (s : State) (c : Ctx) : (memberAtomic f op ret arg as ts s c).st.mem = s.mem := by
  unfold memberAtomic
  split
  next t room e =>
  have ht : t.mem = s.mem := fst_memory e (by simp)
  split
  · exact ht
  · extract_lets +onlyGivenNames r
    have hr : r.mem = s.mem := by simp [r, ht]
    clear_value r
    extract_lets +onlyGivenNames bad ts' ok
    split
    · exact hr
    · extract_lets +onlyGivenNames old olds r1 ps ps'
      have hr1 : r1.mem = s.mem := by simp [r1, hr]
      clear_value r1
      split
      next r2 room e =>
      have hr2 : r2.mem = s.mem := fst_memory e (by simp [hr1])
      split
      · exact hr2
      · extract_lets +onlyGivenNames r3 r4 traps
        have hr4 : r4.mem = s.mem := (sendSigs_memory ..).trans hr2
        clear_value r4
        split
        · exact hr4
        · split
          next id r5 e5 =>
          cases e5
          extract_lets +onlyGivenNames jobs
          split
          next r6 room e =>
          have hr6 : r6.mem = s.mem := fst_memory e (by simp [hr4])
          split <;> exact hr6

@[simp] theorem atomicAccs_memory (f : Full) (op scope : Nat) (acq rel ret : Bool) (arg : Nat → AtomArgs)
    (as : List Acc) (s : State) (c : Ctx) : (atomicAccs f op scope acq rel ret arg as s c).st.mem = s.mem := by
  simp [atomicAccs]

@[simp] theorem passOrder_memory (s : State) (w : Wave) (e : StEntry) : (passOrder s w e).mem = s.mem :=
  (rfl)

@[simp] theorem logLate_memory (s : State) (w : Wave) (e : StEntry) (which : Nat → Bool) :
    (logLate s w e which).mem = s.mem :=
  (rfl)

@[simp] theorem orderPoint_memory (s : State) (u : Nat) : (orderPoint s u).mem = s.mem := by
  unfold orderPoint
  (repeat' split) <;> simp

@[simp] theorem giveOld_memory (s : State) (e : StEntry) (p : StPart) (old : Nat) (bad : Bool) :
    (giveOld s e p old bad).mem = s.mem := by
  unfold giveOld
  split <;> simp

@[simp] theorem markDone_memory (s : State) (core id : Nat) (which : Nat → Bool) :
    (markDone s core id which).mem = s.mem :=
  (rfl)

@[simp] theorem acquireNow_memory (s : State) (u : Nat) : (acquireNow s u).mem = s.mem :=
  (rfl)

@[simp] theorem acquireAt_memory (s : State) (u scope : Nat) : (acquireAt s u scope).mem = s.mem := by
  unfold acquireAt
  split <;> simp

@[simp] theorem finishEntry_memory (s : State) (core id : Nat) : (finishEntry s core id).mem = s.mem := by
  unfold finishEntry
  split <;> simp

@[simp] theorem ackEntry_memory (s : State) (core id : Nat) : (ackEntry s core id).mem = s.mem := by
  unfold ackEntry
  split <;> simp

/-! ## Loads, stores, atomics and remote adds by address, by offset and by coordinates, and PREF -/

@[simp] theorem storeReg_memory (f : Full) (wants : List Want) (as : List Acc) (s : State) (c : Ctx) :
    (storeReg f wants as s c).st.mem = s.mem := by
  simp [storeReg]

@[simp] theorem laprBody_memory (f : Full) (s : State) (c : Ctx) : (laprBody f s c).st.mem = s.mem := by
  simp [laprBody]

@[simp] theorem prefLane_memory (f : Full) (s : State) (c : Ctx) (l : Nat) : (prefLane f s c l).mem = s.mem := by
  unfold prefLane
  extract_lets +onlyGivenNames t off a path
  split
  · rfl
  · split
    · extract_lets +onlyGivenNames at_
      split
      · rfl
      · simp
    · rfl

/-! ## Tiles -/

@[simp] theorem tdefBody_memory (f : Full) (s : State) (c : Ctx) : (tdefBody f s c).st.mem = s.mem := by
  unfold tdefBody
  extract_lets i x
  split
  · split <;> simp
  · rfl

theorem countReader_memory (s0 s : State) (c : Ctx) (t : Team) (i : Nat) : (countReader s0 s c t i).mem = s.mem := by
  unfold countReader
  extract_lets new
  split <;> simp

@[simp] theorem trdBody_memory (f : Full) (s : State) (c : Ctx) : (trdBody f s c).st.mem = s.mem := by
  unfold trdBody
  extract_lets i
  split
  · extract_lets +onlyGivenNames offs ts acc
    split
    · exact (countReader_memory ..).trans (loadAccs_memory ..)
    · extract_lets +onlyGivenNames reads ts' good all whole
      split
      next t room e =>
      have ht : t.mem = s.mem := fst_memory e (by simp)
      split
      · exact ht
      · split
        · rfl
        · split
          next id t1 e1 =>
          cases e1
          extract_lets +onlyGivenNames jobs
          split
          next r room e =>
          have hr : r.mem = s.mem := fst_memory e (by simp [ht])
          extract_lets v
          split
          · exact hr
          · exact (countReader_memory ..).trans hr
  · rfl

@[simp] theorem xferSig_memory (s : State) (x : Xfer) : (xferSig s x).mem = s.mem := by
  simp [xferSig]

@[simp] theorem xferBody_memory (f : Full) (load : Bool) (s : State) (c : Ctx) :
    (xferBody f load s c).st.mem = s.mem := by
  unfold xferBody
  extract_lets i
  split
  · extract_lets +onlyGivenNames bad
    clear_value bad
    split
    · rfl
    · split
      next id t e =>
      cases e
      split <;> simp
  · rfl

@[simp] theorem mapXfer_memory (s : State) (core id : Nat) (f : Xfer → Xfer) : (mapXfer s core id f).mem = s.mem :=
  (rfl)

@[simp] theorem pauseXfer_memory (s : State) (core : Nat) (x : Xfer) (path addr : Nat) :
    (pauseXfer s core x path addr).mem = s.mem := by
  unfold pauseXfer
  split <;> simp

@[simp] theorem noteErr_memory (s : State) (core : Nat) (x : Xfer) (c : Cause) (tv : Nat) :
    (noteErr s core x c tv).mem = s.mem :=
  (rfl)

@[simp] theorem xferUse_memory (s : State) (x : Xfer) (core : Nat) (l : Loc) : (xferUse s x core l).mem = s.mem := by
  simp [xferUse]

@[simp] theorem storeElem_memory (s : State) (core : Nat) (x : Xfer) (t : Team) (e : DWord) :
    (storeElem s core x t e).mem = s.mem := by
  unfold storeElem
  extract_lets skip
  have hskip : ∀ r, (skip r).mem = r.mem := fun r => mapXfer_memory ..
  clear_value skip
  split
  extract_lets t
  have ht : t.mem = s.mem := by
    unfold t
    split <;> simp
  clear_value t
  split <;> simp [hskip, ht]

/-! ## Regions -/

@[simp] theorem askFlight_memory (n dst : Nat) (tag : Ety) (src : JobSrc) (s : State) (c : Ctx) :
    (askFlight n dst tag src s c).st.mem = s.mem := by
  simp [askFlight]

@[simp] theorem pinLines_memory (s : State) (d : Desc) (p : Nat) (on : Bool) : (pinLines s d p on).mem = s.mem :=
  foldl_memory (fun _ _ => by simp) _ _

@[simp] theorem stageLines_memory (s : State) (d : Desc) (p : Nat) : (stageLines s d p).mem = s.mem := by
  simp [stageLines]

@[simp] theorem parcelStaged_memory (comp idx : Nat) (s : State) : (parcelStaged comp idx s).mem = s.mem := by
  unfold parcelStaged
  split <;> simp

@[simp] theorem setLap_memory (s : State) (comp idx n : Nat) (f : SliceLap → SliceLap) :
    (setLap s comp idx n f).mem = s.mem :=
  (rfl)

@[simp] theorem relayRows_memory (s : State) (comp idx : Nat) (d : Desc) : (relayRows s comp idx d).mem = s.mem :=
  foldl_memory (fun _ _ => by simp) _ _

/-! ## The sweeps of Steppe regions -/

@[simp] theorem steppeAdmit_memory (k : Nat) (s : State) : (steppeAdmit k s).mem = s.mem := by
  unfold steppeAdmit
  split
  · rfl
  · split
    · rfl
    · extract_lets +onlyGivenNames n
      split
      · rfl
      · split <;> simp

@[simp] theorem answerLap_memory (s : State) (q : SReq) : (answerLap s q).mem = s.mem :=
  (rfl)

/-! ## What memory does after issue -/

@[simp] theorem deferLane_memory (s : State) (u l : Nat) (c : Cause) (epc : Word) (tv : DWord) :
    (deferLane s u l c epc tv).mem = s.mem :=
  (rfl)

@[simp] theorem performJob_memory (s : State) (u fid k : Nat) (j : Job) (hit : Bool) :
    (performJob s u fid k j hit).mem = s.mem := by
  unfold performJob
  split <;> simp

@[simp] theorem lapRule_memory (s : State) (u : Nat) (fl : Flight) (j : Job) (ws : List Word) :
    (lapRule s u fl j ws).mem = s.mem := by
  unfold lapRule
  (repeat' split) <;> simp

@[simp] theorem landValue_memory (s : State) (u fid k : Nat) (fl : Flight) (j : Job) (ws : List Word) :
    (landValue s u fid k fl j ws).mem = s.mem := by
  simp [landValue]

@[simp] theorem returnUnwritten_memory (s : State) (u fid k : Nat) (w : Wave) (j : Job) :
    (returnUnwritten s u fid k w j).mem = s.mem := by
  simp [returnUnwritten]

@[simp] theorem landLost_memory (s : State) (u fid k : Nat) (w : Wave) (fl : Flight) (j : Job) :
    (landLost s u fid k w fl j).mem = s.mem := by
  simp [landLost]

@[simp] theorem registerWriteback_memory (u fid k : Nat) (how : Land) (s : State) :
    (registerWriteback u fid k how s).mem = s.mem := by
  unfold registerWriteback
  split
  · rfl
  · split
    · rfl
    · split
      · split <;> simp
      · extract_lets t
        have ht : t.mem = s.mem := by simp [t]
        clear_value t
        split
        · exact ht
        · split
          · (repeat' split) <;> simp [ht]
          · exact ht

@[simp] theorem readErrorReturn_memory (u fid k : Nat) (uncorr : Bool) (s : State) :
    (readErrorReturn u fid k uncorr s).mem = s.mem := by
  unfold readErrorReturn
  split <;> simp

@[simp] theorem infuserDecode_memory (u fid k : Nat) (s : State) : (infuserDecode u fid k s).mem = s.mem := by
  unfold infuserDecode
  split
  · rfl
  · split
    · split
      · rfl
      · extract_lets t ad fail
        split
        · simp [fail, t]
        · split <;> simp [fail, t]
    · rfl

@[simp] theorem zeroJob_memory (s : State) (u fid k : Nat) (tag : Option Ety) :
    (zeroJob s u fid k tag).mem = s.mem := by
  unfold zeroJob
  split <;> simp

@[simp] theorem setPart_memory (s : State) (u e k : Nat) (f : StPart → StPart) : (setPart s u e k f).mem = s.mem :=
  (rfl)

@[simp] theorem errorJob_memory (s : State) (u fid k : Nat) : (errorJob s u fid k).mem = s.mem := by
  unfold errorJob
  split <;> simp

theorem endPart_memory {job : State → Nat → Nat → State} (hj : ∀ t f i, (job t f i).mem = t.mem) (s : State)
    (u e k : Nat) :
    (endPart s u e k job).mem = s.mem := by
  unfold endPart
  extract_lets j t
  clear_value j
  split <;> simp [hj, t]

@[simp] theorem dropPart_memory (s : State) (u e k : Nat) (tag : Option Ety) : (dropPart s u e k tag).mem = s.mem :=
  endPart_memory (fun _ _ _ => zeroJob_memory ..) ..

@[simp] theorem releaseItem_memory (s : State) (u : Nat) (h' : Held) (core : Nat) (l : Loc) :
    (releaseItem s u h' core l).mem = s.mem := by
  unfold releaseItem
  (repeat' split) <;> rfl

@[simp] theorem failItem_memory (s : State) (u lane : Nat) (h' : Held) (epc : Word) (c : Cause) (tv core : Nat) :
    (failItem s u lane h' epc c tv core).mem = s.mem := by
  unfold failItem
  extract_lets t
  have ht : t.mem = s.mem := by
    unfold t
    split
    · exact errorJob_memory ..
    · exact endPart_memory (fun _ _ _ => errorJob_memory ..) ..
    · exact mapXfer_memory ..
    · rfl
  clear_value t
  split <;> simp [ht]

@[simp] theorem watchLate_memory (s : State) (u lane : Nat) (h' : Held) (epc : Word) (path addr size : Nat)
    (want : Want) : (watchLate s u lane h' epc path addr size want).mem = s.mem := by
  unfold watchLate
  split <;> simp

@[simp] theorem resumeEntry_memory (s : State) (e : OpEntry) : (resumeEntry s e).1.mem = s.mem := by
  unfold resumeEntry
  split
  · rfl
  · split
    next t left e =>
    refine fst_memory e (foldl_fst_memory (fun r it => ?_) _ _)
    dsimp only
    split <;> simp

@[simp] theorem growFor_memory (s : State) (e : OpEntry) : (growFor s e).mem = s.mem := by
  unfold growFor
  (repeat' split) <;> rfl

@[simp] theorem askAgain_memory (s : State) (e : OpEntry) : (askAgain s e).mem = s.mem :=
  (rfl)

@[simp] theorem resumeEntries_memory (s : State) (qn : Nat) (which : OpEntry → Bool) :
    (resumeEntries s qn which).mem = s.mem := by
  unfold resumeEntries
  extract_lets q
  split
  next t kept e =>
  refine (State.mapQuad_mem ..).trans (fst_memory e (foldl_fst_memory (fun r it => ?_) _ (s, [])))
  split
  · simp
  · rfl

@[simp] theorem oplogResume_memory (qn idx : Nat) (s : State) : (oplogResume qn idx s).mem = s.mem := by
  unfold oplogResume
  split <;> simp

@[simp] theorem deliverEntry_memory (s : State) (qn idx : Nat) (e : OpEntry) (c : Cause) :
    (deliverEntry s qn idx e c).mem = s.mem :=
  (rfl)

@[simp] theorem pageDeliver_memory (qn idx : Nat) (s : State) : (pageDeliver qn idx s).mem = s.mem := by
  unfold pageDeliver
  split <;> simp

@[simp] theorem growDeny_memory (qn idx : Nat) (s : State) : (growDeny qn idx s).mem = s.mem := by
  unfold growDeny
  split <;> simp

@[simp] theorem conflictPage_memory (s : State) (ctx lo n : Nat) (cores : Nat → Bool) :
    (conflictPage s ctx lo n cores).mem = s.mem :=
  (rfl)

@[simp] theorem registerSoftError_memory (u thread n : Nat) (s : State) :
    (registerSoftError u thread n s).mem = s.mem := by
  unfold registerSoftError
  split <;> simp

/-! ## Transactions -/

@[simp] theorem tryBody_memory (f : Full) (s : State) (c : Ctx) : (tryBody f s c).st.mem = s.mem := by
  unfold tryBody
  (repeat' split) <;> simp

@[simp] theorem commitBody_memory (s : State) (c : Ctx) : (commitBody s c).st.mem = s.mem := by
  simp [commitBody]

@[simp] theorem transactionConflict_memory (u : Nat) (s : State) : (transactionConflict u s).mem = s.mem := by
  unfold transactionConflict
  split <;> simp

@[simp] theorem fixPlace_memory (s : State) (u : Nat) : (fixPlace s u).mem = s.mem := by
  unfold fixPlace
  split <;> simp

@[simp] theorem drainGroup_memory (s : State) (u k : Nat) : (drainGroup s u k).mem = s.mem := by
  unfold drainGroup
  split <;> simp

@[simp] theorem commitStep_memory (u : Nat) (s : State) : (commitStep u s).mem = s.mem := by
  unfold commitStep
  split
  · rfl
  · split
    · rfl
    · split
      · rfl
      · extract_lets t r
        have hr : r.mem = s.mem := by
          unfold r
          split <;> simp [t]
        simp [hr]

/-! ## Waits and cooperation -/

@[simp] theorem endWaitc_memory (u k v scope : Nat) (s : State) : (endWaitc u k v scope s).mem = s.mem := by
  simp [endWaitc]

@[simp] theorem waitOr_memory {effect : State → State} (he : ∀ t, (effect t).mem = t.mem) (s : State) (c : Ctx)
    (ok : Bool)
    (x : Wait) : (waitOr s c ok effect x).st.mem = s.mem := by
  simp [waitOr, he]

@[simp] theorem waitcBody_memory (k v scope : Nat) (s : State) (c : Ctx) :
    (waitcBody k v scope s c).st.mem = s.mem := by
  unfold waitcBody
  split
  · rfl
  · exact waitOr_memory (endWaitc_memory _ _ _ _) ..

@[simp] theorem waitqBody_memory (n e : Nat) (s : State) (c : Ctx) : (waitqBody n e s c).st.mem = s.mem := by
  unfold waitqBody
  split
  · rfl
  · exact waitOr_memory (fun _ => acquireNow_memory ..) ..

@[simp] theorem ctailBody_memory (f : Full) (s : State) (c : Ctx) : (ctailBody f s c).st.mem = s.mem := by
  simp [ctailBody]

@[simp] theorem waitlBody_memory (h' : Word) (v : Nat) (s : State) (c : Ctx) : (waitlBody h' v s c).st.mem = s.mem := by
  unfold waitlBody
  split
  · rfl
  · split
    · rfl
    · exact waitOr_memory (fun _ => rfl) ..

@[simp] theorem waitmUse_memory (s : State) (w : Wave) (a : Nat) (l : Loc) : (waitmUse s w a l).mem = s.mem := by
  simp [waitmUse]

@[simp] theorem endWaitm_memory (s : State) (u : Nat) (members : Mask) (scope addr : Nat) (l : Loc) :
    (endWaitm s u members scope addr l).1.mem = s.mem := by
  unfold endWaitm
  extract_lets t
  have ht : t.mem = s.mem := acquireAt_memory ..
  clear_value t
  split
  · exact ht
  · simp [ht]

@[simp] theorem waitmBody_memory (f : Full) (s : State) (c : Ctx) : (waitmBody f s c).st.mem = s.mem := by
  unfold waitmBody
  extract_lets a v x
  split
  · rfl
  · simp
  · split
    · rfl
    · simp
  · rfl
  · split
    · rfl
    · split
      · simp
      · split
        · split
          next t room e =>
          have ht : t.mem = s.mem := fst_memory e (by simp)
          split <;> exact ht
        · simp

@[simp] theorem waitEffect_memory (s : State) (u l : Nat) (w : Wave) (x : Wait) :
    (waitEffect s u l w x).mem = s.mem := by
  unfold waitEffect
  split
  · exact endWaitc_memory ..
  · exact acquireNow_memory ..
  · split
    · split
      next t room e =>
      have ht : t.mem = s.mem := fst_memory e (by simp)
      split <;> simp [ht]
    · rfl
  · rfl

@[simp] theorem resumeNext_memory (s : State) (u l : Nat) : (resumeNext s u l).mem = s.mem :=
  (rfl)

@[simp] theorem endWait_memory (s : State) (u l : Nat) (w : Wave) (x : Wait) : (endWait s u l w x).mem = s.mem := by
  simp [endWait]

@[simp] theorem logWaits_memory (s : State) (w : Wave) (ps : List (Nat × Nat × Nat)) :
    (logWaits s w ps).mem = s.mem := by
  unfold logWaits
  extract_lets stands
  split
  · rfl
  · split <;> simp

@[simp] theorem waitConditionMet_memory (u : Nat) (s : State) : (waitConditionMet u s).mem = s.mem := by
  unfold waitConditionMet
  split
  · rfl
  · extract_lets ends t
    have ht : t.mem = s.mem := foldl_memory (fun r p => by (repeat' split) <;> simp) _ _
    simp [ht]

@[simp] theorem barBody_memory (b k : Nat) (s : State) (c : Ctx) : (barBody b k s c).st.mem = s.mem := by
  unfold barBody
  split
  · rfl
  · split
    · rfl
    · extract_lets +onlyGivenNames x
      split <;> simp

@[simp] theorem noteArrivals_memory (s : State) (w : Wave) : (noteArrivals s w).mem = s.mem :=
  (rfl)

@[simp] theorem releaseWaits_memory (s : State) (us : List Nat) (p : Wait → Bool) : (releaseWaits s us p).mem = s.mem :=
  foldl_memory (fun _ _ => by split <;> simp) _ _

@[simp] theorem barrierComplete_memory (team b : Nat) (s : State) : (barrierComplete team b s).mem = s.mem := by
  unfold barrierComplete
  split <;> simp

@[simp] theorem gangBarrierComplete_memory (team n : Nat) (s : State) : (gangBarrierComplete team n s).mem = s.mem := by
  unfold gangBarrierComplete
  split
  · rfl
  · extract_lets +onlyGivenNames ts ws
    split
    · rfl
    · exact (foldl_memory (fun _ _ => State.mapTeam_mem ..) _ _).trans (by simp)

@[simp] theorem fetchwBody_memory (o : Nat) (s : State) (c : Ctx) : (fetchwBody o s c).st.mem = s.mem := by
  unfold fetchwBody
  split <;> simp

/-! ## The matrix units -/

@[simp] theorem drawLost_memory (s : State) (core : Nat) (ad : List Nat) : (drawLost s core ad).mem = s.mem := by
  simp [drawLost]

@[simp] theorem mxForm_memory (s : State) (core team bsid : Nat) : (mxForm s core team bsid).mem = s.mem := by
  unfold mxForm
  extract_lets ms
  split
  · rfl
  · exact foldl_memory (fun _ _ => State.mapQuad_mem ..) _ _

@[simp] theorem mxPlace_memory (s : State) (w : Wave) (t : Team) (pc : Word) (off kb0 : Nat) (again : Bool)
    (b : BitVec 128) (acc : Ety) : (mxPlace s w t pc off kb0 again b acc).mem = s.mem := by
  simp [mxPlace]

@[simp] theorem mxgoBody_memory (f : Full) (ops : State → Wave → Nat → List Opnd) (s : State) (c : Ctx) :
    (mxgoBody f ops s c).st.mem = s.mem := by
  unfold mxgoBody
  generalize mxStage f ops s c.rd c.act = p
  cases p
  case wait x => exact foldl_memory (fun _ _ => startWait_memory ..) _ _
  case go o b acc => cases c.team <;> simp
  all_goals rfl

@[simp] theorem mxrsvBody_memory (f : Full) (s : State) (c : Ctx) : (mxrsvBody f s c).st.mem = s.mem := by
  simp [mxrsvBody]

@[simp] theorem mxrelBody_memory (s : State) (c : Ctx) : (mxrelBody s c).st.mem = s.mem := by
  simp [mxrelBody]

@[simp] theorem mxpromBody_memory (f : Full) (s : State) (c : Ctx) : (mxpromBody f s c).st.mem = s.mem := by
  unfold mxpromBody
  extract_lets i n
  split
  · split
    · rfl
    · extract_lets +onlyGivenNames t offs ts good
      have ht : t.mem = s.mem := drawLost_memory ..
      clear_value t
      split
      · exact ht
      · split
        next id t1 e1 =>
        cases e1
        extract_lets +onlyGivenNames jobs
        split
        next r room e =>
        have hr : r.mem = s.mem := fst_memory e (by simp [ht])
        split
        · exact hr
        · exact (countReader_memory ..).trans hr
  · rfl

@[simp] theorem mxDraw_memory (s : State) (t : Team) (o : MxOp) : (mxDraw s t o).mem = s.mem := by
  simp [mxDraw]

@[simp] theorem mxRun_memory (quarters : List (List (List Word))) (s : State) (o : MxOp) :
    (mxRun quarters s o).mem = s.mem := by
  unfold mxRun
  split <;> simp

@[simp] theorem mxStart_memory (qn : Nat) (s : State) : (mxStart qn s).mem = s.mem := by
  unfold mxStart
  split <;> simp

@[simp] theorem mxReenter_memory (u : Nat) (s : State) (e : DWord) : (mxReenter u s e).mem = s.mem := by
  unfold mxReenter
  split
  · rfl
  · split
    · rfl
    · extract_lets +onlyGivenNames off old t x b
      have ht : t.mem = s.mem := by
        unfold t
        clear_value old
        split <;> rfl
      clear_value t
      split
      · simp [ht]
      · clear_value old
        split <;> simp [ht]

@[simp] theorem mxResume_memory (s : State) (u : Nat) : (mxResume s u).mem = s.mem := by
  unfold mxResume
  split <;> simp

/-! ## Handler-only instructions -/

@[simp] theorem reissueFor_memory (s : State) (u qn : Nat) (m : Mask) : (reissueFor s u qn m).mem = s.mem := by
  simp [reissueFor]

@[simp] theorem reacquire_memory (s : State) (w : Wave) : (reacquire s w).1.mem = s.mem := by
  simp [reacquire]

@[simp] theorem returnNow_memory (s : State) (u : Nat) : (returnNow s u).mem = s.mem := by
  unfold returnNow
  split
  · rfl
  · extract_lets +onlyGivenNames t
    have ht : t.mem = s.mem := returnHandler_memory ..
    clear_value t
    split
    · exact ht
    · (repeat' split) <;> simp [ht]

@[simp] theorem rthBody_memory (s : State) (c : Ctx) : (rthBody s c).st.mem = s.mem := by
  unfold rthBody
  split <;> simp

@[simp] theorem mxReservationReacquire_memory (u : Nat) (s : State) : (mxReservationReacquire u s).mem = s.mem := by
  unfold mxReservationReacquire
  split <;> simp

@[simp] theorem hgetBody_memory (f : Full) (s : State) (c : Ctx) : (hgetBody f s c).st.mem = s.mem := by
  simp [hgetBody]

@[simp] theorem hsetBody_memory (f : Full) (s : State) (c : Ctx) : (hsetBody f s c).st.mem = s.mem := by
  unfold hsetBody
  split <;> simp

@[simp] theorem parkBody_memory (f : Full) (s : State) (c : Ctx) : (parkBody f s c).st.mem = s.mem := by
  simp [parkBody]

/-! ## Privileged instructions -/

@[simp] theorem cleanPage_memory (s : State) (b : Nat) : (cleanPage s b).mem = s.mem := by
  simp [cleanPage]

@[simp] theorem cinvBody_memory (f : Full) (s : State) (c : Ctx) : (cinvBody f s c).st.mem = s.mem := by
  unfold cinvBody
  split
  · rfl
  · extract_lets a
    split <;> simp

@[simp] theorem startShoot_memory (s : State) (ctx va : Nat) (dom : Bool) : (startShoot s ctx va dom).2.mem = s.mem :=
  (rfl)

@[simp] theorem xlinvBody_memory (f : Full) (s : State) (c : Ctx) : (xlinvBody f s c).st.mem = s.mem := by
  simp [xlinvBody]

@[simp] theorem apsetBody_memory (f : Full) (s : State) (c : Ctx) : (apsetBody f s c).st.mem = s.mem := by
  simp [apsetBody]

@[simp] theorem illegalWord_memory (w : DWord) (s : State) : (illegalWord w s).mem = s.mem := by
  unfold illegalWord
  split <;> simp

@[simp] theorem textOverrun_memory (s : State) : (textOverrun s).mem = s.mem := by
  unfold textOverrun
  split <;> simp

/-! ## Moves between the active and the pending set outside instructions -/

@[simp] theorem waveSwap_memory (qn : Nat) (s : State) : (waveSwap qn s).mem = s.mem := by
  simp [waveSwap]

@[simp] theorem quantumExpire_memory (qn u : Nat) (s : State) : (quantumExpire qn u s).mem = s.mem := by
  unfold quantumExpire
  split <;> simp

@[simp] theorem pendingWaveEnter_memory (qn : Nat) (s : State) : (pendingWaveEnter qn s).mem = s.mem := by
  unfold pendingWaveEnter
  (repeat' split) <;> rfl

/-! ## Copy engines -/

@[simp] theorem engineTailDoorbell_memory (e : Nat) (a : DWord) (s : State) :
    (engineTailDoorbell e a s).mem = s.mem := by
  simp [engineTailDoorbell]

@[simp] theorem useBlock_memory (e : Nat) (s : State) (a : Nat) : (useBlock e s a).mem = s.mem := by
  unfold useBlock
  split <;> simp

@[simp] theorem engAccept_memory (s : State) (e a phys : Nat) (w : BitVec 512) :
    (engAccept s e a phys w).mem = s.mem := by
  simp [engAccept]

@[simp] theorem raiseEngine_memory (s : State) (t : Option Nat) (e seq : Nat) :
    (raiseEngine s t e seq).mem = s.mem := by
  unfold raiseEngine
  split <;> rfl

@[simp] theorem posUse_memory (s : State) (write : Bool) (e : Nat) (v : BitVec 512) (q : List Nat) (l : Loc) :
    (posUse s write e v q l).mem = s.mem := by
  simp [posUse]

@[simp] theorem engRestart_memory (s : State) (e : Nat) : (engRestart s e).mem = s.mem := by
  simp [engRestart]

@[simp] theorem deadlinePromote_memory (e : Nat) (s : State) : (deadlinePromote e s).mem = s.mem := by
  unfold deadlinePromote
  split <;> simp

@[simp] theorem asyncCause_memory (s : State) (u : Nat) (k : Cause) (tv : DWord) :
    (asyncCause s u k tv).mem = s.mem := by
  unfold asyncCause
  split
  · rfl
  · split
    · rfl
    · extract_lets t
      have ht : t.mem = s.mem := rfl
      clear_value t
      split <;> simp [ht]

@[simp] theorem engineCauseTaken_memory (u : Nat) (s : State) : (engineCauseTaken u s).mem = s.mem := by
  unfold engineCauseTaken
  (repeat' split) <;> simp

/-! ## From launch to issue -/

@[simp] theorem startWave_memory (s : State) (t : Team) (c : Code) (num core q lane : Nat) (old : Option Wave) :
    (startWave s t c num core q lane old).2.mem = s.mem :=
  (rfl)

@[simp] theorem startWaves_memory (s : State) (t : Team) (c : Code) (f : Fit) : (startWaves s t c f).mem = s.mem := by
  simp [startWaves]

@[simp] theorem launchStartable_memory (q k : Nat) (s : State) : (launchStartable q k s).mem = s.mem := by
  unfold launchStartable
  split <;> simp

@[simp] theorem preemptGang_memory (s : State) (t : Team) : (preemptGang s t).mem = s.mem :=
  (rfl)

@[simp] theorem takeSet_memory (s : State) (l : Launch) (xs : List (Nat × Option Team)) :
    (takeSet s l xs).mem = s.mem :=
  (rfl)

@[simp] theorem argUse_memory (s : State) (t : Team) (args n : Nat) : (argUse s t args n).mem = s.mem :=
  foldl_memory (fun _ _ => by split <;> simp) _ _

@[simp] theorem enterWaves_memory (s : State) (t : Team) : (enterWaves s t).mem = s.mem :=
  foldl_memory (fun _ _ => by simp) _ _

@[simp] theorem failPlacing_memory (s : State) (t : Team) (r : FaultRec) : (failPlacing s t r).mem = s.mem := by
  simp [failPlacing]

@[simp] theorem argCopyFault_memory (tu : Nat) (k : Cause) (s : State) : (argCopyFault tu k s).mem = s.mem := by
  unfold argCopyFault
  (repeat' split) <;> simp

@[simp] theorem preemptStop_memory (s : State) (u : Nat) : (preemptStop s u).mem = s.mem := by
  unfold preemptStop
  split <;> simp

@[simp] theorem dropWaves_memory (s : State) (tu : Nat) : (dropWaves s tu).mem = s.mem :=
  (rfl)

@[simp] theorem freeTeam_memory (s : State) (t : Team) : (freeTeam s t).mem = s.mem := by
  unfold freeTeam
  extract_lets t
  have ht : t.mem = s.mem := foldl_memory
    (fun _ _ => (foldl_memory (fun _ _ => State.mapQuad_mem ..) _ _).trans (State.mapCore_mem ..)) _ _
  simp [ht]

@[simp] theorem teamRetire_memory (tu : Nat) (s : State) : (teamRetire tu s).mem = s.mem := by
  unfold teamRetire
  split <;> simp

@[simp] theorem killTeams_memory (s : State) (p : Team → Bool) (esc : Bool) : (killTeams s p esc).mem = s.mem :=
  (rfl)

@[simp] theorem killLaunch_memory (esc : Bool) (s : State) (l : Launch) : (killLaunch esc s l).mem = s.mem := by
  simp [killLaunch]

@[simp] theorem launchKill_memory (q k : Nat) (s : State) : (launchKill q k s).mem = s.mem := by
  unfold launchKill
  split <;> simp

@[simp] theorem saveTimeoutKill_memory (tu : Nat) (s : State) : (saveTimeoutKill tu s).mem = s.mem :=
  (rfl)

@[simp] theorem killDeliver_memory (tu : Nat) (s : State) : (killDeliver tu s).mem = s.mem := by
  unfold killDeliver
  split <;> simp

/-! ## The device and what surrounds it -/

@[simp] theorem mapShoot_memory (s : State) (id : Nat) (f : Shoot → Shoot) : (mapShoot s id f).mem = s.mem :=
  (rfl)

@[simp] theorem shootdownReceive_memory (id m : Nat) (s : State) : (shootdownReceive id m s).mem = s.mem := by
  unfold shootdownReceive
  split <;> simp

@[simp] theorem endShoot_memory (s : State) (id : Nat) : (endShoot s id).mem = s.mem := by
  unfold endShoot
  split <;> simp

@[simp] theorem shootdownAck_memory (id m : Nat) (s : State) : (shootdownAck id m s).mem = s.mem := by
  unfold shootdownAck
  split <;> simp

@[simp] theorem fenceLoads_memory (s : State) (d : Nat) : (fenceLoads s d).mem = s.mem :=
  (rfl)

@[simp] theorem fenceEntry_memory (d : Nat) (s : State) (e : StEntry) : (fenceEntry d s e).mem = s.mem :=
  foldl_memory (fun _ _ => by simp) _ _

@[simp] theorem fenceStores_memory (s : State) (d : Nat) : (fenceStores s d).mem = s.mem := by
  simp [fenceStores]

@[simp] theorem fenceTimeout_memory (id m : Nat) (s : State) : (fenceTimeout id m s).mem = s.mem := by
  unfold fenceTimeout
  split <;> simp

@[simp] theorem peerReply_memory (r : PeerReq) (s : State) (e : PeerEnd) : (peerReply r s e).mem = s.mem := by
  simp [peerReply]

@[simp] theorem refreshDue_memory (n bank : Nat) (postpone : Bool) (s : State) :
    (refreshDue n bank postpone s).mem = s.mem := by
  simp [refreshDue]

@[simp] theorem refreshRepay_memory (n bank : Nat) (s : State) : (refreshRepay n bank s).mem = s.mem := by
  simp [refreshRepay]

@[simp] theorem rowAlert_memory (n bank row rows : Nat) (s : State) : (rowAlert n bank row rows s).mem = s.mem := by
  simp [rowAlert]

@[simp] theorem backoffEnd_memory (n bank : Nat) (s : State) : (backoffEnd n bank s).mem = s.mem := by
  unfold backoffEnd
  split <;> simp

@[simp] theorem selfRefreshEnter_memory (k : Nat) (s : State) : (selfRefreshEnter k s).mem = s.mem :=
  foldl_memory (fun _ _ => by simp) _ _

@[simp] theorem selfRefreshExit_memory (k : Nat) (s : State) : (selfRefreshExit k s).mem = s.mem := by
  simp [selfRefreshExit]

@[simp] theorem escalate_memory (s : State) (teams : Team → Bool) (launches : Launch → Bool) :
    (escalate s teams launches).mem = s.mem := by
  simp [escalate]

@[simp] theorem loseGranule_memory (e : ErrSite) (s : State) : (loseGranule e s).mem = s.mem := by
  unfold loseGranule
  (repeat' split) <;> simp

@[simp] theorem uncorrectableError_memory (e : ErrSite) (s : State) : (uncorrectableError e s).mem = s.mem := by
  unfold uncorrectableError
  (repeat' split) <;> simp

@[simp] theorem clockLower_memory (die mhz : Nat) (s : State) : (clockLower die mhz s).mem = s.mem := by
  simp [clockLower]

@[simp] theorem clockRaise_memory (die mhz : Nat) (s : State) : (clockRaise die mhz s).mem = s.mem := by
  simp [clockRaise]

@[simp] theorem mapPort_memory (s : State) (n : Nat) (f : HostPort → HostPort) : (State.mapPort s n f).mem = s.mem :=
  (rfl)

@[simp] theorem setBox_memory (s : State) (port : Nat) (b : KeyBox) : (setBox s port b).mem = s.mem :=
  (rfl)

@[simp] theorem keyLoad_memory (port : Nat) (ide : Bool) (cmd : DWord) (key : BitVec 512) (s : State) :
    (keyLoad port ide cmd key s).mem = s.mem := by
  simp [keyLoad]

@[simp] theorem keyClear_memory (port : Nat) (ide : Bool) (cmd : DWord) (s : State) :
    (keyClear port ide cmd s).mem = s.mem := by
  simp [keyClear]

@[simp] theorem quoteRequest_memory (port : Nat) (nonce : BitVec 256) (s : State) :
    (quoteRequest port nonce s).mem = s.mem := by
  simp [quoteRequest]

@[simp] theorem measurementAppend_memory (entry : BitVec 512) (s : State) :
    (measurementAppend entry s).mem = s.mem := by
  simp [measurementAppend]

@[simp] theorem sliceStatusClear_memory (n : Nat) (v : DWord) (s : State) : (sliceStatusClear n v s).mem = s.mem := by
  simp [sliceStatusClear]

@[simp] theorem registerWrite_memory (off : Nat) (v : DWord) (s : State) : (registerWrite off v s).mem = s.mem := by
  simp [registerWrite]

@[simp] theorem coreReset_memory (core : Nat) (s : State) : (coreReset core s).mem = s.mem := by
  unfold coreReset
  exact (foldl_memory (fun _ _ => State.mapQuad_mem ..) _ _).trans (foldl_memory (fun _ _ => endTeam_memory ..) _ _)

@[simp] theorem sliceReset_memory (n : Nat) (s : State) : (sliceReset n s).mem = s.mem := by
  simp [sliceReset]

@[simp] theorem engineReset_memory (e : Nat) (s : State) : (engineReset e s).mem = s.mem :=
  (rfl)

@[simp] theorem linkReset_memory (port : Nat) (s : State) : (linkReset port s).mem = s.mem :=
  (rfl)

/-! ## The PC table, issue selection and the end of a step -/

@[simp] theorem retable_memory (s : State) (qn : Nat) (issued : Option Nat) : (retable s qn issued).mem = s.mem :=
  (rfl)

@[simp] theorem leaveEntry_memory (s : State) (qn n : Nat) (e : Entry) : (leaveEntry s qn n e).mem = s.mem := by
  unfold leaveEntry
  split <;> simp

@[simp] theorem leaveAll_memory (s : State) (qn : Nat) : (leaveAll s qn).mem = s.mem := by
  simp [leaveAll]

@[simp] theorem tick_memory (s : State) (qn : Nat) : (tick s qn).mem = s.mem := by
  simp [tick]

@[simp] theorem wake_memory (s : State) (w : Wave) : (wake s w).mem = s.mem := by
  simp [wake]

@[simp] theorem dropRequests_memory (s : State) (qn : Nat) : (dropRequests s qn).mem = s.mem := by
  simp [dropRequests]

@[simp] theorem markStuck_memory (s : State) (qn : Nat) : (markStuck s qn).mem = s.mem :=
  (rfl)

@[simp] theorem quarantine_memory (s : State) (w : Wave) : (quarantine s w).mem = s.mem := by
  simp [quarantine]

/-! ## What a step does beside the instruction -/

@[simp] theorem takeRest_memory (s : State) : (takeRest s).mem = s.mem := by
  unfold takeRest
  split <;> simp

@[simp] theorem atPlace_memory (s : State) (k : Nat) : (State.atPlace s k).mem = s.mem :=
  (rfl)

@[simp] theorem advanceNow_memory (s : State) : (advanceNow s).mem = s.mem :=
  (rfl)

end Sys2Proof.Machine

end

