-- ==== Sys2Proof/Proofs/MemoryForm.lean ====
section
/-!
PROOF. What writes the bytes of memory keeps their canonical form (R137, R445).
-/
namespace Sys2Proof.Machine

@[simp] theorem foldl_memWf {α : Type} {g : State → α → State} (hg : ∀ t a, t.mem.wf = true → (g t a).mem.wf = true)
    (l : List α) :
    ∀ {s : State}, s.mem.wf = true → (l.foldl g s).mem.wf = true := by
  induction l with
  | nil => exact fun h => h
  | cons a l ih => exact fun h => ih (hg _ a h)

@[simp] theorem ite_memWf {p : Prop} [Decidable p] {m n : Memory} (hm : m.wf = true) (hn : n.wf = true) :
    (if p then m else n).wf = true := by
  split <;> assumption

/-- A state taken from a pair. -/
theorem fst_memWf {α : Type} {p : State × α} {t : State} {a : α} (e : p = (t, a)) (h : p.1.mem.wf = true) :
    t.mem.wf = true := by
  rw [e] at h
  exact h

/-! ## The named operations over the state -/

@[simp] theorem markRegPlots_memWf {s : State} {core ctx lo n : Nat} {whole : Bool} (h : s.mem.wf = true) :
    (markRegPlots s core ctx lo n whole).mem.wf = true := by
  unfold markRegPlots
  extract_lets other inPlots t
  refine (congrArg Memory.wf (State.mapCore_mem ..)).trans ?_
  unfold t
  split
  · exact Memory.filter_wf _ _ h
  · exact h

/-! ## Addresses -/

@[simp] theorem devWrite_memWf {s : State} {a n v : Nat} (h : s.mem.wf = true) : (devWrite s a n v).mem.wf = true := by
  rw [devWrite_mem]
  exact Memory.writeN_wf _ _ _ h

@[simp] theorem putDesc_memWf {s : State} {comp idx : Nat} {d : Desc} (h : s.mem.wf = true) :
    (putDesc s comp idx d).mem.wf = true := by
  simp [putDesc, h]

@[simp] theorem writeAddrs_memWf : ∀ {as : List Nat} {s : State} {bs : List Byte}, s.mem.wf = true →
    (writeAddrs s as bs).mem.wf = true
  | [], _, _, h => h
  | _ :: _, _, [], h => h
  | _ :: as, _, _ :: bs, h => by
    unfold writeAddrs
    exact writeAddrs_memWf (by simpa using Memory.write_wf _ _ _ h)

@[simp] theorem softWrite_memWf {s : State} {ad : List Nat} {bs : List Byte} (h : s.mem.wf = true) :
    (softWrite s ad bs).mem.wf = true := by
  simp [softWrite, h]

@[simp] theorem writeElem_memWf {s : State} {comp idx : Nat} {co : List Nat} {bs : List Byte} (h : s.mem.wf = true) :
    (writeElem s comp idx co bs).mem.wf = true := by
  unfold writeElem
  extract_lets d
  split
  extract_lets +onlyGivenNames n
  split
  · extract_lets t
    split <;> simp [t, h]
  · simp [h]

@[simp] theorem writeLoc_memWf {s : State} {l : Loc} {bs : List Byte} (h : s.mem.wf = true) :
    (writeLoc s l bs).mem.wf = true := by
  unfold writeLoc
  (repeat' split) <;> simp +contextual [h]

/-! ## Register movement, index registers, special registers, the operand window and register acquisition -/

@[simp] theorem markGrant_memWf {s : State} {w : Wave} (h : s.mem.wf = true) : (markGrant s w).mem.wf = true := by
  unfold markGrant
  split <;> simp [h]

@[simp] theorem xgetBody_memWf {f : Full} {s : State} {c : Ctx} (h : s.mem.wf = true) :
    (xgetBody f s c).st.mem.wf = true := by
  unfold xgetBody
  extract_lets n
  split
  · exact h
  · split
    · exact h
    · split
      · simp [h]
      · split
        next id t e =>
        cases e
        simp [h]

@[simp] theorem xgetPBody_memWf {f : Full} {s : State} {c : Ctx} (h : s.mem.wf = true) :
    (xgetPBody f s c).st.mem.wf = true := by
  unfold xgetPBody
  extract_lets n
  split
  · exact h
  · split
    · exact h
    · simp [h]

/-! ## Stores, atomics and remote adds -/

@[simp] theorem performPart_memWf {s : State} {core : Nat} {e : StEntry} {p : StPart} (h : s.mem.wf = true) :
    (performPart s core e p).mem.wf = true := by
  unfold performPart
  (repeat' split) <;> simp [h]

@[simp] theorem performEntry_memWf {s : State} {core id upto : Nat} (h : s.mem.wf = true) :
    (performEntry s core id upto).mem.wf = true := by
  unfold performEntry
  (repeat' split) <;> simp +contextual [h]

/-! ## Tiles -/

@[simp] theorem poolWrite_memWf {s : State} {by_ : Option (Nat × Nat)} {ad : List Nat} {bs : List Byte}
    (h : s.mem.wf = true) : (poolWrite s by_ ad bs).mem.wf = true := by
  simp [poolWrite, h]

@[simp] theorem tzeroBody_memWf {i : Nat} {s : State} {c : Ctx} (h : s.mem.wf = true) :
    (tzeroBody i s c).st.mem.wf = true := by
  unfold tzeroBody
  split <;> simp [h]

@[simp] theorem twrBody_memWf {f : Full} {s : State} {c : Ctx} (h : s.mem.wf = true) :
    (twrBody f s c).st.mem.wf = true := by
  unfold twrBody
  extract_lets i
  split
  · split
    · exact h
    · extract_lets +onlyGivenNames offs ts good
      split
      · exact h
      · extract_lets t
        have ht : t.mem.wf = true := foldl_memWf (fun _ _ ht => poolWrite_memWf ht) _ h
        simp [ht]
  · exact h

@[simp] theorem putElem_memWf {s : State} {core : Nat} {x : Xfer} {t : Team} {e : DWord} {bs : List Byte}
    (h : s.mem.wf = true) : (putElem s core x t e bs).mem.wf = true := by
  simp [putElem, h]

@[simp] theorem fillElem_memWf {s : State} {core : Nat} {x : Xfer} {t : Team} {e : DWord} {bs : List Byte}
    (h : s.mem.wf = true) : (fillElem s core x t e bs).mem.wf = true := by
  simp [fillElem, h]

@[simp] theorem lostElem_memWf {s : State} {core : Nat} {x : Xfer} {t : Team} {e : DWord} (h : s.mem.wf = true) :
    (lostElem s core x t e).mem.wf = true := by
  simp [lostElem, h]

@[simp] theorem loadElem_memWf {s : State} {core : Nat} {x : Xfer} {t : Team} {e : DWord} (h : s.mem.wf = true) :
    (loadElem s core x t e).mem.wf = true := by
  unfold loadElem
  extract_lets +onlyGivenNames zero va
  split
  · simp [h]
  · extract_lets +onlyGivenNames t ad
    have ht : t.mem.wf = true := by simp [t, h]
    clear_value t
    split
    · simp [ht]
    · split <;> simp [ht]
  · extract_lets +onlyGivenNames a t r
    have hr : r.mem.wf = true := by simp [r, t, h]
    clear_value r
    split
    split <;> simp [hr]
  · simp [h]
  · simp [h]
  · exact h
  · simp [h]

@[simp] theorem moveElems_memWf {core id n : Nat} : ∀ {k : Nat} {s : State}, s.mem.wf = true →
    (moveElems core id n k s).mem.wf = true
  | 0, _, h => h
  | k + 1, s, h => by
    unfold moveElems
    split
    · exact h
    · split
      · exact h
      · split
        · exact h
        · exact moveElems_memWf (by split <;> simp [h])

@[simp] theorem endXfer_memWf {s : State} {core id : Nat} (h : s.mem.wf = true) :
    (endXfer s core id).mem.wf = true := by
  unfold endXfer
  (repeat' split) <;> simp [h]

@[simp] theorem runXfer_memWf {load : Bool} {core id upto : Nat} {s : State} (h : s.mem.wf = true) :
    (runXfer load core id upto s).mem.wf = true := by
  unfold runXfer
  split
  · exact h
  · split
    · exact h
    · extract_lets t r
      have hr : r.mem.wf = true := moveElems_memWf (by simp [t, h])
      split
      · exact hr
      · exact endXfer_memWf hr

/-! ## Regions -/

@[simp] theorem regionAsk_memWf {f : Full} {g : Ctx → Desc → Region → Desc × Region × Bool} {s : State} {c : Ctx}
    (h : s.mem.wf = true) : (regionAsk f g s c).st.mem.wf = true := by
  unfold regionAsk
  extract_lets hd comp
  split
  · exact h
  · split
    · exact h
    · split
      simp [h]

@[simp] theorem monitorSignature_memWf {k : Nat} {s : State} (h : s.mem.wf = true) :
    (monitorSignature k s).mem.wf = true := by
  unfold monitorSignature
  split
  · exact h
  · extract_lets t
    split
    · exact h
    · split
      simp [t, h]

@[simp] theorem parcelWriteout_memWf {comp idx n : Nat} {s : State} (h : s.mem.wf = true) :
    (parcelWriteout comp idx n s).mem.wf = true := by
  unfold parcelWriteout
  split
  · exact h
  · extract_lets +onlyGivenNames r
    split
    · exact h
    · extract_lets +onlyGivenNames ad home
      split
      · exact h
      · simp [h]

@[simp] theorem parcelNew_memWf {comp idx : Nat} {s : State} (h : s.mem.wf = true) :
    (parcelNew comp idx s).mem.wf = true := by
  unfold parcelNew
  (repeat' split) <;> simp [h]

@[simp] theorem keepLap_memWf {s : State} {comp idx lap : Nat} (h : s.mem.wf = true) :
    (keepLap s comp idx lap).mem.wf = true := by
  simp [keepLap, h]

@[simp] theorem enterLap_memWf {s : State} {comp idx n : Nat} (h : s.mem.wf = true) :
    (enterLap s comp idx n).mem.wf = true := by
  unfold enterLap
  split
  · exact h
  · extract_lets +onlyGivenNames others
    split
    · exact h
    · extract_lets t
      split <;> simp [t, h]

@[simp] theorem releaseRows_memWf {s : State} {comp idx : Nat} (h : s.mem.wf = true) :
    (releaseRows s comp idx).mem.wf = true := by
  unfold releaseRows
  extract_lets +onlyGivenNames r
  split
  · exact h
  · extract_lets +onlyGivenNames left
    split
    · exact h
    · exact foldl_memWf (fun _ _ ht => enterLap_memWf ht) _ (by simp [h])

@[simp] theorem scramble_memWf {s : State} {d : Desc} (h : s.mem.wf = true) : (scramble s d).mem.wf = true := by
  simp [scramble, h]

@[simp] theorem closeRegion_memWf {s : State} {comp idx : Nat} {old : Option Desc} {refused : Bool}
    (h : s.mem.wf = true) : (closeRegion s comp idx old refused).mem.wf = true := by
  unfold closeRegion
  (repeat' split) <;> simp [h]

@[simp] theorem descriptorWrite_memWf {comp idx : Nat} {d : Desc} {s : State} (h : s.mem.wf = true) :
    (descriptorWrite comp idx d s).mem.wf = true := by
  unfold descriptorWrite
  extract_lets +onlyGivenNames old x
  clear_value old
  split
  · exact h
  · extract_lets t
    have ht : t.mem.wf = true := putDesc_memWf h
    clear_value t
    split
    · split
      · split <;> simp [ht]
      · simp [ht]
    · simp [ht]

/-! ## The sweeps of Steppe regions -/

@[simp] theorem applyUpdate_memWf {s : State} {q : SReq} (h : s.mem.wf = true) : (applyUpdate s q).mem.wf = true := by
  unfold applyUpdate
  (repeat' split) <;> simp [h]

@[simp] theorem steppeRowApply_memWf {comp idx n : Nat} {s : State} (h : s.mem.wf = true) :
    (steppeRowApply comp idx n s).mem.wf = true := by
  unfold steppeRowApply
  split
  · exact h
  · extract_lets +onlyGivenNames d
    split
    · exact h
    · extract_lets +onlyGivenNames row
      split
      · exact h
      · extract_lets here qs t r v u
        have ht : t.mem.wf = true := by simp [t, h]
        have hr : r.mem.wf = true := foldl_memWf (fun _ _ ht => applyUpdate_memWf ht) _ ht
        have hv : v.mem.wf = true := by simp [v, hr]
        exact releaseRows_memWf (by simp [u, hv])

@[simp] theorem lapEnd_memWf {comp idx n : Nat} {s : State} (h : s.mem.wf = true) :
    (lapEnd comp idx n s).mem.wf = true := by
  unfold lapEnd
  (repeat' split) <;> simp [h]

@[simp] theorem lapDoneToken_memWf {comp idx n src : Nat} {s : State} (h : s.mem.wf = true) :
    (lapDoneToken comp idx n src s).mem.wf = true := by
  unfold lapDoneToken
  split <;> simp [h]

/-! ## What memory does after issue -/

@[simp] theorem dropXfer_memWf {s : State} {core id : Nat} (h : s.mem.wf = true) :
    (dropXfer s core id).mem.wf = true := by
  unfold dropXfer
  extract_lets t
  have ht : t.mem.wf = true := by simp [t, h]
  clear_value t
  split
  · exact ht
  · split
    · exact ht
    · extract_lets r
      refine endXfer_memWf ?_
      unfold r
      split
      · exact foldl_memWf (fun r _ hr => by split <;> simp [hr]) _ ht
      · simp [ht]

@[simp] theorem dropEntry_memWf {s : State} {e : OpEntry} (h : s.mem.wf = true) : (dropEntry s e).mem.wf = true := by
  refine foldl_memWf (fun t it ht => ?_) _ h
  split
  · simp [ht]
  · simp [ht]
  · split <;> simp [ht]
  · exact ht

@[simp] theorem ownershipFlip_memWf {ctx va : Nat} {toDevice : Bool} {s : State} (h : s.mem.wf = true) :
    (ownershipFlip ctx va toDevice s).mem.wf = true := by
  unfold ownershipFlip
  (repeat' split) <;> simp [h]

/-! ## The matrix units -/

@[simp] theorem mxStore_memWf {s : State} {t : Team} {o : MxOp} {rows : List (List Nat)} {acc : Ety}
    (h : s.mem.wf = true) : (mxStore s t o rows acc).mem.wf = true :=
  foldl_memWf (fun _ _ ht => by simp [ht]) _ h

@[simp] theorem mxComplete_memWf {qn : Nat} {s : State} (h : s.mem.wf = true) : (mxComplete qn s).mem.wf = true := by
  unfold mxComplete
  (repeat' split) <;> simp [h]

@[simp] theorem mxCutOne_memWf {quarters : List (List (List Word))} {kb : Nat} {s : State} {o : MxOp}
    (h : s.mem.wf = true) : (mxCutOne quarters kb s o).mem.wf = true := by
  unfold mxCutOne
  split <;> simp [h]

@[simp] theorem mxCut_memWf {s : State} {o : MxOp} (h : s.mem.wf = true) : (mxCut s o).mem.wf = true := by
  unfold mxCut
  (repeat' split) <;> simp +contextual [h]

@[simp] theorem mxSuspend_memWf {s : State} {u : Nat} (h : s.mem.wf = true) : (mxSuspend s u).mem.wf = true := by
  unfold mxSuspend
  (repeat' split) <;> simp +contextual [h]

/-! ## Handler-only instructions -/

@[simp] theorem dropFor_memWf {s : State} {u qn : Nat} {m : Mask} (h : s.mem.wf = true) :
    (dropFor s u qn m).mem.wf = true :=
  foldl_memWf (fun _ _ ht => by simp [ht]) _ h

@[simp] theorem ologdBody_memWf {f : Full} {s : State} {c : Ctx} (h : s.mem.wf = true) :
    (ologdBody f s c).st.mem.wf = true := by
  simp [ologdBody, h]

/-! ## Privileged instructions -/

@[simp] theorem makeDead_memWf {s : State} {a n : Nat} (h : s.mem.wf = true) : (makeDead s a n).mem.wf = true :=
  Memory.filter_wf _ _ h

@[simp] theorem deadmBody_memWf {f : Full} {s : State} {c : Ctx} (h : s.mem.wf = true) :
    (deadmBody f s c).st.mem.wf = true := by
  unfold deadmBody
  extract_lets a n
  split
  · exact h
  · split
    · exact h
    · exact makeDead_memWf h

/-! ## Moves between the active and the pending set outside instructions -/

@[simp] theorem xgetGrant_memWf {qn : Nat} {s : State} (h : s.mem.wf = true) : (xgetGrant qn s).mem.wf = true := by
  unfold xgetGrant
  split
  · exact h
  · extract_lets t
    have ht : t.mem.wf = true := h
    clear_value t
    split
    · exact ht
    · extract_lets +onlyGivenNames m pc r
      have hr : r.mem.wf = true := ht
      clear_value r
      split
      · exact hr
      · split <;> simp [hr]

/-! ## Copy engines -/

@[simp] theorem agentWrite_memWf {s : State} {a n v : Nat} (h : s.mem.wf = true) :
    (agentWrite s a n v).mem.wf = true := by
  simp [agentWrite, h]

@[simp] theorem setEng_memWf {s : State} {e lo n v : Nat} (h : s.mem.wf = true) :
    (setEng s e lo n v).mem.wf = true := by
  simp [setEng, h]

@[simp] theorem engineTailRecord_memWf {e : Nat} {s : State} (h : s.mem.wf = true) :
    (engineTailRecord e s).mem.wf = true := by
  unfold engineTailRecord
  (repeat' split) <;> simp [h]

@[simp] theorem engAdvance_memWf {s : State} {e : Nat} (h : s.mem.wf = true) : (engAdvance s e).mem.wf = true := by
  unfold engAdvance
  (repeat' split) <;> simp [h]

@[simp] theorem putProg_memWf {s : State} {e : Nat} {c : Cmd} {pst ecode chunks : Nat} (h : s.mem.wf = true) :
    (putProg s e c pst ecode chunks).mem.wf = true := by
  simp [putProg, h]

@[simp] theorem endEntry_memWf {s : State} {e a : Nat} (h : s.mem.wf = true) : (endEntry s e a).mem.wf = true := by
  simp [endEntry, h]

@[simp] theorem completeCmd_memWf {s : State} {e : Nat} {c : Cmd} {ecode chunks : Nat} (h : s.mem.wf = true) :
    (completeCmd s e c ecode chunks).mem.wf = true := by
  unfold completeCmd
  extract_lets seq t r v
  have hr : r.mem.wf = true := setEng_memWf (putProg_memWf h)
  exact endEntry_memWf (by simp [v, hr])

@[simp] theorem failCmd_memWf {s : State} {e : Nat} {c : Cmd} {ecode : Nat} (h : s.mem.wf = true) :
    (failCmd s e c ecode).mem.wf = true := by
  simp [failCmd, h]

theorem putPos_memWf {s t : State} {e : Nat} {dst : BitVec 512} {q : List Nat} {bs : List Byte} (h : s.mem.wf = true)
    (ht : putPos s e dst q bs = .ok t) : t.mem.wf = true := by
  unfold putPos at ht
  split at ht
  · split at ht
    · cases ht
    · cases ht
      simp [h]
  all_goals cases ht

theorem posOne_memWf {s t : State} {e : Nat} {c : Cmd} {src dst : BitVec 512} {x : List Nat × Option (List Nat)}
    (h : s.mem.wf = true) (ht : posOne s e c src dst x = .ok t) : t.mem.wf = true := by
  unfold posOne at ht
  split at ht
  · exact putPos_memWf h ht
  · split at ht
    · split at ht
      · cases ht
      · extract_lets r at ht
        split at ht
        · exact putPos_memWf (by simp [r, h]) ht
        · cases ht
    all_goals cases ht

@[simp] theorem posAll_memWf {e : Nat} {c : Cmd} {src dst : BitVec 512} {deny : Bool} :
    ∀ {xs : List (List Nat × Option (List Nat))} {s : State} {pos : Nat}, s.mem.wf = true →
      (posAll s e c src dst deny xs pos).mem.wf = true
  | [], _, _, h => h
  | x :: xs, s, pos, h => by
    unfold posAll
    split
    next t ht => exact posAll_memWf (posOne_memWf h ht)
    · split <;> simp [h]
    · exact h
    · exact failCmd_memWf h
    · simp [h]

theorem engineStep_memWf {e : Nat} {takes : Nat → Bool} {work : State → Cmd → State} {s : State}
    (hw : ∀ c, (work s c).mem.wf = true) (h : s.mem.wf = true) : (engineStep e takes work s).mem.wf = true := by
  unfold engineStep
  split
  · extract_lets t
    have ht : t.mem.wf = true := engAdvance_memWf h
    clear_value t
    split
    · simp [ht]
    · simp [ht]
    · exact ht
  · split
    · exact hw _
    · exact h

theorem cmdWork_memWf {e : Nat} {deny : Bool} {run : State → Cmd → BitVec 512 → BitVec 512 → State} {s : State}
    {c : Cmd}
    (hr : ∀ t src dst, t.mem.wf = true → (run t c src dst).mem.wf = true) (h : s.mem.wf = true) :
    (cmdWork e deny run s c).mem.wf = true := by
  unfold cmdWork
  split
  · exact endEntry_memWf h
  · exact failCmd_memWf h
  · exact completeCmd_memWf h
  · split <;> simp [h]
  · exact h
  · simp [h]
  · exact hr _ _ _ (by simp [h])

@[simp] theorem engineNop_memWf {e : Nat} {s : State} (h : s.mem.wf = true) : (engineNop e s).mem.wf = true :=
  engineStep_memWf (fun _ => cmdWork_memWf (fun _ _ _ h => h) h) h

@[simp] theorem runChunk_memWf {e upto : Nat} {deny : Bool} {s : State} {c : Cmd} {src dst : BitVec 512}
    (h : s.mem.wf = true) : (runChunk e upto deny s c src dst).mem.wf = true := by
  unfold runChunk
  split <;> simp [h]

@[simp] theorem engineCopy_memWf {e upto : Nat} {deny : Bool} {s : State} (h : s.mem.wf = true) :
    (engineCopy e upto deny s).mem.wf = true :=
  engineStep_memWf (fun _ => cmdWork_memWf (fun _ _ _ h => runChunk_memWf h) h) h

@[simp] theorem engineFill_memWf {e upto : Nat} {deny : Bool} {s : State} (h : s.mem.wf = true) :
    (engineFill e upto deny s).mem.wf = true :=
  engineStep_memWf (fun _ => cmdWork_memWf (fun _ _ _ h => runChunk_memWf h) h) h

@[simp] theorem engineChunkDone_memWf {e : Nat} {s : State} (h : s.mem.wf = true) :
    (engineChunkDone e s).mem.wf = true := by
  unfold engineChunkDone
  split <;> simp [h]

@[simp] theorem chainFault_memWf {e : Nat} {s : State} (h : s.mem.wf = true) : (chainFault e s).mem.wf = true := by
  unfold chainFault
  extract_lets +onlyGivenNames t
  have ht : t.mem.wf = true := engAdvance_memWf h
  clear_value t
  split
  · simp [ht]
  · simp [ht]
  · simp [ht]
  · exact ht

@[simp] theorem deadlineExpire_memWf {e : Nat} {s : State} (h : s.mem.wf = true) :
    (deadlineExpire e s).mem.wf = true := by
  unfold deadlineExpire
  split <;> simp [h]

/-! ## From launch to issue -/

@[simp] theorem setQcb_memWf {s : State} {q lo n v : Nat} (h : s.mem.wf = true) :
    (setQcb s q lo n v).mem.wf = true := by
  simp [setQcb, h]

@[simp] theorem launchDoorbell_memWf {q : Nat} {tail : DWord} {s : State} (h : s.mem.wf = true) :
    (launchDoorbell q tail s).mem.wf = true := by
  unfold launchDoorbell
  split <;> simp [h]

@[simp] theorem grantPlots_memWf {s : State} {core ctx lo n : Nat} (h : s.mem.wf = true) :
    (grantPlots s core ctx lo n).mem.wf = true := by
  refine foldl_memWf (fun t p ht => ?_) _ h
  extract_lets a b
  split
  · exact ht
  · exact Memory.clear_wf _ _ _ ht

@[simp] theorem grantRegPlots_memWf {s : State} {core ctx : Nat} {d : KDesc} {spots : List Spot}
    (h : s.mem.wf = true) : (grantRegPlots s core ctx d spots).mem.wf = true :=
  foldl_memWf (fun _ _ ht => by simp [ht]) _ h

@[simp] theorem putTeam_memWf {s : State} {l : Launch} {n : Nat} {old : Option Team} {c : Code} {f : Fit}
    (h : s.mem.wf = true) : (putTeam s l n old c f).mem.wf = true := by
  unfold putTeam
  extract_lets d
  split
  next id r e =>
  cases e
  extract_lets +onlyGivenNames uid base t v
  have hv : v.mem.wf = true := by
    refine foldl_memWf (fun r core hr => ?_) _ h
    dsimp only
    rw [State.mapCore_mem]
    refine grantPlots_memWf (grantPlots_memWf (grantRegPlots_memWf ?_))
    rw [State.mapCore_mem]
    exact hr
  simp [hv]

theorem placeOne_memWf {l : Launch} {s t : State} {n : Nat} {old : Option Team} (h : s.mem.wf = true)
    (ht : placeOne l s n old = some t) : t.mem.wf = true := by
  unfold placeOne at ht
  split at ht
  · cases ht
    exact putTeam_memWf h
  · cases ht

/-- Each team of a set is placed where the ones before it have been placed. -/
theorem foldl_placeOne_memWf {l : Launch} {xs : List (Nat × Option Team)} : ∀ {o : Option State},
    (∀ t, o = some t → t.mem.wf = true) → ∀ {t : State},
      xs.foldl (fun r x => match r with | some s => placeOne l s x.1 x.2 | none => none) o = some t → t.mem.wf =
        true := by
  induction xs with
  | nil => exact fun ho _ ht => ho _ ht
  | cons x xs ih =>
    intro o ho t ht
    refine ih (fun r hr => ?_) ht
    cases o with
    | none => cases hr
    | some s => exact placeOne_memWf (ho s rfl) hr

theorem placeSet_memWf {l : Launch} {xs : List (Nat × Option Team)} {s t : State} (h : s.mem.wf = true)
    (ht : placeSet s l xs = some t) : t.mem.wf = true :=
  foldl_placeOne_memWf (fun r hr => by cases hr; exact h) ht

@[simp] theorem launchRecordRead_memWf {q : Nat} {s : State} (h : s.mem.wf = true) :
    (launchRecordRead q s).mem.wf = true := by
  unfold launchRecordRead
  extract_lets +onlyGivenNames b
  split
  · exact h
  · extract_lets +onlyGivenNames a ka at_
    clear_value at_
    split
    · simp [h]
    · split
      · exact h
      · extract_lets l t
        refine setQcb_memWf ?_
        show t.mem.wf = true
        unfold t
        split <;> simp [h]

@[simp] theorem preemptFor_memWf {l : Launch} {xs : List (Nat × Option Team)} : ∀ {ts : List Team} {s : State},
    s.mem.wf = true → (preemptFor s l xs ts).mem.wf = true
  | [], _, h => h
  | t :: ts, s, h => by
    unfold preemptFor
    split
    · exact h
    · exact preemptFor_memWf (by simp [h])

@[simp] theorem teamPlace_memWf {s : State} (h : s.mem.wf = true) : (teamPlace s).mem.wf = true := by
  unfold teamPlace
  split
  · exact h
  · split
    · exact h
    · extract_lets t
      have ht : t.mem.wf = true := h
      clear_value t
      split
      · exact ht
      · split
        next r hr => simp [placeSet_memWf ht hr]
        · exact preemptFor_memWf ht

@[simp] theorem argCopyDone_memWf {tu : Nat} {s : State} (h : s.mem.wf = true) : (argCopyDone tu s).mem.wf = true := by
  unfold argCopyDone
  split
  · exact h
  · split
    · exact h
    · extract_lets start
      have hs : ∀ r : State, (start r).mem = r.mem := fun _ => rfl
      clear_value start
      split
      · simp [hs, h]
      · split
        · exact h
        · split
          · exact h
          · split
            · exact h
            · extract_lets t
              split
              extract_lets r
              have hr : r.mem.wf = true := by
                unfold r
                split <;> simp [t, h]
              simp [hs, hr]

@[simp] theorem shareWrite_memWf {s : State} {t : Team} {o : Nat} {bs : List Byte} (h : s.mem.wf = true) :
    (shareWrite s t o bs).mem.wf = true := by
  simp [shareWrite, h]

@[simp] theorem fetchwAnswer_memWf {tu : Nat} {s : State} (h : s.mem.wf = true) :
    (fetchwAnswer tu s).mem.wf = true := by
  unfold fetchwAnswer
  (repeat' split) <;> simp [h]

@[simp] theorem putFault_memWf {s : State} {a : Nat} {r : FaultRec} (h : s.mem.wf = true) :
    (putFault s a r).mem.wf = true :=
  agentWrite_memWf (agentWrite_memWf (agentWrite_memWf h))

@[simp] theorem launchComplete_memWf {q : Nat} {s : State} (h : s.mem.wf = true) :
    (launchComplete q s).mem.wf = true := by
  unfold launchComplete
  split
  · exact h
  · split
    · exact h
    · extract_lets +onlyGivenNames a t r v
      have ht : t.mem.wf = true := by
        unfold t
        split
        · simp [h]
        · exact h
      have hv : v.mem.wf = true := setQcb_memWf (agentWrite_memWf ht)
      simp [hv]

@[simp] theorem watchdogExpire_memWf {q k : Nat} {s : State} (h : s.mem.wf = true) :
    (watchdogExpire q k s).mem.wf = true := by
  unfold watchdogExpire
  split <;> simp [h]

/-! ## The device and what surrounds it -/

@[simp] theorem peerAct_memWf {s : State} {size : Nat} {l : Loc} {a : PeerAct} (h : s.mem.wf = true) :
    (peerAct s size l a).1.mem.wf = true := by
  unfold peerAct
  (repeat' split) <;> simp [h]

@[simp] theorem peerRequest_memWf {r : PeerReq} {s : State} (h : s.mem.wf = true) :
    (peerRequest r s).mem.wf = true := by
  unfold peerRequest
  extract_lets va
  split
  · exact h
  · split
    · simp [h]
    · split
      · split
        · exact h
        · split
          next t e he =>
          have ht : t.mem.wf = true := fst_memWf he (by simp [h])
          simp [ht]
      · simp [h]
      · simp [h]

@[simp] theorem peerAnswer_memWf {target : Nat} {r : PeerReq} {e : PeerEnd} {s : State} (h : s.mem.wf = true) :
    (peerAnswer target r e s).mem.wf = true := by
  unfold peerAnswer
  (repeat' split) <;> simp [h]

@[simp] theorem takeFlit_memWf {x : Flit} {s : State} (h : s.mem.wf = true) : (takeFlit x s).mem.wf = true := by
  unfold takeFlit
  split <;> simp [h]

@[simp] theorem linkFlitReceive_memWf {port seq : Nat} {crcOk : Bool} {payload : Flit} {s : State}
    (h : s.mem.wf = true) : (linkFlitReceive port seq crcOk payload s).mem.wf = true := by
  simp [linkFlitReceive, h]

theorem bringUp_memWf (image : Image) (s : State) : (bringUp image s).mem.wf = true := rfl

theorem coldReset_memWf (image : Image) (s : State) : (coldReset image s).mem.wf = true :=
  bringUp_memWf ..

@[simp] theorem recoveryNewImage_memWf {image : Image} {s : State} (h : s.mem.wf = true) :
    (recoveryNewImage image s).mem.wf = true := by
  unfold recoveryNewImage
  split
  · exact bringUp_memWf ..
  · exact h

/-! ## The PC table, issue selection and the end of a step -/

@[simp] theorem dropDead_memWf {s : State} {qn : Nat} (h : s.mem.wf = true) : (dropDead s qn).mem.wf = true := by
  unfold dropDead
  extract_lets dead es
  split
  · exact h
  · exact foldl_memWf (fun _ _ ht => dropEntry_memWf ht) _ h

end Sys2Proof.Machine

end

