-- ==== Sys2Proof/Proofs/MemoryWords.lean ====
section
/-!
PROOF. What every word does with memory: its effect leaves the bytes alone or keeps their canonical form.
-/
namespace Sys2Proof.Machine

/-- The body of a word leaves memory alone. -/
def Sem.LeavesMemory (m : Sem) : Prop := ∀ s c, (m.body s c).st.mem = s.mem

/-! ## Words whose lanes each answer at once -/

theorem alu_leaves {f : Full} {ops : Nat → List Opnd} {g : Ctx → Nat → Thread → LaneOut} : (alu f ops g).LeavesMemory :=
  lanewise_memory g

theorem semSel_leaves (f : Full) : (semSel f).LeavesMemory := fun s c => by simp [semSel, alu]

theorem semPlog_leaves (f : Full) : (semPlog f).LeavesMemory := fun s c => by simp [semPlog, alu]

theorem semVote_leaves (f : Full) : (semVote f).LeavesMemory := fun s c => by simp [semVote, alu]

theorem semBrw_leaves (f : Full) : (semBrw f).LeavesMemory := fun s c => by simp [semBrw, alu]

theorem semLxb_leaves (f : Full) : (semLxb f).LeavesMemory := fun s c => by simp [semLxb, exchange]

theorem semLxs_leaves (f : Full) : (semLxs f).LeavesMemory := fun s c => by simp [semLxs, exchange]

theorem semLxbc_leaves (f : Full) : (semLxbc f).LeavesMemory := fun s c => by simp [semLxbc, exchange]

theorem semMovx_leaves (f : Full) : (semMovx f).LeavesMemory := fun s c => by simp [semMovx]

theorem semMovxw_leaves (f : Full) : (semMovxw f).LeavesMemory := fun s c => by simp [semMovxw]

theorem semGets_leaves (f : Full) : (semGets f).LeavesMemory := fun s c => by simp [semGets]

theorem semMxstat_leaves (f : Full) : (semMxstat f).LeavesMemory := fun s c => by simp [semMxstat]

theorem semPmov_leaves (f : Full) : (semPmov f).LeavesMemory := by
  unfold semPmov
  split
  · exact fun s c => by simp [alu]
  · exact alu_leaves

theorem semSetx_leaves (f : Full) : (semSetx f).LeavesMemory := by
  unfold semSetx
  split
  · exact fun s c => by simp [alu]
  · exact fun s c => by simp [alu]

theorem semTag_leaves (f : Full) : (semTag f).LeavesMemory := by
  unfold semTag
  split
  · exact tagBody_memory f
  · exact alu_leaves

theorem semPair_leaves {a b : HalfWord} : (semPair a b).LeavesMemory := fun s c => by simp [semPair]

/-! ## Words of a producer -/

theorem semFdiv_leaves (f : Full) : (semFdiv f).LeavesMemory := fun s c => by simp [semFdiv]

theorem semCrcp_leaves (f : Full) : (semCrcp f).LeavesMemory := fun s c => by simp [semCrcp]

theorem floatLong_leaves {f : Full} {op : Rnd → Nat → Nat × FFlags} :
    (floatLong f op).LeavesMemory := fun s c => by simp [floatLong]

/-! ## Loads, stores and atomics -/

theorem semLd_leaves (f : Full) : (semLd f).LeavesMemory := fun s c => by simp [semLd, memSem]

theorem semSt_leaves (f : Full) : (semSt f).LeavesMemory := fun s c => by simp [semSt, memSem]

theorem semLds_leaves (f : Full) : (semLds f).LeavesMemory := fun s c => by simp [semLds, memSem]

theorem semSts_leaves (f : Full) : (semSts f).LeavesMemory := fun s c => by simp [semSts, memSem]

theorem semLdp_leaves (f : Full) : (semLdp f).LeavesMemory := fun s c => by simp [semLdp, memSem]

theorem semStp_leaves (f : Full) : (semStp f).LeavesMemory := fun s c => by simp [semStp, memSem]

theorem semLdro_leaves (f : Full) : (semLdro f).LeavesMemory := fun s c => by simp [semLdro, memSem]

theorem semLdt_leaves (f : Full) : (semLdt f).LeavesMemory := fun s c => by simp [semLdt, memSem]

theorem semStt_leaves (f : Full) : (semStt f).LeavesMemory := fun s c => by simp [semStt, memSem]

theorem semRsadd_leaves (f : Full) : (semRsadd f).LeavesMemory := fun s c => by simp [semRsadd, memSem]

theorem atomSem_leaves {f : Full} {ops : State → Wave → Nat → List Opnd} {as : State → Ctx → List Acc} :
    (atomSem f ops as).LeavesMemory :=
  fun _ _ => atomicAccs_memory ..

/-! ## Words of a progress index -/

theorem longOp_memory {always : Bool} {pts : List Nat} {run : Option Nat → Res} {s : State} {c : Ctx}
    (hr : ∀ k, (run k).st.mem = s.mem) : (longOp always pts run s c).st.mem = s.mem := by
  unfold longOp
  split
  · extract_lets +onlyGivenNames r
    split <;> simp [r, hr]
  · split
    · rfl
    · split
      · rfl
      · simp [hr]

theorem semFsumv_leaves (f : Full) : (semFsumv f).LeavesMemory := by
  intro s c
  unfold semFsumv
  dsimp only
  refine longOp_memory fun k => ?_
  simp [apply_ite]

theorem semLxrd_leaves (f : Full) : (semLxrd f).LeavesMemory := by
  intro s c
  unfold semLxrd
  dsimp only
  refine longOp_memory fun k => ?_
  split
  · exact writePart_memory ..
  · exact produce_memory ..

theorem semLdg_leaves (f : Full) : (semLdg f).LeavesMemory :=
  fun _ _ => longOp_memory fun _ => loadAccs_memory ..

theorem semStg_leaves (f : Full) : (semStg f).LeavesMemory :=
  fun _ _ => longOp_memory fun _ => storeAccs_memory ..

/-! ## Words with forms of their own -/

theorem semAtomt_leaves (f : Full) : (semAtomt f).LeavesMemory := by
  intro s c
  unfold semAtomt
  extract_lets op accs
  simp

theorem semPref_leaves (f : Full) : (semPref f).LeavesMemory :=
  fun _ c => foldl_memory (fun t l => prefLane_memory f t c l) _ _

theorem semWmov_leaves (f : Full) : (semWmov f).LeavesMemory := by
  intro s c
  simp [semWmov]

theorem semWin_leaves (f : Full) : (semWin f).LeavesMemory := by
  intro s c
  simp [semWin]

theorem semYield_leaves (f : Full) : (semYield f).LeavesMemory := by
  intro s c
  simp [semYield]

theorem semExit_leaves (f : Full) : (semExit f).LeavesMemory := by
  intro s c
  simp [semExit]

theorem semAbort_leaves (f : Full) : (semAbort f).LeavesMemory := by
  intro s c
  simp [semAbort]

theorem semTstate_leaves (f : Full) : (semTstate f).LeavesMemory := by
  intro s c
  unfold semTstate
  dsimp only
  split
  · exact lanewise_memory ..
  · rfl

theorem semTwait_leaves (f : Full) : (semTwait f).LeavesMemory := by
  intro s c
  simp [semTwait]

theorem semRegq_leaves (f : Full) : (semRegq f).LeavesMemory := by
  intro s c
  unfold semRegq memSem
  dsimp only
  split
  · rfl
  · exact askFlight_memory ..

theorem semCseq_leaves (f : Full) : (semCseq f).LeavesMemory := by
  intro s c
  unfold semCseq
  dsimp only
  split
  · rfl
  · simp

theorem semWaitqReg_leaves (f : Full) : (semWaitqReg f).LeavesMemory := by
  intro s c
  unfold semWaitqReg
  dsimp only
  split
  · rfl
  · exact waitqBody_memory ..

theorem semBarReg_leaves (f : Full) : (semBarReg f).LeavesMemory := by
  intro s c
  simp [semBarReg]

theorem semBarg_leaves (f : Full) : (semBarg f).LeavesMemory := by
  intro s c
  simp [semBarg]

/-! ## Every word -/

/-- The body of a word keeps the canonical form of memory. -/
def Sem.KeepsForm (m : Sem) : Prop := ∀ s c, s.mem.wf = true → (m.body s c).st.mem.wf = true

theorem Sem.LeavesMemory.keepsForm {m : Sem} (h : m.LeavesMemory) : m.KeepsForm := fun s c hs => by rw [h s c, hs]

theorem semOf_keepsForm {ins : Instr} {m : Sem} (h : semOf ins = some m) : m.KeepsForm := by
  cases ins
  case iadd | isub | imul | imulh | imad | imin | imax | iabs | ineg | and | or | xor | andn | not | shl | shr | sar
    | rot | fshf | popc | clz | ctz | brev | bfx | bfi | lea | idot4 | bpick | fadd | fsub | fmul | fma | fnma | fmin
    | fmax | fabs | fneg | frnd | fscl | fcls | fdot2 | cmul | cfma | cconj | cvt | srnd | pack | unpk | icmp | fcmp
    | mov | movi | bra | brx | call | ret | tstat => cases h; exact alu_leaves.keepsForm
  case frcp | frsq | fsqrt | fexp2 | flog2 | fsin | fcos => cases h; exact floatLong_leaves.keepsForm
  case iaddHalf | isubHalf | imulHalf | iminHalf | imaxHalf | andHalf | orHalf | xorHalf | shlHalf | shrHalf |
    sarHalf | faddHalf | fsubHalf | fmulHalf | fminHalf | fmaxHalf | fabsHalf | fnegHalf | movHalf | cvtHalf =>
    cases h; exact semPair_leaves.keepsForm
  case atom | atomsReg | atomsImm => cases h; exact atomSem_leaves.keepsForm
  case fdiv f => cases h; exact (semFdiv_leaves f).keepsForm
  case crcp f => cases h; exact (semCrcp_leaves f).keepsForm
  case sel f => cases h; exact (semSel_leaves f).keepsForm
  case plog f => cases h; exact (semPlog_leaves f).keepsForm
  case vote f => cases h; exact (semVote_leaves f).keepsForm
  case brw f => cases h; exact (semBrw_leaves f).keepsForm
  case lxb f => cases h; exact (semLxb_leaves f).keepsForm
  case lxs f => cases h; exact (semLxs_leaves f).keepsForm
  case lxbc f => cases h; exact (semLxbc_leaves f).keepsForm
  case movx f => cases h; exact (semMovx_leaves f).keepsForm
  case movxw f => cases h; exact (semMovxw_leaves f).keepsForm
  case gets f => cases h; exact (semGets_leaves f).keepsForm
  case mxstat f => cases h; exact (semMxstat_leaves f).keepsForm
  case pmov f => cases h; exact (semPmov_leaves f).keepsForm
  case setx f => cases h; exact (semSetx_leaves f).keepsForm
  case tag f => cases h; exact (semTag_leaves f).keepsForm
  case fsumv f => cases h; exact (semFsumv_leaves f).keepsForm
  case lxrd f => cases h; exact (semLxrd_leaves f).keepsForm
  case ld f => cases h; exact (semLd_leaves f).keepsForm
  case st f => cases h; exact (semSt_leaves f).keepsForm
  case lds f => cases h; exact (semLds_leaves f).keepsForm
  case sts f => cases h; exact (semSts_leaves f).keepsForm
  case ldp f => cases h; exact (semLdp_leaves f).keepsForm
  case stp f => cases h; exact (semStp_leaves f).keepsForm
  case ldro f => cases h; exact (semLdro_leaves f).keepsForm
  case ldt f => cases h; exact (semLdt_leaves f).keepsForm
  case stt f => cases h; exact (semStt_leaves f).keepsForm
  case rsadd f => cases h; exact (semRsadd_leaves f).keepsForm
  case ldg f => cases h; exact (semLdg_leaves f).keepsForm
  case stg f => cases h; exact (semStg_leaves f).keepsForm
  case atomt f => cases h; exact (semAtomt_leaves f).keepsForm
  case pref f => cases h; exact (semPref_leaves f).keepsForm
  case wmov f => cases h; exact (semWmov_leaves f).keepsForm
  case win f => cases h; exact (semWin_leaves f).keepsForm
  case yield f => cases h; exact (semYield_leaves f).keepsForm
  case exit f => cases h; exact (semExit_leaves f).keepsForm
  case abort f => cases h; exact (semAbort_leaves f).keepsForm
  case tstate f => cases h; exact (semTstate_leaves f).keepsForm
  case twait f => cases h; exact (semTwait_leaves f).keepsForm
  case regq f => cases h; exact (semRegq_leaves f).keepsForm
  case cseq f => cases h; exact (semCseq_leaves f).keepsForm
  case waitqReg f => cases h; exact (semWaitqReg_leaves f).keepsForm
  case barReg f => cases h; exact (semBarReg_leaves f).keepsForm
  case barg f => cases h; exact (semBarg_leaves f).keepsForm
  case sets f => cases h; exact Sem.LeavesMemory.keepsForm (setsBody_memory f)
  case xrel f => cases h; exact Sem.LeavesMemory.keepsForm (xrelBody_memory f)
  case jpt f => cases h; exact Sem.LeavesMemory.keepsForm (jptBody_memory f)
  case join f => cases h; exact Sem.LeavesMemory.keepsForm (joinBody_memory f)
  case trap f => cases h; exact Sem.LeavesMemory.keepsForm (breakBody_memory f true)
  case brk f => cases h; exact Sem.LeavesMemory.keepsForm (breakBody_memory f false)
  case tryTx f => cases h; exact Sem.LeavesMemory.keepsForm (tryBody_memory f)
  case commit f => cases h; exact Sem.LeavesMemory.keepsForm (commitBody_memory)
  case lapr f => cases h; exact Sem.LeavesMemory.keepsForm (laprBody_memory f)
  case tdef f => cases h; exact Sem.LeavesMemory.keepsForm (tdefBody_memory f)
  case tld f => cases h; exact Sem.LeavesMemory.keepsForm (xferBody_memory f true)
  case tst f => cases h; exact Sem.LeavesMemory.keepsForm (xferBody_memory f false)
  case trd f => cases h; exact Sem.LeavesMemory.keepsForm (trdBody_memory f)
  case waitm f => cases h; exact Sem.LeavesMemory.keepsForm (waitmBody_memory f)
  case mxrsv f => cases h; exact Sem.LeavesMemory.keepsForm (mxrsvBody_memory f)
  case mxrel f => cases h; exact Sem.LeavesMemory.keepsForm (mxrelBody_memory)
  case mxgoImm f => cases h; exact Sem.LeavesMemory.keepsForm (mxgoBody_memory f _)
  case mxgoReg f => cases h; exact Sem.LeavesMemory.keepsForm (mxgoBody_memory f _)
  case mxprom f => cases h; exact Sem.LeavesMemory.keepsForm (mxpromBody_memory f)
  case ctail f => cases h; exact Sem.LeavesMemory.keepsForm (ctailBody_memory f)
  case rth f => cases h; exact Sem.LeavesMemory.keepsForm (rthBody_memory)
  case hget f => cases h; exact Sem.LeavesMemory.keepsForm (hgetBody_memory f)
  case hset f => cases h; exact Sem.LeavesMemory.keepsForm (hsetBody_memory f)
  case park f => cases h; exact Sem.LeavesMemory.keepsForm (parkBody_memory f)
  case cinv f => cases h; exact Sem.LeavesMemory.keepsForm (cinvBody_memory f)
  case xlinv f => cases h; exact Sem.LeavesMemory.keepsForm (xlinvBody_memory f)
  case apset f => cases h; exact Sem.LeavesMemory.keepsForm (apsetBody_memory f)
  case waitcImm f => cases h; exact Sem.LeavesMemory.keepsForm fun _ _ => waitcBody_memory ..
  case waitcReg f => cases h; exact Sem.LeavesMemory.keepsForm fun _ _ => waitcBody_memory ..
  case waitlReg f => cases h; exact Sem.LeavesMemory.keepsForm fun _ _ => waitlBody_memory ..
  case waitlImm f => cases h; exact Sem.LeavesMemory.keepsForm fun _ _ => waitlBody_memory ..
  case waitqImm f => cases h; exact Sem.LeavesMemory.keepsForm fun _ _ => waitqBody_memory ..
  case barImm f => cases h; exact Sem.LeavesMemory.keepsForm fun _ _ => barBody_memory ..
  case fetchwImm f => cases h; exact Sem.LeavesMemory.keepsForm fun _ _ => fetchwBody_memory ..
  case fetchwReg f => cases h; exact Sem.LeavesMemory.keepsForm fun _ _ => fetchwBody_memory ..
  case nop f => cases h; exact Sem.LeavesMemory.keepsForm fun _ _ => rfl
  case setf f => cases h; exact Sem.LeavesMemory.keepsForm fun _ _ => raiseFlags_memory ..
  case loopw f => cases h; exact Sem.LeavesMemory.keepsForm fun _ _ => State.mapWave_mem ..
  case elect f => cases h; exact Sem.LeavesMemory.keepsForm fun _ _ => State.mapWave_mem ..
  case replay f => cases h; exact Sem.LeavesMemory.keepsForm fun _ _ => resumeEntries_memory ..
  case xget f => cases h; exact fun _ _ => xgetBody_memWf
  case xgetP f => cases h; exact fun _ _ => xgetPBody_memWf
  case tzero f => cases h; exact fun _ _ => tzeroBody_memWf
  case twr f => cases h; exact fun _ _ => twrBody_memWf
  case regpinPin f => cases h; exact fun _ _ => regionAsk_memWf
  case regpinUnpin f => cases h; exact fun _ _ => regionAsk_memWf
  case regpinClear f => cases h; exact fun _ _ => regionAsk_memWf
  case regadv f => cases h; exact fun _ _ => regionAsk_memWf
  case deadm f => cases h; exact fun _ _ => deadmBody_memWf
  case ologdDrop f => cases h; exact fun _ _ => ologdBody_memWf
  all_goals cases h

end Sys2Proof.Machine

end

