-- ==== Sys2Proof/Proofs/MemoryInvariant.lean ====
section
/-!
PROOF. Every step keeps the canonical form of memory (R137, R445): words, events and the step.
-/
namespace Sys2Proof.Machine

/-! ## The common course of a word -/

theorem settleShare_memWf {i : Issue} {m : Sem} {u : Nat} {rd : Wave} {grp : Mask} {early : List Trap} {r : Res}
    (h : r.st.mem.wf = true) : (settleShare i m u rd grp early r).mem.wf = true := by
  simp [settleShare, h]

theorem runShare_memWf {m : Sem} (hm : m.KeepsForm) {i : Issue} {bad : Option DWord} {s : State} {p : Share} {r : Ready}
    (h : s.mem.wf = true) : (runShare m i bad s p r).mem.wf = true := by
  unfold runShare
  extract_lets +onlyGivenNames grp act0 ops early act
  split
  · exact h
  · split
    · exact settleShare_memWf h
    · extract_lets +onlyGivenNames hits t
      have ht : t.mem = s.mem := by simp [t]
      clear_value t
      rw [← ht] at h
      split
      · exact settleShare_memWf h
      · split
        · exact settleShare_memWf h
        · exact settleShare_memWf (hm _ _ h)

theorem issueFull_memWf {m : Sem} (hm : m.KeepsForm) {s : State} (h : s.mem.wf = true) :
    (issueFull m s).mem.wf = true := by
  unfold issueFull
  split
  · exact h
  · extract_lets +onlyGivenNames ps
    split
    · simp [h]
    · split
      · exact h
      · extract_lets +onlyGivenNames rs t
        have ht : t.mem = s.mem := foldl_memory (fun _ _ => leaveWaiters_memory ..) _ _
        clear_value t
        rw [← ht] at h
        split
        · exact h
        · exact foldl_memWf (fun _ _ => runShare_memWf hm) _ h

/-! ## The stop of a long word (R211) -/

theorem semOf_of_longSem {ins : Instr} {m : Sem} (h : longSem ins = some m) : semOf ins = some m := by
  cases ins
  case ldg | stg | fsumv | lxrd => exact h
  all_goals cases h

theorem stopEntry_memWf {s t : State} {w : Wave} {n : Nat} {e : Entry} (ht : stopEntry s w n e = some t)
    (h : s.mem.wf = true) : t.mem.wf = true := by
  unfold stopEntry at ht
  extract_lets +onlyGivenNames ps at ht
  split at ht
  · cases ht
  · next m hm =>
    split at ht
    · cases ht
    · extract_lets +onlyGivenNames i₀ i r q at ht
      have hq : q.mem.wf = true := issueFull_memWf (semOf_keepsForm (semOf_of_longSem hm)) h
      clear_value q
      split at ht
      · cases ht
      · split at ht
        · cases ht
          exact hq
        · cases ht

theorem stepFour_memWf {s t : State} {w : Wave} (ht : stepFour s w = some t) (h : s.mem.wf = true) :
    t.mem.wf = true := by
  unfold stepFour at ht
  split at ht
  · cases ht
  · obtain ⟨x, _, hx⟩ := List.exists_of_findSome?_eq_some ht
    exact stopEntry_memWf hx h

theorem preemptDeliver_memWf {u : Nat} {s : State} (h : s.mem.wf = true) : (preemptDeliver u s).mem.wf = true := by
  unfold preemptDeliver
  split
  · exact h
  · split
    · next ht => exact stepFour_memWf ht h
    · split <;> simp [h]

/-! ## What follows every step -/

@[simp] theorem settleWave_memory (s : State) (u : Nat) : (settleWave s u).mem = s.mem := by
  unfold settleWave
  split
  · rfl
  · simp

theorem settle_memWf {s : State} {issued : Option (Nat × Nat)} (h : s.mem.wf = true) :
    (settle s issued).mem.wf = true := by
  unfold settle
  refine foldl_memWf (fun t qn ht => ?_) _ (by simp [h])
  extract_lets +onlyGivenNames a own b c
  have hc : c.mem.wf = true := by simp [c, b, a, ht]
  clear_value c
  split
  · extract_lets +onlyGivenNames d
    split <;> simp [d, hc]
  · exact hc

/-! ## One instruction or event -/

theorem finish_memWf {s t : State} (h : finish s = .next t) (hs : s.mem.wf = true) : t.mem.wf = true := by
  rw [(finish_inv s t h).2]
  exact hs

theorem wf_of_mem_eq {s t : State} (e : t.mem = s.mem) (hs : s.mem.wf = true) : t.mem.wf = true := by
  rw [e]
  exact hs

theorem execX_memWf {m : Sem} (hm : m.KeepsForm) {s t : State} (h : execX m s = .next t) (hs : s.mem.wf = true) :
    t.mem.wf = true :=
  finish_memWf h (issueFull_memWf hm hs)

theorem exec_memWf {i : Instr} {s t : State} (h : exec i s = .next t) (hs : s.mem.wf = true) : t.mem.wf = true := by
  rcases hi : semOf i with _ | m
  · cases i
    case illegalWord => exact finish_memWf h (wf_of_mem_eq (illegalWord_memory ..) hs)
    case textOverrun => exact finish_memWf h (wf_of_mem_eq (textOverrun_memory ..) hs)
    case registerWriteback => exact finish_memWf h (wf_of_mem_eq (registerWriteback_memory ..) hs)
    case readErrorReturn => exact finish_memWf h (wf_of_mem_eq (readErrorReturn_memory ..) hs)
    case oplogResume => exact finish_memWf h (wf_of_mem_eq (oplogResume_memory ..) hs)
    case pageDeliver => exact finish_memWf h (wf_of_mem_eq (pageDeliver_memory ..) hs)
    case growDeny => exact finish_memWf h (wf_of_mem_eq (growDeny_memory ..) hs)
    case waveSwap => exact finish_memWf h (wf_of_mem_eq (waveSwap_memory ..) hs)
    case quantumExpire => exact finish_memWf h (wf_of_mem_eq (quantumExpire_memory ..) hs)
    case pendingWaveEnter => exact finish_memWf h (wf_of_mem_eq (pendingWaveEnter_memory ..) hs)
    case waitConditionMet => exact finish_memWf h (wf_of_mem_eq (waitConditionMet_memory ..) hs)
    case barrierComplete => exact finish_memWf h (wf_of_mem_eq (barrierComplete_memory ..) hs)
    case gangBarrierComplete => exact finish_memWf h (wf_of_mem_eq (gangBarrierComplete_memory ..) hs)
    case teamRetire => exact finish_memWf h (wf_of_mem_eq (teamRetire_memory ..) hs)
    case storeOrderPoint => exact finish_memWf h (wf_of_mem_eq (orderPoint_memory ..) hs)
    case storeAck => exact finish_memWf h (wf_of_mem_eq (ackEntry_memory ..) hs)
    case transactionConflict => exact finish_memWf h (wf_of_mem_eq (transactionConflict_memory ..) hs)
    case commitStep => exact finish_memWf h (wf_of_mem_eq (commitStep_memory ..) hs)
    case parcelStaged => exact finish_memWf h (wf_of_mem_eq (parcelStaged_memory ..) hs)
    case mxOpStart => exact finish_memWf h (wf_of_mem_eq (mxStart_memory ..) hs)
    case mxReservationReacquire => exact finish_memWf h (wf_of_mem_eq (mxReservationReacquire_memory ..) hs)
    case steppeAdmit => exact finish_memWf h (wf_of_mem_eq (steppeAdmit_memory ..) hs)
    case infuserDecode => exact finish_memWf h (wf_of_mem_eq (infuserDecode_memory ..) hs)
    case deadlinePromote => exact finish_memWf h (wf_of_mem_eq (deadlinePromote_memory ..) hs)
    case engineTailDoorbell => exact finish_memWf h (wf_of_mem_eq (engineTailDoorbell_memory ..) hs)
    case launchStartable => exact finish_memWf h (wf_of_mem_eq (launchStartable_memory ..) hs)
    case argCopyFault => exact finish_memWf h (wf_of_mem_eq (argCopyFault_memory ..) hs)
    case saveTimeoutKill => exact finish_memWf h (wf_of_mem_eq (saveTimeoutKill_memory ..) hs)
    case launchKill => exact finish_memWf h (wf_of_mem_eq (launchKill_memory ..) hs)
    case killDeliver => exact finish_memWf h (wf_of_mem_eq (killDeliver_memory ..) hs)
    case shootdownReceive => exact finish_memWf h (wf_of_mem_eq (shootdownReceive_memory ..) hs)
    case shootdownAck => exact finish_memWf h (wf_of_mem_eq (shootdownAck_memory ..) hs)
    case fenceTimeout => exact finish_memWf h (wf_of_mem_eq (fenceTimeout_memory ..) hs)
    case refreshDue => exact finish_memWf h (wf_of_mem_eq (refreshDue_memory ..) hs)
    case refreshRepay => exact finish_memWf h (wf_of_mem_eq (refreshRepay_memory ..) hs)
    case rowAlert => exact finish_memWf h (wf_of_mem_eq (rowAlert_memory ..) hs)
    case backoffEnd => exact finish_memWf h (wf_of_mem_eq (backoffEnd_memory ..) hs)
    case selfRefreshEnter => exact finish_memWf h (wf_of_mem_eq (selfRefreshEnter_memory ..) hs)
    case selfRefreshExit => exact finish_memWf h (wf_of_mem_eq (selfRefreshExit_memory ..) hs)
    case uncorrectableError => exact finish_memWf h (wf_of_mem_eq (uncorrectableError_memory ..) hs)
    case clockLower => exact finish_memWf h (wf_of_mem_eq (clockLower_memory ..) hs)
    case keyLoad => exact finish_memWf h (wf_of_mem_eq (keyLoad_memory ..) hs)
    case keyClear => exact finish_memWf h (wf_of_mem_eq (keyClear_memory ..) hs)
    case quoteRequest => exact finish_memWf h (wf_of_mem_eq (quoteRequest_memory ..) hs)
    case measurementAppend => exact finish_memWf h (wf_of_mem_eq (measurementAppend_memory ..) hs)
    case sliceStatusClear => exact finish_memWf h (wf_of_mem_eq (sliceStatusClear_memory ..) hs)
    case registerWrite => exact finish_memWf h (wf_of_mem_eq (registerWrite_memory ..) hs)
    case coreReset => exact finish_memWf h (wf_of_mem_eq (coreReset_memory ..) hs)
    case sliceReset => exact finish_memWf h (wf_of_mem_eq (sliceReset_memory ..) hs)
    case engineReset => exact finish_memWf h (wf_of_mem_eq (engineReset_memory ..) hs)
    case linkReset => exact finish_memWf h (wf_of_mem_eq (linkReset_memory ..) hs)
    case registerSoftError => exact finish_memWf h (wf_of_mem_eq (registerSoftError_memory ..) hs)
    case engineCauseTaken => exact finish_memWf h (wf_of_mem_eq (engineCauseTaken_memory ..) hs)
    case clockRaise => exact finish_memWf h (wf_of_mem_eq (clockRaise_memory ..) hs)
    case ownershipFlip => exact finish_memWf h (ownershipFlip_memWf hs)
    case xgetGrant => exact finish_memWf h (xgetGrant_memWf hs)
    case storePerformed => exact finish_memWf h (performEntry_memWf hs)
    case monitorSignature => exact finish_memWf h (monitorSignature_memWf hs)
    case parcelWriteout => exact finish_memWf h (parcelWriteout_memWf hs)
    case parcelNew => exact finish_memWf h (parcelNew_memWf hs)
    case descriptorWrite => exact finish_memWf h (descriptorWrite_memWf hs)
    case tldComplete => exact finish_memWf h (runXfer_memWf hs)
    case tstComplete => exact finish_memWf h (runXfer_memWf hs)
    case mxOpComplete => exact finish_memWf h (mxComplete_memWf hs)
    case steppeRowApply => exact finish_memWf h (steppeRowApply_memWf hs)
    case lapEnd => exact finish_memWf h (lapEnd_memWf hs)
    case lapDoneToken => exact finish_memWf h (lapDoneToken_memWf hs)
    case engineTailRecord => exact finish_memWf h (engineTailRecord_memWf hs)
    case engineNop => exact finish_memWf h (engineNop_memWf hs)
    case engineCopy => exact finish_memWf h (engineCopy_memWf hs)
    case engineFill => exact finish_memWf h (engineFill_memWf hs)
    case chainFault => exact finish_memWf h (chainFault_memWf hs)
    case engineChunkDone => exact finish_memWf h (engineChunkDone_memWf hs)
    case deadlineExpire => exact finish_memWf h (deadlineExpire_memWf hs)
    case launchDoorbell => exact finish_memWf h (launchDoorbell_memWf hs)
    case launchRecordRead => exact finish_memWf h (launchRecordRead_memWf hs)
    case teamPlace => exact finish_memWf h (teamPlace_memWf hs)
    case argCopyDone => exact finish_memWf h (argCopyDone_memWf hs)
    case fetchwAnswer => exact finish_memWf h (fetchwAnswer_memWf hs)
    case launchComplete => exact finish_memWf h (launchComplete_memWf hs)
    case watchdogExpire => exact finish_memWf h (watchdogExpire_memWf hs)
    case peerRequest => exact finish_memWf h (peerRequest_memWf hs)
    case linkFlitReceive => exact finish_memWf h (linkFlitReceive_memWf hs)
    case coldReset image => exact finish_memWf (s := coldReset image s) h (coldReset_memWf image s)
    case recoveryNewImage => exact finish_memWf h (recoveryNewImage_memWf hs)
    case preemptDeliver => exact finish_memWf h (preemptDeliver_memWf hs)
    all_goals cases hi
  · rw [exec_of_semOf hi] at h
    exact execX_memWf (semOf_keepsForm hi) h hs

/-! ## One step -/

/-- An outcome leaves memory in canonical form. -/
def Kept (o : Out) : Prop := ∀ t, o = .next t → t.mem.wf = true

theorem kept_exec {i : Instr} {s : State} (hs : s.mem.wf = true) : Kept (exec i s) := fun _ h => exec_memWf h hs

theorem kept_followedBy {o : Out} {f : State → State} (ho : Kept o) (hf : ∀ t, t.mem.wf = true → (f t).mem.wf = true) :
    Kept (followedBy o f) := by
  intro t h
  cases o with
  | next s => cases h; exact hf s (ho s rfl)
  | fault _ => cases h
  | refused _ => cases h

theorem kept_takeDue {s : State} (hs : s.mem.wf = true) (d : Due) : Kept (takeDue s d) := by
  cases d with
  | kill t => exact kept_exec (i := .killDeliver t) hs
  | conflict u => exact kept_exec (i := .transactionConflict u) hs
  | defer u d => exact fun _ h => finish_memWf h (by simp [hs])
  | engine u => exact fun _ h => finish_memWf h (by simp [hs])

theorem kept_issueAt {s : State} (hs : s.mem.wf = true) (qn : Nat) (a : Nat × Entry) (b : Option (Nat × Entry)) :
    Kept (issueAt s qn a b) :=
  kept_followedBy (kept_exec hs) fun _ => settle_memWf

theorem kept_issueNext {s : State} (hs : s.mem.wf = true) (qs : List Nat) :
    (issueNext s qs).1.mem.wf = true ∧ ∀ o, (issueNext s qs).2 = some o → Kept o := by
  induction qs generalizing s with
  | nil => exact ⟨hs, fun _ h => by cases h⟩
  | cons qn rest ih =>
    unfold issueNext
    extract_lets t
    have ht : t.mem.wf = true := by simp [t, hs]
    clear_value t
    split
    · refine ⟨ht, fun o h => ?_⟩
      cases h
      exact kept_issueAt ht _ _ _
    · exact ih (by simp [ht])

theorem kept_secondAt {s : State} (hs : s.mem.wf = true) (qn : Nat) (i : Issue) : Kept (secondAt s qn i) :=
  kept_followedBy (kept_exec hs) fun t ht => settle_memWf (by simp [ht])

theorem kept_ownStep {s : State} (hs : s.mem.wf = true) (i : Instr) : Kept (ownStep s i) :=
  kept_followedBy (kept_exec hs) fun _ => settle_memWf

theorem kept_runSweep {s : State} (hs : s.mem.wf = true) : Kept (runSweep s) := by
  unfold runSweep
  split
  · exact kept_ownStep hs _
  · intro t h
    cases h
    exact settle_memWf (by simp [hs])

theorem kept_runOwn {s : State} (hs : s.mem.wf = true) : Kept (runOwn s) := by
  unfold runOwn
  split
  · exact kept_ownStep hs _
  · exact kept_runSweep (by simp [hs])

theorem kept_runFree {s : State} (hs : s.mem.wf = true) : Kept (runFree s) := by
  unfold runFree
  split
  · have hn := kept_issueNext hs (turnOrder s)
    split
    · next _ o e => exact hn.2 o (by rw [e])
    · next t e =>
      rw [e] at hn
      exact kept_runOwn (by simpa using settle_memWf hn.1)
  · exact kept_runOwn hs

theorem kept_runStep {s : State} (hs : s.mem.wf = true) : Kept (runStep s) := by
  unfold runStep
  split
  · exact kept_secondAt hs _ _
  · split
    · exact kept_followedBy (kept_takeDue hs _) fun _ => settle_memWf
    · split
      · exact kept_followedBy (kept_exec hs) fun _ => settle_memWf
      · exact kept_runFree hs

theorem kept_step {s : State} (hs : s.mem.wf = true) : Kept (step s) :=
  kept_followedBy (kept_runStep hs) fun t ht => by simp [ht]

end Sys2Proof.Machine

namespace Sys2Proof.Proofs
open Sys2Proof.Machine

/-- Settles O57: what a step runs is one instruction or event after another, with the settling between them, and
each leaves memory in canonical form. -/
theorem memInvariant : Obligations.MemInvariant := fun _ t hs h => kept_step hs t h
end Sys2Proof.Proofs

end

