-- ==== Sys2Proof/Proofs/ColdReset.lean ====
section
/-!
PROOF. The machine right after cold reset (R463).
-/
namespace Sys2Proof.Machine

/-! ## The units of a machine right after cold reset -/

theorem tileState_empty : tileState 0 = 0 := by
  decide

theorem quad_reset (n : Nat) : State.reset.quad n = Quad.reset := rfl

theorem core_reset (n : Nat) : State.reset.core n = Core.reset := rfl

theorem slice_reset (n : Nat) : State.reset.slice n = Slice.reset := rfl

theorem engine_reset (n : Nat) : State.reset.engine n = Engine.reset := rfl
end Sys2Proof.Machine

namespace Sys2Proof.Proofs
open Sys2Proof.Machine

/-- Settles O56: each unit is what a cold reset makes of it, and every map of the state is empty. -/
theorem resetState : Obligations.ResetState := by
  unfold Obligations.ResetState
  refine ⟨fun _ => rfl, rfl, fun _ => rfl, rfl, rfl, rfl, rfl, rfl, rfl, fun n => ?_, fun n => ?_, fun n => ?_, rfl,
    fun n => ?_, fun _ => rfl, rfl, rfl, rfl, rfl, rfl, rfl⟩
  · rw [quad_reset]
    exact ⟨rfl, rfl, rfl, rfl, rfl, rfl⟩
  · rw [core_reset]
    exact ⟨rfl, fun _ => rfl, fun _ => tileState_empty, rfl, rfl⟩
  · rw [slice_reset]
    exact ⟨rfl, rfl, rfl, rfl, rfl⟩
  · rw [engine_reset]
    exact ⟨rfl, rfl⟩
end Sys2Proof.Proofs

end

