-- ==== Sys2Proof/Proofs/SteppeEvents.lean ====
section
/-!
PROOF. Admission to a Steppe region, its rows, laps and tokens (R416 to R421).
-/
namespace Sys2Proof.Machine

/-! ## The laps of a region -/

theorem mem_keys_fdel {β : Type} {m : FMap β} {k j : Nat} :
    j ∈ (fdel m k).map (·.1) ↔ j ∈ m.map (·.1) ∧ j ≠ k := by
  simp [fdel]

theorem mem_keys_fput {β : Type} {m : FMap β} {k j : Nat} {v : β} :
    j ∈ (fput m k v).map (·.1) ↔ j = k ∨ j ∈ m.map (·.1) := by
  induction m with
  | nil => simp [fput]
  | cons e m ih =>
    obtain ⟨i, u⟩ := e
    unfold fput
    split
    · next h =>
      subst h
      simp [ih]
    · split
      · rw [List.map_cons, List.mem_cons, List.map_cons, List.mem_cons, mem_keys_fdel]
        simp only [List.map_cons, List.mem_cons]
        tauto
      · rw [List.map_cons, List.mem_cons, ih]
        simp only [List.map_cons, List.mem_cons]
        tauto

/-- The slices of a region other than slice `n`: each owes it a token (R417). -/
def otherSlices (s : State) (comp idx n : Nat) : List Nat := ((s.region comp idx).laps.map (·.1)).filter (· != n)

section
variable {s : State} {comp idx n : Nat} {x : SliceLap}

theorem setLap_region (h : lapOf s comp idx n = some x) (f : SliceLap → SliceLap) :
    (setLap s comp idx n f).region comp idx =
      { s.region comp idx with laps := fput (s.region comp idx).laps n (f x) } := by
  unfold lapOf at h
  rw [setLap, State.mapRegion_region, h]

theorem lapOf_setLap (h : lapOf s comp idx n = some x) (f : SliceLap → SliceLap) :
    lapOf (setLap s comp idx n f) comp idx n = some (f x) := by
  rw [lapOf, setLap_region h, flook_fput, if_pos rfl]

theorem mem_otherSlices_setLap (h : lapOf s comp idx n = some x) (f : SliceLap → SliceLap) (o : Nat) :
    o ∈ otherSlices (setLap s comp idx n f) comp idx n ↔ o ∈ otherSlices s comp idx n := by
  unfold otherSlices
  rw [setLap_region h]
  simp only [List.mem_filter, mem_keys_fput, bne_iff_ne]
  tauto

theorem regionDesc_setLap (h : lapOf s comp idx n = some x) (f : SliceLap → SliceLap) :
    regionDesc (setLap s comp idx n f) comp idx = regionDesc s comp idx := by
  unfold regionDesc
  rw [setLap_region h]
  rfl

theorem releaseRows_open (h : (s.region comp idx).old = none) : releaseRows s comp idx = s := by
  simp [releaseRows, h]

/-- Slice `n` enters its next lap. -/
def nextLap (s : State) (comp idx n : Nat) : State :=
  setLap s comp idx n (fun x => { x with lap := x.lap + 1, st := .sweep, cursor := 0, tokens := [] })

/-- When a slice enters its next lap: it waits, and each other slice's token is there (R417). -/
def LapReady (s : State) (comp idx n : Nat) (x : SliceLap) : Prop :=
  x.st = .wait ∧ (s.slice n).selfRefresh = false ∧ ∀ o ∈ otherSlices s comp idx n, o ∈ x.tokens

theorem enterLap_guard : (x.st != .wait || (s.slice n).selfRefresh ||
    !((((s.region comp idx).laps.map (·.1)).filter (· != n)).all x.tokens.contains)) = false ↔ LapReady s comp idx n x := by
  simp only [LapReady, otherSlices, Bool.or_eq_false_iff, and_assoc, bne_eq_false_iff_eq, Bool.not_eq_false',
    List.all_eq_true, List.contains_iff_mem]

theorem enterLap_stays (h : lapOf s comp idx n = some x) (hx : ¬ LapReady s comp idx n x) :
    enterLap s comp idx n = s := by
  unfold enterLap
  rw [h]
  exact if_pos (eq_true_of_ne_false (mt enterLap_guard.mp hx))

theorem enterLap_enters (h : lapOf s comp idx n = some x) (hx : LapReady s comp idx n x) :
    enterLap s comp idx n = if n = dHome (regionDesc s comp idx) then keepLap (nextLap s comp idx n) comp idx (x.lap + 1)
      else nextLap s comp idx n := by
  unfold enterLap
  rw [h]
  refine (if_neg (ne_true_of_eq_false (enterLap_guard.mpr hx))).trans ?_
  simp only [regionDesc_setLap h, beq_iff_eq, nextLap]

/-! ## Admission (R418) -/

/-- A request that its slice has admitted to the lap after the one under way. -/
def withAdmitted (s : State) (k n : Nat) (q : SReq) (x : SliceLap) : State :=
  { s with fabric := s.fabric.eraseIdx k }.mapSlice n (fun z =>
    { z with admitted := z.admitted ++ [{ q with lap := x.lap + 1 }] })

/-- What admission does, to a lap read and to an update. -/
theorem steppeAdmit_admits {k : Nat} {q : SReq} (hk : s.fabric[k]? = some q) (ha : admitReady s k q = true)
    (hn : reqSlice s q = n) (hx : lapOf s q.comp q.idx n = some x) :
    steppeAdmit k s = if q.op.isSome
      then finishEntry (markDone (withAdmitted s k n q x) q.core q.entry (· == q.job)) q.core q.entry
      else withAdmitted s k n q x := by
  subst hn
  simp [steppeAdmit, hk, ha, hx, withAdmitted]

end

/-! ## The end of a lap and its tokens (R416, R417) -/

section
variable {s : State} {comp idx n src : Nat} {x : SliceLap}

theorem lapEnd_waits (h : lapOf s comp idx n = some x) (hs : x.st = .sweep) (hr : (s.slice n).selfRefresh = false)
    (hc : x.cursor = (sliceRows (regionDesc s comp idx) n).length) (ho : (s.region comp idx).old = none)
    (hm : ∃ o ∈ otherSlices s comp idx n, o ∉ x.tokens) :
    lapEnd comp idx n s = setLap s comp idx n (fun x => { x with st := .wait }) := by
  obtain ⟨o, hmem, hno⟩ := hm
  have hstay := enterLap_stays (lapOf_setLap h (fun x => { x with st := .wait }))
    fun hl => hno (hl.2.2 o ((mem_otherSlices_setLap h _ o).mpr hmem))
  have hold : ((setLap s comp idx n (fun x => { x with st := .wait })).region comp idx).old = none := by
    rw [setLap_region h]
    exact ho
  simp [lapEnd, h, hs, hr, hc, hstay, releaseRows_open hold]

/-- Slice `n` takes the token of slice `src` (R417). -/
theorem lapDoneToken_takes (h : lapOf s comp idx n = some x) (hr : (s.slice n).selfRefresh = false) (hn : src ≠ n)
    (hm : src ∉ x.tokens) (ht : tokenSent s comp idx src x.lap = true) :
    lapDoneToken comp idx n src s =
      enterLap (setLap s comp idx n (fun x => { x with tokens := x.tokens ++ [src] })) comp idx n := by
  simp [lapDoneToken, h, hr, hn, hm, ht]

theorem lapReady_token (h : lapOf s comp idx n = some x) (hr : (s.slice n).selfRefresh = false) (hs : x.st = .wait)
    (ho : ∀ o ∈ otherSlices s comp idx n, o = src ∨ o ∈ x.tokens) :
    LapReady (setLap s comp idx n (fun x => { x with tokens := x.tokens ++ [src] })) comp idx n
      { x with tokens := x.tokens ++ [src] } := by
  refine ⟨hs, hr, fun o hm => ?_⟩
  have := ho o ((mem_otherSlices_setLap h _ o).mp hm)
  simpa [or_comm] using this

end
end Sys2Proof.Machine

namespace Sys2Proof.Proofs
open Sys2Proof.Machine

/-- Settles O49: each event is its function of the state; a token or the end of a sweep enters the next lap exactly
where the slice waits and every other slice's token is there. -/
theorem steppeEvents : Obligations.SteppeEvents := by
  unfold Obligations.SteppeEvents
  intro k comp idx n src q x g
  refine ⟨⟨?_, fun op => ?_⟩, ?_, ?_, ?_, ?_, ?_⟩
  -- admission
  · exact happens_of (steppeAdmit k) (fun _ => rfl) (fun s ⟨⟨hk, ha, hn, hx⟩, hop⟩ =>
      (steppeAdmit_admits hk ha hn hx).trans (if_neg (by simp [hop])))
  · exact happens_of (steppeAdmit k) (fun _ => rfl) (fun s ⟨⟨hk, ha, hn, hx⟩, hop⟩ =>
      (steppeAdmit_admits hk ha hn hx).trans (if_pos (by simp [hop])))
  -- a row
  · exact happens_of (steppeRowApply comp idx n) (fun _ => rfl) (fun s ⟨h, hg, hs, hr, hb⟩ => by
      simp [steppeRowApply, h, hg, hs, hr, hb])
  -- laps and tokens
  · exact happens_of (lapEnd comp idx n) (fun _ => rfl) (fun s ⟨h, hs, hr, hc, ho, hm⟩ =>
      lapEnd_waits h hs hr hc ho hm)
  · exact happens_of (lapDoneToken comp idx n src) (fun _ => rfl) (fun s ⟨h, hr, hn, hm, ht, hs⟩ => by
      rw [lapDoneToken_takes h hr hn hm ht, enterLap_stays (lapOf_setLap h _) fun hl => by
        cases hs.symm.trans hl.1])
  · exact happens_of (lapDoneToken comp idx n src) (fun _ => rfl) (fun s ⟨h, hr, hn, hm, ht, hs, ho, hh⟩ => by
      rw [lapDoneToken_takes h hr hn hm ht, enterLap_enters (lapOf_setLap h _) (lapReady_token h hr hs ho),
        regionDesc_setLap h, if_neg hh]
      rfl)
  · exact happens_of (lapDoneToken comp idx n src) (fun _ => rfl) (fun s ⟨h, hr, hn, hm, ht, hs, ho, hh⟩ => by
      rw [lapDoneToken_takes h hr hn hm ht, enterLap_enters (lapOf_setLap h _) (lapReady_token h hr hs ho),
        regionDesc_setLap h, if_pos hh]
      rfl)

end Sys2Proof.Proofs

end

