-- ==== Sys2Proof/Proofs/MatrixWords.lean ====
section
/-!
PROOF. The words of the matrix units (R396 to R411).
-/
namespace Sys2Proof.Machine

/-! ## A unit's holder (R396, R397) -/

section
variable {s : State} {c : Ctx}

/-- The unit with team `team` as its holder, where it is free. -/
def takeUnit (s : State) (qn team num : Nat) : State :=
  if (s.quad qn).mx.holder.isNone then s.mapQuad qn (fun q => { q with mx := { q.mx with holder := some (team, num) } })
  else s

theorem takeUnit_heldBy (qn team num : Nat) :
    ((takeUnit s qn team num).quad qn).mx.heldBy team = ((s.quad qn).mx.holder.isNone || (s.quad qn).mx.heldBy team) := by
  unfold takeUnit
  cases h : (s.quad qn).mx.holder.isNone with
  | true => simp [State.mapQuad_quad, MxUnit.heldBy]
  | false => simp

theorem mxrsvBody_takes (f : Full) (hq : c.qn = c.rd.qn) : mxrsvBody f s c =
    { st := (takeUnit s c.rd.qn c.rd.team c.rd.num).mapWave c.u (fun w => w.mapLanes c.act (fun _ t =>
        t.setPred f.dn ((s.quad c.rd.qn).mx.holder.isNone || (s.quad c.rd.qn).mx.heldBy c.rd.team))) } := by
  rw [← takeUnit_heldBy c.rd.qn c.rd.team c.rd.num, ← hq]
  unfold mxrsvBody takeUnit
  cases h : (s.quad c.qn).mx.holder <;> simp [h]

theorem takeUnit_bad (qn team num : Nat) : (takeUnit s qn team num).bad = s.bad := by
  unfold takeUnit
  split <;> rfl

theorem mxrelBody_releases (hq : c.qn = c.rd.qn) : mxrelBody s c =
    { st := if (s.quad c.rd.qn).mx.heldBy c.rd.team then
        s.mapQuad c.rd.qn (fun q => { q with mx := { q.mx with holder := none } }) else s } := by
  rw [mxrelBody, hq]
  split <;> rfl

theorem mxrelWaits_free {w : Wave} {a : Mask}
    (h : (s.quad w.qn).mx.heldBy w.team = true → ∀ x ∈ (s.quad w.qn).mx.ops, x.team ≠ w.team) : mxrelWaits s w a = false := by
  simpa [mxrelWaits] using fun (_ : ¬ a = 0) => h

end

/-! ## MXGO (R403) -/

theorem vaClean_none {w : Wave} {a : Mask} : vaClean (fun _ _ => []) w a = true := by
  simp [vaClean, operandTrap, waitsFor]

/-- Operands that are ready for a group are ready where MXGO looks at them, if every thread names the same operands. -/
theorem vaClean_of_ready {grd : Guard} {ops : Wave → Nat → List Opnd} {w : Wave} {g : Mask} (R : OpsReady grd ops w g)
    (hlive : ∀ l, ∀ o ∈ ops w l, o.grd = .always ∧ o.idx = false)
    (hsame : ∀ l k, (ops w l).map (Opnd.format w) = (ops w k).map (Opnd.format w)) :
    vaClean ops w (activeLanes grd w g) = true := by
  have hl : ∀ l, liveOps (ops w l) (w.thread l) = ops w l := fun l =>
    List.filter_eq_self.2 fun o ho => by rw [(hlive l o ho).1]; rfl
  refine List.all_eq_true.2 fun l hm => ?_
  have hfull := R.full l hm
  have hsound := R.sound l hm
  rw [hl] at hfull hsound
  have htags : ∀ o ∈ ops w l, o.format w = none := by
    intro o ho
    have hmem := List.mem_map_of_mem (f := Opnd.format w) ho
    rw [hsame l ((lowest g).getD 0)] at hmem
    obtain ⟨p, hp, he⟩ := List.mem_map.1 hmem
    rw [← he]
    exact R.tags p hp (hlive _ p hp).2
  simpa [hfull, hsound] using htags

theorem vaClean_opWave {f : Full} {s : State} {w : Wave} {g : Mask}
    (R : OpsReady f.grd (fun w l => [opWave f (opA f · .n32) s w l]) w g) :
    vaClean (fun w l => [opWave f (opA f · .n32) s w l]) w (activeLanes f.grd w g) = true :=
  vaClean_of_ready R (fun l o ho => by rw [List.mem_singleton.1 ho]; exact ⟨rfl, rfl⟩) (fun _ _ => rfl)

/-- The effect of a word may rest on its operands being at hand. -/
theorem waveWord_of_clean {ins : Instr} {grd : Guard} {ops : State → Wave → Nat → List Opnd} {ok : State → Ctx → Prop}
    {eff : State → Ctx → State} {stay : Ctx → Mask} {go : Ctx → Nat → Option Word}
    (hcount : ∀ s u n, ops (counted s u n) = ops s)
    (hclean : ∀ s w g, OpsReady grd (ops s) w g → vaClean (ops s) w (activeLanes grd w g) = true)
    (h : WaveWord ins grd ops (fun s c => ok s c ∧ vaClean (ops s) c.rd c.act = true) eff stay go) :
    WaveWord ins grd ops ok eff stay go := by
  intro s i w g A R h0 c s1 hk
  exact h s i w g A R h0 ⟨hk, by rw [hcount]; exact hclean s w g R⟩

theorem mxStoresOut_counted (s : State) (u n : Nat) (w : Wave) (t : Team) (o : Nat) :
    mxStoresOut (counted s u n) w t o = mxStoresOut s w t o := by
  have hw : (((counted s u n).wave? w.uid).getD w).sq = ((s.wave? w.uid).getD w).sq := by
    unfold counted
    rw [State.mapWave_wave (hf := by intro v h; exact h)]
    split
    · cases s.wave? w.uid <;> rfl
    · rfl
  unfold mxStoresOut
  simp only [hw]
  rfl

theorem mxPlan_counted (f : Full) (s : State) (u n : Nat) (w : Wave) (a : Mask) :
    mxPlan f (counted s u n) w a = mxPlan f s w a := by
  unfold mxPlan
  simp only [mxStoresOut_counted]
  rfl

/-- Nothing holds MXGO at issue once its checks find nothing. -/
theorem semMxgo_goes {f : Full} {ops : State → Wave → Nat → List Opnd} {s : State} {u n : Nat} {w : Wave} {a : Mask}
    {o : Nat} {b : BitVec 128} {acc : Ety} (hg : mxPlan f (counted s u n) w a = .go o b acc) :
    (semMxgo f ops).hold s w a = false ∧ (semMxgo f ops).tile s w a = none ∧ (semMxgo f ops).fmt s w a = none := by
  rw [mxPlan_counted] at hg
  have hs : mxStage f ops s w a = if vaClean (ops s) w a then .go o b acc else .idle := by
    rw [mxStage, hg]
  cases hv : vaClean (ops s) w a <;> simp [semMxgo, hs, hv]

theorem drawLost_bad (s : State) (core : Nat) (ad : List Nat) : (drawLost s core ad).bad = s.bad := by
  unfold drawLost
  split <;> rfl

theorem mxForm_bad (s : State) (core team bsid : Nat) : (mxForm s core team bsid).bad = s.bad := by
  unfold mxForm
  extract_lets ms
  split
  · rfl
  · rw [foldl_bad]
    exact fun _ _ => rfl

theorem mxPlace_bad (s : State) (w : Wave) (t : Team) (pc : Word) (off kb0 : Nat) (again : Bool) (b : BitVec 128)
    (acc : Ety) : (mxPlace s w t pc off kb0 again b acc).bad = s.bad := by
  simp [mxPlace, apply_ite State.bad, mxForm_bad, setTile_bad, foldl_bad, addReaders_bad]

/-- MXGO places its operation where its checks find nothing. -/
theorem mxgoWord (ins : Instr) (f : Full) (ops : State → Wave → Nat → List Opnd) (t : Team) (o : Nat) (b : BitVec 128)
    (acc : Ety) (hex : ∀ s, exec ins s = execX (semMxgo f ops) s) (hcount : ∀ s u n, ops (counted s u n) = ops s)
    (hclean : ∀ s w g, OpsReady f.grd (ops s) w g → vaClean (ops s) w (activeLanes f.grd w g) = true) :
    WaveWord ins f.grd ops
      (fun s c => declares (·.umx) s c.rd c.hm = true ∧ c.team = some t ∧ mxPlan f s c.rd c.act = .go o b acc)
      (fun s c => mxPlace (drawLost s c.rd.core (mxBlockBytes t o)) c.rd t c.pc o 0 false b acc) (fun _ => 0)
      (fun _ _ => none) := by
  refine waveWord_of_clean hcount hclean (waveWord_of (m := semMxgo f ops) hex (fun _ _ _ => rfl) ?_ ?_ ?_ ?_ ?_ ?_)
  · exact fun _ _ _ _ ⟨⟨hd, _⟩, _⟩ => hd
  · exact fun _ _ _ _ ⟨⟨_, _, hg⟩, _⟩ => (semMxgo_goes hg).1
  · exact fun _ _ _ _ ⟨⟨_, _, hg⟩, _⟩ => (semMxgo_goes hg).2.1
  · exact fun _ _ _ _ ⟨⟨_, _, hg⟩, _⟩ => (semMxgo_goes hg).2.2
  · intro s c ⟨⟨_, ht, hg⟩, hv⟩ _ _ _ _
    have hs : mxStage f ops s c.rd c.act = .go o b acc := (if_pos hv).trans hg
    refine ⟨{ st := mxPlace (drawLost s c.rd.core (mxBlockBytes t o)) c.rd t c.pc o 0 false b acc }, ?_, rfl, rfl, rfl, rfl,
      rfl, fun _ => rfl⟩
    show mxgoBody f ops s c = _
    simp only [mxgoBody, hs, ht]
  · exact fun _ _ _ hb => (mxPlace_bad ..).trans ((drawLost_bad ..).trans hb)

/-! ## MXPROM (R408, R410) -/

section
variable {f : Full} {s : State} {c : Ctx} {e : DWord} {t : Team}

/-- An MXPROM has issued with the image it read. -/
def promBegun (f : Full) (e : DWord) (img : List Byte) (s : State) (c : Ctx) : State :=
  { s with nextId := s.nextId + 1 }.mapWave c.u (Wave.begin { Flight.start s.nextId c.pc f.ety with
    jobs := c.lanes.map (fun l => Job.known l f.dn f.ety (natWords (promCount f * f.ety.regs)
      (leNat ((img.drop ((promOff f e (promCount f) (c.rd.thread l)).getD 0)).take (promCount f * f.ety.esize)))) 0) })

theorem mxpromBody_reads {img : List Byte} (hn : namedTile s c.rd (f.an % 256) false = some e) (ht : c.team = some t)
    (himg : tileImageWith s c.rd.core t e (lostCells s c.rd.core t e 0) = some img)
    (hin : ∀ l ∈ c.lanes, (promOff f e (promCount f) (c.rd.thread l)).isSome = true) (h0 : c.act ≠ 0) (htx : c.tx = false) :
    mxpromBody f s c =
      (let s := drawLost s c.rd.core (tAddrs t e 0 (tSize e))
       { st := countReader s (promBegun f e img s c) c t (f.an % 256) }) := by
  have hoff : c.lanes.map (fun l => (l, promOff f e (promCount f) (c.rd.thread l))) =
      c.lanes.map (fun l => (l, some ((promOff f e (promCount f) (c.rd.thread l)).getD 0))) :=
    List.map_congr_left fun l hl => by
      obtain ⟨o, ho⟩ := Option.isSome_iff_exists.1 (hin l hl)
      rw [ho]
      rfl
  unfold mxpromBody
  simp only [hn, ht, himg, hoff, filter_isNone_some, filterMap_some, isEmpty_map_lanes h0, startFlight_alone htx,
    List.map_nil, List.map_map, Bool.false_eq_true, if_false, Bool.not_true]
  rfl

theorem semMxstat_reads {v : Nat} (hv : mxStatus s c.rd = v) (htx : c.tx = false) : (semMxstat f).body s c =
    { st := s.mapWave c.u (Wave.spread c.act f.dn .n32 v), flags := c.lanes.map (fun l => (l, 0)) } := by
  subst hv
  exact lanewise_spread (fun _ _ _ => LaneOut.val f.dn .n32 (mxStatus s c.rd)) s c f.dn .n32 _ htx (fun _ _ => rfl)

end

end Sys2Proof.Machine

namespace Sys2Proof.Proofs
open Sys2Proof.Machine

/-- Settles O38: each word is its body; MXGO finds its operands at hand and nothing that holds it, and places the
operation that its plan names. -/
theorem matrixResults : Obligations.MatrixResults := by
  unfold Obligations.MatrixResults
  intro f t e
  refine ⟨?_, ?_, fun o b acc => ?_, fun o b acc => ?_, fun img => ?_, fun v => ?_⟩
  -- MXRSV and MXREL
  · exact soloWord_bare (m := semMxrsv f) (Sem.bare_of_plain rfl) (fun _ => rfl) (fun _ _ _ => rfl)
      (fun _ _ hq _ => mxrsvBody_takes f hq) (fun _ _ => takeUnit_bad ..)
  · refine soloWord_of (m := semMxrel f) (fun _ => rfl) (fun _ _ _ => rfl) (fun _ _ _ => rfl)
      (fun _ _ hk => mxrelWaits_free hk.2) (fun _ _ _ => rfl) (fun _ _ _ => rfl)
      (fun _ _ hk _ _ _ _ => mxrelBody_releases hk.1) (fun s c _ hb => ?_)
    dsimp only
    split <;> exact hb
  -- MXGO
  · exact mxgoWord (.mxgoImm f) f _ t o b acc (fun _ => rfl) (fun _ _ _ => rfl) (fun _ _ _ _ => vaClean_none)
  · exact mxgoWord (.mxgoReg f) f _ t o b acc (fun _ => rfl) (fun _ _ _ => rfl) (fun _ _ _ R => vaClean_opWave R)
  -- MXPROM
  · exact waveWord_body (m := semMxprom f) (fun _ => rfl) (fun _ _ _ => rfl) (fun _ _ _ => rfl)
      (fun _ _ _ _ ⟨_, hbusy, _⟩ => hbusy) (fun _ _ _ _ ⟨htile, _⟩ => htile) (fun _ _ _ _ ⟨_, _, hfmt, _⟩ => hfmt)
      (fun _ _ ⟨_, _, _, hn, ht, himg, hin⟩ h0 htx => mxpromBody_reads hn ht himg hin h0 htx)
      (fun _ _ _ => (countReader_bad ..).trans (drawLost_bad ..))
  -- MXSTAT
  · refine waveWord_zero (m := semMxstat f) (fun _ => rfl) (fun _ _ _ => rfl) (fun _ _ _ _ _ => rfl)
      (fun _ _ _ _ _ => rfl) (fun _ _ _ _ _ => rfl) (fun _ _ _ _ _ => rfl) ?_ (fun _ _ _ hb => hb)
    intro s c hv _ _ _ htx
    refine ⟨_, semMxstat_reads hv htx, rfl, rfl, fun p hp => ?_, rfl, rfl, fun _ => rfl⟩
    obtain ⟨l, -, rfl⟩ := List.mem_map.1 hp
    rfl

end Sys2Proof.Proofs

end
